-- ==== Sys2Proof/Word.lean ====
section
/-! DEFINITION. The words of the Vantrim 4412: 16-bit bus words, bytes, 32-bit quantities and scan
lines (spec/00_scope.md, Conventions, Sizes). -/

namespace Sys2Proof

/-- A word of the host bus, 16 bits (00_scope, Conventions). -/
abbrev Word := BitVec 16

/-- A byte of record memory or image memory. -/
abbrev Byte := BitVec 8

/-- A 32-bit quantity: a matter number, a box number, a digest, the travel count. -/
abbrev Long := BitVec 32

/-- One image line of one side: 4,096 bilevel pixels. Column 0 is the most significant bit; 1 is
black (00_scope, Terms, pixel; R159: within a byte the most significant bit is the lower-numbered
column). -/
abbrev ScanLine := BitVec 4096

/-- The high word of a two-word quantity. -/
def Long.high (x : Long) : Word := x.extractLsb' 16 16

/-- The low word of a two-word quantity. -/
def Long.low (x : Long) : Word := x.extractLsb' 0 16

/-- A quantity that travels as two words, the high word first (01, section 1.5). -/
def Long.ofWords (high low : Word) : Long := high ++ low

/-- A quantity as a bus word. -/
def word (n : Nat) : Word := BitVec.ofNat 16 n

/-- The pixel of one column of a line; true is black. -/
def ScanLine.pixel (l : ScanLine) (column : Nat) : Bool := l.getMsbD column

/-- A line with no black pixel. -/
def ScanLine.white : ScanLine := 0

end Sys2Proof
end

