-- ==== Sys2Proof/Syntax.lean ====
section
/-! DEFINITION. The commands of the 4412: one constructor of `Instr` per row of
spec/opcode_table.json, with the row's operands. The rows are the part's steps, each whole and
indivisible (spec/95_what_each_step_holds.md). -/

namespace Sys2Proof

/-- A request tag, 0 to 31 (R188). -/
abbrev Tag := BitVec 5

/-- One of the four output trays, and the gate and the exit that serve it. Tray n of the manual is
index n - 1. -/
abbrev TrayIx := Fin 4

/-- One of the 24 transport lines L0 to L23. -/
abbrev LineIx := Fin 24

/-- The two edge sensors: A on L1, B on L2 (R178). -/
inductive Sensor where
  | a
  | b
  deriving DecidableEq, Repr

/-- The two sides of a sheet. -/
inductive Side where
  | front
  | back
  deriving DecidableEq, Repr

/-- An exit of the path: a tray exit (L6 to L9) or the reject exit (L10). -/
inductive Exit where
  | tray (n : TrayIx)
  | reject
  deriving DecidableEq, Repr

/-- What the board does to a pin: it drives the pin to a level, or leaves it (R180: a pull is weak,
and any drive from the board overrides it). -/
inductive Drive where
  | low
  | high
  | released
  deriving DecidableEq, Repr

/-- The arrivals of R108. -/
inductive Arrival where
  | entryTrailing
  | firstEdge
  | secondEdge
  | scanLeading
  | scanTrailing
  | exitLeading
  | exitTrailing
  deriving DecidableEq, Repr

/-- A bus write that has no effect: to location 3, or to PORT CONTROL (R185). -/
inductive IdleLocation where
  | location3
  | portControl
  deriving DecidableEq, Repr

/-- Where a reset falls in the record-memory writes of the step before it (R37): how many of them
have landed, and whether the next one is torn. -/
structure Cut where
  landed : Nat
  torn : Bool
  deriving DecidableEq, Repr

/-- What a travel pulse finds at the zone detectors L3 and L4 (R111). -/
structure ZoneLevels where
  doubleFeed : Drive
  separator : Drive
  deriving DecidableEq, Repr

/-- Whether the paper has left the edge sensors at L1 and at L2 by a travel pulse (R109; log 18). -/
structure PaperLeft where
  a : Bool := false
  b : Bool := false
  deriving DecidableEq, Repr

/-- The commands: the rows of spec/opcode_table.json. A request row is the request as the port
passes it to its owner: its tag and its argument words (two-word arguments joined). -/
inductive Instr where
  -- resets and the rebuild
  | powerOn (cut : Option Cut)
  | resetPin (cut : Option Cut)
  | ready
  -- the four bus locations (R185)
  | requestWord (w : Word)
  | takeRequest
  | replyRead
  | noticeRead
  | portStatus
  | exportData
  | clearOverrun (w : Word)
  | interruptEnable (w : Word)
  | writeNoEffect (location : IdleLocation) (w : Word)
  -- folio requests (01, section 1.5)
  | lookup (tag : Tag) (folio : Word)
  | find (tag : Tag) (matter : Long) (sequence : Word)
  | nextInMatter (tag : Tag) (folio : Word)
  | readExceptions (tag : Tag) (folio : Word)
  | setRetention (tag : Tag) (folio day : Word)
  | refile (tag : Tag) (folio : Word) (matter : Long)
  | hold (tag : Tag) (folio : Word)
  | release (tag : Tag) (folio : Word)
  | holdMatter (tag : Tag) (matter : Long)
  | releaseMatter (tag : Tag) (matter : Long)
  | retire (tag : Tag) (folio today : Word)
  | shedImage (tag : Tag) (folio : Word)
  | purgeSlot (tag : Tag) (slot : Word)
  -- Assembler requests (03)
  | mountTray (tag : Tag) (tray : Word) (box : Long) (soft hard fill : Word)
  | dismountTray (tag : Tag) (tray : Word)
  | readTray (tag : Tag) (tray : Word)
  | closeDocument (tag : Tag) (flag : Word)
  -- term requests (04)
  | loadTerms (tag : Tag) (first : Word) (terms : List Word)
  | clearTerms (tag : Tag)
  | checkTerms (tag : Tag)
  | readTerms (tag : Tag) (first : Word)
  -- train requests (05)
  | readTrain (tag : Tag)
  | readTicket (tag : Tag) (ordinal : Word)
  | setPath (tag : Tag) (first : Word) (values : List Word)
  | readPath (tag : Tag) (first : Word)
  | clearTrain (tag : Tag)
  -- skew requests (06)
  | setSkew (tag : Tag) (limit threshold : Word)
  | readSkew (tag : Tag)
  -- image memory, audit and transfer requests (07, 08)
  | setArbiter (tag : Tag) (mode : Word)
  | maskChannel (tag : Tag) (channel mask : Word)
  | readChannels (tag : Tag)
  | verify (tag : Tag) (folio : Word)
  | cancelVerify (tag : Tag)
  | openExport (tag : Tag) (folio : Word)
  | cancelExport (tag : Tag)
  -- batch requests (09)
  | startBatch (tag : Tag) (matter : Long) (cls duplex : Word)
  | pauseFeed (tag : Tag)
  | resumeFeed (tag : Tag)
  | stopBatch (tag : Tag)
  | abortBatch (tag : Tag)
  | readBatch (tag : Tag)
  -- line requests (10)
  | setLine (tag : Tag) (line direction latch pull active enable : Word)
  | readLines (tag : Tag)
  -- travel and time
  | travelPulse (zones : ZoneLevels) (left : PaperLeft) (front back : ScanLine)
  | windowPasses (ordinal : Word) (arrival : Arrival)
  | gateClaim (ordinal : Word) (gate : TrayIx)
  | gateRelease (ordinal : Word) (gate : TrayIx)
  | stall
  | feedWindowPasses
  -- edges at the transport lines
  | entryLeadingEdge
  | entryTrailingEdge
  | edgeSensorLeadingEdge (sensor : Sensor)
  | scanLeadingEdge
  | scanTrailingEdge
  | flushLine (side : Side)
  | exitLeadingEdge (exit : Exit)
  | exitTrailingEdge (exit : Exit)
  | rejectFullLineChange (drive : Drive)
  -- work inside the part
  | feedTest
  | bandTransferDone
  | decision (switch0 switch1 : Drive)
  | decisionOutcome
  deriving DecidableEq, Repr

end Sys2Proof
end

