-- ==== Sys2Proof/WellFormed.lean ====
section
/-! DEFINITION. Which commands are well formed: the operands the row's own rule admits as that row.
Argument words that a rule refuses with a reply code (BAD ARGUMENT) are well formed; they are the
host's to write. -/

namespace Sys2Proof

/-- An argument list of one first word and 1 to 6 further words (R75, R104). -/
def oneToSix (ws : List Word) : Bool := 1 ≤ ws.length && ws.length ≤ 6

/-- PORT CONTROL acts on bit 0 alone (R185). -/
def clearsOverrun (w : Word) : Bool := w.getLsbD 0

/-- Well-formedness of a command. -/
def Instr.wellFormed : Instr → Bool
  | .powerOn _ => true
  | .resetPin _ => true
  | .ready => true
  | .requestWord _ => true
  | .takeRequest => true
  | .replyRead => true
  | .noticeRead => true
  | .portStatus => true
  | .exportData => true
  | .clearOverrun w => clearsOverrun w
  | .interruptEnable _ => true
  | .writeNoEffect .location3 _ => true
  | .writeNoEffect .portControl w => !clearsOverrun w
  | .lookup _ _ => true
  | .find _ _ _ => true
  | .nextInMatter _ _ => true
  | .readExceptions _ _ => true
  | .setRetention _ _ _ => true
  | .refile _ _ _ => true
  | .hold _ _ => true
  | .release _ _ => true
  | .holdMatter _ _ => true
  | .releaseMatter _ _ => true
  | .retire _ _ _ => true
  | .shedImage _ _ => true
  | .purgeSlot _ _ => true
  | .mountTray _ _ _ _ _ _ => true
  | .dismountTray _ _ => true
  | .readTray _ _ => true
  | .closeDocument _ _ => true
  | .loadTerms _ _ terms => oneToSix terms
  | .clearTerms _ => true
  | .checkTerms _ => true
  | .readTerms _ _ => true
  | .readTrain _ => true
  | .readTicket _ _ => true
  | .setPath _ _ values => oneToSix values
  | .readPath _ _ => true
  | .clearTrain _ => true
  | .setSkew _ _ _ => true
  | .readSkew _ => true
  | .setArbiter _ _ => true
  | .maskChannel _ _ _ => true
  | .readChannels _ => true
  | .verify _ _ => true
  | .cancelVerify _ => true
  | .openExport _ _ => true
  | .cancelExport _ => true
  | .startBatch _ _ _ _ => true
  | .pauseFeed _ => true
  | .resumeFeed _ => true
  | .stopBatch _ => true
  | .abortBatch _ => true
  | .readBatch _ => true
  | .setLine _ _ _ _ _ _ _ => true
  | .readLines _ => true
  | .travelPulse _ _ _ _ => true
  | .windowPasses _ _ => true
  | .gateClaim _ _ => true
  | .gateRelease _ _ => true
  | .stall => true
  | .feedWindowPasses => true
  | .entryLeadingEdge => true
  | .entryTrailingEdge => true
  | .edgeSensorLeadingEdge _ => true
  | .scanLeadingEdge => true
  | .scanTrailingEdge => true
  | .flushLine _ => true
  | .exitLeadingEdge _ => true
  | .exitTrailingEdge _ => true
  | .rejectFullLineChange _ => true
  | .feedTest => true
  | .bandTransferDone => true
  | .decision _ _ => true
  | .decisionOutcome => true

end Sys2Proof
end

