-- ==== Sys2Proof/Decode.lean ====
section
/-! DEFINITION. The commands that a word spells by the table's bits. No row of
spec/opcode_table.json has bits (98_reader.md: "n_rows_with_fields": 0), so no word spells one. The
reading of REQUEST words (R186, R188) is the port's work and stands in Machine/Port.lean. -/

namespace Sys2Proof

/-- The command a word spells by the table's bits: none, since the table gives no row bits. -/
def decodeTableWord (_nbits _w : Nat) : Option Instr := none

end Sys2Proof
end

