-- ==== Sys2Proof/Config.lean ====
section
/-! DEFINITION. What the part fixes as numbers in the manual, and the free values: constants with no
body, so that no proof can know their value. -/

namespace Sys2Proof.Config

/-- Record slots in record memory (R35). -/
def slotCount : Nat := 4096
/-- Directory places (R35). -/
def placeCount : Nat := 256
/-- Plates of image memory (R35). -/
def plateCount : Nat := 65536
/-- Words the request FIFO and the reply FIFO hold (R186, R188). -/
def fifoWords : Nat := 32
/-- Notices the notice queue holds (R189). -/
def noticePlaces : Nat := 16
/-- Words the export buffer holds (R160). -/
def exportWords : Nat := 8192
/-- Words of one band (R159). -/
def bandWords : Nat := 4096
/-- Bytes of one band and of one plate (07, section 7). -/
def bandBytes : Nat := 8192
def plateBytes : Nat := 65536
/-- Lines of one band (R132). -/
def bandLines : Nat := 16
/-- Bands a band queue holds (R132). -/
def queueBands : Nat := 4
/-- Plates one side may take (R142, R145). -/
def sidePlates : Nat := 54
/-- Tickets the train holds (R100). -/
def trainTickets : Nat := 6
/-- Pages at which a document is closed (R63). -/
def documentPages : Nat := 250
/-- Entries an exception list stores (R10). -/
def exceptionPlaces : Nat := 8
/-- The leading position beyond which an uncovered length is OVERLENGTH (R107). -/
def overlength : Nat := 7200
/-- Travel after the first edge within which the second edge is taken (R108). -/
def secondEdgeTravel : Nat := 350
/-- What the skewed first corner may lead the centre by (R108). -/
def cornerLead : Nat := 175
/-- The feed window, in t.u. (R169). -/
def feedWindow : Nat := 2000
/-- The stall timer, in milliseconds (R120). -/
def stallMilliseconds : Nat := 50
/-- Plates the feeder reserves for each capture (R151). -/
def reservePlates : Nat := 108
/-- Input lines the line buffer of a side holds (R127). -/
def bufferLines : Nat := 384
/-- Output lines at the top and at the foot of a side outside the blank border, and the columns at
either edge (R134). -/
def borderLines : Nat := 64
/-- The value the counters and the black counter stop at (R134, R176). -/
def counterTop : Nat := 65535

/-- FREE VALUE (DESIGN CHOICE, log 7; safe): the level of a pin that neither the board drives nor
the pull holds, by line number and by the draw. R180 gives it no level. -/
opaque floatingPin : Nat → Nat → Bool

/-- FREE VALUE (DESIGN CHOICE, log 7; safe): whether field n of an entry whose write a reset has torn
holds its new value, by the draw and the field. R37 says only that the entry is left partly old and
partly new. -/
opaque tornTakesNew : Nat → Nat → Bool

end Sys2Proof.Config
end

