-- ==== Sys2Proof/Machine/State.lean ====
section
/-! DEFINITION. The state of the 4412 as plain data, block by block, and the state right after
power-on. Each structure's docstring names the rule that gives it; INVENTORY.md lists every piece with
its reset value. -/

namespace Sys2Proof.Machine

/-- A machine fault. The manual gives the block none (INVENTORY.md, Faults): a bad request is answered
by a reply code, a fault of the path is a jam, a bad record is DAMAGED. So no command raises one, and
the type has no constructor (safe). -/
inductive Fault where
  deriving DecidableEq, Repr

/-- A refusal to run a command. -/
inductive Refusal where
  /-- Raised only by an arm of `exec` whose command has no meaning yet (safe). No arm is. -/
  | notModelled (mnemonic : String)
  deriving DecidableEq, Repr

/-- Four true-or-false tags (R89). -/
structure Tags where
  tag0 : Bool := false
  tag1 : Bool := false
  tag2 : Bool := false
  tag3 : Bool := false
  deriving DecidableEq, Repr

/-! ## Record memory (R1, R4, R35, R36, R138) -/

/-- The states of a record slot (R3). `undefined` is a stored state code that is none of the five
(R40). -/
inductive RecordState where
  | free
  | assembling
  | filing
  | filed
  | damaged
  | undefined
  deriving DecidableEq, Repr

/-- The causes of an exception entry (R10), in the rule's order. -/
inductive Cause where
  | sheetRejected
  | notShelved
  | skewUncorrected
  | doubleFeedFiled
  | interrupted
  deriving DecidableEq, Repr

/-- One entry of an exception list (R10). -/
structure ExceptionEntry where
  page : Nat
  cause : Cause
  detail : Nat
  deriving DecidableEq, Repr

/-- Whether a record still owns its image (R1). -/
inductive ImageState where
  | resident
  | shed
  deriving DecidableEq, Repr

/-- The fields of a record slot (R1). The defaults are the values while the slot is FREE at
generation 0. -/
structure Record where
  generation : BitVec 4 := 0
  state : RecordState := .free
  matter : Long := 0
  place : Nat := 0
  sequence : Nat := 0
  cls : BitVec 4 := 0
  tags : Tags := {}
  tray : Option TrayIx := none
  box : Long := 0
  pageCount : Nat := 0
  sideCount : Nat := 0
  shelved : Nat := 0
  firstPosition : Option Nat := none
  lastPosition : Option Nat := none
  outstanding : Nat := 0
  plateHead : Option Nat := none
  plateTail : Option Nat := none
  plateCount : Nat := 0
  image : ImageState := .resident
  digest : Long := 0
  holdCount : Nat := 0
  intakeTaken : Bool := false
  retention : Nat := 0
  predecessor : Option Word := none
  successor : Option Word := none
  chainNext : Option Nat := none
  amendCount : Nat := 0
  exceptions : List ExceptionEntry := []
  overflow : Bool := false
  deriving DecidableEq, Repr

/-- A record slot as it stands in record memory: its fields and its check word (R36). -/
structure SlotEntry where
  fields : Record := {}
  check : Word := 0
  deriving DecidableEq, Repr

/-- The fields of a directory entry (R4); free while the matter number is 0. A next sequence of 0 is
exhausted. -/
structure Matter where
  number : Long := 0
  recordCount : Nat := 0
  nextSequence : Nat := 0
  head : Option Nat := none
  tail : Option Nat := none
  holdCount : Nat := 0
  deriving DecidableEq, Repr

/-- A directory entry as it stands in record memory, with its check word (R36). -/
structure PlaceEntry where
  fields : Matter := {}
  check : Word := 0
  deriving DecidableEq, Repr

/-- The link entry of a plate (R138). -/
structure Link where
  next : Option Nat := none
  check : Word := 0
  bandsUsed : Nat := 0
  sideStart : Bool := false
  side : Side := .front
  deriving DecidableEq, Repr

/-- The three tables of record memory (R35), each in canonical form: keys strictly rising, no entry
equal to an entry of zero bytes. -/
structure RecordMemory where
  slots : List (Nat × SlotEntry) := []
  directory : List (Nat × PlaceEntry) := []
  links : List (Nat × Link) := []
  deriving DecidableEq, Repr

/-- One write of one entry of record memory (R36: an entry is written whole), with what stood there
before. -/
inductive RecordWrite where
  | slot (n : Nat) (old new : SlotEntry)
  | place (n : Nat) (old new : PlaceEntry)
  | link (n : Nat) (old new : Link)
  deriving DecidableEq, Repr

/-! ## Batch (R163) -/

/-- The batch states (R163), in the rule's order. -/
inductive BatchState where
  | idle
  | running
  | feedHold
  | draining
  | halted
  deriving DecidableEq, Repr

/-- The halt causes (R163). -/
inductive HaltCause where
  | jam
  | abort
  deriving DecidableEq, Repr

/-- The set of hold causes (R163), in the rule's order. -/
structure HoldCauses where
  paused : Bool := false
  feederEmpty : Bool := false
  jamRecovered : Bool := false
  trayLimit : Bool := false
  noTray : Bool := false
  tableFull : Bool := false
  rejectFull : Bool := false
  deriving DecidableEq, Repr

/-- The feeder (R163): at rest, or feeding with the travel count at engagement. -/
inductive Feeder where
  | atRest
  | feeding (since : Long)
  deriving DecidableEq, Repr

/-- The jam causes (R119), in the order of R191. -/
inductive JamCause where
  | misfeed
  | stall
  | lostSheet
  | straySheet
  | misdelivery
  | overlength
  | trainOverrun
  deriving DecidableEq, Repr

/-- How a batch ended (R172). -/
inductive EndKind where
  | drained
  | stoppedAfterJam
  | aborted
  deriving DecidableEq, Repr

/-- The results of an audit (R156), and CANCELLED (R157), in the order of R191. -/
inductive AuditResult where
  | matched
  | plateMismatch
  | digestMismatch
  | cancelled
  deriving DecidableEq, Repr

/-! ## Notices (R189, R191) -/

/-- A notice (R191). -/
inductive Notice where
  | ready (recreated valid damaged freePlates : Nat)
  | documentFiled (folio : Word) (pages shelved exceptions : Nat) (overflow : Bool)
  | feedHold (causes : HoldCauses) (fed rejected opened : Nat)
  | jam (cause : JamCause) (line : Option LineIx) (ticket : Option Word) (tickets : Nat)
  | batchEnded (kind : EndKind) (fed rejected opened : Nat)
  | verifyDone (result : AuditResult) (folio : Word) (failing checked : Nat)
  deriving DecidableEq, Repr

/-- The batch's state (R163, R177). -/
structure Batch where
  state : BatchState := .idle
  haltCause : Option HaltCause := none
  causes : HoldCauses := {}
  stopTaken : Bool := false
  feeder : Feeder := .atRest
  matter : Long := 0
  cls : BitVec 4 := 0
  duplex : Bool := false
  fed : Nat := 0
  rejected : Nat := 0
  opened : Nat := 0
  kept : List Notice := []
  deriving DecidableEq, Repr

/-! ## Request Port (R185 to R190) -/

/-- Four bits, one for each interrupt condition (R190). -/
structure PortConditions where
  noticeWaiting : Bool := false
  replyWaiting : Bool := false
  requestSpace : Bool := false
  exportWaiting : Bool := false
  deriving DecidableEq, Repr

/-- The Request Port (R185). `dataOut` is the word the last read of a location returned. -/
structure Port where
  requests : List Word := []
  replies : List Word := []
  notices : List Notice := []
  noticeAt : Fin 4 := 0
  exports : List Word := []
  statusAt : Fin 4 := 0
  overrun : Bool := false
  starting : Bool := true
  enables : PortConditions := {}
  dataOut : Word := 0
  deriving DecidableEq, Repr

/-! ## Folio Table on chip (R4, R17, R33, R34) -/

/-- One entry of the matter index (R4, R8). -/
structure IndexEntry where
  matter : Long
  place : Nat
  pinned : Bool := false
  deriving DecidableEq, Repr

/-- What the Folio Table keeps on chip (01, and R17, R33). -/
structure FolioTable where
  index : List IndexEntry := []
  auditMark : Option Nat := none
  exportMark : Option Nat := none
  freeSlots : Nat := 0
  kept : List Notice := []
  deriving DecidableEq, Repr

/-! ## Document Assembler (R49, R50, R61) -/

/-- The open document (R49). -/
structure OpenDocument where
  folio : Word
  tray : TrayIx
  deriving DecidableEq, Repr

/-- An output tray (R50); the defaults are the EMPTY values. -/
structure Tray where
  mounted : Bool := false
  box : Long := 0
  hard : Nat := 0
  soft : Nat := 0
  fill : Nat := 0
  committed : Nat := 0
  deriving DecidableEq, Repr

/-- The reject reasons (R61); `code` is REJECT code 1 to 15. -/
inductive RejectReason where
  | separator
  | imageLost
  | code (n : Nat)
  | noRoute
  | trayUnavailable
  | noRecord
  deriving DecidableEq, Repr

/-- Why a decided page goes to the reject tray (R112, R114). -/
inductive Astray where
  | late
  | gateBusy
  deriving DecidableEq, Repr

/-- The page a decision has made (R61): the record's folio and the page ordinal. -/
structure PageOf where
  folio : Word
  ordinal : Nat
  deriving DecidableEq, Repr

/-- A decision (R61). A route of `none` is REJECT; the page flag is set when `page` is present. -/
structure Decision where
  route : Option TrayIx
  page : Option PageOf
  reason : Option RejectReason
  tags : Tags
  astray : Option Astray := none
  deriving DecidableEq, Repr

/-- An outcome the Assembler has handed over and the tracker has not yet taken (R61, R112). -/
structure Outcome where
  ordinal : Word
  decision : Decision
  deriving DecidableEq, Repr

/-- The Document Assembler (R49, R50). -/
structure Assembler where
  openDocument : Option OpenDocument := none
  marker : Bool := false
  lastClosed : Option Word := none
  rotation : TrayIx := 0
  trays : Vector Tray 4 := Vector.replicate 4 {}
  outcomes : List Outcome := []
  deriving DecidableEq, Repr

/-! ## Term Evaluator (R73, R80, R90, R91) -/

/-- The route candidate (R85, R90). -/
inductive RouteCandidate where
  | none
  | rotation
  | tray (n : TrayIx)
  deriving DecidableEq, Repr

/-- The outcomes of an evaluation (R80, R90). -/
structure TermOutcome where
  separator : Bool := false
  reject : Option Nat := .none
  route : RouteCandidate := .none
  intakeHold : Bool := false
  deriving DecidableEq, Repr

/-- The Term Evaluator (R73, R91). The stacks hold their top first. -/
structure Evaluator where
  terms : Vector Word 64 := Vector.replicate 64 0
  stack : List Bool := []
  gates : List Bool := []
  outcome : TermOutcome := {}
  marks : Vector Bool 8 := Vector.replicate 8 false
  latches : Vector Bool 8 := Vector.replicate 8 false
  pulses : Vector Bool 8 := Vector.replicate 8 false
  memories : Vector Bool 8 := Vector.replicate 8 false
  tags : Tags := {}
  deriving DecidableEq, Repr

/-! ## Sheet Tracker (R100 to R124) -/

/-- The stages of a ticket (R101). -/
inductive Stage where
  | entered
  | gauged
  | scanning
  | captured
  | decided
  deriving DecidableEq, Repr

/-- The nine flags of a ticket (R100), in the table's order. -/
structure Flags where
  doubleFeed : Bool := false
  separatorMark : Bool := false
  skewOver : Bool := false
  short : Bool := false
  long : Bool := false
  blankFront : Bool := false
  blankBack : Bool := false
  imageLost : Bool := false
  exitedUndecided : Bool := false
  deriving DecidableEq, Repr

/-- A chain of plates by its ends and its count (R100, R140). -/
structure PlateChain where
  head : Option Nat := none
  tail : Option Nat := none
  count : Nat := 0
  deriving DecidableEq, Repr

/-- What a ticket holds of one gate (R100). -/
inductive Holding where
  | notReached
  | heldOff
  | heldOn
  | released
  deriving DecidableEq, Repr

/-- The second edge a ticket awaits: on which sensor, and the travel count of its first edge (R108,
R109). -/
structure AwaitedEdge where
  sensor : Sensor
  firstEdge : Long
  deriving DecidableEq, Repr

/-- The arrivals a ticket now expects (R108). -/
structure Armed where
  entryTrailing : Bool := false
  firstEdge : Bool := false
  secondEdge : Option AwaitedEdge := none
  scanLeading : Bool := false
  scanTrailing : Bool := false
  exitLeading : Bool := false
  exitTrailing : Bool := false
  deriving DecidableEq, Repr

/-- A ticket (R100). A path of `none` is REJECT. -/
structure Ticket where
  ordinal : Word
  entry : Long
  length : Option Nat := none
  delta : Option Int := none
  flags : Flags := {}
  stage : Stage := .entered
  frontChain : PlateChain := {}
  backChain : PlateChain := {}
  frontDone : Bool := false
  backDone : Bool := false
  path : Option TrayIx := none
  armed : Armed := {}
  gates : Vector Holding 4 := Vector.replicate 4 .notReached
  decision : Option Decision := none
  deriving DecidableEq, Repr

/-- The default path profile, items 0 to 18 (R103). -/
def defaultProfile : Vector Nat 19 :=
  #v[400, 800, 1000, 1600, 9600, 10400, 11200, 12000, 10800, 11600, 12400, 13200, 13600, 40, 1000,
    200, 100, 1600, 6800]

/-- The Sheet Tracker (R102, R103, R106, R120, R124). The train is in entry order, oldest first. The
stall timer is absent while stopped; its value is the milliseconds it was started at. -/
structure Tracker where
  travel : Long := 0
  nextOrdinal : Word := 1
  lastEntryTrailing : Option Long := none
  profile : Vector Nat 19 := defaultProfile
  train : List Ticket := []
  stopped : Bool := false
  stallTimer : Option Nat := none
  deriving DecidableEq, Repr

/-! ## Skew Gauge and Deskew Engine (R125 to R137) -/

/-- An open measurement of the Skew Gauge (R125). -/
structure Measurement where
  ordinal : Word
  sensor : Sensor
  travel : Long
  deriving DecidableEq, Repr

/-- The states of a side of the engine (R130). -/
inductive SideState where
  | idle
  | taking
  | flushing
  | discarding
  deriving DecidableEq, Repr

/-- A start that waits for an earlier side to end (R130), with the difference its side would use (R129),
and whether its end of sides has come (R131). -/
structure WaitingStart where
  ordinal : Word
  delta : Int := 0
  ended : Bool := false
  deriving DecidableEq, Repr

/-- A band (R132). -/
structure Band where
  ordinal : Word
  number : Nat
  last : Bool
  lines : List ScanLine
  deriving DecidableEq, Repr

/-- What the engine has handed its capture channel and the channel has not yet done with, in order: a
band of the band queue (R132), or the end of a side (R133), lost or not (log 12, log 13). -/
inductive QueueItem where
  | band (b : Band)
  | ended (ordinal : Word) (lost : Bool)
  deriving DecidableEq, Repr

/-- One side of the Deskew Engine (R127, R130 to R134). Lists of lines and of counts hold the newest
first, but for the band under construction, which holds its lines in order. -/
structure DeskewSide where
  state : SideState := .idle
  ordinal : Word := 0
  delta : Int := 0
  span : Nat := 0
  inputs : Nat := 0
  outputs : Nat := 0
  outputLength : Nat := 0
  buffer : List ScanLine := []
  band : List ScanLine := []
  waiting : List WaitingStart := []
  queue : List QueueItem := []
  black : Nat := 0
  recent : List Nat := []
  lastCount : Nat := 0
  deriving DecidableEq, Repr

/-- The Skew Gauge and the Deskew Engine (R125, R135, R137). -/
structure Engine where
  skewLimit : Nat := 280
  blankThreshold : Nat := 200
  measurements : List Measurement := []
  front : DeskewSide := {}
  back : DeskewSide := {}
  deriving DecidableEq, Repr

/-! ## Image Memory Controller (R138 to R153), audit and export (R154 to R162) -/

/-- The free plate queue (R139). -/
structure FreeQueue where
  head : Option Nat := none
  tail : Option Nat := none
  length : Nat := 0
  deriving DecidableEq, Repr

/-- The states of a capture channel (R141). -/
inductive CaptureState where
  | idle
  | waiting
  | requesting
  | transferring
  | frozen
  deriving DecidableEq, Repr

/-- The last end causes of a capture channel (R152). -/
inductive CaptureEnd where
  | normal
  | noPlate
  | sideLimit
  | bandOverrun
  | cleared
  deriving DecidableEq, Repr

/-- The side a capture channel has in hand (R141). A residue of `none` is spent. `closed` says that the
current plate's link entry has been written (log 22). -/
structure CaptureSide where
  ordinal : Word
  plates : Nat := 0
  current : Option Nat := none
  residue : Option Nat := none
  crc : Word := 0xFFFF
  first : Bool := false
  closed : Bool := false
  deriving DecidableEq, Repr

/-- A capture channel (R141, R145, R152). -/
structure CaptureChannel where
  state : CaptureState := .idle
  side : Option CaptureSide := none
  pendingEnd : Option CaptureEnd := none
  endFlag : Bool := false
  endCause : CaptureEnd := .normal
  deriving DecidableEq, Repr

/-- The states of the audit and the transfer-out channel (R150). -/
inductive RunState where
  | idle
  | waiting
  | requesting
  | transferring
  deriving DecidableEq, Repr

/-- The last end causes of the audit and export channels (R150, R152). -/
inductive RunEnd where
  | complete
  | cancelled
  deriving DecidableEq, Repr

/-- An audit in progress (R154, R155). -/
structure AuditRun where
  folio : Word
  plateHead : Option Nat
  plateCount : Nat
  digest : Long
  runningDigest : Long := 0xFFFFFFFF
  checked : Nat := 0
  taken : Nat := 0
  current : Option Nat := none
  bandsUsed : Nat := 0
  storedCheck : Word := 0
  residue : Option Nat := none
  crc : Word := 0xFFFF
  deriving DecidableEq, Repr

/-- The audit channel (R150, R156). -/
structure AuditChannel where
  state : RunState := .idle
  run : Option AuditRun := none
  masked : Bool := false
  endFlag : Bool := false
  endCause : RunEnd := .complete
  kept : Option Notice := none
  deriving DecidableEq, Repr

/-- The next item of an export stream (R159, R160). -/
inductive StreamItem where
  /-- the folio header -/
  | header
  /-- the next plate is to be taken -/
  | plate
  /-- a side header, formed -/
  | sideHeader (words : List Word)
  /-- the next band of the current plate -/
  | band
  /-- the end word -/
  | endWord (short : Bool)
  /-- the end word has been placed -/
  | done
  deriving DecidableEq, Repr

/-- An export in progress (R158 to R160). -/
structure ExportRun where
  folio : Word
  header : List Word
  plateHead : Option Nat
  plateCount : Nat
  item : StreamItem := .header
  taken : Nat := 0
  current : Option Nat := none
  bandsUsed : Nat := 0
  residue : Option Nat := none
  pageOrdinal : Nat := 0
  sideOrdinal : Nat := 0
  deriving DecidableEq, Repr

/-- The export channel (R150, R158 to R161). -/
structure ExportChannel where
  state : RunState := .idle
  run : Option ExportRun := none
  masked : Bool := false
  endFlag : Bool := false
  endCause : RunEnd := .complete
  deriving DecidableEq, Repr

/-- The four channels into image memory, channel 0 to 3 (07). -/
inductive Channel where
  | captureFront
  | captureBack
  | audit
  | exporter
  deriving DecidableEq, Repr

/-- The arbiter's modes (R147). -/
inductive ArbiterMode where
  | fixed
  | rotating
  deriving DecidableEq, Repr

/-- A granted transfer of one band (R147). `lines` is the band a capture channel writes. `orphan` says
that the channel no longer waits for it: CLEAR TRAIN (R146) or a cancel (R150) has come since. -/
structure Transfer where
  channel : Channel
  plate : Nat
  place : Nat
  lines : List ScanLine := []
  orphan : Bool := false
  deriving DecidableEq, Repr

/-- The Image Memory Controller (R139, R141, R147, R150) and image memory. `memory` lists the bytes of
image memory that are not 0, by ascending address. -/
structure Images where
  free : FreeQueue := {}
  front : CaptureChannel := {}
  back : CaptureChannel := {}
  audit : AuditChannel := {}
  exporter : ExportChannel := {}
  mode : ArbiterMode := .fixed
  order : List Channel := [.captureFront, .captureBack, .audit, .exporter]
  transfer : Option Transfer := none
  memory : List Host.Cell := []
  deriving DecidableEq, Repr

/-! ## Line Port (R178 to R184) -/

/-- The five settings of a line (R178). A latch or an active level of `true` is high; the defaults are
those after power-on. -/
structure LineSetting where
  output : Bool := false
  latch : Bool := false
  pull : Bool := false
  activeHigh : Bool := true
  enabled : Bool := false
  deriving DecidableEq, Repr

/-- The Line Port, and what the board does to each pin (R180; log 8). -/
structure Lines where
  settings : Vector LineSetting 24 := Vector.replicate 24 {}
  board : Vector Drive 24 := Vector.replicate 24 .low
  deriving DecidableEq, Repr

/-! ## The whole -/

/-- The state of the 4412. `record` and `images.memory` are the two memories attached to it. The
journal (R37, log 6), the draws (log 7) and the queue of commands are the model's own. -/
structure State where
  port : Port := {}
  folio : FolioTable := {}
  record : RecordMemory := {}
  assembler : Assembler := {}
  evaluator : Evaluator := {}
  tracker : Tracker := {}
  engine : Engine := {}
  images : Images := {}
  batch : Batch := {}
  lines : Lines := {}
  journal : List RecordWrite := []
  draws : Nat := 0
  pending : List Instr := []
  deriving DecidableEq, Repr

/-- The state right after power-on, before the rebuild: every block's reset values (R34, R49, R50, R92,
R103, R124, R137, R153, R177, R178, R185). The two memories' contents, the levels at the pins and the
word on the bus are DESIGN CHOICEs (log 1, log 2, log 8). -/
def State.reset : State := {}

end Sys2Proof.Machine
end

