-- ==== Sys2Proof/Machine/Checks.lean ====
section
/-! DEFINITION. The cyclic redundancy checks: CRC-16 for check words and plate checks (R36, R138),
CRC-32 for digests (R12). -/

namespace Sys2Proof.Machine

/-- One bit of the CRC-16 with generator 1021h, no reflection (R36). -/
def crc16Bits : Nat → Nat → Nat
  | 0, c => c
  | n + 1, c => crc16Bits n (if c < 0x8000 then 2 * c else (2 * c - 0x10000) ^^^ 0x1021)

/-- The CRC-16 extended over bytes in ascending address. -/
def crc16Extend (c : Word) (bytes : List Byte) : Word :=
  word (bytes.foldl (fun c b => crc16Bits 8 (c ^^^ (b.toNat * 256))) c.toNat)

/-- The starting value of the CRC-16 (R36, R138). -/
def crc16Start : Word := 0xFFFF

/-- The CRC-16 of a string of bytes. -/
def crc16 (bytes : List Byte) : Word := crc16Extend crc16Start bytes

/-- One bit of the CRC-32 with generator 04C11DB7h, bits reflected (R12). -/
def crc32Bits : Nat → Nat → Nat
  | 0, c => c
  | n + 1, c => crc32Bits n (if c % 2 = 0 then c / 2 else (c / 2) ^^^ 0xEDB88320)

/-- The CRC-32 register extended over bytes (R12), before the result is inverted. -/
def crc32Extend (c : Long) (bytes : List Byte) : Long :=
  BitVec.ofNat 32 (bytes.foldl (fun c b => crc32Bits 8 (c ^^^ b.toNat)) c.toNat)

/-- The two bytes of a plate check in a digest, the high byte first (R12). -/
def checkBytes (check : Word) : List Byte := [check.extractLsb' 8 8, check.extractLsb' 0 8]

/-- A running digest, before inversion, extended over a plate check (R12, R155). -/
def extendDigest (c : Long) (check : Word) : Long := crc32Extend c (checkBytes check)

/-- A completed digest extended over further plate checks: the digest of the longer sequence (R12). -/
def digestOver (digest : Long) (checks : List Word) : Long :=
  ~~~ (checks.foldl extendDigest (~~~ digest))

end Sys2Proof.Machine
end

