-- ==== Sys2Proof/Machine/Table.lean ====
section
/-! DEFINITION. Sparse tables keyed by number: the one form in which the model keeps record memory's
entries (R35) and the bytes of image memory (07). A table lists (key, value) pairs, keys strictly
rising, no value equal to what an unlisted key reads as. -/

namespace Sys2Proof.Machine

variable {α : Type}

/-- What a key reads as: the listed value, else `d`. -/
def Table.get (d : α) : List (Nat × α) → Nat → α
  | [], _ => d
  | (k, v) :: t, n => if k = n then v else Table.get d t n

/-- The table with key `n` set to `v`; setting what an unlisted key reads as removes the entry. -/
def Table.set [DecidableEq α] (d : α) : List (Nat × α) → Nat → α → List (Nat × α)
  | [], n, v => if v = d then [] else [(n, v)]
  | (k, w) :: t, n, v =>
    if n < k then (if v = d then (k, w) :: t else (n, v) :: (k, w) :: t)
    else if n = k then (if v = d then t else (n, v) :: t)
    else (k, w) :: Table.set d t n v

/-- The values as cells from a key on, without those an unlisted key reads as. -/
def Table.cells [DecidableEq α] (d : α) : Nat → List α → List (Nat × α)
  | _, [] => []
  | n, v :: vs => if v = d then Table.cells d (n + 1) vs else (n, v) :: Table.cells d (n + 1) vs

/-- The table with the keys from `n` on set to the values. -/
def Table.setBlock [DecidableEq α] (d : α) (t : List (Nat × α)) (n : Nat) (vs : List α) :
    List (Nat × α) :=
  t.takeWhile (fun c => c.1 < n) ++ Table.cells d n vs ++
    t.dropWhile (fun c => c.1 < n + vs.length)

/-- Reads `len` keys from `n` on, along a table that lists no key below `n`. -/
def Table.fill (d : α) (n : Nat) : Nat → List (Nat × α) → List α
  | 0, _ => []
  | len + 1, [] => d :: Table.fill d (n + 1) len []
  | len + 1, (k, v) :: t =>
    if k ≤ n then v :: Table.fill d (n + 1) len t else d :: Table.fill d (n + 1) len ((k, v) :: t)

/-- What `len` keys from `n` on read as. -/
def Table.getBlock (d : α) (t : List (Nat × α)) (n len : Nat) : List α :=
  Table.fill d n len (t.dropWhile (fun c => c.1 < n))

/-- The canonical form of a table. -/
def Table.wf [DecidableEq α] (d : α) : List (Nat × α) → Bool
  | [] => true
  | [(_, v)] => v ≠ d
  | (k, v) :: (k', v') :: t => v ≠ d && k < k' && Table.wf d ((k', v') :: t)

/-- The first number from `start` on, of `count`, for which the test holds. -/
def firstFrom (test : Nat → Bool) (start : Nat) : Nat → Option Nat
  | 0 => none
  | count + 1 => if test start then some start else firstFrom test (start + 1) count

end Sys2Proof.Machine
end

