-- ==== Sys2Proof/Machine/RecordMemory.lean ====
section
/-! DEFINITION. Record memory: its entries as bytes (R35; the layout inside an entry is private to the
part, and the one here is the model's, log 5), their check words (R36), and the reads and writes that
every block uses. Each write joins the journal, so that a reset may fall between or inside the writes
of a step (R37, log 6). -/

namespace Sys2Proof.Machine

/-! ## Entries as bytes -/

/-- A number as `len` bytes, high byte first. -/
def bytesOf (len n : Nat) : List Byte :=
  match len with
  | 0 => []
  | k + 1 => BitVec.ofNat 8 (n / 256 ^ k) :: bytesOf k n

/-- A number that may be absent: absent is 0, and n is n + 1. -/
def codeOf : Option Nat → Nat
  | none => 0
  | some n => n + 1

/-- A true-or-false value as a bit. -/
def bit (b : Bool) : Nat := if b then 1 else 0

/-- The codes of the record states (R193); a code that names none is 7. -/
def RecordState.code : RecordState → Nat
  | .free => 0
  | .assembling => 1
  | .filing => 2
  | .filed => 3
  | .damaged => 4
  | .undefined => 7

/-- The codes of the exception causes, by R10's order (R193). -/
def Cause.code : Cause → Nat
  | .sheetRejected => 0
  | .notShelved => 1
  | .skewUncorrected => 2
  | .doubleFeedFiled => 3
  | .interrupted => 4

/-- The four tags as a number, tag 0 the most significant (R193: the first item named stands first). -/
def Tags.code (t : Tags) : Nat := 8 * bit t.tag0 + 4 * bit t.tag1 + 2 * bit t.tag2 + bit t.tag3

/-- An exception entry as a word: page ordinal, cause, detail (R193's example). -/
def ExceptionEntry.code (e : ExceptionEntry) : Nat := e.page * 256 + e.cause.code * 32 + e.detail

/-- A tray that may be absent, in the model's layout. -/
def trayCode : Option TrayIx → Nat
  | none => 0
  | some t => t.val + 1

/-- The 62 bytes of a record slot before its check word (R36), in the model's layout (log 5). -/
def Record.bytes (r : Record) : List Byte :=
  let present (w : Option Word) : Nat := bit w.isSome
  bytesOf 1 (r.state.code * 16 + r.generation.toNat) ++
  bytesOf 4 r.matter.toNat ++
  bytesOf 1 r.place ++
  bytesOf 2 r.sequence ++
  bytesOf 1 (r.cls.toNat * 16 + r.tags.code) ++
  bytesOf 1 (trayCode r.tray * 32 + (if r.image = .shed then 16 else 0) + bit r.intakeTaken * 8 +
    bit r.overflow * 4 + present r.predecessor * 2 + present r.successor) ++
  bytesOf 4 r.box.toNat ++
  bytesOf 1 r.pageCount ++
  bytesOf 2 r.sideCount ++
  bytesOf 1 r.shelved ++
  bytesOf 1 r.outstanding ++
  bytesOf 2 (codeOf r.firstPosition) ++
  bytesOf 2 (codeOf r.lastPosition) ++
  bytesOf 3 (codeOf r.plateHead) ++
  bytesOf 3 (codeOf r.plateTail) ++
  bytesOf 2 r.plateCount ++
  bytesOf 4 r.digest.toNat ++
  bytesOf 1 (r.holdCount * 16 + r.exceptions.length) ++
  bytesOf 2 r.retention ++
  bytesOf 2 ((r.predecessor.getD 0).toNat) ++
  bytesOf 2 ((r.successor.getD 0).toNat) ++
  bytesOf 2 (codeOf r.chainNext) ++
  bytesOf 1 r.amendCount ++
  ((List.range 8).map fun i =>
    match r.exceptions[i]? with
    | some e => bytesOf 2 e.code
    | none => bytesOf 2 0).flatten ++
  bytesOf 1 0

/-- The 30 bytes of a directory entry before its check word; the bytes beyond the fields are zero
(R35). -/
def Matter.bytes (m : Matter) : List Byte :=
  bytesOf 4 m.number.toNat ++
  bytesOf 2 m.recordCount ++
  bytesOf 2 m.nextSequence ++
  bytesOf 2 (codeOf m.head) ++
  bytesOf 2 (codeOf m.tail) ++
  bytesOf 1 m.holdCount ++
  List.replicate 17 0

/-- The 8 bytes of a link entry, which carries no check word (R35). -/
def Link.bytes (l : Link) : List Byte :=
  bytesOf 3 (codeOf l.next) ++
  bytesOf 2 l.check.toNat ++
  bytesOf 1 l.bandsUsed ++
  bytesOf 1 (bit l.sideStart * 2 + (if l.side = .back then 1 else 0)) ++
  bytesOf 1 0

/-- The entry of a record slot with its check word computed afresh (R36). -/
def SlotEntry.of (r : Record) : SlotEntry := { fields := r, check := crc16 r.bytes }

/-- Whether the check word of a slot holds (R36, R40). -/
def SlotEntry.checks (e : SlotEntry) : Bool := e.check = crc16 e.fields.bytes

/-- All 64 bytes of a slot, the check word high byte first (R36). -/
def SlotEntry.bytes (e : SlotEntry) : List Byte := e.fields.bytes ++ checkBytes e.check

/-- A blank slot: all 64 bytes zero (R40). -/
def SlotEntry.blank (e : SlotEntry) : Bool := e.bytes.all (· = 0)

/-- A directory entry as it is written: a free entry is 32 zero bytes with no check word (R36). -/
def PlaceEntry.of (m : Matter) : PlaceEntry :=
  if m.number = 0 then {} else { fields := m, check := crc16 m.bytes }

/-- Whether the check word of a directory entry holds (R36, R39). -/
def PlaceEntry.checks (e : PlaceEntry) : Bool := e.check = crc16 e.fields.bytes

/-- All 32 bytes of a directory entry. -/
def PlaceEntry.bytes (e : PlaceEntry) : List Byte := e.fields.bytes ++ checkBytes e.check

/-- The address of an entry of each table (R35). -/
def slotAddress (slot : Nat) : Nat := slot * 0x40
def placeAddress (place : Nat) : Nat := 0x40000 + place * 0x20
def linkAddress (plate : Nat) : Nat := 0x80000 + plate * 8

/-! ## Reading entries -/

/-- The record slot as it stands in record memory. -/
def State.slotEntry (s : State) (slot : Nat) : SlotEntry := Table.get {} s.record.slots slot

/-- The record of a slot. -/
def State.slot (s : State) (slot : Nat) : Record := (s.slotEntry slot).fields

/-- The directory entry as it stands in record memory. -/
def State.placeEntry (s : State) (place : Nat) : PlaceEntry := Table.get {} s.record.directory place

/-- The matter of a directory place. -/
def State.matterAt (s : State) (place : Nat) : Matter := (s.placeEntry place).fields

/-- The link entry of a plate. -/
def State.link (s : State) (plate : Nat) : Link := Table.get {} s.record.links plate

/-- The byte at an address of record memory: absent in the stretch 42000h to 7FFFFh, which the part
does not address, and beyond the memory (R35). -/
def State.recordByte (s : State) (address : Nat) : Option Byte :=
  if address < 0x40000 then (s.slotEntry (address / 64)).bytes[address % 64]?
  else if address < 0x42000 then
    (s.placeEntry ((address - 0x40000) / 32)).bytes[(address - 0x40000) % 32]?
  else if address < 0x80000 then none
  else if address < 0x100000 then
    (s.link ((address - 0x80000) / 8)).bytes[(address - 0x80000) % 8]?
  else none

/-- The canonical form of record memory: each of its tables. -/
def RecordMemory.wf (m : RecordMemory) : Bool :=
  Table.wf {} m.slots && Table.wf {} m.directory && Table.wf {} m.links

/-! ## Writing entries (R36: an entry is written whole) -/

/-- Record memory with one entry written. -/
def RecordMemory.write (m : RecordMemory) : RecordWrite → RecordMemory
  | .slot n _ new => { m with slots := Table.set {} m.slots n new }
  | .place n _ new => { m with directory := Table.set {} m.directory n new }
  | .link n _ new => { m with links := Table.set {} m.links n new }

/-- One write of record memory, which joins the journal. -/
def State.writeRecord (w : RecordWrite) (s : State) : State :=
  { s with record := s.record.write w, journal := w :: s.journal }

/-- Writes a record slot, with a new check word. -/
def State.putSlot (slot : Nat) (r : Record) (s : State) : State :=
  s.writeRecord (.slot slot (s.slotEntry slot) (.of r))

/-- Changes the record of a slot. -/
def State.editSlot (slot : Nat) (f : Record → Record) (s : State) : State :=
  s.putSlot slot (f (s.slot slot))

/-- Writes a directory entry, with a new check word, or 32 zero bytes for a free place. -/
def State.putMatter (place : Nat) (m : Matter) (s : State) : State :=
  s.writeRecord (.place place (s.placeEntry place) (.of m))

/-- Changes the matter of a place. -/
def State.editMatter (place : Nat) (f : Matter → Matter) (s : State) : State :=
  s.putMatter place (f (s.matterAt place))

/-- Writes a link entry. -/
def State.putLink (plate : Nat) (l : Link) (s : State) : State :=
  s.writeRecord (.link plate (s.link plate) l)

/-- Rewrites the next-plate field of a plate's link entry. -/
def State.putNext (plate : Nat) (next : Option Nat) (s : State) : State :=
  s.putLink plate { s.link plate with next := next }

/-! ## A reset inside a change (R37) -/

/-- A field of a torn entry: its old or its new value, a free value (log 7). -/
def tornField {α : Type} (draw field : Nat) (old new : α) : α :=
  if Config.tornTakesNew draw field then new else old

/-- The fields of a record slot left partly old and partly new (R37). -/
def Record.torn (draw : Nat) (old new : Record) : Record where
  generation := tornField draw 0 old.generation new.generation
  state := tornField draw 1 old.state new.state
  matter := tornField draw 2 old.matter new.matter
  place := tornField draw 3 old.place new.place
  sequence := tornField draw 4 old.sequence new.sequence
  cls := tornField draw 5 old.cls new.cls
  tags := tornField draw 6 old.tags new.tags
  tray := tornField draw 7 old.tray new.tray
  box := tornField draw 8 old.box new.box
  pageCount := tornField draw 9 old.pageCount new.pageCount
  sideCount := tornField draw 10 old.sideCount new.sideCount
  shelved := tornField draw 11 old.shelved new.shelved
  firstPosition := tornField draw 12 old.firstPosition new.firstPosition
  lastPosition := tornField draw 13 old.lastPosition new.lastPosition
  outstanding := tornField draw 14 old.outstanding new.outstanding
  plateHead := tornField draw 15 old.plateHead new.plateHead
  plateTail := tornField draw 16 old.plateTail new.plateTail
  plateCount := tornField draw 17 old.plateCount new.plateCount
  image := tornField draw 18 old.image new.image
  digest := tornField draw 19 old.digest new.digest
  holdCount := tornField draw 20 old.holdCount new.holdCount
  intakeTaken := tornField draw 21 old.intakeTaken new.intakeTaken
  retention := tornField draw 22 old.retention new.retention
  predecessor := tornField draw 23 old.predecessor new.predecessor
  successor := tornField draw 24 old.successor new.successor
  chainNext := tornField draw 25 old.chainNext new.chainNext
  amendCount := tornField draw 26 old.amendCount new.amendCount
  exceptions := tornField draw 27 old.exceptions new.exceptions
  overflow := tornField draw 28 old.overflow new.overflow

/-- The fields of a directory entry left partly old and partly new (R37). -/
def Matter.torn (draw : Nat) (old new : Matter) : Matter where
  number := tornField draw 0 old.number new.number
  recordCount := tornField draw 1 old.recordCount new.recordCount
  nextSequence := tornField draw 2 old.nextSequence new.nextSequence
  head := tornField draw 3 old.head new.head
  tail := tornField draw 4 old.tail new.tail
  holdCount := tornField draw 5 old.holdCount new.holdCount

/-- A link entry left partly old and partly new; it carries no check word (R35, R37). -/
def Link.torn (draw : Nat) (old new : Link) : Link where
  next := tornField draw 0 old.next new.next
  check := tornField draw 1 old.check new.check
  bandsUsed := tornField draw 2 old.bandsUsed new.bandsUsed
  sideStart := tornField draw 3 old.sideStart new.sideStart
  side := tornField draw 4 old.side new.side

/-- A write cut short: the entry is left partly old and partly new, and the check word of a slot or a
directory entry fails (R37). -/
def RecordWrite.torn (draw : Nat) : RecordWrite → RecordWrite
  | .slot n old new =>
    let r := Record.torn draw old.fields new.fields
    .slot n old { fields := r, check := ~~~ (crc16 r.bytes) }
  | .place n old new =>
    let m := Matter.torn draw old.fields new.fields
    .place n old { fields := m, check := ~~~ (crc16 m.bytes) }
  | .link n old new => .link n old (Link.torn draw old new)

/-- A write taken back. -/
def RecordWrite.undone : RecordWrite → RecordWrite
  | .slot n old new => .slot n new old
  | .place n old new => .place n new old
  | .link n old new => .link n new old

/-- Record memory as a reset finds it that falls in the writes of the last step: the writes beyond
those landed are taken back, newest first, and the first of them is left torn if the cut says so
(R37; log 6). -/
def State.cutRecord (cut : Option Cut) (s : State) : RecordMemory :=
  match cut with
  | none => s.record
  | some c =>
    let lost := s.journal.take (s.journal.length - c.landed)
    let back := lost.foldl (fun m w => m.write w.undone) s.record
    match c.torn, lost.getLast? with
    | true, some w => back.write (w.torn s.draws)
    | _, _ => back

end Sys2Proof.Machine
end

