-- ==== Sys2Proof/Machine/Operands.lean ====
section
/-! DEFINITION. Operand forms: request and reply headers (R188), result words (R193), notice words
(R191), term words (R192), folio numbers (R2), and the numbers the host names trays and lines by. -/

namespace Sys2Proof.Machine

/-! ## Packing of result words (R193) -/

/-- Fields as (width, value), standing from bit `room - 1` downward, as a number. -/
def packBelow : Nat → List (Nat × Nat) → Nat
  | _, [] => 0
  | room, (w, v) :: fs => (v % 2 ^ w) * 2 ^ (room - w) + packBelow (room - w) fs

/-- A result word: its fields stand from bit 15 downward in the order named, and the bits left over
are 0 (R193; DEDUCED, log 9: so does a field that is a word's only one). -/
def pack (fields : List (Nat × Nat)) : Word := word (packBelow 16 fields)

/-- A result word with one field of the given width. -/
def packOne (width value : Nat) : Word := pack [(width, value)]

/-- A quantity that takes two words, high word first (R193). -/
def twoWords (x : Long) : List Word := [x.high, x.low]

/-- A tray field: the tray number, REJECT 0 (R193). A route or a path of `none` is REJECT. -/
def routeField : Option TrayIx → Nat
  | none => 0
  | some t => t.val + 1

/-- A tray field that may be absent: an absent tray is 7 (R193). -/
def trayField : Option TrayIx → Nat
  | none => 7
  | some t => t.val + 1

/-- A folio in a word of its own, 0000h when absent. -/
def folioWord (f : Option Word) : Word := f.getD 0

/-! ## Replies (R188) -/

/-- The reply codes (R188). -/
inductive ReplyCode where
  | ok
  | started
  | notFound
  | stale
  | damaged
  | held
  | early
  | inUse
  | state
  | limit
  | full
  | busy
  | bound
  | lines
  | terms
  | noImage
  | endOfChain
  | badRequest
  | badArgument
  | starting
  deriving DecidableEq, Repr

/-- The number of a reply code (R188). -/
def ReplyCode.number : ReplyCode → Nat
  | .ok => 0
  | .started => 1
  | .notFound => 2
  | .stale => 3
  | .damaged => 4
  | .held => 5
  | .early => 6
  | .inUse => 7
  | .state => 8
  | .limit => 9
  | .full => 10
  | .busy => 11
  | .bound => 12
  | .lines => 13
  | .terms => 14
  | .noImage => 15
  | .endOfChain => 16
  | .badRequest => 17
  | .badArgument => 18
  | .starting => 19

/-- A reply: its code and its result words (R188). -/
structure Reply where
  code : ReplyCode
  results : List Word := []
  deriving DecidableEq, Repr

/-- A refusal: a reply code and no result words. -/
def refuse (code : ReplyCode) : Reply := { code := code }

/-- OK with result words. -/
def okWith (results : List Word) : Reply := { code := .ok, results := results }

/-- A reply header: code in bits 15-11, result word count in bits 10-6, bit 5 zero, tag in bits 4-0
(R188). -/
def replyHeader (tag : Tag) (r : Reply) : Word :=
  pack [(5, r.code.number), (5, r.results.length), (1, 0), (5, tag.toNat)]

/-- The words of a reply, header first (R188). -/
def Reply.words (tag : Tag) (r : Reply) : List Word := replyHeader tag r :: r.results

/-! ## Request headers (R188) -/

/-- The request code, bits 15-8. -/
def requestCode (header : Word) : Nat := (header.extractLsb' 8 8).toNat
/-- The argument count, bits 7-5. -/
def requestCount (header : Word) : Nat := (header.extractLsb' 5 3).toNat
/-- The request tag, bits 4-0. -/
def requestTag (header : Word) : Tag := header.extractLsb' 0 5

/-! ## Folio numbers (R2) -/

/-- The folio number of a slot at a generation: slot number x 16 + generation. -/
def folioOf (slot : Nat) (generation : BitVec 4) : Word := word (slot * 16 + generation.toNat)
/-- The slot a folio number names. -/
def slotOf (folio : Word) : Nat := folio.toNat / 16
/-- The generation a folio number names. -/
def generationOf (folio : Word) : BitVec 4 := folio.extractLsb' 0 4

/-! ## Numbers of the host's that name a tray or a line -/

/-- The tray of a tray number, 1 to 4. -/
def trayOf (n : Word) : Option TrayIx :=
  if h : 1 ≤ n.toNat ∧ n.toNat ≤ 4 then some ⟨n.toNat - 1, by omega⟩ else none

/-- The line of a line number, 0 to 23. -/
def lineOf (n : Word) : Option LineIx := if h : n.toNat < 24 then some ⟨n.toNat, h⟩ else none

/-- The value of an argument that is 0 or 1. -/
def flagOf (n : Word) : Option Bool :=
  if n = 0 then some false else if n = 1 then some true else none

/-! ## Codes by position in a rule's list (R193) -/

/-- R163's order. -/
def BatchState.code : BatchState → Nat
  | .idle => 0
  | .running => 1
  | .feedHold => 2
  | .draining => 3
  | .halted => 4

/-- R163's order; absent is one past the range. -/
def haltField : Option HaltCause → Nat
  | some .jam => 0
  | some .abort => 1
  | none => 2

/-- R119's order, as numbered in R191. -/
def JamCause.code : JamCause → Nat
  | .misfeed => 0
  | .stall => 1
  | .lostSheet => 2
  | .straySheet => 3
  | .misdelivery => 4
  | .overlength => 5
  | .trainOverrun => 6

/-- As numbered in R191. -/
def EndKind.code : EndKind → Nat
  | .drained => 0
  | .stoppedAfterJam => 1
  | .aborted => 2

/-- As numbered in R191. -/
def AuditResult.code : AuditResult → Nat
  | .matched => 0
  | .plateMismatch => 1
  | .digestMismatch => 2
  | .cancelled => 3

/-- The seven hold causes as bits, PAUSED the most significant (R191, R193). -/
def HoldCauses.code (c : HoldCauses) : Nat :=
  64 * bit c.paused + 32 * bit c.feederEmpty + 16 * bit c.jamRecovered + 8 * bit c.trayLimit +
    4 * bit c.noTray + 2 * bit c.tableFull + bit c.rejectFull

/-! ## Notices (R191) -/

/-- Word 0 of a notice: the kind in bits 15-12, and the kind's own fields. -/
def Notice.head : Notice → Word
  | .ready recreated _ _ free => word (0x1000 + free / 65536 % 2 * 512 + recreated % 512)
  | .documentFiled _ _ _ exceptions overflow =>
    word (0x2000 + exceptions % 16 * 256 + bit overflow * 128)
  | .feedHold causes _ _ _ => word (0x3000 + causes.code)
  | .jam cause line _ _ =>
    word (0x4000 + cause.code * 256 + (match line with | some l => l.val | none => 31))
  | .batchEnded kind _ _ _ => word (0x5000 + kind.code)
  | .verifyDone result _ _ _ => word (0x6000 + result.code)

/-- The four words of a notice (R191). -/
def Notice.words (n : Notice) : List Word :=
  n.head :: match n with
    | .ready _ valid damaged free => [word valid, word damaged, word free]
    | .documentFiled folio pages shelved _ _ =>
      [folio, word (pages % 256 * 256 + shelved % 256), 0]
    | .feedHold _ fed rejected opened => [word fed, word rejected, word opened]
    | .jam _ _ ticket tickets => [ticket.getD 0, word tickets, 0]
    | .batchEnded _ fed rejected opened => [word fed, word rejected, word opened]
    | .verifyDone _ folio failing checked => [folio, word failing, word checked]

/-! ## Term words (R74, R192) -/

/-- The kinds of a term, in the order of their codes (R192). -/
inductive TermKind where
  | endList
  | load
  | loadNot
  | and
  | andNot
  | or
  | orNot
  | mergeAnd
  | mergeOr
  | save
  | recall
  | gate
  | gateEnd
  | skip
  | skipEnd
  | route
  | routeNext
  | reject
  | separate
  | holdOnFile
  | latchSet
  | latchReset
  | keep
  | pulseRise
  | pulseFall
  | tag
  deriving DecidableEq, Repr

/-- The kind of a term word, bits 15-8; codes 1Ah to FFh name no kind (R192). -/
def termKind (w : Word) : Option TermKind :=
  match (w.extractLsb' 8 8).toNat with
  | 0x00 => some .endList
  | 0x01 => some .load
  | 0x02 => some .loadNot
  | 0x03 => some .and
  | 0x04 => some .andNot
  | 0x05 => some .or
  | 0x06 => some .orNot
  | 0x07 => some .mergeAnd
  | 0x08 => some .mergeOr
  | 0x09 => some .save
  | 0x0A => some .recall
  | 0x0B => some .gate
  | 0x0C => some .gateEnd
  | 0x0D => some .skip
  | 0x0E => some .skipEnd
  | 0x0F => some .route
  | 0x10 => some .routeNext
  | 0x11 => some .reject
  | 0x12 => some .separate
  | 0x13 => some .holdOnFile
  | 0x14 => some .latchSet
  | 0x15 => some .latchReset
  | 0x16 => some .keep
  | 0x17 => some .pulseRise
  | 0x18 => some .pulseFall
  | 0x19 => some .tag
  | _ => none

/-- The operand of a term word, bits 7-0 (R192). -/
def termOperand (w : Word) : Nat := (w.extractLsb' 0 8).toNat

/-- The least and the greatest operand of a kind; a kind with no operand takes 0 (R74). -/
def TermKind.range : TermKind → Nat × Nat
  | .load | .loadNot | .and | .andNot | .or | .orNot => (0, 47)
  | .save | .recall => (0, 7)
  | .skip | .skipEnd => (0, 15)
  | .route => (1, 4)
  | .reject => (1, 15)
  | .latchSet | .latchReset | .keep | .pulseRise | .pulseFall => (0, 7)
  | .tag => (0, 3)
  | .endList | .mergeAnd | .mergeOr | .gate | .gateEnd | .routeNext | .separate | .holdOnFile =>
    (0, 0)

/-- The values a kind needs on the stack before it runs (R74). -/
def TermKind.needs : TermKind → Nat
  | .load | .loadNot | .recall | .gateEnd | .skipEnd | .endList => 0
  | .and | .andNot | .or | .orNot | .save | .gate | .skip | .route | .routeNext | .reject
  | .separate | .holdOnFile | .latchSet | .latchReset | .pulseRise | .pulseFall | .tag => 1
  | .mergeAnd | .mergeOr | .keep => 2

/-- The stack depth after a kind, from the depth before it (R74: the net change). -/
def TermKind.depthAfter (k : TermKind) (depth : Nat) : Nat :=
  match k with
  | .load | .loadNot | .recall => depth + 1
  | .and | .andNot | .or | .orNot | .save | .gateEnd | .skipEnd | .endList => depth
  | .keep => depth - 2
  | .mergeAnd | .mergeOr | .gate | .skip | .route | .routeNext | .reject | .separate
  | .holdOnFile | .latchSet | .latchReset | .pulseRise | .pulseFall | .tag => depth - 1

end Sys2Proof.Machine
end

