-- ==== Sys2Proof/Machine/Flags.lean ====
section
/-! DEFINITION. Conditions computed from the state: positions and windows of tickets, gate states, what
a line's function sees and what its pin carries, eligibility, holds, the feeder's waits, the interrupt
conditions. Nothing here changes the state. -/

namespace Sys2Proof.Machine

/-! ## The batch and the tracker (R106, R163) -/

/-- The motor function: on in RUNNING, FEED HOLD and DRAINING (R163). -/
def State.motorOn (s : State) : Bool :=
  match s.batch.state with
  | .running | .feedHold | .draining => true
  | .idle | .halted => false

/-- Whether the tracker acts (R106). -/
def State.acts (s : State) : Bool := s.motorOn && !s.tracker.stopped

/-- Whether the feeder is FEEDING; the clutch function (R163). -/
def State.feeding (s : State) : Bool := s.batch.feeder ≠ .atRest

/-- The items of the path profile (R103). -/
def State.edgePosition (s : State) : Nat := s.tracker.profile[0]
def State.doubleFeedZone (s : State) : Nat := s.tracker.profile[1]
def State.separatorZone (s : State) : Nat := s.tracker.profile[2]
def State.scanPosition (s : State) : Nat := s.tracker.profile[3]
def State.gatePosition (s : State) (k : TrayIx) : Nat :=
  match k with
  | 0 => s.tracker.profile[4]
  | 1 => s.tracker.profile[5]
  | 2 => s.tracker.profile[6]
  | 3 => s.tracker.profile[7]
/-- The position of an exit: a tray's, or the reject exit for `none` (R103). -/
def State.exitPosition (s : State) (path : Option TrayIx) : Nat :=
  match path with
  | some 0 => s.tracker.profile[8]
  | some 1 => s.tracker.profile[9]
  | some 2 => s.tracker.profile[10]
  | some 3 => s.tracker.profile[11]
  | none => s.tracker.profile[12]
def State.tolerance (s : State) : Nat := s.tracker.profile[13]
def State.minimumPitch (s : State) : Nat := s.tracker.profile[14]
def State.gateLead (s : State) : Nat := s.tracker.profile[15]
def State.gateClear (s : State) : Nat := s.tracker.profile[16]
def State.shortThreshold (s : State) : Nat := s.tracker.profile[17]
def State.longThreshold (s : State) : Nat := s.tracker.profile[18]

/-- The leading position of a ticket, modulo 2^32 (R102). -/
def Ticket.leading (travel : Long) (t : Ticket) : Nat := (travel - t.entry).toNat

/-- The trailing position of a ticket, absent while the length is (R102). -/
def Ticket.trailing (travel : Long) (t : Ticket) : Option Nat :=
  t.length.map fun l => (travel - t.entry - BitVec.ofNat 32 l).toNat

/-- Whether a ticket covers a position (R111). -/
def Ticket.covers (travel : Long) (position : Nat) (t : Ticket) : Bool :=
  position ≤ t.leading travel &&
    match t.trailing travel with
    | none => true
    | some p => p ≤ position

/-- Whether a position lies within `target` plus or minus `reach`, both ends included (R108). -/
def within (position target reach : Nat) : Bool :=
  position ≤ target + reach && target ≤ position + reach

/-- A ticket is undecided in stages ENTERED to CAPTURED (R101). -/
def Ticket.undecided (t : Ticket) : Bool := t.stage ≠ .decided

/-- Whether the capture of a ticket is not yet complete (R124, R151). -/
def Ticket.capturing (t : Ticket) : Bool :=
  match t.stage with
  | .entered | .gauged | .scanning => true
  | .captured | .decided => false

/-- The number of undecided tickets, as the tracker answers it (R124). -/
def State.undecided (s : State) : Nat := s.tracker.train.countP Ticket.undecided

/-- Whether the Assembler has decided a ticket and the tracker has not yet taken the outcome. -/
def State.outcomeStands (s : State) (ordinal : Word) : Bool :=
  s.assembler.outcomes.any fun o => o.ordinal = ordinal

/-- Whether a ticket still waits for its decision: undecided, with no outcome on its way (log 15). -/
def State.unruled (s : State) (t : Ticket) : Bool := t.undecided && !s.outcomeStands t.ordinal

/-- Whether the last side the batch needs has been captured (R112). -/
def State.captureComplete (s : State) (t : Ticket) : Bool :=
  t.frontDone && (t.backDone || !s.batch.duplex)

/-! ## Gates (R113) -/

/-- Whether a holding is a claim not yet released. -/
def Holding.held : Holding → Bool
  | .heldOff | .heldOn => true
  | .notReached | .released => false

/-- The holders of a gate, in entry order (R113; log 14). -/
def State.gateHolders (s : State) (k : TrayIx) : List Ticket :=
  s.tracker.train.filter fun t => t.gates[k].held

/-- Whether the state of a gate is ON: its oldest holder holds it ON (R113). -/
def State.gateOn (s : State) (k : TrayIx) : Bool :=
  match (s.gateHolders k).head? with
  | some t => t.gates[k] = .heldOn
  | none => false

/-- Whether a ticket's release of a gate is due (R113): it holds the gate, and its trailing position
has reached gate + clear. -/
def State.releaseDue (s : State) (k : TrayIx) (t : Ticket) : Bool :=
  t.gates[k].held &&
    match t.trailing s.tracker.travel with
    | some p => s.gatePosition k + s.gateClear ≤ p
    | none => false

/-- Whether a ticket's path reaches a gate (R113). -/
def Ticket.reaches (k : TrayIx) (t : Ticket) : Bool :=
  match t.path with
  | none => true
  | some n => k ≤ n

/-- Whether a ticket's claim of a gate is due (R113): it has not yet claimed it, its path reaches it,
and its leading position has come to gate - lead. -/
def State.claimDue (s : State) (k : TrayIx) (t : Ticket) : Bool :=
  t.gates[k] = .notReached && t.reaches k &&
    s.gatePosition k ≤ t.leading s.tracker.travel + s.gateLead

/-! ## Lines (R178 to R181) -/

/-- Whether a line carries an output function: L12 to L21 (R178). -/
def outputFunction (l : LineIx) : Bool := 12 ≤ l.val && l.val ≤ 21

/-- The value of an output function, asserted or not (R178, R179). -/
def State.functionValue (s : State) (l : LineIx) : Bool :=
  match l.val with
  | 12 => s.feeding
  | 13 => s.motorOn
  | 14 => s.gateOn 0
  | 15 => s.gateOn 1
  | 16 => s.gateOn 2
  | 17 => s.gateOn 3
  | 18 => s.evaluator.tags.tag0
  | 19 => s.evaluator.tags.tag1
  | 20 => s.evaluator.tags.tag2
  | 21 => s.evaluator.tags.tag3
  | _ => false

/-- Whether a line is parked: an enabled L12 to L17 while the batch is IDLE or HALTED (R181). -/
def State.parked (s : State) (l : LineIx) : Bool :=
  12 ≤ l.val && l.val ≤ 17 && s.lines.settings[l].enabled &&
    match s.batch.state with
    | .idle | .halted => true
    | .running | .feedHold | .draining => false

/-- The level of a pin, high or not (R180). A pin that nothing drives and nothing pulls floats: its
level is a free value (log 7). -/
def State.pinLevel (s : State) (l : LineIx) : Bool :=
  let c := s.lines.settings[l]
  if c.output then
    if outputFunction l && c.enabled then
      (if s.parked l then !c.activeHigh
       else if s.functionValue l then c.activeHigh else !c.activeHigh)
    else c.latch
  else
    match s.lines.board[l] with
    | .low => false
    | .high => true
    | .released => if c.pull then !c.activeHigh else Config.floatingPin l.val s.draws

/-- Whether an input function sees its line asserted (R179). -/
def State.seen (s : State) (l : LineIx) : Bool :=
  s.lines.settings[l].enabled && s.pinLevel l = s.lines.settings[l].activeHigh

/-- Whether the pin of a line can change what its input function sees: the function is enabled and the
line is an input (R179). -/
def State.boardSeen (s : State) (l : LineIx) : Bool :=
  s.lines.settings[l].enabled && !s.lines.settings[l].output

/-- Whether one line is as a batch needs it (R184). Of L0 to L17 only L11 may have its function disabled
(log 27). -/
def State.lineReady (s : State) (l : LineIx) : Bool :=
  17 < l.val ||
    ((s.lines.settings[l].enabled || l.val = 11) && (l.val < 12 || s.lines.settings[l].output))

/-- Whether the lines are ready for a batch (R184). -/
def State.linesReady (s : State) : Bool := (List.finRange 24).all s.lineReady

/-! ## Trays and records (R9, R50, R59) -/

/-- Fill + committed of a tray. -/
def Tray.sum (t : Tray) : Nat := t.fill + t.committed

/-- Whether a tray may take a new document (R59). -/
def Tray.eligible (t : Tray) : Bool := t.mounted && t.sum < t.soft

/-- Whether a tray is bound: the open document's bound tray is that tray (R50). -/
def State.bound (s : State) (t : TrayIx) : Bool :=
  match s.assembler.openDocument with
  | some d => d.tray = t
  | none => false

/-- Whether a record is held: its effective hold (R9). -/
def State.heldRecord (s : State) (r : Record) : Bool :=
  0 < r.holdCount || 0 < (s.matterAt r.place).holdCount

/-- Whether a record is live (R2, R40). -/
def RecordState.live : RecordState → Bool
  | .assembling | .filing | .filed => true
  | .free | .damaged | .undefined => false

/-- The index entry of a matter number (R4). -/
def State.findMatter (s : State) (number : Long) : Option IndexEntry :=
  s.folio.index.find? fun e => e.matter = number

/-- The lowest-numbered free directory place (R6). -/
def State.freePlace (s : State) : Option Nat :=
  firstFrom (fun p => (s.matterAt p).number = 0) 0 Config.placeCount

/-- The lowest-numbered FREE slot (R11). -/
def State.freeSlot (s : State) : Option Nat :=
  firstFrom (fun n => (s.slot n).state = .free) 0 Config.slotCount

/-! ## The feeder (R124, R151, R168) -/

/-- The plate reserve (R151). -/
def State.plateReserve (s : State) : Nat :=
  Config.reservePlates * (s.tracker.train.countP Ticket.capturing + 1)

/-- Whether a sheet covers the entry sensor: a ticket has no length yet (R111, R124; DEDUCED, log
11). -/
def State.entryCovered (s : State) : Bool := s.tracker.train.any fun t => t.length.isNone

/-- Whether the minimum pitch has passed (R124): the entry sensor uncovered and the travel far enough
beyond the last entry trailing count, or that count absent, which is enough by itself (log 28). -/
def State.pitchPassed (s : State) : Bool :=
  match s.tracker.lastEntryTrailing with
  | none => true
  | some c => !s.entryCovered && s.minimumPitch ≤ (s.tracker.travel - c).toNat

/-- Free places of the notice queue. -/
def State.noticeRoom (s : State) : Nat := Config.noticePlaces - s.port.notices.length

/-- The four waits of R168, in its order. -/
structure Waits where
  trainFull : Bool
  pitch : Bool
  plates : Bool
  notices : Bool
  deriving DecidableEq, Repr

/-- The waits as they stand (R168). -/
def State.waits (s : State) : Waits where
  trainFull := Config.trainTickets ≤ s.tracker.train.length
  pitch := !s.pitchPassed
  plates := s.images.free.length < s.plateReserve
  notices := s.noticeRoom < s.tracker.train.length + 2

/-- Whether some wait stands. -/
def Waits.any (w : Waits) : Bool := w.trainFull || w.pitch || w.plates || w.notices

/-- The condition behind TRAY LIMIT (R72, R166, R168): a document is open, and its bound tray's fill +
committed + the undecided tickets has reached the hard limit. -/
def State.trayLimitStands (s : State) : Bool :=
  match s.assembler.openDocument with
  | none => false
  | some d => s.assembler.trays[d.tray].hard ≤ s.assembler.trays[d.tray].sum + s.undecided

/-- Whether some tray is eligible (R72). -/
def State.someTrayEligible (s : State) : Bool :=
  s.assembler.trays[0].eligible || s.assembler.trays[1].eligible ||
    s.assembler.trays[2].eligible || s.assembler.trays[3].eligible

/-- Whether L11 is asserted to its REJECT FULL function (R166, R168). -/
def State.rejectFull (s : State) : Bool := s.seen 11

/-- Whether no hold cause stands. -/
def HoldCauses.isEmpty (c : HoldCauses) : Bool := c = {}

/-! ## The port (R186, R190) -/

/-- Free words of the request FIFO and of the reply FIFO. -/
def State.requestRoom (s : State) : Nat := Config.fifoWords - s.port.requests.length
def State.replyRoom (s : State) : Nat := Config.fifoWords - s.port.replies.length

/-- The interrupt conditions as they stand (R190). -/
def State.conditions (s : State) : PortConditions where
  noticeWaiting := !s.port.notices.isEmpty
  replyWaiting := !s.port.replies.isEmpty
  requestSpace := 8 ≤ s.requestRoom && !s.port.overrun
  exportWaiting := !s.port.exports.isEmpty

/-- Four conditions or enables as a number, NOTICE WAITING the most significant (R190). -/
def PortConditions.code (c : PortConditions) : Nat :=
  8 * bit c.noticeWaiting + 4 * bit c.replyWaiting + 2 * bit c.requestSpace + bit c.exportWaiting

/-- INT: high while a condition whose enable is 1 holds (R190). -/
def State.int (s : State) : Bool := s.port.enables.code &&& s.conditions.code ≠ 0

end Sys2Proof.Machine
end

