-- ==== Sys2Proof/Machine/Ops.lean ====
section
/-! DEFINITION. The named operations over the state that the meanings share: how a step begins, how a
request is answered, how notices are posted, and the changes of tickets, trays, sides, channels, plates
and matters that several blocks make. -/

namespace Sys2Proof.Machine

/-- What a step answers. -/
abbrev StepResult := Host.Outcome State Fault Refusal

/-- A step begins: no write of record memory has been made in it, and its free values are fresh. -/
def State.begin (s : State) : State := { s with journal := [], draws := s.draws + 1 }

/-- A step that changes the state. Every command of the part completes. -/
def complete (f : State → State) (s : State) : StepResult := .next (f s.begin)

/-! ## Requests and replies (R186, R188) -/

/-- The whole reply enters the reply FIFO (R188). -/
def State.answer (tag : Tag) (r : Reply) (s : State) : State :=
  { s with port.replies := s.port.replies ++ r.words tag }

/-- Whether the reply FIFO has free room for the largest reply of a request, `most` words; while
STARTING is set, one word (R186). -/
def State.canAnswer (most : Nat) (s : State) : Bool :=
  (if s.port.starting then 1 else most) ≤ s.replyRoom

/-- A request that has been taken: answered STARTING while STARTING is set, and otherwise served by its
owner, whose reply follows the change (R37, R186). -/
def serve (tag : Tag) (owner : State → State × Reply) (s : State) : State :=
  if s.port.starting then s.answer tag (refuse .starting)
  else (owner s).1.answer tag (owner s).2

/-- A request row: the request as it reaches its owner through the port. Without room for its largest
reply it is not taken, and nothing happens (R186; log 4). -/
def request (most : Nat) (tag : Tag) (owner : State → State × Reply) (s : State) : StepResult :=
  complete (fun s => if s.canAnswer most then serve tag owner s else s) s

/-- A request that is refused changes nothing (R19). -/
def refused (code : ReplyCode) (s : State) : State × Reply := (s, refuse code)

/-! ## Notices (R17, R156, R177, R189) -/

/-- The Folio Table posts a notice, or keeps it behind those it keeps (R17). -/
def State.postFolio (n : Notice) (s : State) : State :=
  if s.folio.kept = [] ∧ 0 < s.noticeRoom then { s with port.notices := s.port.notices ++ [n] }
  else { s with folio.kept := s.folio.kept ++ [n] }

/-- The Batch Controller posts a notice, or keeps it (R177). -/
def State.postBatch (n : Notice) (s : State) : State :=
  if s.batch.kept = [] ∧ 0 < s.noticeRoom then { s with port.notices := s.port.notices ++ [n] }
  else { s with batch.kept := s.batch.kept ++ [n] }

/-- The audit channel posts a notice, or keeps it (R156). -/
def State.postAudit (n : Notice) (s : State) : State :=
  if s.images.audit.kept = none ∧ 0 < s.noticeRoom then
    { s with port.notices := s.port.notices ++ [n] }
  else { s with images.audit.kept := some n }

/-- A freed place goes to the first producer that keeps a notice: the Folio Table, the Batch
Controller, the audit channel (R189). -/
def State.postKept (s : State) : State :=
  match s.folio.kept, s.batch.kept, s.images.audit.kept with
  | n :: rest, _, _ => { s with port.notices := s.port.notices ++ [n], folio.kept := rest }
  | [], n :: rest, _ => { s with port.notices := s.port.notices ++ [n], batch.kept := rest }
  | [], [], some n => { s with port.notices := s.port.notices ++ [n], images.audit.kept := none }
  | [], [], none => s

/-! ## Tickets, trays, sides and channels -/

/-- The ticket of a sheet ordinal. -/
def State.ticket (s : State) (ordinal : Word) : Option Ticket :=
  s.tracker.train.find? fun t => t.ordinal = ordinal

/-- Changes the ticket of a sheet ordinal. -/
def State.editTicket (ordinal : Word) (f : Ticket → Ticket) (s : State) : State :=
  { s with tracker.train := s.tracker.train.map fun t => if t.ordinal = ordinal then f t else t }

/-- A ticket leaves the train, and those behind it keep their order (R100). -/
def State.removeTicket (ordinal : Word) (s : State) : State :=
  { s with tracker.train := s.tracker.train.filter fun t => t.ordinal ≠ ordinal }

/-- The oldest ticket for which the test holds. -/
def State.oldest (s : State) (test : Ticket → Bool) : Option Ticket := s.tracker.train.find? test

/-- Changes a tray. -/
def State.editTray (t : TrayIx) (f : Tray → Tray) (s : State) : State :=
  { s with assembler.trays := s.assembler.trays.set t.val (f s.assembler.trays[t]) t.isLt }

/-- A side of the Deskew Engine. -/
def State.side (s : State) : Side → DeskewSide
  | .front => s.engine.front
  | .back => s.engine.back

/-- Changes a side of the Deskew Engine. -/
def State.editSide (d : Side) (f : DeskewSide → DeskewSide) (s : State) : State :=
  match d with
  | .front => { s with engine.front := f s.engine.front }
  | .back => { s with engine.back := f s.engine.back }

/-- A capture channel. -/
def State.capture (s : State) : Side → CaptureChannel
  | .front => s.images.front
  | .back => s.images.back

/-- Changes a capture channel. -/
def State.editCapture (d : Side) (f : CaptureChannel → CaptureChannel) (s : State) : State :=
  match d with
  | .front => { s with images.front := f s.images.front }
  | .back => { s with images.back := f s.images.back }

/-- The capture channel of a side (07). -/
def captureChannel : Side → Channel
  | .front => .captureFront
  | .back => .captureBack

/-- The capture chain of a ticket for a side (R100). -/
def Ticket.chain (t : Ticket) : Side → PlateChain
  | .front => t.frontChain
  | .back => t.backChain

/-- Changes the capture chain of a ticket for a side. -/
def Ticket.editChain (d : Side) (f : PlateChain → PlateChain) (t : Ticket) : Ticket :=
  match d with
  | .front => { t with frontChain := f t.frontChain }
  | .back => { t with backChain := f t.backChain }

/-- IMAGE LOST is set on a ticket (R133). -/
def Ticket.lose (t : Ticket) : Ticket := { t with flags.imageLost := true }

/-- A counter goes up by 1 and stops at 65,535 (R176). -/
def countUp (n : Nat) : Nat := min (n + 1) Config.counterTop

/-! ## Plates (R139, R140) -/

/-- The plates of a chain, from a plate on, as many as the count, following the next-plate fields; the
list is short when a field is absent first. -/
def State.chainPlates (s : State) : Option Nat → Nat → List Nat
  | _, 0 => []
  | none, _ + 1 => []
  | some p, n + 1 => p :: s.chainPlates (s.link p).next n

/-- Writes the next-plate field of each chain's tail so that it names the head of the chain after it,
and makes the last chain's tail field absent (R140). -/
def State.linkChains : List PlateChain → State → State
  | [], s => s
  | [c], s => match c.tail with
    | some t => s.putNext t none
    | none => s
  | c :: c' :: rest, s => linkChains (c' :: rest) (match c.tail with
    | some t => s.putNext t c'.head
    | none => s)

/-- Returns chains to the tail of the free plate queue, in the order given; a chain with count 0 is
passed over (R140). -/
def State.returnChains (chains : List PlateChain) (s : State) : State :=
  match chains.filter fun c => 0 < c.count with
  | [] => s
  | c :: rest =>
    let joined := match s.images.free.tail with
      | some t => s.putNext t c.head
      | none => s
    let linked := joined.linkChains (c :: rest)
    { linked with
      images.free := {
        head := if s.images.free.length = 0 then c.head else s.images.free.head
        tail := ((c :: rest).getLast?.getD c).tail
        length := s.images.free.length + ((c :: rest).map PlateChain.count).sum } }

/-- Takes the head of the free plate queue, or finds it empty (R139). -/
def State.takePlate (s : State) : Option (Nat × State) :=
  match s.images.free.length, s.images.free.head with
  | n + 1, some p =>
    let rest : FreeQueue :=
      if n = 0 then {} else { s.images.free with head := (s.link p).next, length := n }
    some (p, { s with images.free := rest })
  | _, _ => none

/-- Returns a ticket's plates, front chain first, and empties its chains (R54, R123). -/
def State.returnTicketPlates (t : Ticket) (s : State) : State :=
  (s.returnChains [t.frontChain, t.backChain]).editTicket t.ordinal fun u =>
    { u with frontChain := {}, backChain := {} }

/-! ## Matters (R6, R7) -/

/-- A new index entry, kept in order of place. -/
def insertIndex (e : IndexEntry) : List IndexEntry → List IndexEntry
  | [] => [e]
  | f :: rest => if e.place < f.place then e :: f :: rest else f :: insertIndex e rest

/-- The fields of a matter that has just entered the directory (R6). -/
def Matter.fresh (number : Long) : Matter := { number := number, nextSequence := 1 }

/-- A matter's index entry is made (R6). -/
def State.indexMatter (number : Long) (place : Nat) (s : State) : State :=
  { s with folio.index := insertIndex { matter := number, place := place } s.folio.index }

/-- A matter enters the directory at a place (R6). -/
def State.createMatter (number : Long) (place : Nat) (s : State) : State :=
  (s.indexMatter number place).putMatter place (.fresh number)

/-- Whether the matter of a place is batch-pinned (R8). -/
def State.pinned (s : State) (place : Nat) : Bool :=
  s.folio.index.any fun e => e.place = place && e.pinned

/-- Whether R7's test removes the matter of a place. -/
def State.removable (s : State) (place : Nat) : Bool :=
  let m := s.matterAt place
  m.number ≠ 0 && m.recordCount = 0 && m.holdCount = 0 && !s.pinned place

/-- R7's test: a matter with no record, no hold and no pin leaves the directory. -/
def State.testRemoval (place : Nat) (s : State) : State :=
  if s.removable place then
    { s with folio.index := s.folio.index.filter fun e => e.place ≠ place }.putMatter place {}
  else s

/-- The place of a matter that a claim names: its own, or the lowest free place (R6). `none` is FULL. -/
def State.placeFor (s : State) (number : Long) : Option Nat :=
  match s.findMatter number with
  | some e => some e.place
  | none => s.freePlace

/-- The matter a claim names, which enters the directory if it is not yet there (R6). -/
def State.matterFor (s : State) (number : Long) (place : Nat) : State :=
  match s.findMatter number with
  | some _ => s
  | none => s.createMatter number place

end Sys2Proof.Machine
end

