-- ==== Sys2Proof/Machine/Folio.lean ====
section
/-! DEFINITION. The Folio Table (spec/01_the_folio_table.md): folio resolution, chains, the record
operations it serves for other blocks, and the thirteen folio requests. -/

namespace Sys2Proof.Machine

/-! ## Resolution (R2) -/

/-- Resolves a folio number: NOT FOUND, STALE, DAMAGED, or the live record it names (R2). A stored
state code that is none of the five is the rebuild's to make DAMAGED (R40), and answers so. -/
def State.resolve (s : State) (folio : Word) : Except ReplyCode Record :=
  let r := s.slot (slotOf folio)
  if r.state = .free then .error .notFound
  else if r.generation ≠ generationOf folio then .error .stale
  else if r.state.live then .ok r
  else .error .damaged

/-- Serves a request that names a folio: the checks of R2 come before all of its own (R19). -/
def onFolio (folio : Word) (own : Record → State → State × Reply) (s : State) : State × Reply :=
  match s.resolve folio with
  | .error code => refused code s
  | .ok r => own r s

/-! ## The exception list (R10) -/

/-- Adds a defect to the end of the list, or sets the overflow flag when eight are stored (R10). -/
def Record.addException (e : ExceptionEntry) (r : Record) : Record :=
  if r.exceptions.length < Config.exceptionPlaces then { r with exceptions := r.exceptions ++ [e] }
  else { r with overflow := true }

/-! ## Chains (R5) -/

/-- The record before a slot in a chain, walking from a slot on. -/
def State.before (s : State) (slot : Nat) : Nat → Option Nat → Option Nat
  | 0, _ => none
  | _ + 1, none => none
  | n + 1, some c =>
    if (s.slot c).chainNext = some slot then some c else s.before slot n (s.slot c).chainNext

/-- The record before a slot in its matter's chain; absent at the head (R5). -/
def State.chainBefore (s : State) (slot : Nat) (place : Nat) : Option Nat :=
  s.before slot Config.slotCount (s.matterAt place).head

/-- The slot part of leaving a chain: the record before is linked past the leaving one (R5). -/
def State.unlinkSlot (prev : Option Nat) (r : Record) (s : State) : State :=
  match prev with
  | some p => s.editSlot p fun q => { q with chainNext := r.chainNext }
  | none => s

/-- The directory part of leaving a chain (R5). -/
def Matter.leave (slot : Nat) (prev : Option Nat) (r : Record) (m : Matter) : Matter :=
  { m with
    recordCount := m.recordCount - 1
    head := if m.head = some slot then r.chainNext else m.head
    tail := if m.tail = some slot then prev else m.tail }

/-- The sequence after one that has been given out; 0 is exhausted (R4, R5). -/
def sequenceAfter (n : Nat) : Nat := if n = 65535 then 0 else n + 1

/-- The slot part of joining a chain: the old tail is linked to the new slot (R5). -/
def State.linkSlot (slot : Nat) (m : Matter) (s : State) : State :=
  match m.tail with
  | some t => s.editSlot t fun q => { q with chainNext := some slot }
  | none => s

/-- The directory part of joining a chain at the tail (R5). -/
def Matter.join (slot : Nat) (m : Matter) : Matter :=
  { m with
    recordCount := m.recordCount + 1
    head := if m.head = none then some slot else m.head
    tail := some slot
    nextSequence := sequenceAfter m.nextSequence }

/-! ## Filing (R14 to R17) -/

/-- The folio of a slot as its record stands. -/
def Record.folio (slot : Nat) (r : Record) : Word := folioOf slot r.generation

/-- The DOCUMENT FILED notice of a record (R17). -/
def Record.filedNotice (slot : Nat) (r : Record) : Notice :=
  .documentFiled (r.folio slot) r.pageCount r.shelved r.exceptions.length r.overflow

/-- A record reaches FILED and its notice is posted or kept (R17). -/
def State.fileRecord (slot : Nat) (r : Record) (s : State) : State :=
  (s.putSlot slot { r with state := .filed }).postFolio (r.filedNotice slot)

/-- Writes a record whose outstanding has gone down: a FILING record with none left is FILED (R15,
R16). -/
def State.settleRecord (slot : Nat) (r : Record) (s : State) : State :=
  if r.state = .filing ∧ r.outstanding = 0 then s.fileRecord slot r else s.putSlot slot r

/-- Close: the ASSEMBLING record goes to FILING, or at once to FILED (R14). -/
def State.closeRecord (slot : Nat) (s : State) : State :=
  let r := s.slot slot
  if 0 < r.outstanding then s.putSlot slot { r with state := .filing } else s.fileRecord slot r

/-- The delivery update (R15). -/
def State.deliverPage (slot position : Nat) (s : State) : State :=
  let r := s.slot slot
  s.settleRecord slot
    { r with
      firstPosition := if r.shelved = 0 then some position else r.firstPosition
      lastPosition := some position
      shelved := r.shelved + 1
      outstanding := r.outstanding - 1 }

/-- The not-shelved resolution, with its detail (R10, R16). -/
def State.resolveNotShelved (slot ordinal detail : Nat) (s : State) : State :=
  let r := s.slot slot
  s.settleRecord slot
    { r.addException { page := ordinal, cause := .notShelved, detail := detail } with
      outstanding := r.outstanding - 1 }

/-- The rejected-sheet claim (R13). -/
def State.rejectedSheet (slot detail : Nat) (s : State) : State :=
  s.editSlot slot fun r =>
    r.addException { page := r.pageCount, cause := .sheetRejected, detail := detail }

/-! ## Opening and appending (R11, R12) -/

/-- The slot the open operation takes and the place of the batch matter, unless it is refused: no free
slot, an exhausted sequence, or a DOCUMENT FILED notice kept (R11). -/
def State.openClaim (s : State) : Option (Nat × Nat) :=
  if s.folio.freeSlots = 0 ∨ s.folio.kept ≠ [] then none
  else
    match s.findMatter s.batch.matter, s.freeSlot with
    | some e, some slot =>
      if (s.matterAt e.place).nextSequence = 0 then none else some (slot, e.place)
    | _, _ => none

/-- The predecessor folio of a new record, if it resolves to a live record (R11). -/
def State.livePredecessor (s : State) (predecessor : Option Word) : Option Word :=
  match predecessor with
  | some p => match s.resolve p with
    | .ok _ => some p
    | .error _ => none
  | none => none

/-- The record the open operation makes (R11). -/
def State.newRecord (s : State) (slot place : Nat) (tray : TrayIx) (box : Long)
    (predecessor : Option Word) : Record where
  generation := (s.slot slot).generation
  state := .assembling
  matter := s.batch.matter
  place := place
  sequence := (s.matterAt place).nextSequence
  cls := s.batch.cls
  tray := some tray
  box := box
  predecessor := predecessor

/-- The checks of the plates of chains, in chain order. -/
def State.chainChecks (s : State) (chains : List PlateChain) : List Word :=
  (chains.map fun c => (s.chainPlates c.head c.count).map fun p => (s.link p).check).flatten

/-- The exceptions of an appended page (R12). -/
def Record.pageExceptions (flags : Flags) (ordinal : Nat) (r : Record) : Record :=
  let skewed := if flags.skewOver then
      r.addException { page := ordinal, cause := .skewUncorrected, detail := 0 } else r
  if flags.doubleFeed then
    skewed.addException { page := ordinal, cause := .doubleFeedFiled, detail := 0 } else skewed

/-- The OR of two tag sets. -/
def Tags.or (a b : Tags) : Tags :=
  ⟨a.tag0 || b.tag0, a.tag1 || b.tag1, a.tag2 || b.tag2, a.tag3 || b.tag3⟩

/-- The intake hold, taken once, the hold count stopping at 7 (R12). -/
def Record.takeIntake (holdOnFile : Bool) (r : Record) : Record :=
  if holdOnFile && !r.intakeTaken then
    { r with holdCount := min 7 (r.holdCount + 1), intakeTaken := true }
  else r

/-- The record after a page append (R12), from the chains joined and their checks. -/
def Record.append (t : Ticket) (chains : List PlateChain) (checks : List Word) (tags : Tags)
    (holdOnFile : Bool) (r : Record) : Record :=
  let paged : Record :=
    { r with
      pageCount := r.pageCount + 1
      outstanding := r.outstanding + 1
      plateHead := match r.plateHead with
        | some p => some p
        | none => (chains.head?.bind PlateChain.head)
      plateTail := match chains.getLast? with
        | some c => c.tail
        | none => r.plateTail
      plateCount := r.plateCount + (chains.map PlateChain.count).sum
      digest := digestOver r.digest checks
      sideCount := r.sideCount + bit t.frontDone + bit t.backDone
      tags := r.tags.or tags }
  (paged.pageExceptions t.flags (r.pageCount + 1)).takeIntake holdOnFile

/-- The capture chains of a ticket that hold a plate, front before back (R12). -/
def Ticket.plateChains (t : Ticket) : List PlateChain :=
  [t.frontChain, t.backChain].filter fun c => 0 < c.count

/-- The record after a ticket's page append (R12). -/
def State.paged (t : Ticket) (tags : Tags) (holdOnFile : Bool) (r : Record) (s : State) : Record :=
  r.append t t.plateChains (s.chainChecks t.plateChains) tags holdOnFile

/-- The link entries a page append writes (R12): those of the old plate tail and of the front chain's
tail. -/
def State.linkPage (oldTail : Option Nat) (t : Ticket) (s : State) : State :=
  let joined := match oldTail, t.plateChains.head? with
    | some p, some c => s.putNext p c.head
    | _, _ => s
  match t.plateChains with
  | [c, c'] => match c.tail with
    | some p => joined.putNext p c'.head
    | none => joined
  | _ => joined

/-- Page append (R12): the link entries, then the slot (R37). -/
def State.appendPage (slot : Nat) (t : Ticket) (tags : Tags) (holdOnFile : Bool) (s : State) : State :=
  let r := s.slot slot
  (s.linkPage r.plateTail t).putSlot slot (s.paged t tags holdOnFile r)

/-- The predecessor's half of a continuation link (R11). -/
def State.linkPredecessor (predecessor : Option Word) (folio : Word) (s : State) : State :=
  match predecessor with
  | some f => s.editSlot (slotOf f) fun q => { q with successor := some folio }
  | none => s

/-- The open operation, once granted, taken whole with the first page append (R1, R11, R12): the page's
link entries, the new slot with its first page in one write, the old tail of the chain, the predecessor's
successor field, and the directory entry. R37 gives links, slots, directory, and the new record's half of a
continuation link before its partner's; that the old tail's slot comes between the two is log 31. -/
def State.openRecord (slot place : Nat) (tray : TrayIx) (box : Long) (predecessor : Option Word)
    (t : Ticket) (tags : Tags) (holdOnFile : Bool) (s : State) : State :=
  let m := s.matterAt place
  let p := s.livePredecessor predecessor
  let r := s.newRecord slot place tray box p
  let written := (s.linkPage r.plateTail t).putSlot slot (s.paged t tags holdOnFile r)
  let linked := (written.linkSlot slot m).linkPredecessor p (r.folio slot)
  let entered := linked.putMatter place (m.join slot)
  { entered with folio.freeSlots := entered.folio.freeSlots - 1 }

/-! ## In-use marks (R33) -/

/-- Whether the audit mark or the export mark names a slot (R33). -/
def State.inUse (s : State) (slot : Nat) : Bool :=
  s.folio.auditMark = some slot || s.folio.exportMark = some slot

/-- The start claim of an audit or an export: the folio resolves to a FILED record that still has its
image (R33). -/
def State.startClaim (s : State) (folio : Word) : Except ReplyCode Record :=
  match s.resolve folio with
  | .error code => .error code
  | .ok r =>
    if r.state ≠ .filed then .error .state
    else if r.image = .shed then .error .noImage
    else .ok r

/-! ## The largest replies (R186) -/

/-- The words of the largest reply of a request code: one header word and the most result words its
owning rule gives (R186). A code that names no request is answered by one word. -/
def largestReply : Nat → Nat
  | 0x10 => 19
  | 0x11 => 3
  | 0x12 => 3
  | 0x13 => 10
  | 0x14 => 2
  | 0x15 => 2
  | 0x16 => 2
  | 0x17 => 2
  | 0x18 => 2
  | 0x19 => 2
  | 0x1A => 6
  | 0x1B => 2
  | 0x1C => 2
  | 0x20 => 2
  | 0x21 => 4
  | 0x22 => 11
  | 0x23 => 3
  | 0x30 => 2
  | 0x31 => 1
  | 0x32 => 3
  | 0x33 => 10
  | 0x40 => 28
  | 0x41 => 11
  | 0x42 => 2
  | 0x43 => 7
  | 0x44 => 3
  | 0x45 => 3
  | 0x46 => 13
  | 0x50 => 2
  | 0x51 => 2
  | 0x52 => 16
  | 0x53 => 1
  | 0x54 => 2
  | 0x55 => 1
  | 0x56 => 2
  | 0x60 => 3
  | 0x61 => 2
  | 0x62 => 2
  | 0x63 => 2
  | 0x64 => 2
  | 0x65 => 8
  | 0x70 => 2
  | 0x71 => 17
  | _ => 1

/-! ## Folio requests (R19 to R32) -/

/-- The record summary, 18 words (R20, R193). -/
def Record.summary (held : Bool) (r : Record) : List Word :=
  [pack [(3, r.state.code), (4, r.cls.toNat), (4, r.tags.code), (3, trayField r.tray),
      (1, bit (r.image = .shed))]] ++
  twoWords r.matter ++
  [word r.sequence] ++
  twoWords r.box ++
  [pack [(8, r.pageCount), (8, r.shelved)],
    pack [(4, r.exceptions.length), (1, bit r.overflow), (3, r.holdCount), (1, bit r.intakeTaken),
      (1, bit held), (1, bit r.firstPosition.isSome), (1, bit r.predecessor.isSome),
      (1, bit r.successor.isSome)],
    word r.sideCount,
    pack [(8, r.outstanding), (8, r.amendCount)],
    word (r.firstPosition.getD 0),
    word (r.lastPosition.getD 0),
    word r.plateCount,
    word r.retention,
    folioWord r.predecessor,
    folioWord r.successor] ++
  twoWords r.digest

/-- LOOKUP (R20). -/
def ownerLookup (folio : Word) : State → State × Reply :=
  onFolio folio fun r s => (s, okWith (r.summary (s.heldRecord r)))

/-- The word that shows a record's state (R193). -/
def Record.stateWord (r : Record) : Word := packOne 3 r.state.code

/-- The walk of FIND: the first record with the sequence, unless a greater one or the tail comes first
(R21). -/
def State.findSequence (s : State) (sequence : Nat) : Nat → Option Nat → Option Nat
  | 0, _ => none
  | _ + 1, none => none
  | n + 1, some c =>
    if (s.slot c).sequence = sequence then some c
    else if sequence < (s.slot c).sequence then none
    else s.findSequence sequence n (s.slot c).chainNext

/-- FIND (R21). -/
def ownerFind (matter : Long) (sequence : Word) (s : State) : State × Reply :=
  if matter = 0 ∨ sequence = 0 then refused .badArgument s
  else
    match s.findMatter matter with
    | none => refused .notFound s
    | some e =>
      match s.findSequence sequence.toNat Config.slotCount (s.matterAt e.place).head with
      | none => refused .notFound s
      | some slot => (s, okWith [(s.slot slot).folio slot, (s.slot slot).stateWord])

/-- NEXT IN MATTER (R22). -/
def ownerNextInMatter (folio : Word) : State → State × Reply :=
  onFolio folio fun r s =>
    match r.chainNext with
    | none => refused .endOfChain s
    | some n => (s, okWith [(s.slot n).folio n, (s.slot n).stateWord])

/-- READ EXCEPTIONS (R23). -/
def ownerReadExceptions (folio : Word) : State → State × Reply :=
  onFolio folio fun r s =>
    (s, okWith (pack [(4, r.exceptions.length), (1, bit r.overflow)] ::
      r.exceptions.map fun e => pack [(8, e.page), (3, e.cause.code), (5, e.detail)]))

/-- The amend count goes up by 1 and stays at 255 (R1). -/
def Record.amend (r : Record) : Record := { r with amendCount := min 255 (r.amendCount + 1) }

/-- SET RETENTION (R24). -/
def ownerSetRetention (folio day : Word) : State → State × Reply :=
  onFolio folio fun r s =>
    if r.state ≠ .filed then refused .state s
    else if day.toNat < r.retention ∧ s.heldRecord r then refused .held s
    else (s.putSlot (slotOf folio) { r.amend with retention := day.toNat },
      okWith [word r.retention])

/-- The move of a record to the tail of another matter (R25), its slots written before the directory
(R37). Of the slots, the record before it in the old chain is written first, then the record itself, then
the new matter's old tail (log 31); of the two directory entries the old matter's is first (log 25). -/
def State.moveRecord (slot : Nat) (r : Record) (matter : Long) (place : Nat) (m : Matter) (s : State) :
    State :=
  let prev := s.chainBefore slot r.place
  let moved : Record :=
    { r.amend with matter := matter, place := place, sequence := m.nextSequence, chainNext := none }
  let slots := ((s.unlinkSlot prev r).putSlot slot moved).linkSlot slot m
  let left := slots.editMatter r.place (Matter.leave slot prev r)
  (left.putMatter place (m.join slot)).testRemoval r.place

/-- REFILE (R25). -/
def ownerRefile (folio : Word) (matter : Long) : State → State × Reply :=
  onFolio folio fun r s =>
    if matter = 0 then refused .badArgument s
    else if r.state ≠ .filed then refused .state s
    else if s.heldRecord r then refused .held s
    else if matter = r.matter then refused .badArgument s
    else
      match s.findMatter matter with
      | some e =>
        let m := s.matterAt e.place
        if m.nextSequence = 0 then refused .full s
        else (s.moveRecord (slotOf folio) r matter e.place m, okWith [word m.nextSequence])
      | none =>
        match s.freePlace with
        | none => refused .full s
        | some place =>
          ((s.indexMatter matter place).moveRecord (slotOf folio) r matter place (.fresh matter),
            okWith [word 1])

/-- HOLD (R26). -/
def ownerHold (folio : Word) : State → State × Reply :=
  onFolio folio fun r s =>
    if r.holdCount = 7 then refused .limit s
    else (s.putSlot (slotOf folio) { r with holdCount := r.holdCount + 1 },
      okWith [packOne 3 (r.holdCount + 1)])

/-- RELEASE (R27). -/
def ownerRelease (folio : Word) : State → State × Reply :=
  onFolio folio fun r s =>
    if r.holdCount = 0 then refused .state s
    else (s.putSlot (slotOf folio) { r with holdCount := r.holdCount - 1 },
      okWith [pack [(3, r.holdCount - 1), (1, bit (0 < (s.matterAt r.place).holdCount))]])

/-- HOLD MATTER (R28). -/
def ownerHoldMatter (matter : Long) (s : State) : State × Reply :=
  if matter = 0 then refused .badArgument s
  else
    match s.findMatter matter with
    | some e =>
      let m := s.matterAt e.place
      if m.holdCount = 15 then refused .limit s
      else (s.putMatter e.place { m with holdCount := m.holdCount + 1 },
        okWith [packOne 4 (m.holdCount + 1)])
    | none =>
      match s.freePlace with
      | none => refused .full s
      | some place =>
        ((s.indexMatter matter place).putMatter place { Matter.fresh matter with holdCount := 1 },
          okWith [packOne 4 1])

/-- RELEASE MATTER (R29). -/
def ownerReleaseMatter (matter : Long) (s : State) : State × Reply :=
  if matter = 0 then refused .badArgument s
  else
    match s.findMatter matter with
    | none => refused .notFound s
    | some e =>
      let m := s.matterAt e.place
      if m.holdCount = 0 then refused .state s
      else
        let lowered := s.putMatter e.place { m with holdCount := m.holdCount - 1 }
        (lowered.testRemoval e.place,
          okWith [pack [(4, m.holdCount - 1), (1, bit (lowered.removable e.place))]])

/-- A continuation partner's field that names a retiring folio is made absent (R30). -/
def State.clearPartner (partner : Option Word) (names : Record → Bool) (clear : Record → Record)
    (s : State) : State :=
  match partner with
  | none => s
  | some f =>
    match s.resolve f with
    | .error _ => s
    | .ok q => if names q then s.putSlot (slotOf f) (clear q) else s

/-- The record of a slot that has gone FREE by RETIRE or PURGE SLOT: its generation advanced, every
other field at its FREE value (R2, R30, R32). -/
def Record.vacated (r : Record) : Record := { generation := r.generation + 1 }

/-- A record's plate chain (R140). -/
def Record.plates (r : Record) : PlateChain :=
  { head := r.plateHead, tail := r.plateTail, count := r.plateCount }

/-- The retirement of a record (R30), written in R37's order: the free queue's link entries, the slot,
the partners' slots, the directory entry. R37 does not place the slot before it in its chain; it is written
after the partners' slots (log 31). -/
def State.retireRecord (folio : Word) (r : Record) (s : State) : State :=
  let slot := slotOf folio
  let prev := s.chainBefore slot r.place
  let returned := if r.image = .resident then s.returnChains [r.plates] else s
  let freed := returned.putSlot slot r.vacated
  let unpaired := (freed.clearPartner r.predecessor (fun q => q.successor = some folio)
      fun q => { q with successor := none }).clearPartner r.successor
      (fun q => q.predecessor = some folio) fun q => { q with predecessor := none }
  let unlinked := unpaired.unlinkSlot prev r
  let left := unlinked.editMatter r.place (Matter.leave slot prev r)
  { left with folio.freeSlots := left.folio.freeSlots + 1 }.testRemoval r.place

/-- RETIRE (R30). -/
def ownerRetire (folio today : Word) : State → State × Reply :=
  onFolio folio fun r s =>
    if r.state ≠ .filed then refused .state s
    else if s.heldRecord r then refused .held s
    else if today.toNat < r.retention then refused .early s
    else if s.inUse (slotOf folio) then refused .inUse s
    else (s.retireRecord folio r,
      okWith (twoWords r.box ++ [packOne 11 (r.firstPosition.getD 0),
        packOne 11 (r.lastPosition.getD 0), packOne 8 r.shelved]))

/-- SHED IMAGE (R31). -/
def ownerShedImage (folio : Word) : State → State × Reply :=
  onFolio folio fun r s =>
    if r.state ≠ .filed then refused .state s
    else if s.heldRecord r then refused .held s
    else if s.inUse (slotOf folio) then refused .inUse s
    else if r.image = .shed then refused .noImage s
    else ((s.returnChains [r.plates]).putSlot (slotOf folio)
        { r with image := .shed, plateHead := none, plateTail := none, plateCount := 0 },
      okWith [packOne 15 r.plateCount])

/-- PURGE SLOT (R32). -/
def ownerPurgeSlot (slot : Word) (s : State) : State × Reply :=
  if Config.slotCount ≤ slot.toNat then refused .badArgument s
  else
    let r := s.slot slot.toNat
    if r.state ≠ .damaged then refused .state s
    else
      let purged := s.putSlot slot.toNat r.vacated
      ({ purged with folio.freeSlots := purged.folio.freeSlots + 1 },
        okWith [r.vacated.folio slot.toNat])

/-! ## The rows -/

def execLookup (tag : Tag) (folio : Word) (s : State) : StepResult :=
  request (largestReply 0x10) tag (ownerLookup folio) s
def execFind (tag : Tag) (matter : Long) (sequence : Word) (s : State) : StepResult :=
  request (largestReply 0x11) tag (ownerFind matter sequence) s
def execNextInMatter (tag : Tag) (folio : Word) (s : State) : StepResult :=
  request (largestReply 0x12) tag (ownerNextInMatter folio) s
def execReadExceptions (tag : Tag) (folio : Word) (s : State) : StepResult :=
  request (largestReply 0x13) tag (ownerReadExceptions folio) s
def execSetRetention (tag : Tag) (folio day : Word) (s : State) : StepResult :=
  request (largestReply 0x14) tag (ownerSetRetention folio day) s
def execRefile (tag : Tag) (folio : Word) (matter : Long) (s : State) : StepResult :=
  request (largestReply 0x15) tag (ownerRefile folio matter) s
def execHold (tag : Tag) (folio : Word) (s : State) : StepResult :=
  request (largestReply 0x16) tag (ownerHold folio) s
def execRelease (tag : Tag) (folio : Word) (s : State) : StepResult :=
  request (largestReply 0x17) tag (ownerRelease folio) s
def execHoldMatter (tag : Tag) (matter : Long) (s : State) : StepResult :=
  request (largestReply 0x18) tag (ownerHoldMatter matter) s
def execReleaseMatter (tag : Tag) (matter : Long) (s : State) : StepResult :=
  request (largestReply 0x19) tag (ownerReleaseMatter matter) s
def execRetire (tag : Tag) (folio today : Word) (s : State) : StepResult :=
  request (largestReply 0x1A) tag (ownerRetire folio today) s
def execShedImage (tag : Tag) (folio : Word) (s : State) : StepResult :=
  request (largestReply 0x1B) tag (ownerShedImage folio) s
def execPurgeSlot (tag : Tag) (slot : Word) (s : State) : StepResult :=
  request (largestReply 0x1C) tag (ownerPurgeSlot slot) s

end Sys2Proof.Machine
end

