-- ==== Sys2Proof/Machine/Assembly.lean ====
section
/-! DEFINITION. The Document Assembler's documents and trays (spec/03, sections 3.1, 3.3, 3.4): closing
a document, the counts of a tray, and the four Assembler requests. Decisions stand in Decide.lean. -/

namespace Sys2Proof.Machine

/-! ## Closing a document (R62) -/

/-- A close, if a document is open: the record goes to FILING or FILED, the Assembler unbinds it and
keeps it as the last closed. The continuation marker becomes `marker`, or stays as it was for `none`
(R62). -/
def State.closeDocument (marker : Option Bool) (s : State) : State :=
  match s.assembler.openDocument with
  | none => s
  | some d =>
    let closed := s.closeRecord (slotOf d.folio)
    { closed with
      assembler.openDocument := none
      assembler.lastClosed := some d.folio
      assembler.marker := marker.getD s.assembler.marker }

/-- The drain close: in DRAINING with no ticket still to be decided, the open document is closed and the
marker left (R65). -/
def State.drainClose (s : State) : State :=
  if s.batch.state = .draining ∧ ¬ s.tracker.train.any s.unruled then s.closeDocument none else s

/-! ## The counts of a tray (R70, R71) -/

/-- A page decided for the tray (R70). -/
def Tray.commit (t : Tray) : Tray := { t with committed := t.committed + 1 }

/-- A page resolved as NOT SHELVED (R70). -/
def Tray.uncommit (t : Tray) : Tray := { t with committed := t.committed - 1 }

/-- A page delivered into the box, at position fill + 1 (R71). -/
def Tray.deliver (t : Tray) : Tray := { t with fill := t.fill + 1, committed := t.committed - 1 }

/-- Serves a request that names a tray by its number, 1 to 4. -/
def onTray (tray : Word) (own : TrayIx → State → State × Reply) (s : State) : State × Reply :=
  match trayOf tray with
  | none => refused .badArgument s
  | some t => own t s

/-! ## Requests (R64, R67 to R69) -/

/-- MOUNT TRAY (R67). -/
def ownerMountTray (tray : Word) (box : Long) (soft hard fill : Word) : State → State × Reply :=
  onTray tray fun t s =>
    if hard.toNat < 1 ∨ 2000 < hard.toNat ∨ soft.toNat < 1 ∨ hard.toNat < soft.toNat ∨
        hard.toNat ≤ fill.toNat then
      refused .badArgument s
    else if s.assembler.trays[t].mounted then refused .state s
    else
      let m : Tray :=
        { mounted := true, box := box, hard := hard.toNat, soft := soft.toNat, fill := fill.toNat }
      (s.editTray t fun _ => m, okWith [packOne 1 (bit m.eligible)])

/-- DISMOUNT TRAY (R68). -/
def ownerDismountTray (tray : Word) : State → State × Reply :=
  onTray tray fun t s =>
    let m := s.assembler.trays[t]
    if !m.mounted then refused .state s
    else if s.bound t then refused .bound s
    else if 0 < m.committed then refused .busy s
    else (s.editTray t fun _ => {}, okWith (twoWords m.box ++ [packOne 11 m.fill]))

/-- READ TRAY (R69). -/
def ownerReadTray (tray : Word) : State → State × Reply :=
  onTray tray fun t s =>
    let m := s.assembler.trays[t]
    let a := s.assembler
    (s, okWith ([packOne 1 (bit m.mounted)] ++ twoWords m.box ++
      [packOne 11 m.soft, packOne 11 m.hard, packOne 11 m.fill, packOne 11 m.committed,
        pack [(1, bit (s.bound t)), (1, bit m.eligible), (3, trayField (some a.rotation)),
          (1, bit a.marker), (1, bit a.openDocument.isSome), (1, bit a.lastClosed.isSome)],
        folioWord (a.openDocument.map OpenDocument.folio), folioWord a.lastClosed]))

/-- What CLOSE DOCUMENT shows of the closed record, in two bits: FILING 0 or FILED 1, and one past them
where none was closed (R64, R193). -/
def closedField : Option RecordState → Nat
  | some .filed => 1
  | some _ => 0
  | none => 2

/-- CLOSE DOCUMENT (R64). The first result word gives whether a document was closed, its record's state,
and whether the marker is set. -/
def ownerCloseDocument (flag : Word) (s : State) : State × Reply :=
  match flagOf flag with
  | none => refused .badArgument s
  | some continued =>
    match s.assembler.openDocument with
    | none =>
      ({ s with assembler.marker := continued },
        okWith [pack [(1, 0), (2, closedField none), (1, bit continued)], 0])
    | some d =>
      let closed := s.closeDocument (some continued)
      (closed, okWith [pack [(1, 1), (2, closedField (some (closed.slot (slotOf d.folio)).state)),
        (1, bit continued)], d.folio])

/-! ## The rows -/

def execMountTray (tag : Tag) (tray : Word) (box : Long) (soft hard fill : Word) (s : State) :
    StepResult :=
  request (largestReply 0x20) tag (ownerMountTray tray box soft hard fill) s
def execDismountTray (tag : Tag) (tray : Word) (s : State) : StepResult :=
  request (largestReply 0x21) tag (ownerDismountTray tray) s
def execReadTray (tag : Tag) (tray : Word) (s : State) : StepResult :=
  request (largestReply 0x22) tag (ownerReadTray tray) s
def execCloseDocument (tag : Tag) (flag : Word) (s : State) : StepResult :=
  request (largestReply 0x23) tag (ownerCloseDocument flag) s

end Sys2Proof.Machine
end

