-- ==== Sys2Proof/Machine/Deskew.lean ====
section
/-! DEFINITION. Skew Gauge and Deskew Engine (spec/06_skew_gauge_and_deskew.md): the two shears, the
blank count, the sides of the engine from start to end, and the two skew requests. -/

namespace Sys2Proof.Machine

/-! ## The two shears (R127 to R129) -/

/-- n / 3,200 rounded to the nearest whole number, halves away from zero (R127). -/
def roundShear (n : Int) : Int :=
  if 0 ≤ n then (n + 1600) / 3200 else -((-n + 1600) / 3200)

/-- The raw delay d(x) of a column (R127). -/
def rawDelay (delta : Int) (column : Nat) : Int := roundShear (column * delta)

/-- The delay e(x) of a column, cut to 383 (R127). -/
def delay (delta : Int) (column : Nat) : Nat :=
  min 383 (rawDelay delta column - min 0 (rawDelay delta 4095)).toNat

/-- The span S of a side (R127). -/
def span (delta : Int) : Nat := min 383 (rawDelay delta 4095).natAbs

/-- The shift s(y) of an output line (R128). -/
def shift (delta : Int) (line : Nat) : Int := roundShear (-(line * delta))

/-- A pixel of the column-sheared line, from the line buffer, newest line first; white before the
side's first input line (R127). -/
def columnSheared (delta : Int) (buffer : List ScanLine) (column : Nat) : Bool :=
  match buffer[delay delta column]? with
  | some l => l.pixel column
  | none => false

/-- A pixel of the final output line: the column-sheared pixel of column x - s(y), white where that
lies outside the line (R128). -/
def sheared (delta : Int) (line : Nat) (buffer : List ScanLine) (column : Nat) : Bool :=
  let source := (column : Int) - shift delta line
  if 0 ≤ source ∧ source ≤ 4095 then columnSheared delta buffer source.toNat else false

/-- A line made of its pixels, column 0 first. -/
def lineOfPixels (pixel : Nat → Bool) : ScanLine :=
  BitVec.ofNat 4096 ((List.range 4096).foldl (fun acc x => 2 * acc + bit (pixel x)) 0)

/-- Output line y of a side, from its line buffer (R127, R128). With a difference of 0 it is the input
line unchanged (R129). -/
def outputLine (delta : Int) (line : Nat) (buffer : List ScanLine) : ScanLine :=
  if delta = 0 then buffer.headD .white else lineOfPixels (sheared delta line buffer)

/-- The black pixels of a line inside columns 64 to 4031 (R134). -/
def blackInside (l : ScanLine) : Nat :=
  (List.range 3968).countP fun i => l.pixel (Config.borderLines + i)

/-- The difference a side is corrected by: Δ for the front, -Δ for the back, 0 for a ticket that
carries SKEW OVER (R129). -/
def Ticket.usedDelta (t : Ticket) (d : Side) : Int :=
  if t.flags.skewOver then 0
  else match d with
    | .front => t.delta.getD 0
    | .back => -(t.delta.getD 0)

/-! ## Lines and bands of one side (R130 to R134) -/

/-- A side with nothing in hand: its waiting starts, its band queue, its black counter and its last
count stand (R130). -/
def DeskewSide.idle (d : DeskewSide) : DeskewSide :=
  { waiting := d.waiting, queue := d.queue, black := d.black, lastCount := d.lastCount }

/-- Bands in the band queue of a side (R132). -/
def DeskewSide.bands (d : DeskewSide) : Nat :=
  d.queue.countP fun q => match q with
    | .band _ => true
    | .ended _ _ => false

/-- The count of a formed line joins the recent counts; the one that leaves them is added to the black
counter unless its line is among the first 64 (R134). -/
def DeskewSide.countLine (line : ScanLine) (d : DeskewSide) : DeskewSide :=
  let recent := blackInside line :: d.recent
  match recent[Config.borderLines]? with
  | none => { d with recent := recent }
  | some c =>
    { d with
      recent := recent.take Config.borderLines
      black := if 2 * Config.borderLines ≤ d.outputs then min Config.counterTop (d.black + c)
        else d.black }

/-- Takes one input line into the line buffer and forms one output line (R127, R130). -/
def DeskewSide.formLine (input : ScanLine) (d : DeskewSide) : DeskewSide :=
  let buffer := (input :: d.buffer).take Config.bufferLines
  let line := outputLine d.delta d.outputs buffer
  let counted := d.countLine line
  { counted with buffer := buffer, band := d.band ++ [line], outputs := d.outputs + 1 }

/-- The band under construction joins the band queue (R132). -/
def DeskewSide.queueBand (last : Bool) (d : DeskewSide) : DeskewSide :=
  let b : Band :=
    { ordinal := d.ordinal, number := d.outputs / Config.bandLines - 1, last := last, lines := d.band }
  { d with queue := d.queue ++ [.band b], band := [] }

/-- Takes the waiting starts after a side has ended: those whose end of sides has come end at once as
lost sides; the first other goes to DISCARDING with its ticket's difference and span; with none left the
side is IDLE (R130). Each side taken sets the black counter to 0 (R134). -/
def DeskewSide.takeWaiting : List WaitingStart → DeskewSide → DeskewSide
  | [], d => { d.idle with waiting := [] }
  | w :: rest, d =>
    if w.ended then
      takeWaiting rest { d with queue := d.queue ++ [.ended w.ordinal true], black := 0 }
    else
      { d.idle with
        state := .discarding, ordinal := w.ordinal, delta := w.delta, span := Machine.span w.delta,
        waiting := rest, black := 0 }

/-- A side gives up what it has in hand and takes its waiting starts (R130). -/
def DeskewSide.next (d : DeskewSide) : DeskewSide := d.takeWaiting d.waiting

/-- Whether a queue item is a band of a ticket. -/
def QueueItem.bandOf (ordinal : Word) : QueueItem → Bool
  | .band b => b.ordinal = ordinal
  | .ended _ _ => false

/-- A band queue without the bands of a ticket that have not been granted a transfer; a granted band is
the queue's head (R133). -/
def withoutBands (ordinal : Word) (granted : Bool) (queue : List QueueItem) : List QueueItem :=
  match granted, queue with
  | true, q :: rest => q :: rest.filter fun i => !i.bandOf ordinal
  | _, queue => queue.filter fun i => !i.bandOf ordinal

/-- The band under construction and the line buffer are emptied and the head lines dropped from here on
(R133). -/
def DeskewSide.discard (d : DeskewSide) : DeskewSide :=
  { d with state := .discarding, band := [], buffer := [] }

/-! ## A side in the state (R130 to R134) -/

/-- Starts a side of a ticket (R130). A side that is not IDLE has the new side lost from its first
line: it waits to be discarded. -/
def State.startSide (d : Side) (ordinal : Word) (s : State) : State :=
  match s.ticket ordinal with
  | none => s
  | some t =>
    if (s.side d).state = .idle then
      s.editSide d fun e =>
        { e.idle with
          state := .taking, ordinal := ordinal, delta := t.usedDelta d, span := span (t.usedDelta d),
          black := 0 }
    else
      (s.editTicket ordinal Ticket.lose).editSide d fun e =>
        { e with waiting := e.waiting ++ [{ ordinal := ordinal, delta := t.usedDelta d }] }

/-- A side is lost by an overrun of its band queue (R133). A request for a removed band is withdrawn. -/
def State.overrunSide (d : Side) (s : State) : State :=
  let e := s.side d
  let granted := (s.capture d).state = .transferring
  let asked := (s.capture d).state = .requesting &&
    (match e.queue with
     | q :: _ => q.bandOf e.ordinal
     | [] => false)
  let lost := (s.editTicket e.ordinal Ticket.lose).editSide d fun e =>
    { e.discard with queue := withoutBands e.ordinal granted e.queue }
  if asked then lost.editCapture d fun c => { c with state := .waiting } else lost

/-- The capture channel reports that it can store no more of a ticket's side (R133, R145): a side still
TAKING is discarded, one FLUSHING ends at once, one DISCARDING is lost already, and one already ended
has its lost end handed over at once. -/
def State.reportLoss (d : Side) (ordinal : Word) (s : State) : State :=
  (s.editTicket ordinal Ticket.lose).editSide d fun e =>
    let left := { e with queue := withoutBands ordinal false e.queue }
    if e.ordinal = ordinal ∧ e.state = .taking then left.discard
    else if e.ordinal = ordinal ∧ e.state = .flushing then
      DeskewSide.next { left with queue := left.queue ++ [.ended ordinal true] }
    else if e.ordinal = ordinal ∧ e.state = .discarding then left
    else { left with queue := .ended ordinal true :: left.queue }

/-- A TAKING side takes an input line and forms an output line (R130, R132): a band made ready joins the
queue or, with four bands queued, loses the side. -/
def State.formTaken (d : Side) (input : ScanLine) (s : State) : State :=
  let formed := s.editSide d fun e => { e.formLine input with inputs := e.inputs + 1 }
  if (formed.side d).band.length < Config.bandLines then formed
  else if (s.side d).bands < Config.queueBands then formed.editSide d (DeskewSide.queueBand false)
  else formed.overrunSide d

/-- An input line reaches a side at a travel pulse (R130): a TAKING side forms an output line from it, a
DISCARDING side takes and drops it, and a side IDLE or FLUSHING takes none. -/
def State.takeLine (d : Side) (input : ScanLine) (s : State) : State :=
  match (s.side d).state with
  | .taking => s.formTaken d input
  | .discarding => s.editSide d fun e => { e with inputs := e.inputs + 1 }
  | .idle | .flushing => s

/-- Sets BLANK FRONT or BLANK BACK on a ticket (R134). -/
def Ticket.blank (d : Side) (t : Ticket) : Ticket :=
  match d with
  | .front => { t with flags.blankFront := true }
  | .back => { t with flags.blankBack := true }

/-- The blank test of an ending side (R134). -/
def State.blankTest (d : Side) (s : State) : State :=
  let e := s.side d
  let kept := s.editSide d fun e => { e with lastCount := e.black }
  if e.black ≤ s.engine.blankThreshold then kept.editTicket e.ordinal (Ticket.blank d) else kept

/-- Marks the last band of a side that has no line left to form: the band itself where it is still
queued, else the end of the side is handed over (log 12). -/
def markLast (ordinal : Word) (queue : List QueueItem) : List QueueItem :=
  match queue.reverse with
  | .band b :: earlier =>
    if b.ordinal = ordinal then (QueueItem.band { b with last := true } :: earlier).reverse
    else queue ++ [.ended ordinal false]
  | _ => queue ++ [.ended ordinal false]

/-- The output length of a side (R131). -/
def DeskewSide.fullLength (e : DeskewSide) : Nat := (e.inputs + e.span + 15) / 16 * 16

/-- The end of a ticket's sides reaches one side (R131). -/
def State.endSide (d : Side) (ordinal : Word) (s : State) : State :=
  let e := s.side d
  if e.ordinal = ordinal ∧ e.state = .taking then
    if e.outputs < e.fullLength then
      s.editSide d fun e => { e with state := .flushing, outputLength := e.fullLength }
    else
      (s.blankTest d).editSide d fun e =>
        DeskewSide.next { e with outputLength := e.fullLength, queue := markLast ordinal e.queue }
  else if e.ordinal = ordinal ∧ e.state = .discarding then
    s.editSide d fun e =>
      DeskewSide.next { e with queue := e.queue ++ [QueueItem.ended ordinal true] }
  else
    s.editSide d fun e =>
      { e with waiting := e.waiting.map fun w =>
          if w.ordinal = ordinal then { w with ended := true } else w }

/-- Whether a flushing side can form its next line: it does not form one that would complete a band
while its queue holds four (R131). -/
def DeskewSide.canFlush (e : DeskewSide) : Bool :=
  e.state = .flushing && !(e.band.length + 1 = Config.bandLines && Config.queueBands ≤ e.bands)

/-- One white input line is fed to a flushing side; at the output length the side ends with its blank
test and its last band (R131, R132). -/
def State.flushOne (d : Side) (s : State) : State :=
  if !(s.side d).canFlush then s
  else
    let formed := s.editSide d (DeskewSide.formLine .white)
    let e := formed.side d
    if e.outputs = e.outputLength then
      (formed.blankTest d).editSide d fun e => (e.queueBand true).next
    else if e.band.length = Config.bandLines then formed.editSide d (DeskewSide.queueBand false)
    else formed

/-- CLEAR TRAIN clears the gauge and the engine: the limits and the last counts stand (R137). -/
def Engine.clear (e : Engine) : Engine :=
  { skewLimit := e.skewLimit
    blankThreshold := e.blankThreshold
    front := { lastCount := e.front.lastCount }
    back := { lastCount := e.back.lastCount } }

/-! ## The Skew Gauge (R125, R126) -/

/-- A ticket's first edge opens a measurement (R125). -/
def State.openMeasurement (ordinal : Word) (sensor : Sensor) (s : State) : State :=
  { s with engine.measurements := s.engine.measurements ++
      [{ ordinal := ordinal, sensor := sensor, travel := s.tracker.travel }] }

/-- Travel from one count to another as a signed number (R126; the window keeps it within 350). -/
def travelBetween (from' to' : Long) : Int := (to' - from').toInt

/-- Δ from a first edge and the travel count of the second: the B edge less the A edge (R126). -/
def Measurement.delta (m : Measurement) (second : Long) : Int :=
  match m.sensor with
  | .a => travelBetween m.travel second
  | .b => travelBetween second m.travel

/-- A ticket's second edge closes its measurement: Δ goes to the ticket, SKEW OVER is set above the
limit, and the ticket is GAUGED (R109, R126). -/
def State.closeMeasurement (ordinal : Word) (s : State) : State :=
  match s.engine.measurements.find? fun m => m.ordinal = ordinal with
  | none => s
  | some m =>
    let delta := m.delta s.tracker.travel
    let gauged := s.editTicket ordinal fun t =>
      { t with
        delta := some delta
        stage := .gauged
        flags.skewOver := t.flags.skewOver || decide (s.engine.skewLimit < delta.natAbs) }
    { gauged with
      engine.measurements := s.engine.measurements.filter fun m => m.ordinal ≠ ordinal }

/-! ## Requests (R135, R136) -/

/-- SET SKEW (R135). -/
def ownerSetSkew (limit threshold : Word) (s : State) : State × Reply :=
  if s.batch.state ≠ .idle then refused .state s
  else if 350 < limit.toNat then refused .badArgument s
  else ({ s with engine.skewLimit := limit.toNat, engine.blankThreshold := threshold.toNat },
    okWith [packOne 9 s.engine.skewLimit, word s.engine.blankThreshold])

/-- R130's order. -/
def SideState.code : SideState → Nat
  | .idle => 0
  | .taking => 1
  | .flushing => 2
  | .discarding => 3

/-- The five words READ SKEW gives for a side (R136). The output lines formed have the whole word, since
no range is stated for them (log 10). -/
def DeskewSide.report (d : DeskewSide) : List Word :=
  [pack [(2, d.state.code), (1, bit !d.waiting.isEmpty)],
    if d.state = .idle then 0 else d.ordinal,
    word (if d.state = .idle then 0 else d.outputs),
    packOne 3 d.bands,
    word d.lastCount]

/-- READ SKEW (R136). -/
def ownerReadSkew (s : State) : State × Reply :=
  (s, okWith ([packOne 9 s.engine.skewLimit, word s.engine.blankThreshold] ++
    s.engine.front.report ++ s.engine.back.report))

/-! ## The rows -/

def execSetSkew (tag : Tag) (limit threshold : Word) (s : State) : StepResult :=
  request (largestReply 0x45) tag (ownerSetSkew limit threshold) s
def execReadSkew (tag : Tag) (s : State) : StepResult :=
  request (largestReply 0x46) tag ownerReadSkew s

end Sys2Proof.Machine
end

