-- ==== Sys2Proof/Machine/Channels.lean ====
section
/-! DEFINITION. The arbiter and the capture channels (spec/07, sections 7.2, 7.3, 7.6), and the requests
that set and read the channels. Audit and export stand in Audit.lean. -/

namespace Sys2Proof.Machine

/-! ## The arbiter (R147, R149) -/

/-- Whether a channel has a request pending (R147). -/
def State.asks (s : State) : Channel → Bool
  | .captureFront => s.images.front.state = .requesting
  | .captureBack => s.images.back.state = .requesting
  | .audit => s.images.audit.state = .requesting
  | .exporter => s.images.exporter.state = .requesting

/-- Whether a channel is masked; the capture channels never are (R149). -/
def State.maskedChannel (s : State) : Channel → Bool
  | .captureFront | .captureBack => false
  | .audit => s.images.audit.masked
  | .exporter => s.images.exporter.masked

/-- Whether a channel's request is eligible (R147). -/
def State.eligibleChannel (s : State) (c : Channel) : Bool := s.asks c && !s.maskedChannel c

/-- The lines of the band at the head of a side's queue. -/
def DeskewSide.headLines (d : DeskewSide) : List ScanLine :=
  match d.queue with
  | .band b :: _ => b.lines
  | _ => []

/-- The band a channel has granted: a capture channel writes at 7 less the residue (R143); the others
read at bands used less 1 less the residue (R150). -/
def State.transferOf (s : State) (c : Channel) : Transfer :=
  let capture (d : Side) : Transfer :=
    match (s.capture d).side with
    | some h => { channel := c, plate := h.current.getD 0, place := 7 - h.residue.getD 7,
                  lines := (s.side d).headLines }
    | none => { channel := c, plate := 0, place := 0 }
  match c with
  | .captureFront => capture .front
  | .captureBack => capture .back
  | .audit =>
    match s.images.audit.run with
    | some r => { channel := c, plate := r.current.getD 0, place := r.bandsUsed - 1 - r.residue.getD 0 }
    | none => { channel := c, plate := 0, place := 0 }
  | .exporter =>
    match s.images.exporter.run with
    | some r => { channel := c, plate := r.current.getD 0, place := r.bandsUsed - 1 - r.residue.getD 0 }
    | none => { channel := c, plate := 0, place := 0 }

/-- A channel whose request is granted is TRANSFERRING. -/
def State.transferring (c : Channel) (s : State) : State :=
  match c with
  | .captureFront => s.editCapture .front fun h => { h with state := .transferring }
  | .captureBack => s.editCapture .back fun h => { h with state := .transferring }
  | .audit => { s with images.audit.state := .transferring }
  | .exporter => { s with images.exporter.state := .transferring }

/-- The priority order after a grant: in ROTATING mode the granted channel goes to the lowest place
(R147). -/
def orderAfter (mode : ArbiterMode) (c : Channel) (order : List Channel) : List Channel :=
  match mode with
  | .fixed => order
  | .rotating => order.filter (· ≠ c) ++ [c]

/-- The arbiter grants a channel the port (R147). -/
def State.grant (c : Channel) (s : State) : State :=
  { s.transferring c with
    images.transfer := some (s.transferOf c)
    images.order := orderAfter s.images.mode c s.images.order }

/-- While the port is free, the highest eligible request is granted (R147). -/
def State.arbitrate (s : State) : State :=
  match s.images.transfer with
  | some _ => s
  | none =>
    match s.images.order.find? s.eligibleChannel with
    | some c => s.grant c
    | none => s

/-! ## Closing plates and ending sides (R143 to R145) -/

/-- The band places used in the current plate (R143). -/
def CaptureSide.used (h : CaptureSide) : Nat :=
  match h.residue with
  | none => 8
  | some r => 7 - r

/-- Closes the current plate of a capture channel, if one is current and not yet closed: one write of
its link entry (R143). -/
def State.closePlate (d : Side) (next : Option Nat) (s : State) : State :=
  match (s.capture d).side with
  | none => s
  | some h =>
    match h.current with
    | none => s
    | some p =>
      if h.closed then s
      else
        (s.putLink p { next := next, check := h.crc, bandsUsed := h.used, sideStart := h.first,
                       side := d }).editCapture d fun c =>
          { c with side := some { h with closed := true } }

/-- Records a side of a ticket as captured. -/
def Ticket.captured (d : Side) (t : Ticket) : Ticket :=
  match d with
  | .front => { t with frontDone := true }
  | .back => { t with backDone := true }

/-- The capture completion of a side (R112): the side is recorded, and with the last side the batch needs
the ticket goes to CAPTURED. A completion while the tracker does not act is discarded. -/
def State.completeCapture (d : Side) (ordinal : Word) (s : State) : State :=
  if !s.acts then s
  else
    s.editTicket ordinal fun t =>
      let u := t.captured d
      if u.stage = .scanning ∧ s.captureComplete u then { u with stage := .captured } else u

/-- A side ends, normally or lost: the current plate is closed, the end flag set with its cause, the side
given up, and the capture completion made (R144, R145). A side lost with no pending cause is BAND OVERRUN,
one that its start found busy (R130) among them (log 30). -/
def State.endCapture (d : Side) (ordinal : Word) (lost : Bool) (s : State) : State :=
  let cause := if lost then (s.capture d).pendingEnd.getD .bandOverrun else .normal
  ((s.closePlate d none).editCapture d fun c =>
    { c with state := .idle, side := none, pendingEnd := none, endFlag := true, endCause := cause
      }).completeCapture d ordinal

/-- The channel can place no more of its side: the plate is closed, the cause kept, the loss reported,
and the channel waits for the side's end (R145). -/
def State.loseCapture (d : Side) (ordinal : Word) (cause : CaptureEnd) (s : State) : State :=
  ((s.closePlate d none).editCapture d fun c =>
    { c with state := .waiting, pendingEnd := some cause }).reportLoss d ordinal

/-! ## Taking bands (R142) -/

/-- A plate joins the tail of a chain (R142). -/
def PlateChain.append (p : Nat) (c : PlateChain) : PlateChain :=
  { head := match c.head with
      | some h => some h
      | none => some p
    tail := some p
    count := c.count + 1 }

/-- A fresh plate becomes a side's current plate (R142). -/
def CaptureSide.withPlate (p : Nat) (h : CaptureSide) : CaptureSide :=
  { h with
    plates := h.plates + 1
    current := some p
    residue := some 7
    crc := crc16Start
    first := h.plates = 0
    closed := false }

/-- A capture channel requests the port, and is granted it at once while the port is free (R142,
R147). -/
def State.requestCapture (d : Side) (s : State) : State :=
  (s.editCapture d fun c => { c with state := .requesting }).arbitrate

/-- The channel takes a plate for the band at its queue's head, or loses the side (R142, R145). -/
def State.takeSidePlate (d : Side) (h : CaptureSide) (s : State) : State :=
  if Config.sidePlates ≤ h.plates then s.loseCapture d h.ordinal .sideLimit
  else
    match s.takePlate with
    | none => s.loseCapture d h.ordinal .noPlate
    | some (p, taken) =>
      (((taken.closePlate d (some p)).editTicket h.ordinal
        (Ticket.editChain d (PlateChain.append p))).editCapture d fun c =>
          { c with side := some (h.withPlate p) }).requestCapture d

/-- What a capture channel in IDLE or WAITING does with the head of its band queue, until it requests,
waits or is idle; `fuel` bounds the ends of sides it takes on the way (R142, R144, R145). -/
def State.actOnQueue (d : Side) : Nat → State → State
  | 0, s => s
  | fuel + 1, s =>
    let c := s.capture d
    if c.state ≠ .idle ∧ c.state ≠ .waiting then s
    else
      match (s.side d).queue with
      | [] => s.editCapture d fun c => { c with state := if c.side.isSome then .waiting else .idle }
      | .ended ordinal lost :: rest =>
        ((s.editSide d fun e => { e with queue := rest }).endCapture d ordinal lost).actOnQueue d fuel
      | .band b :: _ =>
        if c.pendingEnd.isSome then s
        else
        let h : CaptureSide :=
          match c.side with
          | some h => if b.number = 0 then { ordinal := b.ordinal } else h
          | none => { ordinal := b.ordinal }
        let begun := s.editCapture d fun c => { c with side := some h }
        match h.residue with
        | some _ => begun.requestCapture d
        | none => (begun.takeSidePlate d h).actOnQueue d fuel

/-- A capture channel acts on its band queue (R142). -/
def State.serveQueue (d : Side) (s : State) : State :=
  s.actOnQueue d (2 * (s.side d).queue.length + (s.side d).waiting.length + 2)

/-- The engine does its work on a side, and the channel acts on what that hands it: a band made ready, the
end of a side, or the bands an overrun takes away (R132, R133, R142). A change that leaves the queue as it
was hands nothing over. -/
def State.handOver (d : Side) (work : State → State) (s : State) : State :=
  let worked := work s
  if (worked.side d).queue = (s.side d).queue then worked else worked.serveQueue d

/-! ## A band written (R143) -/

/-- The 512 bytes of a line, column 0 first (R159). -/
def lineBytes (l : ScanLine) : List Byte :=
  (List.range 512).map fun i => l.extractLsb' (4096 - 8 * (i + 1)) 8

/-- The bytes of a band, line by line. -/
def bandBytes (lines : List ScanLine) : List Byte := (lines.map lineBytes).flatten

/-- The address of a band of a plate (07, section 7). -/
def bandAddress (plate place : Nat) : Nat := plate * Config.plateBytes + place * Config.bandBytes

/-- The bytes of a band as image memory holds them. -/
def State.bandAt (s : State) (plate place : Nat) : List Byte :=
  Table.getBlock 0 s.images.memory (bandAddress plate place) Config.bandBytes

/-- The byte of image memory at an address. -/
def State.imageByte (s : State) (address : Nat) : Byte := Table.get 0 s.images.memory address

/-- A granted band is written into image memory. -/
def State.writeBand (t : Transfer) (s : State) : State :=
  { s with
    images.memory :=
      Table.setBlock 0 s.images.memory (bandAddress t.plate t.place) (bandBytes t.lines) }

/-- A capture side after one more band of its current plate: the running CRC and the residue (R143). -/
def CaptureSide.afterBand (lines : List ScanLine) (h : CaptureSide) : CaptureSide :=
  { h with
    crc := crc16Extend h.crc (bandBytes lines)
    residue := match h.residue with
      | some (n + 1) => some n
      | _ => none }

/-- The work of a capture channel on the completion of its transfer (R143), and what it does next: a
stopped tracker leaves it FROZEN (R146). -/
def State.bandWritten (d : Side) (t : Transfer) (s : State) : State :=
  let last := match (s.side d).queue with
    | .band b :: _ => b.last
    | _ => false
  let counted := (s.editCapture d fun c =>
      { c with state := .waiting, side := c.side.map (CaptureSide.afterBand t.lines) }).editSide d
    fun e => { e with queue := e.queue.tail }
  let settled :=
    match last, (s.capture d).side with
    | true, some h => counted.endCapture d h.ordinal false
    | _, _ => counted
  if s.tracker.stopped then settled.editCapture d fun c => { c with state := .frozen }
  else settled.serveQueue d

/-! ## A stopped tracker and CLEAR TRAIN (R146) -/

/-- A capture channel when the tracker stops. -/
def CaptureChannel.freeze (c : CaptureChannel) : CaptureChannel :=
  if c.state = .transferring then c else { c with state := .frozen }

/-- A capture channel at CLEAR TRAIN. -/
def CaptureChannel.clear (c : CaptureChannel) : CaptureChannel :=
  match c.side with
  | some _ => { c with state := .idle, side := none, pendingEnd := none, endFlag := true,
                       endCause := .cleared }
  | none => { c with state := .idle, pendingEnd := none }

/-- The tracker stops: both capture channels (R146). -/
def State.freezeCaptures (s : State) : State :=
  { s with images.front := s.images.front.freeze, images.back := s.images.back.freeze }

/-- Whether a channel is a capture channel. -/
def Channel.isCapture : Channel → Bool
  | .captureFront | .captureBack => true
  | .audit | .exporter => false

/-- CLEAR TRAIN: both capture channels; a granted write in flight is no longer theirs. -/
def State.clearCaptures (s : State) : State :=
  { s with
    images.front := s.images.front.clear
    images.back := s.images.back.clear
    images.transfer := s.images.transfer.map fun t =>
      if t.channel.isCapture then { t with orphan := true } else t }

/-! ## Requests (R148, R149, R152) -/

/-- The number of a channel (07, section 7). -/
def Channel.number : Channel → Nat
  | .captureFront => 0
  | .captureBack => 1
  | .audit => 2
  | .exporter => 3

/-- The mode's number (R148). -/
def ArbiterMode.number : ArbiterMode → Nat
  | .fixed => 0
  | .rotating => 1

/-- The order both resets and SET ARBITER begin with (R147, R148). -/
def startingOrder : List Channel := [.captureFront, .captureBack, .audit, .exporter]

/-- SET ARBITER (R148). -/
def ownerSetArbiter (mode : Word) (s : State) : State × Reply :=
  if s.batch.state ≠ .idle then refused .state s
  else
    match flagOf mode with
    | none => refused .badArgument s
    | some rotating =>
      ({ s with
          images.mode := if rotating then .rotating else .fixed
          images.order := startingOrder },
        okWith [packOne 1 s.images.mode.number])

/-- MASK CHANNEL (R149). -/
def ownerMaskChannel (channel mask : Word) (s : State) : State × Reply :=
  match flagOf mask with
  | none => refused .badArgument s
  | some m =>
    if channel = 2 then
      (State.arbitrate { s with images.audit.masked := m },
        okWith [packOne 1 (bit s.images.audit.masked)])
    else if channel = 3 then
      (State.arbitrate { s with images.exporter.masked := m },
        okWith [packOne 1 (bit s.images.exporter.masked)])
    else refused .badArgument s

/-- R141's order. -/
def CaptureState.code : CaptureState → Nat
  | .idle => 0
  | .waiting => 1
  | .requesting => 2
  | .transferring => 3
  | .frozen => 4

/-- R150's order. -/
def RunState.code : RunState → Nat
  | .idle => 0
  | .waiting => 1
  | .requesting => 2
  | .transferring => 3

/-- R152's order. -/
def CaptureEnd.code : CaptureEnd → Nat
  | .normal => 0
  | .noPlate => 1
  | .sideLimit => 2
  | .bandOverrun => 3
  | .cleared => 4

/-- R152's order. -/
def RunEnd.code : RunEnd → Nat
  | .complete => 0
  | .cancelled => 1

/-- The residue field: 0 to 7, or spent as one past the range (R193). -/
def residueField : Option Nat → Nat
  | some r => r
  | none => 8

/-- The first of a channel's three words (R152; log 10). -/
def channelWord (state : Nat) (asks masked : Bool) (current residue : Option Nat) (flag : Bool)
    (cause : Nat) : Word :=
  pack [(3, state), (1, bit asks), (1, bit masked), (1, bit current.isSome),
    (4, residueField residue), (1, bit flag), (3, cause)]

/-- The three words of a capture channel (R152); a current plate that is absent shows as 0 in its own word
(log 10). -/
def CaptureChannel.report (c : CaptureChannel) : List Word :=
  let current := c.side.bind CaptureSide.current
  let residue := c.side.bind CaptureSide.residue
  [channelWord c.state.code (c.state = .requesting) false current residue c.endFlag c.endCause.code,
    word (current.getD 0),
    (c.side.map CaptureSide.ordinal).getD 0]

/-- The three words of the audit channel (R152). -/
def AuditChannel.report (c : AuditChannel) : List Word :=
  let current := c.run.bind AuditRun.current
  let residue := c.run.bind AuditRun.residue
  [channelWord c.state.code (c.state = .requesting) c.masked current residue c.endFlag
      c.endCause.code,
    word (current.getD 0),
    (c.run.map AuditRun.folio).getD 0]

/-- The three words of the export channel (R152). -/
def ExportChannel.report (c : ExportChannel) : List Word :=
  let current := c.run.bind ExportRun.current
  let residue := c.run.bind ExportRun.residue
  [channelWord c.state.code (c.state = .requesting) c.masked current residue c.endFlag
      c.endCause.code,
    word (current.getD 0),
    (c.run.map ExportRun.folio).getD 0]

/-- The channel granted, in three bits: one past channel 3 while the port is free (R152, R193). -/
def Images.grantedField (i : Images) : Nat :=
  match i.transfer with
  | some t => t.channel.number
  | none => 4

/-- The arbiter's word (R152). -/
def Images.arbiterWord (i : Images) : Word :=
  pack ([(1, i.mode.number)] ++ i.order.map (fun c => (2, c.number)) ++
    [(1, bit i.transfer.isSome), (3, i.grantedField)])

/-- The 15 result words of READ CHANNELS (R152). -/
def Images.report (i : Images) : List Word :=
  [i.arbiterWord] ++ twoWords (BitVec.ofNat 32 i.free.length) ++ i.front.report ++ i.back.report ++
    i.audit.report ++ i.exporter.report

/-- READ CHANNELS: the reply, and then the four end-of-run flags cleared (R152). -/
def ownerReadChannels (s : State) : State × Reply :=
  ({ s with
      images.front.endFlag := false
      images.back.endFlag := false
      images.audit.endFlag := false
      images.exporter.endFlag := false },
    okWith s.images.report)

/-! ## The rows -/

def execSetArbiter (tag : Tag) (mode : Word) (s : State) : StepResult :=
  request (largestReply 0x50) tag (ownerSetArbiter mode) s
def execMaskChannel (tag : Tag) (channel mask : Word) (s : State) : StepResult :=
  request (largestReply 0x51) tag (ownerMaskChannel channel mask) s
def execReadChannels (tag : Tag) (s : State) : StepResult :=
  request (largestReply 0x52) tag ownerReadChannels s

/-- FLUSH_LINE (R131): a side of the engine stands frozen while the tracker is stopped (R137). -/
def execFlushLine (d : Side) (s : State) : StepResult :=
  complete (fun s => if s.tracker.stopped then s else s.handOver d (State.flushOne d)) s

end Sys2Proof.Machine
end

