-- ==== Sys2Proof/Machine/Audit.lean ====
section
/-! DEFINITION. Audit and export (spec/08_audit_and_export.md): the two runs, their four requests, the
host's reads of EXPORT DATA, and the completion of a granted band transfer on any channel. -/

namespace Sys2Proof.Machine

/-! ## The audit run (R154 to R156) -/

/-- The run ends by its result: the mark is freed, the channel is IDLE, and VERIFY DONE is posted or
kept (R150, R156). Its current plate and residue are dropped with it (log 33). -/
def State.endAudit (r : AuditRun) (result : AuditResult) (failing : Nat) (s : State) : State :=
  State.postAudit (.verifyDone result r.folio failing r.checked)
    { s with
      folio.auditMark := none
      images.audit.state := .idle
      images.audit.run := none
      images.audit.endFlag := true
      images.audit.endCause := .complete }

/-- The plate an audit or an export takes next: the plate head first, then the next-plate field of its
current plate (R155). -/
def State.nextPlate (s : State) (head current : Option Nat) : Option Nat :=
  match current with
  | none => head
  | some p => (s.link p).next

/-- The residue of a plate with so many used bands, all still to read; spent where there is none (R155;
log 21). -/
def unreadResidue (bandsUsed : Nat) : Option Nat := if bandsUsed = 0 then none else some (bandsUsed - 1)

/-- An audit run that takes a plate: it keeps the plate's check and bands used (R155). -/
def AuditRun.take (p : Nat) (l : Link) (r : AuditRun) : AuditRun :=
  { r with
    taken := r.taken + 1
    current := some p
    bandsUsed := l.bandsUsed
    storedCheck := l.check
    residue := unreadResidue l.bandsUsed
    crc := crc16Start }

/-- An audit run whose current plate has passed (R155). -/
def AuditRun.pass (r : AuditRun) : AuditRun :=
  { r with checked := r.checked + 1, runningDigest := extendDigest r.runningDigest r.storedCheck }

/-- The audit channel keeps a run and a state. -/
def State.setAudit (state : RunState) (r : AuditRun) (s : State) : State :=
  { s with images.audit.state := state, images.audit.run := some r }

/-- The audit run goes on from a plate that has been read to its end, or from its start: it takes the
next plate and requests its first band, or reaches its result (R155, R156). `fuel` bounds the plates
it takes without a band to read. -/
def State.walkAudit (r : AuditRun) : Nat → State → State
  | 0, s => s
  | fuel + 1, s =>
    if r.plateCount ≤ r.taken then
      s.endAudit r (if ~~~ r.runningDigest = r.digest then .matched else .digestMismatch) 0
    else
      match s.nextPlate r.plateHead r.current with
      | none => s.endAudit r .plateMismatch (r.taken + 1)
      | some p =>
        let t := r.take p (s.link p)
        match t.residue with
        | some _ => (s.setAudit .requesting t).arbitrate
        | none =>
          if t.crc = t.storedCheck then s.walkAudit t.pass fuel
          else s.endAudit t .plateMismatch t.taken

/-- An audit run after a band has been read (R155). -/
def AuditRun.afterBand (bytes : List Byte) (r : AuditRun) : AuditRun :=
  { r with
    crc := crc16Extend r.crc bytes
    residue := match r.residue with
      | some (n + 1) => some n
      | _ => none }

/-- The work of the audit channel on the completion of its read (R155). -/
def State.bandAudited (t : Transfer) (s : State) : State :=
  match s.images.audit.run with
  | none => s
  | some r =>
    let a := r.afterBand (s.bandAt t.plate t.place)
    match a.residue with
    | some _ => (s.setAudit .requesting a).arbitrate
    | none =>
      if a.crc = a.storedCheck then s.walkAudit a.pass (a.plateCount + 1)
      else s.endAudit a .plateMismatch a.taken

/-- VERIFY (R154). -/
def ownerVerify (folio : Word) (s : State) : State × Reply :=
  if s.images.audit.state ≠ .idle ∨ s.images.audit.kept ≠ none then refused .busy s
  else
    match s.startClaim folio with
    | .error code => refused code s
    | .ok r =>
      let run : AuditRun :=
        { folio := folio, plateHead := r.plateHead, plateCount := r.plateCount, digest := r.digest }
      ((State.setAudit .waiting run { s with folio.auditMark := some (slotOf folio) }).walkAudit run
          (run.plateCount + 1),
        { code := .started })

/-- A granted read whose run has been cancelled is discarded when it completes (R150). -/
def State.orphan (c : Channel) (s : State) : State :=
  { s with
    images.transfer := s.images.transfer.map fun t =>
      if t.channel = c then { t with orphan := true } else t }

/-- The state of a read channel whose run is cancelled: TRANSFERRING until a granted read completes
(R157, R161). -/
def RunState.cancelled (r : RunState) : RunState :=
  if r = .transferring then .transferring else .idle

/-- CANCEL VERIFY (R157). The run's current plate and residue are dropped at once, also while a granted
read has yet to complete (log 33). -/
def ownerCancelVerify (s : State) : State × Reply :=
  match s.images.audit.run with
  | none => refused .state s
  | some r =>
    ((State.postAudit (.verifyDone .cancelled r.folio 0 r.checked)
        { s with
          folio.auditMark := none
          images.audit.state := s.images.audit.state.cancelled
          images.audit.run := none
          images.audit.endFlag := true
          images.audit.endCause := .cancelled }).orphan .audit,
      okWith [packOne 15 r.checked])

/-! ## The export stream (R159, R160) -/

/-- The folio header (R159, R192). -/
def folioHeader (folio : Word) (r : Record) : List Word :=
  [0x5A01, folio] ++ twoWords r.matter ++
    [word r.sequence, word r.pageCount, word r.sideCount, word r.plateCount] ++ twoWords r.digest

/-- The bands of the side a plate belongs to, from that plate on: the sum over its plates up to the next
side start or the end of the chain, `left` plates further at most (R159). -/
def State.sideBands (s : State) (p : Nat) : Nat → Nat
  | 0 => (s.link p).bandsUsed
  | left + 1 =>
    (s.link p).bandsUsed +
      match (s.link p).next with
      | none => 0
      | some q => if (s.link q).sideStart then 0 else s.sideBands q left

/-- The side header of a side (R159, R192). -/
def sideHeader (kind : Side) (page side bands : Nat) : List Word :=
  [match kind with
    | .front => 0x5A10
    | .back => 0x5A11, word page, word side, word bands]

/-- The end word of a stream (R159, R192). -/
def endWord (short : Bool) : Word := if short then 0x5AE1 else 0x5AE0

/-- An export run that takes a plate: at a side start a side header comes next, and a front side begins a
page (R159). The bands of plates before any side start have no header before them (log 34). -/
def ExportRun.take (s : State) (p : Nat) (r : ExportRun) : ExportRun :=
  let l := s.link p
  let page := if l.sideStart ∧ l.side = .front then r.pageOrdinal + 1 else r.pageOrdinal
  let side := if l.sideStart then r.sideOrdinal + 1 else r.sideOrdinal
  { r with
    taken := r.taken + 1
    current := some p
    bandsUsed := l.bandsUsed
    residue := unreadResidue l.bandsUsed
    pageOrdinal := page
    sideOrdinal := side
    item := if l.sideStart then
        .sideHeader (sideHeader l.side page side (s.sideBands p (r.plateCount - (r.taken + 1))))
      else .band }

/-- Free words of the export buffer (R160). -/
def State.exportRoom (s : State) : Nat := Config.exportWords - s.port.exports.length

/-- Words join the export buffer. -/
def State.placeWords (ws : List Word) (s : State) : State :=
  { s with port.exports := s.port.exports ++ ws }

/-- The export channel keeps a run and a state. -/
def State.setExport (state : RunState) (r : ExportRun) (s : State) : State :=
  { s with images.exporter.state := state, images.exporter.run := some r }

/-- Places the items of the stream in order, each as soon as it fits, up to the next band read or until
the buffer lacks room (R160). `fuel` bounds the items. -/
def State.placeItems (r : ExportRun) : Nat → State → State
  | 0, s => s.setExport .waiting r
  | fuel + 1, s =>
    match r.item with
    | .header =>
      if r.header.length ≤ s.exportRoom then
        (s.placeWords r.header).placeItems { r with item := .plate } fuel
      else s.setExport .waiting r
    | .plate =>
      if r.plateCount ≤ r.taken then s.placeItems { r with item := .endWord false } fuel
      else
        match s.nextPlate r.plateHead r.current with
        | none => s.placeItems { r with item := .endWord true } fuel
        | some p => s.placeItems (r.take s p) fuel
    | .sideHeader ws =>
      if ws.length ≤ s.exportRoom then (s.placeWords ws).placeItems { r with item := .band } fuel
      else s.setExport .waiting r
    | .band =>
      match r.residue with
      | none => s.placeItems { r with item := .plate } fuel
      | some _ =>
        if Config.bandWords ≤ s.exportRoom then (s.setExport .requesting r).arbitrate
        else s.setExport .waiting r
    | .endWord short =>
      if 1 ≤ s.exportRoom then (s.placeWords [endWord short]).setExport .waiting { r with item := .done }
      else s.setExport .waiting r
    | .done => s.setExport .waiting r

/-- The export channel places what fits while it waits (R160). -/
def State.serveExport (s : State) : State :=
  match s.images.exporter.state, s.images.exporter.run with
  | .waiting, some r => s.placeItems r (3 * r.plateCount + 8)
  | _, _ => s

/-- The words of bytes, the lower address in the high half (R159). -/
def byteWords : List Byte → List Word
  | a :: b :: rest => (a ++ b) :: byteWords rest
  | _ => []

/-- The work of the export channel on the completion of its read (R160). -/
def State.bandExported (t : Transfer) (s : State) : State :=
  match s.images.exporter.run with
  | none => s
  | some r =>
    let residue := match r.residue with
      | some (n + 1) => some n
      | _ => none
    ((s.placeWords (byteWords (s.bandAt t.plate t.place))).setExport .waiting
      { r with residue := residue }).serveExport

/-- OPEN EXPORT (R158). -/
def ownerOpenExport (folio : Word) (s : State) : State × Reply :=
  if s.images.exporter.state ≠ .idle then refused .busy s
  else
    match s.startClaim folio with
    | .error code => refused code s
    | .ok r =>
      let run : ExportRun :=
        { folio := folio, header := folioHeader folio r, plateHead := r.plateHead,
          plateCount := r.plateCount }
      ((State.setExport .waiting run { s with folio.exportMark := some (slotOf folio) }).serveExport,
        { code := .started })

/-- The export run ends (R150, R161). Its current plate and residue are dropped at once, also while a
granted read has yet to complete (log 33). -/
def State.endExport (state : RunState) (cause : RunEnd) (s : State) : State :=
  { s with
    folio.exportMark := none
    images.exporter.state := state
    images.exporter.run := none
    images.exporter.endFlag := true
    images.exporter.endCause := cause }

/-- CANCEL EXPORT (R161). -/
def ownerCancelExport (s : State) : State × Reply :=
  match s.images.exporter.run with
  | none => refused .state s
  | some _ =>
    ((State.endExport s.images.exporter.state.cancelled .cancelled
        { s with port.exports := [] }).orphan .exporter,
      okWith [packOne 14 s.port.exports.length])

/-- Whether the end word of a run has been placed. -/
def State.streamPlaced (s : State) : Bool :=
  match s.images.exporter.run with
  | some r => r.item = .done
  | none => false

/-- A read of EXPORT DATA (R160, R161): the oldest word is returned and removed, which may let the channel
place its next item; the read of the end word, the last word of a stream whose items are all placed,
ends the export. -/
def State.readExport (s : State) : State :=
  match s.port.exports with
  | [] => { s with port.dataOut := 0 }
  | w :: rest =>
    let read := { s with port.exports := rest, port.dataOut := w }
    if rest = [] ∧ s.streamPlaced then read.endExport .idle .complete else read.serveExport

/-! ## A granted band transfer completes (R143, R147, R155, R160) -/

/-- What the channel of a completed transfer does. A channel that no longer waits for it discards it
(R146, R150). -/
def State.channelWork (t : Transfer) (s : State) : State :=
  match t.channel, t.orphan with
  | .captureFront, false => s.bandWritten .front t
  | .captureBack, false => s.bandWritten .back t
  | .audit, false => s.bandAudited t
  | .exporter, false => s.bandExported t
  | .captureFront, true | .captureBack, true => s
  | .audit, true => { s with images.audit.state := .idle }
  | .exporter, true => { s with images.exporter.state := .idle }

/-- A granted band transfer completes: the band is written, the channel does its work and may make its
next request, the port becomes free, and the arbiter grants (R143, R147). -/
def State.transferDone (s : State) : State :=
  match s.images.transfer with
  | none => s
  | some t =>
    let written := if t.channel.isCapture then s.writeBand t else s
    State.arbitrate { written.channelWork t with images.transfer := none }

/-! ## The rows -/

def execVerify (tag : Tag) (folio : Word) (s : State) : StepResult :=
  request (largestReply 0x53) tag (ownerVerify folio) s
def execCancelVerify (tag : Tag) (s : State) : StepResult :=
  request (largestReply 0x54) tag ownerCancelVerify s
def execOpenExport (tag : Tag) (folio : Word) (s : State) : StepResult :=
  request (largestReply 0x55) tag (ownerOpenExport folio) s
def execCancelExport (tag : Tag) (s : State) : StepResult :=
  request (largestReply 0x56) tag ownerCancelExport s
/-- EXPORT_DATA: a read of location 3 (R185). -/
def execExportData (s : State) : StepResult := complete State.readExport s
/-- BAND_TRANSFER_DONE; with the port free no transfer is in flight and nothing happens (log 3). -/
def execBandTransferDone (s : State) : StepResult := complete State.transferDone s

end Sys2Proof.Machine
end

