-- ==== Sys2Proof/Machine/Terms.lean ====
section
/-! DEFINITION. The Term Evaluator (spec/04_the_term_list.md): evaluation, validation, and the four term
requests. -/

namespace Sys2Proof.Machine

/-! ## Bits of the evaluator -/

/-- A stored bit by number; numbers beyond 7 name none. -/
def getBit (v : Vector Bool 8) (n : Nat) : Bool := v[n]?.getD false

/-- Sets a stored bit by number. -/
def setBit (v : Vector Bool 8) (n : Nat) (b : Bool) : Vector Bool 8 := v.setIfInBounds n b

/-- A tag by number. -/
def Tags.get (t : Tags) (n : Nat) : Bool :=
  match n with
  | 0 => t.tag0
  | 1 => t.tag1
  | 2 => t.tag2
  | 3 => t.tag3
  | _ => false

/-- Sets a tag by number. -/
def Tags.put (t : Tags) (n : Nat) (b : Bool) : Tags :=
  match n with
  | 0 => { t with tag0 := b }
  | 1 => { t with tag1 := b }
  | 2 => { t with tag2 := b }
  | 3 => { t with tag3 := b }
  | _ => t

/-! ## Signals (R52, R78, R79) -/

/-- The signals taken at the start of an evaluation, by number: those of the ticket, the batch, the
document, the trays and the switches (R52, R78). Numbers 24 to 43 are read live. -/
def State.sampledSignal (s : State) (t : Ticket) (n : Nat) : Bool :=
  match n with
  | 0 => true
  | 1 => t.flags.doubleFeed
  | 2 => t.flags.skewOver
  | 3 => t.flags.short
  | 4 => t.flags.long
  | 5 => t.flags.separatorMark
  | 6 => t.flags.blankFront
  | 7 => t.flags.blankBack && s.batch.duplex
  | 8 => t.flags.imageLost
  | 9 => s.assembler.openDocument.isNone
  | 10 => s.assembler.marker
  | 11 => s.batch.duplex
  | 12 => s.batch.cls.getLsbD 0
  | 13 => s.batch.cls.getLsbD 1
  | 14 => s.batch.cls.getLsbD 2
  | 15 => s.batch.cls.getLsbD 3
  | 16 => s.assembler.trays[0].eligible
  | 17 => s.assembler.trays[1].eligible
  | 18 => s.assembler.trays[2].eligible
  | 19 => s.assembler.trays[3].eligible
  | 20 => s.assembler.trays[0].mounted
  | 21 => s.assembler.trays[1].mounted
  | 22 => s.assembler.trays[2].mounted
  | 23 => s.assembler.trays[3].mounted
  | 44 => s.seen 22
  | 45 => s.seen 23
  | 46 => match s.assembler.openDocument with
    | some d => 240 ≤ (s.slot (slotOf d.folio)).pageCount
    | none => false
  | 47 => match s.findMatter s.batch.matter with
    | some e => 0 < (s.matterAt e.place).holdCount
    | none => false
  | _ => false

/-- The signals as an evaluation reads them: latches, pulses and tags as the stored value stands when
the term runs, the others as sampled (R79). -/
def Evaluator.signal (sampled : List Bool) (e : Evaluator) (n : Nat) : Bool :=
  if 24 ≤ n ∧ n ≤ 31 then getBit e.latches (n - 24)
  else if 32 ≤ n ∧ n ≤ 39 then getBit e.pulses (n - 32)
  else if 40 ≤ n ∧ n ≤ 43 then e.tags.get (n - 40)
  else sampled[n]?.getD false

/-! ## Running the terms (R80 to R90) -/

/-- The current gate: the top of the gate stack, or true while it is empty (R80). -/
def Evaluator.gated (e : Evaluator) : Bool := e.gates.headD true

/-- The top of the condition stack. -/
def Evaluator.top (e : Evaluator) : Bool := e.stack.headD false

/-- Pops one value. -/
def Evaluator.pop (e : Evaluator) : Evaluator := { e with stack := e.stack.tail }

/-- Pushes a value. -/
def Evaluator.push (b : Bool) (e : Evaluator) : Evaluator := { e with stack := b :: e.stack }

/-- Whether an outcome term, LATCH SET or LATCH RESET acts: its value is true and it is gated (R83,
R85). -/
def Evaluator.actsNow (e : Evaluator) : Bool := e.top && e.gated

/-- A pulse term: its input, its value and its memory (R88). -/
def Evaluator.pulse (rise : Bool) (n : Nat) (e : Evaluator) : Evaluator :=
  let input := e.top && e.gated
  let memory := getBit e.memories n
  { e.pop with
    pulses := setBit e.pulses n (if rise then input && !memory else !input && memory)
    memories := setBit e.memories n input }

/-- KEEP: reset on top, set beneath it; reset wins; nothing while not gated (R87). -/
def Evaluator.keepLatch (n : Nat) (e : Evaluator) : Evaluator :=
  let reset := e.top
  let set := e.pop.top
  { e.pop.pop with
    latches := if !e.gated then e.latches
      else if reset then setBit e.latches n false
      else if set then setBit e.latches n true
      else e.latches }

/-- The effect of a term of a kind with an operand, but for the skip of a SKIP (R81 to R89). -/
def Evaluator.runTerm (sampled : List Bool) (k : TermKind) (n : Nat) (e : Evaluator) : Evaluator :=
  let sig := e.signal sampled n
  match k with
  | .endList => e
  | .load => e.push sig
  | .loadNot => e.push !sig
  | .and => e.pop.push (e.top && sig)
  | .andNot => e.pop.push (e.top && !sig)
  | .or => e.pop.push (e.top || sig)
  | .orNot => e.pop.push (e.top || !sig)
  | .mergeAnd => e.pop.pop.push (e.top && e.pop.top)
  | .mergeOr => e.pop.pop.push (e.top || e.pop.top)
  | .save => { e with marks := setBit e.marks n e.top }
  | .recall => e.push (getBit e.marks n)
  | .gate => { e.pop with gates := (e.top && e.gated) :: e.gates }
  | .gateEnd => { e with gates := e.gates.tail }
  | .skip => e.pop
  | .skipEnd => e
  | .route => if e.actsNow then
      { e.pop with outcome.route := match trayOf (word n) with
          | some t => .tray t
          | none => e.outcome.route }
    else e.pop
  | .routeNext => if e.actsNow then { e.pop with outcome.route := .rotation } else e.pop
  | .reject => if e.actsNow then { e.pop with outcome.reject := some n } else e.pop
  | .separate => if e.actsNow then { e.pop with outcome.separator := true } else e.pop
  | .holdOnFile => if e.actsNow then { e.pop with outcome.intakeHold := true } else e.pop
  | .latchSet => if e.actsNow then { e.pop with latches := setBit e.latches n true } else e.pop
  | .latchReset => if e.actsNow then { e.pop with latches := setBit e.latches n false } else e.pop
  | .keep => e.keepLatch n
  | .pulseRise => e.pulse true n
  | .pulseFall => e.pulse false n
  | .tag => { e.pop with tags := e.tags.put n (e.top && e.gated) }

/-- Runs the terms in place order. `skipping` is the number of the skip region that is passed over, up
to its SKIP END (R84). A word that names no kind is not in a validated list and has no effect. -/
def Evaluator.run (sampled : List Bool) : List Word → Option Nat → Evaluator → Evaluator
  | [], _, e => e
  | w :: rest, some n, e =>
    if termKind w = some .skipEnd ∧ termOperand w = n then Evaluator.run sampled rest none e
    else Evaluator.run sampled rest (some n) e
  | w :: rest, none, e =>
    match termKind w with
    | none => Evaluator.run sampled rest none e
    | some .endList => e
    | some .skip =>
      Evaluator.run sampled rest (if e.top then none else some (termOperand w)) e.pop
    | some k => Evaluator.run sampled rest none (e.runTerm sampled k (termOperand w))

/-- The evaluator at the start of an evaluation (R80). -/
def Evaluator.start (e : Evaluator) : Evaluator :=
  { e with stack := [], gates := [], outcome := {}, marks := Vector.replicate 8 false }

/-- The sampled signals, 0 to 47. -/
def State.sampledSignals (s : State) (t : Ticket) : List Bool :=
  (List.range 48).map (s.sampledSignal t)

/-- The evaluation for a ticket (R80). -/
def State.evaluate (s : State) (t : Ticket) : Evaluator :=
  Evaluator.run (s.sampledSignals t) s.evaluator.terms.toList none s.evaluator.start

/-- The stored values START BATCH clears (R91). -/
def Evaluator.clearStored (e : Evaluator) : Evaluator :=
  { e with
    marks := Vector.replicate 8 false
    latches := Vector.replicate 8 false
    pulses := Vector.replicate 8 false
    memories := Vector.replicate 8 false
    tags := {} }

/-! ## Validation (R93 to R97) -/

/-- The reasons of TERMS (R93), by their numbers. -/
inductive TermFault where
  | kind
  | operand
  | pulseReused
  | underflow
  | overflow
  | gateDepth
  | gateUnmatched
  | skipReused
  | skipUnmatched
  | skipDepth
  | nesting
  | depthAtEnd
  deriving DecidableEq, Repr

/-- The number of a reason (R93). -/
def TermFault.number : TermFault → Nat
  | .kind => 1
  | .operand => 2
  | .pulseReused => 3
  | .underflow => 4
  | .overflow => 5
  | .gateDepth => 6
  | .gateUnmatched => 7
  | .skipReused => 8
  | .skipUnmatched => 9
  | .skipDepth => 10
  | .nesting => 11
  | .depthAtEnd => 12

/-- An open region: a gate region, or a skip region with its number and the depth after its SKIP (R96,
R97). -/
inductive Region where
  | gate
  | skip (number depth : Nat)
  deriving DecidableEq, Repr

/-- What validation keeps as its walk reaches a place; the innermost open region stands first. -/
structure Walk where
  depth : Nat := 0
  regions : List Region := []
  pulses : List Nat := []
  skips : List Nat := []
  maxDepth : Nat := 0
  maxGates : Nat := 0
  deriving DecidableEq, Repr

/-- Whether a region is a gate region. -/
def Region.isGate : Region → Bool
  | .gate => true
  | .skip _ _ => false

/-- Whether a region is the skip region of a number. -/
def Region.isSkip (n : Nat) : Region → Bool
  | .gate => false
  | .skip m _ => m = n

/-- Open gate regions. -/
def Walk.gates (v : Walk) : Nat := v.regions.countP Region.isGate

/-- The end checks: a skip region open, a gate region open, values left (R93, R95 to R97). -/
def Walk.endCheck (v : Walk) : Except TermFault Walk :=
  if v.regions.any (fun r => !r.isGate) then .error .skipUnmatched
  else if 0 < v.gates then .error .gateUnmatched
  else if v.depth ≠ 0 then .error .depthAtEnd
  else .ok v

/-- The checks of R96 and R97 that concern regions, at a depth already counted. -/
def Walk.region (k : TermKind) (n : Nat) (v : Walk) : Except TermFault Walk :=
  match k with
  | .gate =>
    if 4 ≤ v.gates then .error .gateDepth
    else .ok { v with regions := .gate :: v.regions, maxGates := max v.maxGates (v.gates + 1) }
  | .gateEnd =>
    if v.gates = 0 then .error .gateUnmatched
    else
      match v.regions with
      | .gate :: rest => .ok { v with regions := rest }
      | _ => .error .nesting
  | .skip =>
    if n ≠ 0 ∧ n ∈ v.skips then .error .skipReused
    else if n = 0 ∧ v.regions.any (Region.isSkip 0) then .error .nesting
    else .ok { v with regions := .skip n v.depth :: v.regions, skips := n :: v.skips }
  | .skipEnd =>
    if !v.regions.any (Region.isSkip n) then .error .skipUnmatched
    else
      match v.regions with
      | .skip m d :: rest =>
        if m ≠ n then .error .nesting
        else if d ≠ v.depth then .error .skipDepth
        else .ok { v with regions := rest }
      | _ => .error .nesting
  | _ => .ok v

/-- Whether a kind is a pulse term. -/
def TermKind.isPulse (k : TermKind) : Bool := k = .pulseRise || k = .pulseFall

/-- The checks at one place, in the order of R94 to R97; the end list term has the end checks. -/
def Walk.place (w : Word) (v : Walk) : Except TermFault Walk :=
  match termKind w with
  | none => .error .kind
  | some k =>
    let n := termOperand w
    if n < k.range.1 ∨ k.range.2 < n then .error .operand
    else if k.isPulse ∧ n ∈ v.pulses then .error .pulseReused
    else if v.depth < k.needs then .error .underflow
    else if 8 < k.depthAfter v.depth then .error .overflow
    else if k = .endList then v.endCheck
    else
      let counted : Walk :=
        { v with
          depth := k.depthAfter v.depth
          maxDepth := max v.maxDepth (k.depthAfter v.depth)
          pulses := if k.isPulse then n :: v.pulses else v.pulses }
      counted.region k n

/-- What validation finds: a failing place and its reason, or the number of places evaluated and what
the walk reached (R93, R98). -/
inductive Validation where
  | invalid (place : Nat) (reason : TermFault)
  | valid (places : Nat) (walk : Walk)
  deriving DecidableEq, Repr

/-- The walk of validation from a place on; the walk ends at the first END, or after the last place,
with the end checks (R93). -/
def validateFrom : Nat → List Word → Walk → Validation
  | i, [], v =>
    match v.endCheck with
    | .error reason => .invalid (i - 1) reason
    | .ok v => .valid i v
  | i, w :: rest, v =>
    match v.place w with
    | .error reason => .invalid i reason
    | .ok v' => if termKind w = some .endList then .valid (i + 1) v' else validateFrom (i + 1) rest v'

/-- Validation of the term list (R93). -/
def Evaluator.validate (e : Evaluator) : Validation := validateFrom 0 e.terms.toList {}

/-- The TERMS reply: term index and reason (R93). -/
def termsReply (place : Nat) (reason : TermFault) : Reply :=
  { code := .terms, results := [packOne 6 place, packOne 4 reason.number] }

/-! ## Requests (R75 to R77, R98) -/

/-- Writes term words into consecutive places (R75). -/
def storeTerms : Nat → List Word → Vector Word 64 → Vector Word 64
  | _, [], v => v
  | i, w :: ws, v => storeTerms (i + 1) ws (v.setIfInBounds i w)

/-- LOAD TERMS (R75). -/
def ownerLoadTerms (first : Word) (terms : List Word) (s : State) : State × Reply :=
  if !oneToSix terms then refused .badRequest s
  else if s.batch.state ≠ .idle then refused .state s
  else if 63 < first.toNat ∨ 64 < first.toNat + terms.length then refused .badArgument s
  else ({ s with evaluator.terms := storeTerms first.toNat terms s.evaluator.terms },
    okWith [packOne 7 (first.toNat + terms.length)])

/-- CLEAR TERMS (R76). -/
def ownerClearTerms (s : State) : State × Reply :=
  if s.batch.state ≠ .idle then refused .state s
  else ({ s with evaluator := { s.evaluator.clearStored with terms := Vector.replicate 64 0 } },
    okWith [])

/-- CHECK TERMS (R98). -/
def ownerCheckTerms (s : State) : State × Reply :=
  match s.evaluator.validate with
  | .invalid place reason => (s, termsReply place reason)
  | .valid places walk =>
    (s, okWith [packOne 7 places, pack [(4, walk.maxDepth), (3, walk.maxGates)]])

/-- Eight stored bits as fields, number 0 first (R193). -/
def bitFields (v : Vector Bool 8) : List (Nat × Nat) := v.toList.map fun b => (1, bit b)

/-- READ TERMS (R77). -/
def ownerReadTerms (first : Word) (s : State) : State × Reply :=
  if 63 < first.toNat then refused .badArgument s
  else
    let e := s.evaluator
    (s, okWith ((e.terms.toList.drop first.toNat).take 6 ++
      [pack (bitFields e.latches ++ bitFields e.marks),
        pack (bitFields e.pulses ++ bitFields e.memories),
        packOne 4 e.tags.code]))

/-! ## The rows -/

def execLoadTerms (tag : Tag) (first : Word) (terms : List Word) (s : State) : StepResult :=
  request (largestReply 0x30) tag (ownerLoadTerms first terms) s
def execClearTerms (tag : Tag) (s : State) : StepResult :=
  request (largestReply 0x31) tag ownerClearTerms s
def execCheckTerms (tag : Tag) (s : State) : StepResult :=
  request (largestReply 0x32) tag ownerCheckTerms s
def execReadTerms (tag : Tag) (first : Word) (s : State) : StepResult :=
  request (largestReply 0x33) tag (ownerReadTerms first) s

end Sys2Proof.Machine
end

