-- ==== Sys2Proof/Machine/Batch.lean ====
section
/-! DEFINITION. The Batch Controller and Feeder (spec/09_the_batch_controller_and_feeder.md): hold causes,
entries to IDLE and HALTED, the feed test and the feed window, and the six batch requests. -/

namespace Sys2Proof.Machine

/-! ## Hold causes (R165) -/

/-- The union of two sets of hold causes. -/
def HoldCauses.or (a b : HoldCauses) : HoldCauses where
  paused := a.paused || b.paused
  feederEmpty := a.feederEmpty || b.feederEmpty
  jamRecovered := a.jamRecovered || b.jamRecovered
  trayLimit := a.trayLimit || b.trayLimit
  noTray := a.noTray || b.noTray
  tableFull := a.tableFull || b.tableFull
  rejectFull := a.rejectFull || b.rejectFull

/-- The batch enters FEED HOLD with its notice, which carries the causes as they stand (R165, R175). -/
def State.enterFeedHold (causes : HoldCauses) (s : State) : State :=
  State.postBatch (.feedHold causes s.batch.fed s.batch.rejected s.batch.opened)
    { s with batch.state := .feedHold, batch.causes := causes }

/-- A raise of hold causes (R165); the empty set raises nothing. -/
def State.raise (causes : HoldCauses) (s : State) : State :=
  if causes.isEmpty then s
  else
    match s.batch.state with
    | .running => s.enterFeedHold (s.batch.causes.or causes)
    | .feedHold | .draining => { s with batch.causes := s.batch.causes.or causes }
    | .idle | .halted => s

/-! ## Entries to IDLE and HALTED (R171 to R174) -/

/-- The unpin claim (R8): the batch matter is unpinned and R7's test made. -/
def State.unpin (s : State) : State :=
  match s.findMatter s.batch.matter with
  | none => s
  | some e =>
    State.testRemoval e.place
      { s with
        folio.index := s.folio.index.map fun f =>
          if f.place = e.place then { f with pinned := false } else f }

/-- The entry to IDLE (R172). -/
def State.enterIdle (kind : EndKind) (s : State) : State :=
  State.postBatch (.batchEnded kind s.batch.fed s.batch.rejected s.batch.opened)
    (State.unpin
      { s with
        batch.state := .idle
        batch.haltCause := none
        batch.causes := {}
        batch.stopTaken := false
        batch.feeder := .atRest
        tracker.stallTimer := none })

/-- The test that ends a drain: the train is empty and the feeder AT REST (R171). -/
def State.endDrain (s : State) : State :=
  if s.batch.state = .draining ∧ s.tracker.train = [] ∧ s.batch.feeder = .atRest then
    s.enterIdle .drained
  else s

/-- The batch enters HALTED: the feeder is AT REST, the tracker stopped with its stall timer, and the
capture channels frozen (R106, R120, R146, R169, R173, R174). -/
def State.halt (cause : HaltCause) (s : State) : State :=
  State.freezeCaptures
    { s with
      batch.state := .halted
      batch.haltCause := some cause
      batch.feeder := .atRest
      tracker.stopped := true
      tracker.stallTimer := none }

/-! ## The feeder (R168, R169) -/

/-- The hold causes the feed test raises (R168). -/
def State.feedHolds (s : State) : HoldCauses :=
  { trayLimit := s.trayLimitStands, rejectFull := s.rejectFull }

/-- The feed test (R168). -/
def State.feedTest (s : State) : State :=
  if s.batch.state ≠ .running ∨ s.batch.feeder ≠ .atRest then s
  else if !s.feedHolds.isEmpty then s.raise s.feedHolds
  else if s.waits.any then s
  else { s with batch.feeder := .feeding s.tracker.travel }

/-- Whether the feed window of the attempt in flight has passed (R169). -/
def State.feedWindowPassed (s : State) : Bool :=
  match s.batch.feeder with
  | .atRest => false
  | .feeding since => Config.feedWindow < (s.tracker.travel - since).toNat

/-- The feed window passes (R169). -/
def State.passFeedWindow (s : State) : State :=
  if !s.feedWindowPassed then s
  else
    let rested := { s with batch.feeder := .atRest }
    if s.batch.state = .draining then rested.endDrain else rested.raise { feederEmpty := true }

/-- A sheet has entered: a feed attempt ends, and the sheet is counted (R107, R169, R176). -/
def State.sheetEntered (s : State) : State :=
  { s with batch.feeder := .atRest, batch.fed := countUp s.batch.fed }

/-! ## Requests -/

/-- The changes START BATCH makes once its checks have passed (R164), `place` being the matter's place. -/
def State.startBatch (matter : Long) (cls : BitVec 4) (duplex : Bool) (place : Nat) (s : State) : State :=
  let entered := s.matterFor matter place
  { entered with
    folio.index := entered.folio.index.map fun e =>
      if e.place = place then { e with pinned := true } else e
    batch.state := .running
    batch.causes := {}
    batch.stopTaken := false
    batch.matter := matter
    batch.cls := cls
    batch.duplex := duplex
    batch.fed := 0
    batch.rejected := 0
    batch.opened := 0
    evaluator := entered.evaluator.clearStored
    tracker.nextOrdinal := 1
    tracker.lastEntryTrailing := none
    tracker.stallTimer := some Config.stallMilliseconds }

/-- START BATCH (R164). -/
def ownerStartBatch (matter : Long) (cls duplex : Word) (s : State) : State × Reply :=
  if s.batch.state ≠ .idle then refused .state s
  else
    match flagOf duplex with
    | none => refused .badArgument s
    | some two =>
      if matter = 0 ∨ 15 < cls.toNat then refused .badArgument s
      else
        match s.evaluator.validate with
        | .invalid place reason => (s, termsReply place reason)
        | .valid _ _ =>
          if !s.linesReady then refused .lines s
          else if s.batch.kept ≠ [] then refused .busy s
          else
            match s.placeFor matter with
            | none => refused .full s
            | some place =>
              let started := s.startBatch matter (cls.extractLsb' 0 4) two place
              (started, okWith [word (started.matterAt place).nextSequence])

/-- PAUSE FEED (R167). -/
def ownerPauseFeed (s : State) : State × Reply :=
  match s.batch.state with
  | .running | .feedHold =>
    let paused := s.raise { paused := true }
    (paused, okWith [packOne 7 paused.batch.causes.code])
  | .idle | .draining | .halted => refused .state s

/-- The causes left after a test of each against its condition (R166). -/
def State.causesLeft (s : State) : HoldCauses :=
  { trayLimit := s.batch.causes.trayLimit && s.trayLimitStands
    noTray := s.batch.causes.noTray && !s.someTrayEligible
    tableFull := s.batch.causes.tableFull && s.folio.freeSlots = 0
    rejectFull := s.batch.causes.rejectFull && s.rejectFull }

/-- RESUME FEED (R166). -/
def ownerResumeFeed (s : State) : State × Reply :=
  if s.batch.state ≠ .feedHold then refused .state s
  else if s.batch.kept ≠ [] then refused .busy s
  else
    let left := s.causesLeft
    let after : BatchState := if left.isEmpty then .running else .feedHold
    ({ s with batch.causes := left, batch.state := after },
      okWith [pack [(7, left.code), (3, after.code)]])

/-- STOP BATCH (R171): the drain close comes before the test that ends the drain. -/
def ownerStopBatch (s : State) : State × Reply :=
  match s.batch.state with
  | .running | .feedHold =>
    ((State.drainClose { s with batch.state := .draining, batch.stopTaken := true }).endDrain,
      okWith [packOne 3 s.tracker.train.length])
  | .idle | .draining | .halted => refused .state s

/-- ABORT BATCH (R174). -/
def ownerAbortBatch (s : State) : State × Reply :=
  match s.batch.state, s.batch.haltCause with
  | .running, _ | .feedHold, _ | .draining, _ =>
    (s.halt .abort, okWith [packOne 3 s.batch.state.code])
  | .halted, some .jam =>
    ({ s with batch.haltCause := some .abort }, okWith [packOne 3 s.batch.state.code])
  | _, _ => refused .state s

/-- The waits READ BATCH shows: only in RUNNING with the feeder AT REST (R176). -/
def State.shownWaits (s : State) : Waits :=
  if s.batch.state = .running ∧ s.batch.feeder = .atRest then s.waits else ⟨false, false, false, false⟩

/-- READ BATCH (R176). -/
def ownerReadBatch (s : State) : State × Reply :=
  let b := s.batch
  let w := s.shownWaits
  (s, okWith ([pack [(3, b.state.code), (2, haltField b.haltCause), (1, bit b.stopTaken),
        (1, bit s.feeding), (1, bit b.duplex), (4, b.cls.toNat)],
      pack [(7, b.causes.code), (1, bit w.trainFull), (1, bit w.pitch), (1, bit w.plates),
        (1, bit w.notices)]] ++
    twoWords b.matter ++ [word b.fed, word b.rejected, word b.opened]))

/-! ## The rows -/

def execStartBatch (tag : Tag) (matter : Long) (cls duplex : Word) (s : State) : StepResult :=
  request (largestReply 0x60) tag (ownerStartBatch matter cls duplex) s
def execPauseFeed (tag : Tag) (s : State) : StepResult :=
  request (largestReply 0x61) tag ownerPauseFeed s
def execResumeFeed (tag : Tag) (s : State) : StepResult :=
  request (largestReply 0x62) tag ownerResumeFeed s
def execStopBatch (tag : Tag) (s : State) : StepResult :=
  request (largestReply 0x63) tag ownerStopBatch s
def execAbortBatch (tag : Tag) (s : State) : StepResult :=
  request (largestReply 0x64) tag ownerAbortBatch s
def execReadBatch (tag : Tag) (s : State) : StepResult :=
  request (largestReply 0x65) tag ownerReadBatch s
/-- FEED_TEST (R168). -/
def execFeedTest (s : State) : StepResult := complete State.feedTest s
/-- FEED_WINDOW_PASSES (R169). -/
def execFeedWindowPasses (s : State) : StepResult := complete State.passFeedWindow s

end Sys2Proof.Machine
end

