-- ==== Sys2Proof/Machine/Train.lean ====
section
/-! DEFINITION. The Sheet Tracker (spec/05_the_sheet_train.md): arrivals and windows, zones, gates,
deliveries, decision outcomes, jams, and the five train requests. -/

namespace Sys2Proof.Machine

/-! ## Jams (R119, R120, R173) -/

/-- The tracker reports a jam, unless it does not act: the batch enters HALTED with cause JAM and posts
the JAM notice (R106, R119, R173). -/
def State.jam (cause : JamCause) (line : Option LineIx) (ticket : Option Word) (s : State) : State :=
  if !s.acts then s
  else (s.halt .jam).postBatch (.jam cause line ticket s.tracker.train.length)

/-- A sensor change that no ticket expects at L0, L1, L2 or L5 (R108). -/
def State.stray (line : LineIx) (s : State) : State := s.jam .straySheet (some line) none

/-- The line of an edge sensor (R178). -/
def sensorLine : Sensor → LineIx
  | .a => 1
  | .b => 2

/-- The other edge sensor. -/
def otherSensor : Sensor → Sensor
  | .a => .b
  | .b => .a

/-- The line of an exit (R115), a path of `none` leading to the reject exit. -/
def exitLine : Option TrayIx → LineIx
  | some 0 => 6
  | some 1 => 7
  | some 2 => 8
  | some 3 => 9
  | none => 10

/-- The path that leads to an exit (R115). -/
def exitPath : Exit → Option TrayIx
  | .tray n => some n
  | .reject => none

/-! ## Arrivals (R107 to R110, R115) -/

/-- The ordinal after one that has been given out (R102). -/
def ordinalAfter (n : Word) : Word := if n = 65535 then 1 else n + 1

/-- A new ticket (R100, R107). -/
def Ticket.enter (ordinal : Word) (travel : Long) : Ticket :=
  { ordinal := ordinal, entry := travel,
    armed := { entryTrailing := true, firstEdge := true, scanLeading := true } }

/-- A leading edge at L0 (R107). -/
def State.entryLeading (s : State) : State :=
  if !s.acts then s
  else if Config.trainTickets ≤ s.tracker.train.length then s.jam .trainOverrun (some 0) none
  else
    State.sheetEntered
      { s with
        tracker.train := s.tracker.train ++ [.enter s.tracker.nextOrdinal s.tracker.travel]
        tracker.nextOrdinal := ordinalAfter s.tracker.nextOrdinal }

/-- A ticket whose length the entry trailing edge gives (R107). -/
def Ticket.measure (length short long : Nat) (t : Ticket) : Ticket :=
  { t with
    length := some length
    flags.short := t.flags.short || decide (length < short)
    flags.long := t.flags.long || decide (long < length)
    armed.entryTrailing := false
    armed.scanTrailing := t.stage = .scanning }

/-- A trailing edge at L0 (R107; log 24). Its travel count is noted where a ticket takes its length from it;
one reported as STRAY SHEET is not noted (log 29). With no travel pulse since the leading edge the length
is 0, which R100's range leaves out (log 32). -/
def State.entryTrailing (s : State) : State :=
  if !s.acts then s
  else
    match s.tracker.train.getLast? with
    | none => s.stray 0
    | some t =>
      let length := t.leading s.tracker.travel
      if t.length.isSome ∨ Config.overlength < length then s.stray 0
      else
        State.editTicket t.ordinal (Ticket.measure length s.shortThreshold s.longThreshold)
          { s with tracker.lastEntryTrailing := some s.tracker.travel }

/-- Whether a ticket expects its first edge here and now (R108). -/
def State.firstEdgeFits (s : State) (t : Ticket) : Bool :=
  t.armed.firstEdge &&
    within (t.leading s.tracker.travel) s.edgePosition (s.tolerance + Config.cornerLead)

/-- Whether a ticket expects its second edge on this sensor now (R108). -/
def State.secondEdgeFits (s : State) (sensor : Sensor) (t : Ticket) : Bool :=
  match t.armed.secondEdge with
  | some e => e.sensor = sensor && (s.tracker.travel - e.firstEdge).toNat ≤ Config.secondEdgeTravel
  | none => false

/-- A leading edge at L1 or L2 (R109): the oldest ticket that expects it takes it. -/
def State.edgeSensor (sensor : Sensor) (s : State) : State :=
  if !s.acts then s
  else
    match s.oldest fun t => s.firstEdgeFits t || s.secondEdgeFits sensor t with
    | none => s.stray (sensorLine sensor)
    | some t =>
      if s.firstEdgeFits t then
        (s.editTicket t.ordinal fun t =>
          { t with
            armed.firstEdge := false
            armed.secondEdge := some { sensor := otherSensor sensor, firstEdge := s.tracker.travel }
          }).openMeasurement t.ordinal sensor
      else
        (s.editTicket t.ordinal fun t => { t with armed.secondEdge := none }).closeMeasurement
          t.ordinal

/-- Whether a ticket expects the scan leading edge now (R108). -/
def State.scanLeadingFits (s : State) (t : Ticket) : Bool :=
  t.armed.scanLeading && within (t.leading s.tracker.travel) s.scanPosition s.tolerance

/-- Whether a ticket's trailing position is within a window. -/
def State.trailingWithin (s : State) (position : Nat) (t : Ticket) : Bool :=
  match t.trailing s.tracker.travel with
  | some p => within p position s.tolerance
  | none => false

/-- Starts the capture of the batch's sides for a ticket (R110, R130). -/
def State.startSides (ordinal : Word) (s : State) : State :=
  let front := s.startSide .front ordinal
  if s.batch.duplex then front.startSide .back ordinal else front

/-- A leading edge at L5 (R110). -/
def State.scanLeading (s : State) : State :=
  if !s.acts then s
  else
    match s.oldest s.scanLeadingFits with
    | none => s.stray 5
    | some t =>
      if t.stage = .entered then s.jam .misfeed (some 5) (some t.ordinal)
      else
        (s.editTicket t.ordinal fun t =>
          { t with
            stage := .scanning
            armed.scanLeading := false
            armed.exitLeading := true
            armed.scanTrailing := t.length.isSome }).startSides t.ordinal

/-- The end of a ticket's sides reaches the engine, and each channel acts on what it is handed (R110,
R131), the front before the back (log 26). -/
def State.endSides (ordinal : Word) (s : State) : State :=
  let front := s.handOver .front (State.endSide .front ordinal)
  if s.batch.duplex then front.handOver .back (State.endSide .back ordinal) else front

/-- A trailing edge at L5 (R110). -/
def State.scanTrailing (s : State) : State :=
  if !s.acts then s
  else
    match s.oldest fun t => t.armed.scanTrailing && s.trailingWithin s.scanPosition t with
    | none => s.stray 5
    | some t =>
      (s.editTicket t.ordinal fun t => { t with armed.scanTrailing := false }).endSides t.ordinal

/-- A leading edge at an exit (R115, R116). -/
def State.exitLeading (path : Option TrayIx) (s : State) : State :=
  if !s.acts then s
  else
    match s.oldest fun t => t.path = path && t.armed.exitLeading &&
        within (t.leading s.tracker.travel) (s.exitPosition path) s.tolerance with
    | none => s.jam .misdelivery (some (exitLine path)) none
    | some t =>
      s.editTicket t.ordinal fun t =>
        { t with armed.exitLeading := false, armed.exitTrailing := true }

/-! ## Deliveries (R117, R118) -/

/-- The detail of a NOT SHELVED entry for a page astray (R10). -/
def Astray.detail : Astray → Nat
  | .late => 20
  | .gateBusy => 21

/-- A page resolved as NOT SHELVED: the record learns of it, and the page's tray has one page less on its
way (R16, R70). -/
def State.notShelved (page : PageOf) (route : Option TrayIx) (detail : Nat) (s : State) : State :=
  let told := s.resolveNotShelved (slotOf page.folio) page.ordinal detail
  match route with
  | some n => told.editTray n Tray.uncommit
  | none => told

/-- A ticket leaves the train, which may end a drain (R117, R171). -/
def State.dismiss (ordinal : Word) (s : State) : State := (s.removeTicket ordinal).endDrain

/-- The delivery of a page at a tray exit (R117). -/
def State.deliverTray (n : TrayIx) (t : Ticket) (s : State) : State :=
  let position := s.assembler.trays[n].fill + 1
  let placed := s.editTray n Tray.deliver
  let told := match t.decision.bind Decision.page with
    | some page => placed.deliverPage (slotOf page.folio) position
    | none => placed
  told.dismiss t.ordinal

/-- A delivery at the reject exit (R118). -/
def State.deliverReject (t : Ticket) (s : State) : State :=
  match t.decision with
  | none =>
    s.editTicket t.ordinal fun t => { t with flags.exitedUndecided := true, armed := {} }
  | some d =>
    match d.page, d.astray with
    | some page, some a => (s.notShelved page d.route a.detail).dismiss t.ordinal
    | _, _ => s.dismiss t.ordinal

/-- A trailing edge at an exit (R115, R116). -/
def State.exitTrailing (path : Option TrayIx) (s : State) : State :=
  if !s.acts then s
  else
    match s.oldest fun t => t.path = path && t.armed.exitTrailing &&
        s.trailingWithin (s.exitPosition path) t with
    | none => s.jam .misdelivery (some (exitLine path)) none
    | some t =>
      match path with
      | some n => s.deliverTray n t
      | none => s.deliverReject t

/-! ## Windows (R108) -/

/-- What passes when an arrival's window passes without it: the jam cause and the line (R108, R119). The
window of an arrival that is not armed does not pass. -/
def State.windowPassed (s : State) (t : Ticket) (arrival : Arrival) : Option (JamCause × LineIx) :=
  let beyond (position : Option Nat) (upper : Nat) : Bool :=
    match position with
    | some p => upper < p
    | none => false
  let leading := some (t.leading s.tracker.travel)
  let trailing := t.trailing s.tracker.travel
  match arrival with
  | .entryTrailing =>
    if t.armed.entryTrailing && beyond leading Config.overlength then some (.overlength, 0) else none
  | .firstEdge =>
    if t.armed.firstEdge && beyond leading (s.edgePosition + s.tolerance + Config.cornerLead) then
      some (.misfeed, 1)
    else none
  | .secondEdge =>
    match t.armed.secondEdge with
    | some e =>
      if Config.secondEdgeTravel < (s.tracker.travel - e.firstEdge).toNat then
        some (.misfeed, sensorLine e.sensor)
      else none
    | none => none
  | .scanLeading =>
    if t.armed.scanLeading && beyond leading (s.scanPosition + s.tolerance) then
      some (.lostSheet, 5)
    else none
  | .scanTrailing =>
    if t.armed.scanTrailing && beyond trailing (s.scanPosition + s.tolerance) then
      some (.lostSheet, 5)
    else none
  | .exitLeading =>
    if t.armed.exitLeading && beyond leading (s.exitPosition t.path + s.tolerance) then
      some (.lostSheet, exitLine t.path)
    else none
  | .exitTrailing =>
    if t.armed.exitTrailing && beyond trailing (s.exitPosition t.path + s.tolerance) then
      some (.lostSheet, exitLine t.path)
    else none

/-- A window passes (R108): only one that has does (log 3). -/
def State.passWindow (ordinal : Word) (arrival : Arrival) (s : State) : State :=
  match s.ticket ordinal with
  | none => s
  | some t =>
    match s.windowPassed t arrival with
    | some (cause, line) => s.jam cause (some line) (some ordinal)
    | none => s

/-- The stall timer expires (R120). -/
def State.stallExpires (s : State) : State :=
  match s.tracker.stallTimer with
  | some _ => s.jam .stall none none
  | none => s

/-! ## Travel (R102, R111, R130) -/

/-- Sets a flag on the ticket that covers a zone (R111). -/
def State.flagZone (asserted : Bool) (zone : Nat) (mark : Ticket → Ticket) (s : State) : State :=
  if asserted then
    match s.oldest (Ticket.covers s.tracker.travel zone) with
    | some t => s.editTicket t.ordinal mark
    | none => s
  else s

/-- The zone flags at a travel pulse (R111). -/
def State.flagZones (s : State) : State :=
  (s.flagZone (s.seen 3) s.doubleFeedZone fun t => { t with flags.doubleFeed := true }).flagZone
    (s.seen 4) s.separatorZone fun t => { t with flags.separatorMark := true }

/-- Sets what the board does to a pin. -/
def State.drive (l : LineIx) (d : Drive) (s : State) : State :=
  { s with lines.board := s.lines.board.set l.val d l.isLt }

/-- What a travel pulse does while the tracker acts: the stall timer, the zones, and one input line for
each side, on which its channel may act (R111, R120, R130, R132). The front side comes before the back
(log 26). -/
def State.travelOn (front back : ScanLine) (s : State) : State :=
  let timed := { s with tracker.stallTimer := some Config.stallMilliseconds }
  let flagged := timed.flagZones
  (flagged.handOver .front (State.takeLine .front front)).handOver .back (State.takeLine .back back)

/-- The level at which a line is asserted or inactive, as the board drives it. -/
def LineSetting.drive (asserted : Bool) (c : LineSetting) : Drive :=
  if asserted = c.activeHigh then .high else .low

/-- The board moves a pin to the level at which its line is asserted, or inactive. -/
def State.movePin (l : LineIx) (asserted : Bool) (s : State) : State :=
  s.drive l (s.lines.settings[l].drive asserted)

/-- Paper that has left an edge sensor takes its pin back to inactive. The return hands the tracker
nothing (R109; log 19). -/
def State.clearSensor (l : LineIx) (left : Bool) (s : State) : State :=
  if left then s.movePin l false else s

/-- What the board does to L1 to L4 at a travel pulse: the edge sensors that the paper has left, and the
levels of the zone detectors (R109, R111; log 18, log 19). -/
def State.sampleBoard (zones : ZoneLevels) (left : PaperLeft) (s : State) : State :=
  (((s.clearSensor 1 left.a).clearSensor 2 left.b).drive 3 zones.doubleFeed).drive 4 zones.separator

/-- A travel pulse, with what the board does to L1 to L4 and the heads' lines (R102; log 18). -/
def State.travelPulse (zones : ZoneLevels) (left : PaperLeft) (front back : ScanLine) (s : State) :
    State :=
  let sampled := s.sampleBoard zones left
  let counted := { sampled with tracker.travel := s.tracker.travel + 1 }
  if counted.acts then counted.travelOn front back else counted

/-! ## Gates (R113, R114) -/

/-- Sets a ticket's holding of a gate. -/
def Ticket.hold (k : TrayIx) (h : Holding) (t : Ticket) : Ticket :=
  { t with gates := t.gates.set k.val h k.isLt }

/-- What a ticket needs of a gate it claims (R113). -/
def Ticket.need (k : TrayIx) (t : Ticket) : Holding := if t.path = some k then .heldOn else .heldOff

/-- A page that finds its gate busy: GATE BUSY, and the REJECT path from here on (R114). -/
def Ticket.sendAstray (t : Ticket) : Ticket :=
  match t.path with
  | none => t
  | some _ =>
    { t with
      path := none
      decision := t.decision.map fun d => { d with astray := some .gateBusy } }

/-- The newest holder of a gate whose release is not already due: releases come before claims (R113;
log 17). -/
def State.newestHolder (s : State) (k : TrayIx) : Option Ticket :=
  ((s.gateHolders k).filter fun t => !s.releaseDue k t).getLast?

/-- A claim of a gate that is due (R113, R114). -/
def State.claimGate (ordinal : Word) (k : TrayIx) (s : State) : State :=
  match s.ticket ordinal with
  | none => s
  | some t =>
    if !s.acts || !s.claimDue k t then s
    else
      match s.newestHolder k with
      | none => s.editTicket ordinal (Ticket.hold k (t.need k))
      | some h =>
        if h.gates[k] = t.need k then s.editTicket ordinal (Ticket.hold k (t.need k))
        else s.editTicket ordinal fun t => t.sendAstray.hold k .heldOff

/-- A release of a gate that is due (R113). -/
def State.releaseGate (ordinal : Word) (k : TrayIx) (s : State) : State :=
  match s.ticket ordinal with
  | none => s
  | some t =>
    if s.acts && s.releaseDue k t then s.editTicket ordinal (Ticket.hold k .released) else s

/-! ## Decision outcomes (R112) -/

/-- Whether a decision for a route comes late: the ticket has already reached that gate (R112). -/
def Ticket.late (t : Ticket) : Option TrayIx → Bool
  | some n => t.gates[n] ≠ .notReached
  | none => false

/-- A ticket that takes its decision: its path is settled (R112). -/
def Ticket.decide (d : Decision) (t : Ticket) : Ticket :=
  { t with
    stage := .decided
    decision := some (if t.late d.route then { d with astray := some .late } else d)
    path := if t.late d.route then none else d.route }

/-- An outcome reaches its ticket (R112); it completes one that has exited undecided (R118). -/
def State.settle (o : Outcome) (s : State) : State :=
  match s.ticket o.ordinal with
  | none => s
  | some t =>
    if t.flags.exitedUndecided then
      let told := match o.decision.page with
        | some page => s.notShelved page o.decision.route Astray.late.detail
        | none => s
      told.dismiss o.ordinal
    else s.editTicket o.ordinal (Ticket.decide o.decision)

/-- The tracker takes the oldest outcome handed over, also while it is stopped (R112). -/
def State.takeOutcome (s : State) : State :=
  match s.assembler.outcomes with
  | [] => s
  | o :: rest => State.settle o { s with assembler.outcomes := rest }

/-- The tracker takes every outcome handed over (log 16). -/
def State.takeOutcomes : List Outcome → State → State
  | [], s => s
  | _ :: rest, s => takeOutcomes rest s.takeOutcome

/-! ## CLEAR TRAIN (R123, R175) -/

/-- The disposal of one ticket at CLEAR TRAIN (R123). -/
def State.dispose (detail : Nat) (t : Ticket) (s : State) : State :=
  match t.decision with
  | none => s.returnChains [t.frontChain, t.backChain]
  | some d =>
    match d.page with
    | some page => s.notShelved page d.route detail
    | none => s

/-- The disposal of every ticket, in entry order (R123). -/
def State.disposeAll (detail : Nat) : List Ticket → State → State
  | [], s => s
  | t :: rest, s => disposeAll detail rest (s.dispose detail t)

/-- The detail of a page CLEAR TRAIN resolves (R10, R123). -/
def HaltCause.detail : HaltCause → Nat
  | .jam => 22
  | .abort => 23

/-- The train is emptied, the captures cleared, and the stopped condition ended (R123, R137, R146). The
gates' holders go with the tickets (log 14). -/
def State.clearPath (s : State) : State :=
  State.clearCaptures
    { s with
      tracker.train := []
      tracker.stopped := false
      engine := s.engine.clear }

/-- The exit from HALTED (R66, R175). -/
def State.leaveHalt (cause : HaltCause) (s : State) : State :=
  if cause = .jam ∧ ¬ s.batch.stopTaken then
    State.enterFeedHold { s.batch.causes with jamRecovered := true }
      { s with batch.haltCause := none, tracker.stallTimer := some Config.stallMilliseconds }
  else
    (s.closeDocument none).enterIdle (if cause = .jam then .stoppedAfterJam else .aborted)

/-- CLEAR TRAIN once its checks have passed (R123). -/
def State.clearTrain (s : State) : State :=
  let cause := s.batch.haltCause.getD .jam
  let taken := s.takeOutcomes s.assembler.outcomes
  ((taken.disposeAll cause.detail taken.tracker.train).clearPath).leaveHalt cause

/-- CLEAR TRAIN (R123). -/
def ownerClearTrain (s : State) : State × Reply :=
  if s.batch.state ≠ .halted then refused .state s
  else if s.batch.kept ≠ [] then refused .busy s
  else
    let taken := s.takeOutcomes s.assembler.outcomes
    (s.clearTrain,
      okWith [packOne 3 taken.undecided,
        packOne 3 (taken.tracker.train.length - taken.undecided)])

/-! ## Reading the train (R121, R122) -/

/-- R101's order. -/
def Stage.code : Stage → Nat
  | .entered => 0
  | .gauged => 1
  | .scanning => 2
  | .captured => 3
  | .decided => 4

/-- R112's details in R100's order; absent is one past them. -/
def astrayField : Option Astray → Nat
  | some .late => 0
  | some .gateBusy => 1
  | none => 2

/-- R61's order, each REJECT code taking one position; absent is one past the last. -/
def reasonField : Option RejectReason → Nat
  | some .separator => 0
  | some .imageLost => 1
  | some (.code n) => 1 + n
  | some .noRoute => 17
  | some .trayUnavailable => 18
  | some .noRecord => 19
  | none => 20

/-- R100's order. -/
def Holding.code : Holding → Nat
  | .notReached => 0
  | .heldOff => 1
  | .heldOn => 2
  | .released => 3

/-- The nine flags as fields, in R100's order. -/
def Flags.fields (f : Flags) : List (Nat × Nat) :=
  [f.doubleFeed, f.separatorMark, f.skewOver, f.short, f.long, f.blankFront, f.blankBack,
    f.imageLost, f.exitedUndecided].map fun b => (1, bit b)

/-- The decision route field: REJECT 0, absent 7 (R193). -/
def decisionRoute : Option Decision → Nat
  | some d => routeField d.route
  | none => 7

/-- The four words READ TRAIN gives for a ticket (R121). -/
def Ticket.report (travel : Long) (t : Ticket) : List Word :=
  [t.ordinal,
    pack [(3, t.stage.code), (3, routeField t.path), (3, decisionRoute t.decision),
      (1, bit (t.decision.bind Decision.page).isSome),
      (2, astrayField (t.decision.bind Decision.astray))],
    pack t.flags.fields,
    word (min 65535 (t.leading travel))]

/-- READ TRAIN (R121). -/
def ownerReadTrain (s : State) : State × Reply :=
  (s, okWith ([pack [(3, s.tracker.train.length), (3, s.undecided), (1, bit s.tracker.stopped)]] ++
    twoWords s.tracker.travel ++ (s.tracker.train.map (Ticket.report s.tracker.travel)).flatten))

/-- Δ in a word of its own, two's complement; absent is 8000h (R193). -/
def deltaWord : Option Int → Word
  | some d => BitVec.ofInt 16 d
  | none => 0x8000

/-- The ten words READ TICKET gives (R122). -/
def Ticket.details (t : Ticket) : List Word :=
  let page := t.decision.bind Decision.page
  let tags := (t.decision.map Decision.tags).getD {}
  [t.ordinal] ++ twoWords t.entry ++
  [packOne 13 (t.length.getD 0),
    deltaWord t.delta,
    packOne 6 t.frontChain.count,
    packOne 6 t.backChain.count,
    folioWord (page.map PageOf.folio),
    pack [(8, (page.map PageOf.ordinal).getD 251), (5, reasonField (t.decision.bind Decision.reason))],
    pack ((4, tags.code) :: t.gates.toList.map fun h => (2, h.code))]

/-- READ TICKET (R122). -/
def ownerReadTicket (ordinal : Word) (s : State) : State × Reply :=
  if ordinal = 0 then refused .badArgument s
  else
    match s.ticket ordinal with
    | none => refused .notFound s
    | some t => (s, okWith t.details)

/-! ## The path profile (R103 to R105) -/

/-- The range of a profile item (R103). -/
def itemRange (item : Nat) : Nat × Nat :=
  if item ≤ 12 then (1, 30000)
  else
    match item with
    | 13 => (0, 200)
    | 14 => (1, 8000)
    | 15 | 16 => (0, 2000)
    | 17 => (1, 7200)
    | _ => (1, 6912)

/-- The bits that hold an item's range (R193). -/
def itemWidth (item : Nat) : Nat :=
  if item ≤ 12 then 15
  else
    match item with
    | 13 => 8
    | 15 | 16 => 11
    | _ => 13

/-- Whether a profile is valid (R103). -/
def validProfile (p : Vector Nat 19) : Bool :=
  p[0] < p[1] && p[1] < p[2] && p[2] < p[3] && p[3] < p[4] && p[4] < p[5] && p[5] < p[6] &&
  p[6] < p[7] && p[7] < p[12] &&
  p[4] + p[16] < p[8] && p[5] + p[16] < p[9] && p[6] + p[16] < p[10] && p[7] + p[16] < p[11] &&
  p[7] + p[16] < p[12] &&
  p[15] < p[4] &&
  p[15] + p[16] < p[14] &&
  p[17] < p[18]

/-- Whether values lie in the ranges of the items from one on (R104). -/
def inRanges : Nat → List Word → Bool
  | _, [] => true
  | item, w :: ws =>
    (itemRange item).1 ≤ w.toNat && w.toNat ≤ (itemRange item).2 && inRanges (item + 1) ws

/-- A profile with the values written from an item on (R104). -/
def storeItems : Nat → List Word → Vector Nat 19 → Vector Nat 19
  | _, [], p => p
  | item, w :: ws, p => storeItems (item + 1) ws (p.setIfInBounds item w.toNat)

/-- SET PATH (R104). -/
def ownerSetPath (first : Word) (values : List Word) (s : State) : State × Reply :=
  let after := storeItems first.toNat values s.tracker.profile
  if !oneToSix values then refused .badRequest s
  else if s.batch.state ≠ .idle then refused .state s
  else if 18 < first.toNat ∨ 19 < first.toNat + values.length then refused .badArgument s
  else if !inRanges first.toNat values then refused .badArgument s
  else if !validProfile after then refused .badArgument s
  else ({ s with tracker.profile := after }, okWith [packOne 5 (first.toNat + values.length)])

/-- READ PATH (R105). -/
def ownerReadPath (first : Word) (s : State) : State × Reply :=
  if 18 < first.toNat then refused .badArgument s
  else
    (s, okWith (((List.range' first.toNat 6).filter (· < 19)).map fun i =>
      packOne (itemWidth i) (s.tracker.profile[i]?.getD 0)))

/-! ## Edges at the lines (R106, R178, R179) -/

/-- A change of the level the Sheet Tracker's function on a line sees: to asserted, a leading edge, or to
inactive, a trailing edge (R106, R178). The return of L1 or L2 to inactive is not used (R109), and the
other lines are sampled by their owners. -/
def State.edge (l : LineIx) (asserted : Bool) (s : State) : State :=
  match l.val, asserted with
  | 0, true => s.entryLeading
  | 0, false => s.entryTrailing
  | 1, true => s.edgeSensor .a
  | 2, true => s.edgeSensor .b
  | 5, true => s.scanLeading
  | 5, false => s.scanTrailing
  | 6, true => s.exitLeading (some 0)
  | 6, false => s.exitTrailing (some 0)
  | 7, true => s.exitLeading (some 1)
  | 7, false => s.exitTrailing (some 1)
  | 8, true => s.exitLeading (some 2)
  | 8, false => s.exitTrailing (some 2)
  | 9, true => s.exitLeading (some 3)
  | 9, false => s.exitTrailing (some 3)
  | 10, true => s.exitLeading none
  | 10, false => s.exitTrailing none
  | _, _ => s

/-- The board moves a pin to asserted or to inactive, and the edge reaches the tracker. A line that does
not see its pin, disabled or set to output, hands no edge; its pin moves all the same (R179; log 19). -/
def State.boardEdge (l : LineIx) (asserted : Bool) (s : State) : State :=
  let moved := s.movePin l asserted
  if s.boardSeen l then moved.edge l asserted else moved

/-! ## The rows -/

def execReadTrain (tag : Tag) (s : State) : StepResult := request (largestReply 0x40) tag ownerReadTrain s
def execReadTicket (tag : Tag) (ordinal : Word) (s : State) : StepResult :=
  request (largestReply 0x41) tag (ownerReadTicket ordinal) s
def execSetPath (tag : Tag) (first : Word) (values : List Word) (s : State) : StepResult :=
  request (largestReply 0x42) tag (ownerSetPath first values) s
def execReadPath (tag : Tag) (first : Word) (s : State) : StepResult :=
  request (largestReply 0x43) tag (ownerReadPath first) s
def execClearTrain (tag : Tag) (s : State) : StepResult :=
  request (largestReply 0x44) tag ownerClearTrain s
/-- TRAVEL_PULSE (R102). -/
def execTravelPulse (zones : ZoneLevels) (left : PaperLeft) (front back : ScanLine) (s : State) :
    StepResult :=
  complete (State.travelPulse zones left front back) s
/-- WINDOW_PASSES (R108). -/
def execWindowPasses (ordinal : Word) (arrival : Arrival) (s : State) : StepResult :=
  complete (State.passWindow ordinal arrival) s
/-- GATE_CLAIM (R113). -/
def execGateClaim (ordinal : Word) (gate : TrayIx) (s : State) : StepResult :=
  complete (State.claimGate ordinal gate) s
/-- GATE_RELEASE (R113). -/
def execGateRelease (ordinal : Word) (gate : TrayIx) (s : State) : StepResult :=
  complete (State.releaseGate ordinal gate) s
/-- STALL (R120). -/
def execStall (s : State) : StepResult := complete State.stallExpires s
/-- ENTRY_LEADING_EDGE (R107). -/
def execEntryLeadingEdge (s : State) : StepResult := complete (State.boardEdge 0 true) s
/-- ENTRY_TRAILING_EDGE (R107). -/
def execEntryTrailingEdge (s : State) : StepResult := complete (State.boardEdge 0 false) s
/-- EDGE_SENSOR_LEADING_EDGE (R109). -/
def execEdgeSensorLeadingEdge (sensor : Sensor) (s : State) : StepResult :=
  complete (State.boardEdge (sensorLine sensor) true) s
/-- SCAN_LEADING_EDGE (R110). -/
def execScanLeadingEdge (s : State) : StepResult := complete (State.boardEdge 5 true) s
/-- SCAN_TRAILING_EDGE (R110). -/
def execScanTrailingEdge (s : State) : StepResult := complete (State.boardEdge 5 false) s
/-- EXIT_LEADING_EDGE (R115). -/
def execExitLeadingEdge (exit : Exit) (s : State) : StepResult :=
  complete (State.boardEdge (exitLine (exitPath exit)) true) s
/-- EXIT_TRAILING_EDGE (R115). -/
def execExitTrailingEdge (exit : Exit) (s : State) : StepResult :=
  complete (State.boardEdge (exitLine (exitPath exit)) false) s
/-- REJECT_FULL_LINE_CHANGE (R179): the board moves L11; the feed test that reads it is FEED_TEST
(log 3). -/
def execRejectFullLineChange (drive : Drive) (s : State) : StepResult := complete (State.drive 11 drive) s
/-- DECISION_OUTCOME (R112). -/
def execDecisionOutcome (s : State) : StepResult := complete State.takeOutcome s

end Sys2Proof.Machine
end

