-- ==== Sys2Proof/Machine/Decide.lean ====
section
/-! DEFINITION. Decisions of the Document Assembler (spec/03, section 3.2): the order of R53, separators,
rejects, appends and opens, and the outcome handed to the tracker. -/

namespace Sys2Proof.Machine

/-! ## What becomes of a sheet (R54 to R60) -/

/-- A decision that routes a sheet to the reject tray (R61). -/
def Decision.reject (reason : RejectReason) (tags : Tags) : Decision :=
  { route := none, page := none, reason := some reason, tags := tags }

/-- A separator: its plates go back, the open document is closed, and the marker is clear (R54). -/
def State.takeSeparator (t : Ticket) (s : State) : State :=
  let closed := (s.returnTicketPlates t).closeDocument (some false)
  { closed with assembler.marker := false }

/-- A rejected sheet: its plates go back, and it is counted (R55, R57). -/
def State.takeReject (t : Ticket) (s : State) : State :=
  let returned := s.returnTicketPlates t
  { returned with batch.rejected := countUp returned.batch.rejected }

/-- The rejected-sheet claim against the open document (R13, R55). -/
def State.tellReject (detail : Nat) (s : State) : State :=
  match s.assembler.openDocument with
  | some d => s.rejectedSheet (slotOf d.folio) detail
  | none => s

/-- The detail of a SHEET REJECTED entry: 16 for IMAGE LOST, otherwise the REJECT code (R10, R55). -/
def RejectReason.detail : RejectReason → Nat
  | .code n => n
  | _ => 16

/-- The Assembler's part of a page append (R56, R63): the ticket's chains now belong to the record, the
tray counts the page, and the page limit closes the document. -/
def State.countPage (d : OpenDocument) (t : Ticket) (tags : Tags) (s : State) : State × Decision :=
  let joined := s.editTicket t.ordinal fun u => { u with frontChain := {}, backChain := {} }
  let counted := joined.editTray d.tray Tray.commit
  let ordinal := (counted.slot (slotOf d.folio)).pageCount
  (if ordinal = Config.documentPages then counted.closeDocument (some true) else counted,
    { route := some d.tray, page := some { folio := d.folio, ordinal := ordinal }, reason := none,
      tags := tags })

/-- A page append to the open document (R56). -/
def State.takePage (d : OpenDocument) (t : Ticket) (holdOnFile : Bool) (tags : Tags) (s : State) :
    State × Decision :=
  (s.appendPage (slotOf d.folio) t tags holdOnFile).countPage d t tags

/-- The trays in cyclic order from the rotation pointer (R58). -/
def rotationOrder (pointer : TrayIx) : List TrayIx := [pointer, pointer + 1, pointer + 2, pointer + 3]

/-- The tray a route candidate chooses, if it is eligible (R57, R58). -/
def State.chooseTray (s : State) : RouteCandidate → Option TrayIx
  | .none => none
  | .tray n => if s.assembler.trays[n].eligible then some n else none
  | .rotation => (rotationOrder s.assembler.rotation).find? fun n => s.assembler.trays[n].eligible

/-- A sheet rejected for want of a tray or of a record (R57, R58, R60). -/
def State.turnAway (t : Ticket) (reason : RejectReason) (tags : Tags) (causes : HoldCauses) (s : State) :
    State × Decision :=
  ((s.takeReject t).raise causes, .reject reason tags)

/-- The Assembler's part of a successful open (R60). -/
def State.bindDocument (folio : Word) (tray : TrayIx) (rotated : Bool) (s : State) : State :=
  { s with
    assembler.openDocument := some { folio := folio, tray := tray }
    assembler.marker := false
    assembler.rotation := if rotated then tray + 1 else s.assembler.rotation
    batch.opened := countUp s.batch.opened }

/-- A sheet that must open a document (R57, R58, R60). -/
def State.takeOpen (e : Evaluator) (t : Ticket) (s : State) : State × Decision :=
  match s.chooseTray e.outcome.route with
  | none =>
    match e.outcome.route with
    | .none => s.turnAway t .noRoute e.tags {}
    | .tray _ => s.turnAway t .trayUnavailable e.tags {}
    | .rotation => s.turnAway t .trayUnavailable e.tags { noTray := true }
  | some tray =>
    match s.openClaim with
    | none => s.turnAway t .noRecord e.tags { tableFull := true }
    | some (slot, place) =>
      let folio := folioOf slot (s.slot slot).generation
      let predecessor := if s.assembler.marker then s.assembler.lastClosed else none
      let opened := s.openRecord slot place tray s.assembler.trays[tray].box predecessor t e.tags
        e.outcome.intakeHold
      (opened.bindDocument folio tray (e.outcome.route = .rotation)).countPage
        { folio := folio, tray := tray } t e.tags

/-- Whether a tray can take no further page (R56). -/
def Tray.boxFull (t : Tray) : Bool := t.hard ≤ t.sum

/-- A sheet that is neither a separator nor rejected: the next page of the open document, or of a
document opened for it; a full box closes the open one first (R53, R56). -/
def State.takeSheet (e : Evaluator) (t : Ticket) (s : State) : State × Decision :=
  match s.assembler.openDocument with
  | none => s.takeOpen e t
  | some d =>
    if s.assembler.trays[d.tray].boxFull then (s.closeDocument (some true)).takeOpen e t
    else s.takePage d t e.outcome.intakeHold e.tags

/-- The reason step 2 of R53 rejects a sheet for; IMAGE LOST comes first (R55). -/
def rejectReason (e : Evaluator) (t : Ticket) : Option RejectReason :=
  if t.flags.imageLost then some .imageLost else e.outcome.reject.map .code

/-- The ruling of R53 on an evaluated ticket: the first row whose condition holds. -/
def State.rule (e : Evaluator) (t : Ticket) (s : State) : State × Decision :=
  if e.outcome.separator then (s.takeSeparator t, .reject .separator e.tags)
  else
    match rejectReason e t with
    | some r => ((s.takeReject t).tellReject r.detail, .reject r e.tags)
    | none => s.takeSheet e t

/-! ## The decision (R51, R53, R61) -/

/-- The ticket whose decision claim stands: the oldest CAPTURED one not yet ruled upon (R51). -/
def State.claimed (s : State) : Option Ticket :=
  s.oldest fun t => t.stage = .captured && !s.outcomeStands t.ordinal

/-- A decision, taken whole while the batch runs: the evaluation, the ruling, the outcome handed over, and
the drain close (R51, R53, R61, R65). -/
def State.decide (s : State) : State :=
  if !s.acts then s
  else
    match s.claimed with
    | none => s
    | some t =>
      let e := s.evaluate t
      let (ruled, d) := State.rule e t { s with evaluator := e }
      State.drainClose
        { ruled with
          assembler.outcomes := ruled.assembler.outcomes ++ [{ ordinal := t.ordinal, decision := d }] }

/-! ## The row -/

/-- DECISION (R53), with the levels the board gives L22 and L23 as the evaluation samples them (R78). -/
def execDecision (switch0 switch1 : Drive) (s : State) : StepResult :=
  complete (fun s => ((s.drive 22 switch0).drive 23 switch1).decide) s

end Sys2Proof.Machine
end

