-- ==== Sys2Proof/Machine/Lines.lean ====
section
/-! DEFINITION. The Line Port's two requests (spec/10_transport_lines.md). What a function sees and what a
pin carries stands in Flags.lean. -/

namespace Sys2Proof.Machine

/-! ## SET LINE (R182) -/

/-- The five settings as given by argument words, each 0 or 1 (R182). -/
def settingOf (direction latch pull active enable : Word) : Option LineSetting :=
  match flagOf direction, flagOf latch, flagOf pull, flagOf active, flagOf enable with
  | some o, some l, some p, some a, some e =>
    some { output := o, latch := l, pull := p, activeHigh := a, enabled := e }
  | _, _, _, _, _ => none

/-- Whether two settings differ in more than the latch (R182). -/
def LineSetting.changes (c d : LineSetting) : Bool :=
  c.output ≠ d.output || c.pull ≠ d.pull || c.activeHigh ≠ d.activeHigh || c.enabled ≠ d.enabled

/-- The settings as fields, in R178's order. -/
def LineSetting.fields (c : LineSetting) : List (Nat × Nat) :=
  [(1, bit c.output), (1, bit c.latch), (1, bit c.pull), (1, bit c.activeHigh), (1, bit c.enabled)]

/-- The settings of a line are written, and a change of the level its input function sees is handed to
the owner (R179, R182). -/
def State.writeLine (l : LineIx) (c : LineSetting) (s : State) : State :=
  let written := { s with lines.settings := s.lines.settings.set l.val c l.isLt }
  if !outputFunction l && written.seen l ≠ s.seen l then written.edge l (written.seen l) else written

/-- SET LINE (R182). The pin level of the reply is that after the request. -/
def ownerSetLine (line direction latch pull active enable : Word) (s : State) : State × Reply :=
  match lineOf line, settingOf direction latch pull active enable with
  | some l, some c =>
    let before := s.lines.settings[l]
    if s.batch.state ≠ .idle ∧ l.val ≤ 17 ∧ before.changes c then refused .state s
    else
      let written := s.writeLine l c
      (written, okWith [pack (before.fields ++ [(1, bit (written.pinLevel l))])])
  | _, _ => refused .badArgument s

/-! ## READ LINES (R183) -/

/-- A set of 24 line values in two words, L0 to L15 in bits 0 to 15 of the first and L16 to L23 in bits 0
to 7 of the second (R193). -/
def lineWords (value : LineIx → Bool) : List Word :=
  let sum (ls : List LineIx) (base : Nat) : Nat :=
    (ls.map fun l => if value l then 2 ^ (l.val - base) else 0).sum
  [word (sum ((List.finRange 24).take 16) 0), word (sum ((List.finRange 24).drop 16) 16)]

/-- The level a function sees or gives (R183). -/
def State.functionLevel (s : State) (l : LineIx) : Bool :=
  if outputFunction l then s.functionValue l else s.seen l

/-- READ LINES (R183). -/
def ownerReadLines (s : State) : State × Reply :=
  (s, okWith (lineWords s.pinLevel ++
    lineWords (fun l => s.lines.settings[l].output) ++
    lineWords (fun l => s.lines.settings[l].latch) ++
    lineWords (fun l => s.lines.settings[l].pull) ++
    lineWords (fun l => s.lines.settings[l].activeHigh) ++
    lineWords (fun l => s.lines.settings[l].enabled) ++
    lineWords s.functionLevel ++
    lineWords s.parked))

/-! ## The rows -/

def execSetLine (tag : Tag) (line direction latch pull active enable : Word) (s : State) : StepResult :=
  request (largestReply 0x70) tag (ownerSetLine line direction latch pull active enable) s
def execReadLines (tag : Tag) (s : State) : StepResult :=
  request (largestReply 0x71) tag ownerReadLines s

end Sys2Proof.Machine
end

