-- ==== Sys2Proof/Machine/Rebuild.lean ====
section
/-! DEFINITION. The two resets and the start-up rebuild (spec/02, section 2.2; R34, R49, R50, R92, R103,
R124, R137, R153, R177, R178, R185). The rebuild is one step, READY (log 23). Its stages are given for any
number of slots, places and plates; the part has those of R35. -/

namespace Sys2Proof.Machine

/-- Runs a change for every number below `n`, in ascending order. -/
def ascending (change : Nat → State → State) : Nat → State → State
  | 0, s => s
  | n + 1, s => change n (ascending change n s)

/-! ## Stage 1: the directory (R39) -/

/-- Checks one directory place (R39). -/
def State.checkPlace (place : Nat) (s : State) : State :=
  let e := s.placeEntry place
  if e.fields.number = 0 then (if e = {} then s else s.putMatter place {})
  else if !e.checks ∨ 15 < e.fields.holdCount ∨ 65535 < e.fields.nextSequence ∨
      (s.findMatter e.fields.number).isSome then
    s.putMatter place {}
  else s.indexMatter e.fields.number place

/-! ## Stage 2: the slots (R40 to R42) -/

/-- Whether a presence disagrees with a count above 0. -/
def disagrees (present : Bool) (count : Nat) : Bool := present ≠ decide (0 < count)

/-- Whether a live record's fields are out of range (R40). -/
def Record.outOfRange (r : Record) : Bool :=
  r.state = .undefined || r.matter = 0 || r.sequence = 0 || r.pageCount = 0 || 250 < r.pageCount ||
  500 < r.sideCount || r.pageCount < r.shelved || r.pageCount < r.outstanding ||
  disagrees r.firstPosition.isSome r.shelved || disagrees r.lastPosition.isSome r.shelved ||
  (match r.firstPosition, r.lastPosition with
    | some f, some l => f + r.shelved ≠ l + 1
    | _, _ => false) ||
  27000 < r.plateCount ||
  disagrees r.plateHead.isSome r.plateCount || disagrees r.plateTail.isSome r.plateCount ||
  (r.image = .shed && 0 < r.plateCount) || 7 < r.holdCount || r.tray.isNone ||
  Config.exceptionPlaces < r.exceptions.length || (r.state = .filed && 0 < r.outstanding)

/-- A slot becomes DAMAGED, its other bytes as they stand (R40). -/
def State.damage (slot : Nat) (s : State) : State := s.editSlot slot fun r => { r with state := .damaged }

/-- A live record after normalization (R41). -/
def Record.normalize (r : Record) : Record :=
  match r.state with
  | .assembling | .filing =>
    { r.addException { page := r.pageCount, cause := .interrupted, detail := 0 } with
      state := .filed, outstanding := 0 }
  | _ => r

/-- Rewrites a slot whose record has changed. -/
def State.settleSlot (slot : Nat) (r : Record) (s : State) : State :=
  if s.slot slot = r then s else s.putSlot slot r

/-- Ties a live record to its matter, recreating a lost one at the lowest free place (R42), the slot
written before the directory (R37). The second part counts the matters recreated. -/
def tieRecord (slot : Nat) (p : State × Nat) : State × Nat :=
  let (s, recreated) := p
  let r := (s.slot slot).normalize
  match s.findMatter r.matter with
  | some e => (s.settleSlot slot { r with place := e.place }, recreated)
  | none =>
    match s.freePlace with
    | none => (s.damage slot, recreated)
    | some place =>
      (((s.indexMatter r.matter place).settleSlot slot { r with place := place }).putMatter place
        { Matter.fresh r.matter with holdCount := 1 },
        recreated + 1)

/-- Checks one slot (R40). -/
def checkSlot (slot : Nat) (p : State × Nat) : State × Nat :=
  let (s, recreated) := p
  let e := s.slotEntry slot
  if e.blank then (s.putSlot slot {}, recreated)
  else if !e.checks then (s.damage slot, recreated)
  else
    match e.fields.state with
    | .damaged | .free => p
    | .assembling | .filing | .filed | .undefined =>
      if e.fields.outOfRange then (s.damage slot, recreated) else tieRecord slot p

/-- Stage 2 over the slots below `n`. -/
def checkSlots : Nat → State × Nat → State × Nat
  | 0, p => p
  | n + 1, p => checkSlot n (checkSlots n p)

/-! ## Stage 3: chains and sequences (R43) -/

/-- The slots below `n` that hold a live record, ascending. -/
def State.liveSlots (s : State) (n : Nat) : List Nat :=
  (List.range n).filter fun i => (s.slot i).state.live

/-- Places a slot in a chain, given as (sequence, slot) in ascending order of sequence; `none` when its
sequence is already there (R43). -/
def insertChain (sequence slot : Nat) : List (Nat × Nat) → Option (List (Nat × Nat))
  | [] => some [(sequence, slot)]
  | (q, n) :: rest =>
    if sequence = q then none
    else if sequence < q then some ((sequence, slot) :: (q, n) :: rest)
    else (insertChain sequence slot rest).map fun c => (q, n) :: c

/-- The chain of a matter from its slots in ascending order; a record with a sequence already placed
becomes DAMAGED (R43). -/
def buildChain : List Nat → List (Nat × Nat) → State → List (Nat × Nat) × State
  | [], c, s => (c, s)
  | n :: rest, c, s =>
    match insertChain (s.slot n).sequence n c with
    | some c' => buildChain rest c' s
    | none => buildChain rest c (s.damage n)

/-- Sets each record's chain next to the record after it (R43). -/
def State.chainSlots : List (Nat × Nat) → State → State
  | [], s => s
  | (_, n) :: rest, s =>
    chainSlots rest
      (s.settleSlot n { s.slot n with chainNext := rest.head?.map Prod.snd })

/-- The next sequence after stage 3 (R43). -/
def rebuiltSequence (stored : Nat) (largest : Option Nat) : Nat :=
  match largest with
  | none => stored
  | some l => if stored = 0 ∨ l = 65535 then 0 else max stored (l + 1)

/-- A directory entry after stage 3 (R43). -/
def Matter.rebuilt (chain : List (Nat × Nat)) (m : Matter) : Matter :=
  { m with
    recordCount := chain.length
    head := chain.head?.map Prod.snd
    tail := chain.getLast?.map Prod.snd
    nextSequence := rebuiltSequence m.nextSequence (chain.getLast?.map Prod.fst) }

/-- Rewrites a directory entry whose fields have changed. -/
def State.settleMatter (place : Nat) (m : Matter) (s : State) : State :=
  if s.matterAt place = m then s else s.putMatter place m

/-- Rebuilds the chain of one matter (R43). -/
def State.rebuildChain (live : List Nat) (e : IndexEntry) (s : State) : State :=
  let (chain, built) := buildChain (live.filter fun n => (s.slot n).matter = e.matter) [] s
  (built.chainSlots chain).settleMatter e.place ((built.matterAt e.place).rebuilt chain)

/-- Stage 3 over the matters of the index. -/
def State.rebuildChains (live : List Nat) : List IndexEntry → State → State
  | [], s => s
  | e :: rest, s => rebuildChains live rest (s.rebuildChain live e)

/-! ## Stage 4: plate chains (R44) -/

/-- Walks a plate chain, claiming the plates; `more` plates follow this one. The claim map is a number
whose bit p says that plate p is claimed. `none` is a failed walk (R44). -/
def State.walkPlates (s : State) (p claims : Nat) : Nat → Option (Nat × Nat)
  | 0 => if claims.testBit p then none else some (p, claims ||| 2 ^ p)
  | more + 1 =>
    if claims.testBit p then none
    else
      match (s.link p).next with
      | none => none
      | some q => s.walkPlates q (claims ||| 2 ^ p) more

/-- The walk of a record: its last plate and the claims after it, or `none` when it fails (R44). -/
def State.walkRecord (s : State) (r : Record) (claims : Nat) : Option (Nat × Nat) :=
  match r.plateHead with
  | none => none
  | some head =>
    match s.walkPlates head claims (r.plateCount - 1) with
    | none => none
    | some (last, claimed) => if r.plateTail = some last then some (last, claimed) else none

/-- A record that fails its walk becomes DAMAGED and leaves its matter's chain (R5, R44). -/
def State.failWalk (slot : Nat) (s : State) : State :=
  let r := s.slot slot
  let prev := s.chainBefore slot r.place
  ((s.damage slot).unlinkSlot prev r).editMatter r.place (Matter.leave slot prev r)

/-- Stage 4 for one live record (R44). -/
def claimPlates (slot : Nat) (p : State × Nat) : State × Nat :=
  let (s, claims) := p
  let r := s.slot slot
  if r.state.live && r.image = .resident && 0 < r.plateCount then
    match s.walkRecord r claims with
    | none => (s.failWalk slot, claims)
    | some (last, claimed) =>
      (if (s.link last).next.isSome then s.putNext last none else s, claimed)
  else p

/-- Stage 4 over slots in the order given. -/
def claimAll : List Nat → State × Nat → State × Nat
  | [], p => p
  | n :: rest, p => claimAll rest (claimPlates n p)

/-! ## Stage 5: the free plate queue (R45) -/

/-- Chains the unclaimed plates below `n`, from the highest down, before the queue already formed
(R45). -/
def formQueue (claims : Nat) : Nat → FreeQueue → State → FreeQueue × State
  | 0, q, s => (q, s)
  | n + 1, q, s =>
    if claims.testBit n then formQueue claims n q s
    else
      formQueue claims n
        { head := some n
          tail := match q.tail with
            | some t => some t
            | none => some n
          length := q.length + 1 }
        (s.putNext n q.head)

/-! ## Stage 6: closing writes (R46) -/

/-- A continuation field kept only where the partner is live and names the record back (R46). -/
def State.keptLink (s : State) (field : Option Word) (back : Record → Option Word) (folio : Word) :
    Option Word :=
  match field with
  | none => none
  | some f =>
    match s.resolve f with
    | .ok q => if back q = some folio then some f else none
    | .error _ => none

/-- Settles the continuation links of one live record (R46). -/
def State.settleLinks (slot : Nat) (s : State) : State :=
  let r := s.slot slot
  if r.state.live then
    s.settleSlot slot
      { r with
        predecessor := s.keptLink r.predecessor Record.successor (r.folio slot)
        successor := s.keptLink r.successor Record.predecessor (r.folio slot) }
  else s

/-- Stage 6's links over slots in the order given. -/
def State.settleAllLinks : List Nat → State → State
  | [], s => s
  | n :: rest, s => settleAllLinks rest (s.settleLinks n)

/-- Stage 6's removals of empty matters (R7, R46). -/
def State.removeEmpty : List IndexEntry → State → State
  | [], s => s
  | e :: rest, s => removeEmpty rest (s.testRemoval e.place)

/-- Slots below `n` in a state. -/
def State.countSlots (s : State) (n : Nat) (test : RecordState → Bool) : Nat :=
  (List.range n).countP fun i => test (s.slot i).state

/-! ## The rebuild (R38, R47) -/

/-- The rebuild over so many slots, places and plates, up to its READY notice (R39 to R47). -/
def State.rebuildOver (slots places plates : Nat) (s : State) : State :=
  let checked := ascending State.checkPlace places s
  let (tied, recreated) := checkSlots slots (checked, 0)
  let live := tied.liveSlots slots
  let chained := tied.rebuildChains live tied.folio.index
  let (claimed, claims) := claimAll live (chained, 0)
  let (queue, queued) := formQueue claims plates {} claimed
  let linked := queued.settleAllLinks live
  let trimmed := linked.removeEmpty linked.folio.index
  let free := trimmed.countSlots slots (· = .free)
  State.postFolio
    (.ready recreated (trimmed.countSlots slots RecordState.live)
      (trimmed.countSlots slots (· = .damaged)) queue.length)
    { trimmed with folio.freeSlots := free, images.free := queue, port.starting := false }

/-- READY: the rebuild of the part's own record memory, while STARTING is set (R38, R47). -/
def State.rebuild (s : State) : State :=
  if s.port.starting then s.rebuildOver Config.slotCount Config.placeCount Config.plateCount else s

/-! ## Resets (R34, R38, R178) -/

/-- The line settings the reset pin leaves: the latches are kept (R178). -/
def keepLatches (v : Vector LineSetting 24) : Vector LineSetting 24 :=
  ⟨(v.toList.map fun c => { latch := c.latch }).toArray, by simp⟩

/-- A reset: every block at its reset values; record memory as the cut leaves it, image memory and what
the board does to the pins as they were (R34, R37, R38, R153). -/
def State.resetTo (settings : Vector LineSetting 24) (cut : Option Cut) (s : State) : State :=
  { State.reset with
    record := s.cutRecord cut
    images.memory := s.images.memory
    lines := { settings := settings, board := s.lines.board }
    draws := s.draws + 1
    pending := s.pending }

/-! ## The rows -/

/-- POWER_ON (R38). -/
def execPowerOn (cut : Option Cut) (s : State) : StepResult :=
  .next (s.resetTo (Vector.replicate 24 {}) cut)
/-- RESET_PIN (R178). -/
def execResetPin (cut : Option Cut) (s : State) : StepResult :=
  .next (s.resetTo (keepLatches s.lines.settings) cut)
/-- READY (R47). -/
def execReady (s : State) : StepResult := complete State.rebuild s

end Sys2Proof.Machine
end

