-- ==== Sys2Proof/Machine/Port.lean ====
section
/-! DEFINITION. The Request Port (spec/11_the_request_port.md): words written to REQUEST, requests taken
and passed to their owners, and the host's reads and writes of the other locations. -/

namespace Sys2Proof.Machine

/-! ## Requests by code (R186) -/

/-- What serves a request: the change it makes and its reply. -/
abbrev Owner := State → State × Reply

/-- A request with so many argument words; with another number it is not one its rule accepts (R186). -/
def noWords (owner : Owner) : List Word → Option Owner
  | [] => some owner
  | _ => none
def oneWord (owner : Word → Owner) : List Word → Option Owner
  | [a] => some (owner a)
  | _ => none
def twoArgs (owner : Word → Word → Owner) : List Word → Option Owner
  | [a, b] => some (owner a b)
  | _ => none
def threeArgs (owner : Word → Word → Word → Owner) : List Word → Option Owner
  | [a, b, c] => some (owner a b c)
  | _ => none
def fourArgs (owner : Word → Word → Word → Word → Owner) : List Word → Option Owner
  | [a, b, c, d] => some (owner a b c d)
  | _ => none
def sixArgs (owner : Word → Word → Word → Word → Word → Word → Owner) : List Word → Option Owner
  | [a, b, c, d, e, f] => some (owner a b c d e f)
  | _ => none
/-- A request with a first word and one or more further words (R75, R104). -/
def listArgs (owner : Word → List Word → Owner) : List Word → Option Owner
  | a :: b :: rest => some (owner a (b :: rest))
  | _ => none

/-- The requests of the Folio Table, codes 10h to 1Ch, by the code's second digit (01, section 1.5). -/
def folioOwner (args : List Word) : Nat → Option Owner
  | 0x0 => oneWord ownerLookup args
  | 0x1 => threeArgs (fun high low => ownerFind (Long.ofWords high low)) args
  | 0x2 => oneWord ownerNextInMatter args
  | 0x3 => oneWord ownerReadExceptions args
  | 0x4 => twoArgs ownerSetRetention args
  | 0x5 => threeArgs (fun folio high low => ownerRefile folio (Long.ofWords high low)) args
  | 0x6 => oneWord ownerHold args
  | 0x7 => oneWord ownerRelease args
  | 0x8 => twoArgs (fun high low => ownerHoldMatter (Long.ofWords high low)) args
  | 0x9 => twoArgs (fun high low => ownerReleaseMatter (Long.ofWords high low)) args
  | 0xA => twoArgs ownerRetire args
  | 0xB => oneWord ownerShedImage args
  | 0xC => oneWord ownerPurgeSlot args
  | _ => none

/-- The requests of the Document Assembler, codes 20h to 23h (03). -/
def assemblerOwner (args : List Word) : Nat → Option Owner
  | 0x0 => sixArgs (fun tray high low => ownerMountTray tray (Long.ofWords high low)) args
  | 0x1 => oneWord ownerDismountTray args
  | 0x2 => oneWord ownerReadTray args
  | 0x3 => oneWord ownerCloseDocument args
  | _ => none

/-- The requests of the Term Evaluator, codes 30h to 33h (04). -/
def termOwner (args : List Word) : Nat → Option Owner
  | 0x0 => listArgs ownerLoadTerms args
  | 0x1 => noWords ownerClearTerms args
  | 0x2 => noWords ownerCheckTerms args
  | 0x3 => oneWord ownerReadTerms args
  | _ => none

/-- The requests of the Sheet Tracker and of the Deskew Engine, codes 40h to 46h (05, 06). -/
def pathOwner (args : List Word) : Nat → Option Owner
  | 0x0 => noWords ownerReadTrain args
  | 0x1 => oneWord ownerReadTicket args
  | 0x2 => listArgs ownerSetPath args
  | 0x3 => oneWord ownerReadPath args
  | 0x4 => noWords ownerClearTrain args
  | 0x5 => twoArgs ownerSetSkew args
  | 0x6 => noWords ownerReadSkew args
  | _ => none

/-- The requests of the Image Memory Controller, codes 50h to 56h (07, 08). -/
def imageOwner (args : List Word) : Nat → Option Owner
  | 0x0 => oneWord ownerSetArbiter args
  | 0x1 => twoArgs ownerMaskChannel args
  | 0x2 => noWords ownerReadChannels args
  | 0x3 => oneWord ownerVerify args
  | 0x4 => noWords ownerCancelVerify args
  | 0x5 => oneWord ownerOpenExport args
  | 0x6 => noWords ownerCancelExport args
  | _ => none

/-- The requests of the Batch Controller, codes 60h to 65h (09). -/
def batchOwner (args : List Word) : Nat → Option Owner
  | 0x0 => fourArgs (fun high low => ownerStartBatch (Long.ofWords high low)) args
  | 0x1 => noWords ownerPauseFeed args
  | 0x2 => noWords ownerResumeFeed args
  | 0x3 => noWords ownerStopBatch args
  | 0x4 => noWords ownerAbortBatch args
  | 0x5 => noWords ownerReadBatch args
  | _ => none

/-- The requests of the Line Port, codes 70h and 71h (10). -/
def lineOwner (args : List Word) : Nat → Option Owner
  | 0x0 => sixArgs ownerSetLine args
  | 0x1 => noWords ownerReadLines args
  | _ => none

/-- The owner of a request of a code with its argument words; `none` where the code names no request or
the argument count is not one the owning rule accepts (R186). -/
def ownerOf (code : Nat) (args : List Word) : Option Owner :=
  match code / 16 with
  | 1 => folioOwner args (code % 16)
  | 2 => assemblerOwner args (code % 16)
  | 3 => termOwner args (code % 16)
  | 4 => pathOwner args (code % 16)
  | 5 => imageOwner args (code % 16)
  | 6 => batchOwner args (code % 16)
  | 7 => lineOwner args (code % 16)
  | _ => none

/-- The owner of a request, or the port's own BAD REQUEST (R186). -/
def ownerOrBad (code : Nat) (args : List Word) : Owner :=
  match ownerOf code args with
  | some owner => owner
  | none => refused .badRequest

/-! ## The request FIFO (R186, R187) -/

/-- A write to REQUEST: the word joins the FIFO; on a full FIFO it is an overrun; while OVERRUN is set
it is dropped (R187). -/
def State.writeRequest (w : Word) (s : State) : State :=
  if s.port.overrun then s
  else if Config.fifoWords ≤ s.port.requests.length then
    { s with port.requests := [], port.overrun := true }
  else { s with port.requests := s.port.requests ++ [w] }

/-- The port takes the request at the head, once the FIFO holds all its words and the reply FIFO has room
for its largest reply (R186). -/
def State.takeRequest (s : State) : State :=
  match s.port.requests with
  | [] => s
  | header :: rest =>
    let count := requestCount header
    let code := requestCode header
    if rest.length < count ∨ !s.canAnswer (largestReply code) then s
    else
      serve (requestTag header) (ownerOrBad code (rest.take count))
        { s with port.requests := rest.drop count }

/-! ## Reads (R185, R189, R190) -/

/-- A read of REPLY (R185). -/
def State.readReply (s : State) : State :=
  match s.port.replies with
  | [] => { s with port.dataOut := 0 }
  | w :: rest => { s with port.replies := rest, port.dataOut := w }

/-- A read of NOTICE: the word at the pointer, which advances; word 3 removes the notice, and the freed
place goes to a producer that keeps one (R189). -/
def State.readNotice (s : State) : State :=
  match s.port.notices with
  | [] => { s with port.dataOut := 0 }
  | n :: rest =>
    let w := n.words[s.port.noticeAt.val]?.getD 0
    if s.port.noticeAt = 3 then
      State.postKept { s with port.notices := rest, port.noticeAt := 0, port.dataOut := w }
    else { s with port.noticeAt := s.port.noticeAt + 1, port.dataOut := w }

/-- The status word of a number (R190). -/
def State.statusWord (s : State) (n : Fin 4) : Word :=
  match n with
  | 0 => pack [(2, 0), (1, bit s.port.starting), (1, bit s.port.overrun), (4, s.port.enables.code),
      (4, s.conditions.code), (4, 0)]
  | 1 => pack [(2, 1), (6, s.requestRoom), (2, 0), (6, s.port.replies.length)]
  | 2 => pack [(2, 2), (9, 0), (5, s.port.notices.length)]
  | 3 => pack [(2, 3), (14, s.port.exports.length)]

/-- A read of PORT STATUS (R190). -/
def State.readStatus (s : State) : State :=
  { s with
    port.dataOut := s.statusWord s.port.statusAt
    port.statusAt := s.port.statusAt + 1 }

/-! ## Writes (R185, R187, R190) -/

/-- A write to PORT CONTROL: bit 0 at 1 clears OVERRUN, and bits 15 to 1 have no effect (R185, R187). -/
def State.writeControl (w : Word) (s : State) : State :=
  if clearsOverrun w then { s with port.overrun := false } else s

/-- The enables a word gives (R190). -/
def enablesOf (w : Word) : PortConditions where
  noticeWaiting := w.getLsbD 3
  replyWaiting := w.getLsbD 2
  requestSpace := w.getLsbD 1
  exportWaiting := w.getLsbD 0

/-- A write to INTERRUPT ENABLE (R190). -/
def State.writeEnables (w : Word) (s : State) : State :=
  { s with port.enables := enablesOf w, port.statusAt := 0 }

/-- A write that the rows call one with no effect: to location 3, or to PORT CONTROL (R185). -/
def State.writeIdle (location : IdleLocation) (w : Word) (s : State) : State :=
  match location with
  | .location3 => s
  | .portControl => s.writeControl w

/-! ## The rows -/

/-- REQUEST_WORD (R186). -/
def execRequestWord (w : Word) (s : State) : StepResult := complete (State.writeRequest w) s
/-- TAKE_REQUEST (R186). -/
def execTakeRequest (s : State) : StepResult := complete State.takeRequest s
/-- REPLY_READ (R185). -/
def execReplyRead (s : State) : StepResult := complete State.readReply s
/-- NOTICE_READ (R189). -/
def execNoticeRead (s : State) : StepResult := complete State.readNotice s
/-- PORT_STATUS (R190). -/
def execPortStatus (s : State) : StepResult := complete State.readStatus s
/-- CLEAR_OVERRUN (R187). -/
def execClearOverrun (w : Word) (s : State) : StepResult := complete (State.writeControl w) s
/-- INTERRUPT_ENABLE (R190). -/
def execInterruptEnable (w : Word) (s : State) : StepResult := complete (State.writeEnables w) s
/-- WRITE_NO_EFFECT (R185). -/
def execWriteNoEffect (location : IdleLocation) (w : Word) (s : State) : StepResult :=
  complete (State.writeIdle location w) s

end Sys2Proof.Machine
end

