-- ==== Sys2Proof/Machine/Dispatch.lean ====
section
/-! DEFINITION. The effect of each command on everything but the queue: one arm per row of
spec/opcode_table.json. -/

namespace Sys2Proof.Machine

def exec (i : Instr) (s : State) : Host.Outcome State Fault Refusal :=
  match i with
  | .powerOn cut => Sys2Proof.Machine.execPowerOn cut s
  | .resetPin cut => Sys2Proof.Machine.execResetPin cut s
  | .ready => Sys2Proof.Machine.execReady s
  | .requestWord w => Sys2Proof.Machine.execRequestWord w s
  | .takeRequest => Sys2Proof.Machine.execTakeRequest s
  | .replyRead => Sys2Proof.Machine.execReplyRead s
  | .noticeRead => Sys2Proof.Machine.execNoticeRead s
  | .portStatus => Sys2Proof.Machine.execPortStatus s
  | .exportData => Sys2Proof.Machine.execExportData s
  | .clearOverrun w => Sys2Proof.Machine.execClearOverrun w s
  | .interruptEnable w => Sys2Proof.Machine.execInterruptEnable w s
  | .writeNoEffect location w => Sys2Proof.Machine.execWriteNoEffect location w s
  | .lookup tag folio => Sys2Proof.Machine.execLookup tag folio s
  | .find tag matter sequence => Sys2Proof.Machine.execFind tag matter sequence s
  | .nextInMatter tag folio => Sys2Proof.Machine.execNextInMatter tag folio s
  | .readExceptions tag folio => Sys2Proof.Machine.execReadExceptions tag folio s
  | .setRetention tag folio day => Sys2Proof.Machine.execSetRetention tag folio day s
  | .refile tag folio matter => Sys2Proof.Machine.execRefile tag folio matter s
  | .hold tag folio => Sys2Proof.Machine.execHold tag folio s
  | .release tag folio => Sys2Proof.Machine.execRelease tag folio s
  | .holdMatter tag matter => Sys2Proof.Machine.execHoldMatter tag matter s
  | .releaseMatter tag matter => Sys2Proof.Machine.execReleaseMatter tag matter s
  | .retire tag folio today => Sys2Proof.Machine.execRetire tag folio today s
  | .shedImage tag folio => Sys2Proof.Machine.execShedImage tag folio s
  | .purgeSlot tag slot => Sys2Proof.Machine.execPurgeSlot tag slot s
  | .mountTray tag tray box soft hard fill => Sys2Proof.Machine.execMountTray tag tray box soft hard fill s
  | .dismountTray tag tray => Sys2Proof.Machine.execDismountTray tag tray s
  | .readTray tag tray => Sys2Proof.Machine.execReadTray tag tray s
  | .closeDocument tag flag => Sys2Proof.Machine.execCloseDocument tag flag s
  | .loadTerms tag first terms => Sys2Proof.Machine.execLoadTerms tag first terms s
  | .clearTerms tag => Sys2Proof.Machine.execClearTerms tag s
  | .checkTerms tag => Sys2Proof.Machine.execCheckTerms tag s
  | .readTerms tag first => Sys2Proof.Machine.execReadTerms tag first s
  | .readTrain tag => Sys2Proof.Machine.execReadTrain tag s
  | .readTicket tag ordinal => Sys2Proof.Machine.execReadTicket tag ordinal s
  | .setPath tag first values => Sys2Proof.Machine.execSetPath tag first values s
  | .readPath tag first => Sys2Proof.Machine.execReadPath tag first s
  | .clearTrain tag => Sys2Proof.Machine.execClearTrain tag s
  | .setSkew tag limit threshold => Sys2Proof.Machine.execSetSkew tag limit threshold s
  | .readSkew tag => Sys2Proof.Machine.execReadSkew tag s
  | .setArbiter tag mode => Sys2Proof.Machine.execSetArbiter tag mode s
  | .maskChannel tag channel mask => Sys2Proof.Machine.execMaskChannel tag channel mask s
  | .readChannels tag => Sys2Proof.Machine.execReadChannels tag s
  | .verify tag folio => Sys2Proof.Machine.execVerify tag folio s
  | .cancelVerify tag => Sys2Proof.Machine.execCancelVerify tag s
  | .openExport tag folio => Sys2Proof.Machine.execOpenExport tag folio s
  | .cancelExport tag => Sys2Proof.Machine.execCancelExport tag s
  | .startBatch tag matter cls duplex => Sys2Proof.Machine.execStartBatch tag matter cls duplex s
  | .pauseFeed tag => Sys2Proof.Machine.execPauseFeed tag s
  | .resumeFeed tag => Sys2Proof.Machine.execResumeFeed tag s
  | .stopBatch tag => Sys2Proof.Machine.execStopBatch tag s
  | .abortBatch tag => Sys2Proof.Machine.execAbortBatch tag s
  | .readBatch tag => Sys2Proof.Machine.execReadBatch tag s
  | .setLine tag line direction latch pull active enable => Sys2Proof.Machine.execSetLine tag line direction latch pull active enable s
  | .readLines tag => Sys2Proof.Machine.execReadLines tag s
  | .travelPulse zones left front back => Sys2Proof.Machine.execTravelPulse zones left front back s
  | .windowPasses ordinal arrival => Sys2Proof.Machine.execWindowPasses ordinal arrival s
  | .gateClaim ordinal gate => Sys2Proof.Machine.execGateClaim ordinal gate s
  | .gateRelease ordinal gate => Sys2Proof.Machine.execGateRelease ordinal gate s
  | .stall => Sys2Proof.Machine.execStall s
  | .feedWindowPasses => Sys2Proof.Machine.execFeedWindowPasses s
  | .entryLeadingEdge => Sys2Proof.Machine.execEntryLeadingEdge s
  | .entryTrailingEdge => Sys2Proof.Machine.execEntryTrailingEdge s
  | .edgeSensorLeadingEdge sensor => Sys2Proof.Machine.execEdgeSensorLeadingEdge sensor s
  | .scanLeadingEdge => Sys2Proof.Machine.execScanLeadingEdge s
  | .scanTrailingEdge => Sys2Proof.Machine.execScanTrailingEdge s
  | .flushLine side => Sys2Proof.Machine.execFlushLine side s
  | .exitLeadingEdge exit => Sys2Proof.Machine.execExitLeadingEdge exit s
  | .exitTrailingEdge exit => Sys2Proof.Machine.execExitTrailingEdge exit s
  | .rejectFullLineChange drive => Sys2Proof.Machine.execRejectFullLineChange drive s
  | .feedTest => Sys2Proof.Machine.execFeedTest s
  | .bandTransferDone => Sys2Proof.Machine.execBandTransferDone s
  | .decision switch0 switch1 => Sys2Proof.Machine.execDecision switch0 switch1 s
  | .decisionOutcome => Sys2Proof.Machine.execDecisionOutcome s

end Sys2Proof.Machine
end

