-- ==== Sys2Proof/Safety.lean ====
section
/-! DEFINITION. What counts as a safe run, in the terms claims use: which of the part's own events are
due in a state, what every step keeps, and what a run that only takes due events is (log 3). -/

namespace Sys2Proof.Safety

open Sys2Proof.Machine

/-- Whether the request at the head of the FIFO can be taken (R186). -/
def requestReady (s : State) : Bool :=
  match s.port.requests with
  | [] => false
  | header :: rest =>
    requestCount header ≤ rest.length && s.canAnswer (largestReply (requestCode header))

/-- Whether the ticket of an ordinal passes a test. -/
def onTicket (s : State) (ordinal : Word) (test : Ticket → Bool) : Bool :=
  match s.ticket ordinal with
  | some t => test t
  | none => false

/-- Whether an event of the part's own is due. What the host, the board and the passing of time bring
may come at any moment: those are always due, the expiry of the stall timer while it runs. -/
def due (s : State) : Instr → Bool
  | .ready => s.port.starting
  | .takeRequest => requestReady s
  | .windowPasses ordinal arrival =>
    s.acts && onTicket s ordinal fun t => (s.windowPassed t arrival).isSome
  | .gateClaim ordinal k => s.acts && onTicket s ordinal (s.claimDue k)
  | .gateRelease ordinal k => s.acts && onTicket s ordinal (s.releaseDue k)
  | .stall => s.acts && s.tracker.stallTimer.isSome
  | .feedWindowPasses => s.feedWindowPassed
  | .feedTest => s.batch.state = .running && s.batch.feeder = .atRest
  | .flushLine d => !s.tracker.stopped && (s.side d).canFlush
  | .bandTransferDone => s.images.transfer.isSome
  | .decision _ _ => s.acts && s.claimed.isSome
  | .decisionOutcome => !s.assembler.outcomes.isEmpty
  | _ => true

/-- The arrivals a window can pass for. -/
def arrivals : List Arrival :=
  [.entryTrailing, .firstEdge, .secondEdge, .scanLeading, .scanTrailing, .exitLeading, .exitTrailing]

/-- The events of the part's own that a travel pulse can bring, in the order R113 and R108 give them to
one pulse: releases, then claims, then windows. -/
def travelEvents (s : State) : List Instr :=
  let gates := List.finRange 4
  (s.tracker.train.map fun t => gates.map fun k => .gateRelease t.ordinal k).flatten ++
  (s.tracker.train.map fun t => gates.map fun k => .gateClaim t.ordinal k).flatten ++
  (s.tracker.train.map fun t => arrivals.map fun a => .windowPasses t.ordinal a).flatten ++
  [.feedWindowPasses]

/-- The events of the part's own that are due, but for those that wait on memory or on time. -/
def dueEvents (s : State) : List Instr :=
  let inside : List Instr :=
    [.flushLine .front, .flushLine .back, .decision s.lines.board[22] s.lines.board[23],
      .decisionOutcome, .takeRequest, .feedTest]
  (travelEvents s ++ inside).filter (due s)

/-! ## What every step keeps -/

/-- Both memories are in canonical form. -/
def Canonical (s : State) : Prop := s.record.wf = true ∧ Table.wf 0 s.images.memory = true

/-- Every byte of record memory outside the named slots, directory places and link entries reads in `t` as
it does in `s` (R35: 64, 32 and 8 bytes an entry). -/
def RecordKept (s t : State) (slots places links : List Nat) : Prop :=
  ∀ a,
    (∀ n ∈ slots, a < n * 64 ∨ n * 64 + 64 ≤ a) →
    (∀ n ∈ places, a < 0x40000 + n * 32 ∨ 0x40000 + n * 32 + 32 ≤ a) →
    (∀ n ∈ links, a < 0x80000 + n * 8 ∨ 0x80000 + n * 8 + 8 ≤ a) →
    t.recordByte a = s.recordByte a

/-- The port's two queues the host or the part fills one by one, the train, and the arbiter's order are
within what the part holds (R100, R147, R186, R189). -/
def Bounded (s : State) : Prop :=
  s.port.requests.length ≤ Config.fifoWords ∧
  s.port.notices.length ≤ Config.noticePlaces ∧
  s.tracker.train.length ≤ Config.trainTickets ∧
  s.images.order.Perm startingOrder

/-- What the batch, its halt and hold causes, the feeder, the notices the controller keeps, the stopped
condition and the stall timer are at one moment. -/
structure Control where
  state : BatchState
  haltCause : Option HaltCause
  causes : HoldCauses
  stopTaken : Bool
  feeder : Feeder
  kept : Nat
  stopped : Bool
  stallTimer : Option Nat
  deriving DecidableEq, Repr

/-- The control of a state. -/
def controlOf (s : State) : Control where
  state := s.batch.state
  haltCause := s.batch.haltCause
  causes := s.batch.causes
  stopTaken := s.batch.stopTaken
  feeder := s.batch.feeder
  kept := s.batch.kept.length
  stopped := s.tracker.stopped
  stallTimer := s.tracker.stallTimer

/-- The legal controls, one line for each batch state (R106, R120, R163, R166, R170, R172, R177): a
stopped tracker and a halt cause in HALTED only, the feeder AT REST with the motor off, the stall timer
running with the motor on, hold causes that agree with the state, and at most two notices kept. -/
def Control.legal (c : Control) : Prop :=
  match c.state with
  | .idle =>
    c.haltCause = none ∧ c.causes = {} ∧ c.stopTaken = false ∧ c.feeder = .atRest ∧ c.kept ≤ 2 ∧
      c.stopped = false ∧ c.stallTimer = none
  | .running =>
    c.haltCause = none ∧ c.causes = {} ∧ c.stopTaken = false ∧ c.kept = 0 ∧ c.stopped = false ∧
      c.stallTimer.isSome
  | .feedHold =>
    c.haltCause = none ∧ c.causes ≠ {} ∧ c.stopTaken = false ∧ c.kept ≤ 1 ∧ c.stopped = false ∧
      c.stallTimer.isSome
  | .draining =>
    c.haltCause = none ∧ c.stopTaken = true ∧ c.kept ≤ 1 ∧ c.stopped = false ∧ c.stallTimer.isSome
  | .halted =>
    c.haltCause.isSome ∧ c.feeder = .atRest ∧ c.kept ≤ 2 ∧ c.stopped = true ∧ c.stallTimer = none

/-- The control of a state is legal. -/
def Legal (s : State) : Prop := (controlOf s).legal

/-! ## Orderly runs -/

/-- Whether every command of a queue is due when its turn comes, up to the first stop. -/
def orderly : List Instr → State → Bool
  | [], _ => true
  | c :: rest, s =>
    c.wellFormed && due s c &&
      match exec c s with
      | .next t => orderly rest t
      | _ => true

/-- A state from which the block runs its whole queue without a stop. -/
def runs : List Instr → State → Bool
  | [], _ => true
  | c :: rest, s =>
    match exec c s with
    | .next t => runs rest t
    | _ => false

end Sys2Proof.Safety
end

