-- ==== Sys2Proof/Certificates/Slice0/Obligations.lean ====
section
/-! DEFINITION. The statements for the provers. A helper in the namespace `Claims` says once what many
statements share; each obligation's docstring names the rules it rests on. -/

namespace Sys2Proof.Claims

open Sys2Proof.Machine Sys2Proof.Safety

/-! ## What the statements share -/

/-- The words of a reply (R188): the code in bits 15 to 11, the result word count in bits 10 to 6, bit 5
zero, the tag in bits 4 to 0, and the result words behind. -/
def replyWords (code : Nat) (tag : Tag) (results : List Word) : List Word :=
  BitVec.ofNat 16 (code * 2048 + results.length % 32 * 64 + tag.toNat) :: results

/-- A request can be taken and served (R186): STARTING is clear, and the reply FIFO has room for its
largest reply, `most` words. -/
def Takes (most : Nat) (s : State) : Prop :=
  s.port.starting = false ∧ s.port.replies.length + most ≤ 32

/-- The reply joins the reply FIFO and the port changes in nothing else (R188). -/
def Answers (s t : State) (code : Nat) (tag : Tag) (results : List Word) : Prop :=
  t.port = { s.port with replies := s.port.replies ++ replyWords code tag results }

/-- The blocks whose state a statement names. -/
inductive Part where
  | port | folio | record | assembler | evaluator | tracker | engine | images | batch | lines
  deriving DecidableEq, Repr

/-- Every block but those named, and the queue, is as it was. -/
def Unchanged (but : List Part) (s t : State) : Prop :=
  (.port ∉ but → t.port = s.port) ∧ (.folio ∉ but → t.folio = s.folio) ∧
  (.record ∉ but → t.record = s.record) ∧ (.assembler ∉ but → t.assembler = s.assembler) ∧
  (.evaluator ∉ but → t.evaluator = s.evaluator) ∧ (.tracker ∉ but → t.tracker = s.tracker) ∧
  (.engine ∉ but → t.engine = s.engine) ∧ (.images ∉ but → t.images = s.images) ∧
  (.batch ∉ but → t.batch = s.batch) ∧ (.lines ∉ but → t.lines = s.lines) ∧ t.pending = s.pending

/-- The command completes, and the state after it is as `holds` says. -/
def After (i : Instr) (s : State) (holds : State → Prop) : Prop :=
  ∃ t, exec i s = .next t ∧ holds t

/-- The command answers and changes nothing but the reply FIFO. -/
def Reads (i : Instr) (s : State) (code : Nat) (tag : Tag) (results : List Word) : Prop :=
  After i s fun t => Answers s t code tag results ∧ Unchanged [.port] s t

/-- The command changes nothing. -/
def Idles (i : Instr) (s : State) : Prop := After i s fun t => Unchanged [] s t

/-- A folio number names a live record (R2). -/
def Names (s : State) (folio : Word) (r : Record) : Prop :=
  s.slot (folio.toNat / 16) = r ∧ r.generation = folio.extractLsb' 0 4 ∧
    (r.state = .assembling ∨ r.state = .filing ∨ r.state = .filed)

/-- The effective hold of a record (R9). -/
def Held (s : State) (r : Record) : Prop :=
  0 < r.holdCount ∨ 0 < (s.matterAt r.place).holdCount

/-- One record slot has been written whole, with its check word (R36), and every other byte of record
memory reads as before. -/
def SlotWritten (s t : State) (slot : Nat) (r : Record) : Prop :=
  t.slotEntry slot = { fields := r, check := crc16 r.bytes } ∧ RecordKept s t [slot] [] []

/-- One directory place has been written whole, a free one as zero bytes (R36), and every other byte of
record memory reads as before. -/
def PlaceWritten (s t : State) (place : Nat) (m : Matter) : Prop :=
  t.placeEntry place = (if m.number = 0 then {} else { fields := m, check := crc16 m.bytes }) ∧
    RecordKept s t [] [place] []

/-- A matter stands in the directory at a place (R4). -/
def InDirectory (s : State) (matter : Long) (place : Nat) : Prop :=
  ∃ pinned, s.findMatter matter = some { matter := matter, place := place, pinned := pinned }

/-- A matter is not in the directory (R4). -/
def NotInDirectory (s : State) (matter : Long) : Prop := s.findMatter matter = none

/-- The chain of slots from a slot on, by the chain-next fields (R5). -/
def ChainFrom (s : State) : Option Nat → List Nat → Prop
  | h, [] => h = none
  | h, n :: rest => h = some n ∧ ChainFrom s (s.slot n).chainNext rest

/-- The train with one ticket changed. -/
def changed (s : State) (ordinal : Word) (f : Ticket → Ticket) : List Ticket :=
  s.tracker.train.map fun u => if u.ordinal = ordinal then f u else u

/-- The folio number of a slot as its record stands (R2). -/
def folioNumber (s : State) (slot : Nat) : Word :=
  BitVec.ofNat 16 (slot * 16 + (s.slot slot).generation.toNat)

end Sys2Proof.Claims

open Sys2Proof Sys2Proof.Machine Sys2Proof.Safety Sys2Proof.Claims

/-! ## The step and what it keeps -/

/-- A step takes the command at the front of the queue and runs it on the state with the queue's rest; on
an empty queue the block idles (log 3). -/
def Obligations.StepRunsFront : Prop :=
  (∀ (s : State) (c : Instr) (rest : List Instr), s.pending = c :: rest →
    step s = exec c { s with pending := rest }) ∧
  ∀ s : State, s.pending = [] → step s = .next s

/-- Every command completes, whatever the state, and leaves the queue as it is: the manual gives the block
no fault and no stop. -/
def Obligations.EveryCommandCompletes : Prop :=
  ∀ (c : Instr) (s : State), After c s fun t => t.pending = s.pending

/-- Every step keeps both memories in canonical form: keys rising, nothing listed that reads as
unlisted. -/
def Obligations.CanonicalKept : Prop :=
  ∀ s t : State, Canonical s → step s = .next t → Canonical t

/-- Every step keeps the bounds of R100, R147, R186 and R189: at most 32 words in the request FIFO, 16
notices, six tickets, and a priority order that names each channel once. -/
def Obligations.BoundedKept : Prop :=
  ∀ s t : State, Bounded s → step s = .next t → Bounded t

/-- Every step keeps the control of the batch legal (R106, R120, R163, R166, R170, R172, R177). -/
def Obligations.LegalKept : Prop :=
  ∀ s t : State, Legal s → step s = .next t → Legal t

/-- The state right after power-on meets the three invariants. -/
def Obligations.ResetMeetsInvariants : Prop :=
  Canonical State.reset ∧ Bounded State.reset ∧ Legal State.reset

/-! ## Resets (R34, R37, R49, R50, R92, R103, R124, R137, R153, R177, R178, R185) -/

/-- Both resets, in any state: the port, the on-chip tables, the Assembler, the evaluator, the tracker,
the engine, the four channels and the batch are at the values their chapters give, with no side and no run
in hand, no notice kept and no outcome on its way; image memory is kept; record memory is kept but for the
writes a cut takes back. (The model's choices here: log 6.) -/
def Obligations.ResetsLeave : Prop :=
  ∀ (s : State) (cut : Option Cut) (i : Instr), i = .powerOn cut ∨ i = .resetPin cut →
    After i s fun t =>
      (t.port.requests = [] ∧ t.port.replies = [] ∧ t.port.notices = [] ∧ t.port.exports = [] ∧
        t.port.noticeAt = 0 ∧ t.port.statusAt = 0 ∧ t.port.overrun = false ∧ t.port.starting = true ∧
        t.port.enables = ⟨false, false, false, false⟩ ∧ t.int = false) ∧
      (t.folio.index = [] ∧ t.folio.auditMark = none ∧ t.folio.exportMark = none ∧
        t.folio.freeSlots = 0 ∧ t.folio.kept = []) ∧
      (t.assembler.openDocument = none ∧ t.assembler.marker = false ∧
        t.assembler.lastClosed = none ∧ t.assembler.rotation = 0 ∧
        (∀ k : TrayIx, t.assembler.trays[k] = ⟨false, 0, 0, 0, 0, 0⟩) ∧ t.assembler.outcomes = []) ∧
      (t.evaluator.terms = Vector.replicate 64 0 ∧ t.evaluator.stack = [] ∧ t.evaluator.gates = [] ∧
        t.evaluator.outcome = ⟨false, none, .none, false⟩ ∧
        (∀ k : Fin 8, t.evaluator.latches[k] = false ∧ t.evaluator.pulses[k] = false ∧
          t.evaluator.memories[k] = false ∧ t.evaluator.marks[k] = false) ∧
        t.evaluator.tags = ⟨false, false, false, false⟩) ∧
      (t.tracker.travel = 0 ∧ t.tracker.nextOrdinal = 1 ∧ t.tracker.lastEntryTrailing = none ∧
        t.tracker.profile = #v[400, 800, 1000, 1600, 9600, 10400, 11200, 12000, 10800, 11600, 12400,
          13200, 13600, 40, 1000, 200, 100, 1600, 6800] ∧
        t.tracker.train = [] ∧ t.tracker.stopped = false ∧ t.tracker.stallTimer = none) ∧
      (t.engine.skewLimit = 280 ∧ t.engine.blankThreshold = 200 ∧ t.engine.measurements = [] ∧
        t.engine.front = {} ∧ t.engine.back = {}) ∧
      (t.images.free = ⟨none, none, 0⟩ ∧
        t.images.front = ⟨.idle, none, none, false, .normal⟩ ∧
        t.images.back = ⟨.idle, none, none, false, .normal⟩ ∧
        t.images.audit = ⟨.idle, none, false, false, .complete, none⟩ ∧
        t.images.exporter = ⟨.idle, none, false, false, .complete⟩ ∧
        t.images.mode = .fixed ∧
        t.images.order = [.captureFront, .captureBack, .audit, .exporter] ∧ t.images.transfer = none) ∧
      (t.batch.state = .idle ∧ t.batch.haltCause = none ∧ t.batch.causes = {} ∧
        t.batch.stopTaken = false ∧ t.batch.feeder = .atRest ∧ t.batch.matter = 0 ∧ t.batch.cls = 0 ∧
        t.batch.duplex = false ∧ t.batch.fed = 0 ∧ t.batch.rejected = 0 ∧ t.batch.opened = 0 ∧
        t.batch.kept = []) ∧
      (∀ l : LineIx, t.lines.settings[l].output = false ∧ t.lines.settings[l].pull = false ∧
        t.lines.settings[l].activeHigh = true ∧ t.lines.settings[l].enabled = false) ∧
      t.images.memory = s.images.memory ∧ (cut = none → t.record = s.record) ∧
      t.pending = s.pending

/-- Power-on sets every line to input, latch low, pull off, active high, disabled; the reset pin does the
same but keeps every latch (R178). That neither changes what the board does to the pins is the model's
choice (log 8). -/
def Obligations.ResetLines : Prop :=
  ∀ (s : State) (cut : Option Cut),
    (After (.powerOn cut) s fun t => (∀ l : LineIx, t.lines.settings[l] =
        ⟨false, false, false, true, false⟩) ∧ t.lines.board = s.lines.board) ∧
    (After (.resetPin cut) s fun t => (∀ l : LineIx, t.lines.settings[l] =
        ⟨false, s.lines.settings[l].latch, false, true, false⟩) ∧ t.lines.board = s.lines.board)

namespace Sys2Proof.Claims

open Sys2Proof.Machine

/-- An entry after the newest writes of a step have been lost (R37): one that none of them wrote is as it
stands, and one that some of them wrote is as it was before the oldest of those. -/
def TakenBack {α : Type} (lost : List RecordWrite) (s t : State) (entry : State → α)
    (write : α → α → RecordWrite) : Prop :=
  ((∀ old new, write old new ∉ lost) → entry t = entry s) ∧
  ∀ newer old new older, lost = newer ++ write old new :: older →
    (∀ o w, write o w ∉ older) → entry t = old

/-- Every entry but those named is taken back. -/
def TakenBackBut (lost : List RecordWrite) (s t : State) (slot place link : Nat → Prop) : Prop :=
  ∀ n, (¬ slot n → TakenBack lost s t (fun x => x.slotEntry n) (.slot n)) ∧
    (¬ place n → TakenBack lost s t (fun x => x.placeEntry n) (.place n)) ∧
    (¬ link n → TakenBack lost s t (fun x => x.link n) (.link n))

end Sys2Proof.Claims

open Sys2Proof.Claims

/-- A reset, either of the two, that falls in the record-memory writes of the step before it (R37). With
every write landed, record memory is as it stands. With the cut before some writes, every entry is as it was
before them. With the cut inside a write, the slot or the directory entry it was writing fails its check
word whatever the torn fields hold, and a link entry, which has none, is partly old and partly new; every
other entry is as it was before. (The model's choices here: log 6 and 7.) -/
def Obligations.ResetInsideAWrite : Prop :=
  ∀ (s : State) (lost earlier : List RecordWrite) (torn : Bool) (i : Instr), Canonical s →
    s.journal = lost ++ earlier →
    (i = .powerOn (some ⟨earlier.length, torn⟩) ∨ i = .resetPin (some ⟨earlier.length, torn⟩)) →
    After i s fun t =>
      (lost = [] → t.record = s.record) ∧
      (torn = false → TakenBackBut lost s t (fun _ => False) (fun _ => False) (fun _ => False)) ∧
      (∀ newer n old new, torn = true → lost = newer ++ [.slot n old new] →
        (t.slotEntry n).checks = false ∧
        TakenBackBut lost s t (fun m => m = n) (fun _ => False) (fun _ => False)) ∧
      (∀ newer n old new, torn = true → lost = newer ++ [.place n old new] →
        (t.placeEntry n).checks = false ∧
        TakenBackBut lost s t (fun _ => False) (fun m => m = n) (fun _ => False)) ∧
      (∀ newer n old new, torn = true → lost = newer ++ [.link n old new] →
        ((t.link n).next = old.next ∨ (t.link n).next = new.next) ∧
        ((t.link n).check = old.check ∨ (t.link n).check = new.check) ∧
        ((t.link n).bandsUsed = old.bandsUsed ∨ (t.link n).bandsUsed = new.bandsUsed) ∧
        ((t.link n).sideStart = old.sideStart ∨ (t.link n).sideStart = new.sideStart) ∧
        ((t.link n).side = old.side ∨ (t.link n).side = new.side) ∧
        TakenBackBut lost s t (fun _ => False) (fun _ => False) (fun m => m = n))

/-! ### What a rebuild leaves (R39 to R46) -/

namespace Sys2Proof.Claims

open Sys2Proof.Machine Sys2Proof.Safety

/-- The plates visited from a plate on by the next-plate fields (R140). -/
def PlatesFrom (s : State) : Option Nat → List Nat → Prop
  | _, [] => True
  | h, p :: rest => h = some p ∧ PlatesFrom s (s.link p).next rest

/-- The plates of a chain by the next-plate fields, from a head to a plate that names none (R140). -/
def PlatesTo (s : State) : Option Nat → List Nat → Prop
  | h, [] => h = none
  | h, p :: rest => h = some p ∧ PlatesTo s (s.link p).next rest

/-- The stage 1 check accepts a directory entry taken alone (R39). -/
def Acceptable (s : State) (p : Nat) : Prop :=
  (s.matterAt p).number ≠ 0 ∧ (s.placeEntry p).check = crc16 (s.matterAt p).bytes ∧
  (s.matterAt p).holdCount ≤ 15 ∧ (s.matterAt p).nextSequence ≤ 65535

/-- A place is accepted for a matter: acceptable, and the lowest such place with its number (R39). -/
def Accepts (s : State) (p : Nat) (m : Long) : Prop :=
  p < 256 ∧ Acceptable s p ∧ (s.matterAt p).number = m ∧
  ∀ q, q < p → Acceptable s q → (s.matterAt q).number ≠ m

/-- All 64 bytes of a slot are zero (R40). -/
def BlankSlot (s : State) (n : Nat) : Prop := ∀ b ∈ (s.slotEntry n).bytes, b = 0

/-- The fields of a record in use are in range (R40). -/
def InRange (r : Record) : Prop :=
  (r.state = .assembling ∨ r.state = .filing ∨ r.state = .filed) ∧ r.matter ≠ 0 ∧ r.sequence ≠ 0 ∧
  1 ≤ r.pageCount ∧ r.pageCount ≤ 250 ∧ r.sideCount ≤ 500 ∧ r.shelved ≤ r.pageCount ∧
  r.outstanding ≤ r.pageCount ∧
  ((r.shelved = 0 ∧ r.firstPosition = none ∧ r.lastPosition = none) ∨
    (0 < r.shelved ∧ ∃ f l, r.firstPosition = some f ∧ r.lastPosition = some l ∧ l + 1 = f + r.shelved)) ∧
  r.plateCount ≤ 27000 ∧
  ((r.plateCount = 0 ∧ r.plateHead = none ∧ r.plateTail = none) ∨
    (0 < r.plateCount ∧ r.plateHead ≠ none ∧ r.plateTail ≠ none)) ∧
  (r.image = .shed → r.plateCount = 0) ∧ r.holdCount ≤ 7 ∧ r.tray ≠ none ∧
  r.exceptions.length ≤ 8 ∧ (r.state = .filed → r.outstanding = 0)

/-- A slot's check word holds (R36, R40). -/
def ChecksOut (s : State) (n : Nat) : Prop :=
  ¬ BlankSlot s n ∧ (s.slotEntry n).check = crc16 (s.slot n).bytes

/-- A slot found to hold a live record in range (R40). -/
def FoundLive (s : State) (n : Nat) : Prop := n < 4096 ∧ ChecksOut s n ∧ InRange (s.slot n)

/-- A live record after normalization (R41): FILED, nothing outstanding, and for one that was ASSEMBLING or
FILING an INTERRUPTED exception. -/
def normalized (r : Record) : Record :=
  if r.state = .filed then r
  else
    { r with
      state := .filed, outstanding := 0
      exceptions := if r.exceptions.length < 8 then r.exceptions ++ [⟨r.pageCount, .interrupted, 0⟩]
        else r.exceptions
      overflow := r.overflow || decide (8 ≤ r.exceptions.length) }

/-- The slots after a rebuild (R40, R41): a blank slot is FREE at generation 0; a slot that fails its check
word or its range is DAMAGED with its other bytes as they stand; a DAMAGED or FREE slot stays; every FILED
slot held a live record, normalized, its chain next, matter index and links set. -/
def SlotsSettled (s t : State) : Prop :=
  ∀ n, n < 4096 →
    (BlankSlot s n → t.slot n = {}) ∧
    (¬ BlankSlot s n → ¬ ChecksOut s n → t.slot n = { s.slot n with state := .damaged }) ∧
    (ChecksOut s n → (s.slot n).state = .damaged ∨ (s.slot n).state = .free →
      t.slotEntry n = s.slotEntry n) ∧
    (ChecksOut s n → (s.slot n).state ≠ .damaged → (s.slot n).state ≠ .free → ¬ InRange (s.slot n) →
      t.slot n = { s.slot n with state := .damaged }) ∧
    (FoundLive s n → (t.slot n).state = .filed ∨ (t.slot n).state = .damaged) ∧
    ((t.slot n).state = .filed → FoundLive s n ∧
      t.slot n = { normalized (s.slot n) with
        place := (t.slot n).place, chainNext := (t.slot n).chainNext
        predecessor := (t.slot n).predecessor, successor := (t.slot n).successor })

/-- The directory and its index after a rebuild (R39, R42, R46): an entry for each place in use, in place
order, none pinned, each accepted with its hold count or recreated with a hold count of 1, and none of them
empty and free of holds; an accepted matter leaves only so; every FILED record stands at its matter's
place. -/
def DirectorySettled (s t : State) : Prop :=
  (∀ e ∈ t.folio.index, e.place < 256 ∧ e.pinned = false ∧ e.matter ≠ 0 ∧
    (t.matterAt e.place).number = e.matter ∧
    (0 < (t.matterAt e.place).recordCount ∨ 0 < (t.matterAt e.place).holdCount) ∧
    ((Accepts s e.place e.matter ∧ (t.matterAt e.place).holdCount = (s.matterAt e.place).holdCount) ∨
      ((∀ p, ¬ Accepts s p e.matter) ∧ (t.matterAt e.place).holdCount = 1))) ∧
  t.folio.index.Pairwise (fun e f => e.place < f.place ∧ e.matter ≠ f.matter) ∧
  (∀ p, p < 256 → (t.matterAt p).number ≠ 0 → ∃ e ∈ t.folio.index, e.place = p) ∧
  (∀ p m, Accepts s p m → (∃ e ∈ t.folio.index, e.place = p ∧ e.matter = m) ∨
    ((s.matterAt p).holdCount = 0 ∧ ∀ n, n < 4096 → (t.slot n).state = .filed →
      (t.slot n).matter ≠ m)) ∧
  ∀ n, n < 4096 → (t.slot n).state = .filed →
    ∃ e ∈ t.folio.index, e.matter = (t.slot n).matter ∧ e.place = (t.slot n).place

/-- The chains after a rebuild (R43): each matter's chain holds exactly its FILED records, in strictly
ascending sequence, and its record count, head and tail are the chain's; its next sequence lies above every
sequence in it, or is exhausted. -/
def ChainsSettled (t : State) : Prop :=
  ∀ e ∈ t.folio.index, ∃ chain : List Nat,
    ChainFrom t (t.matterAt e.place).head chain ∧
    (t.matterAt e.place).recordCount = chain.length ∧
    (t.matterAt e.place).tail = chain.getLast? ∧
    chain.Pairwise (fun m n => (t.slot m).sequence < (t.slot n).sequence) ∧
    (∀ n, n ∈ chain ↔ n < 4096 ∧ (t.slot n).state = .filed ∧ (t.slot n).matter = e.matter) ∧
    ∀ n ∈ chain, (t.matterAt e.place).nextSequence = 0 ∨
      (t.slot n).sequence < (t.matterAt e.place).nextSequence

/-- The plates after a rebuild (R44, R45): each FILED record owns the plates of its chain, as many as its
count, from head to tail; the free plate queue holds in ascending order exactly the plates that no record
owns; and no plate has two owners. -/
def PlatesSettled (t : State) : Prop :=
  ∃ (free : List Nat) (owned : Nat → List Nat),
    PlatesTo t t.images.free.head free ∧ t.images.free.tail = free.getLast? ∧
    t.images.free.length = free.length ∧ free.Pairwise (· < ·) ∧
    (∀ n, n < 4096 → (t.slot n).state = .filed →
      PlatesTo t (t.slot n).plateHead (owned n) ∧ (t.slot n).plateCount = (owned n).length ∧
      (t.slot n).plateTail = (owned n).getLast? ∧ (owned n).Nodup) ∧
    (∀ m n, m < 4096 → n < 4096 → (t.slot m).state = .filed → (t.slot n).state = .filed → m ≠ n →
      ∀ p ∈ owned m, p ∉ owned n) ∧
    ∀ p, p ∈ free ↔ p < 65536 ∧ ∀ n, n < 4096 → (t.slot n).state = .filed → p ∉ owned n

/-- The continuation links after a rebuild (R46): a link that a FILED record keeps is one it had, and its
partner is live and names it back; a link between two FILED records that named each other is kept. -/
def LinksSettled (s t : State) : Prop :=
  ∀ n, n < 4096 → (t.slot n).state = .filed →
    (∀ f, (t.slot n).successor = some f → (s.slot n).successor = some f ∧
      ∃ q, Names t f q ∧ q.predecessor = some (folioNumber t n)) ∧
    (∀ f, (t.slot n).predecessor = some f → (s.slot n).predecessor = some f ∧
      ∃ q, Names t f q ∧ q.successor = some (folioNumber t n)) ∧
    (∀ f q, (s.slot n).successor = some f → Names t f q →
      (s.slot (f.toNat / 16)).predecessor = some (folioNumber t n) →
      (t.slot n).successor = some f ∧ q.predecessor = some (folioNumber t n))

/-- A live record finds its matter in the directory, or a place for it there (R42). -/
def FindsPlace (s : State) (n : Nat) : Prop :=
  ∃ p, Accepts s p (s.slot n).matter ∨
    (p < 256 ∧ (∀ m, ¬ Accepts s p m) ∧ ∀ m, m < n → FoundLive s m →
      (s.slot m).matter = (s.slot n).matter ∨ ∃ q, Accepts s q (s.slot m).matter)

/-- A walk of a live record's plates (R44), as found. -/
def PlateWalk (s : State) (n : Nat) (plates : List Nat) : Prop :=
  PlatesFrom s (s.slot n).plateHead plates ∧ plates.length = (s.slot n).plateCount

/-- Nothing in what the rebuild finds speaks against a live record (R42 to R44): its matter has a place, no
live record of a lower slot has its matter and sequence, and its walk visits each plate once, ends at its
plate tail and meets no plate that the walk of a lower slot visits. -/
def StandsUp (s : State) (n : Nat) : Prop :=
  FoundLive s n ∧ FindsPlace s n ∧
  (∀ m, m < n → FoundLive s m → (s.slot m).matter = (s.slot n).matter →
    (s.slot m).sequence ≠ (s.slot n).sequence) ∧
  ∃ plates, PlateWalk s n plates ∧ plates.Nodup ∧ plates.getLast? = (s.slot n).plateTail ∧
    ∀ m w, m < n → FoundLive s m → PlateWalk s m w → ∀ p ∈ w, p ∉ plates

/-- The next sequence of each matter after a rebuild (R42, R43), from the stored one, 1 for a matter
recreated, and the live records found with its number: with none of them it stands; otherwise it is the
greater of it and one above the largest sequence found, 0 where that is 65,535 and where it was exhausted. -/
def SequencesSettled (s t : State) : Prop :=
  ∀ e ∈ t.folio.index, ∀ stored : Nat,
    (Accepts s e.place e.matter ∧ stored = (s.matterAt e.place).nextSequence) ∨
      ((∀ p, ¬ Accepts s p e.matter) ∧ stored = 1) →
    let found (n : Nat) := FoundLive s n ∧ (s.slot n).matter = e.matter
    let next := (t.matterAt e.place).nextSequence
    ((∀ n, ¬ found n) → next = stored) ∧
    ∀ n, found n → (∀ m, found m → (s.slot m).sequence ≤ (s.slot n).sequence) →
      next = if stored = 0 ∨ (s.slot n).sequence = 65535 then 0
        else max stored ((s.slot n).sequence + 1)

/-- The READY notice of a rebuild (R47): the matters recreated, the live records, the damaged records and
the free plates. -/
def ReadyPosted (s t : State) : Prop :=
  ∃ made : List Long, made.Nodup ∧
    (∀ m, m ∈ made ↔ (∃ e ∈ t.folio.index, e.matter = m) ∧ ∀ p, ¬ Accepts s p m) ∧
    t.port.notices = [.ready made.length
      ((List.range 4096).countP fun n => (t.slot n).state = .filed)
      ((List.range 4096).countP fun n => (t.slot n).state = .damaged) t.images.free.length]

/-- What a rebuild of the record memory that `s` holds leaves (R39 to R46). -/
def Rebuilt (s t : State) : Prop :=
  SlotsSettled s t ∧ DirectorySettled s t ∧ ChainsSettled t ∧ PlatesSettled t ∧ LinksSettled s t ∧
  (∀ n, StandsUp s n → (t.slot n).state = .filed) ∧ SequencesSettled s t

end Sys2Proof.Claims

open Sys2Proof Sys2Proof.Machine Sys2Proof.Safety Sys2Proof.Claims

/-- The rebuild (R38 to R47): while STARTING is set, READY leaves no slot ASSEMBLING, FILING or of an
undefined state, sets the free-slot count to the slots that are FREE, clears STARTING, and posts READY with
the live records, the damaged records and the length of the free plate queue; the reply FIFO and the batch
stay. After a reset, READY settles what record memory then holds: each slot by its check word and its range,
the directory and its index, each matter's chain and next sequence, each record's plates and the free plate
queue, and the continuation links, and a record against which nothing speaks stays; and its notice counts
the matters recreated. With STARTING clear nothing happens. (The model's choices here: log 3 and 23.) -/
def Obligations.ReadyRebuilds : Prop :=
  (∀ s : State, Canonical s → s.port.starting = true → After .ready s fun t =>
    t.port.starting = false ∧
    (∀ n, n < 4096 → (t.slot n).state = .free ∨ (t.slot n).state = .filed ∨
      (t.slot n).state = .damaged) ∧
    t.folio.freeSlots = (List.range 4096).countP (fun n => (t.slot n).state = .free) ∧
    (s.folio.kept = [] → s.port.notices.length < 16 → ∃ recreated, t.port.notices = s.port.notices ++
      [.ready recreated ((List.range 4096).countP fun n => (t.slot n).state = .filed)
        ((List.range 4096).countP fun n => (t.slot n).state = .damaged) t.images.free.length]) ∧
    t.port.replies = s.port.replies ∧ t.images.memory = s.images.memory ∧
    Unchanged [.port, .folio, .record, .images] s t) ∧
  (∀ (s : State) (cut : Option Cut), Canonical s →
    (After (.powerOn cut) s fun u => After .ready u fun t => Rebuilt u t ∧ ReadyPosted u t) ∧
    (After (.resetPin cut) s fun u => After .ready u fun t => Rebuilt u t ∧ ReadyPosted u t)) ∧
  ∀ s : State, s.port.starting = false → Idles .ready s

/-! ## The request port (R185 to R191) -/

/-- A word written to REQUEST (R187): it joins the FIFO while there is room; on a FIFO of 32 words it is an
overrun, which empties the FIFO and drops the word; while OVERRUN is set it is dropped. The replies and
everything else stay. The first word after PORT CONTROL clears OVERRUN is the FIFO's head, a header. -/
def Obligations.RequestWordWrites : Prop :=
  ∀ (s : State) (w : Word),
    (s.port.overrun = false → s.port.requests.length < 32 → After (.requestWord w) s fun t =>
      t.port = { s.port with requests := s.port.requests ++ [w] } ∧ Unchanged [.port] s t) ∧
    (s.port.overrun = false → 32 ≤ s.port.requests.length → After (.requestWord w) s fun t =>
      t.port = { s.port with requests := [], overrun := true } ∧ Unchanged [.port] s t) ∧
    (s.port.overrun = true → Idles (.requestWord w) s) ∧
    (∀ v : Word, s.port.overrun = true → s.port.requests = [] → v.getLsbD 0 = true →
      After (.clearOverrun v) s fun t => t.port = { s.port with overrun := false } ∧
        After (.requestWord w) t fun u => u.port = { s.port with overrun := false, requests := [w] })

namespace Sys2Proof.Claims

/-- A request header (R188): code, argument count, tag. -/
def requestHeader (code count : Nat) (tag : Tag) : Word :=
  BitVec.ofNat 16 (code * 256 + count * 32 + tag.toNat)

/-- A request row as the words a host writes for it (R188): header, then arguments; a two-word quantity
has its high word first. -/
def requestWords : Instr → Option (List Word)
  | .lookup g f => some [requestHeader 0x10 1 g, f]
  | .find g m q => some [requestHeader 0x11 3 g, m.extractLsb' 16 16, m.extractLsb' 0 16, q]
  | .nextInMatter g f => some [requestHeader 0x12 1 g, f]
  | .readExceptions g f => some [requestHeader 0x13 1 g, f]
  | .setRetention g f d => some [requestHeader 0x14 2 g, f, d]
  | .refile g f m => some [requestHeader 0x15 3 g, f, m.extractLsb' 16 16, m.extractLsb' 0 16]
  | .hold g f => some [requestHeader 0x16 1 g, f]
  | .release g f => some [requestHeader 0x17 1 g, f]
  | .holdMatter g m => some [requestHeader 0x18 2 g, m.extractLsb' 16 16, m.extractLsb' 0 16]
  | .releaseMatter g m => some [requestHeader 0x19 2 g, m.extractLsb' 16 16, m.extractLsb' 0 16]
  | .retire g f d => some [requestHeader 0x1A 2 g, f, d]
  | .shedImage g f => some [requestHeader 0x1B 1 g, f]
  | .purgeSlot g n => some [requestHeader 0x1C 1 g, n]
  | .mountTray g y b x h f => some [requestHeader 0x20 6 g, y, b.extractLsb' 16 16, b.extractLsb' 0 16,
      x, h, f]
  | .dismountTray g y => some [requestHeader 0x21 1 g, y]
  | .readTray g y => some [requestHeader 0x22 1 g, y]
  | .closeDocument g c => some [requestHeader 0x23 1 g, c]
  | .loadTerms g p ws => some (requestHeader 0x30 (ws.length + 1) g :: p :: ws)
  | .clearTerms g => some [requestHeader 0x31 0 g]
  | .checkTerms g => some [requestHeader 0x32 0 g]
  | .readTerms g p => some [requestHeader 0x33 1 g, p]
  | .readTrain g => some [requestHeader 0x40 0 g]
  | .readTicket g o => some [requestHeader 0x41 1 g, o]
  | .setPath g p ws => some (requestHeader 0x42 (ws.length + 1) g :: p :: ws)
  | .readPath g p => some [requestHeader 0x43 1 g, p]
  | .clearTrain g => some [requestHeader 0x44 0 g]
  | .setSkew g l b => some [requestHeader 0x45 2 g, l, b]
  | .readSkew g => some [requestHeader 0x46 0 g]
  | .setArbiter g m => some [requestHeader 0x50 1 g, m]
  | .maskChannel g c m => some [requestHeader 0x51 2 g, c, m]
  | .readChannels g => some [requestHeader 0x52 0 g]
  | .verify g f => some [requestHeader 0x53 1 g, f]
  | .cancelVerify g => some [requestHeader 0x54 0 g]
  | .openExport g f => some [requestHeader 0x55 1 g, f]
  | .cancelExport g => some [requestHeader 0x56 0 g]
  | .startBatch g m c d => some [requestHeader 0x60 4 g, m.extractLsb' 16 16, m.extractLsb' 0 16, c, d]
  | .pauseFeed g => some [requestHeader 0x61 0 g]
  | .resumeFeed g => some [requestHeader 0x62 0 g]
  | .stopBatch g => some [requestHeader 0x63 0 g]
  | .abortBatch g => some [requestHeader 0x64 0 g]
  | .readBatch g => some [requestHeader 0x65 0 g]
  | .setLine g l d h p a e => some [requestHeader 0x70 6 g, l, d, h, p, a, e]
  | .readLines g => some [requestHeader 0x71 0 g]
  | _ => none

/-- Whether a request of a code can be taken for the reply FIFO's room (R186): one word while STARTING is
set. -/
def RoomFor (code : Nat) (s : State) : Prop :=
  s.port.replies.length + (if s.port.starting then 1 else largestReply code) ≤ 32

/-- The port takes this request from a header with this code and these arguments (R188). -/
def TakenFrom (i : Instr) (code : Nat) (tag : Tag) (args : List Word) : Prop :=
  ∀ (s : State) (rest : List Word),
    s.port.requests = requestHeader code args.length tag :: args ++ rest → RoomFor code s →
    exec .takeRequest s = exec i { s with port.requests := rest }

/-- The argument counts the owning rules accept, by request code (01 to 10). -/
def acceptedCounts (code : Nat) : List Nat :=
  if code ∈ [0x31, 0x32, 0x40, 0x44, 0x46, 0x52, 0x54, 0x56, 0x61, 0x62, 0x63, 0x64, 0x65, 0x71] then [0]
  else if code ∈ [0x10, 0x12, 0x13, 0x16, 0x17, 0x1B, 0x1C, 0x21, 0x22, 0x23, 0x33, 0x41, 0x43, 0x50,
    0x53, 0x55] then [1]
  else if code ∈ [0x14, 0x18, 0x19, 0x1A, 0x45, 0x51] then [2]
  else if code ∈ [0x11, 0x15] then [3]
  else if code = 0x60 then [4]
  else if code ∈ [0x20, 0x70] then [6]
  else if code ∈ [0x30, 0x42] then [2, 3, 4, 5, 6, 7]
  else []

end Sys2Proof.Claims

/-- The port takes a complete request from its words and runs its row (R186, R188): with its words at the
head of the FIFO and room for its largest reply, taking it is the row itself on the rest of the FIFO;
without the room nothing happens. It covers every request row and every value of its operands. (The
model's choices here: log 4.) -/
def Obligations.TakeRequestRunsRow : Prop :=
  ∀ (s : State) (i : Instr) (header : Word) (args rest : List Word),
    requestWords i = some (header :: args) → i.wellFormed = true →
    s.port.requests = header :: args ++ rest →
    (RoomFor (header.extractLsb' 8 8).toNat s →
      exec .takeRequest s = exec i { s with port.requests := rest }) ∧
    (¬ RoomFor (header.extractLsb' 8 8).toNat s → Idles .takeRequest s)

/-- What the port itself decides about the FIFO's head (R186): an empty FIFO and a request whose words are
not all there wait; while STARTING is set the reply is STARTING and nothing else happens; a code that
names no request, or a count its rule does not accept, is answered BAD REQUEST, its declared words
consumed. (The model's choices here: log 4.) -/
def Obligations.TakeRequestByThePort : Prop :=
  (∀ s : State, s.port.requests = [] → Idles .takeRequest s) ∧
  ∀ (s : State) (header : Word) (rest : List Word), s.port.requests = header :: rest →
    let code := (header.extractLsb' 8 8).toNat
    let count := (header.extractLsb' 5 3).toNat
    let tag : Tag := header.extractLsb' 0 5
    (rest.length < count → Idles .takeRequest s) ∧
    (count ≤ rest.length → RoomFor code s → s.port.starting = true →
      After .takeRequest s fun t =>
        t.port = { s.port with requests := rest.drop count,
                               replies := s.port.replies ++ replyWords 19 tag [] } ∧
        Unchanged [.port] s t) ∧
    (count ≤ rest.length → RoomFor code s → s.port.starting = false → count ∉ acceptedCounts code →
      After .takeRequest s fun t =>
        t.port = { s.port with requests := rest.drop count,
                               replies := s.port.replies ++ replyWords 17 tag [] } ∧
        Unchanged [.port] s t)

/-- A read of REPLY (R185): the oldest word is returned and removed; an empty FIFO returns 0000h and
nothing changes. -/
def Obligations.ReplyReadRemoves : Prop :=
  ∀ s : State,
    (s.port.replies = [] → After .replyRead s fun t =>
      t.port = { s.port with dataOut := 0 } ∧ Unchanged [.port] s t) ∧
    (∀ w rest, s.port.replies = w :: rest → After .replyRead s fun t =>
      t.port = { s.port with replies := rest, dataOut := w } ∧ Unchanged [.port] s t)

/-- A read of NOTICE (R185, R189): the word at the pointer, which advances; the fourth read removes the
notice and sets the pointer to 0, and the freed place goes to the first producer that keeps a notice:
the Folio Table, the Batch Controller, the audit channel. -/
def Obligations.NoticeReadWalksFourWords : Prop :=
  ∀ s : State,
    (s.port.notices = [] → After .noticeRead s fun t =>
      t.port = { s.port with dataOut := 0 } ∧ Unchanged [.port] s t) ∧
    (∀ (n : Notice) (rest : List Notice), s.port.notices = n :: rest → s.port.noticeAt ≠ 3 →
      After .noticeRead s fun t =>
        some t.port.dataOut = n.words[s.port.noticeAt.val]? ∧
        t.port = { s.port with noticeAt := s.port.noticeAt + 1, dataOut := t.port.dataOut } ∧
        Unchanged [.port] s t) ∧
    (∀ (n : Notice) (rest : List Notice), s.port.notices = n :: rest → s.port.noticeAt = 3 →
      After .noticeRead s fun t =>
        some t.port.dataOut = n.words[3]? ∧
        (∀ k ks, s.folio.kept = k :: ks →
          t.port.notices = rest ++ [k] ∧ t.folio = { s.folio with kept := ks } ∧
            t.batch = s.batch ∧ t.images = s.images) ∧
        (∀ k ks, s.folio.kept = [] → s.batch.kept = k :: ks →
          t.port.notices = rest ++ [k] ∧ t.batch = { s.batch with kept := ks } ∧
            t.folio = s.folio ∧ t.images = s.images) ∧
        (∀ k, s.folio.kept = [] → s.batch.kept = [] → s.images.audit.kept = some k →
          t.port.notices = rest ++ [k] ∧
            t.images = { s.images with audit.kept := none } ∧
            t.folio = s.folio ∧ t.batch = s.batch) ∧
        (s.folio.kept = [] → s.batch.kept = [] → s.images.audit.kept = none →
          t.port.notices = rest ∧ t.folio = s.folio ∧ t.batch = s.batch ∧ t.images = s.images) ∧
        t.port = { s.port with notices := t.port.notices, noticeAt := 0, dataOut := t.port.dataOut } ∧
        Unchanged [.port, .folio, .batch, .images] s t)

/-- The four words of each kind of notice (R191), for values within the fields R191 gives them. -/
def Obligations.NoticeLayout : Prop :=
  (∀ recreated valid damaged free, recreated < 512 → valid < 65536 → damaged < 65536 → free < 131072 →
    (Notice.ready recreated valid damaged free).words =
      [BitVec.ofNat 16 (0x1000 + free / 65536 * 512 + recreated), BitVec.ofNat 16 valid,
        BitVec.ofNat 16 damaged, BitVec.ofNat 16 (free % 65536)]) ∧
  (∀ (folio : Word) (pages shelved entries : Nat) (overflow : Bool), pages < 256 → shelved < 256 →
    entries < 16 → (Notice.documentFiled folio pages shelved entries overflow).words =
      [BitVec.ofNat 16 (0x2000 + entries * 256 + (if overflow then 128 else 0)), folio,
        BitVec.ofNat 16 (pages * 256 + shelved), 0]) ∧
  (∀ (a b c d e f g : Bool) (fed rejected opened : Nat),
    (Notice.feedHold ⟨a, b, c, d, e, f, g⟩ fed rejected opened).words =
      [(3 : BitVec 4) ++ (0 : BitVec 5) ++ BitVec.ofBool a ++ BitVec.ofBool b ++ BitVec.ofBool c ++
          BitVec.ofBool d ++ BitVec.ofBool e ++ BitVec.ofBool f ++ BitVec.ofBool g,
        BitVec.ofNat 16 fed, BitVec.ofNat 16 rejected, BitVec.ofNat 16 opened]) ∧
  (∀ (cause : JamCause) (line : Option LineIx) (ticket : Option Word) (tickets : Nat),
    (Notice.jam cause line ticket tickets).words =
      [BitVec.ofNat 16 (0x4000 + (match cause with
          | .misfeed => 0 | .stall => 1 | .lostSheet => 2 | .straySheet => 3 | .misdelivery => 4
          | .overlength => 5 | .trainOverrun => 6) * 256 +
          (match line with | some l => l.val | none => 31)),
        (match ticket with | some o => o | none => 0), BitVec.ofNat 16 tickets, 0]) ∧
  (∀ (kind : EndKind) (fed rejected opened : Nat),
    (Notice.batchEnded kind fed rejected opened).words =
      [BitVec.ofNat 16 (0x5000 + (match kind with
          | .drained => 0 | .stoppedAfterJam => 1 | .aborted => 2)),
        BitVec.ofNat 16 fed, BitVec.ofNat 16 rejected, BitVec.ofNat 16 opened]) ∧
  (∀ (result : AuditResult) (folio : Word) (failing checked : Nat),
    (Notice.verifyDone result folio failing checked).words =
      [BitVec.ofNat 16 (0x6000 + (match result with
          | .matched => 0 | .plateMismatch => 1 | .digestMismatch => 2 | .cancelled => 3)),
        folio, BitVec.ofNat 16 failing, BitVec.ofNat 16 checked])

/-- A read of PORT STATUS (R190): the word at the status pointer as R190 lays it out, and the pointer goes
on, from 3 to 0. The counts are within what the queues hold. -/
def Obligations.PortStatusWords : Prop :=
  ∀ s : State, s.port.requests.length ≤ 32 → s.port.replies.length ≤ 32 →
    s.port.notices.length ≤ 16 → s.port.exports.length ≤ 8192 →
    After .portStatus s fun t =>
      t.port = { s.port with statusAt := s.port.statusAt + 1, dataOut := t.port.dataOut } ∧
      (s.port.statusAt = 0 → t.port.dataOut =
        (0 : BitVec 2) ++ BitVec.ofBool s.port.starting ++ BitVec.ofBool s.port.overrun ++
          BitVec.ofBool s.port.enables.noticeWaiting ++ BitVec.ofBool s.port.enables.replyWaiting ++
          BitVec.ofBool s.port.enables.requestSpace ++ BitVec.ofBool s.port.enables.exportWaiting ++
          BitVec.ofBool (decide (s.port.notices ≠ [])) ++
          BitVec.ofBool (decide (s.port.replies ≠ [])) ++
          BitVec.ofBool (decide (s.port.requests.length ≤ 24 ∧ s.port.overrun = false)) ++
          BitVec.ofBool (decide (s.port.exports ≠ [])) ++ (0 : BitVec 4)) ∧
      (s.port.statusAt = 1 → t.port.dataOut =
        BitVec.ofNat 16 (0x4000 + (32 - s.port.requests.length) * 256 + s.port.replies.length)) ∧
      (s.port.statusAt = 2 → t.port.dataOut = BitVec.ofNat 16 (0x8000 + s.port.notices.length)) ∧
      (s.port.statusAt = 3 → t.port.dataOut = BitVec.ofNat 16 (0xC000 + s.port.exports.length)) ∧
      Unchanged [.port] s t

namespace Sys2Proof.Claims

/-- The plates of a side in chain order (R159): each names the next, no plate behind the first is a side
start, and behind the last the chain ends or the next side starts. -/
def SidePlates (s : State) : List Nat → Prop
  | [] => False
  | [p] => ∀ q, (s.link p).next = some q → (s.link q).sideStart = true
  | p :: q :: rest =>
    (s.link p).next = some q ∧ (s.link q).sideStart = false ∧ SidePlates s (q :: rest)

/-- The side header of the side of some plates (R159, R192): its kind, the page ordinal, the side ordinal and
the sum of its plates' bands used. -/
def sideHead (s : State) (side : Side) (plates : List Nat) (page ordinal : Nat) : List Word :=
  [match side with | .front => 0x5A10 | .back => 0x5A11, word page, word ordinal,
    word (plates.map fun q => (s.link q).bandsUsed).sum]

/-- The channel waits or asks for the band it now stands at (R160): it asks exactly when 4,096 words fit
behind those in the buffer. -/
def AwaitsBand (t : State) (r : ExportRun) (words : Nat) : Prop :=
  t.images.exporter.run = some r ∧
  (8192 < words + 4096 → t.images.exporter.state = .waiting) ∧
  (words + 4096 ≤ 8192 →
    t.images.exporter.state = .requesting ∨ t.images.exporter.state = .transferring)

/-- An export run takes a plate with bands in use, behind words already placed (R159, R160). At a side start
the page ordinal goes up by 1 for a front side and the side ordinal for either, and the side header is
placed as soon as its four words fit; then the plate's bands follow, each as soon as it fits. -/
def PlateTaken (s t : State) (r : ExportRun) (p : Nat) (placed : List Word) : Prop :=
  let l := s.link p
  let taken : ExportRun := { r with
    taken := r.taken + 1, current := some p, bandsUsed := l.bandsUsed,
    residue := some (l.bandsUsed - 1) }
  let headed : ExportRun := { taken with
    pageOrdinal := (match l.side with
      | .front => r.pageOrdinal + 1
      | .back => r.pageOrdinal)
    sideOrdinal := r.sideOrdinal + 1 }
  (l.sideStart = false → t.port.exports = placed ∧
    AwaitsBand t { taken with item := .band } placed.length) ∧
  (∀ rest, l.sideStart = true → SidePlates s (p :: rest) →
    rest.length < r.plateCount - r.taken →
    let head := sideHead s l.side (p :: rest) headed.pageOrdinal headed.sideOrdinal
    (placed.length + 4 ≤ 8192 → t.port.exports = placed ++ head ∧
      AwaitsBand t { headed with item := .band } (placed.length + 4)) ∧
    (8192 < placed.length + 4 → t.port.exports = placed ∧
      t.images.exporter.run = some { headed with item := .sideHeader head } ∧
      t.images.exporter.state = .waiting))

end Sys2Proof.Claims

open Sys2Proof.Claims

/-- A read of EXPORT DATA (R159, R160, R161, R185). An empty buffer returns 0000h. Otherwise the oldest word
is returned and removed, and the rest keeps its order at the front of the buffer. With a run in hand whose
stream is not all placed and read, the run and its mark go on: a channel that is not WAITING places nothing;
one that waits to place its end word places it, 5AE0h for a whole stream and 5AE1h for one cut short; one
that waits for room for a side header places it with its four words, and one that waits for room for a band
asks for the port as soon as 4,096 words fit. The read of the last word of a stream whose end word has been placed ends the export, whole or short: its mark is freed and its channel is
IDLE with cause COMPLETE. -/
def Obligations.ExportDataRead : Prop :=
  ∀ s : State,
    (s.port.exports = [] → After .exportData s fun t =>
      t.port = { s.port with dataOut := 0 } ∧ Unchanged [.port] s t) ∧
    (∀ w rest, s.port.exports = w :: rest → s.images.exporter.run = none →
      After .exportData s fun t =>
        t.port = { s.port with exports := rest, dataOut := w } ∧ Unchanged [.port] s t) ∧
    (∀ w rest r, s.port.exports = w :: rest → s.images.exporter.run = some r →
      ¬ (rest = [] ∧ r.item = .done) →
      (After .exportData s fun t =>
        t.port = { s.port with exports := t.port.exports, dataOut := w } ∧
        rest <+: t.port.exports ∧
        (∃ k, t.images.exporter.run = some k ∧ k.folio = r.folio ∧ k.plateCount = r.plateCount) ∧
        t.images.exporter.endFlag = s.images.exporter.endFlag ∧
        t.images.memory = s.images.memory ∧ Unchanged [.port, .images] s t) ∧
      (s.images.exporter.state ≠ .waiting ∨ r.item = .done → After .exportData s fun t =>
        t.port = { s.port with exports := rest, dataOut := w } ∧
        t.images = { s.images with exporter := t.images.exporter } ∧
        t.images.exporter.run = some r ∧ t.images.exporter.state = s.images.exporter.state ∧
        Unchanged [.port, .images] s t) ∧
      (∀ short, s.images.exporter.state = .waiting → r.item = .endWord short →
        rest.length < 8192 → After .exportData s fun t =>
        t.port = { s.port with
          exports := rest ++ [if short then 0x5AE1 else 0x5AE0], dataOut := w } ∧
        t.images = { s.images with exporter.run := some { r with item := .done } } ∧
        Unchanged [.port, .images] s t) ∧
      (∀ n head, s.images.exporter.state = .waiting → r.item = .sideHeader head →
        head.length = 4 → rest.length + 4 ≤ 8192 → r.residue = some n →
        After .exportData s fun t =>
        t.port = { s.port with exports := rest ++ head, dataOut := w } ∧
        AwaitsBand t { r with item := .band } (rest.length + 4) ∧
        (s.images.transfer ≠ none → t.images.exporter.state ≠ .transferring) ∧
        Unchanged [.port, .images] s t) ∧
      (∀ n, s.images.exporter.state = .waiting → r.item = .band → r.residue = some n →
        After .exportData s fun t =>
        t.port = { s.port with exports := rest, dataOut := w } ∧
        t.images.exporter.run = some r ∧
        (8192 < rest.length + 4096 → t.images = s.images) ∧
        (rest.length + 4096 ≤ 8192 →
          t.images.exporter.state = .requesting ∨ t.images.exporter.state = .transferring) ∧
        (rest.length + 4096 ≤ 8192 → s.images.transfer ≠ none →
          t.images = { s.images with exporter.state := .requesting }) ∧
        Unchanged [.port, .images] s t)) ∧
    (∀ w r, s.port.exports = [w] → s.images.exporter.run = some r → r.item = .done →
      After .exportData s fun t =>
        t.port = { s.port with exports := [], dataOut := w } ∧
        t.folio = { s.folio with exportMark := none } ∧
        t.images = { s.images with exporter := { s.images.exporter with
          state := .idle, run := none, endFlag := true, endCause := .complete } } ∧
        Unchanged [.port, .folio, .images] s t)

/-- The writes to PORT CONTROL, INTERRUPT ENABLE and location 3 (R185, R190): PORT CONTROL with bit 0 at 1
clears OVERRUN; INTERRUPT ENABLE sets the four enables from bits 3 to 0 and the status pointer to 0; a
write that R185 gives no effect has none. -/
def Obligations.ControlWrites : Prop :=
  ∀ (s : State) (w : Word),
    (w.getLsbD 0 = true → After (.clearOverrun w) s fun t =>
      t.port = { s.port with overrun := false } ∧ Unchanged [.port] s t) ∧
    (After (.interruptEnable w) s fun t =>
      t.port = { s.port with statusAt := 0, enables :=
        ⟨w.getLsbD 3, w.getLsbD 2, w.getLsbD 1, w.getLsbD 0⟩ } ∧ Unchanged [.port] s t) ∧
    Idles (.writeNoEffect .location3 w) s ∧
    (w.getLsbD 0 = false → Idles (.writeNoEffect .portControl w) s)

/-- INT is high exactly while a condition holds whose enable is 1 (R190). -/
def Obligations.InterruptLevel : Prop :=
  ∀ s : State, s.int = true ↔
    (s.port.enables.noticeWaiting = true ∧ s.port.notices ≠ []) ∨
    (s.port.enables.replyWaiting = true ∧ s.port.replies ≠ []) ∨
    (s.port.enables.requestSpace = true ∧ s.port.requests.length + 8 ≤ 32 ∧ s.port.overrun = false) ∨
    (s.port.enables.exportWaiting = true ∧ s.port.exports ≠ [])

/-! ## Folio requests (R2, R9, R19 to R32) -/

namespace Sys2Proof.Claims

/-- The folio requests that name a folio: the largest reply, the tag and the folio. -/
def folioRequest : Instr → Option (Nat × Tag × Word)
  | .lookup g f => some (19, g, f)
  | .nextInMatter g f => some (3, g, f)
  | .readExceptions g f => some (10, g, f)
  | .setRetention g f _ => some (2, g, f)
  | .refile g f _ => some (2, g, f)
  | .hold g f => some (2, g, f)
  | .release g f => some (2, g, f)
  | .retire g f _ => some (6, g, f)
  | .shedImage g f => some (2, g, f)
  | _ => none

/-- The chains have joined the tail of the free plate queue in this order, one with no plate passed over
(R140): the old tail names the first chain's head, which an empty queue takes as its own, each chain's tail
names the next chain's head, the last tail names none, and no other link entry has changed. -/
def ChainsReturned (s t : State) (chains : List PlateChain) : Prop :=
  let given := chains.filter fun c => decide (0 < c.count)
  (given = [] → t.images.free = s.images.free ∧ ∀ q, t.link q = s.link q) ∧
  (∀ first rest, given = first :: rest →
    t.images.free.head =
      (if s.images.free.length = 0 then first.head else s.images.free.head) ∧
    t.images.free.length = s.images.free.length + (given.map PlateChain.count).sum ∧
    ∀ q, s.images.free.tail = some q → (∀ c ∈ given, c.tail ≠ some q) →
      t.link q = { s.link q with next := first.head }) ∧
  (∀ before last, given = before ++ [last] → t.images.free.tail = last.tail ∧
    ∀ q, last.tail = some q → t.link q = { s.link q with next := none }) ∧
  (∀ before c d after, given = before ++ c :: d :: after → ∀ q, c.tail = some q →
    (∀ x ∈ d :: after, x.tail ≠ some q) → t.link q = { s.link q with next := d.head }) ∧
  ∀ q, s.images.free.tail ≠ some q → (∀ c ∈ given, c.tail ≠ some q) → t.link q = s.link q

/-- A matter that loses a record has no other, no hold and no pin (R7). -/
def LastOut (s : State) (place : Nat) : Prop :=
  (s.matterAt place).number ≠ 0 ∧ (s.matterAt place).recordCount ≤ 1 ∧
    (s.matterAt place).holdCount = 0 ∧ s.pinned place = false

/-- A record of a slot has left its matter (R5, R7): the matter has one record less and its chain ends pass
over the record; one with nothing left has left the directory, and `index` with it. -/
def LeftMatter (s t : State) (n : Nat) (r : Record) (index : List IndexEntry) : Prop :=
  let old := s.matterAt r.place
  t.folio = { s.folio with freeSlots := t.folio.freeSlots, index := t.folio.index } ∧
  (LastOut s r.place → t.placeEntry r.place = {} ∧
    t.folio.index = index.filter fun e => e.place ≠ r.place) ∧
  (¬ LastOut s r.place → t.folio.index = index ∧ (old.number ≠ 0 → t.matterAt r.place = { old with
    recordCount := old.recordCount - 1
    head := if old.head = some n then r.chainNext else old.head
    tail := if old.tail = some n then s.chainBefore n r.place else old.tail }))

/-- A partner's slot, named by a retiring record and naming it back in a field of its own (R30). -/
def NamesBack (s : State) (partner : Option Word) (field : Record → Option Word) (folio : Word)
    (q : Nat) : Prop :=
  ∃ f, partner = some f ∧ f.toNat / 16 = q ∧ Names s f (s.slot q) ∧ field (s.slot q) = some folio

end Sys2Proof.Claims

/-- The checks of R2 come before all others of a folio request (R19), and a refused request changes
nothing: a FREE slot answers NOT FOUND whatever the generation; then a generation that differs answers
STALE; then a DAMAGED slot answers DAMAGED. -/
def Obligations.FolioResolution : Prop :=
  ∀ (s : State) (i : Instr) (most : Nat) (tag : Tag) (folio : Word),
    folioRequest i = some (most, tag, folio) → Takes most s →
    let r := s.slot (folio.toNat / 16)
    (r.state = .free → Reads i s 2 tag []) ∧
    (r.state ≠ .free → r.generation ≠ folio.extractLsb' 0 4 → Reads i s 3 tag []) ∧
    (r.state = .damaged → r.generation = folio.extractLsb' 0 4 → Reads i s 4 tag [])

/-- LOOKUP (R20), code 10h with one argument, of a live record answers OK with the 18 words of R193 and
changes nothing; no folio request has a larger reply than its 19 words. -/
def Obligations.LookupAnswers : Prop :=
  ∀ (s : State) (tag : Tag) (folio : Word) (r : Record), Names s folio r → Takes 19 s →
    TakenFrom (.lookup tag folio) 0x10 tag [folio] ∧
    (∀ code, code / 16 = 1 → largestReply code ≤ largestReply 0x10) ∧ largestReply 0x10 = 19 ∧
    Reads (.lookup tag folio) s 0 tag
      [pack [(3, match r.state with | .assembling => 1 | .filing => 2 | _ => 3), (4, r.cls.toNat),
          (1, bit r.tags.tag0), (1, bit r.tags.tag1), (1, bit r.tags.tag2), (1, bit r.tags.tag3),
          (3, match r.tray with | some n => n.val + 1 | none => 7), (1, bit (r.image = .shed))],
        r.matter.extractLsb' 16 16, r.matter.extractLsb' 0 16, word r.sequence,
        r.box.extractLsb' 16 16, r.box.extractLsb' 0 16,
        pack [(8, r.pageCount), (8, r.shelved)],
        pack [(4, r.exceptions.length), (1, bit r.overflow), (3, r.holdCount),
          (1, bit r.intakeTaken), (1, bit (0 < r.holdCount || 0 < (s.matterAt r.place).holdCount)),
          (1, bit r.firstPosition.isSome), (1, bit r.predecessor.isSome), (1, bit r.successor.isSome)],
        word r.sideCount, pack [(8, r.outstanding), (8, r.amendCount)],
        word (r.firstPosition.getD 0), word (r.lastPosition.getD 0), word r.plateCount,
        word r.retention, r.predecessor.getD 0, r.successor.getD 0,
        r.digest.extractLsb' 16 16, r.digest.extractLsb' 0 16]

/-- The three requests that walk (R21, R22, R23): FIND along the matter's chain, whose sequences rise;
NEXT IN MATTER one record on, or END at the tail; READ EXCEPTIONS in the order the entries arose. None
changes anything but the reply FIFO. (The model's choices here: log 9.) -/
def Obligations.FolioWalks : Prop :=
  (∀ (s : State) (tag : Tag) (matter : Long) (sequence : Word), Takes 3 s →
    (matter = 0 ∨ sequence = 0 → Reads (.find tag matter sequence) s 18 tag []) ∧
    (matter ≠ 0 → sequence ≠ 0 → NotInDirectory s matter →
      Reads (.find tag matter sequence) s 2 tag []) ∧
    (∀ (place : Nat) (before after : List Nat) (n : Nat), matter ≠ 0 → sequence ≠ 0 →
      InDirectory s matter place → (before ++ n :: after).length ≤ 4096 →
      ChainFrom s (s.matterAt place).head (before ++ n :: after) →
      (∀ k ∈ before, (s.slot k).sequence < sequence.toNat) →
      ((s.slot n).sequence = sequence.toNat → Reads (.find tag matter sequence) s 0 tag
        [folioNumber s n, pack [(3, (s.slot n).state.code)]]) ∧
      (sequence.toNat < (s.slot n).sequence → Reads (.find tag matter sequence) s 2 tag [])) ∧
    (∀ (place : Nat) (chain : List Nat), matter ≠ 0 → sequence ≠ 0 → InDirectory s matter place →
      chain.length ≤ 4096 → ChainFrom s (s.matterAt place).head chain →
      (∀ k ∈ chain, (s.slot k).sequence < sequence.toNat) →
      Reads (.find tag matter sequence) s 2 tag [])) ∧
  (∀ (s : State) (tag : Tag) (folio : Word) (r : Record), Names s folio r → Takes 3 s →
    (r.chainNext = none → Reads (.nextInMatter tag folio) s 16 tag []) ∧
    (∀ n, r.chainNext = some n → Reads (.nextInMatter tag folio) s 0 tag
      [folioNumber s n, pack [(3, (s.slot n).state.code)]])) ∧
  (∀ (s : State) (tag : Tag) (folio : Word) (r : Record), Names s folio r → Takes 10 s →
    Reads (.readExceptions tag folio) s 0 tag
      (pack [(4, r.exceptions.length), (1, bit r.overflow)] ::
        r.exceptions.map fun e => pack [(8, e.page),
          (3, match e.cause with
            | .sheetRejected => 0 | .notShelved => 1 | .skewUncorrected => 2 | .doubleFeedFiled => 3
            | .interrupted => 4), (5, e.detail)]))

/-- SET RETENTION (R24), code 14h with two arguments: not FILED, STATE; earlier than the present day while
held, HELD; otherwise the day is stored, the amend count goes up by 1 and stops at 255, and the old day is
the reply. -/
def Obligations.SetRetentionStores : Prop :=
  ∀ (s : State) (tag : Tag) (folio day : Word) (r : Record), Names s folio r → Takes 2 s →
    TakenFrom (.setRetention tag folio day) 0x14 tag [folio, day] ∧
    (r.state ≠ .filed → Reads (.setRetention tag folio day) s 8 tag []) ∧
    (r.state = .filed → day.toNat < r.retention → Held s r →
      Reads (.setRetention tag folio day) s 5 tag []) ∧
    (Canonical s → r.state = .filed → (r.retention ≤ day.toNat ∨ ¬ Held s r) →
      After (.setRetention tag folio day) s fun t =>
        Answers s t 0 tag [word r.retention] ∧ Unchanged [.port, .record] s t ∧
        SlotWritten s t (folio.toNat / 16)
          { r with retention := day.toNat, amendCount := min 255 (r.amendCount + 1) })

/-- HOLD and RELEASE (R26, R27): a count of 7 answers LIMIT and a count of 0 STATE; otherwise the count of
the record goes up or down by 1, and RELEASE tells whether the matter still holds it. (The model's choices
here: log 9.) -/
def Obligations.HoldAndRelease : Prop :=
  ∀ (s : State) (tag : Tag) (folio : Word) (r : Record), Names s folio r → Takes 2 s →
    (r.holdCount = 7 → Reads (.hold tag folio) s 9 tag []) ∧
    (Canonical s → r.holdCount ≠ 7 → After (.hold tag folio) s fun t =>
      Answers s t 0 tag [pack [(3, r.holdCount + 1)]] ∧ Unchanged [.port, .record] s t ∧
      SlotWritten s t (folio.toNat / 16) { r with holdCount := r.holdCount + 1 }) ∧
    (r.holdCount = 0 → Reads (.release tag folio) s 8 tag []) ∧
    (Canonical s → r.holdCount ≠ 0 → After (.release tag folio) s fun t =>
      Answers s t 0 tag [pack [(3, r.holdCount - 1),
        (1, bit (decide (0 < (s.matterAt r.place).holdCount)))]] ∧
      Unchanged [.port, .record] s t ∧
      SlotWritten s t (folio.toNat / 16) { r with holdCount := r.holdCount - 1 })

/-- HOLD MATTER and RELEASE MATTER (R6, R7, R28, R29). A matter number of 0 answers BAD ARGUMENT. HOLD
MATTER raises the count of a matter in the directory up to 15, LIMIT beyond, and creates one that is not
in it at the lowest free place with sequence 1 next, FULL with no place free. RELEASE MATTER answers NOT
FOUND for one not in the directory, STATE at a count of 0, and otherwise lowers the count; the matter
leaves the directory when it then has no record, no hold and no pin, and the reply says so. (The model's
choices here: log 9.) -/
def Obligations.MatterHolds : Prop :=
  ∀ (s : State) (tag : Tag) (matter : Long), Takes 2 s →
    (matter = 0 → Reads (.holdMatter tag matter) s 18 tag [] ∧
      Reads (.releaseMatter tag matter) s 18 tag []) ∧
    (matter ≠ 0 → NotInDirectory s matter → Reads (.releaseMatter tag matter) s 2 tag []) ∧
    (matter ≠ 0 → NotInDirectory s matter → (∀ p, p < 256 → (s.matterAt p).number ≠ 0) →
      Reads (.holdMatter tag matter) s 10 tag []) ∧
    (∀ place, Canonical s → matter ≠ 0 → NotInDirectory s matter → place < 256 →
      (s.matterAt place).number = 0 → (∀ p, p < place → (s.matterAt p).number ≠ 0) →
      After (.holdMatter tag matter) s fun t =>
        Answers s t 0 tag [pack [(4, 1)]] ∧ Unchanged [.port, .folio, .record] s t ∧
        PlaceWritten s t place ⟨matter, 0, 1, none, none, 1⟩ ∧
        t.folio = { s.folio with index := t.folio.index } ∧ InDirectory t matter place ∧
        (∀ other, other ≠ matter → t.findMatter other = s.findMatter other)) ∧
    (∀ place, matter ≠ 0 → InDirectory s matter place →
      ((s.matterAt place).holdCount = 15 → Reads (.holdMatter tag matter) s 9 tag []) ∧
      (Canonical s → (s.matterAt place).number = matter → (s.matterAt place).holdCount ≠ 15 →
        After (.holdMatter tag matter) s fun t =>
        Answers s t 0 tag [pack [(4, (s.matterAt place).holdCount + 1)]] ∧
        Unchanged [.port, .record] s t ∧
        PlaceWritten s t place
          { s.matterAt place with holdCount := (s.matterAt place).holdCount + 1 }) ∧
      ((s.matterAt place).holdCount = 0 → Reads (.releaseMatter tag matter) s 8 tag []) ∧
      (Canonical s → (s.matterAt place).number = matter → (s.matterAt place).holdCount ≠ 0 →
        (1 < (s.matterAt place).holdCount ∨ 0 < (s.matterAt place).recordCount ∨
          s.pinned place = true) →
        After (.releaseMatter tag matter) s fun t =>
        Answers s t 0 tag [pack [(4, (s.matterAt place).holdCount - 1), (1, 0)]] ∧
        Unchanged [.port, .record] s t ∧
        PlaceWritten s t place
          { s.matterAt place with holdCount := (s.matterAt place).holdCount - 1 }) ∧
      (Canonical s → (s.matterAt place).number = matter → (s.matterAt place).holdCount = 1 →
        (s.matterAt place).recordCount = 0 → s.pinned place = false →
        After (.releaseMatter tag matter) s fun t =>
        Answers s t 0 tag [pack [(4, 0), (1, 1)]] ∧ Unchanged [.port, .folio, .record] s t ∧
        PlaceWritten s t place {} ∧
        t.folio = { s.folio with index := s.folio.index.filter fun e => e.place ≠ place }))

/-- REFILE (R5, R6, R25). Refusals in order: BAD ARGUMENT for matter 0, STATE for a record not FILED,
HELD, BAD ARGUMENT for the record's own matter, FULL where the new matter is exhausted or has no place.
Otherwise the record joins the tail of the new matter with its next sequence, its amend count up by 1;
nothing else of the record changes, and no slot but those of the two chain ends it left and joined: the slot
before it in the old chain is linked past it, the old tail of the new one to it. A new matter that is not in
the directory enters it and its index at the lowest free place with the record as its one record; the matter
it leaves loses a record, and with none left and no pin leaves the directory and its index (R7). The rest of
the on-chip table stays. The record is not the tail of a matter it does not belong to. -/
def Obligations.RefileMoves : Prop :=
  ∀ (s : State) (tag : Tag) (folio : Word) (matter : Long) (r : Record), Names s folio r → Takes 2 s →
    let n := folio.toNat / 16
    (matter = 0 → Reads (.refile tag folio matter) s 18 tag []) ∧
    (matter ≠ 0 → r.state ≠ .filed → Reads (.refile tag folio matter) s 8 tag []) ∧
    (matter ≠ 0 → r.state = .filed → Held s r → Reads (.refile tag folio matter) s 5 tag []) ∧
    (matter ≠ 0 → r.state = .filed → ¬ Held s r → matter = r.matter →
      Reads (.refile tag folio matter) s 18 tag []) ∧
    (matter ≠ 0 → r.state = .filed → ¬ Held s r → matter ≠ r.matter → NotInDirectory s matter →
      (∀ p, p < 256 → (s.matterAt p).number ≠ 0) → Reads (.refile tag folio matter) s 10 tag []) ∧
    (∀ place, matter ≠ 0 → r.state = .filed → ¬ Held s r → matter ≠ r.matter →
      InDirectory s matter place → (s.matterAt place).nextSequence = 0 →
      Reads (.refile tag folio matter) s 10 tag []) ∧
    (∀ place, Canonical s → matter ≠ 0 → r.state = .filed → ¬ Held s r → matter ≠ r.matter →
      InDirectory s matter place → (s.matterAt place).number = matter → place ≠ r.place →
      (s.matterAt place).nextSequence ≠ 0 → (s.matterAt place).tail ≠ some n →
      After (.refile tag folio matter) s fun t =>
        Answers s t 0 tag [word (s.matterAt place).nextSequence] ∧
        Unchanged [.port, .folio, .record] s t ∧
        t.slot n = { r with
          matter := matter, place := place, sequence := (s.matterAt place).nextSequence,
          chainNext := none, amendCount := min 255 (r.amendCount + 1) } ∧
        t.matterAt place = { s.matterAt place with
          recordCount := (s.matterAt place).recordCount + 1, tail := some n,
          head := (match (s.matterAt place).head with | some h => some h | none => some n),
          nextSequence := if (s.matterAt place).nextSequence = 65535 then 0
            else (s.matterAt place).nextSequence + 1 } ∧
        (∀ q, (s.matterAt place).tail = some q → (t.slot q).chainNext = some n ∧
          (s.chainBefore n r.place ≠ some q → t.slot q = { s.slot q with chainNext := some n })) ∧
        (∀ q, s.chainBefore n r.place = some q → q ≠ n → (s.matterAt place).tail ≠ some q →
          t.slot q = { s.slot q with chainNext := r.chainNext }) ∧
        LeftMatter s t n r s.folio.index ∧ t.folio.freeSlots = s.folio.freeSlots ∧
        RecordKept s t (n :: ((s.matterAt place).tail.toList ++ (s.chainBefore n r.place).toList))
          [place, r.place] []) ∧
    (∀ place, Canonical s → matter ≠ 0 → r.state = .filed → ¬ Held s r → matter ≠ r.matter →
      NotInDirectory s matter → place < 256 → (s.matterAt place).number = 0 →
      (∀ p, p < place → (s.matterAt p).number ≠ 0) → place ≠ r.place →
      After (.refile tag folio matter) s fun t =>
        Answers s t 0 tag [word 1] ∧ Unchanged [.port, .folio, .record] s t ∧
        t.slot n = { r with
          matter := matter, place := place, sequence := 1,
          chainNext := none, amendCount := min 255 (r.amendCount + 1) } ∧
        t.matterAt place = ⟨matter, 1, 2, some n, some n, 0⟩ ∧ InDirectory t matter place ∧
        (∀ q, s.chainBefore n r.place = some q → q ≠ n →
          t.slot q = { s.slot q with chainNext := r.chainNext }) ∧
        (∃ below above, s.folio.index = below ++ above ∧
          LeftMatter s t n r (below ++ ⟨matter, place, false⟩ :: above)) ∧
        t.folio.freeSlots = s.folio.freeSlots ∧
        RecordKept s t (n :: (s.chainBefore n r.place).toList) [place, r.place] [])

/-- RETIRE (R2, R5, R7, R30). Refusals in order: STATE, HELD, EARLY, IN USE. Otherwise the reply gives the
box, the positions and the shelved count as the record stood; the slot goes FREE with its generation up by
1 and every other field at its FREE value; the free-slot count goes up by 1; the slot before it in its chain
is linked past it, and its matter loses a record, or leaves the directory when it was its last; a live
partner that names it back names it no more; and the plates of a resident image join the tail of the free
plate queue (R140). Image memory, the other blocks, and every other byte of record memory stay. The record
does not stand before itself in its chain. (The model's choices here: log 9.) -/
def Obligations.RetireRemoves : Prop :=
  ∀ (s : State) (tag : Tag) (folio today : Word) (r : Record), Names s folio r → Takes 6 s →
    let n := folio.toNat / 16
    let used := s.folio.auditMark = some n ∨ s.folio.exportMark = some n
    (r.state ≠ .filed → Reads (.retire tag folio today) s 8 tag []) ∧
    (r.state = .filed → Held s r → Reads (.retire tag folio today) s 5 tag []) ∧
    (r.state = .filed → ¬ Held s r → today.toNat < r.retention →
      Reads (.retire tag folio today) s 6 tag []) ∧
    (r.state = .filed → ¬ Held s r → r.retention ≤ today.toNat → used →
      Reads (.retire tag folio today) s 7 tag []) ∧
    (Canonical s → r.state = .filed → ¬ Held s r → r.retention ≤ today.toNat → ¬ used →
      s.chainBefore n r.place ≠ some n →
      After (.retire tag folio today) s fun t =>
        Answers s t 0 tag [r.box.extractLsb' 16 16, r.box.extractLsb' 0 16,
          pack [(11, r.firstPosition.getD 0)], pack [(11, r.lastPosition.getD 0)],
          pack [(8, r.shelved)]] ∧
        t.slot n = { generation := r.generation + 1 } ∧
        t.folio.freeSlots = s.folio.freeSlots + 1 ∧ t.folio.kept = s.folio.kept ∧
        t.folio.auditMark = s.folio.auditMark ∧ t.folio.exportMark = s.folio.exportMark ∧
        (r.image = .resident → 0 < r.plateCount → t.images.free =
          { head := if s.images.free.length = 0 then r.plateHead else s.images.free.head,
            tail := r.plateTail, length := s.images.free.length + r.plateCount }) ∧
        (r.image = .shed ∨ r.plateCount = 0 → t.images.free = s.images.free) ∧
        t.images = { s.images with free := t.images.free } ∧
        ChainsReturned s t (if r.image = .resident then [⟨r.plateHead, r.plateTail, r.plateCount⟩]
          else []) ∧
        LeftMatter s t n r s.folio.index ∧
        (∀ q, q ≠ n →
          t.slot q = { s.slot q with
            chainNext := if s.chainBefore n r.place = some q then r.chainNext
              else (s.slot q).chainNext
            predecessor := (t.slot q).predecessor, successor := (t.slot q).successor } ∧
          (NamesBack s r.predecessor Record.successor folio q → (t.slot q).successor = none) ∧
          (¬ NamesBack s r.predecessor Record.successor folio q →
            (t.slot q).successor = (s.slot q).successor) ∧
          (NamesBack s r.successor Record.predecessor folio q → (t.slot q).predecessor = none) ∧
          (¬ NamesBack s r.successor Record.predecessor folio q →
            (t.slot q).predecessor = (s.slot q).predecessor)) ∧
        Unchanged [.port, .folio, .record, .images] s t ∧
        RecordKept s t
          (n :: ((r.predecessor.map fun f => f.toNat / 16).toList ++
            ((r.successor.map fun f => f.toNat / 16).toList ++ (s.chainBefore n r.place).toList)))
          [r.place] (s.images.free.tail.toList ++ r.plateTail.toList))

/-- SHED IMAGE (R31). Refusals in order: STATE, HELD, IN USE, NO IMAGE. Otherwise the record gives up its
plates to the tail of the free plate queue, linked as R140 says, and keeps its digest, its side count and
everything else. (The model's choices here: log 9.) -/
def Obligations.ShedImageGivesUpPlates : Prop :=
  ∀ (s : State) (tag : Tag) (folio : Word) (r : Record), Names s folio r → Takes 2 s →
    let n := folio.toNat / 16
    let used := s.folio.auditMark = some n ∨ s.folio.exportMark = some n
    (r.state ≠ .filed → Reads (.shedImage tag folio) s 8 tag []) ∧
    (r.state = .filed → Held s r → Reads (.shedImage tag folio) s 5 tag []) ∧
    (r.state = .filed → ¬ Held s r → used → Reads (.shedImage tag folio) s 7 tag []) ∧
    (r.state = .filed → ¬ Held s r → ¬ used → r.image = .shed →
      Reads (.shedImage tag folio) s 15 tag []) ∧
    (Canonical s → r.state = .filed → ¬ Held s r → ¬ used → r.image = .resident →
      After (.shedImage tag folio) s fun t =>
        Answers s t 0 tag [pack [(15, r.plateCount)]] ∧
        t.slot n = { r with image := .shed, plateHead := none, plateTail := none, plateCount := 0 } ∧
        (0 < r.plateCount → t.images.free =
          { head := if s.images.free.length = 0 then r.plateHead else s.images.free.head,
            tail := r.plateTail, length := s.images.free.length + r.plateCount }) ∧
        (r.plateCount = 0 → t.images.free = s.images.free) ∧
        ChainsReturned s t [⟨r.plateHead, r.plateTail, r.plateCount⟩] ∧
        t.images = { s.images with free := t.images.free } ∧
        Unchanged [.port, .record, .images] s t ∧
        RecordKept s t [n] [] (s.images.free.tail.toList ++ r.plateTail.toList))

/-- PURGE SLOT (R32), code 1Ch with one argument: a slot above 4095 answers BAD ARGUMENT, one not DAMAGED
STATE; otherwise the slot goes FREE with its generation up by 1, every other field at its FREE value, the
free-slot count goes up by 1, and the reply is the slot's new folio number. No matter and no plate
changes. -/
def Obligations.PurgeSlotFrees : Prop :=
  ∀ (s : State) (tag : Tag) (slot : Word), Takes 2 s →
    TakenFrom (.purgeSlot tag slot) 0x1C tag [slot] ∧
    (4095 < slot.toNat → Reads (.purgeSlot tag slot) s 18 tag []) ∧
    (slot.toNat ≤ 4095 → (s.slot slot.toNat).state ≠ .damaged →
      Reads (.purgeSlot tag slot) s 8 tag []) ∧
    (Canonical s → slot.toNat ≤ 4095 → (s.slot slot.toNat).state = .damaged →
      After (.purgeSlot tag slot) s fun t =>
        Answers s t 0 tag [BitVec.ofNat 16 (slot.toNat * 16 +
          ((s.slot slot.toNat).generation + 1).toNat)] ∧
        SlotWritten s t slot.toNat { generation := (s.slot slot.toNat).generation + 1 } ∧
        t.folio = { s.folio with freeSlots := s.folio.freeSlots + 1 } ∧
        Unchanged [.port, .folio, .record] s t)

/-! ## The Assembler's requests (R62, R64, R67 to R69) -/

/-- MOUNT TRAY, DISMOUNT TRAY and READ TRAY (R67, R68, R69). MOUNT TRAY answers BAD ARGUMENT for a tray, a
limit or a fill out of range and STATE for a mounted tray, and otherwise mounts it with the values given and
nothing committed. DISMOUNT TRAY answers BAD ARGUMENT, STATE for an empty tray, BOUND, and BUSY with pages
committed, and otherwise empties the tray and gives its box and fill. READ TRAY gives a tray and the
Assembler's state and changes nothing. (The model's choices here: log 9.) -/
def Obligations.TrayRequests : Prop :=
  (∀ (s : State) (tag : Tag) (tray : Word) (box : Long) (soft hard fill : Word), Takes 2 s →
    let bad := tray.toNat < 1 ∨ 4 < tray.toNat ∨ hard.toNat < 1 ∨ 2000 < hard.toNat ∨
      soft.toNat < 1 ∨ hard.toNat < soft.toNat ∨ hard.toNat ≤ fill.toNat
    (bad → Reads (.mountTray tag tray box soft hard fill) s 18 tag []) ∧
    (∀ k : TrayIx, tray.toNat = k.val + 1 → ¬ bad → s.assembler.trays[k].mounted = true →
      Reads (.mountTray tag tray box soft hard fill) s 8 tag []) ∧
    (∀ k : TrayIx, tray.toNat = k.val + 1 → ¬ bad → s.assembler.trays[k].mounted = false →
      After (.mountTray tag tray box soft hard fill) s fun t =>
        Answers s t 0 tag [pack [(1, bit (decide (fill.toNat < soft.toNat)))]] ∧
        t.assembler.trays[k] = ⟨true, box, hard.toNat, soft.toNat, fill.toNat, 0⟩ ∧
        (∀ j : TrayIx, j ≠ k → t.assembler.trays[j] = s.assembler.trays[j]) ∧
        t.assembler = { s.assembler with trays := t.assembler.trays } ∧
        Unchanged [.port, .assembler] s t)) ∧
  (∀ (s : State) (tag : Tag) (tray : Word),
    (Takes 4 s → tray.toNat < 1 ∨ 4 < tray.toNat → Reads (.dismountTray tag tray) s 18 tag []) ∧
    (Takes 11 s → tray.toNat < 1 ∨ 4 < tray.toNat → Reads (.readTray tag tray) s 18 tag []) ∧
    (∀ k : TrayIx, tray.toNat = k.val + 1 →
      let m := s.assembler.trays[k]
      (Takes 4 s → m.mounted = false → Reads (.dismountTray tag tray) s 8 tag []) ∧
      (Takes 4 s → m.mounted = true → (∃ d, s.assembler.openDocument = some d ∧ d.tray = k) →
        Reads (.dismountTray tag tray) s 12 tag []) ∧
      (Takes 4 s → m.mounted = true → (∀ d, s.assembler.openDocument = some d → d.tray ≠ k) →
        0 < m.committed → Reads (.dismountTray tag tray) s 11 tag []) ∧
      (Takes 4 s → m.mounted = true → (∀ d, s.assembler.openDocument = some d → d.tray ≠ k) →
        m.committed = 0 → After (.dismountTray tag tray) s fun t =>
          Answers s t 0 tag [m.box.extractLsb' 16 16, m.box.extractLsb' 0 16, pack [(11, m.fill)]] ∧
          t.assembler.trays[k] = ⟨false, 0, 0, 0, 0, 0⟩ ∧
          (∀ j : TrayIx, j ≠ k → t.assembler.trays[j] = s.assembler.trays[j]) ∧
          t.assembler = { s.assembler with trays := t.assembler.trays } ∧
          Unchanged [.port, .assembler] s t) ∧
      (Takes 11 s → Reads (.readTray tag tray) s 0 tag
        [pack [(1, bit m.mounted)], m.box.extractLsb' 16 16, m.box.extractLsb' 0 16,
          pack [(11, m.soft)], pack [(11, m.hard)], pack [(11, m.fill)], pack [(11, m.committed)],
          pack [(1, bit (s.bound k)), (1, bit (m.mounted && m.fill + m.committed < m.soft)),
            (3, s.assembler.rotation.val + 1), (1, bit s.assembler.marker),
            (1, bit s.assembler.openDocument.isSome), (1, bit s.assembler.lastClosed.isSome)],
          (match s.assembler.openDocument with | some d => d.folio | none => 0),
          s.assembler.lastClosed.getD 0])))

/-- CLOSE DOCUMENT (R14, R17, R62, R64): a flag that is not 0 or 1 answers BAD ARGUMENT. With no document
open only the marker changes. With one open, its record goes to FILING, or with nothing outstanding to
FILED, whose notice is posted where the queue has room and none is kept and is kept otherwise; the
document is closed and remembered. The reply says whether one was closed, FILING 0, FILED 1 or absent 2 by
R193, and the marker. -/
def Obligations.CloseDocumentCloses : Prop :=
  ∀ (s : State) (tag : Tag) (flag : Word), Takes 3 s →
    (1 < flag.toNat → Reads (.closeDocument tag flag) s 18 tag []) ∧
    (flag.toNat ≤ 1 → s.assembler.openDocument = none → After (.closeDocument tag flag) s fun t =>
      Answers s t 0 tag [pack [(1, 0), (2, 2), (1, flag.toNat)], 0] ∧
      t.assembler = { s.assembler with marker := decide (flag = 1) } ∧ Unchanged [.port, .assembler] s t) ∧
    (∀ d, flag.toNat ≤ 1 → s.assembler.openDocument = some d → Canonical s →
      let n := d.folio.toNat / 16
      let r := s.slot n
      let notice := Notice.documentFiled (folioNumber s n) r.pageCount r.shelved r.exceptions.length
        r.overflow
      (0 < r.outstanding → After (.closeDocument tag flag) s fun t =>
        Answers s t 0 tag [pack [(1, 1), (2, 0), (1, flag.toNat)], d.folio] ∧
        SlotWritten s t n { r with state := .filing } ∧
        t.assembler = { s.assembler with
          openDocument := none, lastClosed := some d.folio, marker := decide (flag = 1) } ∧
        Unchanged [.port, .record, .assembler] s t) ∧
      (r.outstanding = 0 → After (.closeDocument tag flag) s fun t =>
        t.port = { s.port with
          replies := s.port.replies ++
            replyWords 0 tag [pack [(1, 1), (2, 1), (1, flag.toNat)], d.folio],
          notices := t.port.notices } ∧
        (s.folio.kept = [] → s.port.notices.length < 16 →
          t.port.notices = s.port.notices ++ [notice] ∧ t.folio = s.folio) ∧
        (s.folio.kept ≠ [] ∨ 16 ≤ s.port.notices.length →
          t.port.notices = s.port.notices ∧
          t.folio = { s.folio with kept := s.folio.kept ++ [notice] }) ∧
        SlotWritten s t n { r with state := .filed } ∧
        t.assembler = { s.assembler with
          openDocument := none, lastClosed := some d.folio, marker := decide (flag = 1) } ∧
        Unchanged [.port, .folio, .record, .assembler] s t))

/-! ## The term list (R74 to R98) -/

/-- LOAD TERMS and READ TERMS (R75, R77). LOAD TERMS is refused with STATE out of IDLE and with BAD
ARGUMENT beyond place 63; otherwise the words stand in consecutive places, every other place and all
stored values stay, and the reply is the place after the last. READ TERMS gives up to six places and the
three words of stored values. (The model's choices here: log 9.) -/
def Obligations.LoadAndReadTerms : Prop :=
  (∀ (s : State) (tag : Tag) (first : Word) (terms : List Word), 1 ≤ terms.length →
    terms.length ≤ 6 → Takes 2 s →
    (s.batch.state ≠ .idle → Reads (.loadTerms tag first terms) s 8 tag []) ∧
    (s.batch.state = .idle → 63 < first.toNat ∨ 64 < first.toNat + terms.length →
      Reads (.loadTerms tag first terms) s 18 tag []) ∧
    (s.batch.state = .idle → first.toNat ≤ 63 → first.toNat + terms.length ≤ 64 →
      After (.loadTerms tag first terms) s fun t =>
        Answers s t 0 tag [pack [(7, first.toNat + terms.length)]] ∧
        (∀ k : Fin 64, t.evaluator.terms[k] =
          (if first.toNat ≤ k.val ∧ k.val < first.toNat + terms.length then
            terms.getD (k.val - first.toNat) 0 else s.evaluator.terms[k])) ∧
        t.evaluator = { s.evaluator with terms := t.evaluator.terms } ∧
        Unchanged [.port, .evaluator] s t)) ∧
  (∀ (s : State) (tag : Tag) (first : Word), Takes 10 s →
    (63 < first.toNat → Reads (.readTerms tag first) s 18 tag []) ∧
    (first.toNat ≤ 63 → Reads (.readTerms tag first) s 0 tag
      ((s.evaluator.terms.toList.drop first.toNat).take 6 ++
        [pack ((List.finRange 8).map (fun k => (1, bit s.evaluator.latches[k])) ++
            (List.finRange 8).map fun k => (1, bit s.evaluator.marks[k])),
          pack ((List.finRange 8).map (fun k => (1, bit s.evaluator.pulses[k])) ++
            (List.finRange 8).map fun k => (1, bit s.evaluator.memories[k])),
          pack [(1, bit s.evaluator.tags.tag0), (1, bit s.evaluator.tags.tag1),
            (1, bit s.evaluator.tags.tag2), (1, bit s.evaluator.tags.tag3)]])))

/-- CLEAR TERMS (R76), code 31h with no argument: refused with STATE out of IDLE; in IDLE every place is END
with operand 0, every latch, pulse value, pulse memory, tag and mark is false, the tag lines' function
values with them, and the reply is OK with no result words. -/
def Obligations.ClearTermsClears : Prop :=
  ∀ (s : State) (tag : Tag), Takes 1 s →
    TakenFrom (.clearTerms tag) 0x31 tag [] ∧
    (s.batch.state ≠ .idle → Reads (.clearTerms tag) s 8 tag []) ∧
    (s.batch.state = .idle → After (.clearTerms tag) s fun t =>
      Answers s t 0 tag [] ∧
      (∀ k : Fin 64, termKind t.evaluator.terms[k] = some .endList ∧
        termOperand t.evaluator.terms[k] = 0) ∧
      (∀ k : Fin 8, t.evaluator.latches[k] = false ∧ t.evaluator.pulses[k] = false ∧
        t.evaluator.memories[k] = false ∧ t.evaluator.marks[k] = false) ∧
      t.evaluator.tags = ⟨false, false, false, false⟩ ∧
      (∀ l : LineIx, 18 ≤ l.val → l.val ≤ 21 → t.functionValue l = false) ∧
      Unchanged [.port, .evaluator] s t)

namespace Sys2Proof.Claims

/-- The values a kind needs on the condition stack (R74). -/
def valuesNeeded (k : TermKind) : Nat :=
  if k ∈ [.load, .loadNot, .recall, .gateEnd, .skipEnd, .endList] then 0
  else if k ∈ [.mergeAnd, .mergeOr, .keep] then 2
  else 1

/-- The net change of a kind to the depth of the condition stack (R74). -/
def netChange (k : TermKind) : Int :=
  if k ∈ [.load, .loadNot, .recall] then 1
  else if k ∈ [.and, .andNot, .or, .orNot, .save, .gateEnd, .skipEnd, .endList] then 0
  else if k = .keep then -2
  else -1

/-- A term word that passes the checks of R94: a defined kind, its operand in range, no pulse number used
before. -/
def Sound (v : Walk) (w : Word) (k : TermKind) (n : Nat) : Prop :=
  termKind w = some k ∧ termOperand w = n ∧ k.range.1 ≤ n ∧ n ≤ k.range.2 ∧
    ¬ ((k = .pulseRise ∨ k = .pulseFall) ∧ n ∈ v.pulses)

/-- A sound term that also passes the checks of R95, the walk having come to a depth after it. -/
def Fits (v : Walk) (w : Word) (k : TermKind) (n depth : Nat) : Prop :=
  Sound v w k n ∧ valuesNeeded k ≤ v.depth ∧ (depth : Int) = v.depth + netChange k ∧ depth ≤ 8

/-- The walk after a term, but for the regions: its depth, the largest depth, the pulses named (R94,
R95). -/
def walked (v : Walk) (k : TermKind) (n depth : Nat) : Walk :=
  { v with
    depth := depth
    maxDepth := max v.maxDepth depth
    pulses := if k = .pulseRise ∨ k = .pulseFall then n :: v.pulses else v.pulses }

/-- Open gate regions on a walk (R96). -/
def gatesOpen (v : Walk) : Nat := v.regions.countP fun r => decide (r = .gate)

/-- A skip region of a number is open (R97). -/
def SkipOpen (v : Walk) (n : Nat) : Prop := ∃ d, Region.skip n d ∈ v.regions

/-- The walk of validation, place by place (R93): it ends at the first failing place, at the first END, or
after the last place with the end checks. -/
def WalkGoesOn : Prop :=
  (∀ e : Evaluator, e.validate = validateFrom 0 e.terms.toList {}) ∧
  (∀ (i : Nat) (w : Word) (rest : List Word) (v : Walk),
    (∀ reason, v.place w = .error reason → validateFrom i (w :: rest) v = .invalid i reason) ∧
    (∀ u, v.place w = .ok u → termKind w = some .endList →
      validateFrom i (w :: rest) v = .valid (i + 1) u) ∧
    (∀ u, v.place w = .ok u → termKind w ≠ some .endList →
      validateFrom i (w :: rest) v = validateFrom (i + 1) rest u)) ∧
  (∀ (i : Nat) (v : Walk),
    (∀ reason, v.endCheck = .error reason → validateFrom i [] v = .invalid (i - 1) reason) ∧
    (v.endCheck = .ok v → validateFrom i [] v = .valid i v))

/-- The checks of R94 and R95 at one place. -/
def TermChecked (v : Walk) (w : Word) : Prop :=
  (termKind w = none → v.place w = .error .kind) ∧
  (∀ k, termKind w = some k → (termOperand w < k.range.1 ∨ k.range.2 < termOperand w) →
    v.place w = .error .operand) ∧
  (∀ k, k = .pulseRise ∨ k = .pulseFall → termKind w = some k → termOperand w ≤ 7 →
    termOperand w ∈ v.pulses → v.place w = .error .pulseReused) ∧
  (∀ k n, Sound v w k n → v.depth < valuesNeeded k → v.place w = .error .underflow) ∧
  (∀ k n, Sound v w k n → valuesNeeded k ≤ v.depth → 8 < v.depth + netChange k →
    v.place w = .error .overflow) ∧
  (∀ k n depth, Fits v w k n depth → k ∉ [.gate, .gateEnd, .skip, .skipEnd, .endList] →
    v.place w = .ok (walked v k n depth))

/-- The checks of R96 and R97 at one place. -/
def RegionChecked (v : Walk) (w : Word) : Prop :=
  (∀ n depth, Fits v w .gate n depth →
    (4 ≤ gatesOpen v → v.place w = .error .gateDepth) ∧
    (gatesOpen v < 4 → v.place w = .ok { walked v .gate n depth with
      regions := .gate :: v.regions, maxGates := max v.maxGates (gatesOpen v + 1) })) ∧
  (∀ n depth, Fits v w .gateEnd n depth →
    (gatesOpen v = 0 → v.place w = .error .gateUnmatched) ∧
    (∀ m d rest, gatesOpen v ≠ 0 → v.regions = .skip m d :: rest → v.place w = .error .nesting) ∧
    (∀ rest, v.regions = .gate :: rest →
      v.place w = .ok { walked v .gateEnd n depth with regions := rest })) ∧
  (∀ n depth, Fits v w .skip n depth →
    (n ≠ 0 → n ∈ v.skips → v.place w = .error .skipReused) ∧
    (n = 0 → SkipOpen v 0 → v.place w = .error .nesting) ∧
    (¬ (n ≠ 0 ∧ n ∈ v.skips) → ¬ (n = 0 ∧ SkipOpen v 0) →
      v.place w = .ok { walked v .skip n depth with
        regions := .skip n depth :: v.regions, skips := n :: v.skips })) ∧
  (∀ n depth, Fits v w .skipEnd n depth →
    (¬ SkipOpen v n → v.place w = .error .skipUnmatched) ∧
    (∀ rest, SkipOpen v n → v.regions = .gate :: rest → v.place w = .error .nesting) ∧
    (∀ m d rest, SkipOpen v n → v.regions = .skip m d :: rest → m ≠ n →
      v.place w = .error .nesting) ∧
    (∀ d rest, v.regions = .skip n d :: rest → d ≠ depth → v.place w = .error .skipDepth) ∧
    (∀ rest, v.regions = .skip n depth :: rest →
      v.place w = .ok { walked v .skipEnd n depth with regions := rest }))

/-- The end checks: at END, and after the last place (R93, R95 to R97). -/
def EndChecked (v : Walk) : Prop :=
  (∀ w, Sound v w .endList 0 → v.depth ≤ 8 → v.place w = v.endCheck) ∧
  ((∃ n, SkipOpen v n) → v.endCheck = .error .skipUnmatched) ∧
  ((∀ n, ¬ SkipOpen v n) → 0 < gatesOpen v → v.endCheck = .error .gateUnmatched) ∧
  (v.regions = [] → v.depth ≠ 0 → v.endCheck = .error .depthAtEnd) ∧
  (v.regions = [] → v.depth = 0 → v.endCheck = .ok v)

end Sys2Proof.Claims

/-- CHECK TERMS and validation (R93 to R98). CHECK TERMS changes nothing and answers as the validation of
the list comes out, OK with the places, the depth and the gates reached, or TERMS with index and reason.
Validation walks the list place by place to the first END or the last place; at each place it makes the
checks of the term alone, of the stack's depth, and of gate and skip regions, each failing with its
reason, and at the end the end checks. A list whose first place is END is valid at place 1. (The model's
choices here: log 9.) -/
def Obligations.CheckTermsValidates : Prop :=
  (∀ (s : State) (tag : Tag), Takes 3 s →
    (match s.evaluator.validate with
      | .valid places walk => Reads (.checkTerms tag) s 0 tag
          [pack [(7, places)], pack [(4, walk.maxDepth), (3, walk.maxGates)]]
      | .invalid place reason => Reads (.checkTerms tag) s 14 tag
          [pack [(6, place)], pack [(4, match reason with
            | .kind => 1 | .operand => 2 | .pulseReused => 3 | .underflow => 4 | .overflow => 5
            | .gateDepth => 6 | .gateUnmatched => 7 | .skipReused => 8 | .skipUnmatched => 9
            | .skipDepth => 10 | .nesting => 11 | .depthAtEnd => 12)]]) ∧
    (s.evaluator.terms[0] = 0 → Reads (.checkTerms tag) s 0 tag [pack [(7, 1)], 0]) ∧
    (0x1A ≤ (s.evaluator.terms[0].extractLsb' 8 8).toNat →
      Reads (.checkTerms tag) s 14 tag [0, pack [(4, 1)]]) ∧
    (∀ k, termKind s.evaluator.terms[0] = some k →
      (termOperand s.evaluator.terms[0] < k.range.1 ∨ k.range.2 < termOperand s.evaluator.terms[0]) →
      Reads (.checkTerms tag) s 14 tag [0, pack [(4, 2)]])) ∧
  WalkGoesOn ∧ (∀ (v : Walk) (w : Word), TermChecked v w ∧ RegionChecked v w) ∧ ∀ v, EndChecked v

namespace Sys2Proof.Claims

/-- The terms that read a signal, a mark or the gate stack and pop nothing (R81 to R84). -/
def PushingTerms (sampled : List Bool) (e : Evaluator) : Prop :=
  (∀ n, e.runTerm sampled .load n = { e with stack := e.signal sampled n :: e.stack } ∧
    e.runTerm sampled .loadNot n = { e with stack := (!e.signal sampled n) :: e.stack }) ∧
  (∀ (n : Nat) (h : n < 8), e.runTerm sampled .recall n = { e with stack := e.marks[n] :: e.stack }) ∧
  e.runTerm sampled .gateEnd 0 = { e with gates := e.gates.tail } ∧
  ∀ n, e.runTerm sampled .skipEnd n = e

/-- The terms that work on the top of the stack alone (R81 to R83). -/
def StackTerms (sampled : List Bool) (e : Evaluator) (a : Bool) (rest : List Bool) : Prop :=
  (∀ n, let sig := e.signal sampled n
    e.runTerm sampled .and n = { e with stack := (a && sig) :: rest } ∧
    e.runTerm sampled .andNot n = { e with stack := (a && !sig) :: rest } ∧
    e.runTerm sampled .or n = { e with stack := (a || sig) :: rest } ∧
    e.runTerm sampled .orNot n = { e with stack := (a || !sig) :: rest }) ∧
  (∀ (n : Nat) (h : n < 8),
    e.runTerm sampled .save n = { e with marks := e.marks.set n a h }) ∧
  e.runTerm sampled .gate 0 =
    { e with stack := rest, gates := (a && e.gates.headD true) :: e.gates }

/-- The outcome terms: each pops one value and acts when it is true and gated (R85). -/
def OutcomeTerms (sampled : List Bool) (e : Evaluator) (acts : Bool) (rest : List Bool) : Prop :=
  (∀ k : TrayIx, e.runTerm sampled .route (k.val + 1) = { e with
    stack := rest, outcome.route := if acts then .tray k else e.outcome.route }) ∧
  e.runTerm sampled .routeNext 0 = { e with
    stack := rest, outcome.route := if acts then .rotation else e.outcome.route } ∧
  (∀ n, e.runTerm sampled .reject n = { e with
    stack := rest, outcome.reject := if acts then some n else e.outcome.reject }) ∧
  e.runTerm sampled .separate 0 = { e with
    stack := rest, outcome.separator := e.outcome.separator || acts } ∧
  e.runTerm sampled .holdOnFile 0 = { e with
    stack := rest, outcome.intakeHold := e.outcome.intakeHold || acts }

/-- The terms that write latches, pulses and tags, `acts` being the popped value and the gate (R86, R88,
R89). -/
def StoredTerms (sampled : List Bool) (e : Evaluator) (acts : Bool) (rest : List Bool) (n : Nat)
    (h : n < 8) : Prop :=
  e.runTerm sampled .latchSet n = { e with
    stack := rest, latches := if acts then e.latches.set n true h else e.latches } ∧
  e.runTerm sampled .latchReset n = { e with
    stack := rest, latches := if acts then e.latches.set n false h else e.latches } ∧
  e.runTerm sampled .pulseRise n = { e with
    stack := rest
    pulses := e.pulses.set n (acts && !e.memories[n]) h
    memories := e.memories.set n acts h } ∧
  e.runTerm sampled .pulseFall n = { e with
    stack := rest
    pulses := e.pulses.set n (!acts && e.memories[n]) h
    memories := e.memories.set n acts h } ∧
  (n < 4 → ∃ tags : Tags, e.runTerm sampled .tag n = { e with stack := rest, tags := tags } ∧
    tags = ⟨if n = 0 then acts else e.tags.tag0, if n = 1 then acts else e.tags.tag1,
      if n = 2 then acts else e.tags.tag2, if n = 3 then acts else e.tags.tag3⟩)

/-- The terms that pop two values (R81, R87): of KEEP the reset condition is on top, and reset wins. -/
def PairTerms (sampled : List Bool) (e : Evaluator) (a b : Bool) (rest : List Bool) : Prop :=
  e.runTerm sampled .mergeAnd 0 = { e with stack := (a && b) :: rest } ∧
  e.runTerm sampled .mergeOr 0 = { e with stack := (a || b) :: rest } ∧
  ∀ (n : Nat) (h : n < 8), e.runTerm sampled .keep n = { e with
    stack := rest
    latches := if e.gates.headD true = false then e.latches
      else if a then e.latches.set n false h
      else if b then e.latches.set n true h
      else e.latches }

/-- What a signal reads (R78, R79): latches, pulses and tags as they stand, the others as sampled. -/
def SignalsRead (sampled : List Bool) (e : Evaluator) : Prop :=
  (∀ (n : Nat) (h : n < 8), e.signal sampled (24 + n) = e.latches[n] ∧
    e.signal sampled (32 + n) = e.pulses[n]) ∧
  e.signal sampled 40 = e.tags.tag0 ∧ e.signal sampled 41 = e.tags.tag1 ∧
  e.signal sampled 42 = e.tags.tag2 ∧ e.signal sampled 43 = e.tags.tag3 ∧
  ∀ n, n < 24 ∨ 43 < n → e.signal sampled n = sampled.getD n false

/-- The order of the terms (R80, R84): place by place to the first END; a SKIP whose popped value is false
goes on behind the first SKIP END of its number. -/
def TermOrder (sampled : List Bool) (e : Evaluator) (w : Word) (places : List Word) : Prop :=
  Evaluator.run sampled [] none e = e ∧
  (termKind w = some .endList → Evaluator.run sampled (w :: places) none e = e) ∧
  (∀ k, termKind w = some k → k ≠ .endList → k ≠ .skip → Evaluator.run sampled (w :: places) none e =
    Evaluator.run sampled places none (e.runTerm sampled k (termOperand w))) ∧
  (∀ rest, termKind w = some .skip → e.stack = true :: rest →
    Evaluator.run sampled (w :: places) none e =
      Evaluator.run sampled places none { e with stack := rest }) ∧
  (∀ rest before x after, termKind w = some .skip → e.stack = false :: rest →
    places = before ++ x :: after → termKind x = some .skipEnd → termOperand x = termOperand w →
    (∀ y ∈ before, ¬ (termKind y = some .skipEnd ∧ termOperand y = termOperand w)) →
    Evaluator.run sampled (w :: places) none e =
      Evaluator.run sampled after none { e with stack := rest })

/-- The matter of the batch is held (R52): its hold count is above 0. -/
def MatterHeld (s : State) : Prop :=
  ∃ place, InDirectory s s.batch.matter place ∧ 0 < (s.matterAt place).holdCount

/-- The signals sampled at the start of an evaluation for a ticket, by their numbers (R52, R78). -/
def SignalsSampled (s : State) (u : Ticket) : Prop :=
  let signal (n : Nat) (value : Prop) := ∃ b, (s.sampledSignals u)[n]? = some b ∧ (b = true ↔ value)
  (s.sampledSignals u).length = 48 ∧
  signal 0 True ∧ signal 1 u.flags.doubleFeed ∧ signal 2 u.flags.skewOver ∧
  signal 3 u.flags.short ∧ signal 4 u.flags.long ∧ signal 5 u.flags.separatorMark ∧
  signal 6 u.flags.blankFront ∧ signal 7 (u.flags.blankBack ∧ s.batch.duplex) ∧
  signal 8 u.flags.imageLost ∧ signal 9 (s.assembler.openDocument = none) ∧
  signal 10 s.assembler.marker ∧ signal 11 s.batch.duplex ∧
  (∀ k, k < 4 → signal (12 + k) (s.batch.cls.getLsbD k)) ∧
  (∀ k : TrayIx, signal (16 + k.val) (s.assembler.trays[k].mounted ∧
    s.assembler.trays[k].fill + s.assembler.trays[k].committed < s.assembler.trays[k].soft)) ∧
  (∀ k : TrayIx, signal (20 + k.val) s.assembler.trays[k].mounted) ∧
  signal 44 (s.seen 22) ∧ signal 45 (s.seen 23) ∧
  signal 46 (∃ d, s.assembler.openDocument = some d ∧ 240 ≤ (s.slot (d.folio.toNat / 16)).pageCount) ∧
  signal 47 (MatterHeld s)

end Sys2Proof.Claims

/-- What each kind of term does, as the whole evaluator after it (R79 to R89): the terms that push, those
that work on the stack's top, the outcome terms, LATCH SET, LATCH RESET, the pulses, TAG, MERGE AND, MERGE
OR and KEEP; what a signal reads; the order of the terms and what a SKIP passes over. The stack's top is
the list's head; a term is gated by the top of the gate stack, or always while it is empty. An evaluation
starts with empty stacks, cleared outcomes and false marks, and with the signals as they then stand, each
under its number of R78. -/
def Obligations.TermEffects : Prop :=
  (∀ (sampled : List Bool) (e : Evaluator),
    PushingTerms sampled e ∧ SignalsRead sampled e ∧
    (∀ w places, TermOrder sampled e w places) ∧
    (∀ a rest, e.stack = a :: rest →
      let acts := a && e.gates.headD true
      StackTerms sampled e a rest ∧ OutcomeTerms sampled e acts rest ∧
      (∀ n h, StoredTerms sampled e acts rest n h) ∧
      ∀ b rest', rest = b :: rest' → PairTerms sampled e a b rest')) ∧
  ∀ (s : State) (u : Ticket), SignalsSampled s u ∧ s.evaluate u =
    Evaluator.run (s.sampledSignals u) s.evaluator.terms.toList none { s.evaluator with
      stack := [], gates := [], outcome := ⟨false, none, .none, false⟩
      marks := Vector.replicate 8 false }

/-! ## The train's requests (R103 to R105, R121 to R123) -/

/-- READ TRAIN and READ TICKET (R121, R122, R193): both change nothing but the reply FIFO. (The model's
choices here: log 9.) -/
def Obligations.TrainReads : Prop :=
  (∀ (s : State) (tag : Tag), Takes 28 s →
    Reads (.readTrain tag) s 0 tag
      ([pack [(3, s.tracker.train.length), (3, s.tracker.train.countP fun u => u.stage ≠ .decided),
          (1, bit s.tracker.stopped)],
        s.tracker.travel.extractLsb' 16 16, s.tracker.travel.extractLsb' 0 16] ++
      (s.tracker.train.map fun u =>
        [u.ordinal,
          pack [(3, u.stage.code), (3, match u.path with | some k => k.val + 1 | none => 0),
            (3, match u.decision with
              | none => 7
              | some d => match d.route with | some k => k.val + 1 | none => 0),
            (1, match u.decision with | none => 0 | some d => bit d.page.isSome),
            (2, match u.decision with
              | none => 2
              | some d => match d.astray with
                | some .late => 0 | some .gateBusy => 1 | none => 2)],
          pack [(1, bit u.flags.doubleFeed), (1, bit u.flags.separatorMark),
            (1, bit u.flags.skewOver), (1, bit u.flags.short), (1, bit u.flags.long),
            (1, bit u.flags.blankFront), (1, bit u.flags.blankBack), (1, bit u.flags.imageLost),
            (1, bit u.flags.exitedUndecided)],
          word (min 65535 (s.tracker.travel - u.entry).toNat)]).flatten)) ∧
  (∀ (s : State) (tag : Tag) (ordinal : Word), Takes 11 s →
    (ordinal = 0 → Reads (.readTicket tag ordinal) s 18 tag []) ∧
    (ordinal ≠ 0 → (∀ u ∈ s.tracker.train, u.ordinal ≠ ordinal) →
      Reads (.readTicket tag ordinal) s 2 tag []) ∧
    (∀ u, ordinal ≠ 0 → s.ticket ordinal = some u → After (.readTicket tag ordinal) s fun t =>
      Unchanged [.port] s t ∧
      ∃ words : List Word, words.length = 10 ∧ Answers s t 0 tag words ∧
        words[0]? = some ordinal ∧ words[1]? = some (u.entry.extractLsb' 16 16) ∧
        words[2]? = some (u.entry.extractLsb' 0 16) ∧
        words[3]? = some (pack [(13, u.length.getD 0)]) ∧
        words[4]? = some (match u.delta with | some d => BitVec.ofInt 16 d | none => 0x8000) ∧
        words[5]? = some (pack [(6, u.frontChain.count)]) ∧
        words[6]? = some (pack [(6, u.backChain.count)]) ∧
        (u.decision = none → words[7]? = some 0 ∧ words[8]? = some (pack [(8, 251), (5, 20)]) ∧
          words[9]? = some (pack ((4, 0) :: (List.finRange 4).map fun k => (2, u.gates[k].code)))) ∧
        (∀ d g, u.decision = some d → d.page = some g → d.reason = none →
          words[7]? = some g.folio ∧ words[8]? = some (pack [(8, g.ordinal), (5, 20)])) ∧
        (∀ d, u.decision = some d → d.page = none → words[7]? = some 0 ∧
          words[8]? = some (pack [(8, 251), (5, match d.reason with
            | some .separator => 0
            | some .imageLost => 1
            | some (.code n) => 1 + n
            | some .noRoute => 17
            | some .trayUnavailable => 18
            | some .noRecord => 19
            | none => 20)])) ∧
        (∀ d, u.decision = some d → words[9]? = some (pack
          ([(1, bit d.tags.tag0), (1, bit d.tags.tag1), (1, bit d.tags.tag2), (1, bit d.tags.tag3)] ++
            (List.finRange 4).map fun k => (2, u.gates[k].code))))))

/-- SET PATH (R103, R104): STATE out of IDLE; BAD ARGUMENT for items beyond 18, a value out of its item's
range, or a profile that would not be valid; otherwise the values stand in consecutive items, the others
stay, and the reply is the item after the last. (The model's choices here: log 9.) -/
def Obligations.SetPathStores : Prop :=
  ∀ (s : State) (tag : Tag) (first : Word) (values : List Word) (after : Vector Nat 19),
    1 ≤ values.length → values.length ≤ 6 → Takes 2 s →
    (∀ k : Fin 19, after[k] =
      if first.toNat ≤ k.val ∧ k.val < first.toNat + values.length then
        (values.getD (k.val - first.toNat) 0).toNat else s.tracker.profile[k]) →
    let inside := first.toNat ≤ 18 ∧ first.toNat + values.length ≤ 19
    let ranged := ∀ k, k < values.length →
      (itemRange (first.toNat + k)).1 ≤ (values.getD k 0).toNat ∧
      (values.getD k 0).toNat ≤ (itemRange (first.toNat + k)).2
    (s.batch.state ≠ .idle → Reads (.setPath tag first values) s 8 tag []) ∧
    (s.batch.state = .idle → ¬ (inside ∧ ranged ∧ validProfile after = true) →
      Reads (.setPath tag first values) s 18 tag []) ∧
    (s.batch.state = .idle → inside → ranged → validProfile after = true →
      After (.setPath tag first values) s fun t =>
        Answers s t 0 tag [pack [(5, first.toNat + values.length)]] ∧
        t.tracker = { s.tracker with profile := after } ∧ Unchanged [.port, .tracker] s t)

/-- READ PATH (R105): an item above 18 answers BAD ARGUMENT; otherwise the reply is OK with the values of
up to six consecutive items, from the first up to item 18, each in the bits that hold its range (R193);
nothing else changes, in every batch state. (The model's choices here: log 9.) -/
def Obligations.ReadPathAnswers : Prop :=
  ∀ (s : State) (tag : Tag) (first : Word), Takes 7 s →
    (18 < first.toNat → Reads (.readPath tag first) s 18 tag []) ∧
    (first.toNat ≤ 18 → ∃ words : List Word, words.length = min 6 (19 - first.toNat) ∧
      Reads (.readPath tag first) s 0 tag words ∧
      ∀ (k : Nat) (h : first.toNat + k < 19), k < words.length →
        words[k]? = some (pack [(itemWidth (first.toNat + k), s.tracker.profile[first.toNat + k])]))

namespace Sys2Proof.Claims

/-- A notice of the Batch Controller has been posted where the queue has room and none is kept, and joins
those it keeps otherwise (R177). -/
def BatchNotice (s t : State) (n : Notice) : Prop :=
  (s.batch.kept = [] → s.port.notices.length < 16 →
    t.port = { s.port with replies := t.port.replies, notices := s.port.notices ++ [n] } ∧
    t.batch.kept = []) ∧
  (s.batch.kept ≠ [] ∨ 16 ≤ s.port.notices.length →
    t.port = { s.port with replies := t.port.replies } ∧ t.batch.kept = s.batch.kept ++ [n])

/-- A notice of the Folio Table has been posted where the queue has room and none is kept, and joins those
it keeps otherwise (R17). -/
def FolioNotice (s t : State) (n : Notice) : Prop :=
  (s.folio.kept = [] → s.port.notices.length < 16 →
    t.port = { s.port with notices := s.port.notices ++ [n] } ∧ t.folio = s.folio) ∧
  (s.folio.kept ≠ [] ∨ 16 ≤ s.port.notices.length →
    t.port = s.port ∧ t.folio = { s.folio with kept := s.folio.kept ++ [n] })

/-- DOCUMENT FILED of a record in a slot (R17). -/
def filedNotice (slot : Nat) (r : Record) : Notice :=
  .documentFiled (BitVec.ofNat 16 (slot * 16 + r.generation.toNat)) r.pageCount r.shelved
    r.exceptions.length r.overflow

/-- A record whose outstanding has gone down has been written (R15, R16, R17): a FILING record with none
left is FILED, with its notice; any other is written as it is. -/
def Settled (s t : State) (slot : Nat) (r : Record) : Prop :=
  (¬ (r.state = .filing ∧ r.outstanding = 0) →
    SlotWritten s t slot r ∧ t.port = s.port ∧ t.folio = s.folio) ∧
  (r.state = .filing → r.outstanding = 0 →
    SlotWritten s t slot { r with state := .filed } ∧ FolioNotice s t (filedNotice slot r))

/-- A page has been resolved as NOT SHELVED (R10, R16, R70): the entry is stored or the overflow flag set,
the page no longer outstanding, and its tray has one page less on its way. -/
def NotShelved (s t : State) (g : PageOf) (k : TrayIx) (detail : Nat) : Prop :=
  let r := s.slot (g.folio.toNat / 16)
  let entry : ExceptionEntry := ⟨g.ordinal, .notShelved, detail⟩
  Settled s t (g.folio.toNat / 16) { r with
    exceptions := (if r.exceptions.length < 8 then r.exceptions ++ [entry] else r.exceptions)
    overflow := r.overflow || decide (8 ≤ r.exceptions.length)
    outstanding := r.outstanding - 1 } ∧
  t.assembler.trays[k] =
    { s.assembler.trays[k] with committed := s.assembler.trays[k].committed - 1 } ∧
  (∀ j : TrayIx, j ≠ k → t.assembler.trays[j] = s.assembler.trays[j])

/-- The train without a ticket. -/
def without (s : State) (u : Ticket) : List Ticket :=
  s.tracker.train.filter fun v => v.ordinal ≠ u.ordinal

/-- A ticket waits for its decision: it is undecided and no outcome is on its way (R51; log 15). -/
def Unruled (s : State) (v : Ticket) : Prop :=
  v.stage ≠ .decided ∧ ∀ o ∈ s.assembler.outcomes, o.ordinal ≠ v.ordinal

/-- The state of a record whose document closes (R14, R62). -/
def closedState (r : Record) : RecordState := if 0 < r.outstanding then .filing else .filed

/-- The open document, if there is one, has been closed with the marker left as it is (R14, R17, R65, R66):
its record is FILING, or with nothing outstanding FILED with its notice, and the Assembler keeps its
folio. -/
def OpenClosed (s t : State) : Prop :=
  (s.assembler.openDocument = none → Unchanged [] s t) ∧
  ∀ d, s.assembler.openDocument = some d →
    let n := d.folio.toNat / 16
    let r := s.slot n
    t.assembler = { s.assembler with openDocument := none, lastClosed := some d.folio } ∧
    SlotWritten s t n { r with state := closedState r } ∧
    (0 < r.outstanding → t.port = s.port ∧ t.folio = s.folio) ∧
    (r.outstanding = 0 → FolioNotice s t (filedNotice n r)) ∧
    Unchanged [.port, .folio, .record, .assembler] s t

/-- The batch's matter has been unpinned (R7, R8): with no record and no hold left it is gone from the
directory and the index, and otherwise its entry stands. No other byte of record memory has changed. -/
def MatterUnpinned (s t : State) : Prop :=
  t.folio = { s.folio with index := t.folio.index } ∧
  (NotInDirectory s s.batch.matter → t.folio.index = s.folio.index ∧ RecordKept s t [] [] []) ∧
  ∀ place, InDirectory s s.batch.matter place →
    let m := s.matterAt place
    let index := s.folio.index.map fun e => if e.place = place then { e with pinned := false } else e
    let gone := m.number ≠ 0 ∧ m.recordCount = 0 ∧ m.holdCount = 0
    (gone → t.placeEntry place = {} ∧ t.folio.index = index.filter (fun e => e.place ≠ place) ∧
      RecordKept s t [] [place] []) ∧
    (¬ gone → t.folio.index = index ∧ RecordKept s t [] [] [])

/-- The batch has entered IDLE (R172): no hold cause, the stop forgotten, its counters kept; BATCH ENDED is
posted or kept, and the stall timer is stopped. -/
def IdleEntered (s t : State) (kind : EndKind) : Prop :=
  t.batch = { s.batch with
    state := .idle, haltCause := none, causes := {}, stopTaken := false, feeder := .atRest,
    kept := t.batch.kept } ∧
  BatchNotice s t (.batchEnded kind s.batch.fed s.batch.rejected s.batch.opened) ∧
  t.tracker.stallTimer = none

/-- The batch is over (R172): IDLE, with its matter unpinned. -/
def BatchOver (s t : State) (kind : EndKind) : Prop := IdleEntered s t kind ∧ MatterUnpinned s t

/-- The drain is over (R172): IDLE, with the train empty and no matter pinned. -/
def DrainOver (s t : State) : Prop :=
  IdleEntered s t .drained ∧ t.tracker = { s.tracker with stallTimer := none, train := [] } ∧
  ∀ place, InDirectory s s.batch.matter place → t.pinned place = false

/-- The drain has ended (R172), and the unpin's removal has been made or not. -/
def DrainEnded (s t : State) : Prop := DrainOver s t ∧ MatterUnpinned s t

/-- The oldest outcome has reached its ticket (R112, R118), but for the end of a drain. The ticket is
DECIDED, on the path of the route unless the gate has been reached already, which is LATE; one that exited
undecided leaves the train, a page of it NOT SHELVED. -/
def OutcomeTaken (s t : State) (o : Outcome) (rest : List Outcome) : Prop :=
  t.assembler.outcomes = rest ∧
  (s.ticket o.ordinal = none →
    t.assembler = { s.assembler with outcomes := rest } ∧ Unchanged [.assembler] s t) ∧
  ∀ u, s.ticket o.ordinal = some u →
    let late := ∃ k, o.decision.route = some k ∧ u.gates[k] ≠ .notReached
    let takes (path : Option TrayIx) (d : Decision) :=
      t.assembler = { s.assembler with outcomes := rest } ∧
      t.tracker = { s.tracker with train := changed s o.ordinal fun v => { v with
        stage := .decided, decision := some d, path := path } } ∧
      Unchanged [.assembler, .tracker] s t
    (u.flags.exitedUndecided = false → (∀ b ∈ s.tracker.train, b.ordinal = o.ordinal → b = u) →
      (late → takes none { o.decision with astray := some .late }) ∧
      (¬ late → takes o.decision.route o.decision)) ∧
    (u.flags.exitedUndecided = true → t.tracker = { s.tracker with train := without s u } ∧
      (o.decision.page = none → t.assembler = { s.assembler with outcomes := rest } ∧
        Unchanged [.assembler, .tracker] s t) ∧
      ∀ g k, o.decision.page = some g → o.decision.route = some k → NotShelved s t g k 20 ∧
        Unchanged [.port, .folio, .record, .assembler, .tracker] s t)

/-- Outcomes taken one after the other, oldest first (log 16). -/
def OutcomesTaken : List Outcome → State → State → Prop
  | [], s, t => Unchanged [] s t
  | o :: rest, s, t => ∃ m, OutcomeTaken s m o rest ∧ OutcomesTaken rest m t

/-- CLEAR TRAIN has disposed of a ticket (R123): an undecided one's plates are back in the free plate queue,
a page is NOT SHELVED with a detail, and for any other nothing is left to do. -/
def Disposed (s t : State) (u : Ticket) (detail : Nat) : Prop :=
  (u.decision = none → ChainsReturned s t [u.frontChain, u.backChain] ∧
    t.images = { s.images with free := t.images.free } ∧
    (∀ n, t.slotEntry n = s.slotEntry n ∧ t.placeEntry n = s.placeEntry n) ∧
    Unchanged [.record, .images] s t) ∧
  (∀ d, u.decision = some d → d.page = none → Unchanged [] s t) ∧
  ∀ d g k, u.decision = some d → d.page = some g → d.route = some k → NotShelved s t g k detail ∧
    t.assembler = { s.assembler with trays := t.assembler.trays } ∧
    Unchanged [.port, .folio, .record, .assembler] s t

/-- The disposal of tickets one after the other (R123). -/
def AllDisposed (detail : Nat) : List Ticket → State → State → Prop
  | [], s, t => Unchanged [] s t
  | u :: rest, s, t => ∃ m, Disposed s m u detail ∧ AllDisposed detail rest m t

end Sys2Proof.Claims

/-- CLEAR TRAIN (R123, R137, R146, R172, R175): STATE out of HALTED, BUSY while a notice is kept;
otherwise the outcomes on their way are taken, the tickets disposed of in entry order, undecided ones giving
their plates back and pages NOT SHELVED with detail JAM (22) or ABORT (23), and the reply counts the
undecided and the decided ones. The train is then empty, the stopped condition ended, every gate OFF, the
engine and the capture channels at rest, and the batch leaves HALTED: to FEED HOLD with JAM RECOVERED among
its causes, its notice and the stall timer started after a jam with no stop taken, else to IDLE with the
open document closed, the matter unpinned and BATCH ENDED. (The model's choices here: log 9, 14 and 16.) -/
def Obligations.ClearTrainEmpties : Prop :=
  ∀ (s : State) (tag : Tag) (cause : HaltCause), Takes 3 s →
    (s.batch.state ≠ .halted → Reads (.clearTrain tag) s 8 tag []) ∧
    (s.batch.state = .halted → s.batch.kept ≠ [] → Reads (.clearTrain tag) s 11 tag []) ∧
    (s.batch.state = .halted → s.batch.kept = [] → s.batch.haltCause = some cause →
      After (.clearTrain tag) s fun t =>
        t.tracker.train = [] ∧ t.tracker.stopped = false ∧ t.tracker.travel = s.tracker.travel ∧
        t.tracker.nextOrdinal = s.tracker.nextOrdinal ∧ (∀ k : TrayIx, t.gateOn k = false) ∧
        t.engine.measurements = [] ∧ t.engine.front.state = .idle ∧ t.engine.back.state = .idle ∧
        t.engine.skewLimit = s.engine.skewLimit ∧
        t.engine.blankThreshold = s.engine.blankThreshold ∧
        t.images.front.state = .idle ∧ t.images.front.side = none ∧
        t.images.back.state = .idle ∧ t.images.back.side = none ∧
        t.images.memory = s.images.memory ∧ t.evaluator = s.evaluator ∧ t.lines = s.lines ∧
        (cause = .jam → s.batch.stopTaken = false → t.batch.state = .feedHold ∧
          t.batch.haltCause = none ∧
          t.batch.causes = { s.batch.causes with jamRecovered := true }) ∧
        (cause = .abort ∨ s.batch.stopTaken = true → t.batch.state = .idle ∧
          t.batch.haltCause = none ∧ t.batch.causes = {} ∧ t.batch.stopTaken = false ∧
          t.assembler.openDocument = none) ∧
        (s.assembler.outcomes = [] → t.port.replies = s.port.replies ++ replyWords 0 tag
          [pack [(3, s.tracker.train.countP fun u => u.stage ≠ .decided)],
            pack [(3, s.tracker.train.length -
              s.tracker.train.countP fun u => u.stage ≠ .decided)]]) ∧
        (Canonical s → ∃ w v : State, OutcomesTaken s.assembler.outcomes s w ∧
          AllDisposed (match cause with | .jam => 22 | .abort => 23) w.tracker.train w v ∧
          t.port.replies = s.port.replies ++ replyWords 0 tag
            [pack [(3, w.tracker.train.countP fun u => u.stage ≠ .decided)],
              pack [(3, w.tracker.train.length -
                w.tracker.train.countP fun u => u.stage ≠ .decided)]] ∧
          t.images.free = v.images.free ∧
          (cause = .jam → s.batch.stopTaken = false →
            BatchNotice v t (.feedHold { s.batch.causes with jamRecovered := true } s.batch.fed
              s.batch.rejected s.batch.opened) ∧
            t.tracker.stallTimer = some 50 ∧ t.assembler = v.assembler ∧ t.folio = v.folio ∧
            t.record = v.record) ∧
          (cause = .abort ∨ s.batch.stopTaken = true → ∃ c, OpenClosed v c ∧
            t.assembler = c.assembler ∧
            BatchOver c t (match cause with | .jam => .stoppedAfterJam | .abort => .aborted))))

/-! ## Skew, arbiter, channels (R135, R136, R148, R149, R152) -/

/-- SET SKEW and READ SKEW (R135, R136): STATE out of IDLE, BAD ARGUMENT for a limit above 350, otherwise
both values are stored and the old ones are the reply; READ SKEW gives the settings and five words for
each side and changes nothing. (The model's choices here: log 9 and 10.) -/
def Obligations.SkewRequests : Prop :=
  (∀ (s : State) (tag : Tag) (limit threshold : Word), Takes 3 s →
    (s.batch.state ≠ .idle → Reads (.setSkew tag limit threshold) s 8 tag []) ∧
    (s.batch.state = .idle → 350 < limit.toNat →
      Reads (.setSkew tag limit threshold) s 18 tag []) ∧
    (s.batch.state = .idle → limit.toNat ≤ 350 → After (.setSkew tag limit threshold) s fun t =>
      Answers s t 0 tag [pack [(9, s.engine.skewLimit)], word s.engine.blankThreshold] ∧
      t.engine = { s.engine with
        skewLimit := limit.toNat, blankThreshold := threshold.toNat } ∧
      Unchanged [.port, .engine] s t)) ∧
  (∀ (s : State) (tag : Tag), Takes 13 s → After (.readSkew tag) s fun t =>
    Unchanged [.port] s t ∧ ∃ words : List Word, words.length = 12 ∧ Answers s t 0 tag words ∧
      words[0]? = some (pack [(9, s.engine.skewLimit)]) ∧
      words[1]? = some (word s.engine.blankThreshold) ∧
      ∀ (d : Side) (k : Nat), (d = .front → k = 2) → (d = .back → k = 7) →
        let e := s.side d
        words[k]? = some (pack [(2, match e.state with
          | .idle => 0 | .taking => 1 | .flushing => 2 | .discarding => 3),
          (1, bit (decide (e.waiting ≠ [])))]) ∧
        words[k + 1]? = some (if e.state = .idle then 0 else e.ordinal) ∧
        words[k + 2]? = some (if e.state = .idle then 0 else word e.outputs) ∧
        words[k + 3]? = some (pack [(3, e.bands)]) ∧
        words[k + 4]? = some (word e.lastCount))

namespace Sys2Proof.Claims

/-- The capture channel of a side (07, section 7). -/
def channelOf : Side → Channel
  | .front => .captureFront
  | .back => .captureBack

/-- A channel's request is eligible (R147, R149): it is pending and the channel is not masked. -/
def Grantable (s : State) (c : Channel) : Prop :=
  s.asks c = true ∧ ¬ (c = .audit ∧ s.images.audit.masked = true) ∧
    ¬ (c = .exporter ∧ s.images.exporter.masked = true)

/-- A channel is TRANSFERRING (R141, R150). -/
def Transferring (t : State) : Channel → Prop
  | .captureFront => t.images.front.state = .transferring
  | .captureBack => t.images.back.state = .transferring
  | .audit => t.images.audit.state = .transferring
  | .exporter => t.images.exporter.state = .transferring

/-- The priority order a grant leaves (R147): in ROTATING mode the granted channel is the lowest. -/
def orderGranted (s : State) (c : Channel) : List Channel :=
  match s.images.mode with
  | .fixed => s.images.order
  | .rotating => s.images.order.filter (fun b => b ≠ c) ++ [c]

/-- What a granted transfer holds (R142, R143, R150). A capture channel writes the band at its queue's head
to place 7 less the residue of its current plate; a run reads place bands used less 1 less the residue of
its own. -/
def Carries (t : State) (g : Transfer) : Prop :=
  (∀ d h p n b rest, g.channel = channelOf d → (t.capture d).side = some h → h.current = some p →
    h.residue = some n → (t.side d).queue = .band b :: rest →
    g.plate = p ∧ g.place = 7 - n ∧ g.lines = b.lines) ∧
  (∀ r p n, g.channel = .audit → t.images.audit.run = some r → r.current = some p →
    r.residue = some n → g.plate = p ∧ g.place = r.bandsUsed - 1 - n) ∧
  (∀ r p n, g.channel = .exporter → t.images.exporter.run = some r → r.current = some p →
    r.residue = some n → g.plate = p ∧ g.place = r.bandsUsed - 1 - n)

/-- The port was free and has been given on (R147): it stays free only with no request eligible, and
otherwise carries the transfer of the eligible channel that stood highest. -/
def PortGiven (s t : State) : Prop :=
  t.images.mode = s.images.mode ∧
  (t.images.transfer = none →
    t.images.order = s.images.order ∧ ∀ c ∈ s.images.order, ¬ Grantable t c) ∧
  ∀ g, t.images.transfer = some g → g.orphan = false ∧ Carries t g ∧ Transferring t g.channel ∧
    t.images.order = orderGranted s g.channel ∧
    ¬ (g.channel = .audit ∧ t.images.audit.masked = true) ∧
    ¬ (g.channel = .exporter ∧ t.images.exporter.masked = true) ∧
    ∃ before after, s.images.order = before ++ g.channel :: after ∧ ∀ b ∈ before, ¬ Grantable t b

/-- A request of a channel, for a transfer of a place of a plate (R142, R143, R147): behind the granted
transfer while the port is busy, and granted at once while it is free, no other channel asking. -/
def RequestMade (s t : State) (g : Transfer) : Prop :=
  (s.images.transfer ≠ none → t.images.transfer = s.images.transfer ∧
    t.images.order = s.images.order ∧ ¬ Transferring t g.channel) ∧
  (s.images.transfer = none → (∀ c, s.asks c = false) → g.channel ∈ s.images.order →
    t.images.transfer = some g ∧ t.images.order = orderGranted s g.channel ∧
    Transferring t g.channel)

end Sys2Proof.Claims

/-- SET ARBITER and MASK CHANNEL (R147, R148, R149). SET ARBITER sets the mode and puts the priority order
back, and answers the old mode. MASK CHANNEL sets or clears the mask of the audit or the export channel
and answers the old mask; with the port busy nothing else changes; a mask cleared while the port is free
gives the port to the highest eligible request, with what it carries, and so grants a pending request of
the channel when no other channel asks. (The model's choices here: log 9.) -/
def Obligations.ArbiterRequests : Prop :=
  (∀ (s : State) (tag : Tag) (mode : Word), Takes 2 s →
    (s.batch.state ≠ .idle → Reads (.setArbiter tag mode) s 8 tag []) ∧
    (s.batch.state = .idle → 1 < mode.toNat → Reads (.setArbiter tag mode) s 18 tag []) ∧
    (s.batch.state = .idle → mode.toNat ≤ 1 → After (.setArbiter tag mode) s fun t =>
      Answers s t 0 tag [pack [(1, match s.images.mode with | .fixed => 0 | .rotating => 1)]] ∧
      t.images = { s.images with
        mode := if mode = 1 then .rotating else .fixed
        order := [.captureFront, .captureBack, .audit, .exporter] } ∧
      Unchanged [.port, .images] s t)) ∧
  (∀ (s : State) (tag : Tag) (channel mask : Word), Takes 2 s →
    ((channel ≠ 2 ∧ channel ≠ 3) ∨ 1 < mask.toNat →
      Reads (.maskChannel tag channel mask) s 18 tag []) ∧
    (channel = 2 → mask.toNat ≤ 1 → After (.maskChannel tag channel mask) s fun t =>
      Answers s t 0 tag [pack [(1, bit s.images.audit.masked)]] ∧
      t.images.audit.masked = decide (mask = 1) ∧
      t.images.exporter.masked = s.images.exporter.masked ∧ Unchanged [.port, .images] s t ∧
      (s.images.transfer ≠ none →
        t.images = { s.images with audit.masked := decide (mask = 1) }) ∧
      (s.images.transfer = none → mask = 0 → s.images.audit.state = .requesting →
        (∀ c, c ≠ .audit → s.asks c = false) → .audit ∈ s.images.order →
        t.images.audit.state = .transferring ∧
        ∃ g, t.images.transfer = some g ∧ g.channel = .audit) ∧
      (s.images.transfer = none → mask = 0 → PortGiven s t)) ∧
    (channel = 3 → mask.toNat ≤ 1 → After (.maskChannel tag channel mask) s fun t =>
      Answers s t 0 tag [pack [(1, bit s.images.exporter.masked)]] ∧
      t.images.exporter.masked = decide (mask = 1) ∧
      t.images.audit.masked = s.images.audit.masked ∧ Unchanged [.port, .images] s t ∧
      (s.images.transfer ≠ none →
        t.images = { s.images with exporter.masked := decide (mask = 1) }) ∧
      (s.images.transfer = none → mask = 0 → s.images.exporter.state = .requesting →
        (∀ c, c ≠ .exporter → s.asks c = false) → .exporter ∈ s.images.order →
        t.images.exporter.state = .transferring ∧
        ∃ g, t.images.transfer = some g ∧ g.channel = .exporter) ∧
      (s.images.transfer = none → mask = 0 → PortGiven s t)))

namespace Sys2Proof.Claims

/-- The number of a channel (07, section 7). -/
def channelNumber : Channel → Nat
  | .captureFront => 0
  | .captureBack => 1
  | .audit => 2
  | .exporter => 3

/-- The three words of READ CHANNELS for one channel, in the model's layout (R152; log 10): its state, its
request pending, its mask, its current plate's presence, its residue or 8 where spent, its end-of-run flag
and last end cause; the current plate; the ordinal or the folio in hand. -/
def channelWords (state : Nat) (asks masked : Bool) (current residue : Option Nat) (flag : Bool)
    (cause : Nat) (inHand : Option Word) : List Word :=
  [pack [(3, state), (1, bit asks), (1, bit masked), (1, bit current.isSome),
      (4, match residue with | some n => n | none => 8), (1, bit flag), (3, cause)],
    (match current with | some p => word p | none => 0),
    (match inHand with | some w => w | none => 0)]

/-- The three words of a capture channel (R152; log 10). -/
def captureWords (c : CaptureChannel) : List Word :=
  channelWords
    (match c.state with
      | .idle => 0 | .waiting => 1 | .requesting => 2 | .transferring => 3 | .frozen => 4)
    (decide (c.state = .requesting)) false
    (match c.side with | some h => h.current | none => none)
    (match c.side with | some h => h.residue | none => none) c.endFlag
    (match c.endCause with
      | .normal => 0 | .noPlate => 1 | .sideLimit => 2 | .bandOverrun => 3 | .cleared => 4)
    (match c.side with | some h => some h.ordinal | none => none)

/-- The three words of the audit or of the export channel (R152; log 10), `run` being the current plate,
the residue and the folio of its run. -/
def readerWords (state : RunState) (masked flag : Bool) (cause : RunEnd)
    (run : Option (Option Nat × Option Nat × Word)) : List Word :=
  channelWords
    (match state with | .idle => 0 | .waiting => 1 | .requesting => 2 | .transferring => 3)
    (decide (state = .requesting)) masked
    (match run with | some r => r.1 | none => none) (match run with | some r => r.2.1 | none => none)
    flag (match cause with | .complete => 0 | .cancelled => 1)
    (match run with | some r => some r.2.2 | none => none)

end Sys2Proof.Claims

/-- READ CHANNELS (R152, R193): the arbiter's word, with the channel granted or 4 while the port is free;
the length of the free plate queue; and three words for each of the four channels as they stand, busy or
idle, with a run in hand or none. Then the four end-of-run flags are clear and nothing else has changed.
The layout of a channel's words is the model's (log 10). -/
def Obligations.ReadChannelsClearsFlags : Prop :=
  ∀ (s : State) (tag : Tag), Takes 16 s → After (.readChannels tag) s fun t =>
    t.images = { s.images with
      front := { s.images.front with endFlag := false }
      back := { s.images.back with endFlag := false }
      audit := { s.images.audit with endFlag := false }
      exporter := { s.images.exporter with endFlag := false } } ∧
    Unchanged [.port, .images] s t ∧
    Answers s t 0 tag
      ([pack ((1, match s.images.mode with | .fixed => 0 | .rotating => 1) ::
          (s.images.order.map (fun c => (2, channelNumber c)) ++
          [(1, bit s.images.transfer.isSome), (3, match s.images.transfer with
            | none => 4
            | some g => channelNumber g.channel)])),
        word (s.images.free.length / 65536), word s.images.free.length] ++
      captureWords s.images.front ++ captureWords s.images.back ++
      readerWords s.images.audit.state s.images.audit.masked s.images.audit.endFlag
        s.images.audit.endCause (s.images.audit.run.map fun r => (r.current, r.residue, r.folio)) ++
      readerWords s.images.exporter.state s.images.exporter.masked s.images.exporter.endFlag
        s.images.exporter.endCause
        (s.images.exporter.run.map fun r => (r.current, r.residue, r.folio)))

/-! ## Audit and export (R33, R154 to R161) -/

namespace Sys2Proof.Claims

/-- The start claim is granted for a record (R33): it is FILED and still has its image. -/
def Claimable (s : State) (folio : Word) (r : Record) : Prop :=
  Names s folio r ∧ r.state = .filed ∧ r.image = .resident

/-- A VERIFY DONE notice has been posted where the queue has room and the channel kept none, and is kept
otherwise (R156). -/
def VerifyDonePosted (s t : State) (n : Notice) : Prop :=
  (s.images.audit.kept = none → s.port.notices.length < 16 →
    t.port.notices = s.port.notices ++ [n] ∧ t.images.audit.kept = none) ∧
  (16 ≤ s.port.notices.length → t.port.notices = s.port.notices ∧ t.images.audit.kept = some n)

end Sys2Proof.Claims

/-- VERIFY and CANCEL VERIFY (R2, R33, R154, R155, R156, R157). VERIFY answers BUSY while the channel is not
IDLE or keeps a notice, then NOT FOUND, STALE and DAMAGED of R2, then STATE and NO IMAGE. A record with
plates starts a run: the mark names the slot and the channel takes its first plate and asks for its first
band. A record with none ends at once, MATCH exactly when its digest is 0. CANCEL VERIFY answers STATE with
no run in hand, and otherwise ends the run with its notice. (The model's choices here: log 9.) -/
def Obligations.AuditRequests : Prop :=
  (∀ (s : State) (tag : Tag) (folio : Word) (r : Record), Takes 1 s →
    (s.images.audit.state ≠ .idle ∨ s.images.audit.kept ≠ none →
      Reads (.verify tag folio) s 11 tag []) ∧
    (s.images.audit.state = .idle → s.images.audit.kept = none →
      ((s.slot (folio.toNat / 16)).state = .free → Reads (.verify tag folio) s 2 tag []) ∧
      ((s.slot (folio.toNat / 16)).state ≠ .free →
        (s.slot (folio.toNat / 16)).generation ≠ folio.extractLsb' 0 4 →
        Reads (.verify tag folio) s 3 tag []) ∧
      ((s.slot (folio.toNat / 16)).state = .damaged →
        (s.slot (folio.toNat / 16)).generation = folio.extractLsb' 0 4 →
        Reads (.verify tag folio) s 4 tag []) ∧
      (Names s folio r → r.state ≠ .filed → Reads (.verify tag folio) s 8 tag []) ∧
      (Names s folio r → r.state = .filed → r.image = .shed → Reads (.verify tag folio) s 15 tag []) ∧
      (∀ p, Claimable s folio r → 0 < r.plateCount → r.plateHead = some p →
        0 < (s.link p).bandsUsed → After (.verify tag folio) s fun t =>
          Answers s t 1 tag [] ∧
          t.folio = { s.folio with auditMark := some (folio.toNat / 16) } ∧
          t.images.audit.run = some
            { folio := folio, plateHead := r.plateHead, plateCount := r.plateCount,
              digest := r.digest, runningDigest := 0xFFFFFFFF, checked := 0, taken := 1,
              current := some p, bandsUsed := (s.link p).bandsUsed,
              storedCheck := (s.link p).check, residue := some ((s.link p).bandsUsed - 1),
              crc := 0xFFFF } ∧
          (s.images.transfer ≠ none → t.images.audit.state = .requesting ∧
            t.images = { s.images with audit := t.images.audit }) ∧
          (t.images.audit.state = .requesting ∨ t.images.audit.state = .transferring) ∧
          (s.images.audit.masked = false → RequestMade s t ⟨.audit, p, 0, [], false⟩) ∧
          Unchanged [.port, .folio, .images] s t) ∧
      (Claimable s folio r → r.plateCount = 0 → After (.verify tag folio) s fun t =>
        t.folio = { s.folio with auditMark := none } ∧ t.images.audit.state = .idle ∧
        t.images.audit.run = none ∧ t.images.audit.endFlag = true ∧
        t.images.audit.endCause = .complete ∧ t.port.replies = s.port.replies ++ replyWords 1 tag [] ∧
        VerifyDonePosted s t
          (.verifyDone (if r.digest = 0 then .matched else .digestMismatch) folio 0 0) ∧
        Unchanged [.port, .folio, .images] s t))) ∧
  (∀ (s : State) (tag : Tag), Takes 2 s →
    (s.images.audit.run = none → Reads (.cancelVerify tag) s 8 tag []) ∧
    (∀ run, s.images.audit.run = some run → After (.cancelVerify tag) s fun t =>
      t.port.replies = s.port.replies ++ replyWords 0 tag [pack [(15, run.checked)]] ∧
      t.folio = { s.folio with auditMark := none } ∧ t.images.audit.run = none ∧
      t.images.audit.state =
        (if s.images.audit.state = .transferring then .transferring else .idle) ∧
      t.images.audit.endFlag = true ∧ t.images.audit.endCause = .cancelled ∧
      (s.images.audit.kept = none →
        VerifyDonePosted s t (.verifyDone .cancelled run.folio 0 run.checked)) ∧
      Unchanged [.port, .folio, .images] s t))

/-- OPEN EXPORT and CANCEL EXPORT (R2, R33, R158 to R161). OPEN EXPORT answers BUSY while the channel is not
IDLE, then NOT FOUND, STALE, DAMAGED, STATE and NO IMAGE; otherwise the mark names the slot, the channel is
not IDLE, and with room the buffer begins with the ten words of the folio header. A record with no plate has
its end word right behind; one with plates its first plate's side header, and the channel asks for the first
band. CANCEL EXPORT answers STATE with no run in hand; otherwise it empties the buffer,
answers how many words it held, and ends the run. (The model's choices here: log 9 and 34.) -/
def Obligations.ExportRequests : Prop :=
  (∀ (s : State) (tag : Tag) (folio : Word) (r : Record), Takes 1 s →
    (s.images.exporter.state ≠ .idle → Reads (.openExport tag folio) s 11 tag []) ∧
    (s.images.exporter.state = .idle →
      ((s.slot (folio.toNat / 16)).state = .free → Reads (.openExport tag folio) s 2 tag []) ∧
      ((s.slot (folio.toNat / 16)).state ≠ .free →
        (s.slot (folio.toNat / 16)).generation ≠ folio.extractLsb' 0 4 →
        Reads (.openExport tag folio) s 3 tag []) ∧
      ((s.slot (folio.toNat / 16)).state = .damaged →
        (s.slot (folio.toNat / 16)).generation = folio.extractLsb' 0 4 →
        Reads (.openExport tag folio) s 4 tag []) ∧
      (Names s folio r → r.state ≠ .filed → Reads (.openExport tag folio) s 8 tag []) ∧
      (Names s folio r → r.state = .filed → r.image = .shed →
        Reads (.openExport tag folio) s 15 tag []) ∧
      (Claimable s folio r → s.port.exports = [] → After (.openExport tag folio) s fun t =>
        let header : List Word := [0x5A01, folio, r.matter.extractLsb' 16 16,
          r.matter.extractLsb' 0 16, word r.sequence, word r.pageCount, word r.sideCount,
          word r.plateCount, r.digest.extractLsb' 16 16, r.digest.extractLsb' 0 16]
        t.port.replies = s.port.replies ++ replyWords 1 tag [] ∧
        t.folio = { s.folio with exportMark := some (folio.toNat / 16) } ∧
        t.images.exporter.state ≠ .idle ∧ (∃ run, t.images.exporter.run = some run ∧
          run.folio = folio ∧ run.plateHead = r.plateHead ∧ run.plateCount = r.plateCount) ∧
        header <+: t.port.exports ∧
        (r.plateCount = 0 → t.port.exports = header ++ [0x5AE0]) ∧
        (0 < r.plateCount → r.plateHead = none → t.port.exports = header ++ [0x5AE1]) ∧
        (∀ p, 0 < r.plateCount → r.plateHead = some p → 0 < (s.link p).bandsUsed →
          PlateTaken s t ⟨folio, header, some p, r.plateCount, .header, 0, none, 0, none, 0, 0⟩ p
            header) ∧
        (s.images.transfer ≠ none → t.images.exporter.state ≠ .transferring) ∧
        Unchanged [.port, .folio, .images] s t))) ∧
  (∀ (s : State) (tag : Tag), Takes 2 s →
    (s.images.exporter.run = none → Reads (.cancelExport tag) s 8 tag []) ∧
    (s.images.exporter.run ≠ none → After (.cancelExport tag) s fun t =>
      t.port = { s.port with
        exports := []
        replies := s.port.replies ++ replyWords 0 tag [pack [(14, s.port.exports.length)]] } ∧
      t.folio = { s.folio with exportMark := none } ∧ t.images.exporter.run = none ∧
      t.images.exporter.state =
        (if s.images.exporter.state = .transferring then .transferring else .idle) ∧
      t.images.exporter.endFlag = true ∧ t.images.exporter.endCause = .cancelled ∧
      Unchanged [.port, .folio, .images] s t))

namespace Sys2Proof.Claims

/-- A capture channel's request is pending or granted (R141). -/
def Busy (s : State) (d : Side) : Prop :=
  (s.capture d).state = .requesting ∨ (s.capture d).state = .transferring

/-- A capture channel asks for the port with a side in hand, and may have been granted it at once (R142,
R147). -/
def Asks (s t : State) (d : Side) (h : CaptureSide) : Prop :=
  ∃ state, (state = .requesting ∨ state = .transferring) ∧
    t.capture d = { s.capture d with state := state, side := some h }

/-- The capture chain of a ticket for a side (R100). -/
def chainOf (d : Side) (u : Ticket) : PlateChain :=
  match d with
  | .front => u.frontChain
  | .back => u.backChain

/-- A plate has joined the tail of the capture chain of a ticket, and no other chain of that side has
changed (R142). -/
def PlateJoined (s t : State) (d : Side) (ordinal : Word) (p : Nat) : Prop :=
  t.tracker.train.map (fun v => (v.ordinal, chainOf d v)) = s.tracker.train.map fun v =>
    (v.ordinal, if v.ordinal = ordinal then
        ⟨some ((chainOf d v).head.getD p), some p, (chainOf d v).count + 1⟩
      else chainOf d v)

/-- The head of the free plate queue, and what is left of it once it is taken (R139). -/
def FreeHead (s : State) (p : Nat) (rest : FreeQueue) : Prop :=
  s.images.free.head = some p ∧ 0 < s.images.free.length ∧
    rest = if s.images.free.length = 1 then ⟨none, none, 0⟩
      else { s.images.free with
        head := (s.link p).next, length := s.images.free.length - 1 }

/-- A ticket whose side has been captured (R112): with the last side the batch needs, a SCANNING ticket is
CAPTURED. -/
def sideDone (s : State) (d : Side) (v : Ticket) : Ticket :=
  let front := v.frontDone || decide (d = .front)
  let back := v.backDone || decide (d = .back)
  { v with
    frontDone := front
    backDone := back
    stage := if v.stage = .scanning ∧ front = true ∧ (back = true ∨ s.batch.duplex = false) then
        .captured else v.stage }

/-- A side in hand needs a fresh plate and cannot have one, and for which cause (R145). -/
def NoPlate (s : State) (h : CaptureSide) (cause : CaptureEnd) : Prop :=
  (54 ≤ h.plates ∧ cause = .sideLimit) ∨
    (h.plates < 54 ∧ s.images.free.length = 0 ∧ cause = .noPlate)

/-- The current plate of a side in hand has been closed with no plate behind it, unless it was closed
already or there is none (R143, R145). -/
def PlateClosed (s t : State) (d : Side) (h : CaptureSide) : Prop :=
  (∀ p, h.current = some p → h.closed = false →
    t.link p = ⟨none, h.crc, match h.residue with | some n => 7 - n | none => 8, h.first, d⟩ ∧
      RecordKept s t [] [] [p]) ∧
  (h.current = none ∨ h.closed = true → t.record = s.record)

/-- A lost side of a ticket has come to its end (R112, R145): the channel is IDLE with the cause, and the
ticket's side is recorded while the tracker acts. -/
def LostSideEnded (s t : State) (d : Side) (ordinal : Word) (cause : CaptureEnd) : Prop :=
  t.capture d = ⟨.idle, none, none, true, cause⟩ ∧
  (s.acts = true → ∀ v ∈ t.tracker.train, v.ordinal = ordinal →
    (match d with | .front => v.frontDone | .back => v.backDone) = true)

/-- A capture channel has lost the side in hand (R133, R145), `e` being the side of the engine with its
queue, which holds bands of that side alone. The plate is closed and the ticket carries IMAGE LOST. A side
TAKING is discarded, and the channel waits with the cause for its end; one FLUSHING with no start waiting
ends at once, and for one that had ended already the end comes at once. -/
def SideLost (s t : State) (d : Side) (h : CaptureSide) (cause : CaptureEnd) (e : DeskewSide) : Prop :=
  PlateClosed s t d h ∧
  (∀ v ∈ t.tracker.train, v.ordinal = h.ordinal → v.flags.imageLost = true) ∧
  (e.ordinal = h.ordinal → e.state = .taking →
    t.capture d = { s.capture d with
      state := .waiting, pendingEnd := some cause
      side := some { h with closed := h.closed || h.current.isSome } } ∧
    t.side d = { e with queue := [], state := .discarding, band := [], buffer := [] }) ∧
  (e.ordinal = h.ordinal → e.state = .flushing → e.waiting = [] →
    LostSideEnded s t d h.ordinal cause ∧ t.side d = { black := e.black, lastCount := e.lastCount }) ∧
  (e.ordinal ≠ h.ordinal ∨ e.state = .idle →
    LostSideEnded s t d h.ordinal cause ∧ t.side d = { e with queue := [] })

/-- The bytes of a band place of a plate as image memory holds them (07, section 7). -/
def bandHeld (s : State) (g : Transfer) : List Byte :=
  (List.range 8192).map fun j => s.imageByte (g.plate * 65536 + g.place * 8192 + j)

/-- A band's bytes, line by line, each line column 0 first, stand at its place of its plate, and every
other byte of image memory reads as before (R143, R159). -/
def BandStored (s t : State) (g : Transfer) : Prop :=
  let first := g.plate * 65536 + g.place * 8192
  (∀ (y x : Nat) (h : y < g.lines.length), x < 512 →
    t.imageByte (first + 512 * y + x) = g.lines[y].extractLsb' (4096 - 8 * (x + 1)) 8) ∧
  ∀ a, a < first ∨ first + 512 * g.lines.length ≤ a → t.imageByte a = s.imageByte a

/-- The completion of a capture channel's transfer (R142, R143, R144, R146), `after` being the side in hand
with its band counted. -/
def CaptureGoesOn (s t : State) (d : Side) (g : Transfer) (h : CaptureSide) (n : Nat) (b : Band)
    (rest : List QueueItem) : Prop :=
  let after : CaptureSide := { h with
    crc := crc16Extend h.crc (bandBytes g.lines)
    residue := if n = 0 then none else some (n - 1) }
  (b.last = false → s.tracker.stopped = true →
    t.capture d = { s.capture d with state := .frozen, side := some after } ∧
    t.side d = { s.side d with queue := rest } ∧ t.record = s.record ∧ t.tracker = s.tracker) ∧
  (b.last = false → s.tracker.stopped = false → rest = [] →
    t.capture d = { s.capture d with state := .waiting, side := some after } ∧
    t.side d = { s.side d with queue := [] } ∧ t.record = s.record ∧ t.tracker = s.tracker) ∧
  (∀ c more, b.last = false → s.tracker.stopped = false → rest = .band c :: more → c.number ≠ 0 →
    (s.capture d).pendingEnd = none → n ≠ 0 →
    Asks s t d after ∧ t.side d = { s.side d with queue := rest } ∧ t.record = s.record) ∧
  (∀ c more p q free, b.last = false → s.tracker.stopped = false → rest = .band c :: more →
    c.number ≠ 0 → (s.capture d).pendingEnd = none → n = 0 → 0 < h.plates →
    h.plates < 54 → h.current = some q → h.closed = false → FreeHead s p free → Canonical s →
    Asks s t d { after with
      plates := h.plates + 1, current := some p, residue := some 7, crc := 0xFFFF, first := false } ∧
    t.side d = { s.side d with queue := rest } ∧ t.images.free = free ∧
    PlateJoined s t d h.ordinal p ∧
    t.link q = ⟨some p, after.crc, 8, h.first, d⟩ ∧ RecordKept s t [] [] [q]) ∧
  (∀ q, b.last = true → rest = [] → h.current = some q → h.closed = false → Canonical s →
    t.capture d = ⟨if s.tracker.stopped then .frozen else .idle, none, none, true, .normal⟩ ∧
    t.side d = { s.side d with queue := [] } ∧
    t.link q = ⟨none, after.crc, 8 - n, h.first, d⟩ ∧ RecordKept s t [] [] [q] ∧
    (s.acts = true → t.tracker = { s.tracker with train := changed s h.ordinal (sideDone s d) }) ∧
    (s.acts = false → t.tracker = s.tracker)) ∧
  (∀ c more cause, b.last = false → s.tracker.stopped = false → rest = .band c :: more →
    c.number ≠ 0 → (s.capture d).pendingEnd = none → n = 0 → NoPlate s h cause →
    (∀ i ∈ rest, i.bandOf h.ordinal = true) → Canonical s →
    SideLost s t d after cause { s.side d with queue := rest }) ∧
  (b.last = false → s.tracker.stopped = false → rest = [.ended h.ordinal true] → Canonical s →
    PlateClosed s t d after ∧ t.side d = { s.side d with queue := [] } ∧
    LostSideEnded s t d h.ordinal ((s.capture d).pendingEnd.getD .bandOverrun))

/-- The completion of the audit channel's read (R155, R156): the running check takes the band in, and after
a plate's last band it is compared with the plate's stored check. -/
def AuditGoesOn (s t : State) (g : Transfer) (r : AuditRun) (n : Nat) : Prop :=
  let crc := crc16Extend r.crc (bandHeld s g)
  let digest := extendDigest r.runningDigest r.storedCheck
  let reads (run : AuditRun) :=
    (t.images.audit.state = .requesting ∨ t.images.audit.state = .transferring) ∧
      t.images.audit.run = some run ∧ Unchanged [.images] s t
  let ends (result : AuditResult) (failing checked : Nat) :=
    t.images.audit.state = .idle ∧ t.images.audit.run = none ∧ t.images.audit.endFlag = true ∧
      t.images.audit.endCause = .complete ∧ t.folio = { s.folio with auditMark := none } ∧
      (s.images.audit.kept = none →
        VerifyDonePosted s t (.verifyDone result r.folio failing checked)) ∧
      t.port.replies = s.port.replies ∧ Unchanged [.port, .folio, .images] s t
  (n ≠ 0 → reads { r with crc := crc, residue := some (n - 1) }) ∧
  (n = 0 → crc ≠ r.storedCheck → ends .plateMismatch r.taken r.checked) ∧
  (n = 0 → crc = r.storedCheck → r.plateCount ≤ r.taken →
    ends (if ~~~ digest = r.digest then .matched else .digestMismatch) 0 (r.checked + 1)) ∧
  (∀ q, n = 0 → crc = r.storedCheck → r.taken < r.plateCount → r.current = some q →
    (s.link q).next = none → ends .plateMismatch (r.taken + 1) (r.checked + 1)) ∧
  (∀ p q, n = 0 → crc = r.storedCheck → r.taken < r.plateCount → r.current = some q →
    (s.link q).next = some p → 0 < (s.link p).bandsUsed → reads { r with
      runningDigest := digest, checked := r.checked + 1, taken := r.taken + 1, current := some p,
      bandsUsed := (s.link p).bandsUsed, storedCheck := (s.link p).check,
      residue := some ((s.link p).bandsUsed - 1), crc := 0xFFFF })

/-- The completion of the transfer-out channel's read (R159, R160): the band's 4,096 words join the buffer,
the lower address of each pair of bytes in the high half; then the next band is asked for where it fits;
behind a plate's last band the next plate is taken, and the end word follows the last plate, or marks the
stream short where the chain breaks. -/
def ExportGoesOn (s t : State) (g : Transfer) (r : ExportRun) (n : Nat) : Prop :=
  let first := g.plate * 65536 + g.place * 8192
  let words : List Word := (List.range 4096).map fun k =>
    s.imageByte (first + 2 * k) ++ s.imageByte (first + 2 * k + 1)
  (s.port.exports ++ words <+: t.port.exports) ∧
  (n ≠ 0 →
    t.port = { s.port with exports := s.port.exports ++ words } ∧
    t.images.exporter.run = some { r with residue := some (n - 1) } ∧
    (s.port.exports = [] →
      t.images.exporter.state = .requesting ∨ t.images.exporter.state = .transferring) ∧
    (s.port.exports ≠ [] → t.images.exporter.state = .waiting)) ∧
  (n = 0 → r.plateCount ≤ r.taken → s.port.exports.length < 4096 →
    t.port = { s.port with exports := s.port.exports ++ words ++ [0x5AE0] } ∧
    t.images.exporter.run = some { r with residue := none, item := .done } ∧
    t.images.exporter.state = .waiting) ∧
  (∀ q, n = 0 → r.taken < r.plateCount → r.current = some q → (s.link q).next = none →
    s.port.exports.length < 4096 →
    t.port = { s.port with exports := s.port.exports ++ words ++ [0x5AE1] } ∧
    t.images.exporter.run = some { r with residue := none, item := .done } ∧
    t.images.exporter.state = .waiting) ∧
  (∀ p q, n = 0 → r.taken < r.plateCount → r.current = some q → (s.link q).next = some p →
    0 < (s.link p).bandsUsed →
    PlateTaken s t r p (s.port.exports ++ words)) ∧
  Unchanged [.port, .images] s t

end Sys2Proof.Claims

/-- A granted band transfer completes (R142 to R147, R150, R155, R160). With the port free nothing happens.
A capture channel's transfer leaves its band at its place of its plate and no other byte of image memory
changed; a read changes none. A capture channel counts its band, extends its CRC and takes the band from
the queue: then it asks for its next band, on a fresh plate where the current one is full; or it waits; or
the last band ends the side, closes its plate and completes the capture; with no plate to be had, or 54
taken, the side is lost; a lost end that was held ends the side now; in HALTED the channel is FROZEN. The
audit extends its running check, and goes on or reaches its result; the export places the band's words, and
goes on to its next band, its next plate with the side header that stands before it, or its end word. A
read whose run has been cancelled is discarded, a capture channel that was cleared does nothing; then the
port goes to the highest eligible request. (The model's choices here: log 3 and 34.) -/
def Obligations.BandTransferCompletes : Prop :=
  ∀ s : State,
    (s.images.transfer = none → Idles .bandTransferDone s) ∧
    (∀ g, s.images.transfer = some g → After .bandTransferDone s fun t =>
      (g.channel = .audit ∨ g.channel = .exporter → t.images.memory = s.images.memory) ∧
      (Canonical s → ∀ d, g.channel = channelOf d → BandStored s t g) ∧
      t.pending = s.pending ∧ t.batch = s.batch ∧ t.lines = s.lines ∧ t.assembler = s.assembler ∧
      t.evaluator = s.evaluator ∧ PortGiven s t) ∧
    (∀ g d h n b rest, s.images.transfer = some g → g.channel = channelOf d → g.orphan = false →
      (s.capture d).side = some h → h.residue = some n → (s.side d).queue = .band b :: rest →
      After .bandTransferDone s fun t => CaptureGoesOn s t d g h n b rest) ∧
    (∀ g r n, s.images.transfer = some g → g.channel = .audit → g.orphan = false →
      s.images.audit.run = some r → r.residue = some n → Canonical s →
      After .bandTransferDone s fun t => AuditGoesOn s t g r n) ∧
    (∀ g r n, s.images.transfer = some g → g.channel = .exporter → g.orphan = false →
      s.images.exporter.run = some r → r.item = .band → r.residue = some n → Canonical s →
      After .bandTransferDone s fun t => ExportGoesOn s t g r n) ∧
    (∀ g, s.images.transfer = some g → g.orphan = true → g.channel = .audit ∨ g.channel = .exporter →
      let idle : Images := { s.images with
        transfer := none
        audit.state := if g.channel = .audit then .idle else s.images.audit.state
        exporter.state := if g.channel = .exporter then .idle else s.images.exporter.state }
      let next (c : Channel) : Prop := c ≠ g.channel ∧ Grantable s c
      ((∀ c, ¬ next c) → After .bandTransferDone s fun t =>
        t.images = idle ∧ Unchanged [.images] s t) ∧
      (∀ before c after, s.images.order = before ++ c :: after → next c → (∀ b ∈ before, ¬ next b) →
        After .bandTransferDone s fun t =>
          (∃ k, t.images.transfer = some k ∧ k.channel = c ∧ k.orphan = false) ∧
          t.images.order = orderGranted s c ∧ Unchanged [.images] s t)) ∧
    (∀ g d, s.images.transfer = some g → g.orphan = true → g.channel = channelOf d →
      (∀ c, s.asks c = false) → After .bandTransferDone s fun t =>
        t.images = { s.images with transfer := none, memory := t.images.memory } ∧
        Unchanged [.images] s t)

/-! ## The batch's requests (R164 to R176) -/

/-- START BATCH (R6, R8, R91, R102, R120, R124, R164). The refusals in order: STATE, BAD ARGUMENT, TERMS,
LINES, BUSY, FULL; the lines are ready with L11 disabled too (log 27). Otherwise the matter is pinned, one
not in the directory entering it at the lowest free place with sequence 1 next; the batch takes matter,
class and duplex, its counters are 0, it is RUNNING with no hold cause, the stored values are false, the
next ordinal is 1, the last entry trailing count absent, the stall timer started, and the reply is the
matter's next sequence. (The model's choices here: log 9 and 27.) -/
def Obligations.StartBatchRuns : Prop :=
  ∀ (s : State) (tag : Tag) (matter : Long) (cls duplex : Word), Takes 3 s →
    let i := Instr.startBatch tag matter cls duplex
    let good := matter ≠ 0 ∧ cls.toNat ≤ 15 ∧ duplex.toNat ≤ 1
    (s.batch.state ≠ .idle → Reads i s 8 tag []) ∧
    (s.batch.state = .idle → ¬ good → Reads i s 18 tag []) ∧
    (∀ place reason, s.batch.state = .idle → good → s.evaluator.validate = .invalid place reason →
      Reads i s 14 tag [pack [(6, place)], pack [(4, reason.number)]]) ∧
    (∀ places walk, s.batch.state = .idle → good → s.evaluator.validate = .valid places walk →
      let ready := ∀ l : LineIx, l.val ≤ 17 → (s.lines.settings[l].enabled = true ∨ l = 11) ∧
        (12 ≤ l.val → s.lines.settings[l].output = true)
      (¬ ready → Reads i s 13 tag []) ∧
      (ready → s.batch.kept ≠ [] → Reads i s 11 tag []) ∧
      (ready → s.batch.kept = [] → NotInDirectory s matter →
        (∀ p, p < 256 → (s.matterAt p).number ≠ 0) → Reads i s 10 tag []) ∧
      (∀ place, ready → s.batch.kept = [] → InDirectory s matter place → After i s fun t =>
        Answers s t 0 tag [word (s.matterAt place).nextSequence] ∧
        t.batch = { s.batch with
          state := .running, causes := {}, stopTaken := false, matter := matter,
          cls := cls.extractLsb' 0 4, duplex := decide (duplex = 1), fed := 0, rejected := 0,
          opened := 0 } ∧
        t.evaluator = { s.evaluator with
          marks := Vector.replicate 8 false, latches := Vector.replicate 8 false,
          pulses := Vector.replicate 8 false, memories := Vector.replicate 8 false,
          tags := ⟨false, false, false, false⟩ } ∧
        t.tracker = { s.tracker with
          nextOrdinal := 1, lastEntryTrailing := none, stallTimer := some 50 } ∧
        t.pinned place = true ∧
        Unchanged [.port, .folio, .evaluator, .tracker, .batch] s t) ∧
      (∀ place, Canonical s → ready → s.batch.kept = [] → NotInDirectory s matter → place < 256 →
        (s.matterAt place).number = 0 → (∀ p, p < place → (s.matterAt p).number ≠ 0) →
        After i s fun t =>
        Answers s t 0 tag [word 1] ∧ PlaceWritten s t place ⟨matter, 0, 1, none, none, 0⟩ ∧
        InDirectory t matter place ∧ t.pinned place = true ∧
        (∀ other, other ≠ matter → (t.findMatter other).map IndexEntry.place =
          (s.findMatter other).map IndexEntry.place) ∧
        t.batch.state = .running ∧ t.batch.matter = matter ∧
        Unchanged [.port, .folio, .record, .evaluator, .tracker, .batch] s t))

/-- PAUSE FEED and RESUME FEED (R165, R166, R167). PAUSE FEED raises PAUSED in RUNNING and in FEED HOLD,
with a FEED HOLD notice from RUNNING only, and answers STATE elsewhere. RESUME FEED answers STATE out of
FEED HOLD and BUSY while a notice is kept; otherwise PAUSED, FEEDER EMPTY and JAM RECOVERED are cleared,
each other cause stays exactly when it was there and its condition still stands, REJECT FULL while L11 is
enabled and asserted by what drives its pin, and the batch is RUNNING exactly when none is left. (The
model's choices here: log 7 and 9.) -/
def Obligations.PauseAndResume : Prop :=
  (∀ (s : State) (tag : Tag), Takes 2 s →
    (s.batch.state ≠ .running → s.batch.state ≠ .feedHold → Reads (.pauseFeed tag) s 8 tag []) ∧
    (s.batch.state = .feedHold → After (.pauseFeed tag) s fun t =>
      t.batch = { s.batch with causes := { s.batch.causes with paused := true } } ∧
      (∃ ws, Answers s t 0 tag [ws] ∧
        ws = pack [(7, { s.batch.causes with paused := true : HoldCauses }.code)]) ∧
      Unchanged [.port, .batch] s t) ∧
    (s.batch.state = .running → After (.pauseFeed tag) s fun t =>
      t.batch = { s.batch with
        state := .feedHold, causes := { s.batch.causes with paused := true },
        kept := t.batch.kept } ∧
      BatchNotice s t (.feedHold { s.batch.causes with paused := true } s.batch.fed
        s.batch.rejected s.batch.opened) ∧
      t.port.replies = s.port.replies ++ replyWords 0 tag
        [pack [(7, { s.batch.causes with paused := true : HoldCauses }.code)]] ∧
      Unchanged [.port, .batch] s t)) ∧
  (∀ (s : State) (tag : Tag), Takes 2 s →
    (s.batch.state ≠ .feedHold → Reads (.resumeFeed tag) s 8 tag []) ∧
    (s.batch.state = .feedHold → s.batch.kept ≠ [] → Reads (.resumeFeed tag) s 11 tag []) ∧
    (s.batch.state = .feedHold → s.batch.kept = [] → After (.resumeFeed tag) s fun t =>
      (t.batch.causes.paused = false ∧ t.batch.causes.feederEmpty = false ∧
        t.batch.causes.jamRecovered = false) ∧
      (t.batch.causes.trayLimit = true ↔ s.batch.causes.trayLimit = true ∧
        ∃ d, s.assembler.openDocument = some d ∧ s.assembler.trays[d.tray].hard ≤
          s.assembler.trays[d.tray].fill + s.assembler.trays[d.tray].committed +
            s.tracker.train.countP fun u => u.stage ≠ .decided) ∧
      (t.batch.causes.noTray = true ↔ s.batch.causes.noTray = true ∧ ∀ k : TrayIx,
        ¬ (s.assembler.trays[k].mounted = true ∧
          s.assembler.trays[k].fill + s.assembler.trays[k].committed < s.assembler.trays[k].soft)) ∧
      (t.batch.causes.tableFull = true ↔
        s.batch.causes.tableFull = true ∧ s.folio.freeSlots = 0) ∧
      (let l := s.lines.settings[(11 : LineIx)]
        let stays (level : Bool) := (t.batch.causes.rejectFull = true ↔
          s.batch.causes.rejectFull = true ∧ l.enabled = true ∧ level = l.activeHigh)
        stays (s.begin.pinLevel 11) ∧
        (l.output = true → stays l.latch) ∧
        (l.output = false → s.lines.board[(11 : LineIx)] = .high → stays true) ∧
        (l.output = false → s.lines.board[(11 : LineIx)] = .low → stays false) ∧
        (l.output = false → s.lines.board[(11 : LineIx)] = .released → l.pull = true →
          stays (!l.activeHigh))) ∧
      t.batch.state = (if t.batch.causes = {} then .running else .feedHold) ∧
      Answers s t 0 tag [pack [(7, t.batch.causes.code), (3, t.batch.state.code)]] ∧
      t.batch = { s.batch with causes := t.batch.causes, state := t.batch.state } ∧
      Unchanged [.port, .batch] s t))

/-- STOP BATCH and ABORT BATCH (R65, R120, R146, R171, R172, R174). STOP BATCH in RUNNING or FEED HOLD
enters DRAINING and with no ticket left to decide closes the open document at once; with an empty train and
the feeder AT REST it ends in IDLE, with BATCH ENDED and the matter unpinned; it answers the number of
tickets, and STATE elsewhere. ABORT BATCH with the motor on halts the batch and
stops the tracker; after a jam it only changes the cause; it answers the state before, and STATE
elsewhere. (The model's choices here: log 9 and 15.) -/
def Obligations.StopAndAbort : Prop :=
  (∀ (s : State) (tag : Tag), Takes 2 s →
    (s.batch.state ≠ .running → s.batch.state ≠ .feedHold → Reads (.stopBatch tag) s 8 tag []) ∧
    (s.batch.state = .running ∨ s.batch.state = .feedHold →
      s.tracker.train.any s.unruled = true →
      After (.stopBatch tag) s fun t =>
        Answers s t 0 tag [pack [(3, s.tracker.train.length)]] ∧
        t.batch = { s.batch with state := .draining, stopTaken := true } ∧
        Unchanged [.port, .batch] s t) ∧
    (s.batch.state = .running ∨ s.batch.state = .feedHold → s.tracker.train = [] →
      s.batch.feeder = .atRest → After (.stopBatch tag) s fun t =>
        t.batch.state = .idle ∧ t.batch.causes = {} ∧ t.batch.stopTaken = false ∧
        t.assembler.openDocument = none ∧ t.tracker.stallTimer = none ∧
        t.port.replies = s.port.replies ++ replyWords 0 tag [0] ∧
        t.images = s.images ∧ t.engine = s.engine ∧ t.evaluator = s.evaluator ∧
        t.lines = s.lines ∧
        (Canonical s → ∃ c, OpenClosed s c ∧ BatchOver c t .drained ∧
          t.assembler = c.assembler ∧ t.tracker = { s.tracker with stallTimer := none })) ∧
    (s.batch.state = .running ∨ s.batch.state = .feedHold → Canonical s →
      (∀ v ∈ s.tracker.train, ¬ Unruled s v) →
      ¬ (s.tracker.train = [] ∧ s.batch.feeder = .atRest) → After (.stopBatch tag) s fun t =>
        ∃ c, OpenClosed s c ∧
          t.port = { c.port with
            replies := s.port.replies ++
              replyWords 0 tag [pack [(3, s.tracker.train.length)]] } ∧
          t.batch = { s.batch with state := .draining, stopTaken := true } ∧
          Unchanged [.port, .batch] c t)) ∧
  (∀ (s : State) (tag : Tag), Takes 2 s →
    (s.batch.state = .idle ∨ (s.batch.state = .halted ∧ s.batch.haltCause ≠ some .jam) →
      Reads (.abortBatch tag) s 8 tag []) ∧
    (s.batch.state = .halted → s.batch.haltCause = some .jam → After (.abortBatch tag) s fun t =>
      Answers s t 0 tag [pack [(3, 4)]] ∧
      t.batch = { s.batch with haltCause := some .abort } ∧ Unchanged [.port, .batch] s t) ∧
    (s.motorOn = true → After (.abortBatch tag) s fun t =>
      Answers s t 0 tag [pack [(3, match s.batch.state with
        | .idle => 0 | .running => 1 | .feedHold => 2 | .draining => 3 | .halted => 4)]] ∧
      t.batch = { s.batch with state := .halted, haltCause := some .abort, feeder := .atRest } ∧
      t.tracker = { s.tracker with stopped := true, stallTimer := none } ∧
      t.images = { s.images with
        front := (if s.images.front.state = .transferring then s.images.front
          else { s.images.front with state := .frozen })
        back := (if s.images.back.state = .transferring then s.images.back
          else { s.images.back with state := .frozen }) } ∧
      Unchanged [.port, .tracker, .images, .batch] s t))

/-- READ BATCH (R168, R176): seven words, changing nothing; the four waits are shown only in RUNNING with
the feeder AT REST. (The model's choices here: log 11 and 28.) -/
def Obligations.ReadBatchAnswers : Prop :=
  ∀ (s : State) (tag : Tag), Takes 8 s →
    let shown := decide (s.batch.state = .running ∧ s.batch.feeder = .atRest)
    let least := s.tracker.profile[14]
    let pitch := match s.tracker.lastEntryTrailing with
      | none => false
      | some c => s.tracker.train.any (fun u => u.length.isNone) ||
          decide ((s.tracker.travel - c).toNat < least)
    let capturing := s.tracker.train.countP fun u =>
      u.stage = .entered || u.stage = .gauged || u.stage = .scanning
    Reads (.readBatch tag) s 0 tag
      [pack [(3, match s.batch.state with
          | .idle => 0 | .running => 1 | .feedHold => 2 | .draining => 3 | .halted => 4),
          (2, match s.batch.haltCause with | some .jam => 0 | some .abort => 1 | none => 2),
          (1, bit s.batch.stopTaken), (1, match s.batch.feeder with | .atRest => 0 | .feeding _ => 1),
          (1, bit s.batch.duplex), (4, s.batch.cls.toNat)],
        pack [(1, bit s.batch.causes.paused), (1, bit s.batch.causes.feederEmpty),
          (1, bit s.batch.causes.jamRecovered), (1, bit s.batch.causes.trayLimit),
          (1, bit s.batch.causes.noTray), (1, bit s.batch.causes.tableFull),
          (1, bit s.batch.causes.rejectFull), (1, bit (shown && 6 ≤ s.tracker.train.length)),
          (1, bit (shown && pitch)),
          (1, bit (shown && s.images.free.length < 108 * (capturing + 1))),
          (1, bit (shown && 16 - s.port.notices.length < s.tracker.train.length + 2))],
        s.batch.matter.extractLsb' 16 16, s.batch.matter.extractLsb' 0 16, word s.batch.fed,
        word s.batch.rejected, word s.batch.opened]

/-! ## Lines (R178 to R183) -/

namespace Sys2Proof.Claims

/-- A line is seen asserted with the board at a level (R178 to R180); a level that floats is a free value
(log 7). -/
def SeenAt (s : State) (l : LineIx) (board : Drive) : Prop :=
  let c := s.lines.settings[l]
  c.enabled = true ∧ c.activeHigh =
    (if c.output then c.latch
    else match board with
      | .high => true
      | .low => false
      | .released => if c.pull then !c.activeHigh else Config.floatingPin l.val (s.draws + 1))

/-- A line is parked (R181): an enabled L12 to L17 while the batch is IDLE or HALTED. -/
def Parked (s : State) (l : LineIx) : Prop :=
  12 ≤ l.val ∧ l.val ≤ 17 ∧ s.lines.settings[l].enabled = true ∧
    (s.batch.state = .idle ∨ s.batch.state = .halted)

/-- A gate is ON (R113): its oldest holder holds it ON. -/
def GateOn (s : State) (k : TrayIx) : Prop :=
  ∃ before h after, s.tracker.train = before ++ h :: after ∧ h.gates[k] = .heldOn ∧
    ∀ v ∈ before, v.gates[k] ≠ .heldOn ∧ v.gates[k] ≠ .heldOff

/-- The function values of L12 to L21 (R178): the clutch while the feeder is FEEDING, the motor while the
batch is RUNNING, in FEED HOLD or DRAINING (R170), the four gates while ON, and the four tags. -/
def FunctionValues (s : State) : Prop :=
  (s.functionValue 12 = true ↔ s.batch.feeder ≠ .atRest) ∧
  (s.functionValue 13 = true ↔
    s.batch.state = .running ∨ s.batch.state = .feedHold ∨ s.batch.state = .draining) ∧
  (s.functionValue 14 = true ↔ GateOn s 0) ∧ (s.functionValue 15 = true ↔ GateOn s 1) ∧
  (s.functionValue 16 = true ↔ GateOn s 2) ∧ (s.functionValue 17 = true ↔ GateOn s 3) ∧
  s.functionValue 18 = s.evaluator.tags.tag0 ∧ s.functionValue 19 = s.evaluator.tags.tag1 ∧
  s.functionValue 20 = s.evaluator.tags.tag2 ∧ s.functionValue 21 = s.evaluator.tags.tag3

/-- The pin of a line by R180's rows; a pin that nothing drives and nothing pulls is a free value (log
7). -/
def PinLevels (s : State) (l : LineIx) : Prop :=
  let c := s.lines.settings[l]
  let given := 12 ≤ l.val ∧ l.val ≤ 21
  (c.output = false → s.lines.board[l] = .high → s.pinLevel l = true) ∧
  (c.output = false → s.lines.board[l] = .low → s.pinLevel l = false) ∧
  (c.output = false → s.lines.board[l] = .released → c.pull = true →
    s.pinLevel l = !c.activeHigh) ∧
  (c.output = true → ¬ given ∨ c.enabled = false → s.pinLevel l = c.latch) ∧
  (c.output = true → given → c.enabled = true → ¬ Parked s l →
    s.pinLevel l = (if s.functionValue l = true then c.activeHigh else !c.activeHigh)) ∧
  (c.output = true → Parked s l → s.pinLevel l = !c.activeHigh)

/-- The event of an edge at a line that the Sheet Tracker acts on (R106, R179): no event stands for a
trailing edge at L1 or L2. -/
def edgeAt (l : LineIx) (asserted : Bool) : Option Instr :=
  match l.val, asserted with
  | 0, true => some .entryLeadingEdge
  | 0, false => some .entryTrailingEdge
  | 1, true => some (.edgeSensorLeadingEdge .a)
  | 2, true => some (.edgeSensorLeadingEdge .b)
  | 5, true => some .scanLeadingEdge
  | 5, false => some .scanTrailingEdge
  | 6, true => some (.exitLeadingEdge (.tray 0))
  | 6, false => some (.exitTrailingEdge (.tray 0))
  | 7, true => some (.exitLeadingEdge (.tray 1))
  | 7, false => some (.exitTrailingEdge (.tray 1))
  | 8, true => some (.exitLeadingEdge (.tray 2))
  | 8, false => some (.exitTrailingEdge (.tray 2))
  | 9, true => some (.exitLeadingEdge (.tray 3))
  | 9, false => some (.exitTrailingEdge (.tray 3))
  | 10, true => some (.exitLeadingEdge .reject)
  | 10, false => some (.exitTrailingEdge .reject)
  | _, _ => none

/-- The state with a line set to see its pin. -/
def sensing (s : State) (l : LineIx) : State :=
  let wired : LineSetting := { s.lines.settings[l] with output := false, enabled := true }
  { s with lines.settings := s.lines.settings.set l.val wired l.isLt }

end Sys2Proof.Claims

/-- SET LINE and READ LINES (R178 to R183). SET LINE answers BAD ARGUMENT for a line above 23 or
a setting that is not 0 or 1; out of IDLE it answers STATE for a change of more than the latch of L0 to
L17; otherwise the five settings are written and no other line's, and the old ones and the pin level are
the reply. While the tracker does not act, and for a line with an output function, nothing else changes;
an L0 that comes to be seen asserted while the tracker acts is an entry leading edge, and at any line with
edges the change that SET LINE makes to what is seen does all that the same edge at the pin does. READ
LINES gives the eight sets and changes nothing. The function values of L12 to L21, the pin level by its
rows and parking are as R178, R180 and R181 give them. (The model's choices here: log 7.) -/
def Obligations.LineRequests : Prop :=
  (∀ (s : State) (tag : Tag) (line direction latch pull active enable : Word), Takes 2 s →
    let i := Instr.setLine tag line direction latch pull active enable
    let good := direction.toNat ≤ 1 ∧ latch.toNat ≤ 1 ∧ pull.toNat ≤ 1 ∧ active.toNat ≤ 1 ∧
      enable.toNat ≤ 1
    (23 < line.toNat ∨ ¬ good → Reads i s 18 tag []) ∧
    (∀ l : LineIx, line.toNat = l.val → good →
      let old := s.lines.settings[l]
      let new : LineSetting := ⟨decide (direction = 1), decide (latch = 1), decide (pull = 1),
        decide (active = 1), decide (enable = 1)⟩
      (s.batch.state ≠ .idle → l.val ≤ 17 → new ≠ { old with latch := new.latch } →
        Reads i s 8 tag []) ∧
      (s.batch.state = .idle ∨ 17 < l.val ∨ new = { old with latch := new.latch } →
        After i s fun t =>
          t.lines.settings[l] = new ∧
          (∀ k : LineIx, k ≠ l → t.lines.settings[k] = s.lines.settings[k]) ∧
          t.lines.board = s.lines.board ∧
          t.port.replies = s.port.replies ++ replyWords 0 tag
            [pack [(1, bit old.output), (1, bit old.latch), (1, bit old.pull),
              (1, bit old.activeHigh), (1, bit old.enabled), (1, bit (t.pinLevel l))]] ∧
          (s.acts = false ∨ (12 ≤ l.val ∧ l.val ≤ 21) →
            t.port = { s.port with replies := t.port.replies } ∧ Unchanged [.port, .lines] s t) ∧
          (l = 0 → s.acts = true → s.tracker.train.length < 6 → s.begin.seen 0 = false →
            new.enabled = true → new.output = true → new.latch = new.activeHigh →
            t.tracker.train = s.tracker.train ++ [
              { ordinal := s.tracker.nextOrdinal, entry := s.tracker.travel,
                armed := { entryTrailing := true, firstEdge := true, scanLeading := true } }] ∧
            t.batch.feeder = .atRest ∧ t.batch.fed = min (s.batch.fed + 1) 65535)))) ∧
  (∀ (s : State) (tag : Tag), Takes 17 s → After (.readLines tag) s fun t =>
    Unchanged [.port] s t ∧ ∃ words : List Word, words.length = 16 ∧ Answers s t 0 tag words ∧
      ∀ l : LineIx,
        let shown (set : Nat) : Option Bool := (words[set * 2 + l.val / 16]?).map fun w =>
          w.getLsbD (l.val % 16)
        shown 0 = some (t.pinLevel l) ∧ shown 1 = some s.lines.settings[l].output ∧
        shown 2 = some s.lines.settings[l].latch ∧ shown 3 = some s.lines.settings[l].pull ∧
        shown 4 = some s.lines.settings[l].activeHigh ∧
        shown 5 = some s.lines.settings[l].enabled ∧
        shown 6 = some (if 12 ≤ l.val ∧ l.val ≤ 21 then s.functionValue l else t.seen l) ∧
        shown 7 = some (s.parked l)) ∧
  (∀ s : State, FunctionValues s ∧ ∀ l : LineIx, PinLevels s l ∧
    (s.parked l = true ↔ Parked s l)) ∧
  (∀ (s : State) (tag : Tag) (line direction latch pull active enable : Word) (l : LineIx)
    (asserted : Bool) (edge : Instr), Takes 2 s → line.toNat = l.val →
    direction.toNat ≤ 1 → latch.toNat ≤ 1 → pull.toNat ≤ 1 → active.toNat ≤ 1 →
    enable.toNat ≤ 1 → edgeAt l asserted = some edge →
    let new : LineSetting := ⟨decide (direction = 1), decide (latch = 1), decide (pull = 1),
      decide (active = 1), decide (enable = 1)⟩
    let written := { s with lines.settings := s.lines.settings.set l.val new l.isLt }
    s.batch.state = .idle ∨ new = { s.lines.settings[l] with latch := new.latch } →
    (SeenAt s l s.lines.board[l] ↔ asserted = false) →
    (SeenAt written l s.lines.board[l] ↔ asserted = true) →
    After (.setLine tag line direction latch pull active enable) s fun t =>
      After edge (sensing s l) fun u =>
        t.port = { u.port with replies := t.port.replies } ∧ t.lines.board = s.lines.board ∧
        Unchanged [.port, .lines] u t)

/-! ## Travel, windows and gates (R102, R108, R111, R113, R114, R119, R120) -/

namespace Sys2Proof.Claims

/-- The tracker reports a jam (R106, R119, R120, R146, R169, R173): the batch is HALTED with cause JAM, its
hold causes and stop taken kept, the feeder AT REST, the tracker stopped with its stall timer, the capture
channels frozen but for one that is transferring, and the JAM notice posted or kept. -/
def Jams (s t : State) (cause : JamCause) (line : Option LineIx) (ticket : Option Word) : Prop :=
  t.batch = { s.batch with
    state := .halted, haltCause := some .jam, feeder := .atRest, kept := t.batch.kept } ∧
  t.tracker = { s.tracker with stopped := true, stallTimer := none } ∧
  t.images = { s.images with
    front := (if s.images.front.state = .transferring then s.images.front
      else { s.images.front with state := .frozen })
    back := (if s.images.back.state = .transferring then s.images.back
      else { s.images.back with state := .frozen }) } ∧
  BatchNotice s t (.jam cause line ticket s.tracker.train.length) ∧
  t.port.replies = s.port.replies ∧ Unchanged [.port, .tracker, .images, .batch, .lines] s t

/-- The level the board gives a line for its function to see it asserted, or inactive (R178). -/
def levelFor (s : State) (l : LineIx) (asserted : Bool) : Drive :=
  if asserted = s.lines.settings[l].activeHigh then .high else .low

/-- The board has moved one pin, and nothing else about the lines has changed. -/
def PinMoved (s t : State) (l : LineIx) (d : Drive) : Prop :=
  t.lines.settings = s.lines.settings ∧ t.lines.board[l] = d ∧
    ∀ k : LineIx, k ≠ l → t.lines.board[k] = s.lines.board[k]

/-- A line sees its pin (R179): its function is enabled and its direction is input. -/
def Wired (s : State) (l : LineIx) : Prop :=
  s.lines.settings[l].enabled = true ∧ s.lines.settings[l].output = false

/-- A position lies within a target plus or minus a reach, both ends included (R108). -/
def Near (position target reach : Nat) : Prop :=
  position ≤ target + reach ∧ target ≤ position + reach

/-- The leading position of a ticket (R102). -/
def leadingOf (s : State) (u : Ticket) : Nat := (s.tracker.travel - u.entry).toNat

/-- The trailing position of a ticket of a length (R102). -/
def trailingOf (s : State) (u : Ticket) (length : Nat) : Nat :=
  (s.tracker.travel - u.entry - BitVec.ofNat 32 length).toNat

/-- The position of the exit of a path, and its line (R103, R115). -/
def exitAt (s : State) : Option TrayIx → Nat × LineIx
  | some 0 => (s.tracker.profile[8], 6)
  | some 1 => (s.tracker.profile[9], 7)
  | some 2 => (s.tracker.profile[10], 8)
  | some 3 => (s.tracker.profile[11], 9)
  | none => (s.tracker.profile[12], 10)

/-- The position of a gate (R103). -/
def gateAt (s : State) (k : TrayIx) : Nat := s.tracker.profile[k.val + 4]

end Sys2Proof.Claims

namespace Sys2Proof.Claims

/-- A ticket covers a zone at a travel count (R111): its leading position has reached the zone, and its
trailing position, once its length is known, has not passed it. -/
def CoversZone (travel : Long) (zone : Nat) (u : Ticket) : Prop :=
  zone ≤ (travel - u.entry).toNat ∧
    ∀ n, u.length = some n → (travel - u.entry - BitVec.ofNat 32 n).toNat ≤ zone

/-- The oldest ticket of the train for which a test holds. -/
def Oldest (s : State) (test : Ticket → Prop) (u : Ticket) : Prop :=
  ∃ before after, s.tracker.train = before ++ u :: after ∧ test u ∧ ∀ b ∈ before, ¬ test b

/-- The ticket a zone line flags at this travel pulse, or none (R111). -/
def Zoned (s : State) (l : LineIx) (board : Drive) (zone : Nat) : Option Word → Prop
  | some ordinal => SeenAt s l board ∧
      ∃ u, Oldest s (CoversZone (s.tracker.travel + 1) zone) u ∧ u.ordinal = ordinal
  | none => ¬ SeenAt s l board ∨
      ∀ u ∈ s.tracker.train, ¬ CoversZone (s.tracker.travel + 1) zone u

/-- The side that an input line and the output line formed from it leave (R127, R132, R134): the line
buffer, the band under construction, the counts of the last 64 lines, and the black counter, which takes a
count 64 lines later and not from the first 64 lines. -/
def formed (e : DeskewSide) (input : ScanLine) : DeskewSide :=
  let buffer := (input :: e.buffer).take 384
  let line := outputLine e.delta e.outputs buffer
  let counts := ((List.range 3968).countP fun k => line.pixel (64 + k)) :: e.recent
  { e with
    buffer := buffer
    band := e.band ++ [line]
    outputs := e.outputs + 1
    recent := counts.take 64
    black := match counts[64]? with
      | some n => if 128 ≤ e.outputs then min 65535 (e.black + n) else e.black
      | none => e.black }

/-- Bands in the band queue of a side (R132). -/
def bandsQueued (e : DeskewSide) : Nat :=
  e.queue.countP fun q => match q with
    | .band _ => true
    | .ended _ _ => false

/-- A band has been made ready on a side, and its channel has acted on it (R132, R142): a busy channel
leaves it at the queue's tail; one that waits with places in its plate asks for the port; one that waits
with its plate spent takes a fresh plate and closes the spent one, and asks; an idle one takes a plate for
the first band of a side, and asks; with no plate to be had the side is lost. Beside its queue the side is
as `after` says. -/
def BandReady (s t : State) (d : Side) (b : Band) (after : DeskewSide) : Prop :=
  (Busy s d → t.side d = { after with queue := (s.side d).queue ++ [.band b] }) ∧
  (∀ h n, (s.side d).queue = [] → (s.capture d).state = .waiting →
    (s.capture d).pendingEnd = none → (s.capture d).side = some h → h.residue = some n →
    b.number ≠ 0 → t.side d = { after with queue := [.band b] } ∧ Asks s t d h ∧
    ∀ p, h.current = some p → RequestMade s t ⟨channelOf d, p, 7 - n, b.lines, false⟩) ∧
  (∀ p free, (s.side d).queue = [] → (s.capture d).state = .idle → (s.capture d).side = none →
    (s.capture d).pendingEnd = none → FreeHead s p free →
    t.side d = { after with queue := [.band b] } ∧
    Asks s t d ⟨b.ordinal, 1, some p, some 7, 0xFFFF, true, false⟩ ∧
    RequestMade s t ⟨channelOf d, p, 0, b.lines, false⟩ ∧
    t.images.free = free ∧ PlateJoined s t d b.ordinal p) ∧
  (∀ h p q free, (s.side d).queue = [] → (s.capture d).state = .waiting →
    (s.capture d).pendingEnd = none → (s.capture d).side = some h → h.residue = none →
    b.number ≠ 0 → 0 < h.plates → h.plates < 54 → h.current = some q → h.closed = false →
    FreeHead s p free → Canonical s →
    t.side d = { after with queue := [.band b] } ∧
    Asks s t d { h with
      plates := h.plates + 1, current := some p, residue := some 7, crc := 0xFFFF, first := false } ∧
    RequestMade s t ⟨channelOf d, p, 0, b.lines, false⟩ ∧
    t.images.free = free ∧ PlateJoined s t d h.ordinal p ∧
    t.link q = ⟨some p, h.crc, 8, h.first, d⟩ ∧ RecordKept s t [] [] [q]) ∧
  (∀ h cause, (s.side d).queue = [] → (s.capture d).state = .waiting →
    (s.capture d).pendingEnd = none → (s.capture d).side = some h → h.residue = none →
    b.number ≠ 0 → b.ordinal = h.ordinal → NoPlate s h cause → Canonical s →
    SideLost s t d h cause { after with queue := [.band b] }) ∧
  ((s.side d).queue = [] → (s.capture d).state = .idle → (s.capture d).side = none →
    (s.capture d).pendingEnd = none → s.images.free.length = 0 → Canonical s →
    SideLost s t d { ordinal := b.ordinal } .noPlate { after with queue := [.band b] })

/-- What a travel pulse does to a side of the engine (R130, R132, R133), `input` being its head's line: a
side IDLE or FLUSHING takes no line, one DISCARDING counts and drops it, one TAKING forms an output line;
a band made ready joins the queue, or with four bands queued the side is lost. -/
def LineTaken (s t : State) (d other : Side) (input : ScanLine) : Prop :=
  let e := s.side d
  let f := { formed e input with inputs := e.inputs + 1 }
  (e.state = .idle ∨ e.state = .flushing → t.side d = e) ∧
  (e.state = .discarding → t.side d = { e with inputs := e.inputs + 1 }) ∧
  (e.state = .taking → e.band.length < 15 → t.side d = f ∧
    ((s.side other).state ≠ .taking → t.capture d = s.capture d)) ∧
  (e.state = .taking → 15 ≤ e.band.length → bandsQueued e < 4 →
    let b : Band := ⟨e.ordinal, (e.outputs + 1) / 16 - 1, false, f.band⟩
    (Busy s d → t.side d = { f with band := [], queue := e.queue ++ [.band b] }) ∧
    ((s.side other).state ≠ .taking → BandReady s t d b { f with band := [] })) ∧
  (e.state = .taking → 15 ≤ e.band.length → 4 ≤ bandsQueued e →
    (s.capture d).state = .transferring →
    (t.side d).state = .discarding ∧ (t.side d).band = [] ∧ (t.side d).buffer = [] ∧
    (t.side d).inputs = e.inputs + 1 ∧
    (t.side d).queue = e.queue.take 1 ++ e.queue.tail.filter (fun q => match q with
      | .band b => decide (b.ordinal ≠ e.ordinal)
      | .ended _ _ => true) ∧
    (∀ v ∈ t.tracker.train, v.ordinal = e.ordinal → v.flags.imageLost = true)) ∧
  (e.state = .taking → 15 ≤ e.band.length → 4 ≤ bandsQueued e →
    (s.capture d).state = .requesting → (s.capture d).side.isSome →
    (∀ i ∈ e.queue, i.bandOf e.ordinal = true) → (s.side other).state ≠ .taking →
    t.side d = { f with queue := [], state := .discarding, band := [], buffer := [] } ∧
    t.capture d = { s.capture d with state := .waiting } ∧
    (∀ v ∈ t.tracker.train, v.ordinal = e.ordinal → v.flags.imageLost = true))

end Sys2Proof.Claims

/-- A travel pulse (R102, R106, R109, R111, R120, R127, R130, R132 to R134). The travel count goes up by 1,
modulo 2^32, in every batch state; the board moves L3 and L4, and L1 and L2 back to inactive where the
paper has left them; while the tracker does not act nothing else happens. While it acts the stall timer
starts again; each zone line that is asserted flags the oldest ticket that covers its zone, L3 with DOUBLE
FEED and L4 with SEPARATOR MARK; and each side takes its head's line: one that is TAKING forms an output
line from it, a band made ready goes to the band queue and its channel, and with four bands queued the
side is lost: its ungranted bands leave the queue, and a pending request for one of them is withdrawn. (The
model's choices here: log 7, 18 and 19.) -/
def Obligations.TravelPulseCounts : Prop :=
  ∀ (s : State) (x y : Drive) (leftA leftB : Bool) (front back : ScanLine),
    let i := Instr.travelPulse ⟨x, y⟩ ⟨leftA, leftB⟩ front back
    (After i s fun t => t.tracker.travel = s.tracker.travel + 1 ∧
      t.lines = { s.lines with board := t.lines.board } ∧
      t.lines.board[(3 : LineIx)] = x ∧ t.lines.board[(4 : LineIx)] = y ∧
      t.lines.board[(1 : LineIx)] =
        (if leftA then levelFor s 1 false else s.lines.board[(1 : LineIx)]) ∧
      t.lines.board[(2 : LineIx)] =
        (if leftB then levelFor s 2 false else s.lines.board[(2 : LineIx)]) ∧
      (∀ k : LineIx, k = 0 ∨ 4 < k.val → t.lines.board[k] = s.lines.board[k]) ∧
      (s.acts = false → t.tracker = { s.tracker with travel := s.tracker.travel + 1 } ∧
        Unchanged [.tracker, .lines] s t) ∧
      (s.acts = true → t.tracker.stallTimer = some 50 ∧ t.batch = s.batch)) ∧
    (s.acts = true → ∀ doubleFeed mark : Option Word,
      Zoned s 3 x s.tracker.profile[1] doubleFeed → Zoned s 4 y s.tracker.profile[2] mark →
      let zoned (v : Ticket) : Ticket := { v with
        flags.doubleFeed := v.flags.doubleFeed || decide (doubleFeed = some v.ordinal)
        flags.separatorMark := v.flags.separatorMark || decide (mark = some v.ordinal) }
      let view (v : Ticket) := (v.ordinal, v.flags.doubleFeed, v.flags.separatorMark)
      After i s fun t =>
        t.tracker.train.map view = (s.tracker.train.map zoned).map view ∧
        ((∀ d : Side, (s.side d).state = .idle ∨ (s.side d).state = .flushing) →
          t.tracker = { s.tracker with
            travel := s.tracker.travel + 1
            stallTimer := some 50
            train := s.tracker.train.map zoned } ∧
          Unchanged [.tracker, .lines] s t)) ∧
    (s.acts = true → After i s fun t =>
      LineTaken s t .front .back front ∧ LineTaken s t .back .front back)

namespace Sys2Proof.Claims

/-- An arrival is armed and its position is beyond the upper end of its window (R107, R108). -/
def Passed (s : State) (u : Ticket) : Arrival → Prop
  | .entryTrailing => u.armed.entryTrailing = true ∧ 7200 < leadingOf s u
  | .firstEdge =>
    u.armed.firstEdge = true ∧ s.tracker.profile[0] + s.tracker.profile[13] + 175 < leadingOf s u
  | .secondEdge => ∃ e, u.armed.secondEdge = some e ∧ 350 < (s.tracker.travel - e.firstEdge).toNat
  | .scanLeading =>
    u.armed.scanLeading = true ∧ s.tracker.profile[3] + s.tracker.profile[13] < leadingOf s u
  | .scanTrailing => u.armed.scanTrailing = true ∧ ∃ n, u.length = some n ∧
      s.tracker.profile[3] + s.tracker.profile[13] < trailingOf s u n
  | .exitLeading =>
    u.armed.exitLeading = true ∧ (exitAt s u.path).1 + s.tracker.profile[13] < leadingOf s u
  | .exitTrailing => u.armed.exitTrailing = true ∧ ∃ n, u.length = some n ∧
      (exitAt s u.path).1 + s.tracker.profile[13] < trailingOf s u n

/-- The jam a passed window is, and its line (R108, R119). -/
def missed (s : State) (u : Ticket) : Arrival → JamCause × LineIx
  | .entryTrailing => (.overlength, 0)
  | .firstEdge => (.misfeed, 1)
  | .secondEdge => (.misfeed, match u.armed.secondEdge with
      | some ⟨.b, _⟩ => 2
      | _ => 1)
  | .scanLeading | .scanTrailing => (.lostSheet, 5)
  | .exitLeading | .exitTrailing => (.lostSheet, (exitAt s u.path).2)

end Sys2Proof.Claims

/-- A window that passes without its arrival (R107, R108, R119), and the expiry of the stall timer (R120),
are jams while the tracker acts. For each of the seven arrivals the jam comes exactly when it is armed and
its position is beyond the upper end of its window; otherwise, and for a ticket not in the train, a
tracker that does not act or a stopped timer, nothing happens. (The model's choices here: log 3.) -/
def Obligations.WindowsAndStallJam : Prop :=
  (∀ (s : State) (ordinal : Word) (u : Ticket) (a : Arrival), s.ticket ordinal = some u →
    (s.acts = true → Passed s u a → After (.windowPasses ordinal a) s fun t =>
      Jams s t (missed s u a).1 (some (missed s u a).2) (some ordinal) ∧ t.lines = s.lines) ∧
    (s.acts = false ∨ ¬ Passed s u a → Idles (.windowPasses ordinal a) s)) ∧
  (∀ (s : State) (ordinal : Word) (a : Arrival), s.ticket ordinal = none →
    Idles (.windowPasses ordinal a) s) ∧
  (∀ s : State,
    (s.acts = true → s.tracker.stallTimer.isSome → After .stall s fun t =>
      Jams s t .stall none none ∧ t.lines = s.lines) ∧
    (s.acts = false ∨ s.tracker.stallTimer = none → Idles .stall s))

/-- Claims and releases of a gate (R113, R114), each for a ticket whose turn has come: its leading
position has reached the gate less the gate lead and its path reaches the gate, or its trailing position
has reached the gate plus the gate clear. A claim of a gate with no holder, or whose newest holder holds
it as the ticket needs it, joins in that state; otherwise the ticket joins OFF, and a page goes to the
REJECT path with GATE BUSY. A gate is ON exactly while its oldest holder holds it ON. Nothing else of the
state changes. (The model's choices here: log 3, 14 and 17.) -/
def Obligations.GateClaimsAndReleases : Prop :=
  (∀ (s : State) (ordinal : Word) (k : TrayIx) (u : Ticket), s.ticket ordinal = some u →
    s.acts = true → u.gates[k] = .notReached →
    (∀ n, u.path = some n → k.val ≤ n.val) →
    gateAt s k ≤ leadingOf s u + s.tracker.profile[15] →
    let need : Holding := if u.path = some k then .heldOn else .heldOff
    let joins (f : Ticket → Ticket) := After (.gateClaim ordinal k) s fun t =>
      t.tracker = { s.tracker with train := changed s ordinal f } ∧ Unchanged [.tracker] s t
    ((∀ v ∈ s.tracker.train, v.gates[k] ≠ .heldOn ∧ v.gates[k] ≠ .heldOff) →
      joins fun v => { v with gates := v.gates.set k.val need k.isLt }) ∧
    (∀ before h after, s.tracker.train = before ++ h :: after →
      (h.gates[k] = .heldOn ∨ h.gates[k] = .heldOff) →
      (∀ v ∈ after, v.gates[k] ≠ .heldOn ∧ v.gates[k] ≠ .heldOff) →
      (∀ length, h.length = some length →
        trailingOf s h length < gateAt s k + s.tracker.profile[16]) →
      (h.gates[k] = need → joins fun v => { v with gates := v.gates.set k.val need k.isLt }) ∧
      (h.gates[k] ≠ need → (∀ b ∈ s.tracker.train, b.ordinal = ordinal → b = u) →
        joins fun v => { v with
          path := none
          decision := (match u.path with
            | none => v.decision
            | some _ => v.decision.map fun d => { d with astray := some .gateBusy })
          gates := v.gates.set k.val .heldOff k.isLt }))) ∧
  (∀ (s : State) (ordinal : Word) (k : TrayIx) (u : Ticket) (length : Nat),
    s.ticket ordinal = some u → s.acts = true → (u.gates[k] = .heldOn ∨ u.gates[k] = .heldOff) →
    u.length = some length →
    (gateAt s k + s.tracker.profile[16] ≤ trailingOf s u length →
      After (.gateRelease ordinal k) s fun t =>
        t.tracker = { s.tracker with train := changed s ordinal fun v =>
          { v with gates := v.gates.set k.val .released k.isLt } } ∧ Unchanged [.tracker] s t) ∧
    (trailingOf s u length < gateAt s k + s.tracker.profile[16] →
      Idles (.gateRelease ordinal k) s)) ∧
  (∀ (s : State) (k : TrayIx) (before : List Ticket) (h : Ticket) (after : List Ticket),
    s.tracker.train = before ++ h :: after → (h.gates[k] = .heldOn ∨ h.gates[k] = .heldOff) →
    (∀ v ∈ before, v.gates[k] ≠ .heldOn ∧ v.gates[k] ≠ .heldOff) →
    s.gateOn k = decide (h.gates[k] = .heldOn))

/-! ## The feeder (R165, R168, R169) -/

namespace Sys2Proof.Claims

/-- The drain ends with this train (R171): the batch is DRAINING, the train empty and the feeder AT REST. -/
def DrainEnds (s : State) (train : List Ticket) : Prop :=
  s.batch.state = .draining ∧ train = [] ∧ s.batch.feeder = .atRest

end Sys2Proof.Claims

/-- The feed test and the feed window (R165, R168, R169). In RUNNING with the feeder AT REST: a hold puts
the batch in FEED HOLD with its notice; a wait changes nothing; otherwise the feeder is FEEDING from the
travel count. In any other case the test does nothing. The window passes beyond 2,000: the feeder is AT
REST, FEEDER EMPTY is raised in RUNNING and FEED HOLD, a drain with sheets in the path goes on, and one with
an empty train ends (R171, R172). (The model's choices here: log 3.) -/
def Obligations.FeederActs : Prop :=
  ∀ s : State,
    let feeding (c : Long) := s.batch.feeder = .feeding c
    let passed (c : Long) := 2000 < (s.tracker.travel - c).toNat
    let rejectFull := s.begin.rejectFull
    let trayLimit := s.trayLimitStands
    let held : HoldCauses := { s.batch.causes with
      trayLimit := s.batch.causes.trayLimit || trayLimit
      rejectFull := s.batch.causes.rejectFull || rejectFull }
    (s.batch.state ≠ .running ∨ s.batch.feeder ≠ .atRest → Idles .feedTest s) ∧
    (s.batch.state = .running → s.batch.feeder = .atRest →
      ((rejectFull || trayLimit) = true → After .feedTest s fun t =>
        t.batch = { s.batch with state := .feedHold, causes := held, kept := t.batch.kept } ∧
        BatchNotice s t (.feedHold held s.batch.fed s.batch.rejected s.batch.opened) ∧
        t.port.replies = s.port.replies ∧ Unchanged [.port, .batch] s t) ∧
      ((rejectFull || trayLimit) = false → s.waits.any = true → Idles .feedTest s) ∧
      ((rejectFull || trayLimit) = false → s.waits.any = false → After .feedTest s fun t =>
        t.batch = { s.batch with feeder := .feeding s.tracker.travel } ∧ Unchanged [.batch] s t)) ∧
    (s.batch.feeder = .atRest → Idles .feedWindowPasses s) ∧
    (∀ c, feeding c → ¬ passed c → Idles .feedWindowPasses s) ∧
    (∀ c, feeding c → passed c →
      (s.batch.state = .running → After .feedWindowPasses s fun t =>
        t.batch = { s.batch with
          state := .feedHold, causes := { s.batch.causes with feederEmpty := true },
          feeder := .atRest, kept := t.batch.kept } ∧
        BatchNotice s t (.feedHold { s.batch.causes with feederEmpty := true } s.batch.fed
          s.batch.rejected s.batch.opened) ∧
        t.port.replies = s.port.replies ∧ Unchanged [.port, .batch] s t) ∧
      (s.batch.state = .feedHold → After .feedWindowPasses s fun t =>
        t.batch = { s.batch with
          causes := { s.batch.causes with feederEmpty := true }, feeder := .atRest } ∧
        Unchanged [.batch] s t) ∧
      (s.batch.state = .draining → s.tracker.train ≠ [] → After .feedWindowPasses s fun t =>
        t.batch = { s.batch with feeder := .atRest } ∧ Unchanged [.batch] s t) ∧
      (s.batch.state = .draining → s.tracker.train = [] → After .feedWindowPasses s fun t =>
        DrainOver s t ∧ (Canonical s → DrainEnded s t) ∧ t.port.replies = s.port.replies ∧
        Unchanged [.port, .folio, .record, .tracker, .batch] s t))

/-! ## Edges at the lines (R106 to R110, R115 to R118) -/

/-- The entry sensor (R100, R102, R107, R176). A leading edge with fewer than six tickets makes one with the
next ordinal and the travel count, its three arrivals armed; the feed attempt ends and the sheet is counted.
With six it is TRAIN OVERRUN. A trailing edge gives the newest ticket its length, SHORT or LONG, and is a
STRAY SHEET with an empty train, a length already known or a window passed. While the tracker does not act,
and at a line that does not see its pin, only the pin moves. (The model's choices here: log 19, 24 and 29.)
-/
def Obligations.EntryEdges : Prop :=
  ∀ s : State,
    (¬ Wired s 0 ∨ s.acts = false →
      (After .entryLeadingEdge s fun t => PinMoved s t 0 (levelFor s 0 true) ∧
        Unchanged [.lines] s t) ∧
      (After .entryTrailingEdge s fun t => PinMoved s t 0 (levelFor s 0 false) ∧
        Unchanged [.lines] s t)) ∧
    (Wired s 0 → s.acts = true →
      (s.tracker.train.length < 6 → After .entryLeadingEdge s fun t =>
        PinMoved s t 0 (levelFor s 0 true) ∧
        t.tracker = { s.tracker with
          nextOrdinal := if s.tracker.nextOrdinal = 65535 then 1 else s.tracker.nextOrdinal + 1
          train := s.tracker.train ++ [
            { ordinal := s.tracker.nextOrdinal, entry := s.tracker.travel, length := none,
              delta := none, stage := .entered, path := none, decision := none,
              armed := { entryTrailing := true, firstEdge := true, scanLeading := true } }] } ∧
        t.batch = { s.batch with feeder := .atRest, fed := min (s.batch.fed + 1) 65535 } ∧
        Unchanged [.tracker, .batch, .lines] s t) ∧
      (6 ≤ s.tracker.train.length → After .entryLeadingEdge s fun t =>
        PinMoved s t 0 (levelFor s 0 true) ∧ Jams s t .trainOverrun (some 0) none) ∧
      (∀ before u, s.tracker.train = before ++ [u] → u.length = none → leadingOf s u ≤ 7200 →
        After .entryTrailingEdge s fun t => PinMoved s t 0 (levelFor s 0 false) ∧
          t.tracker = { s.tracker with
            lastEntryTrailing := some s.tracker.travel
            train := changed s u.ordinal fun v => { v with
              length := some (leadingOf s u)
              flags.short := v.flags.short || decide (leadingOf s u < s.tracker.profile[17])
              flags.long := v.flags.long || decide (s.tracker.profile[18] < leadingOf s u)
              armed.entryTrailing := false
              armed.scanTrailing := decide (v.stage = .scanning) } } ∧
          Unchanged [.tracker, .lines] s t) ∧
      (s.tracker.train = [] ∨ (∃ before u, s.tracker.train = before ++ [u] ∧
          (u.length.isSome ∨ 7200 < leadingOf s u)) →
        After .entryTrailingEdge s fun t => PinMoved s t 0 (levelFor s 0 false) ∧
          Jams s t .straySheet (some 0) none))

namespace Sys2Proof.Claims

/-- A ticket expects its first edge now (R108). -/
def ExpectsFirst (s : State) (u : Ticket) : Prop :=
  u.armed.firstEdge = true ∧
    Near (leadingOf s u) s.tracker.profile[0] (s.tracker.profile[13] + 175)

/-- A ticket expects its second edge on a sensor now (R108). -/
def ExpectsSecond (s : State) (sensor : Sensor) (u : Ticket) : Prop :=
  ∃ c, u.armed.secondEdge = some ⟨sensor, c⟩ ∧ (s.tracker.travel - c).toNat ≤ 350

/-- A ticket expects the scan leading edge now (R108). -/
def ExpectsScan (s : State) (u : Ticket) : Prop :=
  u.armed.scanLeading = true ∧ Near (leadingOf s u) s.tracker.profile[3] s.tracker.profile[13]

/-- A ticket expects the scan trailing edge now (R108). -/
def ExpectsScanEnd (s : State) (u : Ticket) : Prop :=
  u.armed.scanTrailing = true ∧ ∃ n, u.length = some n ∧
    Near (trailingOf s u n) s.tracker.profile[3] s.tracker.profile[13]

/-- A ticket's path leads to an exit and it expects its leading edge there now (R108, R115). -/
def ExpectsExit (s : State) (path : Option TrayIx) (u : Ticket) : Prop :=
  u.path = path ∧ u.armed.exitLeading = true ∧
    Near (leadingOf s u) (exitAt s path).1 s.tracker.profile[13]

/-- A ticket's path leads to an exit and it expects its trailing edge there now (R108, R115). -/
def ExpectsExitEnd (s : State) (path : Option TrayIx) (u : Ticket) : Prop :=
  u.path = path ∧ u.armed.exitTrailing = true ∧ ∃ n, u.length = some n ∧
    Near (trailingOf s u n) (exitAt s path).1 s.tracker.profile[13]

/-- The path that leads to an exit. -/
def pathOf : Exit → Option TrayIx
  | .tray n => some n
  | .reject => none

end Sys2Proof.Claims

namespace Sys2Proof.Claims

/-- The difference a side of a ticket is corrected by (R129): Δ for the front, -Δ for the back, 0 with SKEW
OVER. -/
def correction (u : Ticket) (d : Side) : Int :=
  if u.flags.skewOver then 0
  else match d with
    | .front => u.delta.getD 0
    | .back => -(u.delta.getD 0)

/-- A scan leading edge has started a side of a ticket (R130): an IDLE side is TAKING with nothing yet
formed; one that is not has the new side wait, lost from its first line. -/
def SideStarted (s t : State) (d : Side) (u : Ticket) : Prop :=
  let e := s.side d
  (e.state = .idle → t.side d = {
    state := .taking, ordinal := u.ordinal, delta := correction u d, span := span (correction u d),
    waiting := e.waiting, queue := e.queue, lastCount := e.lastCount, black := 0 }) ∧
  (e.state ≠ .idle → t.side d = { e with
    waiting := e.waiting ++ [⟨u.ordinal, correction u d, false⟩] })

/-- A side after it has ended (R130, R134): the first of its waiting starts is discarded from here on, and
with none the side is IDLE; the band queue and the last count stand. -/
def AfterEnd (e after : DeskewSide) (queue : List QueueItem) (lastCount : Nat) : Prop :=
  (e.waiting = [] → after = { queue := queue, black := e.black, lastCount := lastCount }) ∧
  (∀ w more, e.waiting = w :: more → w.ended = false → after = {
    state := .discarding, ordinal := w.ordinal, delta := w.delta, span := span w.delta,
    waiting := more, queue := queue, black := 0, lastCount := lastCount })

/-- A TAKING side of a ticket has output lines left to flush (R131). -/
def ToFlush (e : DeskewSide) (u : Ticket) : Prop :=
  e.state = .taking ∧ e.ordinal = u.ordinal ∧ e.outputs < (e.inputs + e.span + 15) / 16 * 16

/-- The end of a ticket's sides has reached a side (R130, R131, R133, R134, R145): a TAKING side flushes up
to a multiple of 16 lines, or has none left to flush and ends with its blank test and its last band
marked, or the end handed over where that band has left (log 12); a DISCARDING side hands its lost end
over, on which a channel that waits ends its side; a start that waits has its end noted. -/
def SideEnded (s t : State) (d : Side) (u : Ticket) : Prop :=
  let e := s.side d
  let mine := e.ordinal = u.ordinal
  let full := (e.inputs + e.span + 15) / 16 * 16
  (mine → e.state = .taking → e.outputs < full →
    t.side d = { e with state := .flushing, outputLength := full }) ∧
  (mine → e.state = .taking → full ≤ e.outputs → Busy s d →
    (∀ earlier b, e.queue = earlier ++ [.band b] → b.ordinal = u.ordinal →
      AfterEnd e (t.side d) (earlier ++ [.band { b with last := true }]) e.black) ∧
    ((∀ b ∈ e.queue.getLast?, b.bandOf u.ordinal = false) →
      AfterEnd e (t.side d) (e.queue ++ [.ended u.ordinal false]) e.black) ∧
    (∀ v ∈ t.tracker.train, v.ordinal = u.ordinal → e.black ≤ s.engine.blankThreshold →
      (match d with | .front => v.flags.blankFront | .back => v.flags.blankBack) = true)) ∧
  (mine → e.state = .discarding → Busy s d →
    AfterEnd e (t.side d) (e.queue ++ [.ended u.ordinal true]) e.lastCount) ∧
  (mine → e.state = .discarding → e.queue = [] → (s.capture d).state = .waiting →
    (∀ w ∈ e.waiting.head?, w.ended = false) →
    AfterEnd e (t.side d) [] e.lastCount ∧
    t.capture d = ⟨.idle, none, none, true, (s.capture d).pendingEnd.getD .bandOverrun⟩) ∧
  (¬ (mine ∧ (e.state = .taking ∨ e.state = .discarding)) → t.side d = { e with
    waiting := e.waiting.map fun w =>
      if w.ordinal = u.ordinal then { w with ended := true } else w })

end Sys2Proof.Claims

/-- The edge sensors and the scan sensor (R108, R109, R110, R125, R126, R129 to R131). The oldest ticket
that expects an edge takes it. A first edge arms the second on the other sensor and opens the measurement;
a second edge gives Δ, B less A, and SKEW OVER beyond the limit. A scan leading edge takes a GAUGED ticket
to SCANNING, arms its exit and starts the sides the batch needs, each with the difference the ticket uses;
a side that is not IDLE loses the new one, with IMAGE LOST; a ticket still ENTERED is a MISFEED. A scan
trailing edge ends the ticket's sides: one TAKING flushes to a multiple of 16 lines or ends at once, one
DISCARDING hands over its lost end, and one that waits has its end noted. An edge no ticket expects is a
STRAY SHEET. While the tracker does not act, and at a line that does not see its pin, only the pin moves.
(The model's choices here: log 12, 19 and 26.) -/
def Obligations.SensorEdges : Prop :=
  (∀ (s : State) (sensor : Sensor), let l : LineIx := (match sensor with | .a => 1 | .b => 2)
    Wired s l → s.acts = true →
    (∀ u, Oldest s (fun v => ExpectsFirst s v ∨ ExpectsSecond s sensor v) u → ExpectsFirst s u →
      After (.edgeSensorLeadingEdge sensor) s fun t =>
        t.tracker = { s.tracker with train := changed s u.ordinal fun v => { v with
          armed.firstEdge := false
          armed.secondEdge := some
            ⟨(match sensor with | .a => .b | .b => .a), s.tracker.travel⟩ } } ∧
        t.engine = { s.engine with
          measurements :=
            s.engine.measurements ++ [⟨u.ordinal, sensor, s.tracker.travel⟩] } ∧
        PinMoved s t l (levelFor s l true) ∧ Unchanged [.tracker, .engine, .lines] s t) ∧
    (∀ u c rest, Oldest s (fun v => ExpectsFirst s v ∨ ExpectsSecond s sensor v) u →
      ¬ ExpectsFirst s u →
      s.engine.measurements = ⟨u.ordinal, (match sensor with | .a => .b | .b => .a), c⟩ :: rest →
      (∀ m ∈ rest, m.ordinal ≠ u.ordinal) →
      let delta : Int := match sensor with
        | .b => (s.tracker.travel - c).toInt
        | .a => (c - s.tracker.travel).toInt
      After (.edgeSensorLeadingEdge sensor) s fun t =>
        t.tracker = { s.tracker with train := changed s u.ordinal fun v => { v with
          armed.secondEdge := none
          delta := some delta
          stage := .gauged
          flags.skewOver := v.flags.skewOver || decide (s.engine.skewLimit < delta.natAbs) } } ∧
        t.engine = { s.engine with measurements := rest } ∧
        PinMoved s t l (levelFor s l true) ∧ Unchanged [.tracker, .engine, .lines] s t) ∧
    ((∀ u ∈ s.tracker.train, ¬ ExpectsFirst s u ∧ ¬ ExpectsSecond s sensor u) →
      After (.edgeSensorLeadingEdge sensor) s fun t =>
        PinMoved s t l (levelFor s l true) ∧ Jams s t .straySheet (some l) none)) ∧
  (∀ s : State, Wired s 5 → s.acts = true →
    (∀ u, Oldest s (ExpectsScan s) u → u.stage = .entered → After .scanLeadingEdge s fun t =>
      PinMoved s t 5 (levelFor s 5 true) ∧ Jams s t .misfeed (some 5) (some u.ordinal)) ∧
    (∀ u, Oldest s (ExpectsScan s) u → u.stage ≠ .entered →
      (∀ b ∈ s.tracker.train, b.ordinal = u.ordinal → b = u) →
      After .scanLeadingEdge s fun t =>
        let lost := s.engine.front.state ≠ .idle ∨
          (s.batch.duplex = true ∧ s.engine.back.state ≠ .idle)
        t.tracker = { s.tracker with train := changed s u.ordinal fun v => { v with
          stage := .scanning
          armed.scanLeading := false
          armed.exitLeading := true
          armed.scanTrailing := v.length.isSome
          flags.imageLost := v.flags.imageLost || decide lost } } ∧
        SideStarted s t .front u ∧ (s.batch.duplex = true → SideStarted s t .back u) ∧
        (s.batch.duplex = false → t.engine.back = s.engine.back) ∧
        t.engine = { s.engine with front := t.engine.front, back := t.engine.back } ∧
        PinMoved s t 5 (levelFor s 5 true) ∧ Unchanged [.tracker, .engine, .lines] s t) ∧
    ((∀ u ∈ s.tracker.train, ¬ ExpectsScan s u) → After .scanLeadingEdge s fun t =>
      PinMoved s t 5 (levelFor s 5 true) ∧ Jams s t .straySheet (some 5) none) ∧
    (∀ u, Oldest s (ExpectsScanEnd s) u → After .scanTrailingEdge s fun t =>
      SideEnded s t .front u ∧ (s.batch.duplex = true → SideEnded s t .back u) ∧
      (s.batch.duplex = false → t.engine.back = s.engine.back) ∧
      (∀ v ∈ t.tracker.train, v.ordinal = u.ordinal → v.armed.scanTrailing = false) ∧
      PinMoved s t 5 (levelFor s 5 false) ∧ t.port = s.port ∧ t.batch = s.batch ∧
      t.assembler = s.assembler ∧ t.evaluator = s.evaluator ∧
      (ToFlush s.engine.front u → (s.batch.duplex = true → ToFlush s.engine.back u) →
        t.tracker = { s.tracker with
          train := changed s u.ordinal fun v => { v with armed.scanTrailing := false } } ∧
        Unchanged [.tracker, .engine, .lines] s t)) ∧
    ((∀ u ∈ s.tracker.train, ¬ ExpectsScanEnd s u) → After .scanTrailingEdge s fun t =>
      PinMoved s t 5 (levelFor s 5 false) ∧ Jams s t .straySheet (some 5) none)) ∧
  (∀ (s : State) (sensor : Sensor), let l : LineIx := (match sensor with | .a => 1 | .b => 2)
    ¬ Wired s l ∨ s.acts = false → After (.edgeSensorLeadingEdge sensor) s fun t =>
      PinMoved s t l (levelFor s l true) ∧ Unchanged [.lines] s t) ∧
  (∀ s : State, ¬ Wired s 5 ∨ s.acts = false →
    (After .scanLeadingEdge s fun t =>
      PinMoved s t 5 (levelFor s 5 true) ∧ Unchanged [.lines] s t) ∧
    (After .scanTrailingEdge s fun t =>
      PinMoved s t 5 (levelFor s 5 false) ∧ Unchanged [.lines] s t))

namespace Sys2Proof.Claims

/-- A page has been delivered to its tray (R15, R71): the tray's fill is one more and its committed count
one less, and the record knows the box position. -/
def PageDelivered (s t : State) (g : PageOf) (k : TrayIx) : Prop :=
  let old := s.assembler.trays[k]
  let r := s.slot (g.folio.toNat / 16)
  t.assembler.trays[k] = { old with fill := old.fill + 1, committed := old.committed - 1 } ∧
  (∀ j : TrayIx, j ≠ k → t.assembler.trays[j] = s.assembler.trays[j]) ∧
  Settled s t (g.folio.toNat / 16) { r with
    firstPosition := (if r.shelved = 0 then some (old.fill + 1) else r.firstPosition)
    lastPosition := some (old.fill + 1)
    shelved := r.shelved + 1
    outstanding := r.outstanding - 1 }

end Sys2Proof.Claims

/-- The exits (R15, R16, R17, R71, R108, R115 to R118, R171). A leading edge arms the trailing edge of the
oldest ticket on that path that expects it. A trailing edge at a tray exit delivers a page: the tray's fill
goes up and its committed count down, the record learns the box position, and the ticket leaves the train.
At the reject exit an undecided ticket is marked EXITED UNDECIDED with nothing armed, a decided one that is
no page leaves the train, and a page astray is resolved as NOT SHELVED, by an entry with the detail of why.
A FILING record whose last page comes to its end is FILED, with its notice. The last sheet out of a drained
path ends the drain, after its delivery. An edge no ticket expects is a MISDELIVERY. While the tracker does
not act, and at a line that does not see its pin, only the pin moves. (The model's choices here: log 19.) -/
def Obligations.ExitEdges : Prop :=
  ∀ (s : State) (x : Exit), let l := (exitAt s (pathOf x)).2
    (¬ Wired s l ∨ s.acts = false →
      (After (.exitLeadingEdge x) s fun t =>
        PinMoved s t l (levelFor s l true) ∧ Unchanged [.lines] s t) ∧
      (After (.exitTrailingEdge x) s fun t =>
        PinMoved s t l (levelFor s l false) ∧ Unchanged [.lines] s t)) ∧
    (Wired s l → s.acts = true →
    (∀ u, Oldest s (ExpectsExit s (pathOf x)) u → After (.exitLeadingEdge x) s fun t =>
      t.tracker = { s.tracker with train := changed s u.ordinal fun v => { v with
        armed.exitLeading := false, armed.exitTrailing := true } } ∧
      PinMoved s t l (levelFor s l true) ∧ Unchanged [.tracker, .lines] s t) ∧
    ((∀ u ∈ s.tracker.train, ¬ ExpectsExit s (pathOf x) u) → After (.exitLeadingEdge x) s fun t =>
      PinMoved s t l (levelFor s l true) ∧ Jams s t .misdelivery (some l) none) ∧
    ((∀ u ∈ s.tracker.train, ¬ ExpectsExitEnd s (pathOf x) u) →
      After (.exitTrailingEdge x) s fun t =>
        PinMoved s t l (levelFor s l false) ∧ Jams s t .misdelivery (some l) none) ∧
    (∀ u k d g, Oldest s (ExpectsExitEnd s (pathOf x)) u → x = .tray k → u.decision = some d →
      d.page = some g → ¬ DrainEnds s (without s u) → Canonical s →
      After (.exitTrailingEdge x) s fun t =>
        PageDelivered s t g k ∧
        t.tracker = { s.tracker with train := without s u } ∧
        Unchanged [.port, .folio, .record, .assembler, .tracker, .lines] s t) ∧
    (∀ u, Oldest s (ExpectsExitEnd s (pathOf x)) u → x = .reject → u.decision = none →
      After (.exitTrailingEdge x) s fun t =>
        t.tracker = { s.tracker with train := changed s u.ordinal fun v => { v with
          flags.exitedUndecided := true, armed := {} } } ∧
        PinMoved s t l (levelFor s l false) ∧ Unchanged [.tracker, .lines] s t) ∧
    (∀ u d, Oldest s (ExpectsExitEnd s (pathOf x)) u → x = .reject → u.decision = some d →
      d.page = none → ¬ DrainEnds s (without s u) → After (.exitTrailingEdge x) s fun t =>
        t.tracker = { s.tracker with train := without s u } ∧
        PinMoved s t l (levelFor s l false) ∧ Unchanged [.tracker, .lines] s t) ∧
    (∀ u d g a k, Oldest s (ExpectsExitEnd s (pathOf x)) u → x = .reject → u.decision = some d →
      d.page = some g → d.astray = some a → d.route = some k → ¬ DrainEnds s (without s u) →
      Canonical s → After (.exitTrailingEdge x) s fun t =>
        NotShelved s t g k (match a with
          | .late => 20 | .gateBusy => 21) ∧
        t.tracker = { s.tracker with train := without s u } ∧
        Unchanged [.port, .folio, .record, .assembler, .tracker, .lines] s t) ∧
    (∀ u d, Oldest s (ExpectsExitEnd s (pathOf x)) u → u.decision = some d →
      DrainEnds s (without s u) → Canonical s → After (.exitTrailingEdge x) s fun t =>
        ∃ m : State, m.tracker = { s.tracker with train := [] } ∧
          (∀ k g, x = .tray k → d.page = some g → PageDelivered s m g k) ∧
          (∀ g a k, x = .reject → d.page = some g → d.astray = some a → d.route = some k →
            NotShelved s m g k (match a with
              | .late => 20 | .gateBusy => 21)) ∧
          (d.page = none → m.port = s.port ∧ m.folio = s.folio ∧ m.record = s.record) ∧
          PinMoved s m l (levelFor s l false) ∧
          Unchanged [.port, .folio, .record, .assembler, .tracker, .lines] s m ∧
          DrainEnded m t ∧ t.port.replies = m.port.replies ∧
          Unchanged [.port, .folio, .record, .tracker, .batch] m t))

/-! ## Decisions (R51 to R56, R61, R112) and the reject-full line (R179) -/

namespace Sys2Proof.Claims

/-- The decision claim that stands (R51): the oldest CAPTURED ticket with no outcome on its way. -/
def Due (s : State) (u : Ticket) : Prop :=
  s.acts = true ∧ Oldest s (fun v => v.stage = .captured ∧
    ∀ o ∈ s.assembler.outcomes, o.ordinal ≠ v.ordinal) u

/-- The drain close follows this ruling (R65): the batch is DRAINING and no other ticket waits for its
decision. -/
def LastRuling (s : State) (u : Ticket) : Prop :=
  s.batch.state = .draining ∧ ∀ v ∈ s.tracker.train, Unruled s v → v.ordinal = u.ordinal

/-- The Assembler hands the outcome of a ticket over, behind those on their way (R61). -/
def HandsOver (s t : State) (u : Ticket) (d : Decision) : Prop :=
  t.assembler.outcomes = s.assembler.outcomes ++ [⟨u.ordinal, d⟩]

/-- The ticket's chains are empty, and nothing else of the tracker has changed (R54, R56). -/
def ChainsEmptied (s t : State) (u : Ticket) : Prop :=
  t.tracker = { s.tracker with train := changed s u.ordinal fun v =>
    { v with frontChain := ⟨none, none, 0⟩, backChain := ⟨none, none, 0⟩ } }

/-- The ticket's plates have gone back to the free plate queue, the front chain's before the back's (R54,
R55, R140). -/
def PlatesReturned (s t : State) (u : Ticket) : Prop :=
  ChainsEmptied s t u ∧ ChainsReturned s t [u.frontChain, u.backChain] ∧
  t.images.free.length = s.images.free.length + u.frontChain.count + u.backChain.count

/-- A document has been closed (R14, R17, R62): its record is FILING, or with nothing outstanding FILED with
its notice, and the Assembler keeps its folio. -/
def DocumentClosed (s t : State) (d : OpenDocument) (r : Record) : Prop :=
  t.slot (d.folio.toNat / 16) = { r with state := closedState r } ∧
  t.assembler.openDocument = none ∧ t.assembler.lastClosed = some d.folio ∧
  (r.outstanding = 0 → s.folio.kept = [] → s.port.notices.length < 16 →
    t.port.notices = s.port.notices ++ [filedNotice (d.folio.toNat / 16) r])

/-- The record of the open document after a rejected sheet (R10, R13, R55). -/
def rejectNoted (r : Record) (detail : Nat) : Record :=
  let entry : ExceptionEntry := ⟨r.pageCount, .sheetRejected, detail⟩
  { r with
    exceptions := if r.exceptions.length < 8 then r.exceptions ++ [entry] else r.exceptions
    overflow := r.overflow || decide (8 ≤ r.exceptions.length) }

/-- The plates of a ticket's two chains (R100). -/
def TicketPlates (s : State) (u : Ticket) (front back : List Nat) : Prop :=
  PlatesFrom s u.frontChain.head front ∧ front.length = u.frontChain.count ∧
  PlatesFrom s u.backChain.head back ∧ back.length = u.backChain.count

/-- A record with a sheet appended as its next page (R10, R12): counts, plates, the digest extended over the
checks of the page's plates, sides, tags, its exceptions, and the intake hold taken once. -/
def pageAppended (s : State) (r : Record) (u : Ticket) (e : Evaluator) (front back : List Nat) :
    Record :=
  let page := r.pageCount + 1
  let entries : List ExceptionEntry :=
    (if u.flags.skewOver then [⟨page, .skewUncorrected, 0⟩] else []) ++
    (if u.flags.doubleFeed then [⟨page, .doubleFeedFiled, 0⟩] else [])
  let intake := e.outcome.intakeHold && !r.intakeTaken
  { r with
    pageCount := page
    outstanding := r.outstanding + 1
    plateHead := match r.plateHead with
      | some p => some p
      | none => (front ++ back).head?
    plateTail := if back ≠ [] then u.backChain.tail
      else if front ≠ [] then u.frontChain.tail else r.plateTail
    plateCount := r.plateCount + (front ++ back).length
    digest := digestOver r.digest ((front ++ back).map fun p => (s.link p).check)
    sideCount := r.sideCount + bit u.frontDone + bit u.backDone
    tags := ⟨r.tags.tag0 || e.tags.tag0, r.tags.tag1 || e.tags.tag1, r.tags.tag2 || e.tags.tag2,
      r.tags.tag3 || e.tags.tag3⟩
    exceptions := (r.exceptions ++ entries).take (max 8 r.exceptions.length)
    overflow := r.overflow || decide (8 < r.exceptions.length + entries.length ∧ entries ≠ [])
    holdCount := if intake then min 7 (r.holdCount + 1) else r.holdCount
    intakeTaken := r.intakeTaken || intake }

/-- The page's plates have joined the record's chain (R12): the old tail names the page's first plate, and
the front side's tail the back side's first; no other link entry has changed its next-plate field. -/
def PlatesLinked (s t : State) (r : Record) (u : Ticket) (front back : List Nat) : Prop :=
  (∀ q p, r.plateTail = some q → (front ++ back).head? = some p → u.frontChain.tail ≠ some q →
    (t.link q).next = some p) ∧
  (∀ q p, front ≠ [] → u.frontChain.tail = some q → back.head? = some p →
    (t.link q).next = some p) ∧
  (∀ q, r.plateTail ≠ some q → u.frontChain.tail ≠ some q → t.link q = s.link q)

/-- A tray may take a new document (R59). -/
def Eligible (s : State) (k : TrayIx) : Prop :=
  s.assembler.trays[k].mounted = true ∧
    s.assembler.trays[k].fill + s.assembler.trays[k].committed < s.assembler.trays[k].soft

/-- The tray the route candidate chooses (R57, R58): the one it names, or the first eligible one from the
rotation pointer on. -/
def Chosen (s : State) (route : RouteCandidate) (k : TrayIx) : Prop :=
  Eligible s k ∧ (route = .tray k ∨ (route = .rotation ∧ ∃ j : TrayIx, k = s.assembler.rotation + j ∧
    ∀ i : TrayIx, i < j → ¬ Eligible s (s.assembler.rotation + i)))

/-- An open finds a slot and a place (R11): the lowest FREE slot, and the batch matter's place, whose next
sequence is not exhausted; the free-slot count is not 0 and no DOCUMENT FILED is kept. -/
def Opens (s : State) (n place : Nat) : Prop :=
  s.folio.freeSlots ≠ 0 ∧ s.folio.kept = [] ∧ n < 4096 ∧ (s.slot n).state = .free ∧
  (∀ m, m < n → (s.slot m).state ≠ .free) ∧ InDirectory s s.batch.matter place ∧
  (s.matterAt place).number = s.batch.matter ∧ s.batch.matter ≠ 0 ∧
  (s.matterAt place).nextSequence ≠ 0 ∧ (s.matterAt place).tail ≠ some n

/-- A sheet cannot be opened for (R11). -/
def NoRecord (s : State) : Prop :=
  s.folio.freeSlots = 0 ∨ s.folio.kept ≠ [] ∨ NotInDirectory s s.batch.matter ∨
  ∃ place, InDirectory s s.batch.matter place ∧ (s.matterAt place).nextSequence = 0

/-- A tray's box is full (R56). -/
def BoxFull (s : State) (k : TrayIx) : Prop :=
  s.assembler.trays[k].hard ≤ s.assembler.trays[k].fill + s.assembler.trays[k].committed

/-- The sheet opens a document, with this predecessor (R11, R53, R56, R60, R63): none is open, and the last
closed one is continued where the marker is set and its folio names a live record; or the open one's box
is full, and it is closed and continued. -/
def OpensAfter (s : State) : Option Word → Prop
  | none => s.assembler.openDocument = none ∧ (s.assembler.marker = false ∨
      s.assembler.lastClosed = none ∨
      ∃ f, s.assembler.lastClosed = some f ∧ ∀ r, ¬ Names s f r)
  | some f => (s.assembler.openDocument = none ∧ s.assembler.marker = true ∧
      s.assembler.lastClosed = some f ∧ ∃ r, Names s f r) ∨
    ∃ d r, s.assembler.openDocument = some d ∧ BoxFull s d.tray ∧ d.folio = f ∧ Names s f r ∧
      (0 < r.outstanding ∨ s.port.notices.length < 16)

/-- A document has been opened with a sheet as its first page (R5, R11, R12, R57, R58, R60, R70): its
record, its place in the matter's chain, its partner's successor, the bound tray, the rotation pointer and
the counts. -/
def DocumentOpened (s t : State) (u : Ticket) (e : Evaluator) (k : TrayIx) (n place : Nat)
    (predecessor : Option Word) (front back : List Nat) : Prop :=
  let m := s.matterAt place
  let folio := folioNumber s n
  let fresh : Record := {
    generation := (s.slot n).generation, state := .assembling, matter := s.batch.matter, place := place,
    sequence := m.nextSequence, cls := s.batch.cls, tray := some k, box := s.assembler.trays[k].box,
    predecessor := predecessor }
  let page := pageAppended s fresh u e front back
  HandsOver s t u { route := some k, page := some ⟨folio, 1⟩, reason := none, tags := e.tags } ∧
  (LastRuling s u → t.slot n = { page with state := .filing } ∧ t.assembler.openDocument = none) ∧
  (¬ LastRuling s u → t.slot n = page ∧ t.assembler.openDocument = some ⟨folio, k⟩) ∧
  PlatesLinked s t fresh u front back ∧ ChainsEmptied s t u ∧
  (∀ q, m.tail = some q → (t.slot q).chainNext = some n) ∧
  (∀ f, predecessor = some f → (t.slot (f.toNat / 16)).successor = some folio) ∧
  t.matterAt place = { m with
    recordCount := m.recordCount + 1, tail := some n,
    head := (match m.head with | some h => some h | none => some n),
    nextSequence := if m.nextSequence = 65535 then 0 else m.nextSequence + 1 } ∧
  t.folio.freeSlots = s.folio.freeSlots - 1 ∧ t.assembler.marker = false ∧
  t.assembler.rotation = (if e.outcome.route = .rotation then k + 1 else s.assembler.rotation) ∧
  t.assembler.trays[k] =
    { s.assembler.trays[k] with committed := s.assembler.trays[k].committed + 1 } ∧
  (∀ j : TrayIx, j ≠ k → t.assembler.trays[j] = s.assembler.trays[j]) ∧
  t.batch = { s.batch with opened := min (s.batch.opened + 1) 65535 }

/-- A sheet that could not be opened for has been rejected (R57, R58, R60, R165): with its reason, counted,
its plates back in the free plate queue, and the hold cause raised if there is one, which in RUNNING puts
the batch in FEED HOLD with its notice. -/
def TurnedAway (s t : State) (u : Ticket) (e : Evaluator) (reason : RejectReason) (raised : Bool)
    (causes : HoldCauses) : Prop :=
  let rejected := min (s.batch.rejected + 1) 65535
  HandsOver s t u { route := none, page := none, reason := some reason, tags := e.tags } ∧
  PlatesReturned s t u ∧ t.assembler.openDocument = none ∧ t.folio = s.folio ∧
  t.batch = { s.batch with
    rejected := rejected
    causes := if raised then causes else s.batch.causes
    state := if raised ∧ s.batch.state = .running then .feedHold else s.batch.state
    kept := t.batch.kept } ∧
  (raised = true → s.batch.state = .running →
    BatchNotice s t (.feedHold causes s.batch.fed rejected s.batch.opened)) ∧
  (raised = false ∨ s.batch.state ≠ .running → t.port = s.port ∧ t.batch.kept = s.batch.kept)

end Sys2Proof.Claims

/-- A decision, its outcome, and the level of L11 (R10 to R13, R51, R53 to R63, R65, R112, R118, R171). With
no decision claim, or while the tracker does not act, a decision moves the two switches only. A SEPARATE
sheet is routed to the reject tray with reason SEPARATOR, closes the open document and clears the marker. A
sheet with IMAGE LOST, or a REJECT that came out true, is rejected with its reason, noted in the open
document and counted. With a document open whose tray has room the sheet is its next page; at 250 pages the
document closes. With none open, or a full box, which closes the open one, the sheet opens a document in the
tray its route chooses, or is turned away for want of a route, of a tray or of a record. The ruling that
leaves a drained path closes the open document. The oldest outcome is taken by its ticket, also while the
tracker is stopped: the ticket is DECIDED, on the path of the route unless the gate has been reached
already, which is LATE; one that exited undecided leaves the train, a page of it NOT SHELVED. (The model's
choices here: log 3 and 15.) -/
def Obligations.DecisionsAndOutcomes : Prop :=
  (∀ (s : State) (x y : Drive), let i := Instr.decision x y
    let p := ((s.begin).drive 22 x).drive 23 y
    (s.acts = false ∨ (∀ u ∈ s.tracker.train, u.stage ≠ .captured) →
      After i s fun t => Unchanged [.lines] s t ∧ t.lines = p.lines) ∧
    (∀ u, Due s u → Canonical s → let e := p.evaluate u
      (After i s fun t => t.evaluator = e ∧ t.lines = p.lines) ∧
      (e.outcome.separator = true → After i s fun t =>
        HandsOver s t u
          { route := none, page := none, reason := some .separator, tags := e.tags } ∧
        PlatesReturned s t u ∧ t.assembler.marker = false ∧ t.assembler.openDocument = none ∧
        (∀ d, s.assembler.openDocument = some d →
          DocumentClosed s t d (s.slot (d.folio.toNat / 16))) ∧ t.batch = s.batch) ∧
      (∀ reason, e.outcome.separator = false →
        reason = (if u.flags.imageLost then some .imageLost
          else e.outcome.reject.map RejectReason.code) → reason ≠ none → After i s fun t =>
        HandsOver s t u { route := none, page := none, reason := reason, tags := e.tags } ∧
        PlatesReturned s t u ∧ t.assembler.marker = s.assembler.marker ∧
        t.batch = { s.batch with rejected := min (s.batch.rejected + 1) 65535 } ∧
        (¬ LastRuling s u → t.assembler.openDocument = s.assembler.openDocument) ∧
        ∀ d, s.assembler.openDocument = some d →
          let noted := rejectNoted (s.slot (d.folio.toNat / 16))
            (if u.flags.imageLost then 16 else e.outcome.reject.getD 0)
          (¬ LastRuling s u → t.slot (d.folio.toNat / 16) = noted) ∧
          (LastRuling s u → DocumentClosed s t d noted)) ∧
      (e.outcome.separator = false → u.flags.imageLost = false → e.outcome.reject = none →
        (∀ d front back, s.assembler.openDocument = some d → ¬ BoxFull s d.tray →
          TicketPlates s u front back → After i s fun t =>
          let r := s.slot (d.folio.toNat / 16)
          let page := pageAppended s r u e front back
          HandsOver s t u { route := some d.tray, page := some ⟨d.folio, r.pageCount + 1⟩,
                            reason := none, tags := e.tags } ∧
          (r.pageCount = 249 → t.assembler.openDocument = none ∧ t.assembler.marker = true ∧
            t.slot (d.folio.toNat / 16) = { page with state := .filing }) ∧
          (r.pageCount ≠ 249 → LastRuling s u → t.assembler.openDocument = none ∧
            t.assembler.marker = s.assembler.marker ∧
            t.slot (d.folio.toNat / 16) = { page with state := .filing }) ∧
          (r.pageCount ≠ 249 → ¬ LastRuling s u →
            t.assembler.openDocument = s.assembler.openDocument ∧
            t.assembler.marker = s.assembler.marker ∧ t.slot (d.folio.toNat / 16) = page) ∧
          PlatesLinked s t r u front back ∧ ChainsEmptied s t u ∧
          t.assembler.trays[d.tray].committed = s.assembler.trays[d.tray].committed + 1 ∧
          t.batch = s.batch) ∧
        (∀ k n place predecessor front back, OpensAfter s predecessor →
          Chosen s e.outcome.route k → Opens s n place → TicketPlates s u front back →
          After i s fun t => DocumentOpened s t u e k n place predecessor front back ∧
            ∀ d, s.assembler.openDocument = some d →
              (t.slot (d.folio.toNat / 16)).state =
                closedState (s.slot (d.folio.toNat / 16))) ∧
        (s.assembler.openDocument = none →
          (e.outcome.route = .none → After i s fun t =>
            TurnedAway s t u e .noRoute false s.batch.causes) ∧
          (∀ k, e.outcome.route = .tray k → ¬ Eligible s k → After i s fun t =>
            TurnedAway s t u e .trayUnavailable false s.batch.causes) ∧
          (e.outcome.route = .rotation → (∀ k, ¬ Eligible s k) → After i s fun t =>
            TurnedAway s t u e .trayUnavailable true { s.batch.causes with noTray := true }) ∧
          (∀ k, Chosen s e.outcome.route k → NoRecord s → After i s fun t =>
            TurnedAway s t u e .noRecord true { s.batch.causes with tableFull := true }))))) ∧
  (∀ s : State,
    (s.assembler.outcomes = [] → Idles .decisionOutcome s) ∧
    (∀ o rest, s.assembler.outcomes = o :: rest →
      (∀ u, s.ticket o.ordinal = some u → u.flags.exitedUndecided = true →
        ¬ DrainEnds s (without s u) ∧ (o.decision.page = none ∨ Canonical s)) →
      After .decisionOutcome s fun t => OutcomeTaken s t o rest) ∧
    (∀ o rest u, s.assembler.outcomes = o :: rest → s.ticket o.ordinal = some u →
      u.flags.exitedUndecided = true → DrainEnds s (without s u) → Canonical s →
      After .decisionOutcome s fun t =>
        ∃ m : State, m.tracker = { s.tracker with train := [] } ∧ OutcomeTaken s m o rest ∧
          Unchanged [.port, .folio, .record, .assembler, .tracker] s m ∧
          DrainEnded m t ∧ t.port.replies = m.port.replies ∧
          Unchanged [.port, .folio, .record, .tracker, .batch] m t)) ∧
  (∀ (s : State) (d : Drive), After (.rejectFullLineChange d) s fun t =>
    PinMoved s t 11 d ∧ Unchanged [.lines] s t)

/-! ## The shears and the flush (R127 to R131) -/

namespace Sys2Proof.Claims

/-- A whole number is n / 3,200 rounded to the nearest, halves away from zero (R127). -/
def Rounds (n q : Int) : Prop :=
  2 * (3200 * q - n) ≤ 3200 ∧ -3200 ≤ 2 * (3200 * q - n) ∧
    (2 * (3200 * q - n) = 3200 → 0 < n) ∧ (2 * (3200 * q - n) = -3200 → n < 0)

/-- The last line of a FLUSHING side (R130, R131, R134): the blank test is made, the last count kept and the
last band handed over; the side is IDLE, or discards the first of its waiting starts. -/
def SideFlushed (s t : State) (d : Side) : Prop :=
  let f := formed (s.side d) 0
  (∃ after, AfterEnd f after [] f.black ∧
    t.side d = { after with queue := (t.side d).queue } ∧
    BandReady s t d ⟨f.ordinal, f.outputs / 16 - 1, true, f.band⟩ after) ∧
  (∀ v ∈ t.tracker.train, v.ordinal = f.ordinal → f.black ≤ s.engine.blankThreshold →
    (match d with | .front => v.flags.blankFront | .back => v.flags.blankBack) = true) ∧
  (s.engine.blankThreshold < f.black → Busy s d → t.tracker = s.tracker)

end Sys2Proof.Claims

/-- The shears (R127, R128, R129) and one flushed line (R131, R132, R134). For every difference Δ, with d(x)
the rounded x times Δ / 3,200: the delay of column x is d(x) less the least of 0 and d(4095), the span is
the size of d(4095), both at most 383, and the shift of line y is the rounded minus y times Δ / 3,200; a
pixel of an output line is the pixel its shifted column had as many input lines ago as that column's delay,
and white where that column lies outside the line or before the first input line; with a difference of 0
the output line is the input line. A side that is not FLUSHING, a stopped tracker, and a side with four
bands queued and its band's last line to form do nothing: an event that is not due does nothing (log 3).
Otherwise a flush forms one line from a white input line: within its band nothing else happens; a band it
completes goes to the queue and the channel; the last line of the side makes the blank test, hands over the
last band and ends the side, with a start waiting or none. (The model's choices here: log 3.) -/
def Obligations.ShearsAndFlush : Prop :=
  (∀ delta : Int, ∃ d : Nat → Int, (∀ x : Nat, Rounds (x * delta) (d x)) ∧
    (∀ x : Nat, delay delta x = min 383 (d x - min 0 (d 4095)).toNat) ∧
    span delta = min 383 (d 4095).natAbs ∧ span (-delta) = span delta ∧
    (∀ y : Nat, Rounds (-(y * delta)) (shift delta y))) ∧
  (∀ (line : Nat) (input : ScanLine) (buffer : List ScanLine),
    outputLine 0 line (input :: buffer) = input) ∧
  (∀ (delta : Int) (line : Nat) (buffer : List ScanLine) (x : Nat), delta ≠ 0 → x < 4096 →
    let source := (x : Int) - shift delta line
    ((outputLine delta line buffer).pixel x = true ↔ 0 ≤ source ∧ source ≤ 4095 ∧
      ∃ input, buffer[delay delta source.toNat]? = some input ∧ input.pixel source.toNat = true)) ∧
  (∀ (s : State) (d : Side), let e := s.side d
    let ready := s.tracker.stopped = false ∧ e.state = .flushing
    (s.tracker.stopped = true ∨ e.state ≠ .flushing ∨ (e.band.length = 15 ∧ 4 ≤ bandsQueued e) →
      Idles (.flushLine d) s) ∧
    (ready → e.band.length < 15 → e.outputs + 1 ≠ e.outputLength → After (.flushLine d) s fun t =>
      t.side d = formed e 0 ∧
      t.engine = (match d with
        | .front => { s.engine with front := t.engine.front }
        | .back => { s.engine with back := t.engine.back }) ∧
      Unchanged [.engine] s t) ∧
    (ready → e.band.length = 15 → bandsQueued e < 4 → e.outputs + 1 ≠ e.outputLength →
      After (.flushLine d) s fun t =>
        BandReady s t d ⟨e.ordinal, (e.outputs + 1) / 16 - 1, false, (formed e 0).band⟩
          { formed e 0 with band := [] } ∧
        t.port = s.port ∧ t.batch = s.batch ∧ t.lines = s.lines) ∧
    (ready → e.band.length < 15 ∨ bandsQueued e < 4 → e.outputs + 1 = e.outputLength →
      (∀ w ∈ e.waiting.head?, w.ended = false) → After (.flushLine d) s fun t =>
        SideFlushed s t d ∧ t.port = s.port ∧ t.batch = s.batch ∧ t.lines = s.lines))
end

