-- ==== Sys2Proof/Laws/Table.lean ====
section
/-! SUPPORT. Sparse tables: what a set and a block write leave to be read, and that they keep the
canonical form. -/

namespace Sys2Proof.Machine

variable {α : Type}

/-- Every key of a table is at least `n`. -/
def Table.from (n : Nat) (t : List (Nat × α)) : Prop := ∀ c ∈ t, n ≤ c.1

theorem Table.get_cons (d : α) (k : Nat) (v : α) (t : List (Nat × α)) (n : Nat) :
    Table.get d ((k, v) :: t) n = if k = n then v else Table.get d t n := rfl

/-- A table that lists only keys above `n` reads as unlisted at `n`. -/
theorem Table.get_of_from (d : α) {n m : Nat} (h : m < n) :
    ∀ t : List (Nat × α), Table.from n t → Table.get d t m = d
  | [], _ => rfl
  | (k, v) :: t, hf => by
    have hk : n ≤ k := hf (k, v) (by simp)
    have ht : Table.from n t := fun c hc => hf c (by simp [hc])
    rw [Table.get_cons, if_neg (by omega), Table.get_of_from d h t ht]

variable [DecidableEq α]

/-- The canonical form of a list with a head: its value is listed for a reason, its tail lies above it and
is canonical. -/
theorem Table.wf_cons {d : α} {k : Nat} {v : α} {t : List (Nat × α)} :
    Table.wf d ((k, v) :: t) = true ↔ v ≠ d ∧ Table.from (k + 1) t ∧ Table.wf d t = true := by
  induction t generalizing k v with
  | nil => simp [Table.wf, Table.from]
  | cons c t ih =>
    obtain ⟨k', v'⟩ := c
    have step : Table.wf d ((k, v) :: (k', v') :: t) =
        (decide (v ≠ d) && decide (k < k') && Table.wf d ((k', v') :: t)) := rfl
    rw [step]
    simp only [Bool.and_eq_true, decide_eq_true_eq]
    constructor
    · rintro ⟨⟨hv, hk⟩, hw⟩
      refine ⟨hv, ?_, hw⟩
      intro c hc
      rcases List.mem_cons.mp hc with rfl | hc
      · exact hk
      · have := (ih.mp hw).2.1 c hc
        omega
    · rintro ⟨hv, hf, hw⟩
      exact ⟨⟨hv, hf (k', v') (by simp)⟩, hw⟩

/-- Reading another key than the one set. -/
theorem Table.get_set_ne (d : α) {n m : Nat} (h : m ≠ n) (v : α) :
    ∀ t : List (Nat × α), Table.get d (Table.set d t n v) m = Table.get d t m
  | [] => by
    unfold Table.set
    split <;> simp [Table.get, Ne.symm h]
  | (k, w) :: t => by
    have ih := Table.get_set_ne d h v t
    unfold Table.set
    split
    · split <;> simp [Table.get, Ne.symm h]
    · split
      · next hk =>
        subst hk
        split <;> simp [Table.get, Ne.symm h]
      · simp [Table.get, ih]

/-- Reading the key that was set, in a canonical table. -/
theorem Table.get_set_same (d : α) (n : Nat) (v : α) :
    ∀ t : List (Nat × α), Table.wf d t = true → Table.get d (Table.set d t n v) n = v
  | [], _ => by
    unfold Table.set
    split <;> simp_all [Table.get]
  | (k, w) :: t, hw => by
    obtain ⟨_, hf, ht⟩ := Table.wf_cons.mp hw
    have ih := Table.get_set_same d n v t ht
    unfold Table.set
    split
    · next hk =>
      split
      · next hv =>
        subst hv
        refine Table.get_of_from v (n := k) hk _ ?_
        intro c hc
        rcases List.mem_cons.mp hc with rfl | hc
        · exact Nat.le_refl _
        · have := hf c hc
          omega
      · simp [Table.get]
    · split
      · next hk =>
        subst hk
        split
        · next hv =>
          subst hv
          exact Table.get_of_from v (n := n + 1) (Nat.lt_succ_self n) t hf
        · simp [Table.get]
      · next hk => simp [Table.get, Ne.symm hk, ih]

/-- A set lists no key below those listed and the one set. -/
theorem Table.set_from (d : α) {b n : Nat} (v : α) (hn : b ≤ n) :
    ∀ t : List (Nat × α), Table.from b t → Table.from b (Table.set d t n v)
  | [], _ => by
    unfold Table.set
    split
    · intro c hc; simp at hc
    · intro c hc
      simp at hc
      subst hc
      exact hn
  | (k, w) :: t, hf => by
    have ht : Table.from b t := fun c hc => hf c (by simp [hc])
    have ih := Table.set_from d v hn t ht
    unfold Table.set
    split
    · split
      · exact hf
      · intro c hc
        rcases List.mem_cons.mp hc with rfl | hc
        · exact hn
        · exact hf c hc
    · split
      · split
        · exact ht
        · intro c hc
          rcases List.mem_cons.mp hc with rfl | hc
          · exact hn
          · exact ht c hc
      · intro c hc
        rcases List.mem_cons.mp hc with rfl | hc
        · exact hf (k, w) (by simp)
        · exact ih c hc

/-- A set keeps the canonical form. -/
theorem Table.set_wf (d : α) (n : Nat) (v : α) :
    ∀ t : List (Nat × α), Table.wf d t = true → Table.wf d (Table.set d t n v) = true
  | [], _ => by
    unfold Table.set
    split
    · rfl
    · next hv => exact Table.wf_cons.mpr ⟨hv, by intro c hc; simp at hc, rfl⟩
  | (k, w) :: t, hw => by
    obtain ⟨hwd, hf, ht⟩ := Table.wf_cons.mp hw
    have ih := Table.set_wf d n v t ht
    unfold Table.set
    split
    · next hk =>
      split
      · exact hw
      · next hv =>
        refine Table.wf_cons.mpr ⟨hv, ?_, hw⟩
        intro c hc
        rcases List.mem_cons.mp hc with rfl | hc
        · exact hk
        · have := hf c hc
          omega
    · split
      · next hk =>
        subst hk
        split
        · exact ht
        · next hv => exact Table.wf_cons.mpr ⟨hv, hf, ht⟩
      · next h1 h2 =>
        refine Table.wf_cons.mpr ⟨hwd, ?_, ih⟩
        exact Table.set_from d v (by omega) t hf

/-! ## Blocks -/

/-- The cells of a block lie from its first key on. -/
theorem Table.cells_from (d : α) : ∀ (vs : List α) (n : Nat), Table.from n (Table.cells d n vs)
  | [], n => by intro c hc; simp [Table.cells] at hc
  | v :: vs, n => by
    have ih := Table.cells_from d vs (n + 1)
    unfold Table.cells
    split
    · intro c hc
      have := ih c hc
      omega
    · intro c hc
      rcases List.mem_cons.mp hc with rfl | hc
      · exact Nat.le_refl _
      · have := ih c hc
        omega

/-- The cells of a block lie below its end. -/
theorem Table.cells_below (d : α) :
    ∀ (vs : List α) (n : Nat), ∀ c ∈ Table.cells d n vs, c.1 < n + vs.length
  | [], n => by intro c hc; simp [Table.cells] at hc
  | v :: vs, n => by
    have ih := Table.cells_below d vs (n + 1)
    unfold Table.cells
    intro c hc
    rw [List.length_cons]
    split at hc
    · have := ih c hc
      omega
    · rcases List.mem_cons.mp hc with rfl | hc
      · show n < n + (vs.length + 1)
        omega
      · have := ih c hc
        omega

/-- The cells of a block are in canonical form. -/
theorem Table.cells_wf (d : α) : ∀ (vs : List α) (n : Nat), Table.wf d (Table.cells d n vs) = true
  | [], _ => rfl
  | v :: vs, n => by
    unfold Table.cells
    split
    · exact Table.cells_wf d vs (n + 1)
    · next hv => exact Table.wf_cons.mpr ⟨hv, Table.cells_from d vs (n + 1), Table.cells_wf d vs (n + 1)⟩

/-- Two canonical tables, the first below the second, make one. -/
theorem Table.wf_append (d : α) {b : Nat} {u : List (Nat × α)} (hu : Table.wf d u = true)
    (hfrom : Table.from b u) :
    ∀ t : List (Nat × α), Table.wf d t = true → (∀ c ∈ t, c.1 < b) → Table.wf d (t ++ u) = true
  | [], _, _ => hu
  | (k, v) :: t, hw, hb => by
    obtain ⟨hv, hf, ht⟩ := Table.wf_cons.mp hw
    refine Table.wf_cons.mpr ⟨hv, ?_, ?_⟩
    · intro c hc
      rcases List.mem_append.mp hc with hc | hc
      · exact hf c hc
      · have h1 := hfrom c hc
        have h2 := hb (k, v) (by simp)
        simp only at h2
        omega
    · exact Table.wf_append d hu hfrom t ht fun c hc => hb c (by simp [hc])

/-- Dropping the keys below a bound keeps the canonical form, and leaves none below it. -/
theorem Table.dropWhile_wf (d : α) (b : Nat) :
    ∀ t : List (Nat × α), Table.wf d t = true →
      Table.wf d (t.dropWhile fun c => c.1 < b) = true ∧
        Table.from b (t.dropWhile fun c => c.1 < b)
  | [], _ => ⟨rfl, by intro c hc; simp at hc⟩
  | (k, v) :: t, hw => by
    obtain ⟨_, hf, ht⟩ := Table.wf_cons.mp hw
    by_cases hk : k < b
    · simp only [List.dropWhile_cons, hk, decide_true, if_true]
      exact Table.dropWhile_wf d b t ht
    · simp only [List.dropWhile_cons, hk, decide_false, Bool.false_eq_true, if_false]
      refine ⟨hw, ?_⟩
      intro c hc
      rcases List.mem_cons.mp hc with rfl | hc
      · exact Nat.le_of_not_lt hk
      · have := hf c hc
        omega

/-- Taking the keys below a bound keeps the canonical form, and takes none above it. -/
theorem Table.takeWhile_wf (d : α) (b : Nat) :
    ∀ t : List (Nat × α), Table.wf d t = true →
      Table.wf d (t.takeWhile fun c => c.1 < b) = true ∧
        ∀ c ∈ t.takeWhile (fun c => c.1 < b), c.1 < b
  | [], _ => ⟨rfl, by intro c hc; simp at hc⟩
  | (k, v) :: t, hw => by
    obtain ⟨hv, hf, ht⟩ := Table.wf_cons.mp hw
    have ih := Table.takeWhile_wf d b t ht
    by_cases hk : k < b
    · simp only [List.takeWhile_cons, hk, decide_true, if_true]
      refine ⟨Table.wf_cons.mpr ⟨hv, ?_, ih.1⟩, ?_⟩
      · intro c hc
        exact hf c (List.takeWhile_subset _ hc)
      · intro c hc
        rcases List.mem_cons.mp hc with rfl | hc
        · exact hk
        · exact ih.2 c hc
    · simp only [List.takeWhile_cons, hk, decide_false, Bool.false_eq_true, if_false]
      exact ⟨rfl, by intro c hc; simp at hc⟩

/-- A block write keeps the canonical form. -/
theorem Table.setBlock_wf (d : α) (t : List (Nat × α)) (n : Nat) (vs : List α)
    (hw : Table.wf d t = true) : Table.wf d (Table.setBlock d t n vs) = true := by
  obtain ⟨hd, hdf⟩ := Table.dropWhile_wf d (n + vs.length) t hw
  obtain ⟨ht, htb⟩ := Table.takeWhile_wf d n t hw
  have hmid : Table.wf d (Table.cells d n vs ++
      t.dropWhile fun c => c.1 < n + vs.length) = true :=
    Table.wf_append d hd hdf _ (Table.cells_wf d vs n) (Table.cells_below d vs n)
  have hfrom : Table.from n (Table.cells d n vs ++
      t.dropWhile fun c => c.1 < n + vs.length) := by
    intro c hc
    rcases List.mem_append.mp hc with hc | hc
    · exact Table.cells_from d vs n c hc
    · have := hdf c hc
      omega
  unfold Table.setBlock
  rw [List.append_assoc]
  exact Table.wf_append d hmid hfrom _ ht htb

omit [DecidableEq α] in
/-- A key that a front part does not list is read in the rest. -/
theorem Table.get_append (d : α) {m : Nat} {u : List (Nat × α)} :
    ∀ t : List (Nat × α), (∀ c ∈ t, c.1 ≠ m) → Table.get d (t ++ u) m = Table.get d u m
  | [], _ => rfl
  | (k, v) :: t, h => by
    rw [List.cons_append, Table.get_cons, if_neg (h (k, v) (by simp))]
    exact Table.get_append d t fun c hc => h c (by simp [hc])

omit [DecidableEq α] in
/-- A key below a bound is read among the keys below it. -/
theorem Table.get_takeWhile (d : α) {b m : Nat} {u : List (Nat × α)} (h : m < b)
    (hu : Table.get d u m = d) :
    ∀ t : List (Nat × α), (∀ c ∈ t.dropWhile (fun c => c.1 < b), b ≤ c.1) →
      Table.get d (t.takeWhile (fun c => c.1 < b) ++ u) m = Table.get d t m
  | [], _ => hu
  | (k, v) :: t, hd => by
    by_cases hk : k < b
    · simp only [List.takeWhile_cons, List.dropWhile_cons, hk, decide_true, if_true] at hd ⊢
      rw [List.cons_append, Table.get_cons, Table.get_cons, Table.get_takeWhile d h hu t hd]
    · simp only [List.takeWhile_cons, List.dropWhile_cons, hk, decide_false, Bool.false_eq_true,
        if_false] at hd ⊢
      rw [List.nil_append, hu, Table.get_of_from d h ((k, v) :: t) hd]

omit [DecidableEq α] in
/-- A key from a bound on is read past the keys below it. -/
theorem Table.get_dropWhile (d : α) {b m : Nat} (h : b ≤ m) :
    ∀ t : List (Nat × α), Table.get d (t.dropWhile fun c => c.1 < b) m = Table.get d t m
  | [] => rfl
  | (k, v) :: t => by
    by_cases hk : k < b
    · simp only [List.dropWhile_cons, hk, decide_true, if_true]
      rw [Table.get_dropWhile d h t, Table.get_cons, if_neg (by omega)]
    · simp only [List.dropWhile_cons, hk, decide_false, Bool.false_eq_true, if_false]

/-- A block write leaves every key outside the block as it was. -/
theorem Table.get_setBlock_outside (d : α) (t : List (Nat × α)) (n m : Nat) (vs : List α)
    (hw : Table.wf d t = true) (h : m < n ∨ n + vs.length ≤ m) :
    Table.get d (Table.setBlock d t n vs) m = Table.get d t m := by
  obtain ⟨hd, hdf⟩ := Table.dropWhile_wf d (n + vs.length) t hw
  have hmid : ∀ c ∈ Table.cells d n vs, c.1 ≠ m := by
    intro c hc
    have h1 := Table.cells_from d vs n c hc
    have h2 := Table.cells_below d vs n c hc
    omega
  unfold Table.setBlock
  rw [List.append_assoc]
  rcases h with h | h
  · refine Table.get_takeWhile d h ?_ t (Table.dropWhile_wf d n t hw).2
    rw [Table.get_append d _ hmid]
    exact Table.get_of_from d (n := n + vs.length) (by omega) _ hdf
  · have hfront : ∀ c ∈ t.takeWhile (fun c => c.1 < n), c.1 ≠ m := by
      intro c hc
      have := (Table.takeWhile_wf d n t hw).2 c hc
      omega
    rw [Table.get_append d _ hfront, Table.get_append d _ hmid, Table.get_dropWhile d h t]

/-- A key of a block among its cells reads as the block's value there. -/
theorem Table.get_cells (d : α) {u : List (Nat × α)} : ∀ (vs : List α) (n j : Nat) (h : j < vs.length),
    Table.from (n + vs.length) u → Table.get d (Table.cells d n vs ++ u) (n + j) = vs[j]
  | [], _, _, h, _ => absurd h (Nat.not_lt_zero _)
  | v :: vs, n, 0, _, hu => by
    unfold Table.cells
    have rest : Table.from (n + 1) (Table.cells d (n + 1) vs ++ u) := by
      intro c hc
      rcases List.mem_append.mp hc with hc | hc
      · exact Table.cells_from d vs (n + 1) c hc
      · have := hu c hc
        rw [List.length_cons] at this
        omega
    split
    · next hv => exact (Table.get_of_from d (Nat.lt_succ_self n) _ rest).trans hv.symm
    · exact if_pos rfl
  | v :: vs, n, j + 1, h, hu => by
    have ih := Table.get_cells d (u := u) vs (n + 1) j (Nat.lt_of_succ_lt_succ h) (by
      rw [List.length_cons] at hu
      rwa [Nat.add_assoc, Nat.add_comm 1])
    rw [Nat.add_assoc, Nat.add_comm 1] at ih
    unfold Table.cells
    split
    · rw [ih]; rfl
    · rw [List.cons_append, Table.get_cons, if_neg (by omega), ih]; rfl

/-- A block write leaves its values to be read inside the block. -/
theorem Table.get_setBlock_inside (d : α) (t : List (Nat × α)) (n : Nat) (vs : List α)
    (hw : Table.wf d t = true) (j : Nat) (h : j < vs.length) :
    Table.get d (Table.setBlock d t n vs) (n + j) = vs[j] := by
  have hfront : ∀ c ∈ t.takeWhile (fun c => c.1 < n), c.1 ≠ n + j := by
    intro c hc
    have := (Table.takeWhile_wf d n t hw).2 c hc
    omega
  unfold Table.setBlock
  rw [List.append_assoc, Table.get_append d _ hfront]
  exact Table.get_cells d vs n j h (Table.dropWhile_wf d (n + vs.length) t hw).2

/-- Reading along a canonical table that lists no key below the first one. -/
theorem Table.fill_eq (d : α) : ∀ (len n : Nat) (t : List (Nat × α)), Table.wf d t = true →
    Table.from n t → Table.fill d n len t = (List.range' n len).map (Table.get d t)
  | 0, _, _, _, _ => rfl
  | len + 1, n, [], hw, _ => by
    rw [List.range'_succ, List.map_cons, ← Table.fill_eq d len (n + 1) [] hw (by
      intro c hc; simp at hc)]
    rfl
  | len + 1, n, (k, v) :: t, hw, hf => by
    obtain ⟨_, ht, hwt⟩ := Table.wf_cons.mp hw
    have hk : n ≤ k := hf (k, v) (by simp)
    rw [List.range'_succ, List.map_cons]
    unfold Table.fill
    split
    · have e : k = n := by omega
      subst e
      rw [Table.fill_eq d len (k + 1) t hwt ht, Table.get_cons, if_pos rfl]
      refine congrArg (v :: ·) (List.map_congr_left fun m hm => ?_)
      have := List.mem_range'_1.mp hm
      rw [Table.get_cons, if_neg (by omega)]
    · rw [Table.fill_eq d len (n + 1) ((k, v) :: t) hw (by
        intro c hc
        rcases List.mem_cons.mp hc with rfl | hc
        · show n + 1 ≤ k
          omega
        · have := ht c hc
          omega)]
      refine congrArg (· :: _) ?_
      rw [Table.get_cons, if_neg (by omega)]
      exact (Table.get_of_from d (n := k + 1) (by omega) t ht).symm

/-- A block read is a read of each of its keys. -/
theorem Table.getBlock_eq (d : α) (t : List (Nat × α)) (n len : Nat) (hw : Table.wf d t = true) :
    Table.getBlock d t n len = (List.range' n len).map (Table.get d t) := by
  obtain ⟨hd, hf⟩ := Table.dropWhile_wf d n t hw
  unfold Table.getBlock
  rw [Table.fill_eq d len n _ hd hf]
  refine List.map_congr_left fun m hm => ?_
  exact Table.get_dropWhile d (List.mem_range'_1.mp hm).1 t

end Sys2Proof.Machine
end

