-- ==== Sys2Proof/Laws/Quiet.lean ====
section
/-! SUPPORT. Quiet changes: those that leave the queue and the batch's control as they are and keep both
memories canonical and the bounded queues bounded. One lemma per shared operation and per owner, of
record memory, the port, the tickets, the Folio Table, the Assembler and the evaluator. -/

namespace Sys2Proof.Laws

open Sys2Proof.Machine Sys2Proof.Safety

/-- A quiet change from `s` to `t`. -/
structure Quiet (s t : State) : Prop where
  pending : t.pending = s.pending
  controls : controlOf t = controlOf s
  canonical : Canonical s → Canonical t
  bounded : Bounded s → Bounded t

theorem Quiet.rfl {s : State} : Quiet s s := ⟨Eq.refl _, Eq.refl _, id, id⟩

theorem Quiet.trans {s t u : State} (h : Quiet s t) (k : Quiet t u) : Quiet s u :=
  ⟨k.pending.trans h.pending, k.controls.trans h.controls, k.canonical ∘ h.canonical,
    k.bounded ∘ h.bounded⟩

theorem Quiet.ite {p : Prop} [Decidable p] {s t u : State} (h : Quiet s t) (k : Quiet s u) :
    Quiet s (if p then t else u) := by split <;> assumption

theorem Quiet.setFolio {s t : State} (h : Quiet s t) (g : FolioTable) :
    Quiet s { t with folio := g } := ⟨h.pending, h.controls, h.canonical, h.bounded⟩

theorem Quiet.setAssembler {s t : State} (h : Quiet s t) (a : Assembler) :
    Quiet s { t with assembler := a } := ⟨h.pending, h.controls, h.canonical, h.bounded⟩

theorem Quiet.setEvaluator {s t : State} (h : Quiet s t) (e : Evaluator) :
    Quiet s { t with evaluator := e } := ⟨h.pending, h.controls, h.canonical, h.bounded⟩

theorem Quiet.setEngine {s t : State} (h : Quiet s t) (e : Engine) :
    Quiet s { t with engine := e } := ⟨h.pending, h.controls, h.canonical, h.bounded⟩

theorem Quiet.setLines {s t : State} (h : Quiet s t) (l : Lines) :
    Quiet s { t with lines := l } := ⟨h.pending, h.controls, h.canonical, h.bounded⟩

/-- A change of the Image Memory Controller that keeps image memory and the priority order. -/
theorem Quiet.setImages {s t : State} (h : Quiet s t) (i : Images)
    (hm : i.memory = t.images.memory := by rfl) (ho : i.order = t.images.order := by rfl) :
    Quiet s { t with images := i } where
  pending := h.pending
  controls := h.controls
  canonical c := ⟨(h.canonical c).1, (congrArg (Table.wf 0) hm).trans (h.canonical c).2⟩
  bounded b := ⟨(h.bounded b).1, (h.bounded b).2.1, (h.bounded b).2.2.1,
    (congrArg (fun o => o.Perm startingOrder) ho).mpr (h.bounded b).2.2.2⟩

/-- A change of the port that does not lengthen the request FIFO or the notice queue. -/
theorem Quiet.setPort {s t : State} (h : Quiet s t) (p : Port)
    (hr : p.requests.length ≤ t.port.requests.length := by exact Nat.le_refl _)
    (hn : p.notices.length ≤ t.port.notices.length := by exact Nat.le_refl _) :
    Quiet s { t with port := p } :=
  ⟨h.pending, h.controls, h.canonical,
    fun b => ⟨hr.trans (h.bounded b).1, hn.trans (h.bounded b).2.1, (h.bounded b).2.2⟩⟩

/-! ## Record memory -/

theorem quiet_begin (s : State) : Quiet s s.begin := ⟨rfl, rfl, id, id⟩

theorem RecordMemory.write_wf (m : RecordMemory) (w : RecordWrite) (h : m.wf = true) :
    (m.write w).wf = true := by
  simp only [RecordMemory.wf, Bool.and_eq_true] at h ⊢
  obtain ⟨⟨h1, h2⟩, h3⟩ := h
  cases w with
  | slot n o e => exact ⟨⟨Table.set_wf _ _ _ _ h1, h2⟩, h3⟩
  | place n o e => exact ⟨⟨h1, Table.set_wf _ _ _ _ h2⟩, h3⟩
  | link n o e => exact ⟨⟨h1, h2⟩, Table.set_wf _ _ _ _ h3⟩

theorem quiet_writeRecord (w : RecordWrite) (s : State) : Quiet s (s.writeRecord w) :=
  ⟨rfl, rfl, fun h => ⟨RecordMemory.write_wf _ _ h.1, h.2⟩, id⟩

theorem quiet_putSlot (n : Nat) (r : Record) (s : State) : Quiet s (s.putSlot n r) :=
  quiet_writeRecord _ _
theorem quiet_editSlot (n : Nat) (f : Record → Record) (s : State) : Quiet s (s.editSlot n f) :=
  quiet_writeRecord _ _
theorem quiet_putMatter (n : Nat) (m : Matter) (s : State) : Quiet s (s.putMatter n m) :=
  quiet_writeRecord _ _
theorem quiet_editMatter (n : Nat) (f : Matter → Matter) (s : State) : Quiet s (s.editMatter n f) :=
  quiet_writeRecord _ _
theorem quiet_putLink (n : Nat) (l : Link) (s : State) : Quiet s (s.putLink n l) :=
  quiet_writeRecord _ _
theorem quiet_putNext (n : Nat) (p : Option Nat) (s : State) : Quiet s (s.putNext n p) :=
  quiet_writeRecord _ _

/-! ## The port -/

theorem quiet_answer (tag : Tag) (r : Reply) (s : State) : Quiet s (s.answer tag r) :=
  ⟨rfl, rfl, id, id⟩

/-- One more notice fits while there is room. -/
theorem notices_room {s : State} (n : Notice) (h : 0 < s.noticeRoom) :
    (s.port.notices ++ [n]).length ≤ Config.noticePlaces := by
  simp only [State.noticeRoom, List.length_append, List.length_singleton] at h ⊢
  omega

theorem quiet_postFolio (n : Notice) (s : State) : Quiet s (s.postFolio n) := by
  unfold State.postFolio
  split
  · next h => exact ⟨rfl, rfl, id, fun b => ⟨b.1, notices_room n h.2, b.2.2⟩⟩
  · exact ⟨rfl, rfl, id, id⟩

theorem quiet_postAudit (n : Notice) (s : State) : Quiet s (s.postAudit n) := by
  unfold State.postAudit
  split
  · next h => exact ⟨rfl, rfl, id, fun b => ⟨b.1, notices_room n h.2, b.2.2⟩⟩
  · exact ⟨rfl, rfl, id, id⟩

/-! ## Tickets, trays, sides, channels, lines -/

theorem quiet_editTicket (o : Word) (f : Ticket → Ticket) (s : State) : Quiet s (s.editTicket o f) :=
  ⟨rfl, rfl, id, fun b => ⟨b.1, b.2.1, by simpa [State.editTicket] using b.2.2.1, b.2.2.2⟩⟩

theorem quiet_removeTicket (o : Word) (s : State) : Quiet s (s.removeTicket o) :=
  ⟨rfl, rfl, id, fun b => ⟨b.1, b.2.1, (List.length_filter_le _ _).trans b.2.2.1, b.2.2.2⟩⟩

theorem quiet_editTray (t : TrayIx) (f : Tray → Tray) (s : State) : Quiet s (s.editTray t f) :=
  ⟨rfl, rfl, id, id⟩

theorem quiet_editSide (d : Side) (f : DeskewSide → DeskewSide) (s : State) :
    Quiet s (s.editSide d f) := by cases d <;> exact ⟨rfl, rfl, id, id⟩

theorem quiet_editCapture (d : Side) (f : CaptureChannel → CaptureChannel) (s : State) :
    Quiet s (s.editCapture d f) := by cases d <;> exact ⟨rfl, rfl, id, id⟩

theorem quiet_drive (l : LineIx) (d : Drive) (s : State) : Quiet s (s.drive l d) :=
  ⟨rfl, rfl, id, id⟩

/-! ## Plates and matters -/

theorem quiet_linkChains : ∀ (cs : List PlateChain) (s : State), Quiet s (s.linkChains cs)
  | [], _ => .rfl
  | [c], s => by
    unfold State.linkChains
    split
    · exact quiet_putNext _ _ _
    · exact .rfl
  | c :: c' :: rest, s => by
    unfold State.linkChains
    refine Quiet.trans ?_ (quiet_linkChains (c' :: rest) _)
    split
    · exact quiet_putNext _ _ _
    · exact .rfl

theorem quiet_returnChains (cs : List PlateChain) (s : State) : Quiet s (s.returnChains cs) := by
  unfold State.returnChains
  split
  · exact .rfl
  · next c rest _ =>
    have h : Quiet s (match s.images.free.tail with
        | some t => s.putNext t c.head
        | none => s) := by
      split
      · exact quiet_putNext _ _ _
      · exact .rfl
    exact (h.trans (quiet_linkChains _ _)).trans ⟨rfl, rfl, id, id⟩

theorem quiet_takePlate {s t : State} {p : Nat} (h : s.takePlate = some (p, t)) : Quiet s t := by
  unfold State.takePlate at h
  split at h
  · simp only [Option.some.injEq, Prod.mk.injEq] at h
    rw [← h.2]; exact ⟨rfl, rfl, id, id⟩
  · cases h

theorem quiet_returnTicketPlates (t : Ticket) (s : State) : Quiet s (s.returnTicketPlates t) :=
  (quiet_returnChains _ _).trans (quiet_editTicket _ _ _)

theorem quiet_indexMatter (n : Long) (p : Nat) (s : State) : Quiet s (s.indexMatter n p) :=
  ⟨rfl, rfl, id, id⟩

theorem quiet_createMatter (n : Long) (p : Nat) (s : State) : Quiet s (s.createMatter n p) :=
  (quiet_indexMatter n p s).trans (quiet_putMatter _ _ _)

theorem quiet_testRemoval (p : Nat) (s : State) : Quiet s (s.testRemoval p) := by
  unfold State.testRemoval
  split
  · exact (Quiet.rfl.setFolio _).trans (quiet_putMatter _ _ _)
  · exact .rfl

theorem quiet_matterFor (n : Long) (p : Nat) (s : State) : Quiet s (s.matterFor n p) := by
  unfold State.matterFor
  split
  · exact .rfl
  · exact quiet_createMatter _ _ _

/-! ## The Folio Table -/

theorem quiet_unlinkSlot (p : Option Nat) (r : Record) (s : State) : Quiet s (s.unlinkSlot p r) := by
  unfold State.unlinkSlot
  split
  · exact quiet_editSlot _ _ _
  · exact .rfl

theorem quiet_linkSlot (n : Nat) (m : Matter) (s : State) : Quiet s (s.linkSlot n m) := by
  unfold State.linkSlot
  split
  · exact quiet_editSlot _ _ _
  · exact .rfl

theorem quiet_fileRecord (n : Nat) (r : Record) (s : State) : Quiet s (s.fileRecord n r) :=
  (quiet_putSlot _ _ _).trans (quiet_postFolio _ _)

theorem quiet_settleRecord (n : Nat) (r : Record) (s : State) : Quiet s (s.settleRecord n r) := by
  unfold State.settleRecord
  split
  · exact quiet_fileRecord _ _ _
  · exact quiet_putSlot _ _ _

theorem quiet_closeRecord (n : Nat) (s : State) : Quiet s (s.closeRecord n) := by
  unfold State.closeRecord
  dsimp only
  split
  · exact quiet_putSlot _ _ _
  · exact quiet_fileRecord _ _ _

theorem quiet_deliverPage (n p : Nat) (s : State) : Quiet s (s.deliverPage n p) :=
  quiet_settleRecord _ _ _
theorem quiet_resolveNotShelved (n o d : Nat) (s : State) : Quiet s (s.resolveNotShelved n o d) :=
  quiet_settleRecord _ _ _
theorem quiet_rejectedSheet (n d : Nat) (s : State) : Quiet s (s.rejectedSheet n d) :=
  quiet_editSlot _ _ _

theorem quiet_linkPage (o : Option Nat) (t : Ticket) (s : State) : Quiet s (s.linkPage o t) := by
  unfold State.linkPage
  dsimp only
  have joined : Quiet s (match o, t.plateChains.head? with
      | some p, some c => s.putNext p c.head
      | _, _ => s) := by
    split
    · exact quiet_putNext _ _ _
    · exact .rfl
  split
  · split
    · exact joined.trans (quiet_putNext _ _ _)
    · exact joined
  · exact joined

theorem quiet_appendPage (n : Nat) (t : Ticket) (g : Tags) (h : Bool) (s : State) :
    Quiet s (s.appendPage n t g h) :=
  (quiet_linkPage _ _ _).trans (quiet_putSlot _ _ _)

theorem quiet_linkPredecessor (p : Option Word) (f : Word) (s : State) :
    Quiet s (s.linkPredecessor p f) := by
  unfold State.linkPredecessor
  split
  · exact quiet_editSlot _ _ _
  · exact .rfl

theorem quiet_openRecord (n p : Nat) (k : TrayIx) (b : Long) (f : Option Word) (t : Ticket) (g : Tags)
    (h : Bool) (s : State) : Quiet s (s.openRecord n p k b f t g h) := by
  unfold State.openRecord
  dsimp only
  refine Quiet.setFolio ?_ _
  exact ((((quiet_linkPage _ _ _).trans (quiet_putSlot _ _ _)).trans (quiet_linkSlot _ _ _)).trans
    (quiet_linkPredecessor _ _ _)).trans (quiet_putMatter _ _ _)

theorem quiet_moveRecord (n : Nat) (r : Record) (x : Long) (p : Nat) (m : Matter) (s : State) :
    Quiet s (s.moveRecord n r x p m) :=
  (((((quiet_unlinkSlot _ _ _).trans (quiet_putSlot _ _ _)).trans (quiet_linkSlot _ _ _)).trans
    (quiet_editMatter _ _ _)).trans (quiet_putMatter _ _ _)).trans (quiet_testRemoval _ _)

theorem quiet_clearPartner (p : Option Word) (names : Record → Bool) (clear : Record → Record)
    (s : State) : Quiet s (s.clearPartner p names clear) := by
  unfold State.clearPartner
  split
  · exact .rfl
  · split
    · exact .rfl
    · split
      · exact quiet_putSlot _ _ _
      · exact .rfl

theorem quiet_retireRecord (f : Word) (r : Record) (s : State) : Quiet s (s.retireRecord f r) := by
  unfold State.retireRecord
  dsimp only
  refine Quiet.trans ?_ (quiet_testRemoval _ _)
  refine Quiet.setFolio ?_ _
  refine Quiet.trans (Quiet.trans (Quiet.trans (Quiet.trans (Quiet.trans ?_ (quiet_putSlot _ _ _))
    (quiet_clearPartner _ _ _ _)) (quiet_clearPartner _ _ _ _)) (quiet_unlinkSlot _ _ _))
    (quiet_editMatter _ _ _)
  split
  · exact quiet_returnChains _ _
  · exact .rfl

/-! ## Owners of folio requests -/

/-- An owner that makes only quiet changes. -/
def QuietOwner (owner : State → State × Reply) : Prop := ∀ s, Quiet s (owner s).1

theorem quiet_onFolio {folio : Word} {own : Record → State → State × Reply}
    (h : ∀ r, QuietOwner (own r)) : QuietOwner (onFolio folio own) := by
  intro s
  unfold onFolio
  split
  · exact .rfl
  · exact h _ s

/-- An owner that changes nothing. -/
theorem quiet_reader {reply : State → Reply} : QuietOwner fun s => (s, reply s) := fun _ => .rfl

theorem quiet_ownerLookup (f : Word) : QuietOwner (ownerLookup f) :=
  quiet_onFolio fun _ _ => .rfl

theorem quiet_ownerFind (m : Long) (q : Word) : QuietOwner (ownerFind m q) := by
  intro s
  unfold ownerFind
  repeat' split
  all_goals exact .rfl

theorem quiet_ownerNextInMatter (f : Word) : QuietOwner (ownerNextInMatter f) := by
  refine quiet_onFolio fun r s => ?_
  try dsimp only
  split <;> exact .rfl

theorem quiet_ownerReadExceptions (f : Word) : QuietOwner (ownerReadExceptions f) :=
  quiet_onFolio fun _ _ => .rfl

theorem quiet_ownerSetRetention (f d : Word) : QuietOwner (ownerSetRetention f d) := by
  refine quiet_onFolio fun r s => ?_
  repeat' split
  all_goals try dsimp only [refused]
  all_goals first | with_reducible exact .rfl | exact quiet_putSlot _ _ _

theorem quiet_ownerRefile (f : Word) (m : Long) : QuietOwner (ownerRefile f m) := by
  refine quiet_onFolio fun r s => ?_
  by_cases h1 : m = 0
  · rw [if_pos h1]; exact .rfl
  rw [if_neg h1]
  by_cases h2 : r.state ≠ .filed
  · rw [if_pos h2]; exact .rfl
  rw [if_neg h2]
  cases s.heldRecord r
  · rw [if_neg Bool.false_ne_true]
    by_cases h4 : m = r.matter
    · rw [if_pos h4]; exact .rfl
    rw [if_neg h4]
    cases s.findMatter m with
    | some e =>
      by_cases h5 : (s.matterAt e.place).nextSequence = 0
      · exact (congrArg (fun x : State × Reply => Quiet s x.1) (if_pos h5)).mpr .rfl
      · exact (congrArg (fun x : State × Reply => Quiet s x.1) (if_neg h5)).mpr
          (quiet_moveRecord _ _ _ _ _ _)
    | none =>
      cases s.freePlace with
      | none => exact .rfl
      | some p => exact (quiet_indexMatter _ _ _).trans (quiet_moveRecord _ _ _ _ _ _)
  · rw [if_pos rfl]; exact .rfl

theorem quiet_ownerHold (f : Word) : QuietOwner (ownerHold f) := by
  refine quiet_onFolio fun r s => ?_
  try dsimp only
  split
  · exact .rfl
  · exact quiet_putSlot _ _ _

theorem quiet_ownerRelease (f : Word) : QuietOwner (ownerRelease f) := by
  refine quiet_onFolio fun r s => ?_
  try dsimp only
  split
  · exact .rfl
  · exact quiet_putSlot _ _ _

theorem quiet_ownerHoldMatter (m : Long) : QuietOwner (ownerHoldMatter m) := by
  intro s
  unfold ownerHoldMatter
  try dsimp only
  repeat' split
  all_goals try dsimp only [refused]
  all_goals first
    | with_reducible exact .rfl
    | exact quiet_putMatter _ _ _
    | exact (quiet_indexMatter _ _ _).trans (quiet_putMatter _ _ _)

theorem quiet_ownerReleaseMatter (m : Long) : QuietOwner (ownerReleaseMatter m) := by
  intro s
  unfold ownerReleaseMatter
  try dsimp only
  repeat' split
  all_goals try dsimp only [refused]
  all_goals first
    | with_reducible exact .rfl
    | exact (quiet_putMatter _ _ _).trans (quiet_testRemoval _ _)

theorem quiet_ownerRetire (f d : Word) : QuietOwner (ownerRetire f d) := by
  refine quiet_onFolio fun r s => ?_
  try dsimp only
  repeat' split
  all_goals try dsimp only [refused]
  all_goals first | with_reducible exact .rfl | exact quiet_retireRecord _ _ _

theorem quiet_ownerShedImage (f : Word) : QuietOwner (ownerShedImage f) := by
  refine quiet_onFolio fun r s => ?_
  try dsimp only
  repeat' split
  all_goals try dsimp only [refused]
  all_goals first
    | with_reducible exact .rfl
    | exact (quiet_returnChains _ _).trans (quiet_putSlot _ _ _)

theorem quiet_ownerPurgeSlot (n : Word) : QuietOwner (ownerPurgeSlot n) := by
  intro s
  unfold ownerPurgeSlot
  try dsimp only
  repeat' split
  all_goals try dsimp only [refused]
  all_goals first
    | with_reducible exact .rfl
    | exact (quiet_putSlot _ _ _).setFolio _

/-! ## The Assembler and the evaluator -/

theorem quiet_closeDocument (m : Option Bool) (s : State) : Quiet s (s.closeDocument m) := by
  unfold State.closeDocument
  split
  · exact .rfl
  · exact (quiet_closeRecord _ _).setAssembler _

theorem quiet_drainClose (s : State) : Quiet s s.drainClose := by
  unfold State.drainClose
  split
  · exact quiet_closeDocument _ _
  · exact .rfl

theorem quiet_onTray {n : Word} {own : TrayIx → State → State × Reply}
    (h : ∀ t, QuietOwner (own t)) : QuietOwner (onTray n own) := by
  intro s
  unfold onTray
  split
  · exact .rfl
  · exact h _ s

theorem quiet_ownerMountTray (n : Word) (b : Long) (x y z : Word) :
    QuietOwner (ownerMountTray n b x y z) := by
  refine quiet_onTray fun t s => ?_
  try dsimp only
  repeat' split
  all_goals try dsimp only [refused]
  all_goals first | with_reducible exact .rfl | exact quiet_editTray _ _ _

theorem quiet_ownerDismountTray (n : Word) : QuietOwner (ownerDismountTray n) := by
  refine quiet_onTray fun t s => ?_
  try dsimp only
  repeat' split
  all_goals try dsimp only [refused]
  all_goals first | with_reducible exact .rfl | exact quiet_editTray _ _ _

theorem quiet_ownerReadTray (n : Word) : QuietOwner (ownerReadTray n) :=
  quiet_onTray fun _ _ => .rfl

theorem quiet_ownerCloseDocument (x : Word) : QuietOwner (ownerCloseDocument x) := by
  intro s
  unfold ownerCloseDocument
  try dsimp only
  repeat' split
  all_goals try dsimp only [refused]
  all_goals first
    | with_reducible exact .rfl
    | exact quiet_closeDocument _ _
    | exact Quiet.rfl.setAssembler _

theorem quiet_ownerLoadTerms (x : Word) (ws : List Word) : QuietOwner (ownerLoadTerms x ws) := by
  intro s
  unfold ownerLoadTerms
  repeat' split
  all_goals try dsimp only [refused]
  all_goals first | with_reducible exact .rfl | exact Quiet.rfl.setEvaluator _

theorem quiet_ownerClearTerms : QuietOwner ownerClearTerms := by
  intro s
  unfold ownerClearTerms
  split
  · exact .rfl
  · exact ⟨rfl, rfl, id, id⟩

theorem quiet_ownerCheckTerms : QuietOwner ownerCheckTerms := by
  intro s
  unfold ownerCheckTerms
  split <;> exact .rfl

theorem quiet_ownerReadTerms (x : Word) : QuietOwner (ownerReadTerms x) := by
  intro s
  unfold ownerReadTerms
  split <;> exact .rfl

end Sys2Proof.Laws
end

