-- ==== Sys2Proof/Laws/QuietImages.lean ====
section
/-! SUPPORT. Quiet changes (Laws/Quiet.lean) of the Skew Gauge and Deskew Engine, the capture channels,
the arbiter, the audit and the export: one lemma per operation and per owner. -/

namespace Sys2Proof.Laws

open Sys2Proof.Machine Sys2Proof.Safety

/-! ## Deskew -/

theorem quiet_startSide (d : Side) (o : Word) (s : State) : Quiet s (s.startSide d o) := by
  unfold State.startSide
  split
  · exact .rfl
  · split
    · exact quiet_editSide _ _ _
    · exact (quiet_editTicket _ _ _).trans (quiet_editSide _ _ _)

theorem quiet_overrunSide (d : Side) (s : State) : Quiet s (s.overrunSide d) := by
  unfold State.overrunSide
  have lost := (quiet_editTicket (s.side d).ordinal Ticket.lose s).trans
    (quiet_editSide d (fun e => { e.discard with
      queue := withoutBands e.ordinal ((s.capture d).state = .transferring) e.queue }) _)
  exact Quiet.ite (lost.trans (quiet_editCapture _ _ _)) lost

theorem quiet_reportLoss (d : Side) (o : Word) (s : State) : Quiet s (s.reportLoss d o) :=
  (quiet_editTicket _ _ _).trans (quiet_editSide _ _ _)

theorem quiet_formTaken (d : Side) (l : ScanLine) (s : State) : Quiet s (s.formTaken d l) := by
  unfold State.formTaken
  dsimp only
  have formed := quiet_editSide d (fun e => { e.formLine l with inputs := e.inputs + 1 }) s
  split
  · exact formed
  · split
    · exact formed.trans (quiet_editSide _ _ _)
    · exact formed.trans (quiet_overrunSide _ _)

theorem quiet_takeLine (d : Side) (l : ScanLine) (s : State) : Quiet s (s.takeLine d l) := by
  unfold State.takeLine
  split
  · exact quiet_formTaken _ _ _
  · exact quiet_editSide _ _ _
  · exact .rfl
  · exact .rfl

theorem quiet_blankTest (d : Side) (s : State) : Quiet s (s.blankTest d) := by
  unfold State.blankTest
  dsimp only
  split
  · exact (quiet_editSide _ _ _).trans (quiet_editTicket _ _ _)
  · exact quiet_editSide _ _ _

theorem quiet_endSide (d : Side) (o : Word) (s : State) : Quiet s (s.endSide d o) := by
  unfold State.endSide
  dsimp only
  split
  · split
    · exact quiet_editSide _ _ _
    · exact (quiet_blankTest _ _).trans (quiet_editSide _ _ _)
  · split
    · exact quiet_editSide _ _ _
    · exact quiet_editSide _ _ _

theorem quiet_flushOne (d : Side) (s : State) : Quiet s (s.flushOne d) := by
  unfold State.flushOne
  split
  · exact .rfl
  · dsimp only
    have formed := quiet_editSide d (DeskewSide.formLine .white) s
    split
    · exact (formed.trans (quiet_blankTest _ _)).trans (quiet_editSide _ _ _)
    · split
      · exact formed.trans (quiet_editSide _ _ _)
      · exact formed

theorem quiet_openMeasurement (o : Word) (x : Sensor) (s : State) :
    Quiet s (s.openMeasurement o x) := ⟨rfl, rfl, id, id⟩

theorem quiet_closeMeasurement (o : Word) (s : State) : Quiet s (s.closeMeasurement o) := by
  unfold State.closeMeasurement
  split
  · exact .rfl
  · exact (quiet_editTicket _ _ _).setEngine _

theorem quiet_ownerSetSkew (x y : Word) : QuietOwner (ownerSetSkew x y) := by
  intro s
  unfold ownerSetSkew
  split
  · exact .rfl
  · split
    · exact .rfl
    · exact Quiet.rfl.setEngine _

theorem quiet_ownerReadSkew : QuietOwner ownerReadSkew := fun _ => .rfl

/-! ## The arbiter -/

theorem quiet_transferring (c : Channel) (s : State) : Quiet s (s.transferring c) := by
  unfold State.transferring
  split
  · exact quiet_editCapture _ _ _
  · exact quiet_editCapture _ _ _
  · exact Quiet.rfl.setImages _
  · exact Quiet.rfl.setImages _

/-- The order after a grant is still an order of the four channels. -/
theorem orderAfter_perm (m : ArbiterMode) (c : Channel) {o : List Channel}
    (h : o.Perm startingOrder) : (orderAfter m c o).Perm startingOrder := by
  cases m with
  | fixed => exact h
  | rotating =>
    refine List.Perm.trans ((h.filter _).append_right [c]) ?_
    cases c <;> decide

theorem transferring_order (c : Channel) (s : State) :
    (s.transferring c).images.order = s.images.order := by cases c <;> rfl

theorem quiet_grant (c : Channel) (s : State) : Quiet s (s.grant c) := by
  have h := quiet_transferring c s
  exact ⟨h.pending, h.controls, h.canonical, fun b =>
    ⟨(h.bounded b).1, (h.bounded b).2.1, (h.bounded b).2.2.1, orderAfter_perm _ _ b.2.2.2⟩⟩

theorem quiet_arbitrate (s : State) : Quiet s s.arbitrate := by
  unfold State.arbitrate
  split
  · exact .rfl
  · split
    · exact quiet_grant _ _
    · exact .rfl

/-! ## Capture channels -/

theorem quiet_closePlate (d : Side) (n : Option Nat) (s : State) : Quiet s (s.closePlate d n) := by
  unfold State.closePlate
  split
  · exact .rfl
  · split
    · exact .rfl
    · split
      · exact .rfl
      · exact (quiet_putLink _ _ _).trans (quiet_editCapture _ _ _)

theorem quiet_completeCapture (d : Side) (o : Word) (s : State) :
    Quiet s (s.completeCapture d o) := by
  unfold State.completeCapture
  split
  · exact .rfl
  · exact quiet_editTicket _ _ _

theorem quiet_endCapture (d : Side) (o : Word) (l : Bool) (s : State) :
    Quiet s (s.endCapture d o l) :=
  ((quiet_closePlate _ _ _).trans (quiet_editCapture _ _ _)).trans (quiet_completeCapture _ _ _)

theorem quiet_loseCapture (d : Side) (o : Word) (c : CaptureEnd) (s : State) :
    Quiet s (s.loseCapture d o c) :=
  ((quiet_closePlate _ _ _).trans (quiet_editCapture _ _ _)).trans (quiet_reportLoss _ _ _)

theorem quiet_requestCapture (d : Side) (s : State) : Quiet s (s.requestCapture d) :=
  (quiet_editCapture _ _ _).trans (quiet_arbitrate _)

theorem quiet_takeSidePlate (d : Side) (h : CaptureSide) (s : State) :
    Quiet s (s.takeSidePlate d h) := by
  unfold State.takeSidePlate
  split
  · exact quiet_loseCapture _ _ _ _
  · split
    · exact quiet_loseCapture _ _ _ _
    · next p t e =>
      exact ((((quiet_takePlate e).trans (quiet_closePlate _ _ _)).trans (quiet_editTicket _ _ _)).trans
        (quiet_editCapture _ _ _)).trans (quiet_requestCapture _ _)

theorem quiet_actOnQueue (d : Side) : ∀ (n : Nat) (s : State), Quiet s (s.actOnQueue d n)
  | 0, _ => .rfl
  | n + 1, s => by
    unfold State.actOnQueue
    dsimp only
    split
    · exact .rfl
    · split
      · exact quiet_editCapture _ _ _
      · exact ((quiet_editSide _ _ _).trans (quiet_endCapture _ _ _ _)).trans (quiet_actOnQueue d n _)
      · split
        · exact .rfl
        · split
          · exact (quiet_editCapture _ _ _).trans (quiet_requestCapture _ _)
          · exact ((quiet_editCapture _ _ _).trans (quiet_takeSidePlate _ _ _)).trans
              (quiet_actOnQueue d n _)

theorem quiet_serveQueue (d : Side) (s : State) : Quiet s (s.serveQueue d) := quiet_actOnQueue _ _ _

theorem quiet_handOver (d : Side) {work : State → State} (h : ∀ s, Quiet s (work s)) (s : State) :
    Quiet s (s.handOver d work) := by
  unfold State.handOver
  dsimp only
  split
  · exact h s
  · exact (h s).trans (quiet_serveQueue _ _)

theorem quiet_writeBand (t : Transfer) (s : State) : Quiet s (s.writeBand t) :=
  ⟨rfl, rfl, fun h => ⟨h.1, Table.setBlock_wf _ _ _ _ h.2⟩, id⟩

theorem quiet_bandWritten (d : Side) (t : Transfer) (s : State) : Quiet s (s.bandWritten d t) := by
  unfold State.bandWritten
  dsimp only
  have counted := (quiet_editCapture d (fun c =>
    { c with state := .waiting, side := c.side.map (CaptureSide.afterBand t.lines) }) s).trans
    (quiet_editSide d (fun e => { e with queue := e.queue.tail }) _)
  split
  · refine Quiet.trans ?_ (quiet_editCapture _ _ _)
    split
    · exact counted.trans (quiet_endCapture _ _ _ _)
    · exact counted
  · refine Quiet.trans ?_ (quiet_serveQueue _ _)
    split
    · exact counted.trans (quiet_endCapture _ _ _ _)
    · exact counted

theorem quiet_freezeCaptures (s : State) : Quiet s s.freezeCaptures := ⟨rfl, rfl, id, id⟩
theorem quiet_clearCaptures (s : State) : Quiet s s.clearCaptures := ⟨rfl, rfl, id, id⟩

theorem quiet_ownerSetArbiter (m : Word) : QuietOwner (ownerSetArbiter m) := by
  intro s
  unfold ownerSetArbiter
  split
  · exact .rfl
  · split
    · exact .rfl
    · exact ⟨rfl, rfl, id, fun b => ⟨b.1, b.2.1, b.2.2.1, List.Perm.refl _⟩⟩

theorem quiet_ownerMaskChannel (c m : Word) : QuietOwner (ownerMaskChannel c m) := by
  intro s
  unfold ownerMaskChannel
  split
  · exact .rfl
  · split
    · exact (Quiet.rfl.setImages _).trans (quiet_arbitrate _)
    · split
      · exact (Quiet.rfl.setImages _).trans (quiet_arbitrate _)
      · exact .rfl

theorem quiet_ownerReadChannels : QuietOwner ownerReadChannels := fun _ => ⟨rfl, rfl, id, id⟩

/-! ## Audit -/

theorem quiet_endAudit (r : AuditRun) (x : AuditResult) (f : Nat) (s : State) :
    Quiet s (s.endAudit r x f) := by
  unfold State.endAudit
  refine Quiet.trans ?_ (quiet_postAudit _ _)
  exact ⟨rfl, rfl, id, id⟩

theorem quiet_setAudit (x : RunState) (r : AuditRun) (s : State) : Quiet s (s.setAudit x r) :=
  ⟨rfl, rfl, id, id⟩

theorem quiet_walkAudit : ∀ (n : Nat) (r : AuditRun) (s : State), Quiet s (s.walkAudit r n)
  | 0, _, _ => .rfl
  | n + 1, r, s => by
    unfold State.walkAudit
    split
    · exact quiet_endAudit _ _ _ _
    · split
      · exact quiet_endAudit _ _ _ _
      · dsimp only
        split
        · exact (quiet_setAudit _ _ _).trans (quiet_arbitrate _)
        · split
          · exact quiet_walkAudit n _ _
          · exact quiet_endAudit _ _ _ _

theorem quiet_bandAudited (t : Transfer) (s : State) : Quiet s (s.bandAudited t) := by
  unfold State.bandAudited
  split
  · exact .rfl
  · dsimp only
    split
    · exact (quiet_setAudit _ _ _).trans (quiet_arbitrate _)
    · split
      · exact quiet_walkAudit _ _ _
      · exact quiet_endAudit _ _ _ _

theorem quiet_ownerVerify (f : Word) : QuietOwner (ownerVerify f) := by
  intro s
  unfold ownerVerify
  split
  · exact .rfl
  · split
    · exact .rfl
    · exact ((Quiet.rfl.setFolio _).trans (quiet_setAudit _ _ _)).trans (quiet_walkAudit _ _ _)

theorem quiet_orphan (c : Channel) (s : State) : Quiet s (s.orphan c) := ⟨rfl, rfl, id, id⟩

theorem quiet_ownerCancelVerify : QuietOwner ownerCancelVerify := by
  intro s
  unfold ownerCancelVerify
  split
  · exact .rfl
  · refine Quiet.trans (Quiet.trans ?_ (quiet_postAudit _ _)) (quiet_orphan _ _)
    exact ⟨rfl, rfl, id, id⟩

/-! ## Export -/

theorem quiet_placeWords (ws : List Word) (s : State) : Quiet s (s.placeWords ws) :=
  ⟨rfl, rfl, id, id⟩

theorem quiet_setExport (x : RunState) (r : ExportRun) (s : State) : Quiet s (s.setExport x r) :=
  ⟨rfl, rfl, id, id⟩

theorem quiet_placeItems : ∀ (n : Nat) (r : ExportRun) (s : State), Quiet s (s.placeItems r n)
  | 0, _, _ => quiet_setExport _ _ _
  | n + 1, r, s => by
    unfold State.placeItems
    split
    · split
      · exact (quiet_placeWords _ _).trans (quiet_placeItems n _ _)
      · exact quiet_setExport _ _ _
    · split
      · exact quiet_placeItems n _ _
      · split
        · exact quiet_placeItems n _ _
        · exact quiet_placeItems n _ _
    · split
      · exact (quiet_placeWords _ _).trans (quiet_placeItems n _ _)
      · exact quiet_setExport _ _ _
    · split
      · exact quiet_placeItems n _ _
      · split
        · exact (quiet_setExport _ _ _).trans (quiet_arbitrate _)
        · exact quiet_setExport _ _ _
    · split
      · exact (quiet_placeWords _ _).trans (quiet_setExport _ _ _)
      · exact quiet_setExport _ _ _
    · exact quiet_setExport _ _ _

theorem quiet_serveExport (s : State) : Quiet s s.serveExport := by
  unfold State.serveExport
  split
  · exact quiet_placeItems _ _ _
  · exact .rfl

theorem quiet_bandExported (t : Transfer) (s : State) : Quiet s (s.bandExported t) := by
  unfold State.bandExported
  split
  · exact .rfl
  · exact ((quiet_placeWords _ _).trans (quiet_setExport _ _ _)).trans (quiet_serveExport _)

theorem quiet_ownerOpenExport (f : Word) : QuietOwner (ownerOpenExport f) := by
  intro s
  unfold ownerOpenExport
  split
  · exact .rfl
  · split
    · exact .rfl
    · dsimp only
      exact ((Quiet.rfl.setFolio _).trans (quiet_setExport _ _ _)).trans (quiet_serveExport _)

theorem quiet_endExport (x : RunState) (c : RunEnd) (s : State) : Quiet s (s.endExport x c) :=
  ⟨rfl, rfl, id, id⟩

theorem quiet_ownerCancelExport : QuietOwner ownerCancelExport := by
  intro s
  unfold ownerCancelExport
  split
  · exact .rfl
  · exact ((Quiet.rfl.setPort _).trans (quiet_endExport _ _ _)).trans (quiet_orphan _ _)

theorem quiet_readExport (s : State) : Quiet s s.readExport := by
  unfold State.readExport
  split
  · exact Quiet.rfl.setPort _
  · dsimp only
    split
    · exact (Quiet.rfl.setPort _).trans (quiet_endExport _ _ _)
    · exact (Quiet.rfl.setPort _).trans (quiet_serveExport _)

/-! ## A completed transfer -/

theorem quiet_channelWork (t : Transfer) (s : State) : Quiet s (s.channelWork t) := by
  unfold State.channelWork
  split
  · exact quiet_bandWritten _ _ _
  · exact quiet_bandWritten _ _ _
  · exact quiet_bandAudited _ _
  · exact quiet_bandExported _ _
  · exact .rfl
  · exact .rfl
  · exact Quiet.rfl.setImages _
  · exact Quiet.rfl.setImages _

theorem quiet_transferDone (s : State) : Quiet s s.transferDone := by
  unfold State.transferDone
  split
  · exact .rfl
  · dsimp only
    refine Quiet.trans (Quiet.setImages (Quiet.trans ?_ (quiet_channelWork _ _)) _)
      (quiet_arbitrate _)
    split
    · exact quiet_writeBand _ _
    · exact .rfl

end Sys2Proof.Laws
end

