-- ==== Sys2Proof/Laws/Keeps.lean ====
section
/-! SUPPORT. What the batch, the tracker, the decisions, the lines, the rebuild, the resets and the port
keep: the queue, the canonical form of both memories, the bounds of the bounded queues, and the legal
control of the batch. One lemma per operation and per owner. -/

namespace Sys2Proof.Laws

open Sys2Proof.Machine Sys2Proof.Safety

/-- A change from `s` to `t` that keeps the queue and the three invariants. -/
structure Keeps (s t : State) : Prop where
  pending : t.pending = s.pending
  canonical : Canonical s → Canonical t
  bounded : Bounded s → Bounded t
  legal : Legal s → Legal t

theorem Keeps.rfl {s : State} : Keeps s s := ⟨Eq.refl _, id, id, id⟩

theorem Keeps.trans {s t u : State} (h : Keeps s t) (k : Keeps t u) : Keeps s u :=
  ⟨k.pending.trans h.pending, k.canonical ∘ h.canonical, k.bounded ∘ h.bounded, k.legal ∘ h.legal⟩

theorem Quiet.legal {s t : State} (h : Quiet s t) (k : Legal s) : Legal t := by
  unfold Legal; rw [h.controls]; exact k

theorem Quiet.keeps {s t : State} (h : Quiet s t) : Keeps s t :=
  ⟨h.pending, h.canonical, h.bounded, h.legal⟩

/-- An owner whose change keeps the queue and the three invariants. -/
def KeepsOwner (owner : State → State × Reply) : Prop := ∀ s, Keeps s (owner s).1

theorem QuietOwner.keeps {owner : State → State × Reply} (h : QuietOwner owner) :
    KeepsOwner owner := fun s => (h s).keeps

/-- A change that sets the control and keeps the rest, as long as the new control is legal whenever the
old one is. -/
theorem Keeps.of {s t : State} (hp : t.pending = s.pending) (hc : Canonical s → Canonical t)
    (hb : Bounded s → Bounded t) (hl : (controlOf s).legal → (controlOf t).legal) : Keeps s t :=
  ⟨hp, hc, hb, hl⟩

/-! ## Notices of the Batch Controller -/

/-- What a batch notice changes: the queue of notices, or the notices kept, which grow by one at most. -/
theorem postBatch_keeps (n : Notice) (s : State) :
    (s.postBatch n).pending = s.pending ∧ (Canonical s → Canonical (s.postBatch n)) ∧
    (Bounded s → Bounded (s.postBatch n)) ∧
    ∃ k, k ≤ s.batch.kept.length + 1 ∧ controlOf (s.postBatch n) = { controlOf s with kept := k } := by
  unfold State.postBatch
  split
  · next h =>
    exact ⟨rfl, id, fun b => ⟨b.1, notices_room n h.2, b.2.2⟩, _, Nat.le_succ _, rfl⟩
  · exact ⟨rfl, id, id, _, Nat.le_of_eq (by simp), rfl⟩

/-- What handing a freed place to a producer changes: a notice more in the queue, at most one kept
less. -/
theorem postKept_keeps (s : State) :
    (s.postKept).pending = s.pending ∧ (Canonical s → Canonical s.postKept) ∧
    (s.port.notices.length < Config.noticePlaces → Bounded s → Bounded s.postKept) ∧
    ∃ k, k ≤ s.batch.kept.length ∧ controlOf s.postKept = { controlOf s with kept := k } := by
  have grown : ∀ n, s.port.notices.length < Config.noticePlaces →
      (s.port.notices ++ [n]).length ≤ Config.noticePlaces := fun n h => by
    rw [List.length_append, List.length_singleton]; omega
  unfold State.postKept
  split
  · exact ⟨rfl, id, fun h b => ⟨b.1, grown _ h, b.2.2⟩, _, Nat.le_refl _, rfl⟩
  · next e =>
    exact ⟨rfl, id, fun h b => ⟨b.1, grown _ h, b.2.2⟩, _, by rw [e]; exact Nat.le_succ _, rfl⟩
  · exact ⟨rfl, id, fun h b => ⟨b.1, grown _ h, b.2.2⟩, _, Nat.le_refl _, rfl⟩
  · exact ⟨rfl, id, fun _ b => b, _, Nat.le_refl _, rfl⟩

/-- A legal control stays legal with fewer notices kept. -/
theorem legal_fewer {c : Control} {k : Nat} (hk : k ≤ c.kept) (h : c.legal) :
    ({ c with kept := k } : Control).legal := by
  unfold Control.legal at h ⊢
  cases hs : c.state <;> simp only [hs] at h ⊢
  · exact ⟨h.1, h.2.1, h.2.2.1, h.2.2.2.1, hk.trans h.2.2.2.2.1, h.2.2.2.2.2⟩
  · exact ⟨h.1, h.2.1, h.2.2.1, Nat.le_zero.mp (h.2.2.2.1 ▸ hk), h.2.2.2.2⟩
  · exact ⟨h.1, h.2.1, h.2.2.1, hk.trans h.2.2.2.1, h.2.2.2.2⟩
  · exact ⟨h.1, h.2.1, hk.trans h.2.2.1, h.2.2.2⟩
  · exact ⟨h.1, h.2.1, hk.trans h.2.2.1, h.2.2.2⟩

/-! ## The batch -/

theorem keeps_raise (causes : HoldCauses) (s : State) : Keeps s (s.raise causes) := by
  unfold State.raise
  split
  · exact .rfl
  · next he =>
    have hne : ∀ c : HoldCauses, c.or causes ≠ {} := by
      intro c hc
      apply he
      simp only [HoldCauses.isEmpty, decide_eq_true_eq]
      cases c; cases causes
      simp only [HoldCauses.or, HoldCauses.mk.injEq, Bool.or_eq_false_iff] at hc ⊢
      tauto
    split
    · next hs =>
      have p := postBatch_keeps (.feedHold (s.batch.causes.or causes) s.batch.fed s.batch.rejected
        s.batch.opened) { s with batch.state := .feedHold, batch.causes := s.batch.causes.or causes }
      obtain ⟨p1, p2, p3, k, hk, p4⟩ := p
      refine .of p1 p2 p3 fun l => ?_
      change (controlOf (State.postBatch _ _)).legal
      rw [p4]
      simp only [Control.legal, controlOf, hs] at l ⊢
      simp only at hk
      exact ⟨l.1, hne _, l.2.2.1, by omega, l.2.2.2.2⟩
    · next hs =>
      refine .of rfl id id fun l => ?_
      simp only [Control.legal, controlOf, hs] at l ⊢
      exact ⟨l.1, hne _, l.2.2⟩
    · next hs =>
      refine .of rfl id id fun l => ?_
      simp only [Control.legal, controlOf, hs] at l ⊢
      exact l
    · exact .rfl
    · exact .rfl

theorem quiet_unpin (s : State) : Quiet s s.unpin := by
  unfold State.unpin
  split
  · exact .rfl
  · exact (Quiet.rfl.setFolio _).trans (quiet_testRemoval _ _)

/-- The entry to IDLE leaves a legal control where the tracker is not stopped and at most one notice is
kept. -/
theorem enterIdle_spec (kind : EndKind) (s : State) :
    (s.enterIdle kind).pending = s.pending ∧ (Canonical s → Canonical (s.enterIdle kind)) ∧
    (Bounded s → Bounded (s.enterIdle kind)) ∧
    (s.tracker.stopped = false → s.batch.kept.length ≤ 1 → Legal (s.enterIdle kind)) := by
  unfold State.enterIdle
  have q := quiet_unpin { s with
    batch.state := .idle, batch.haltCause := none, batch.causes := {}, batch.stopTaken := false,
    batch.feeder := .atRest, tracker.stallTimer := none }
  obtain ⟨p1, p2, p3, k, hk, p4⟩ := postBatch_keeps
    (.batchEnded kind s.batch.fed s.batch.rejected s.batch.opened) (State.unpin { s with
      batch.state := .idle, batch.haltCause := none, batch.causes := {}, batch.stopTaken := false,
      batch.feeder := .atRest, tracker.stallTimer := none })
  refine ⟨p1.trans q.pending, p2 ∘ q.canonical, p3 ∘ q.bounded, fun h1 h2 => ?_⟩
  have hkept : (State.unpin { s with
      batch.state := .idle, batch.haltCause := none, batch.causes := {}, batch.stopTaken := false,
      batch.feeder := .atRest, tracker.stallTimer := none }).batch.kept.length = s.batch.kept.length :=
    congrArg Control.kept q.controls
  unfold Legal
  rw [p4, q.controls]
  rw [hkept] at hk
  exact ⟨rfl, rfl, rfl, rfl, (by omega : k ≤ 2), h1, rfl⟩

theorem keeps_endDrain (s : State) : Keeps s s.endDrain := by
  unfold State.endDrain
  split
  · next h =>
    obtain ⟨p1, p2, p3, p4⟩ := enterIdle_spec .drained s
    refine .of p1 p2 p3 fun l => ?_
    simp only [Control.legal, controlOf, h.1] at l
    exact p4 l.2.2.2.1 l.2.2.1
  · exact .rfl

/-- HALTED with a cause is legal where at most two notices are kept. -/
theorem halt_spec (cause : HaltCause) (s : State) :
    (s.halt cause).pending = s.pending ∧ (Canonical s → Canonical (s.halt cause)) ∧
    (Bounded s → Bounded (s.halt cause)) ∧
    controlOf (s.halt cause) = { controlOf s with
      state := .halted, haltCause := some cause, feeder := .atRest, stopped := true, stallTimer := none } :=
  ⟨rfl, id, id, rfl⟩

/-- While the tracker acts, a legal control keeps at most one notice. -/
theorem kept_of_acts {s : State} (h : s.acts = true) (l : Legal s) : s.batch.kept.length ≤ 1 := by
  unfold State.acts State.motorOn at h
  unfold Legal Control.legal controlOf at l
  cases hs : s.batch.state <;> simp only [hs] at h l
  · simp at h
  · omega
  · exact l.2.2.2.1
  · exact l.2.2.1
  · simp at h

theorem keeps_jam (cause : JamCause) (line : Option LineIx) (ticket : Option Word) (s : State) :
    Keeps s (s.jam cause line ticket) := by
  unfold State.jam
  split
  · exact .rfl
  · next ha =>
    have ha : s.acts = true := by simpa using ha
    obtain ⟨h1, h2, h3, h4⟩ := halt_spec .jam s
    obtain ⟨p1, p2, p3, k, hk, p4⟩ := postBatch_keeps
      (.jam cause line ticket s.tracker.train.length) (s.halt .jam)
    refine .of (p1.trans h1) (p2 ∘ h2) (p3 ∘ h3) fun l => ?_
    have hk1 := kept_of_acts ha l
    rw [p4, h4]
    have hkept : (s.halt .jam).batch.kept = s.batch.kept := rfl
    rw [hkept] at hk
    exact ⟨rfl, rfl, (by omega : k ≤ 2), rfl, rfl⟩

theorem keeps_feedTest (s : State) : Keeps s s.feedTest := by
  unfold State.feedTest
  split
  · exact .rfl
  · next h0 =>
    split
    · exact keeps_raise _ _
    · split
      · exact .rfl
      · refine .of rfl id id fun l => ?_
        have hr : s.batch.state = .running := by
          by_contra hne; exact h0 (Or.inl hne)
        simp only [Control.legal, controlOf, hr] at l ⊢
        exact l

/-- The feeder coming to rest. -/
theorem keeps_rest (s : State) : Keeps s { s with batch.feeder := .atRest } := by
  refine .of rfl id id fun l => ?_
  unfold Control.legal controlOf at l ⊢
  cases hs : s.batch.state <;> simp only [hs] at l ⊢ <;> tauto

theorem keeps_passFeedWindow (s : State) : Keeps s s.passFeedWindow := by
  unfold State.passFeedWindow
  split
  · exact .rfl
  · dsimp only
    split
    · exact (keeps_rest s).trans (keeps_endDrain _)
    · exact (keeps_rest s).trans (keeps_raise _ _)

theorem keeps_sheetEntered (s : State) : Keeps s s.sheetEntered := by
  refine (keeps_rest s).trans ?_
  exact ⟨rfl, id, id, id⟩

theorem startBatch_spec (matter : Long) (cls : BitVec 4) (duplex : Bool) (place : Nat) (s : State)
    (hi : s.batch.state = .idle) (hk : s.batch.kept = []) :
    Keeps s (s.startBatch matter cls duplex place) := by
  unfold State.startBatch
  dsimp only
  have q := quiet_matterFor matter place s
  refine q.keeps.trans ?_
  have hb : (s.matterFor matter place).batch.state = .idle := by
    have := congrArg Control.state q.controls; simp only [controlOf] at this; rw [this, hi]
  have hkept : (s.matterFor matter place).batch.kept.length = 0 := by
    have := congrArg Control.kept q.controls; simp only [controlOf] at this; rw [this, hk]; rfl
  generalize s.matterFor matter place = t at hb hkept
  refine .of rfl id id fun l => ?_
  simp only [Control.legal, controlOf, hb] at l ⊢
  exact ⟨l.1, trivial, trivial, hkept, l.2.2.2.2.2.1, rfl⟩

theorem keeps_ownerStartBatch (m : Long) (c d : Word) : KeepsOwner (ownerStartBatch m c d) := by
  intro s
  unfold ownerStartBatch
  split
  · exact .rfl
  · next hi =>
    split
    · exact .rfl
    · split
      · exact .rfl
      · split
        · exact .rfl
        · split
          · exact .rfl
          · split
            · exact .rfl
            · next hk =>
              split
              · exact .rfl
              · exact startBatch_spec _ _ _ _ _ (not_not.mp hi) (not_not.mp hk)

theorem keeps_ownerPauseFeed : KeepsOwner ownerPauseFeed := by
  intro s
  unfold ownerPauseFeed
  split <;> (try dsimp only) <;> first | exact keeps_raise _ _ | exact .rfl

theorem keeps_ownerResumeFeed : KeepsOwner ownerResumeFeed := by
  intro s
  unfold ownerResumeFeed
  split
  · exact .rfl
  · next hs =>
    split
    · exact .rfl
    · next hk =>
      have hs := not_not.mp hs
      have hk := not_not.mp hk
      dsimp only
      refine .of rfl id id fun l => ?_
      simp only [Control.legal, controlOf, hs] at l
      cases he : s.causesLeft.isEmpty
      · have hne : s.causesLeft ≠ {} := by
          intro h; rw [h] at he; exact absurd he (by decide)
        simp only [Control.legal, controlOf, if_neg Bool.false_ne_true, hk]
        exact ⟨l.1, hne, l.2.2.1, Nat.zero_le _, l.2.2.2.2⟩
      · have hem : s.causesLeft = {} := by
          simpa [HoldCauses.isEmpty] using he
        simp only [Control.legal, controlOf, if_pos, hk]
        exact ⟨l.1, hem, l.2.2.1, rfl, l.2.2.2.2⟩

theorem keeps_ownerStopBatch : KeepsOwner ownerStopBatch := by
  intro s
  have main : ∀ (h : s.batch.state = .running ∨ s.batch.state = .feedHold),
      Keeps s (State.drainClose
        { s with batch.state := .draining, batch.stopTaken := true }).endDrain := by
    intro h
    refine Keeps.trans ?_ (keeps_endDrain _)
    refine Keeps.trans ?_ (quiet_drainClose _).keeps
    refine .of rfl id id fun l => ?_
    rcases h with h | h <;> simp only [Control.legal, controlOf, h] at l ⊢
    · exact ⟨l.1, trivial, by omega, l.2.2.2.2⟩
    · exact ⟨l.1, trivial, l.2.2.2⟩
  unfold ownerStopBatch
  split
  · next h => exact main (Or.inl h)
  · next h => exact main (Or.inr h)
  · exact .rfl
  · exact .rfl
  · exact .rfl

theorem keeps_ownerAbortBatch : KeepsOwner ownerAbortBatch := by
  intro s
  have main : ∀ (_ : s.motorOn = true), Keeps s (s.halt .abort) := by
    intro hm
    obtain ⟨h1, h2, h3, h4⟩ := halt_spec .abort s
    refine .of h1 h2 h3 fun l => ?_
    have hk : s.batch.kept.length ≤ 2 := by
      unfold State.motorOn at hm
      unfold Control.legal controlOf at l
      cases hs : s.batch.state <;> simp only [hs] at hm l <;> omega
    rw [h4]
    exact ⟨rfl, rfl, hk, rfl, rfl⟩
  unfold ownerAbortBatch
  split
  · next h => exact main (by unfold State.motorOn; rw [h])
  · next h => exact main (by unfold State.motorOn; rw [h])
  · next h => exact main (by unfold State.motorOn; rw [h])
  · next h _ =>
    dsimp only
    refine .of rfl id id fun l => ?_
    simp only [Control.legal, controlOf, h] at l ⊢
    exact ⟨rfl, l.2⟩
  · exact .rfl

theorem quiet_ownerReadBatch : QuietOwner ownerReadBatch := fun _ => .rfl

/-! ## The tracker -/

theorem keeps_stray (line : LineIx) (s : State) : Keeps s (s.stray line) := keeps_jam _ _ _ _

theorem keeps_entryLeading (s : State) : Keeps s s.entryLeading := by
  unfold State.entryLeading
  split
  · exact .rfl
  · split
    · exact keeps_jam _ _ _ _
    · next h =>
      refine Keeps.trans ?_ (keeps_sheetEntered _)
      refine ⟨rfl, id, fun b => ⟨b.1, b.2.1, ?_, b.2.2.2⟩, id⟩
      rw [List.length_append, List.length_singleton]; omega

theorem keeps_entryTrailing (s : State) : Keeps s s.entryTrailing := by
  unfold State.entryTrailing
  split
  · exact .rfl
  · split
    · exact keeps_stray _ _
    · dsimp only
      split
      · exact keeps_stray _ _
      · refine Keeps.trans ?_ (quiet_editTicket _ _ _).keeps
        exact ⟨rfl, id, id, id⟩

theorem keeps_edgeSensor (x : Sensor) (s : State) : Keeps s (s.edgeSensor x) := by
  unfold State.edgeSensor
  split
  · exact .rfl
  · split
    · exact keeps_stray _ _
    · split
      · exact ((quiet_editTicket _ _ _).trans (quiet_openMeasurement _ _ _)).keeps
      · exact ((quiet_editTicket _ _ _).trans (quiet_closeMeasurement _ _)).keeps

theorem quiet_startSides (o : Word) (s : State) : Quiet s (s.startSides o) := by
  unfold State.startSides
  exact Quiet.ite ((quiet_startSide _ _ _).trans (quiet_startSide _ _ _)) (quiet_startSide _ _ _)

theorem keeps_scanLeading (s : State) : Keeps s s.scanLeading := by
  unfold State.scanLeading
  split
  · exact .rfl
  · split
    · exact keeps_stray _ _
    · split
      · exact keeps_jam _ _ _ _
      · exact ((quiet_editTicket _ _ _).trans (quiet_startSides _ _)).keeps

theorem quiet_endSides (o : Word) (s : State) : Quiet s (s.endSides o) := by
  unfold State.endSides
  have front := quiet_handOver .front (quiet_endSide .front o) s
  exact Quiet.ite (front.trans (quiet_handOver .back (quiet_endSide .back o) _)) front

theorem keeps_scanTrailing (s : State) : Keeps s s.scanTrailing := by
  unfold State.scanTrailing
  split
  · exact .rfl
  · split
    · exact keeps_stray _ _
    · exact ((quiet_editTicket _ _ _).trans (quiet_endSides _ _)).keeps

theorem keeps_exitLeading (p : Option TrayIx) (s : State) : Keeps s (s.exitLeading p) := by
  unfold State.exitLeading
  split
  · exact .rfl
  · split
    · exact keeps_jam _ _ _ _
    · exact (quiet_editTicket _ _ _).keeps

theorem quiet_notShelved (p : PageOf) (r : Option TrayIx) (d : Nat) (s : State) :
    Quiet s (s.notShelved p r d) := by
  unfold State.notShelved
  dsimp only
  split
  · exact (quiet_resolveNotShelved _ _ _ _).trans (quiet_editTray _ _ _)
  · exact quiet_resolveNotShelved _ _ _ _

theorem keeps_dismiss (o : Word) (s : State) : Keeps s (s.dismiss o) :=
  (quiet_removeTicket _ _).keeps.trans (keeps_endDrain _)

theorem keeps_deliverTray (n : TrayIx) (t : Ticket) (s : State) : Keeps s (s.deliverTray n t) := by
  unfold State.deliverTray
  dsimp only
  refine Keeps.trans ?_ (keeps_dismiss _ _)
  split
  · exact ((quiet_editTray _ _ _).trans (quiet_deliverPage _ _ _)).keeps
  · exact (quiet_editTray _ _ _).keeps

theorem keeps_deliverReject (t : Ticket) (s : State) : Keeps s (s.deliverReject t) := by
  unfold State.deliverReject
  split
  · exact (quiet_editTicket _ _ _).keeps
  · split
    · exact (quiet_notShelved _ _ _ _).keeps.trans (keeps_dismiss _ _)
    · exact keeps_dismiss _ _

theorem keeps_exitTrailing (p : Option TrayIx) (s : State) : Keeps s (s.exitTrailing p) := by
  unfold State.exitTrailing
  split
  · exact .rfl
  · split
    · exact keeps_jam _ _ _ _
    · split
      · exact keeps_deliverTray _ _ _
      · exact keeps_deliverReject _ _

theorem keeps_passWindow (o : Word) (a : Arrival) (s : State) : Keeps s (s.passWindow o a) := by
  unfold State.passWindow
  split
  · exact .rfl
  · split
    · exact keeps_jam _ _ _ _
    · exact .rfl

theorem keeps_stallExpires (s : State) : Keeps s s.stallExpires := by
  unfold State.stallExpires
  split
  · exact keeps_jam _ _ _ _
  · exact .rfl

theorem quiet_flagZone (a : Bool) (z : Nat) (f : Ticket → Ticket) (s : State) :
    Quiet s (s.flagZone a z f) := by
  unfold State.flagZone
  split
  · split
    · exact quiet_editTicket _ _ _
    · exact .rfl
  · exact .rfl

theorem quiet_flagZones (s : State) : Quiet s s.flagZones :=
  (quiet_flagZone _ _ _ _).trans (quiet_flagZone _ _ _ _)

theorem keeps_travelOn (f b : ScanLine) (s : State) (h : s.acts = true) :
    Keeps s (s.travelOn f b) := by
  unfold State.travelOn
  dsimp only
  refine Keeps.trans (t := { s with tracker.stallTimer := some Config.stallMilliseconds }) ?_ ?_
  · refine .of rfl id id fun l => ?_
    unfold State.acts State.motorOn at h
    unfold Control.legal controlOf at l ⊢
    cases hs : s.batch.state <;> simp only [hs] at h l ⊢ <;> simp_all
  · exact (((quiet_flagZones _).trans (quiet_handOver _ (quiet_takeLine _ _) _)).trans
      (quiet_handOver _ (quiet_takeLine _ _) _)).keeps

/-- What the board does to L1 to L4 at a travel pulse moves pins only. -/
theorem sampleBoard_eq (z : ZoneLevels) (p : PaperLeft) (s : State) :
    ∃ board, s.sampleBoard z p = { s with lines.board := board } := by
  unfold State.sampleBoard State.clearSensor State.movePin State.drive
  obtain ⟨a, b⟩ := p
  cases a <;> cases b <;> exact ⟨_, rfl⟩

theorem keeps_travelPulse (z : ZoneLevels) (p : PaperLeft) (f b : ScanLine) (s : State) :
    Keeps s (State.travelPulse z p f b s) := by
  unfold State.travelPulse
  dsimp only
  obtain ⟨board, e⟩ := sampleBoard_eq z p s
  rw [e]
  have counted : Keeps s { s with
      lines.board := board
      tracker.travel := s.tracker.travel + 1 } := ⟨rfl, id, id, id⟩
  split
  · next h => exact counted.trans (keeps_travelOn _ _ _ h)
  · exact counted

theorem quiet_claimGate (o : Word) (k : TrayIx) (s : State) : Quiet s (s.claimGate o k) := by
  unfold State.claimGate
  split
  · exact .rfl
  · split
    · exact .rfl
    · split
      · exact quiet_editTicket _ _ _
      · split
        · exact quiet_editTicket _ _ _
        · exact quiet_editTicket _ _ _

theorem quiet_releaseGate (o : Word) (k : TrayIx) (s : State) : Quiet s (s.releaseGate o k) := by
  unfold State.releaseGate
  split
  · exact .rfl
  · split
    · exact quiet_editTicket _ _ _
    · exact .rfl

theorem keeps_settle (o : Outcome) (s : State) : Keeps s (s.settle o) := by
  unfold State.settle
  split
  · exact .rfl
  · split
    · dsimp only
      refine Keeps.trans ?_ (keeps_dismiss _ _)
      split
      · exact (quiet_notShelved _ _ _ _).keeps
      · exact .rfl
    · exact (quiet_editTicket _ _ _).keeps

theorem keeps_takeOutcome (s : State) : Keeps s s.takeOutcome := by
  unfold State.takeOutcome
  split
  · exact .rfl
  · exact (Quiet.rfl.setAssembler _).keeps.trans (keeps_settle _ _)

/-- Out of DRAINING the test that ends a drain does nothing. -/
theorem endDrain_still {s : State} (h : s.batch.state ≠ .draining) : s.endDrain = s := by
  unfold State.endDrain
  exact if_neg fun k => h k.1

theorem quiet_dismiss (o : Word) {s : State} (h : s.batch.state ≠ .draining) :
    Quiet s (s.dismiss o) := by
  unfold State.dismiss
  rw [endDrain_still (s := s.removeTicket o) h]
  exact quiet_removeTicket _ _

theorem Quiet.state {s t : State} (h : Quiet s t) : t.batch.state = s.batch.state :=
  congrArg Control.state h.controls

theorem quiet_settle (o : Outcome) {s : State} (h : s.batch.state ≠ .draining) :
    Quiet s (s.settle o) := by
  unfold State.settle
  split
  · exact .rfl
  · split
    · dsimp only
      split
      · exact (quiet_notShelved _ _ _ _).trans
          (quiet_dismiss _ (by rw [(quiet_notShelved _ _ _ _).state]; exact h))
      · exact quiet_dismiss _ h
    · exact quiet_editTicket _ _ _

theorem quiet_takeOutcome {s : State} (h : s.batch.state ≠ .draining) : Quiet s s.takeOutcome := by
  unfold State.takeOutcome
  split
  · exact .rfl
  · exact (Quiet.rfl.setAssembler _).trans (quiet_settle _ h)

theorem quiet_takeOutcomes : ∀ (os : List Outcome) (s : State), s.batch.state ≠ .draining →
    Quiet s (s.takeOutcomes os)
  | [], _, _ => .rfl
  | _ :: rest, s, h =>
    (quiet_takeOutcome h).trans
      (quiet_takeOutcomes rest _ (by rw [(quiet_takeOutcome h).state]; exact h))

theorem quiet_dispose (d : Nat) (t : Ticket) (s : State) : Quiet s (s.dispose d t) := by
  unfold State.dispose
  split
  · exact quiet_returnChains _ _
  · split
    · exact quiet_notShelved _ _ _ _
    · exact .rfl

theorem quiet_disposeAll (d : Nat) : ∀ (ts : List Ticket) (s : State), Quiet s (s.disposeAll d ts)
  | [], _ => .rfl
  | _ :: rest, _ => (quiet_dispose _ _ _).trans (quiet_disposeAll d rest _)

/-- CLEAR TRAIN empties the path and leaves the control but for the stopped condition. -/
theorem clearPath_spec (s : State) :
    s.clearPath.pending = s.pending ∧ (Canonical s → Canonical s.clearPath) ∧
    (Bounded s → Bounded s.clearPath) ∧
    controlOf s.clearPath = { controlOf s with stopped := false } :=
  ⟨rfl, id, fun b => ⟨b.1, b.2.1, Nat.zero_le _, b.2.2.2⟩, rfl⟩

/-- The exit from HALTED leaves a legal control where the tracker is not stopped and no notice is
kept. -/
theorem leaveHalt_spec (cause : HaltCause) (s : State) :
    (s.leaveHalt cause).pending = s.pending ∧ (Canonical s → Canonical (s.leaveHalt cause)) ∧
    (Bounded s → Bounded (s.leaveHalt cause)) ∧
    (s.tracker.stopped = false → s.batch.kept = [] → Legal (s.leaveHalt cause)) := by
  unfold State.leaveHalt
  split
  · next h =>
    unfold State.enterFeedHold
    obtain ⟨p1, p2, p3, k, hk, p4⟩ := postBatch_keeps
      (.feedHold { s.batch.causes with jamRecovered := true } s.batch.fed s.batch.rejected
        s.batch.opened)
      { s with batch.state := .feedHold, batch.causes := { s.batch.causes with jamRecovered := true }, batch.haltCause := none, tracker.stallTimer := some Config.stallMilliseconds }
    refine ⟨p1, p2, p3, fun h1 h2 => ?_⟩
    have hk' : k ≤ 1 := by simpa [h2] using hk
    have hs : s.batch.stopTaken = false := by simpa using h.2
    unfold Legal
    rw [p4]
    refine ⟨rfl, fun hc => ?_, hs, hk', h1, rfl⟩
    have hj : true = false := congrArg HoldCauses.jamRecovered hc
    exact Bool.noConfusion hj
  · have q := quiet_closeDocument none s
    obtain ⟨p1, p2, p3, p4⟩ := enterIdle_spec
      (if cause = .jam then EndKind.stoppedAfterJam else .aborted) (s.closeDocument none)
    refine ⟨p1.trans q.pending, p2 ∘ q.canonical, p3 ∘ q.bounded, fun h1 h2 => p4 ?_ ?_⟩
    · exact (congrArg Control.stopped q.controls).trans h1
    · have hk : (s.closeDocument none).batch.kept.length = s.batch.kept.length :=
        congrArg Control.kept q.controls
      rw [hk, h2]; exact Nat.zero_le _

theorem keeps_ownerClearTrain : KeepsOwner ownerClearTrain := by
  intro s
  unfold ownerClearTrain
  split
  · exact .rfl
  · next hs =>
    split
    · exact .rfl
    · next hk =>
      have hs := not_not.mp hs
      have hk := not_not.mp hk
      dsimp only
      unfold State.clearTrain
      dsimp only
      have q := (quiet_takeOutcomes s.assembler.outcomes s (by rw [hs]; decide)).trans
        (quiet_disposeAll (s.batch.haltCause.getD .jam).detail
          (s.takeOutcomes s.assembler.outcomes).tracker.train _)
      generalize (s.takeOutcomes s.assembler.outcomes).disposeAll _ _ = t at q
      obtain ⟨c1, c2, c3, c4⟩ := clearPath_spec t
      obtain ⟨p1, p2, p3, p4⟩ := leaveHalt_spec (s.batch.haltCause.getD .jam) t.clearPath
      refine ⟨p1.trans (c1.trans q.pending), p2 ∘ c2 ∘ q.canonical, p3 ∘ c3 ∘ q.bounded,
        fun _ => p4 ?_ ?_⟩
      · exact congrArg Control.stopped c4
      · have c5 : t.clearPath.batch.kept.length = t.batch.kept.length := congrArg Control.kept c4
        have c6 : t.batch.kept.length = s.batch.kept.length := congrArg Control.kept q.controls
        rw [c6, hk] at c5
        exact List.length_eq_zero_iff.mp c5

theorem quiet_ownerReadTrain : QuietOwner ownerReadTrain := fun _ => .rfl

theorem quiet_ownerReadTicket (o : Word) : QuietOwner (ownerReadTicket o) := by
  intro s
  unfold ownerReadTicket
  split
  · exact .rfl
  · split <;> exact .rfl

theorem quiet_ownerSetPath (x : Word) (vs : List Word) : QuietOwner (ownerSetPath x vs) := by
  intro s
  unfold ownerSetPath
  dsimp only
  split
  · exact .rfl
  · split
    · exact .rfl
    · split
      · exact .rfl
      · split
        · exact .rfl
        · split
          · exact .rfl
          · exact ⟨rfl, rfl, id, id⟩

theorem quiet_ownerReadPath (x : Word) : QuietOwner (ownerReadPath x) := by
  intro s
  unfold ownerReadPath
  split <;> exact .rfl

theorem keeps_edge (l : LineIx) (a : Bool) (s : State) : Keeps s (s.edge l a) := by
  unfold State.edge
  split
  · exact keeps_entryLeading _
  · exact keeps_entryTrailing _
  · exact keeps_edgeSensor _ _
  · exact keeps_edgeSensor _ _
  · exact keeps_scanLeading _
  · exact keeps_scanTrailing _
  · exact keeps_exitLeading _ _
  · exact keeps_exitTrailing _ _
  · exact keeps_exitLeading _ _
  · exact keeps_exitTrailing _ _
  · exact keeps_exitLeading _ _
  · exact keeps_exitTrailing _ _
  · exact keeps_exitLeading _ _
  · exact keeps_exitTrailing _ _
  · exact keeps_exitLeading _ _
  · exact keeps_exitTrailing _ _
  · exact .rfl

theorem keeps_boardEdge (l : LineIx) (a : Bool) (s : State) : Keeps s (s.boardEdge l a) := by
  unfold State.boardEdge
  dsimp only
  have moved : Keeps s (s.movePin l a) := (quiet_drive _ _ _).keeps
  split
  · exact moved.trans (keeps_edge _ _ _)
  · exact moved

/-! ## Decisions -/

theorem quiet_takeSeparator (t : Ticket) (s : State) : Quiet s (s.takeSeparator t) :=
  ((quiet_returnTicketPlates _ _).trans (quiet_closeDocument _ _)).setAssembler _

theorem quiet_takeReject (t : Ticket) (s : State) : Quiet s (s.takeReject t) :=
  (quiet_returnTicketPlates t s).trans ⟨rfl, rfl, id, id⟩

theorem quiet_tellReject (d : Nat) (s : State) : Quiet s (s.tellReject d) := by
  unfold State.tellReject
  split
  · exact quiet_rejectedSheet _ _ _
  · exact .rfl

theorem quiet_countPage (d : OpenDocument) (t : Ticket) (g : Tags) (s : State) :
    Quiet s (s.countPage d t g).1 := by
  unfold State.countPage
  dsimp only
  have counted := (quiet_editTicket t.ordinal (fun u => { u with frontChain := {}, backChain := {} }) s).trans
    (quiet_editTray d.tray Tray.commit _)
  exact Quiet.ite (counted.trans (quiet_closeDocument _ _)) counted

theorem quiet_takePage (d : OpenDocument) (t : Ticket) (h : Bool) (g : Tags) (s : State) :
    Quiet s (s.takePage d t h g).1 :=
  (quiet_appendPage _ _ _ _ _).trans (quiet_countPage _ _ _ _)

theorem keeps_turnAway (t : Ticket) (r : RejectReason) (g : Tags) (c : HoldCauses) (s : State) :
    Keeps s (s.turnAway t r g c).1 :=
  (quiet_takeReject _ _).keeps.trans (keeps_raise _ _)

theorem quiet_bindDocument (f : Word) (t : TrayIx) (r : Bool) (s : State) :
    Quiet s (s.bindDocument f t r) := ⟨rfl, rfl, id, id⟩

theorem keeps_takeOpen (e : Evaluator) (t : Ticket) (s : State) : Keeps s (s.takeOpen e t).1 := by
  unfold State.takeOpen
  split
  · split <;> exact keeps_turnAway _ _ _ _ _
  · split
    · exact keeps_turnAway _ _ _ _ _
    · dsimp only
      exact (((quiet_openRecord _ _ _ _ _ _ _ _ _).trans (quiet_bindDocument _ _ _ _)).trans
        (quiet_countPage _ _ _ _)).keeps

theorem keeps_takeSheet (e : Evaluator) (t : Ticket) (s : State) : Keeps s (s.takeSheet e t).1 := by
  unfold State.takeSheet
  split
  · exact keeps_takeOpen _ _ _
  · split
    · exact (quiet_closeDocument _ _).keeps.trans (keeps_takeOpen _ _ _)
    · exact (quiet_takePage _ _ _ _ _).keeps

theorem keeps_rule (e : Evaluator) (t : Ticket) (s : State) : Keeps s (s.rule e t).1 := by
  unfold State.rule
  split
  · exact (quiet_takeSeparator _ _).keeps
  · split
    · exact ((quiet_takeReject _ _).trans (quiet_tellReject _ _)).keeps
    · exact keeps_takeSheet _ _ _

theorem keeps_decide (s : State) : Keeps s s.decide := by
  unfold State.decide
  split
  · exact .rfl
  · split
    · exact .rfl
    · next t _ =>
      dsimp only
      refine Keeps.trans ?_ (quiet_drainClose _).keeps
      have ruled := ((Quiet.rfl (s := s)).setEvaluator (s.evaluate t)).keeps.trans
        (keeps_rule (s.evaluate t) t { s with evaluator := s.evaluate t })
      exact ⟨ruled.pending, ruled.canonical, ruled.bounded, ruled.legal⟩

/-! ## Lines -/

theorem keeps_writeLine (l : LineIx) (c : LineSetting) (s : State) : Keeps s (s.writeLine l c) := by
  unfold State.writeLine
  dsimp only
  have written : Keeps s { s with lines.settings := s.lines.settings.set l.val c l.isLt } :=
    ⟨rfl, id, id, id⟩
  split
  · exact written.trans (keeps_edge _ _ _)
  · exact written

theorem keeps_ownerSetLine (a b c d e f : Word) : KeepsOwner (ownerSetLine a b c d e f) := by
  intro s
  unfold ownerSetLine
  split
  · dsimp only
    split
    · exact .rfl
    · exact keeps_writeLine _ _ _
  · exact .rfl

theorem quiet_ownerReadLines : QuietOwner ownerReadLines := fun _ => .rfl

/-! ## The rebuild and the resets -/

theorem quiet_checkPlace (n : Nat) (s : State) : Quiet s (s.checkPlace n) := by
  unfold State.checkPlace
  dsimp only
  split
  · split
    · exact .rfl
    · exact quiet_putMatter _ _ _
  · split
    · exact quiet_putMatter _ _ _
    · exact quiet_indexMatter _ _ _

theorem quiet_ascending {change : Nat → State → State} (h : ∀ n s, Quiet s (change n s)) :
    ∀ (n : Nat) (s : State), Quiet s (ascending change n s)
  | 0, _ => .rfl
  | n + 1, s => (quiet_ascending h n s).trans (h n _)

theorem quiet_damage (n : Nat) (s : State) : Quiet s (s.damage n) := quiet_editSlot _ _ _

theorem quiet_settleSlot (n : Nat) (r : Record) (s : State) : Quiet s (s.settleSlot n r) := by
  unfold State.settleSlot
  exact Quiet.ite .rfl (quiet_putSlot _ _ _)

theorem quiet_tieRecord (n : Nat) (p : State × Nat) : Quiet p.1 (tieRecord n p).1 := by
  unfold tieRecord
  dsimp only
  split
  · exact quiet_settleSlot _ _ _
  · split
    · exact quiet_damage _ _
    · exact ((quiet_indexMatter _ _ _).trans (quiet_settleSlot _ _ _)).trans (quiet_putMatter _ _ _)

theorem quiet_checkSlot (n : Nat) (p : State × Nat) : Quiet p.1 (checkSlot n p).1 := by
  unfold checkSlot
  dsimp only
  split
  · exact quiet_putSlot _ _ _
  · split
    · exact quiet_damage _ _
    · split
      · exact .rfl
      · exact .rfl
      all_goals
        split
        · exact quiet_damage _ _
        · exact quiet_tieRecord _ _

theorem quiet_checkSlots : ∀ (n : Nat) (p : State × Nat), Quiet p.1 (checkSlots n p).1
  | 0, _ => .rfl
  | n + 1, p => (quiet_checkSlots n p).trans (quiet_checkSlot n _)

theorem quiet_buildChain : ∀ (ns : List Nat) (c : List (Nat × Nat)) (s : State),
    Quiet s (buildChain ns c s).2
  | [], _, _ => .rfl
  | n :: rest, c, s => by
    unfold buildChain
    split
    · exact quiet_buildChain rest _ _
    · exact (quiet_damage _ _).trans (quiet_buildChain rest _ _)

theorem quiet_chainSlots : ∀ (c : List (Nat × Nat)) (s : State), Quiet s (s.chainSlots c)
  | [], _ => .rfl
  | (_, _) :: rest, _ => (quiet_settleSlot _ _ _).trans (quiet_chainSlots rest _)

theorem quiet_settleMatter (n : Nat) (m : Matter) (s : State) : Quiet s (s.settleMatter n m) := by
  unfold State.settleMatter
  exact Quiet.ite .rfl (quiet_putMatter _ _ _)

theorem quiet_rebuildChain (live : List Nat) (e : IndexEntry) (s : State) :
    Quiet s (s.rebuildChain live e) :=
  ((quiet_buildChain _ _ _).trans (quiet_chainSlots _ _)).trans (quiet_settleMatter _ _ _)

theorem quiet_rebuildChains (live : List Nat) : ∀ (es : List IndexEntry) (s : State),
    Quiet s (s.rebuildChains live es)
  | [], _ => .rfl
  | _ :: rest, _ => (quiet_rebuildChain _ _ _).trans (quiet_rebuildChains live rest _)

theorem quiet_failWalk (n : Nat) (s : State) : Quiet s (s.failWalk n) :=
  ((quiet_damage _ _).trans (quiet_unlinkSlot _ _ _)).trans (quiet_editMatter _ _ _)

theorem quiet_claimPlates (n : Nat) (p : State × Nat) : Quiet p.1 (claimPlates n p).1 := by
  unfold claimPlates
  dsimp only
  split
  · split
    · exact quiet_failWalk _ _
    · exact Quiet.ite (quiet_putNext _ _ _) .rfl
  · exact .rfl

theorem quiet_claimAll : ∀ (ns : List Nat) (p : State × Nat), Quiet p.1 (claimAll ns p).1
  | [], _ => .rfl
  | n :: rest, p => (quiet_claimPlates n p).trans (quiet_claimAll rest _)

theorem quiet_formQueue (claims : Nat) : ∀ (n : Nat) (q : FreeQueue) (s : State),
    Quiet s (formQueue claims n q s).2
  | 0, _, _ => .rfl
  | n + 1, q, s => by
    unfold formQueue
    split
    · exact quiet_formQueue claims n _ _
    · exact (quiet_putNext _ _ _).trans (quiet_formQueue claims n _ _)

theorem quiet_settleLinks (n : Nat) (s : State) : Quiet s (s.settleLinks n) := by
  unfold State.settleLinks
  dsimp only
  exact Quiet.ite (quiet_settleSlot _ _ _) .rfl

theorem quiet_settleAllLinks : ∀ (ns : List Nat) (s : State), Quiet s (s.settleAllLinks ns)
  | [], _ => .rfl
  | _ :: rest, _ => (quiet_settleLinks _ _).trans (quiet_settleAllLinks rest _)

theorem quiet_removeEmpty : ∀ (es : List IndexEntry) (s : State), Quiet s (s.removeEmpty es)
  | [], _ => .rfl
  | _ :: rest, _ => (quiet_testRemoval _ _).trans (quiet_removeEmpty rest _)

theorem quiet_rebuildOver (slots places plates : Nat) (s : State) :
    Quiet s (s.rebuildOver slots places plates) := by
  unfold State.rebuildOver
  dsimp only
  refine Quiet.trans ?_ (quiet_postFolio _ _)
  have tied := (quiet_ascending quiet_checkPlace places s).trans
    (quiet_checkSlots slots (ascending State.checkPlace places s, 0))
  generalize checkSlots slots (ascending State.checkPlace places s, 0) = p at tied ⊢
  have claimed := (tied.trans (quiet_rebuildChains (p.1.liveSlots slots) p.1.folio.index p.1)).trans
    (quiet_claimAll (p.1.liveSlots slots) (p.1.rebuildChains (p.1.liveSlots slots) p.1.folio.index, 0))
  generalize claimAll (p.1.liveSlots slots)
    (p.1.rebuildChains (p.1.liveSlots slots) p.1.folio.index, 0) = c at claimed ⊢
  have queued := claimed.trans (quiet_formQueue c.2 plates {} c.1)
  generalize formQueue c.2 plates {} c.1 = f at queued ⊢
  have linked := queued.trans (quiet_settleAllLinks (p.1.liveSlots slots) f.2)
  generalize f.2.settleAllLinks (p.1.liveSlots slots) = l at linked ⊢
  have trimmed := linked.trans (quiet_removeEmpty l.folio.index l)
  generalize l.removeEmpty l.folio.index = u at trimmed ⊢
  exact ⟨trimmed.pending, trimmed.controls, trimmed.canonical, trimmed.bounded⟩

theorem quiet_rebuild (s : State) : Quiet s s.rebuild := by
  unfold State.rebuild
  exact Quiet.ite (quiet_rebuildOver _ _ _ _) .rfl

theorem foldl_undone_wf : ∀ (ws : List RecordWrite) (m : RecordMemory), m.wf = true →
    (ws.foldl (fun m w => m.write w.undone) m).wf = true
  | [], _, h => h
  | w :: ws, m, h => foldl_undone_wf ws _ (RecordMemory.write_wf m w.undone h)

theorem cutRecord_wf (cut : Option Cut) (s : State) (h : s.record.wf = true) :
    (s.cutRecord cut).wf = true := by
  unfold State.cutRecord
  split
  · exact h
  · dsimp only
    split
    · exact RecordMemory.write_wf _ _ (foldl_undone_wf _ _ h)
    · exact foldl_undone_wf _ _ h

theorem keeps_resetTo (v : Vector LineSetting 24) (cut : Option Cut) (s : State) :
    Keeps s (s.resetTo v cut) :=
  ⟨rfl, fun h => ⟨cutRecord_wf cut s h.1, h.2⟩,
    fun _ => ⟨Nat.zero_le _, Nat.zero_le _, Nat.zero_le _, List.Perm.refl _⟩,
    fun _ => ⟨rfl, rfl, rfl, rfl, Nat.zero_le _, rfl, rfl⟩⟩

/-! ## The port -/

/-- A request row keeps what its owner keeps. -/
theorem keeps_serve {owner : State → State × Reply} (h : KeepsOwner owner) (tag : Tag) (s : State) :
    Keeps s (serve tag owner s) := by
  unfold serve
  split
  · exact (quiet_answer _ _ _).keeps
  · exact (h s).trans (quiet_answer _ _ _).keeps

/-- What a request row answers. -/
theorem request_next {owner : State → State × Reply} (h : KeepsOwner owner) (most : Nat) (tag : Tag)
    (s : State) : ∃ t, request most tag owner s = .next t ∧ Keeps s t := by
  refine ⟨_, rfl, (quiet_begin s).keeps.trans ?_⟩
  dsimp only
  split
  · exact keeps_serve h tag _
  · exact .rfl

/-- What a row with a change of its own answers. -/
theorem complete_next {f : State → State} (h : ∀ s, Keeps s (f s)) (s : State) :
    ∃ t, complete f s = .next t ∧ Keeps s t :=
  ⟨_, rfl, (quiet_begin s).keeps.trans (h _)⟩

/-! An owner by its argument words: whatever words it is given, what it keeps. -/

theorem keeps_noWords {f : Owner} (h : KeepsOwner f) {args : List Word} {owner : Owner}
    (e : noWords f args = some owner) : KeepsOwner owner := by
  unfold noWords at e
  split at e
  · cases e; exact h
  · cases e

theorem keeps_oneWord {f : Word → Owner} (h : ∀ a, KeepsOwner (f a)) {args : List Word} {owner : Owner}
    (e : oneWord f args = some owner) : KeepsOwner owner := by
  unfold oneWord at e
  split at e
  · cases e; exact h _
  · cases e

theorem keeps_twoArgs {f : Word → Word → Owner} (h : ∀ a b, KeepsOwner (f a b)) {args : List Word} {owner : Owner}
    (e : twoArgs f args = some owner) : KeepsOwner owner := by
  unfold twoArgs at e
  split at e
  · cases e; exact h _ _
  · cases e

theorem keeps_threeArgs {f : Word → Word → Word → Owner} (h : ∀ a b c, KeepsOwner (f a b c)) {args : List Word} {owner : Owner}
    (e : threeArgs f args = some owner) : KeepsOwner owner := by
  unfold threeArgs at e
  split at e
  · cases e; exact h _ _ _
  · cases e

theorem keeps_fourArgs {f : Word → Word → Word → Word → Owner} (h : ∀ a b c d, KeepsOwner (f a b c d)) {args : List Word} {owner : Owner}
    (e : fourArgs f args = some owner) : KeepsOwner owner := by
  unfold fourArgs at e
  split at e
  · cases e; exact h _ _ _ _
  · cases e

theorem keeps_sixArgs {f : Word → Word → Word → Word → Word → Word → Owner} (h : ∀ a b c d e g, KeepsOwner (f a b c d e g)) {args : List Word} {owner : Owner}
    (e : sixArgs f args = some owner) : KeepsOwner owner := by
  unfold sixArgs at e
  split at e
  · cases e; exact h _ _ _ _ _ _
  · cases e

theorem keeps_listArgs {f : Word → List Word → Owner} (h : ∀ a b, KeepsOwner (f a b)) {args : List Word} {owner : Owner}
    (e : listArgs f args = some owner) : KeepsOwner owner := by
  unfold listArgs at e
  split at e
  · cases e; exact h _ _
  · cases e

theorem keeps_folioOwner {digit : Nat} {args : List Word} {owner : Owner}
    (h : folioOwner args digit = some owner) : KeepsOwner owner := by
  unfold folioOwner at h
  split at h
  · exact keeps_oneWord (fun a => (quiet_ownerLookup a).keeps) h
  · exact keeps_threeArgs (fun a b c => (quiet_ownerFind (Long.ofWords a b) c).keeps) h
  · exact keeps_oneWord (fun a => (quiet_ownerNextInMatter a).keeps) h
  · exact keeps_oneWord (fun a => (quiet_ownerReadExceptions a).keeps) h
  · exact keeps_twoArgs (fun a b => (quiet_ownerSetRetention a b).keeps) h
  · exact keeps_threeArgs (fun a b c => (quiet_ownerRefile a (Long.ofWords b c)).keeps) h
  · exact keeps_oneWord (fun a => (quiet_ownerHold a).keeps) h
  · exact keeps_oneWord (fun a => (quiet_ownerRelease a).keeps) h
  · exact keeps_twoArgs (fun a b => (quiet_ownerHoldMatter (Long.ofWords a b)).keeps) h
  · exact keeps_twoArgs (fun a b => (quiet_ownerReleaseMatter (Long.ofWords a b)).keeps) h
  · exact keeps_twoArgs (fun a b => (quiet_ownerRetire a b).keeps) h
  · exact keeps_oneWord (fun a => (quiet_ownerShedImage a).keeps) h
  · exact keeps_oneWord (fun a => (quiet_ownerPurgeSlot a).keeps) h
  · cases h

theorem keeps_assemblerOwner {digit : Nat} {args : List Word} {owner : Owner}
    (h : assemblerOwner args digit = some owner) : KeepsOwner owner := by
  unfold assemblerOwner at h
  split at h
  · exact keeps_sixArgs (fun a b c d e f => (quiet_ownerMountTray a (Long.ofWords b c) d e f).keeps) h
  · exact keeps_oneWord (fun a => (quiet_ownerDismountTray a).keeps) h
  · exact keeps_oneWord (fun a => (quiet_ownerReadTray a).keeps) h
  · exact keeps_oneWord (fun a => (quiet_ownerCloseDocument a).keeps) h
  · cases h

theorem keeps_termOwner {digit : Nat} {args : List Word} {owner : Owner}
    (h : termOwner args digit = some owner) : KeepsOwner owner := by
  unfold termOwner at h
  split at h
  · exact keeps_listArgs (fun a b => (quiet_ownerLoadTerms a b).keeps) h
  · exact keeps_noWords (quiet_ownerClearTerms).keeps h
  · exact keeps_noWords (quiet_ownerCheckTerms).keeps h
  · exact keeps_oneWord (fun a => (quiet_ownerReadTerms a).keeps) h
  · cases h

theorem keeps_pathOwner {digit : Nat} {args : List Word} {owner : Owner}
    (h : pathOwner args digit = some owner) : KeepsOwner owner := by
  unfold pathOwner at h
  split at h
  · exact keeps_noWords (quiet_ownerReadTrain).keeps h
  · exact keeps_oneWord (fun a => (quiet_ownerReadTicket a).keeps) h
  · exact keeps_listArgs (fun a b => (quiet_ownerSetPath a b).keeps) h
  · exact keeps_oneWord (fun a => (quiet_ownerReadPath a).keeps) h
  · exact keeps_noWords (keeps_ownerClearTrain) h
  · exact keeps_twoArgs (fun a b => (quiet_ownerSetSkew a b).keeps) h
  · exact keeps_noWords (quiet_ownerReadSkew).keeps h
  · cases h

theorem keeps_imageOwner {digit : Nat} {args : List Word} {owner : Owner}
    (h : imageOwner args digit = some owner) : KeepsOwner owner := by
  unfold imageOwner at h
  split at h
  · exact keeps_oneWord (fun a => (quiet_ownerSetArbiter a).keeps) h
  · exact keeps_twoArgs (fun a b => (quiet_ownerMaskChannel a b).keeps) h
  · exact keeps_noWords (quiet_ownerReadChannels).keeps h
  · exact keeps_oneWord (fun a => (quiet_ownerVerify a).keeps) h
  · exact keeps_noWords (quiet_ownerCancelVerify).keeps h
  · exact keeps_oneWord (fun a => (quiet_ownerOpenExport a).keeps) h
  · exact keeps_noWords (quiet_ownerCancelExport).keeps h
  · cases h

theorem keeps_batchOwner {digit : Nat} {args : List Word} {owner : Owner}
    (h : batchOwner args digit = some owner) : KeepsOwner owner := by
  unfold batchOwner at h
  split at h
  · exact keeps_fourArgs (fun a b c d => (keeps_ownerStartBatch (Long.ofWords a b) c d)) h
  · exact keeps_noWords (keeps_ownerPauseFeed) h
  · exact keeps_noWords (keeps_ownerResumeFeed) h
  · exact keeps_noWords (keeps_ownerStopBatch) h
  · exact keeps_noWords (keeps_ownerAbortBatch) h
  · exact keeps_noWords (quiet_ownerReadBatch).keeps h
  · cases h

theorem keeps_lineOwner {digit : Nat} {args : List Word} {owner : Owner}
    (h : lineOwner args digit = some owner) : KeepsOwner owner := by
  unfold lineOwner at h
  split at h
  · exact keeps_sixArgs (fun a b c d e f => (keeps_ownerSetLine a b c d e f)) h
  · exact keeps_noWords (quiet_ownerReadLines).keeps h
  · cases h

theorem keeps_ownerOf {code : Nat} {args : List Word} {owner : State → State × Reply}
    (h : ownerOf code args = some owner) : KeepsOwner owner := by
  unfold ownerOf at h
  split at h
  · exact keeps_folioOwner h
  · exact keeps_assemblerOwner h
  · exact keeps_termOwner h
  · exact keeps_pathOwner h
  · exact keeps_imageOwner h
  · exact keeps_batchOwner h
  · exact keeps_lineOwner h
  · cases h

theorem keeps_ownerOrBad (code : Nat) (args : List Word) : KeepsOwner (ownerOrBad code args) := by
  unfold ownerOrBad
  split
  · next h => exact keeps_ownerOf h
  · exact fun _ => .rfl

theorem quiet_writeRequest (w : Word) (s : State) : Quiet s (s.writeRequest w) := by
  unfold State.writeRequest
  split
  · exact .rfl
  · split
    · exact ⟨rfl, rfl, id, fun b => ⟨Nat.zero_le _, b.2⟩⟩
    · next h =>
      refine ⟨rfl, rfl, id, fun b => ⟨?_, b.2⟩⟩
      rw [List.length_append, List.length_singleton]; omega

theorem keeps_takeRequest (s : State) : Keeps s s.takeRequest := by
  unfold State.takeRequest
  split
  · exact .rfl
  · next header rest h =>
    dsimp only
    split
    · exact .rfl
    · refine Keeps.trans (Quiet.keeps (Quiet.rfl.setPort _ ?_)) (keeps_serve (keeps_ownerOrBad _ _) _ _)
      rw [h]
      simp only [List.length_drop, List.length_cons]
      omega

theorem quiet_readReply (s : State) : Quiet s s.readReply := by
  unfold State.readReply
  split <;> exact Quiet.rfl.setPort _

theorem keeps_readNotice (s : State) : Keeps s s.readNotice := by
  unfold State.readNotice
  split
  · exact (Quiet.rfl.setPort _).keeps
  · next n rest h =>
    dsimp only
    split
    · obtain ⟨p1, p2, p3, k, hk, p4⟩ := postKept_keeps
        { s with port.notices := rest, port.noticeAt := 0,
                 port.dataOut := n.words[s.port.noticeAt.val]?.getD 0 }
      have short : Bounded s → rest.length < Config.noticePlaces := fun b => by
        have := b.2.1; rw [h] at this; exact this
      refine ⟨p1, p2, fun b => p3 (short b) ⟨b.1, Nat.le_of_lt (short b), b.2.2⟩, fun l => ?_⟩
      unfold Legal
      rw [p4]
      exact legal_fewer hk l
    · exact (Quiet.rfl.setPort _).keeps

theorem quiet_readStatus (s : State) : Quiet s s.readStatus := by
  unfold State.readStatus; exact Quiet.rfl.setPort _

theorem quiet_writeControl (w : Word) (s : State) : Quiet s (s.writeControl w) := by
  unfold State.writeControl
  exact Quiet.ite (Quiet.rfl.setPort _) .rfl

theorem quiet_writeEnables (w : Word) (s : State) : Quiet s (s.writeEnables w) := by
  unfold State.writeEnables; exact Quiet.rfl.setPort _

theorem quiet_writeIdle (l : IdleLocation) (w : Word) (s : State) : Quiet s (s.writeIdle l w) := by
  unfold State.writeIdle
  split
  · exact .rfl
  · exact quiet_writeControl _ _

end Sys2Proof.Laws
end

