-- ==== Sys2Proof/Laws/State.lean ====
section
/-! SUPPORT. What each named update of the state leaves as it was, one lemma for each field, so that no
later proof unfolds a record update. -/

namespace Sys2Proof.Machine

variable (s : State)

/-- A step begins with an empty journal. -/
@[simp] theorem begin_journal : s.begin.journal = [] := rfl
/-- A step begins with fresh free values. -/
@[simp] theorem begin_draws : s.begin.draws = s.draws + 1 := rfl
/-- A reply joins the reply FIFO. -/
@[simp] theorem answer_replies (tag : Tag) (r : Reply) :
    (s.answer tag r).port.replies = s.port.replies ++ r.words tag := rfl
/-- A written slot reads back with its check word. -/
@[simp] theorem putSlot_record (n : Nat) (r : Record) :
    (s.putSlot n r).record = s.record.write (.slot n (s.slotEntry n) (.of r)) := rfl
/-- A changed train. -/
@[simp] theorem editTicket_train (o : Word) (f : Ticket → Ticket) : (s.editTicket o f).tracker.train =
    s.tracker.train.map fun t => if t.ordinal = o then f t else t := rfl
@[simp] theorem removeTicket_train (o : Word) :
    (s.removeTicket o).tracker.train = s.tracker.train.filter fun t => t.ordinal ≠ o := rfl

/-! ## begin -/

@[simp] theorem begin_port : (s.begin).port = s.port := rfl
@[simp] theorem begin_folio : (s.begin).folio = s.folio := rfl
@[simp] theorem begin_record : (s.begin).record = s.record := rfl
@[simp] theorem begin_assembler : (s.begin).assembler = s.assembler := rfl
@[simp] theorem begin_evaluator : (s.begin).evaluator = s.evaluator := rfl
@[simp] theorem begin_tracker : (s.begin).tracker = s.tracker := rfl
@[simp] theorem begin_engine : (s.begin).engine = s.engine := rfl
@[simp] theorem begin_images : (s.begin).images = s.images := rfl
@[simp] theorem begin_batch : (s.begin).batch = s.batch := rfl
@[simp] theorem begin_lines : (s.begin).lines = s.lines := rfl
@[simp] theorem begin_pending : (s.begin).pending = s.pending := rfl

/-! ## answer -/

@[simp] theorem answer_folio (tag : Tag) (r : Reply) : (s.answer tag r).folio = s.folio := rfl
@[simp] theorem answer_record (tag : Tag) (r : Reply) : (s.answer tag r).record = s.record := rfl
@[simp] theorem answer_assembler (tag : Tag) (r : Reply) :
    (s.answer tag r).assembler = s.assembler := rfl
@[simp] theorem answer_evaluator (tag : Tag) (r : Reply) :
    (s.answer tag r).evaluator = s.evaluator := rfl
@[simp] theorem answer_tracker (tag : Tag) (r : Reply) : (s.answer tag r).tracker = s.tracker := rfl
@[simp] theorem answer_engine (tag : Tag) (r : Reply) : (s.answer tag r).engine = s.engine := rfl
@[simp] theorem answer_images (tag : Tag) (r : Reply) : (s.answer tag r).images = s.images := rfl
@[simp] theorem answer_batch (tag : Tag) (r : Reply) : (s.answer tag r).batch = s.batch := rfl
@[simp] theorem answer_lines (tag : Tag) (r : Reply) : (s.answer tag r).lines = s.lines := rfl
@[simp] theorem answer_journal (tag : Tag) (r : Reply) : (s.answer tag r).journal = s.journal := rfl
@[simp] theorem answer_draws (tag : Tag) (r : Reply) : (s.answer tag r).draws = s.draws := rfl
@[simp] theorem answer_pending (tag : Tag) (r : Reply) : (s.answer tag r).pending = s.pending := rfl
@[simp] theorem answer_port_requests (tag : Tag) (r : Reply) :
    (s.answer tag r).port.requests = s.port.requests := rfl
@[simp] theorem answer_port_notices (tag : Tag) (r : Reply) :
    (s.answer tag r).port.notices = s.port.notices := rfl
@[simp] theorem answer_port_noticeAt (tag : Tag) (r : Reply) :
    (s.answer tag r).port.noticeAt = s.port.noticeAt := rfl
@[simp] theorem answer_port_exports (tag : Tag) (r : Reply) :
    (s.answer tag r).port.exports = s.port.exports := rfl
@[simp] theorem answer_port_statusAt (tag : Tag) (r : Reply) :
    (s.answer tag r).port.statusAt = s.port.statusAt := rfl
@[simp] theorem answer_port_overrun (tag : Tag) (r : Reply) :
    (s.answer tag r).port.overrun = s.port.overrun := rfl
@[simp] theorem answer_port_starting (tag : Tag) (r : Reply) :
    (s.answer tag r).port.starting = s.port.starting := rfl
@[simp] theorem answer_port_enables (tag : Tag) (r : Reply) :
    (s.answer tag r).port.enables = s.port.enables := rfl
@[simp] theorem answer_port_dataOut (tag : Tag) (r : Reply) :
    (s.answer tag r).port.dataOut = s.port.dataOut := rfl

/-! ## writeRecord -/

@[simp] theorem writeRecord_port (w : RecordWrite) : (s.writeRecord w).port = s.port := rfl
@[simp] theorem writeRecord_folio (w : RecordWrite) : (s.writeRecord w).folio = s.folio := rfl
@[simp] theorem writeRecord_assembler (w : RecordWrite) :
    (s.writeRecord w).assembler = s.assembler := rfl
@[simp] theorem writeRecord_evaluator (w : RecordWrite) :
    (s.writeRecord w).evaluator = s.evaluator := rfl
@[simp] theorem writeRecord_tracker (w : RecordWrite) : (s.writeRecord w).tracker = s.tracker := rfl
@[simp] theorem writeRecord_engine (w : RecordWrite) : (s.writeRecord w).engine = s.engine := rfl
@[simp] theorem writeRecord_images (w : RecordWrite) : (s.writeRecord w).images = s.images := rfl
@[simp] theorem writeRecord_batch (w : RecordWrite) : (s.writeRecord w).batch = s.batch := rfl
@[simp] theorem writeRecord_lines (w : RecordWrite) : (s.writeRecord w).lines = s.lines := rfl
@[simp] theorem writeRecord_draws (w : RecordWrite) : (s.writeRecord w).draws = s.draws := rfl
@[simp] theorem writeRecord_pending (w : RecordWrite) : (s.writeRecord w).pending = s.pending := rfl

/-! ## putSlot -/

@[simp] theorem putSlot_port (n : Nat) (r : Record) : (s.putSlot n r).port = s.port := rfl
@[simp] theorem putSlot_folio (n : Nat) (r : Record) : (s.putSlot n r).folio = s.folio := rfl
@[simp] theorem putSlot_assembler (n : Nat) (r : Record) :
    (s.putSlot n r).assembler = s.assembler := rfl
@[simp] theorem putSlot_evaluator (n : Nat) (r : Record) :
    (s.putSlot n r).evaluator = s.evaluator := rfl
@[simp] theorem putSlot_tracker (n : Nat) (r : Record) : (s.putSlot n r).tracker = s.tracker := rfl
@[simp] theorem putSlot_engine (n : Nat) (r : Record) : (s.putSlot n r).engine = s.engine := rfl
@[simp] theorem putSlot_images (n : Nat) (r : Record) : (s.putSlot n r).images = s.images := rfl
@[simp] theorem putSlot_batch (n : Nat) (r : Record) : (s.putSlot n r).batch = s.batch := rfl
@[simp] theorem putSlot_lines (n : Nat) (r : Record) : (s.putSlot n r).lines = s.lines := rfl
@[simp] theorem putSlot_draws (n : Nat) (r : Record) : (s.putSlot n r).draws = s.draws := rfl
@[simp] theorem putSlot_pending (n : Nat) (r : Record) : (s.putSlot n r).pending = s.pending := rfl

/-! ## editSlot -/

@[simp] theorem editSlot_port (n : Nat) (f : Record → Record) :
    (s.editSlot n f).port = s.port := rfl
@[simp] theorem editSlot_folio (n : Nat) (f : Record → Record) :
    (s.editSlot n f).folio = s.folio := rfl
@[simp] theorem editSlot_assembler (n : Nat) (f : Record → Record) :
    (s.editSlot n f).assembler = s.assembler := rfl
@[simp] theorem editSlot_evaluator (n : Nat) (f : Record → Record) :
    (s.editSlot n f).evaluator = s.evaluator := rfl
@[simp] theorem editSlot_tracker (n : Nat) (f : Record → Record) :
    (s.editSlot n f).tracker = s.tracker := rfl
@[simp] theorem editSlot_engine (n : Nat) (f : Record → Record) :
    (s.editSlot n f).engine = s.engine := rfl
@[simp] theorem editSlot_images (n : Nat) (f : Record → Record) :
    (s.editSlot n f).images = s.images := rfl
@[simp] theorem editSlot_batch (n : Nat) (f : Record → Record) :
    (s.editSlot n f).batch = s.batch := rfl
@[simp] theorem editSlot_lines (n : Nat) (f : Record → Record) :
    (s.editSlot n f).lines = s.lines := rfl
@[simp] theorem editSlot_draws (n : Nat) (f : Record → Record) :
    (s.editSlot n f).draws = s.draws := rfl
@[simp] theorem editSlot_pending (n : Nat) (f : Record → Record) :
    (s.editSlot n f).pending = s.pending := rfl

/-! ## putMatter -/

@[simp] theorem putMatter_port (n : Nat) (m : Matter) : (s.putMatter n m).port = s.port := rfl
@[simp] theorem putMatter_folio (n : Nat) (m : Matter) : (s.putMatter n m).folio = s.folio := rfl
@[simp] theorem putMatter_assembler (n : Nat) (m : Matter) :
    (s.putMatter n m).assembler = s.assembler := rfl
@[simp] theorem putMatter_evaluator (n : Nat) (m : Matter) :
    (s.putMatter n m).evaluator = s.evaluator := rfl
@[simp] theorem putMatter_tracker (n : Nat) (m : Matter) :
    (s.putMatter n m).tracker = s.tracker := rfl
@[simp] theorem putMatter_engine (n : Nat) (m : Matter) : (s.putMatter n m).engine = s.engine := rfl
@[simp] theorem putMatter_images (n : Nat) (m : Matter) : (s.putMatter n m).images = s.images := rfl
@[simp] theorem putMatter_batch (n : Nat) (m : Matter) : (s.putMatter n m).batch = s.batch := rfl
@[simp] theorem putMatter_lines (n : Nat) (m : Matter) : (s.putMatter n m).lines = s.lines := rfl
@[simp] theorem putMatter_draws (n : Nat) (m : Matter) : (s.putMatter n m).draws = s.draws := rfl
@[simp] theorem putMatter_pending (n : Nat) (m : Matter) :
    (s.putMatter n m).pending = s.pending := rfl

/-! ## editMatter -/

@[simp] theorem editMatter_port (n : Nat) (f : Matter → Matter) :
    (s.editMatter n f).port = s.port := rfl
@[simp] theorem editMatter_folio (n : Nat) (f : Matter → Matter) :
    (s.editMatter n f).folio = s.folio := rfl
@[simp] theorem editMatter_assembler (n : Nat) (f : Matter → Matter) :
    (s.editMatter n f).assembler = s.assembler := rfl
@[simp] theorem editMatter_evaluator (n : Nat) (f : Matter → Matter) :
    (s.editMatter n f).evaluator = s.evaluator := rfl
@[simp] theorem editMatter_tracker (n : Nat) (f : Matter → Matter) :
    (s.editMatter n f).tracker = s.tracker := rfl
@[simp] theorem editMatter_engine (n : Nat) (f : Matter → Matter) :
    (s.editMatter n f).engine = s.engine := rfl
@[simp] theorem editMatter_images (n : Nat) (f : Matter → Matter) :
    (s.editMatter n f).images = s.images := rfl
@[simp] theorem editMatter_batch (n : Nat) (f : Matter → Matter) :
    (s.editMatter n f).batch = s.batch := rfl
@[simp] theorem editMatter_lines (n : Nat) (f : Matter → Matter) :
    (s.editMatter n f).lines = s.lines := rfl
@[simp] theorem editMatter_draws (n : Nat) (f : Matter → Matter) :
    (s.editMatter n f).draws = s.draws := rfl
@[simp] theorem editMatter_pending (n : Nat) (f : Matter → Matter) :
    (s.editMatter n f).pending = s.pending := rfl

/-! ## putLink -/

@[simp] theorem putLink_port (n : Nat) (l : Link) : (s.putLink n l).port = s.port := rfl
@[simp] theorem putLink_folio (n : Nat) (l : Link) : (s.putLink n l).folio = s.folio := rfl
@[simp] theorem putLink_assembler (n : Nat) (l : Link) :
    (s.putLink n l).assembler = s.assembler := rfl
@[simp] theorem putLink_evaluator (n : Nat) (l : Link) :
    (s.putLink n l).evaluator = s.evaluator := rfl
@[simp] theorem putLink_tracker (n : Nat) (l : Link) : (s.putLink n l).tracker = s.tracker := rfl
@[simp] theorem putLink_engine (n : Nat) (l : Link) : (s.putLink n l).engine = s.engine := rfl
@[simp] theorem putLink_images (n : Nat) (l : Link) : (s.putLink n l).images = s.images := rfl
@[simp] theorem putLink_batch (n : Nat) (l : Link) : (s.putLink n l).batch = s.batch := rfl
@[simp] theorem putLink_lines (n : Nat) (l : Link) : (s.putLink n l).lines = s.lines := rfl
@[simp] theorem putLink_draws (n : Nat) (l : Link) : (s.putLink n l).draws = s.draws := rfl
@[simp] theorem putLink_pending (n : Nat) (l : Link) : (s.putLink n l).pending = s.pending := rfl

/-! ## putNext -/

@[simp] theorem putNext_port (n : Nat) (p : Option Nat) : (s.putNext n p).port = s.port := rfl
@[simp] theorem putNext_folio (n : Nat) (p : Option Nat) : (s.putNext n p).folio = s.folio := rfl
@[simp] theorem putNext_assembler (n : Nat) (p : Option Nat) :
    (s.putNext n p).assembler = s.assembler := rfl
@[simp] theorem putNext_evaluator (n : Nat) (p : Option Nat) :
    (s.putNext n p).evaluator = s.evaluator := rfl
@[simp] theorem putNext_tracker (n : Nat) (p : Option Nat) :
    (s.putNext n p).tracker = s.tracker := rfl
@[simp] theorem putNext_engine (n : Nat) (p : Option Nat) : (s.putNext n p).engine = s.engine := rfl
@[simp] theorem putNext_images (n : Nat) (p : Option Nat) : (s.putNext n p).images = s.images := rfl
@[simp] theorem putNext_batch (n : Nat) (p : Option Nat) : (s.putNext n p).batch = s.batch := rfl
@[simp] theorem putNext_lines (n : Nat) (p : Option Nat) : (s.putNext n p).lines = s.lines := rfl
@[simp] theorem putNext_draws (n : Nat) (p : Option Nat) : (s.putNext n p).draws = s.draws := rfl
@[simp] theorem putNext_pending (n : Nat) (p : Option Nat) :
    (s.putNext n p).pending = s.pending := rfl

/-! ## editTicket -/

@[simp] theorem editTicket_port (o : Word) (f : Ticket → Ticket) :
    (s.editTicket o f).port = s.port := rfl
@[simp] theorem editTicket_folio (o : Word) (f : Ticket → Ticket) :
    (s.editTicket o f).folio = s.folio := rfl
@[simp] theorem editTicket_record (o : Word) (f : Ticket → Ticket) :
    (s.editTicket o f).record = s.record := rfl
@[simp] theorem editTicket_assembler (o : Word) (f : Ticket → Ticket) :
    (s.editTicket o f).assembler = s.assembler := rfl
@[simp] theorem editTicket_evaluator (o : Word) (f : Ticket → Ticket) :
    (s.editTicket o f).evaluator = s.evaluator := rfl
@[simp] theorem editTicket_engine (o : Word) (f : Ticket → Ticket) :
    (s.editTicket o f).engine = s.engine := rfl
@[simp] theorem editTicket_images (o : Word) (f : Ticket → Ticket) :
    (s.editTicket o f).images = s.images := rfl
@[simp] theorem editTicket_batch (o : Word) (f : Ticket → Ticket) :
    (s.editTicket o f).batch = s.batch := rfl
@[simp] theorem editTicket_lines (o : Word) (f : Ticket → Ticket) :
    (s.editTicket o f).lines = s.lines := rfl
@[simp] theorem editTicket_journal (o : Word) (f : Ticket → Ticket) :
    (s.editTicket o f).journal = s.journal := rfl
@[simp] theorem editTicket_draws (o : Word) (f : Ticket → Ticket) :
    (s.editTicket o f).draws = s.draws := rfl
@[simp] theorem editTicket_pending (o : Word) (f : Ticket → Ticket) :
    (s.editTicket o f).pending = s.pending := rfl
@[simp] theorem editTicket_tracker_travel (o : Word) (f : Ticket → Ticket) :
    (s.editTicket o f).tracker.travel = s.tracker.travel := rfl
@[simp] theorem editTicket_tracker_nextOrdinal (o : Word) (f : Ticket → Ticket) :
    (s.editTicket o f).tracker.nextOrdinal = s.tracker.nextOrdinal := rfl
@[simp] theorem editTicket_tracker_lastEntryTrailing (o : Word) (f : Ticket → Ticket) :
    (s.editTicket o f).tracker.lastEntryTrailing = s.tracker.lastEntryTrailing := rfl
@[simp] theorem editTicket_tracker_profile (o : Word) (f : Ticket → Ticket) :
    (s.editTicket o f).tracker.profile = s.tracker.profile := rfl
@[simp] theorem editTicket_tracker_stopped (o : Word) (f : Ticket → Ticket) :
    (s.editTicket o f).tracker.stopped = s.tracker.stopped := rfl
@[simp] theorem editTicket_tracker_stallTimer (o : Word) (f : Ticket → Ticket) :
    (s.editTicket o f).tracker.stallTimer = s.tracker.stallTimer := rfl

/-! ## removeTicket -/

@[simp] theorem removeTicket_port (o : Word) : (s.removeTicket o).port = s.port := rfl
@[simp] theorem removeTicket_folio (o : Word) : (s.removeTicket o).folio = s.folio := rfl
@[simp] theorem removeTicket_record (o : Word) : (s.removeTicket o).record = s.record := rfl
@[simp] theorem removeTicket_assembler (o : Word) :
    (s.removeTicket o).assembler = s.assembler := rfl
@[simp] theorem removeTicket_evaluator (o : Word) :
    (s.removeTicket o).evaluator = s.evaluator := rfl
@[simp] theorem removeTicket_engine (o : Word) : (s.removeTicket o).engine = s.engine := rfl
@[simp] theorem removeTicket_images (o : Word) : (s.removeTicket o).images = s.images := rfl
@[simp] theorem removeTicket_batch (o : Word) : (s.removeTicket o).batch = s.batch := rfl
@[simp] theorem removeTicket_lines (o : Word) : (s.removeTicket o).lines = s.lines := rfl
@[simp] theorem removeTicket_journal (o : Word) : (s.removeTicket o).journal = s.journal := rfl
@[simp] theorem removeTicket_draws (o : Word) : (s.removeTicket o).draws = s.draws := rfl
@[simp] theorem removeTicket_pending (o : Word) : (s.removeTicket o).pending = s.pending := rfl
@[simp] theorem removeTicket_tracker_travel (o : Word) :
    (s.removeTicket o).tracker.travel = s.tracker.travel := rfl
@[simp] theorem removeTicket_tracker_nextOrdinal (o : Word) :
    (s.removeTicket o).tracker.nextOrdinal = s.tracker.nextOrdinal := rfl
@[simp] theorem removeTicket_tracker_lastEntryTrailing (o : Word) :
    (s.removeTicket o).tracker.lastEntryTrailing = s.tracker.lastEntryTrailing := rfl
@[simp] theorem removeTicket_tracker_profile (o : Word) :
    (s.removeTicket o).tracker.profile = s.tracker.profile := rfl
@[simp] theorem removeTicket_tracker_stopped (o : Word) :
    (s.removeTicket o).tracker.stopped = s.tracker.stopped := rfl
@[simp] theorem removeTicket_tracker_stallTimer (o : Word) :
    (s.removeTicket o).tracker.stallTimer = s.tracker.stallTimer := rfl

/-! ## editTray -/

@[simp] theorem editTray_port (t : TrayIx) (f : Tray → Tray) : (s.editTray t f).port = s.port := rfl
@[simp] theorem editTray_folio (t : TrayIx) (f : Tray → Tray) :
    (s.editTray t f).folio = s.folio := rfl
@[simp] theorem editTray_record (t : TrayIx) (f : Tray → Tray) :
    (s.editTray t f).record = s.record := rfl
@[simp] theorem editTray_evaluator (t : TrayIx) (f : Tray → Tray) :
    (s.editTray t f).evaluator = s.evaluator := rfl
@[simp] theorem editTray_tracker (t : TrayIx) (f : Tray → Tray) :
    (s.editTray t f).tracker = s.tracker := rfl
@[simp] theorem editTray_engine (t : TrayIx) (f : Tray → Tray) :
    (s.editTray t f).engine = s.engine := rfl
@[simp] theorem editTray_images (t : TrayIx) (f : Tray → Tray) :
    (s.editTray t f).images = s.images := rfl
@[simp] theorem editTray_batch (t : TrayIx) (f : Tray → Tray) :
    (s.editTray t f).batch = s.batch := rfl
@[simp] theorem editTray_lines (t : TrayIx) (f : Tray → Tray) :
    (s.editTray t f).lines = s.lines := rfl
@[simp] theorem editTray_journal (t : TrayIx) (f : Tray → Tray) :
    (s.editTray t f).journal = s.journal := rfl
@[simp] theorem editTray_draws (t : TrayIx) (f : Tray → Tray) :
    (s.editTray t f).draws = s.draws := rfl
@[simp] theorem editTray_pending (t : TrayIx) (f : Tray → Tray) :
    (s.editTray t f).pending = s.pending := rfl
@[simp] theorem editTray_assembler_openDocument (t : TrayIx) (f : Tray → Tray) :
    (s.editTray t f).assembler.openDocument = s.assembler.openDocument := rfl
@[simp] theorem editTray_assembler_marker (t : TrayIx) (f : Tray → Tray) :
    (s.editTray t f).assembler.marker = s.assembler.marker := rfl
@[simp] theorem editTray_assembler_lastClosed (t : TrayIx) (f : Tray → Tray) :
    (s.editTray t f).assembler.lastClosed = s.assembler.lastClosed := rfl
@[simp] theorem editTray_assembler_rotation (t : TrayIx) (f : Tray → Tray) :
    (s.editTray t f).assembler.rotation = s.assembler.rotation := rfl
@[simp] theorem editTray_assembler_outcomes (t : TrayIx) (f : Tray → Tray) :
    (s.editTray t f).assembler.outcomes = s.assembler.outcomes := rfl

/-! ## editSide -/

@[simp] theorem editSide_port (d : Side) (f : DeskewSide → DeskewSide) :
    (s.editSide d f).port = s.port := by cases d <;> rfl
@[simp] theorem editSide_folio (d : Side) (f : DeskewSide → DeskewSide) :
    (s.editSide d f).folio = s.folio := by cases d <;> rfl
@[simp] theorem editSide_record (d : Side) (f : DeskewSide → DeskewSide) :
    (s.editSide d f).record = s.record := by cases d <;> rfl
@[simp] theorem editSide_assembler (d : Side) (f : DeskewSide → DeskewSide) :
    (s.editSide d f).assembler = s.assembler := by cases d <;> rfl
@[simp] theorem editSide_evaluator (d : Side) (f : DeskewSide → DeskewSide) :
    (s.editSide d f).evaluator = s.evaluator := by cases d <;> rfl
@[simp] theorem editSide_tracker (d : Side) (f : DeskewSide → DeskewSide) :
    (s.editSide d f).tracker = s.tracker := by cases d <;> rfl
@[simp] theorem editSide_images (d : Side) (f : DeskewSide → DeskewSide) :
    (s.editSide d f).images = s.images := by cases d <;> rfl
@[simp] theorem editSide_batch (d : Side) (f : DeskewSide → DeskewSide) :
    (s.editSide d f).batch = s.batch := by cases d <;> rfl
@[simp] theorem editSide_lines (d : Side) (f : DeskewSide → DeskewSide) :
    (s.editSide d f).lines = s.lines := by cases d <;> rfl
@[simp] theorem editSide_journal (d : Side) (f : DeskewSide → DeskewSide) :
    (s.editSide d f).journal = s.journal := by cases d <;> rfl
@[simp] theorem editSide_draws (d : Side) (f : DeskewSide → DeskewSide) :
    (s.editSide d f).draws = s.draws := by cases d <;> rfl
@[simp] theorem editSide_pending (d : Side) (f : DeskewSide → DeskewSide) :
    (s.editSide d f).pending = s.pending := by cases d <;> rfl

/-! ## editCapture -/

@[simp] theorem editCapture_port (d : Side) (f : CaptureChannel → CaptureChannel) :
    (s.editCapture d f).port = s.port := by cases d <;> rfl
@[simp] theorem editCapture_folio (d : Side) (f : CaptureChannel → CaptureChannel) :
    (s.editCapture d f).folio = s.folio := by cases d <;> rfl
@[simp] theorem editCapture_record (d : Side) (f : CaptureChannel → CaptureChannel) :
    (s.editCapture d f).record = s.record := by cases d <;> rfl
@[simp] theorem editCapture_assembler (d : Side) (f : CaptureChannel → CaptureChannel) :
    (s.editCapture d f).assembler = s.assembler := by cases d <;> rfl
@[simp] theorem editCapture_evaluator (d : Side) (f : CaptureChannel → CaptureChannel) :
    (s.editCapture d f).evaluator = s.evaluator := by cases d <;> rfl
@[simp] theorem editCapture_tracker (d : Side) (f : CaptureChannel → CaptureChannel) :
    (s.editCapture d f).tracker = s.tracker := by cases d <;> rfl
@[simp] theorem editCapture_engine (d : Side) (f : CaptureChannel → CaptureChannel) :
    (s.editCapture d f).engine = s.engine := by cases d <;> rfl
@[simp] theorem editCapture_batch (d : Side) (f : CaptureChannel → CaptureChannel) :
    (s.editCapture d f).batch = s.batch := by cases d <;> rfl
@[simp] theorem editCapture_lines (d : Side) (f : CaptureChannel → CaptureChannel) :
    (s.editCapture d f).lines = s.lines := by cases d <;> rfl
@[simp] theorem editCapture_journal (d : Side) (f : CaptureChannel → CaptureChannel) :
    (s.editCapture d f).journal = s.journal := by cases d <;> rfl
@[simp] theorem editCapture_draws (d : Side) (f : CaptureChannel → CaptureChannel) :
    (s.editCapture d f).draws = s.draws := by cases d <;> rfl
@[simp] theorem editCapture_pending (d : Side) (f : CaptureChannel → CaptureChannel) :
    (s.editCapture d f).pending = s.pending := by cases d <;> rfl

/-! ## drive -/

@[simp] theorem drive_port (l : LineIx) (d : Drive) : (s.drive l d).port = s.port := rfl
@[simp] theorem drive_folio (l : LineIx) (d : Drive) : (s.drive l d).folio = s.folio := rfl
@[simp] theorem drive_record (l : LineIx) (d : Drive) : (s.drive l d).record = s.record := rfl
@[simp] theorem drive_assembler (l : LineIx) (d : Drive) :
    (s.drive l d).assembler = s.assembler := rfl
@[simp] theorem drive_evaluator (l : LineIx) (d : Drive) :
    (s.drive l d).evaluator = s.evaluator := rfl
@[simp] theorem drive_tracker (l : LineIx) (d : Drive) : (s.drive l d).tracker = s.tracker := rfl
@[simp] theorem drive_engine (l : LineIx) (d : Drive) : (s.drive l d).engine = s.engine := rfl
@[simp] theorem drive_images (l : LineIx) (d : Drive) : (s.drive l d).images = s.images := rfl
@[simp] theorem drive_batch (l : LineIx) (d : Drive) : (s.drive l d).batch = s.batch := rfl
@[simp] theorem drive_journal (l : LineIx) (d : Drive) : (s.drive l d).journal = s.journal := rfl
@[simp] theorem drive_draws (l : LineIx) (d : Drive) : (s.drive l d).draws = s.draws := rfl
@[simp] theorem drive_pending (l : LineIx) (d : Drive) : (s.drive l d).pending = s.pending := rfl
@[simp] theorem drive_lines_settings (l : LineIx) (d : Drive) :
    (s.drive l d).lines.settings = s.lines.settings := rfl

/-! ## indexMatter -/

@[simp] theorem indexMatter_port (n : Long) (p : Nat) : (s.indexMatter n p).port = s.port := rfl
@[simp] theorem indexMatter_record (n : Long) (p : Nat) :
    (s.indexMatter n p).record = s.record := rfl
@[simp] theorem indexMatter_assembler (n : Long) (p : Nat) :
    (s.indexMatter n p).assembler = s.assembler := rfl
@[simp] theorem indexMatter_evaluator (n : Long) (p : Nat) :
    (s.indexMatter n p).evaluator = s.evaluator := rfl
@[simp] theorem indexMatter_tracker (n : Long) (p : Nat) :
    (s.indexMatter n p).tracker = s.tracker := rfl
@[simp] theorem indexMatter_engine (n : Long) (p : Nat) :
    (s.indexMatter n p).engine = s.engine := rfl
@[simp] theorem indexMatter_images (n : Long) (p : Nat) :
    (s.indexMatter n p).images = s.images := rfl
@[simp] theorem indexMatter_batch (n : Long) (p : Nat) : (s.indexMatter n p).batch = s.batch := rfl
@[simp] theorem indexMatter_lines (n : Long) (p : Nat) : (s.indexMatter n p).lines = s.lines := rfl
@[simp] theorem indexMatter_journal (n : Long) (p : Nat) :
    (s.indexMatter n p).journal = s.journal := rfl
@[simp] theorem indexMatter_draws (n : Long) (p : Nat) : (s.indexMatter n p).draws = s.draws := rfl
@[simp] theorem indexMatter_pending (n : Long) (p : Nat) :
    (s.indexMatter n p).pending = s.pending := rfl
@[simp] theorem indexMatter_folio_auditMark (n : Long) (p : Nat) :
    (s.indexMatter n p).folio.auditMark = s.folio.auditMark := rfl
@[simp] theorem indexMatter_folio_exportMark (n : Long) (p : Nat) :
    (s.indexMatter n p).folio.exportMark = s.folio.exportMark := rfl
@[simp] theorem indexMatter_folio_freeSlots (n : Long) (p : Nat) :
    (s.indexMatter n p).folio.freeSlots = s.folio.freeSlots := rfl
@[simp] theorem indexMatter_folio_kept (n : Long) (p : Nat) :
    (s.indexMatter n p).folio.kept = s.folio.kept := rfl

/-! ## openMeasurement -/

@[simp] theorem openMeasurement_port (o : Word) (x : Sensor) :
    (s.openMeasurement o x).port = s.port := rfl
@[simp] theorem openMeasurement_folio (o : Word) (x : Sensor) :
    (s.openMeasurement o x).folio = s.folio := rfl
@[simp] theorem openMeasurement_record (o : Word) (x : Sensor) :
    (s.openMeasurement o x).record = s.record := rfl
@[simp] theorem openMeasurement_assembler (o : Word) (x : Sensor) :
    (s.openMeasurement o x).assembler = s.assembler := rfl
@[simp] theorem openMeasurement_evaluator (o : Word) (x : Sensor) :
    (s.openMeasurement o x).evaluator = s.evaluator := rfl
@[simp] theorem openMeasurement_tracker (o : Word) (x : Sensor) :
    (s.openMeasurement o x).tracker = s.tracker := rfl
@[simp] theorem openMeasurement_images (o : Word) (x : Sensor) :
    (s.openMeasurement o x).images = s.images := rfl
@[simp] theorem openMeasurement_batch (o : Word) (x : Sensor) :
    (s.openMeasurement o x).batch = s.batch := rfl
@[simp] theorem openMeasurement_lines (o : Word) (x : Sensor) :
    (s.openMeasurement o x).lines = s.lines := rfl
@[simp] theorem openMeasurement_journal (o : Word) (x : Sensor) :
    (s.openMeasurement o x).journal = s.journal := rfl
@[simp] theorem openMeasurement_draws (o : Word) (x : Sensor) :
    (s.openMeasurement o x).draws = s.draws := rfl
@[simp] theorem openMeasurement_pending (o : Word) (x : Sensor) :
    (s.openMeasurement o x).pending = s.pending := rfl

/-! ## setAudit -/

@[simp] theorem setAudit_port (x : RunState) (r : AuditRun) : (s.setAudit x r).port = s.port := rfl
@[simp] theorem setAudit_folio (x : RunState) (r : AuditRun) :
    (s.setAudit x r).folio = s.folio := rfl
@[simp] theorem setAudit_record (x : RunState) (r : AuditRun) :
    (s.setAudit x r).record = s.record := rfl
@[simp] theorem setAudit_assembler (x : RunState) (r : AuditRun) :
    (s.setAudit x r).assembler = s.assembler := rfl
@[simp] theorem setAudit_evaluator (x : RunState) (r : AuditRun) :
    (s.setAudit x r).evaluator = s.evaluator := rfl
@[simp] theorem setAudit_tracker (x : RunState) (r : AuditRun) :
    (s.setAudit x r).tracker = s.tracker := rfl
@[simp] theorem setAudit_engine (x : RunState) (r : AuditRun) :
    (s.setAudit x r).engine = s.engine := rfl
@[simp] theorem setAudit_batch (x : RunState) (r : AuditRun) :
    (s.setAudit x r).batch = s.batch := rfl
@[simp] theorem setAudit_lines (x : RunState) (r : AuditRun) :
    (s.setAudit x r).lines = s.lines := rfl
@[simp] theorem setAudit_journal (x : RunState) (r : AuditRun) :
    (s.setAudit x r).journal = s.journal := rfl
@[simp] theorem setAudit_draws (x : RunState) (r : AuditRun) :
    (s.setAudit x r).draws = s.draws := rfl
@[simp] theorem setAudit_pending (x : RunState) (r : AuditRun) :
    (s.setAudit x r).pending = s.pending := rfl

/-! ## setExport -/

@[simp] theorem setExport_port (x : RunState) (r : ExportRun) :
    (s.setExport x r).port = s.port := rfl
@[simp] theorem setExport_folio (x : RunState) (r : ExportRun) :
    (s.setExport x r).folio = s.folio := rfl
@[simp] theorem setExport_record (x : RunState) (r : ExportRun) :
    (s.setExport x r).record = s.record := rfl
@[simp] theorem setExport_assembler (x : RunState) (r : ExportRun) :
    (s.setExport x r).assembler = s.assembler := rfl
@[simp] theorem setExport_evaluator (x : RunState) (r : ExportRun) :
    (s.setExport x r).evaluator = s.evaluator := rfl
@[simp] theorem setExport_tracker (x : RunState) (r : ExportRun) :
    (s.setExport x r).tracker = s.tracker := rfl
@[simp] theorem setExport_engine (x : RunState) (r : ExportRun) :
    (s.setExport x r).engine = s.engine := rfl
@[simp] theorem setExport_batch (x : RunState) (r : ExportRun) :
    (s.setExport x r).batch = s.batch := rfl
@[simp] theorem setExport_lines (x : RunState) (r : ExportRun) :
    (s.setExport x r).lines = s.lines := rfl
@[simp] theorem setExport_journal (x : RunState) (r : ExportRun) :
    (s.setExport x r).journal = s.journal := rfl
@[simp] theorem setExport_draws (x : RunState) (r : ExportRun) :
    (s.setExport x r).draws = s.draws := rfl
@[simp] theorem setExport_pending (x : RunState) (r : ExportRun) :
    (s.setExport x r).pending = s.pending := rfl

/-! ## placeWords -/

@[simp] theorem placeWords_folio (ws : List Word) : (s.placeWords ws).folio = s.folio := rfl
@[simp] theorem placeWords_record (ws : List Word) : (s.placeWords ws).record = s.record := rfl
@[simp] theorem placeWords_assembler (ws : List Word) :
    (s.placeWords ws).assembler = s.assembler := rfl
@[simp] theorem placeWords_evaluator (ws : List Word) :
    (s.placeWords ws).evaluator = s.evaluator := rfl
@[simp] theorem placeWords_tracker (ws : List Word) : (s.placeWords ws).tracker = s.tracker := rfl
@[simp] theorem placeWords_engine (ws : List Word) : (s.placeWords ws).engine = s.engine := rfl
@[simp] theorem placeWords_images (ws : List Word) : (s.placeWords ws).images = s.images := rfl
@[simp] theorem placeWords_batch (ws : List Word) : (s.placeWords ws).batch = s.batch := rfl
@[simp] theorem placeWords_lines (ws : List Word) : (s.placeWords ws).lines = s.lines := rfl
@[simp] theorem placeWords_journal (ws : List Word) : (s.placeWords ws).journal = s.journal := rfl
@[simp] theorem placeWords_draws (ws : List Word) : (s.placeWords ws).draws = s.draws := rfl
@[simp] theorem placeWords_pending (ws : List Word) : (s.placeWords ws).pending = s.pending := rfl
@[simp] theorem placeWords_port_requests (ws : List Word) :
    (s.placeWords ws).port.requests = s.port.requests := rfl
@[simp] theorem placeWords_port_replies (ws : List Word) :
    (s.placeWords ws).port.replies = s.port.replies := rfl
@[simp] theorem placeWords_port_notices (ws : List Word) :
    (s.placeWords ws).port.notices = s.port.notices := rfl
@[simp] theorem placeWords_port_noticeAt (ws : List Word) :
    (s.placeWords ws).port.noticeAt = s.port.noticeAt := rfl
@[simp] theorem placeWords_port_statusAt (ws : List Word) :
    (s.placeWords ws).port.statusAt = s.port.statusAt := rfl
@[simp] theorem placeWords_port_overrun (ws : List Word) :
    (s.placeWords ws).port.overrun = s.port.overrun := rfl
@[simp] theorem placeWords_port_starting (ws : List Word) :
    (s.placeWords ws).port.starting = s.port.starting := rfl
@[simp] theorem placeWords_port_enables (ws : List Word) :
    (s.placeWords ws).port.enables = s.port.enables := rfl
@[simp] theorem placeWords_port_dataOut (ws : List Word) :
    (s.placeWords ws).port.dataOut = s.port.dataOut := rfl

/-! ## writeBand -/

@[simp] theorem writeBand_port (t : Transfer) : (s.writeBand t).port = s.port := rfl
@[simp] theorem writeBand_folio (t : Transfer) : (s.writeBand t).folio = s.folio := rfl
@[simp] theorem writeBand_record (t : Transfer) : (s.writeBand t).record = s.record := rfl
@[simp] theorem writeBand_assembler (t : Transfer) : (s.writeBand t).assembler = s.assembler := rfl
@[simp] theorem writeBand_evaluator (t : Transfer) : (s.writeBand t).evaluator = s.evaluator := rfl
@[simp] theorem writeBand_tracker (t : Transfer) : (s.writeBand t).tracker = s.tracker := rfl
@[simp] theorem writeBand_engine (t : Transfer) : (s.writeBand t).engine = s.engine := rfl
@[simp] theorem writeBand_batch (t : Transfer) : (s.writeBand t).batch = s.batch := rfl
@[simp] theorem writeBand_lines (t : Transfer) : (s.writeBand t).lines = s.lines := rfl
@[simp] theorem writeBand_journal (t : Transfer) : (s.writeBand t).journal = s.journal := rfl
@[simp] theorem writeBand_draws (t : Transfer) : (s.writeBand t).draws = s.draws := rfl
@[simp] theorem writeBand_pending (t : Transfer) : (s.writeBand t).pending = s.pending := rfl
@[simp] theorem writeBand_images_free (t : Transfer) :
    (s.writeBand t).images.free = s.images.free := rfl
@[simp] theorem writeBand_images_front (t : Transfer) :
    (s.writeBand t).images.front = s.images.front := rfl
@[simp] theorem writeBand_images_back (t : Transfer) :
    (s.writeBand t).images.back = s.images.back := rfl
@[simp] theorem writeBand_images_audit (t : Transfer) :
    (s.writeBand t).images.audit = s.images.audit := rfl
@[simp] theorem writeBand_images_exporter (t : Transfer) :
    (s.writeBand t).images.exporter = s.images.exporter := rfl
@[simp] theorem writeBand_images_mode (t : Transfer) :
    (s.writeBand t).images.mode = s.images.mode := rfl
@[simp] theorem writeBand_images_order (t : Transfer) :
    (s.writeBand t).images.order = s.images.order := rfl
@[simp] theorem writeBand_images_transfer (t : Transfer) :
    (s.writeBand t).images.transfer = s.images.transfer := rfl

/-! ## freezeCaptures -/

@[simp] theorem freezeCaptures_port : (s.freezeCaptures).port = s.port := rfl
@[simp] theorem freezeCaptures_folio : (s.freezeCaptures).folio = s.folio := rfl
@[simp] theorem freezeCaptures_record : (s.freezeCaptures).record = s.record := rfl
@[simp] theorem freezeCaptures_assembler : (s.freezeCaptures).assembler = s.assembler := rfl
@[simp] theorem freezeCaptures_evaluator : (s.freezeCaptures).evaluator = s.evaluator := rfl
@[simp] theorem freezeCaptures_tracker : (s.freezeCaptures).tracker = s.tracker := rfl
@[simp] theorem freezeCaptures_engine : (s.freezeCaptures).engine = s.engine := rfl
@[simp] theorem freezeCaptures_batch : (s.freezeCaptures).batch = s.batch := rfl
@[simp] theorem freezeCaptures_lines : (s.freezeCaptures).lines = s.lines := rfl
@[simp] theorem freezeCaptures_journal : (s.freezeCaptures).journal = s.journal := rfl
@[simp] theorem freezeCaptures_draws : (s.freezeCaptures).draws = s.draws := rfl
@[simp] theorem freezeCaptures_pending : (s.freezeCaptures).pending = s.pending := rfl

/-! ## clearCaptures -/

@[simp] theorem clearCaptures_port : (s.clearCaptures).port = s.port := rfl
@[simp] theorem clearCaptures_folio : (s.clearCaptures).folio = s.folio := rfl
@[simp] theorem clearCaptures_record : (s.clearCaptures).record = s.record := rfl
@[simp] theorem clearCaptures_assembler : (s.clearCaptures).assembler = s.assembler := rfl
@[simp] theorem clearCaptures_evaluator : (s.clearCaptures).evaluator = s.evaluator := rfl
@[simp] theorem clearCaptures_tracker : (s.clearCaptures).tracker = s.tracker := rfl
@[simp] theorem clearCaptures_engine : (s.clearCaptures).engine = s.engine := rfl
@[simp] theorem clearCaptures_batch : (s.clearCaptures).batch = s.batch := rfl
@[simp] theorem clearCaptures_lines : (s.clearCaptures).lines = s.lines := rfl
@[simp] theorem clearCaptures_journal : (s.clearCaptures).journal = s.journal := rfl
@[simp] theorem clearCaptures_draws : (s.clearCaptures).draws = s.draws := rfl
@[simp] theorem clearCaptures_pending : (s.clearCaptures).pending = s.pending := rfl

end Sys2Proof.Machine
end

