-- ==== Sys2Proof/Laws/Record.lean ====
section
/-! SUPPORT. What a write of record memory leaves to be read, entry by entry and byte by byte, what the
shared request operation answers, and what the part of the state a block does not own keeps. -/

namespace Sys2Proof.Laws

open Sys2Proof.Machine Sys2Proof.Safety

/-! ## Entries after a write -/

theorem slotEntry_congr {s t : State} (h : t.record = s.record) (n : Nat) :
    t.slotEntry n = s.slotEntry n := by unfold State.slotEntry; rw [h]
theorem placeEntry_congr {s t : State} (h : t.record = s.record) (n : Nat) :
    t.placeEntry n = s.placeEntry n := by unfold State.placeEntry; rw [h]
theorem link_congr {s t : State} (h : t.record = s.record) (n : Nat) : t.link n = s.link n := by
  unfold State.link; rw [h]
theorem slot_congr {s t : State} (h : t.record = s.record) (n : Nat) : t.slot n = s.slot n := by
  unfold State.slot; rw [slotEntry_congr h]
theorem matterAt_congr {s t : State} (h : t.record = s.record) (n : Nat) :
    t.matterAt n = s.matterAt n := by unfold State.matterAt; rw [placeEntry_congr h]
theorem recordByte_congr {s t : State} (h : t.record = s.record) (a : Nat) :
    t.recordByte a = s.recordByte a := by
  unfold State.recordByte; simp only [slotEntry_congr h, placeEntry_congr h, link_congr h]

/-- A written slot reads as its record with a check word computed afresh. -/
theorem slotEntry_putSlot {s : State} (h : Canonical s) (n : Nat) (r : Record) :
    (s.putSlot n r).slotEntry n = .of r :=
  Table.get_set_same _ _ _ _ (by
    have := h.1; simp only [RecordMemory.wf, Bool.and_eq_true] at this; exact this.1.1)

theorem slotEntry_putSlot_ne (s : State) {n m : Nat} (h : m ≠ n) (r : Record) :
    (s.putSlot n r).slotEntry m = s.slotEntry m := Table.get_set_ne _ h _ _

theorem slot_putSlot {s : State} (h : Canonical s) (n : Nat) (r : Record) :
    (s.putSlot n r).slot n = r := by unfold State.slot; rw [slotEntry_putSlot h]; rfl

theorem slot_putSlot_ne (s : State) {n m : Nat} (h : m ≠ n) (r : Record) :
    (s.putSlot n r).slot m = s.slot m := by unfold State.slot; rw [slotEntry_putSlot_ne s h]

theorem placeEntry_putSlot (s : State) (n m : Nat) (r : Record) :
    (s.putSlot n r).placeEntry m = s.placeEntry m := rfl
theorem matterAt_putSlot (s : State) (n m : Nat) (r : Record) :
    (s.putSlot n r).matterAt m = s.matterAt m := rfl
theorem link_putSlot (s : State) (n m : Nat) (r : Record) : (s.putSlot n r).link m = s.link m := rfl

/-- A written directory place reads as its matter, or as a free place. -/
theorem placeEntry_putMatter {s : State} (h : Canonical s) (n : Nat) (m : Matter) :
    (s.putMatter n m).placeEntry n = .of m :=
  Table.get_set_same _ _ _ _ (by
    have := h.1; simp only [RecordMemory.wf, Bool.and_eq_true] at this; exact this.1.2)

theorem placeEntry_putMatter_ne (s : State) {n k : Nat} (h : k ≠ n) (m : Matter) :
    (s.putMatter n m).placeEntry k = s.placeEntry k := Table.get_set_ne _ h _ _

theorem matterAt_putMatter {s : State} (h : Canonical s) (n : Nat) {m : Matter} (hm : m.number ≠ 0) :
    (s.putMatter n m).matterAt n = m := by
  unfold State.matterAt; rw [placeEntry_putMatter h]; unfold PlaceEntry.of; rw [if_neg hm]

theorem matterAt_putMatter_ne (s : State) {n k : Nat} (h : k ≠ n) (m : Matter) :
    (s.putMatter n m).matterAt k = s.matterAt k := by
  unfold State.matterAt; rw [placeEntry_putMatter_ne s h]

theorem slotEntry_putMatter (s : State) (n k : Nat) (m : Matter) :
    (s.putMatter n m).slotEntry k = s.slotEntry k := rfl
theorem slot_putMatter (s : State) (n k : Nat) (m : Matter) :
    (s.putMatter n m).slot k = s.slot k := rfl
theorem link_putMatter (s : State) (n k : Nat) (m : Matter) :
    (s.putMatter n m).link k = s.link k := rfl

/-- A written link entry reads as it was written. -/
theorem link_putLink {s : State} (h : Canonical s) (n : Nat) (l : Link) : (s.putLink n l).link n = l :=
  Table.get_set_same _ _ _ _ (by
    have := h.1; simp only [RecordMemory.wf, Bool.and_eq_true] at this; exact this.2)

theorem link_putLink_ne (s : State) {n k : Nat} (h : k ≠ n) (l : Link) :
    (s.putLink n l).link k = s.link k := Table.get_set_ne _ h _ _

theorem slotEntry_putLink (s : State) (n k : Nat) (l : Link) :
    (s.putLink n l).slotEntry k = s.slotEntry k := rfl
theorem slot_putLink (s : State) (n k : Nat) (l : Link) : (s.putLink n l).slot k = s.slot k := rfl
theorem placeEntry_putLink (s : State) (n k : Nat) (l : Link) :
    (s.putLink n l).placeEntry k = s.placeEntry k := rfl
theorem matterAt_putLink (s : State) (n k : Nat) (l : Link) :
    (s.putLink n l).matterAt k = s.matterAt k := rfl

/-! ## Bytes after a write -/

theorem RecordKept.rfl {s : State} {a b c : List Nat} : RecordKept s s a b c :=
  fun _ _ _ _ => Eq.refl _

theorem RecordKept.of_record {s t : State} (h : t.record = s.record) {a b c : List Nat} :
    RecordKept s t a b c := fun _ _ _ _ => recordByte_congr h _

theorem RecordKept.trans {s t u : State} {a b c a' b' c' : List Nat} (h : RecordKept s t a b c)
    (k : RecordKept t u a' b' c') : RecordKept s u (a ++ a') (b ++ b') (c ++ c') := by
  intro x h1 h2 h3
  rw [k x (fun n m => h1 n (List.mem_append_right _ m)) (fun n m => h2 n (List.mem_append_right _ m))
    (fun n m => h3 n (List.mem_append_right _ m))]
  exact h x (fun n m => h1 n (List.mem_append_left _ m)) (fun n m => h2 n (List.mem_append_left _ m))
    (fun n m => h3 n (List.mem_append_left _ m))

theorem RecordKept.mono {s t : State} {a b c a' b' c' : List Nat} (h : RecordKept s t a b c)
    (ha : a ⊆ a') (hb : b ⊆ b') (hc : c ⊆ c') : RecordKept s t a' b' c' :=
  fun x h1 h2 h3 => h x (fun n m => h1 n (ha m)) (fun n m => h2 n (hb m)) (fun n m => h3 n (hc m))

theorem kept_putSlot (n : Nat) (r : Record) (s : State) :
    RecordKept s (s.putSlot n r) [n] [] [] := by
  intro a h _ _
  have h := h n List.mem_cons_self
  unfold State.recordByte
  by_cases ha : a < 0x40000
  · rw [if_pos ha, if_pos ha, slotEntry_putSlot_ne s (by omega)]
  · rw [if_neg ha, if_neg ha]; rfl

theorem kept_putMatter (n : Nat) (m : Matter) (s : State) :
    RecordKept s (s.putMatter n m) [] [n] [] := by
  intro a _ h _
  have h := h n List.mem_cons_self
  unfold State.recordByte
  by_cases ha : a < 0x40000
  · rw [if_pos ha, if_pos ha]; rfl
  · rw [if_neg ha, if_neg ha]
    by_cases hb : a < 0x42000
    · rw [if_pos hb, if_pos hb, placeEntry_putMatter_ne s (by omega)]
    · rw [if_neg hb, if_neg hb]; rfl

theorem kept_putLink (n : Nat) (l : Link) (s : State) :
    RecordKept s (s.putLink n l) [] [] [n] := by
  intro a _ _ h
  have h := h n List.mem_cons_self
  unfold State.recordByte
  by_cases ha : a < 0x40000
  · rw [if_pos ha, if_pos ha]; rfl
  · rw [if_neg ha, if_neg ha]
    by_cases hb : a < 0x42000
    · rw [if_pos hb, if_pos hb]; rfl
    · rw [if_neg hb, if_neg hb]
      by_cases hc : a < 0x80000
      · rw [if_pos hc, if_pos hc]
      · rw [if_neg hc, if_neg hc, link_putLink_ne s (by omega)]

/-! ## Requests -/

/-- A request that the port serves: what its row answers (R186). -/
theorem request_taken {most : Nat} {s : State} (tag : Tag) (owner : Owner)
    (hs : s.port.starting = false) (hr : s.port.replies.length + most ≤ 32) :
    request most tag owner s = .next ((owner s.begin).1.answer tag (owner s.begin).2) := by
  have h1 : s.begin.port.starting = false := hs
  have h2 : s.begin.canAnswer most = true := by
    simp only [State.canAnswer, State.replyRoom, begin_port, hs, Config.fifoWords, decide_eq_true_eq,
      if_neg Bool.false_ne_true]
    omega
  unfold request complete serve
  simp only [h1, h2, if_true, if_neg Bool.false_ne_true]

end Sys2Proof.Laws
end

