-- ==== Sys2Proof/Laws/Served.lean ====
section
/-! SUPPORT. What the engine's work on one side and its capture channel's work on what that hands it can
do: one relation, and one lemma per operation. Cite `served_handOver` for a whole hand-over; unfold none of
the operations. -/

namespace Sys2Proof.Laws

open Sys2Proof.Machine Sys2Proof.Safety

/-! ## The relation -/

/-- A ticket after such work: its stage, its sides' capture marks, its chains, IMAGE LOST and the blank
flags may have changed, the three flags only to true. -/
structure TicketServed (v w : Ticket) : Prop where
  rest : w = { v with
    stage := w.stage, frontDone := w.frontDone, backDone := w.backDone, frontChain := w.frontChain
    backChain := w.backChain, flags := { v.flags with
      imageLost := w.flags.imageLost, blankFront := w.flags.blankFront
      blankBack := w.flags.blankBack } }
  lost : v.flags.imageLost = true → w.flags.imageLost = true
  blankFront : v.flags.blankFront = true → w.flags.blankFront = true
  blankBack : v.flags.blankBack = true → w.flags.blankBack = true

/-- A capture channel of the other side after such work: its request may have been granted. -/
def Granted (c c' : CaptureChannel) : Prop :=
  c' = c ∨ (c.state = .requesting ∧ c' = { c with state := .transferring })

/-- A state after work on the side `d`. -/
structure Served (d : Side) (s t : State) : Prop where
  rest : t = { s with
    record := t.record, journal := t.journal
    tracker := { s.tracker with train := t.tracker.train }
    engine := { s.engine with front := t.engine.front, back := t.engine.back }
    images := t.images }
  train : ∃ f, t.tracker.train = s.tracker.train.map f ∧ ∀ v, TicketServed v (f v)
  side : ∀ e, e ≠ d → t.side e = s.side e
  capture : ∀ e, e ≠ d → Granted (s.capture e) (t.capture e)
  audit : t.images.audit = { s.images.audit with state := t.images.audit.state }
  exporter : t.images.exporter = { s.images.exporter with state := t.images.exporter.state }
  memory : t.images.memory = s.images.memory

theorem TicketServed.rfl {v : Ticket} : TicketServed v v := ⟨Eq.refl _, id, id, id⟩

theorem TicketServed.trans {v w x : Ticket} (h : TicketServed v w) (k : TicketServed w x) :
    TicketServed v x := by
  refine ⟨?_, k.lost ∘ h.lost, k.blankFront ∘ h.blankFront, k.blankBack ∘ h.blankBack⟩
  rw [k.rest, h.rest]

theorem Granted.trans {a b c : CaptureChannel} (h : Granted a b) (k : Granted b c) : Granted a c := by
  rcases h with rfl | ⟨h, rfl⟩
  · exact k
  · rcases k with rfl | ⟨k, rfl⟩
    · exact .inr ⟨h, rfl⟩
    · exact absurd k (by simp)

theorem Served.rfl {d : Side} {s : State} : Served d s s :=
  ⟨Eq.refl _, ⟨id, (List.map_id _).symm, fun _ => .rfl⟩, fun _ _ => Eq.refl _,
    fun _ _ => .inl (Eq.refl _), Eq.refl _, Eq.refl _, Eq.refl _⟩

theorem Served.trans {d : Side} {s t u : State} (h : Served d s t) (k : Served d t u) :
    Served d s u := by
  refine ⟨?_, ?_, fun e he => (k.side e he).trans (h.side e he),
    fun e he => (h.capture e he).trans (k.capture e he), ?_, ?_, k.memory.trans h.memory⟩
  · rw [k.rest, h.rest]
  · obtain ⟨f, hf, pf⟩ := h.train
    obtain ⟨g, hg, pg⟩ := k.train
    exact ⟨g ∘ f, by rw [hg, hf, List.map_map], fun v => (pf v).trans (pg (f v))⟩
  · rw [k.audit, h.audit]
  · rw [k.exporter, h.exporter]

theorem Served.ite {d : Side} {p : Prop} [Decidable p] {s t u : State} (h : Served d s t)
    (k : Served d s u) : Served d s (if p then t else u) := by split <;> assumption

/-! ## What follows from it -/

theorem Served.stopped {d : Side} {s t : State} (h : Served d s t) :
    t.tracker.stopped = s.tracker.stopped := by rw [h.rest]

theorem Served.batch {d : Side} {s t : State} (h : Served d s t) : t.batch = s.batch := by rw [h.rest]

/-- A ticket of the train after the work is one from before it. -/
theorem Served.ticket {d : Side} {s t : State} (h : Served d s t) {w : Ticket}
    (hw : w ∈ t.tracker.train) : ∃ v ∈ s.tracker.train, TicketServed v w := by
  obtain ⟨f, hf, pf⟩ := h.train
  rw [hf] at hw
  obtain ⟨v, hv, rfl⟩ := List.mem_map.1 hw
  exact ⟨v, hv, pf v⟩

/-! ## The engine's changes -/

theorem capture_edit_ne {d e : Side} (h : e ≠ d) (f : CaptureChannel → CaptureChannel) (s : State) :
    (s.editCapture d f).capture e = s.capture e := by cases d <;> cases e <;> first | rfl | contradiction

theorem side_edit_ne {d e : Side} (h : e ≠ d) (f : DeskewSide → DeskewSide) (s : State) :
    (s.editSide d f).side e = s.side e := by cases d <;> cases e <;> first | rfl | contradiction

theorem side_edit (d : Side) (f : DeskewSide → DeskewSide) (s : State) :
    (s.editSide d f).side d = f (s.side d) := by cases d <;> rfl

theorem capture_edit (d : Side) (f : CaptureChannel → CaptureChannel) (s : State) :
    (s.editCapture d f).capture d = f (s.capture d) := by cases d <;> rfl

theorem served_editSide (d : Side) (f : DeskewSide → DeskewSide) (s : State) :
    Served d s (s.editSide d f) := by
  refine ⟨?_, ⟨id, ?_, fun _ => .rfl⟩, fun e he => side_edit_ne he f s, fun e _ => .inl ?_, ?_, ?_, ?_⟩
  · cases d <;> rfl
  · rw [List.map_id]; cases d <;> rfl
  · cases d <;> cases e <;> rfl
  all_goals cases d <;> rfl

theorem served_editCapture (d : Side) (f : CaptureChannel → CaptureChannel) (s : State) :
    Served d s (s.editCapture d f) := by
  refine ⟨?_, ⟨id, ?_, fun _ => .rfl⟩, fun e _ => ?_, fun e he => .inl (capture_edit_ne he f s), ?_, ?_,
    ?_⟩
  · cases d <;> rfl
  · rw [List.map_id]; cases d <;> rfl
  · cases d <;> cases e <;> rfl
  all_goals cases d <;> rfl

theorem served_editTicket (d : Side) (o : Word) {f : Ticket → Ticket} (hf : ∀ v, TicketServed v (f v))
    (s : State) : Served d s (s.editTicket o f) :=
  ⟨rfl, ⟨fun v => if v.ordinal = o then f v else v, rfl, fun v => by
    dsimp only; split
    · exact hf v
    · exact .rfl⟩, fun e _ => by cases e <;> rfl, fun e _ => .inl (by cases e <;> rfl), rfl, rfl, rfl⟩

theorem served_record (d : Side) (w : RecordWrite) (s : State) : Served d s (s.writeRecord w) :=
  ⟨rfl, ⟨id, (List.map_id _).symm, fun _ => .rfl⟩, fun e _ => by cases e <;> rfl,
    fun e _ => .inl (by cases e <;> rfl), rfl, rfl, rfl⟩

theorem ticket_lose (v : Ticket) : TicketServed v v.lose := ⟨rfl, fun _ => rfl, id, id⟩

theorem ticket_blank (d : Side) (v : Ticket) : TicketServed v (v.blank d) := by
  cases d
  · exact ⟨rfl, id, fun _ => rfl, id⟩
  · exact ⟨rfl, id, id, fun _ => rfl⟩

theorem served_overrunSide (d : Side) (s : State) : Served d s (s.overrunSide d) := by
  unfold State.overrunSide
  have lost := (served_editTicket d (s.side d).ordinal ticket_lose s).trans
    (served_editSide d (fun e => { e.discard with
      queue := withoutBands e.ordinal ((s.capture d).state = .transferring) e.queue }) _)
  exact Served.ite (lost.trans (served_editCapture d _ _)) lost

theorem served_formTaken (d : Side) (l : ScanLine) (s : State) : Served d s (s.formTaken d l) := by
  unfold State.formTaken
  have formed := served_editSide d (fun e => { e.formLine l with inputs := e.inputs + 1 }) s
  dsimp only
  split
  · exact formed
  · split
    · exact formed.trans (served_editSide d _ _)
    · exact formed.trans (served_overrunSide d _)

theorem served_takeLine (d : Side) (l : ScanLine) (s : State) : Served d s (s.takeLine d l) := by
  unfold State.takeLine
  split
  · exact served_formTaken d l s
  · exact served_editSide d _ s
  · exact .rfl
  · exact .rfl

theorem served_blankTest (d : Side) (s : State) : Served d s (s.blankTest d) := by
  unfold State.blankTest
  dsimp only
  split
  · exact (served_editSide d _ s).trans (served_editTicket d _ (ticket_blank d) _)
  · exact served_editSide d _ s

theorem served_endSide (d : Side) (o : Word) (s : State) : Served d s (s.endSide d o) := by
  unfold State.endSide
  dsimp only
  split
  · split
    · exact served_editSide d _ s
    · exact (served_blankTest d s).trans (served_editSide d _ _)
  · split
    · exact served_editSide d _ s
    · exact served_editSide d _ s

theorem served_flushOne (d : Side) (s : State) : Served d s (s.flushOne d) := by
  unfold State.flushOne
  split
  · exact .rfl
  · have formed := served_editSide d (DeskewSide.formLine .white) s
    dsimp only
    split
    · exact (formed.trans (served_blankTest d _)).trans (served_editSide d _ _)
    · split
      · exact formed.trans (served_editSide d _ _)
      · exact formed

/-! ## The channel's changes -/

/-- What arbitration can do: grant one request, and nothing to a port that is busy. -/
theorem served_arbitrate (d : Side) (s : State) : Served d s s.arbitrate := by
  unfold State.arbitrate
  split
  · exact .rfl
  · split
    · rename_i c hc
      have asks : s.asks c = true := by
        have := List.find?_some hc
        simp only [State.eligibleChannel, Bool.and_eq_true] at this
        exact this.1
      refine ⟨?_, ⟨id, ?_, fun _ => .rfl⟩, fun e _ => ?_, fun e _ => ?_, ?_, ?_, ?_⟩
      · cases c <;> rfl
      · rw [List.map_id]; cases c <;> rfl
      · cases c <;> cases e <;> rfl
      · cases c <;> cases e <;> first
          | exact .inl rfl
          | exact .inr ⟨of_decide_eq_true asks, rfl⟩
      all_goals cases c <;> rfl
    · exact .rfl

theorem served_closePlate (d : Side) (n : Option Nat) (s : State) : Served d s (s.closePlate d n) := by
  unfold State.closePlate
  split
  · exact .rfl
  · split
    · exact .rfl
    · split
      · exact .rfl
      · exact (served_record d _ s).trans (served_editCapture d _ _)

theorem ticket_captured (d : Side) (v : Ticket) : TicketServed v (v.captured d) := by
  cases d <;> exact ⟨rfl, id, id, id⟩

theorem served_completeCapture (d : Side) (o : Word) (s : State) :
    Served d s (s.completeCapture d o) := by
  unfold State.completeCapture
  split
  · exact .rfl
  · refine served_editTicket d o (fun v => ?_) s
    dsimp only
    split
    · exact (ticket_captured d v).trans ⟨rfl, id, id, id⟩
    · exact ticket_captured d v

theorem served_endCapture (d : Side) (o : Word) (l : Bool) (s : State) :
    Served d s (s.endCapture d o l) :=
  ((served_closePlate d none s).trans (served_editCapture d _ _)).trans (served_completeCapture d o _)

theorem served_reportLoss (d : Side) (o : Word) (s : State) : Served d s (s.reportLoss d o) :=
  (served_editTicket d o ticket_lose s).trans (served_editSide d _ _)

theorem served_loseCapture (d : Side) (o : Word) (c : CaptureEnd) (s : State) :
    Served d s (s.loseCapture d o c) :=
  ((served_closePlate d none s).trans (served_editCapture d _ _)).trans (served_reportLoss d o _)

theorem served_requestCapture (d : Side) (s : State) : Served d s (s.requestCapture d) :=
  (served_editCapture d _ s).trans (served_arbitrate d _)

theorem served_takePlate (d : Side) {s t : State} {p : Nat} (h : s.takePlate = some (p, t)) :
    Served d s t := by
  unfold State.takePlate at h
  split at h
  · cases h
    exact ⟨rfl, ⟨id, (List.map_id _).symm, fun _ => .rfl⟩, fun e _ => by cases e <;> rfl,
      fun e _ => .inl (by cases e <;> rfl), rfl, rfl, rfl⟩
  · cases h

theorem ticket_editChain (d : Side) (f : PlateChain → PlateChain) (v : Ticket) :
    TicketServed v (v.editChain d f) := by cases d <;> exact ⟨rfl, id, id, id⟩

theorem served_takeSidePlate (d : Side) (h : CaptureSide) (s : State) :
    Served d s (s.takeSidePlate d h) := by
  unfold State.takeSidePlate
  split
  · exact served_loseCapture d _ _ s
  · split
    · exact served_loseCapture d _ _ s
    · rename_i hp
      exact ((((served_takePlate d hp).trans (served_closePlate d _ _)).trans
        (served_editTicket d _ (ticket_editChain d _) _)).trans (served_editCapture d _ _)).trans
        (served_requestCapture d _)

theorem served_actOnQueue (d : Side) : ∀ (n : Nat) (s : State), Served d s (s.actOnQueue d n)
  | 0, _ => .rfl
  | n + 1, s => by
    unfold State.actOnQueue
    dsimp only
    split
    · exact .rfl
    · split
      · exact served_editCapture d _ s
      · exact ((served_editSide d _ s).trans (served_endCapture d _ _ _)).trans
          (served_actOnQueue d n _)
      · split
        · exact .rfl
        · have begun := served_editCapture d
          split
          · exact (begun _ s).trans (served_requestCapture d _)
          · exact ((begun _ s).trans (served_takeSidePlate d _ _)).trans (served_actOnQueue d n _)

/-- The channel's work on a side's band queue. -/
theorem served_serveQueue (d : Side) (s : State) : Served d s (s.serveQueue d) :=
  served_actOnQueue d _ s

/-- The engine's work on a side and the channel's work on what that hands it. -/
theorem served_handOver (d : Side) {work : State → State} (h : ∀ s, Served d s (work s)) (s : State) :
    Served d s (s.handOver d work) := by
  unfold State.handOver
  dsimp only
  split
  · exact h s
  · exact (h s).trans (served_serveQueue d _)

/-! ## What the channel does with its queue -/

/-- A channel that is neither IDLE nor WAITING leaves its queue alone (R142). -/
theorem serveQueue_busy {d : Side} {s : State} (h : (s.capture d).state ≠ .idle)
    (h' : (s.capture d).state ≠ .waiting) : s.serveQueue d = s := by
  unfold State.serveQueue State.actOnQueue
  exact if_pos ⟨h, h'⟩

/-- Work that leaves the queue as it was hands nothing over. -/
theorem handOver_same {d : Side} {s : State} {work : State → State}
    (h : ((work s).side d).queue = (s.side d).queue) : s.handOver d work = work s := by
  unfold State.handOver
  exact if_pos h

/-- Work that changes the queue has the channel serve it. -/
theorem handOver_changed {d : Side} {s : State} {work : State → State}
    (h : ((work s).side d).queue ≠ (s.side d).queue) : s.handOver d work = (work s).serveQueue d := by
  unfold State.handOver
  exact if_neg h

end Sys2Proof.Laws
end

