-- ==== Sys2Proof/Laws/Bands.lean ====
section
/-! SUPPORT. What a capture channel does with the band queue of its side: it asks, takes a plate, waits or is left alone;
and what a band made ready leads to (`act_ready`, `take_fresh`, `end_spec`). -/

namespace Sys2Proof.Laws.Bands

open Sys2Proof.Machine Sys2Proof.Safety Sys2Proof.Claims

/-- What the arbiter's work leaves, field by field. -/
theorem arb_images (u : State) : u.arbitrate = { u with images := u.arbitrate.images } ∧
   u.arbitrate.images.audit = { u.images.audit with state := u.arbitrate.images.audit.state } ∧
   (u.arbitrate.images.audit.state = u.images.audit.state ∨ u.arbitrate.images.audit.state = .transferring) ∧
   u.arbitrate.images.exporter = { u.images.exporter with state := u.arbitrate.images.exporter.state } ∧
   (u.arbitrate.images.exporter.state = u.images.exporter.state ∨ u.arbitrate.images.exporter.state = .transferring) ∧ (u.images.transfer ≠ none → u.arbitrate = u) ∧ u.arbitrate.images.memory = u.images.memory := by
  unfold State.arbitrate
  split
  · exact ⟨rfl, rfl, .inl rfl, rfl, .inl rfl, fun _ => rfl, rfl⟩
  · rename_i hn
    split
    · rename_i c _
      cases c
      · exact ⟨rfl, rfl, .inl rfl, rfl, .inl rfl, fun h => absurd hn h, rfl⟩
      · exact ⟨rfl, rfl, .inl rfl, rfl, .inl rfl, fun h => absurd hn h, rfl⟩
      · exact ⟨rfl, rfl, .inr rfl, rfl, .inl rfl, fun h => absurd hn h, rfl⟩
      · exact ⟨rfl, rfl, .inl rfl, rfl, .inr rfl, fun h => absurd hn h, rfl⟩
    · exact ⟨rfl, rfl, .inl rfl, rfl, .inl rfl, fun h => absurd hn h, rfl⟩

/-- The other side. -/
def opp : Side → Side
  | .front => .back
  | .back => .front

theorem opp_ne (d : Side) : d ≠ opp d := by cases d <;> decide

theorem cap_arb (d : Side) (s : State) : Granted (s.capture d) (s.arbitrate.capture d) :=
  (served_arbitrate (opp d) s).capture d (opp_ne d)
theorem side_arb (d : Side) (s : State) : s.arbitrate.side d = s.side d :=
  (served_arbitrate (opp d) s).side d (opp_ne d)
theorem arb_rest (s : State) : s.arbitrate = { s with images := s.arbitrate.images } := (arb_images s).1
theorem arb_free (s : State) : s.arbitrate.images.free = s.images.free := by
  unfold State.arbitrate; split
  · rfl
  · split
    · rename_i c _; cases c <;> rfl
    · rfl
theorem arb_held {s : State} (h : s.images.transfer ≠ none) : s.arbitrate = s := (arb_images s).2.2.2.2.2.1 h

/-- A request leaves the channel asking, or granted at once. -/
theorem req_cap (d : Side) (s : State) (c : CaptureChannel) (hc : s.capture d = c) :
    ∃ st, (st = .requesting ∨ st = .transferring) ∧ (s.requestCapture d).capture d = { c with state := st } := by
  unfold State.requestCapture
  have := cap_arb d (s.editCapture d fun c => { c with state := .requesting })
  rw [capture_edit, hc] at this
  rcases this with h | ⟨_, h⟩
  · exact ⟨_, .inl rfl, h⟩
  · exact ⟨_, .inr rfl, h⟩

theorem act_busy {d : Side} {s : State} (h : (s.capture d).state = .requesting ∨ (s.capture d).state = .transferring) (n : Nat) :
    s.actOnQueue d n = s := by
  cases n with
  | zero => rfl
  | succ n => unfold State.actOnQueue; exact if_pos (by rcases h with h | h <;> rw [h] <;> decide)

theorem act_nil {d : Side} {s : State} (h : (s.capture d).state = .idle ∨ (s.capture d).state = .waiting) (hq : (s.side d).queue = []) (n : Nat) :
    s.actOnQueue d (n+1) = s.editCapture d fun c => { c with state := if c.side.isSome then .waiting else .idle } := by
  unfold State.actOnQueue; dsimp only
  rw [if_neg (by rcases h with h | h <;> rw [h] <;> decide), hq]

/-- The side in hand for a band at the head. -/
def inHand (c : CaptureChannel) (b : Band) : CaptureSide :=
  match c.side with
  | some h => if b.number = 0 then { ordinal := b.ordinal } else h
  | none => { ordinal := b.ordinal }

theorem act_ready {d : Side} {s : State} {b more r} (h : (s.capture d).state = .idle ∨ (s.capture d).state = .waiting) (hq : (s.side d).queue = .band b :: more)
    (hp : (s.capture d).pendingEnd = none) (hr : (inHand (s.capture d) b).residue = some r) (n : Nat) :
    s.actOnQueue d (n+1) = (s.editCapture d fun c => { c with side := some (inHand (s.capture d) b) }).requestCapture d := by
  unfold State.actOnQueue; dsimp only
  rw [if_neg (by rcases h with h | h <;> rw [h] <;> decide), hq]
  dsimp only
  rw [hp, if_neg (by simp)]
  show (match (inHand (s.capture d) b).residue with | some _ => _ | none => _) = _
  rw [hr]; rfl

theorem act_fresh {d : Side} {s : State} {b more} (h : (s.capture d).state = .idle ∨ (s.capture d).state = .waiting) (hq : (s.side d).queue = .band b :: more)
    (hp : (s.capture d).pendingEnd = none) (hr : (inHand (s.capture d) b).residue = none) (n : Nat) :
    s.actOnQueue d (n+1) = ((s.editCapture d fun c => { c with side := some (inHand (s.capture d) b) }).takeSidePlate d (inHand (s.capture d) b)).actOnQueue d n := by
  conv_lhs => unfold State.actOnQueue
  dsimp only
  rw [if_neg (by rcases h with h | h <;> rw [h] <;> decide), hq]
  dsimp only
  rw [hp, if_neg (by simp)]
  show (match (inHand (s.capture d) b).residue with | some _ => _ | none => _) = _
  rw [hr]; rfl

theorem takePlate_eq {s : State} {p rest} (h : FreeHead s p rest) : s.takePlate = some (p, { s with images.free := rest }) := by
  obtain ⟨h1, h2, h3⟩ := h
  unfold State.takePlate
  rw [h1]
  obtain ⟨n, hn⟩ := Nat.exists_eq_succ_of_ne_zero (Nat.pos_iff_ne_zero.mp h2)
  rw [hn] at h3 ⊢
  dsimp only
  rw [h3]
  by_cases h0 : n = 0
  · subst h0; rfl
  · rw [if_neg h0, if_neg (by omega)]; rfl

/-- A fresh plate has been taken for a side in hand, and the channel asks. -/
structure Took (s u : State) (d : Side) (h : CaptureSide) (p : Nat) (rest : FreeQueue) : Prop where
  cap : ∃ st, (st = .requesting ∨ st = .transferring) ∧ u.capture d = { s.capture d with state := st, side := some (h.withPlate p) }
  side : u.side d = s.side d
  free : u.images.free = rest
  join : PlateJoined s u d h.ordinal p
  link : ∀ q, h.current = some q → h.closed = false → Canonical s →
    u.link q = ⟨some p, h.crc, h.used, h.first, d⟩ ∧ RecordKept s u [] [] [q]
  nolink : h.current = none → u.record = s.record

theorem join_edit (s : State) (d : Side) (o : Word) (p : Nat) : PlateJoined s (s.editTicket o (Ticket.editChain d (PlateChain.append p))) d o p := by
  unfold PlateJoined
  show (List.map _ (List.map _ s.tracker.train)) = _
  rw [List.map_map]
  refine List.map_congr_left fun v _ => ?_
  simp only [Function.comp]
  by_cases h : v.ordinal = o
  · rw [if_pos h, if_pos h]
    cases d <;> unfold Ticket.editChain chainOf PlateChain.append <;> dsimp only
    · rcases v.frontChain.head <;> rfl
    · rcases v.backChain.head <;> rfl
  · rw [if_neg h, if_neg h]

theorem take_fresh (s : State) (d : Side) (h : CaptureSide) (p rest) (hc : (s.capture d).side = some h) (hp : h.plates < 54) (hf : FreeHead s p rest) :
    Took s (s.takeSidePlate d h) d h p rest := by
  have e : s.takeSidePlate d h = (((({ s with images.free := rest } : State).closePlate d (some p)).editTicket h.ordinal
        (Ticket.editChain d (PlateChain.append p))).editCapture d fun c =>
          { c with side := some (h.withPlate p) }).requestCapture d := by
    unfold State.takeSidePlate
    rw [if_neg (by unfold Config.sidePlates; omega), takePlate_eq hf]
  rw [e]
  set a : State := { s with images.free := rest } with ha
  have hca : a.capture d = s.capture d := by cases d <;> rfl
  have hsa : a.side d = s.side d := by cases d <;> rfl
  set b := a.closePlate d (some p) with hb
  have kb : (∃ side, b.capture d = { s.capture d with side := side }) ∧ b.side d = s.side d ∧ b.images.free = rest ∧ b.tracker = s.tracker ∧
      (h.current = none → b.record = s.record) ∧
      (∀ q, h.current = some q → h.closed = false → b.record = (a.putLink q ⟨some p, h.crc, h.used, h.first, d⟩).record) := by
    rw [hb]
    unfold State.closePlate
    rw [hca, hc]
    dsimp only
    rcases hq : h.current with _ | q
    · exact ⟨⟨_, by rw [hca]⟩, hsa, rfl, rfl, fun _ => rfl, by simp⟩
    · dsimp only
      by_cases hcl : h.closed = true
      · rw [if_pos hcl]
        exact ⟨⟨_, by rw [hca]⟩, hsa, rfl, rfl, by simp, by simp [hcl]⟩
      · rw [if_neg hcl]
        refine ⟨⟨_, by rw [capture_edit]; cases d <;> rfl⟩, by cases d <;> rfl, by cases d <;> rfl, by cases d <;> rfl, by simp, ?_⟩
        intro q' hq' _
        cases hq'
        cases d <;> rfl
  obtain ⟨⟨side, k1⟩, k2, k3, k4, k5, k6⟩ := kb
  set c := b.editTicket h.ordinal (Ticket.editChain d (PlateChain.append p)) with hcc
  set f := c.editCapture d fun c => { c with side := some (h.withPlate p) } with hf'
  have f1 : f.capture d = { s.capture d with side := some (h.withPlate p) } := by
    rw [hf', capture_edit]
    have : c.capture d = b.capture d := by cases d <;> rfl
    rw [this, k1]
  have f2 : f.record = b.record := by cases d <;> rfl
  have f3 : f.tracker = c.tracker := by cases d <;> rfl
  have f4 : f.images.free = rest := by rw [← k3]; cases d <;> rfl
  have f5 : f.side d = s.side d := by rw [← k2]; cases d <;> rfl
  set u := f.requestCapture d with hu
  have ur : u = { f with images := u.images } := by
    rw [hu]; unfold State.requestCapture
    rw [arb_rest]; cases d <;> rfl
  have urec : u.record = b.record := by rw [ur]; exact f2
  refine ⟨?_, ?_, ?_, ?_, ?_, ?_⟩
  · obtain ⟨st, hst, hk⟩ := req_cap d f _ f1
    exact ⟨st, hst, hk⟩
  · have : u.side d = f.side d := by rw [ur]; cases d <;> rfl
    rw [this, f5]
  · rw [hu]; unfold State.requestCapture; rw [arb_free, ← f4]; cases d <;> rfl
  · have j := join_edit b d h.ordinal p
    unfold PlateJoined at j ⊢
    rw [show u.tracker = c.tracker by rw [ur]; exact f3, j, k4]
  · intro q hq hcl hcan
    have hr : u.record = (a.putLink q ⟨some p, h.crc, h.used, h.first, d⟩).record := urec.trans (k6 q hq hcl)
    refine ⟨?_, ?_⟩
    · rw [link_congr hr, link_putLink (s := a) hcan]
    · have k := kept_putLink q ⟨some p, h.crc, h.used, h.first, d⟩ a
      exact fun x h1 h2 h3 => (recordByte_congr hr x).trans (k x h1 h2 h3)
  · intro hq; exact urec.trans (k5 hq)

theorem close_keeps (d : Side) (n : Option Nat) (s : State) : (s.closePlate d n).side d = s.side d ∧ (s.closePlate d n).tracker = s.tracker ∧
    (s.closePlate d n).batch = s.batch ∧ (s.closePlate d n).images.free = s.images.free ∧ (s.closePlate d n).capture d = { s.capture d with side := ((s.closePlate d n).capture d).side } := by
  unfold State.closePlate
  split
  · exact ⟨rfl, rfl, rfl, rfl, rfl⟩
  · split
    · exact ⟨rfl, rfl, rfl, rfl, rfl⟩
    · split
      · exact ⟨rfl, rfl, rfl, rfl, rfl⟩
      · cases d <;> exact ⟨rfl, rfl, rfl, rfl, rfl⟩

theorem close_rec (d : Side) (n : Option Nat) (s : State) (a : CaptureSide) (q) (h : (s.capture d).side = some a) (hq : a.current = some q) (hc : a.closed = false) :
    (s.closePlate d n).record = (s.putLink q ⟨n, a.crc, a.used, a.first, d⟩).record := by
  unfold State.closePlate
  rw [h]; dsimp only; rw [hq]; dsimp only; rw [hc]
  cases d <;> rfl

theorem acts_of {s t : State} (h1 : t.batch = s.batch) (h2 : t.tracker = s.tracker) : t.acts = s.acts := by
  unfold State.acts State.motorOn; rw [h1, h2]

theorem complete_spec (d : Side) (o : Word) (s : State) : (s.completeCapture d o) = { s with tracker := if s.acts then { s.tracker with train := changed s o (sideDone s d) } else s.tracker } := by
  unfold State.completeCapture
  cases s.acts
  · rfl
  · rw [if_neg (by decide), if_pos rfl]
    show ({ s with tracker := { s.tracker with train := _ } } : State) = _
    refine congrArg (fun l => ({ s with tracker := { s.tracker with train := l } } : State)) ?_
    unfold changed
    refine List.map_congr_left fun v _ => ?_
    by_cases hv : v.ordinal = o
    · rw [if_pos hv, if_pos hv]
      unfold sideDone State.captureComplete Ticket.captured
      cases d <;> dsimp only <;>
        by_cases h1 : v.stage = .scanning <;> by_cases h2 : v.frontDone = true <;> by_cases h3 : v.backDone = true <;> by_cases h4 : s.batch.duplex = true <;> simp_all
    · rw [if_neg hv, if_neg hv]

theorem end_spec (d : Side) (o : Word) (lost : Bool) (s : State) (e : State) (he : e = s.endCapture d o lost) :
    e.capture d = ⟨.idle, none, none, true, if lost then (s.capture d).pendingEnd.getD .bandOverrun else .normal⟩ ∧
    e.side d = s.side d ∧ e.record = (s.closePlate d none).record ∧ e.images.free = s.images.free ∧ e.batch = s.batch ∧
    e.tracker = if s.acts then { s.tracker with train := changed s o (sideDone s d) } else s.tracker := by
  subst he
  obtain ⟨k1, k2, k3, k4, k5⟩ := close_keeps d none s
  unfold State.endCapture
  dsimp only
  rw [complete_spec]
  set c := s.closePlate d none with hc
  set x := c.editCapture d fun c =>
    { c with state := .idle, side := none, pendingEnd := none, endFlag := true, endCause := if lost then (s.capture d).pendingEnd.getD .bandOverrun else .normal } with hx
  have hb : x.batch = s.batch := by rw [← k3]; cases d <;> rfl
  have ht : x.tracker = s.tracker := by rw [← k2]; cases d <;> rfl
  refine ⟨?_, ?_, ?_, ?_, hb, ?_⟩
  · have : State.capture { x with tracker := if x.acts then { x.tracker with train := changed x o (sideDone x d) } else x.tracker } d = x.capture d := by cases d <;> rfl
    rw [this, hx, capture_edit]
  · rw [← k1]; cases d <;> rfl
  · cases d <;> rfl
  · rw [← k4]; cases d <;> rfl
  · have hcg : changed x o (sideDone x d) = changed s o (sideDone s d) := by
      unfold changed; rw [ht]
      refine List.map_congr_left fun v _ => ?_
      unfold sideDone; rw [hb]
    dsimp only
    rw [hcg, acts_of hb ht, ht]

end Sys2Proof.Laws.Bands
end

