-- ==== Sys2Proof/Laws/Decisions.lean ====
section
/-! SUPPORT. What the Assembler's ruling on a sheet leaves, part by part: a page appended, a document closed or opened, a
sheet's plates returned, a sheet turned away. The lemmas on a whole ruling are `separated`, `rejected`, `turned`,
`page_taken` and `opening`. -/

namespace Sys2Proof.Laws.Decisions

open Sys2Proof.Machine Sys2Proof.Safety Sys2Proof.Claims

/-! ## Notices of the batch -/

theorem postBatch_room (n : Notice) (u : State) (hk : u.batch.kept = []) (hl : u.port.notices.length < 16) :
    u.postBatch n = { u with port.notices := u.port.notices ++ [n] } := by
  unfold State.postBatch; rw [if_pos ⟨hk, by unfold State.noticeRoom Config.noticePlaces; omega⟩]
theorem postBatch_keep (n : Notice) (u : State) (h : u.batch.kept ≠ [] ∨ 16 ≤ u.port.notices.length) :
    u.postBatch n = { u with batch.kept := u.batch.kept ++ [n] } := by
  unfold State.postBatch; rw [if_neg (by rintro ⟨a, b⟩; unfold State.noticeRoom Config.noticePlaces at b; rcases h with h | h; exact h a; omega)]

theorem batchNotice_post (s u : State) (n : Notice) (hp : u.port = s.port) (hk : u.batch.kept = s.batch.kept) :
    BatchNotice s (u.postBatch n) n := by
  constructor
  · intro h1 h2
    rw [postBatch_room n u (by rw [hk]; exact h1) (by rw [hp]; exact h2)]
    exact ⟨by dsimp only; rw [hp], by show u.batch.kept = []; rw [hk]; exact h1⟩
  · intro h
    rw [postBatch_keep n u (by rw [hk, hp]; exact h)]
    exact ⟨by dsimp only; rw [hp], by show u.batch.kept ++ [n] = _; rw [hk]⟩

theorem plates_eq (s : State) : ∀ (n : Nat) (h : Option Nat) (l : List Nat), PlatesFrom s h l → l.length = n → s.chainPlates h n = l
  | 0, h, [], _, _ => by cases h <;> rfl
  | n + 1, h, p :: l, hp, hl => by
    obtain ⟨h1, h2⟩ := hp
    rw [h1]
    show p :: s.chainPlates (s.link p).next n = _
    rw [plates_eq s n _ l h2 (by simpa using hl)]
  | 0, _, _ :: _, _, hl => by simp at hl
  | _ + 1, _, [], _, hl => by simp at hl

theorem addex (r : Record) (x : ExceptionEntry) : r.addException x = { r with
    exceptions := (r.exceptions ++ [x]).take (max 8 r.exceptions.length), overflow := r.overflow || decide (8 < r.exceptions.length + 1) } := by
  unfold Record.addException Config.exceptionPlaces
  by_cases h : r.exceptions.length < 8
  · rw [if_pos h]
    have : (r.exceptions ++ [x]).take (max 8 r.exceptions.length) = r.exceptions ++ [x] := List.take_of_length_le (by simp; omega)
    rw [this, decide_eq_false (by omega), Bool.or_false]
  · rw [if_neg h]
    have : (r.exceptions ++ [x]).take (max 8 r.exceptions.length) = r.exceptions := by
      rw [show max 8 r.exceptions.length = r.exceptions.length by omega, List.take_left]
    rw [this, decide_eq_true (by omega), Bool.or_true]

theorem page_ex (r : Record) (f : Flags) (n : Nat) (l : List ExceptionEntry)
    (hl : l = (if f.skewOver then [⟨n, .skewUncorrected, 0⟩] else []) ++ (if f.doubleFeed then [⟨n, .doubleFeedFiled, 0⟩] else [])) :
    r.pageExceptions f n = { r with
      exceptions := (r.exceptions ++ l).take (max 8 r.exceptions.length)
      overflow := r.overflow || decide (8 < r.exceptions.length + l.length ∧ l ≠ []) } := by
  subst hl
  unfold Record.pageExceptions
  dsimp only
  have nil : r = { r with exceptions := (r.exceptions ++ []).take (max 8 r.exceptions.length), overflow := r.overflow || decide (8 < r.exceptions.length + 0 ∧ ([] : List ExceptionEntry) ≠ []) } := by
    rw [List.append_nil, List.take_of_length_le (by omega)]
    simp
  cases h1 : f.skewOver <;> cases h2 : f.doubleFeed
  · simpa using nil
  · simp [addex]
  · simp [addex]
  · simp only [if_true, addex]
    show _ = ({ r with exceptions := (r.exceptions ++ [(⟨n, .skewUncorrected, 0⟩ : ExceptionEntry), ⟨n, .doubleFeedFiled, 0⟩]).take (max 8 r.exceptions.length), overflow := r.overflow || decide (8 < r.exceptions.length + 2 ∧ _) } : Record)
    generalize hA : (⟨n, .skewUncorrected, 0⟩ : ExceptionEntry) = A
    generalize hB : (⟨n, .doubleFeedFiled, 0⟩ : ExceptionEntry) = B
    set L := r.exceptions.length with hL
    by_cases hl : L < 8
    · have a : (r.exceptions ++ [A]).take (max 8 L) = r.exceptions ++ [A] := List.take_of_length_le (by simp; omega)
      have b : (r.exceptions ++ [A]).length = L + 1 := by simp [hL]
      rw [a, b, show max 8 (L + 1) = 8 by omega, show max 8 L = 8 by omega, List.append_assoc]
      have c : decide (8 < L + 1) = false := decide_eq_false (by omega)
      rw [c, Bool.or_false]
      simp
      exact congrArg (r.overflow || ·) (decide_eq_decide.2 (by omega))
    · have a : (r.exceptions ++ [A]).take (max 8 L) = r.exceptions := by
        rw [show max 8 L = L by omega, hL, List.take_left]
      have a2 : (r.exceptions ++ [A, B]).take (max 8 L) = r.exceptions := by
        rw [show max 8 L = L by omega, hL, List.take_left]
      have a3 : (r.exceptions ++ [B]).take (max 8 L) = r.exceptions := by
        rw [show max 8 L = L by omega, hL, List.take_left]
      rw [a, ← hL, a3, a2]
      have c : decide (8 < L + 1) = true := decide_eq_true (by omega)
      have c2 : 8 < L + 2 := by omega
      simp [c, c2]
      right; omega

/-- The plates' chains of a ticket that are not empty. -/
theorem chains_of {s : State} {u : Ticket} {front back : List Nat} (h : TicketPlates s u front back) :
    ([u.frontChain, u.backChain].filter fun c => 0 < c.count) = (if front = [] then [] else [u.frontChain]) ++ (if back = [] then [] else [u.backChain]) := by
  obtain ⟨_, h2, _, h4⟩ := h
  rw [List.filter_cons, List.filter_cons, List.filter_nil]
  rw [← h2, ← h4]
  cases front <;> cases back <;> simp

theorem pf_head {s : State} {h : Option Nat} {l : List Nat} (k : PlatesFrom s h l) (hl : l ≠ []) : h = l.head? := by
  cases l with
  | nil => exact absurd rfl hl
  | cons a l => exact k.1

theorem append_eq (s : State) (r : Record) (u : Ticket) (e : Evaluator) (front back : List Nat) (h : TicketPlates s u front back) :
    r.append u ([u.frontChain, u.backChain].filter fun c => 0 < c.count) (s.chainChecks ([u.frontChain, u.backChain].filter fun c => 0 < c.count)) e.tags e.outcome.intakeHold = pageAppended s r u e front back := by
  have hc := chains_of h
  obtain ⟨h1, h2, h3, h4⟩ := h
  have ck : s.chainChecks ([u.frontChain, u.backChain].filter fun c => 0 < c.count) = (front ++ back).map fun p => (s.link p).check := by
    rw [hc]
    unfold State.chainChecks
    by_cases hf : front = [] <;> by_cases hb : back = []
    · simp [hf, hb]
    · simp [hf, hb, plates_eq s _ _ _ h3 h4]
    · simp [hf, hb, plates_eq s _ _ _ h1 h2]
    · simp [hf, hb, plates_eq s _ _ _ h3 h4, plates_eq s _ _ _ h1 h2]
  rw [ck, hc]
  unfold Record.append pageAppended
  dsimp only
  rw [page_ex _ _ _ _ rfl]
  unfold Record.takeIntake
  dsimp only
  have ct : (((if front = [] then [] else [u.frontChain]) ++ if back = [] then [] else [u.backChain] : List PlateChain).map PlateChain.count).sum = (front ++ back).length := by
    rw [List.length_append]
    by_cases hf : front = [] <;> by_cases hb : back = [] <;> simp [hf, hb, ← h2, ← h4]
  rw [ct]
  have hh : ∀ (x : Option Nat), (match x with
        | some p => some p
        | none => ((if front = [] then [] else [u.frontChain]) ++ if back = [] then [] else [u.backChain] : List PlateChain).head?.bind PlateChain.head) = (match x with
      | some p => some p
      | none => (front ++ back).head?) := by
    intro x
    cases x with
    | some p => rfl
    | none =>
      dsimp only
      by_cases hf : front = []
      · by_cases hb : back = []
        · simp [hf, hb]
        · simp [hf, hb]; exact pf_head h3 hb
      · simp [hf]; rw [pf_head h1 hf]
        cases front with
        | nil => exact absurd rfl hf
        | cons a l => rfl
  have tl : ∀ o : Option PlateChain, o = ((if front = [] then [] else [u.frontChain]) ++ if back = [] then [] else [u.backChain] : List PlateChain).getLast? → (match o with
        | some c => c.tail
        | none => r.plateTail) = (if back ≠ [] then u.backChain.tail
      else if front ≠ [] then u.frontChain.tail else r.plateTail) := by
    rintro _ rfl
    by_cases hf : front = [] <;> by_cases hb : back = [] <;> simp [hf, hb]
  have key : ∀ (a b c d : Option Nat), a = b → c = d → ∀ f : Option Nat → Option Nat → Record, f a c = f b d := by rintro _ _ _ _ rfl rfl f; rfl
  rcases hph : r.plateHead with _ | ph
  · have h' := hh none
    dsimp only at h' ⊢
    rw [h']
    by_cases hf : front = [] <;> by_cases hb : back = [] <;> cases e.outcome.intakeHold <;> cases hi : r.intakeTaken <;> simp [Tags.or, hf, hb, hph]
  · by_cases hf : front = [] <;> by_cases hb : back = [] <;> cases e.outcome.intakeHold <;> cases hi : r.intakeTaken <;> simp [Tags.or, hf, hb, hph]

theorem can_putNext {s : State} (h : Canonical s) (n p) : Canonical (s.putNext n p) := (quiet_putNext _ _ _).canonical h
theorem can_putSlot {s : State} (h : Canonical s) (n p) : Canonical (s.putSlot n p) := (quiet_putSlot _ _ _).canonical h
theorem can_putMatter {s : State} (h : Canonical s) (n p) : Canonical (s.putMatter n p) := (quiet_putMatter _ _ _).canonical h
theorem link_putNext {s : State} (h : Canonical s) (n p) : ((s.putNext n p).link n).next = p := by
  unfold State.putNext; rw [link_putLink h]
theorem link_putNext_ne (s : State) {n k} (h : k ≠ n) (p) : (s.putNext n p).link k = s.link k := link_putLink_ne s h _

/-- Only record memory's link entries have changed. -/
structure Links (s t : State) : Prop where
  rest : t = { s with record := t.record, journal := t.journal }
  slot : ∀ n, t.slotEntry n = s.slotEntry n
  place : ∀ n, t.placeEntry n = s.placeEntry n
  can : Canonical s → Canonical t
theorem Links.rfl {s} : Links s s := ⟨Eq.refl _, fun _ => Eq.refl _, fun _ => Eq.refl _, id⟩
theorem Links.trans {s t u} (h : Links s t) (k : Links t u) : Links s u := by
  refine ⟨?_, fun n => (k.slot n).trans (h.slot n), fun n => (k.place n).trans (h.place n), k.can ∘ h.can⟩
  conv_lhs => rw [k.rest]
  conv_lhs => rw [h.rest]
theorem links_putNext (n p s) : Links s (State.putNext n p s) := ⟨rfl, fun _ => rfl, fun _ => rfl, fun c => can_putNext c _ _⟩

/-- A page has been appended to a record. -/
structure Paged (s t : State) (n : Nat) (page : Record) (u : Ticket) (front back : List Nat) : Prop where
  rest : t = { s with record := t.record, journal := t.journal }
  slot : Canonical s → t.slot n = page
  other : ∀ m, m ≠ n → t.slot m = s.slot m
  place : ∀ m, t.matterAt m = s.matterAt m
  linked : Canonical s → PlatesLinked s t (s.slot n) u front back
  can : Canonical s → Canonical t

theorem paged_eq (s : State) (r : Record) (u : Ticket) (e : Evaluator) (front back : List Nat) (h : TicketPlates s u front back) :
    s.paged u e.tags e.outcome.intakeHold r = pageAppended s r u e front back := append_eq s r u e front back h

theorem linkPage_spec (s : State) (r : Record) (u : Ticket) (front back : List Nat) (h : TicketPlates s u front back) :
    Links s (s.linkPage r.plateTail u) ∧ (Canonical s → PlatesLinked s (s.linkPage r.plateTail u) r u front back) := by
  unfold State.linkPage Ticket.plateChains
  dsimp only
  have hc := chains_of h
  rw [hc]
  obtain ⟨h1, h2, h3, h4⟩ := h
  set joined := (match r.plateTail, ((if front = [] then [] else [u.frontChain]) ++ if back = [] then [] else [u.backChain] : List PlateChain).head? with
    | some p, some c => s.putNext p c.head
    | _, _ => s) with hj
  have lj : Links s joined := by rw [hj]; split; exact links_putNext _ _ _; exact .rfl
  set linked := (match ((if front = [] then [] else [u.frontChain]) ++ if back = [] then [] else [u.backChain] : List PlateChain) with
    | [c, c'] => match c.tail with
      | some p => joined.putNext p c'.head
      | none => joined
    | _ => joined) with hl
  have ll : Links joined linked := by
    rw [hl]; split
    · split
      · exact links_putNext _ _ _
      · exact .rfl
    · exact .rfl
  have l := lj.trans ll
  refine ⟨l, fun c => ⟨fun q p hq hp hne => ?_, fun q p hf hq hp => ?_, fun q h1 h2 => ?_⟩⟩
  · show (linked.link q).next = _
    have e1 : linked.link q = joined.link q := by
      rw [hl]; split
      · split
        · rename_i c c' hcc _ t ht
          have hf : front ≠ [] := by
            intro hf; rw [hf] at hcc
            by_cases hb : back = [] <;> simp [hb] at hcc
          rw [if_neg hf] at hcc
          have : c = u.frontChain := by
            by_cases hb : back = [] <;> simp [hb] at hcc
            exact hcc.1.symm
          rw [this] at ht
          exact link_putNext_ne _ (fun x => hne (by rw [ht, x])) _
        · rfl
      · rfl
    rw [e1, hj, hq]
    by_cases hf : front = []
    · by_cases hb : back = []
      · simp [hf, hb] at hp
      · simp [hf, hb]
        rw [link_putNext c, pf_head h3 hb]
        rw [hf] at hp; exact hp
    · simp [hf]
      rw [link_putNext c, pf_head h1 hf]
      cases front with
      | nil => exact absurd rfl hf
      | cons a l => exact hp
  · show (linked.link q).next = _
    have hb : back ≠ [] := by intro hb; rw [hb] at hp; cases hp
    have : linked = joined.putNext q u.backChain.head := by
      rw [hl, if_neg hf, if_neg hb]
      show (match u.frontChain.tail with | some p => _ | none => _) = _
      rw [hq]
    rw [this, link_putNext (lj.can c), pf_head h3 hb, hp]
  · show linked.link q = _
    have e1 : linked.link q = joined.link q := by
      rw [hl]; split
      · split
        · rename_i c c' hcc _ t ht
          have hf : front ≠ [] := by
            intro hf; rw [hf] at hcc
            by_cases hb : back = [] <;> simp [hb] at hcc
          rw [if_neg hf] at hcc
          have : c = u.frontChain := by
            by_cases hb : back = [] <;> simp [hb] at hcc
            exact hcc.1.symm
          rw [this] at ht
          exact link_putNext_ne _ (fun x => h2 (by rw [ht, x])) _
        · rfl
      · rfl
    rw [e1, hj]
    split
    · rename_i t c ht hcc
      exact link_putNext_ne _ (fun x => h1 (by rw [ht, x])) _
    · rfl
theorem append_spec (s : State) (n : Nat) (u : Ticket) (e : Evaluator) (front back : List Nat) (h : TicketPlates s u front back) :
    Paged s (s.appendPage n u e.tags e.outcome.intakeHold) n (pageAppended s (s.slot n) u e front back) u front back := by
  unfold State.appendPage
  dsimp only
  rw [paged_eq s (s.slot n) u e front back h]
  obtain ⟨l, k⟩ := linkPage_spec s (s.slot n) u front back h
  generalize State.linkPage (s.slot n).plateTail u s = linked at l k ⊢
  refine ⟨?_, fun c => slot_putSlot (l.can c) _ _, fun m hm => ?_, fun m => ?_, fun c => k c, fun c => can_putSlot (l.can c) _ _⟩
  · conv_lhs => rw [l.rest]
    rfl
  · rw [slot_putSlot_ne _ hm]; unfold State.slot; rw [l.slot]
  · rw [matterAt_putSlot]; unfold State.matterAt; rw [l.place]

/-- the ticket's chains emptied -/
def emptied (s : State) (u : Ticket) : List Ticket := changed s u.ordinal fun v => { v with frontChain := ⟨none, none, 0⟩, backChain := ⟨none, none, 0⟩ }

theorem last_iff (q w : State) (u : Ticket) (dec : Decision) (hb : w.batch.state = q.batch.state) (ht : w.tracker.train = emptied q u)
    (ho : w.assembler.outcomes = q.assembler.outcomes ++ [⟨u.ordinal, dec⟩]) :
    (w.batch.state = .draining ∧ ¬ w.tracker.train.any w.unruled) ↔ LastRuling q u := by
  unfold LastRuling
  rw [hb]
  refine and_congr Iff.rfl ?_
  rw [ht, Bool.not_eq_true, List.any_eq_false]
  unfold emptied changed
  have un : ∀ v : Ticket, w.unruled v = true ↔ Unruled q v ∧ v.ordinal ≠ u.ordinal := by
    intro v
    unfold State.unruled Ticket.undecided State.outcomeStands Unruled
    rw [ho]
    simp only [Bool.and_eq_true, decide_eq_true_eq, Bool.not_eq_true', List.any_append, Bool.or_eq_false_iff, List.any_eq_false, List.any_cons, List.any_nil, Bool.or_false, decide_eq_false_iff_not]
    constructor
    · rintro ⟨a, b, c⟩; exact ⟨⟨a, fun o h => by simpa using b o h⟩, fun h => c h.symm⟩
    · rintro ⟨⟨a, b⟩, c⟩; exact ⟨a, fun o h => by simpa using b o h, fun h => c h.symm⟩
  have un' : ∀ v : Ticket, w.unruled (if v.ordinal = u.ordinal then { v with frontChain := ⟨none, none, 0⟩, backChain := ⟨none, none, 0⟩ } else v) = true ↔ Unruled q v ∧ v.ordinal ≠ u.ordinal := by
    intro v
    rw [un]
    split
    · exact Iff.rfl
    · exact Iff.rfl
  constructor
  · intro h v hv hu
    by_contra hne
    exact h _ (List.mem_map_of_mem hv) ((un' v).2 ⟨hu, hne⟩)
  · intro h x hx
    obtain ⟨v, hv, rfl⟩ := List.mem_map.1 hx
    intro k
    obtain ⟨a, b⟩ := (un' v).1 k
    exact b (h v hv a)

/-- A record has been closed. -/
structure RecordClosed (s t : State) (n : Nat) : Prop where
  rest : t = { s with record := t.record, journal := t.journal, port.notices := t.port.notices, folio.kept := t.folio.kept }
  slot : Canonical s → t.slot n = { s.slot n with state := closedState (s.slot n) }
  other : ∀ m, m ≠ n → t.slot m = s.slot m
  place : ∀ m, t.matterAt m = s.matterAt m
  link : ∀ m, t.link m = s.link m
  can : Canonical s → Canonical t
  busy : 0 < (s.slot n).outstanding → t.port = s.port ∧ t.folio = s.folio
  note : (s.slot n).outstanding = 0 → s.folio.kept = [] → s.port.notices.length < 16 →
    t.port.notices = s.port.notices ++ [filedNotice n (s.slot n)] ∧ t.folio = s.folio

theorem close_spec (s : State) (n : Nat) : RecordClosed s (s.closeRecord n) n := by
  unfold State.closeRecord
  dsimp only
  by_cases h : 0 < (s.slot n).outstanding
  · rw [if_pos h]
    refine ⟨rfl, fun c => ?_, fun m hm => slot_putSlot_ne _ hm _, fun m => rfl, fun m => rfl, fun c => can_putSlot c _ _, fun _ => ⟨rfl, rfl⟩, fun h' => by omega⟩
    rw [slot_putSlot c]; unfold closedState; rw [if_pos h]
  · rw [if_neg h]
    unfold State.fileRecord
    set z := s.putSlot n { s.slot n with state := .filed } with hz
    have fr : ∃ ns k, z.postFolio ((s.slot n).filedNotice n) = { z with port.notices := ns, folio.kept := k } := by
      unfold State.postFolio; split
      · exact ⟨_, z.folio.kept, rfl⟩
      · exact ⟨z.port.notices, _, rfl⟩
    obtain ⟨ns, k, e⟩ := fr
    refine ⟨by rw [e]; rfl, fun c => ?_, fun m hm => ?_, fun m => by rw [e]; rfl, fun m => by rw [e]; rfl, fun c => by rw [e]; exact can_putSlot c _ _, fun h' => absurd h' h, fun h0 hk hn => ?_⟩
    · rw [e]; show z.slot n = _
      rw [hz, slot_putSlot c]; unfold closedState; rw [if_neg h]
    · rw [e]; show z.slot m = _; rw [hz, slot_putSlot_ne _ hm]
    · have : z.postFolio ((s.slot n).filedNotice n) = { z with port.notices := z.port.notices ++ [(s.slot n).filedNotice n] } := by
        unfold State.postFolio
        exact if_pos ⟨hk, by unfold State.noticeRoom Config.noticePlaces; show 0 < 16 - s.port.notices.length; omega⟩
      rw [this]
      exact ⟨rfl, rfl⟩

/-- A document has been closed with its marker. -/
theorem closeDoc_eq (s : State) (m : Option Bool) (d : OpenDocument) (h : s.assembler.openDocument = some d) :
    s.closeDocument m = { s.closeRecord (d.folio.toNat / 16) with
      assembler := { s.assembler with openDocument := none, lastClosed := some d.folio, marker := m.getD s.assembler.marker } } := by
  unfold State.closeDocument
  rw [h]
  dsimp only
  have := (close_spec s (d.folio.toNat / 16)).rest
  have ha : (s.closeRecord (slotOf d.folio)).assembler = s.assembler := by
    rw [show slotOf d.folio = d.folio.toNat / 16 from rfl, this]
  rw [ha]; rfl
theorem closeDoc_none (s : State) (m : Option Bool) (h : s.assembler.openDocument = none) : s.closeDocument m = s := by
  unfold State.closeDocument; rw [h]

/-- What the Assembler's part of a page leaves, with the page-limit close and the drain close behind it. -/
structure PageCounted (j t : State) (d : OpenDocument) (u : Ticket) (e : Evaluator) : Prop where
  out : t.assembler.outcomes = j.assembler.outcomes ++ [⟨u.ordinal, { route := some d.tray, page := some ⟨d.folio, (j.slot (d.folio.toNat / 16)).pageCount⟩, reason := none, tags := e.tags }⟩]
  full : (j.slot (d.folio.toNat / 16)).pageCount = 250 → t.assembler.openDocument = none ∧ t.assembler.marker = true ∧
            t.slot (d.folio.toNat / 16) = { j.slot (d.folio.toNat / 16) with state := .filing }
  last : (j.slot (d.folio.toNat / 16)).pageCount ≠ 250 → LastRuling j u → t.assembler.openDocument = none ∧
            t.assembler.marker = j.assembler.marker ∧
            t.slot (d.folio.toNat / 16) = { j.slot (d.folio.toNat / 16) with state := .filing }
  more : (j.slot (d.folio.toNat / 16)).pageCount ≠ 250 → ¬ LastRuling j u →
            t.assembler.openDocument = j.assembler.openDocument ∧
            t.assembler.marker = j.assembler.marker ∧ t.slot (d.folio.toNat / 16) = j.slot (d.folio.toNat / 16)
  closed : (j.slot (d.folio.toNat / 16)).pageCount = 250 ∨ LastRuling j u → t.assembler.lastClosed = some d.folio
  other : ∀ m, m ≠ d.folio.toNat / 16 → t.slot m = j.slot m
  place : ∀ m, t.matterAt m = j.matterAt m
  link : ∀ m, t.link m = j.link m
  train : t.tracker = { j.tracker with train := emptied j u }
  trays : t.assembler.trays = j.assembler.trays.set d.tray.val (Tray.commit j.assembler.trays[d.tray]) d.tray.isLt
  rotation : t.assembler.rotation = j.assembler.rotation
  rest : t = { j with record := t.record, journal := t.journal, tracker := t.tracker, assembler := t.assembler }

theorem page_counted (j : State) (c : Canonical j) (d : OpenDocument) (u : Ticket) (e : Evaluator) (ho : j.assembler.openDocument = some d)
    (hout : 0 < (j.slot (d.folio.toNat / 16)).outstanding) (w : State × Decision) (hw : w = j.countPage d u e.tags) (t : State)
    (ht : t = State.drainClose { w.1 with assembler.outcomes := w.1.assembler.outcomes ++ [{ ordinal := u.ordinal, decision := w.2 }] }) :
    PageCounted j t d u e := by
  set n := d.folio.toNat / 16 with hn
  set k := (j.editTicket u.ordinal fun v => { v with frontChain := {}, backChain := {} }).editTray d.tray Tray.commit with hk
  have ks : ∀ m, k.slot m = j.slot m := fun _ => rfl
  have kc : Canonical k := c
  have ke : k = { j with tracker := { j.tracker with train := emptied j u }, assembler := { j.assembler with trays := j.assembler.trays.set d.tray.val (Tray.commit j.assembler.trays[d.tray]) d.tray.isLt } } := rfl
  have hw' : w = (if (j.slot n).pageCount = 250 then k.closeDocument (some true) else k,
      { route := some d.tray, page := some { folio := d.folio, ordinal := (j.slot n).pageCount }, reason := none, tags := e.tags }) := hw
  set dec : Decision := { route := some d.tray, page := some { folio := d.folio, ordinal := (j.slot n).pageCount }, reason := none, tags := e.tags } with hdec
  have kopen : k.assembler.openDocument = some d := ho
  have cs : closedState (j.slot n) = .filing := by unfold closedState; rw [if_pos hout]
  have lst := fun x : State => last_iff j x u dec
  rw [hw'] at ht
  dsimp only at ht
  have clr : ∀ x : State, x.record = j.record → x.closeRecord n = { x with record := (x.closeRecord n).record, journal := (x.closeRecord n).journal } := by
    intro x hx
    have b := (close_spec x n).busy (by rw [slot_congr hx]; exact hout)
    have := (close_spec x n).rest
    rw [show (x.closeRecord n).port.notices = x.port.notices by rw [b.1], show (x.closeRecord n).folio.kept = x.folio.kept by rw [b.2]] at this
    exact this
  have fields : ∀ t : State, ∀ r jn o lc m, t = { k with record := r, journal := jn, assembler := { k.assembler with outcomes := j.assembler.outcomes ++ [⟨u.ordinal, dec⟩], openDocument := o, lastClosed := lc, marker := m } } →
      t.tracker = { j.tracker with train := emptied j u } ∧ t.assembler.trays = j.assembler.trays.set d.tray.val (Tray.commit j.assembler.trays[d.tray]) d.tray.isLt ∧ t.assembler.rotation = j.assembler.rotation ∧
      t = { j with record := t.record, journal := t.journal, tracker := t.tracker, assembler := t.assembler } := by
    rintro t r jn o lc m rfl
    exact ⟨rfl, rfl, rfl, rfl⟩
  by_cases h9 : (j.slot n).pageCount = 250
  · rw [if_pos h9, closeDoc_eq k _ d kopen, ← hn, clr k rfl] at ht
    have e1 : t = { k with record := (k.closeRecord n).record, journal := (k.closeRecord n).journal, assembler := { k.assembler with outcomes := j.assembler.outcomes ++ [⟨u.ordinal, dec⟩], openDocument := none, lastClosed := some d.folio, marker := true } } := by
      rw [ht]
      unfold State.drainClose
      split
      · rw [closeDoc_none _ _ rfl]; rfl
      · rfl
    obtain ⟨f1, f2, f3, f4⟩ := fields t _ _ _ _ _ e1
    have hrec : t.record = (k.closeRecord n).record := (congrArg State.record e1).trans (Eq.refl _)
    have cl := close_spec k n
    refine ⟨by rw [e1], fun _ => ⟨by rw [e1], by rw [e1], ?_⟩, fun h => absurd h9 h, fun h => absurd h9 h, fun _ => by rw [e1], fun m hm => ?_, fun m => ?_, fun m => ?_, f1, f2, f3, f4⟩
    · rw [slot_congr hrec, cl.slot kc, ks, cs]
    · rw [slot_congr hrec, cl.other m hm, ks]
    · rw [matterAt_congr hrec, cl.place]; rfl
    · rw [link_congr hrec, cl.link]; rfl
  · rw [if_neg h9] at ht
    set x : State := { k with assembler.outcomes := k.assembler.outcomes ++ [⟨u.ordinal, dec⟩] } with hx
    have lx := lst x rfl rfl rfl
    have xo : x.assembler.openDocument = some d := kopen
    by_cases hl : LastRuling j u
    · have e0 : t = x.closeDocument none := by rw [ht]; unfold State.drainClose; exact if_pos (lx.2 hl)
      rw [closeDoc_eq x _ d xo, ← hn, clr x rfl] at e0
      have e1 : t = { k with record := (x.closeRecord n).record, journal := (x.closeRecord n).journal, assembler := { k.assembler with outcomes := j.assembler.outcomes ++ [⟨u.ordinal, dec⟩], openDocument := none, lastClosed := some d.folio, marker := k.assembler.marker } } := by
        rw [e0]; rfl
      obtain ⟨f1, f2, f3, f4⟩ := fields t _ _ _ _ _ e1
      have hrec : t.record = (x.closeRecord n).record := (congrArg State.record e1).trans (Eq.refl _)
      have clx := close_spec x n
      refine ⟨by rw [e1], fun h => absurd h h9, fun _ _ => ⟨by rw [e1], by rw [e1]; rfl, ?_⟩, fun _ h => absurd hl h, fun _ => by rw [e1], fun m hm => ?_, fun m => ?_, fun m => ?_, f1, f2, f3, f4⟩
      · rw [slot_congr hrec, clx.slot kc]
        show ({ j.slot n with state := closedState (j.slot n) } : Record) = _
        rw [cs]
      · rw [slot_congr hrec, clx.other m hm]; rfl
      · rw [matterAt_congr hrec, clx.place]; rfl
      · rw [link_congr hrec, clx.link]; rfl
    · have e0 : t = x := by rw [ht]; unfold State.drainClose; exact if_neg (fun h => hl (lx.1 h))
      have e1 : t = { k with record := k.record, journal := k.journal, assembler := { k.assembler with outcomes := j.assembler.outcomes ++ [⟨u.ordinal, dec⟩], openDocument := k.assembler.openDocument, lastClosed := k.assembler.lastClosed, marker := k.assembler.marker } } := by
        rw [e0]; rfl
      obtain ⟨f1, f2, f3, f4⟩ := fields t _ _ _ _ _ e1
      have hrec : t.record = j.record := (congrArg State.record e1).trans (Eq.refl _)
      refine ⟨by rw [e1], fun h => absurd h h9, fun _ h => absurd h hl, fun _ _ => ⟨by rw [e1]; rfl, by rw [e1]; rfl, ?_⟩, fun h => absurd h (by rintro (h | h); exact h9 h; exact hl h), fun m hm => ?_, fun m => ?_, fun m => ?_, f1, f2, f3, f4⟩
      · rw [slot_congr hrec]
      · rw [slot_congr hrec]
      · rw [matterAt_congr hrec]
      · rw [link_congr hrec]

/-- What a page append leaves, with the page-limit close and the drain close behind it. -/
structure PageTaken (q t : State) (d : OpenDocument) (u : Ticket) (e : Evaluator) (front back : List Nat) : Prop where
  out : t.assembler.outcomes = q.assembler.outcomes ++ [⟨u.ordinal, { route := some d.tray, page := some ⟨d.folio, (q.slot (d.folio.toNat / 16)).pageCount + 1⟩, reason := none, tags := e.tags }⟩]
  full : (q.slot (d.folio.toNat / 16)).pageCount = 249 → t.assembler.openDocument = none ∧ t.assembler.marker = true ∧
            t.slot (d.folio.toNat / 16) = { pageAppended q (q.slot (d.folio.toNat / 16)) u e front back with state := .filing }
  last : (q.slot (d.folio.toNat / 16)).pageCount ≠ 249 → LastRuling q u → t.assembler.openDocument = none ∧
            t.assembler.marker = q.assembler.marker ∧
            t.slot (d.folio.toNat / 16) = { pageAppended q (q.slot (d.folio.toNat / 16)) u e front back with state := .filing }
  more : (q.slot (d.folio.toNat / 16)).pageCount ≠ 249 → ¬ LastRuling q u →
            t.assembler.openDocument = q.assembler.openDocument ∧
            t.assembler.marker = q.assembler.marker ∧ t.slot (d.folio.toNat / 16) = pageAppended q (q.slot (d.folio.toNat / 16)) u e front back
  other : ∀ m, m ≠ d.folio.toNat / 16 → t.slot m = q.slot m
  place : ∀ m, t.matterAt m = q.matterAt m
  linked : PlatesLinked q t (q.slot (d.folio.toNat / 16)) u front back
  train : t.tracker = { q.tracker with train := emptied q u }
  trays : t.assembler.trays = q.assembler.trays.set d.tray.val (Tray.commit q.assembler.trays[d.tray]) d.tray.isLt
  rotation : t.assembler.rotation = q.assembler.rotation
  batch : t.batch = q.batch
  folio : t.folio = q.folio
  port : t.port = q.port

theorem page_taken (q : State) (c : Canonical q) (d : OpenDocument) (u : Ticket) (e : Evaluator) (front back : List Nat) (h : TicketPlates q u front back)
    (ho : q.assembler.openDocument = some d) (w : State × Decision) (hw : w = q.takePage d u e.outcome.intakeHold e.tags) (t : State)
    (ht : t = State.drainClose { w.1 with assembler.outcomes := w.1.assembler.outcomes ++ [{ ordinal := u.ordinal, decision := w.2 }] }) :
    PageTaken q t d u e front back := by
  have ap := append_spec q (d.folio.toNat / 16) u e front back h
  set j := q.appendPage (d.folio.toNat / 16) u e.tags e.outcome.intakeHold with hj
  have ja : j.assembler = q.assembler := by rw [ap.rest]
  have jt : j.tracker = q.tracker := by rw [ap.rest]
  have jb : j.batch = q.batch ∧ j.folio = q.folio ∧ j.port = q.port := by rw [ap.rest]; exact ⟨rfl, rfl, rfl⟩
  have js := ap.slot c
  have P := page_counted j (ap.can c) d u e (by rw [ja]; exact ho) (by rw [js]; exact Nat.succ_pos _) w hw t ht
  have lr : LastRuling j u ↔ LastRuling q u := by unfold LastRuling Unruled; rw [jb.1, jt, ja]
  have pc : (j.slot (d.folio.toNat / 16)).pageCount = (q.slot (d.folio.toNat / 16)).pageCount + 1 := by rw [js]; rfl
  have P0 := P.rest
  obtain ⟨p1, p2, p3, p4, _, p5, p6, p7, p8, p9, p10, _⟩ := P
  rw [pc] at p1 p2 p3 p4
  rw [ja] at p1 p3 p4 p9 p10
  rw [js] at p2 p3 p4
  refine ⟨p1, fun h => p2 (by omega), fun h h' => p3 (by omega) (lr.2 h'), fun h h' => p4 (by omega) (fun x => h' (lr.1 x)), fun m hm => (p5 m hm).trans (ap.other m hm), fun m => (p6 m).trans (ap.place m), ?_, ?_, p9, p10, ?_, ?_, ?_⟩
  · have := ap.linked c
    unfold PlatesLinked at *
    simp only [p7]; exact this
  · rw [p8]; unfold emptied changed; rw [jt]
  · rw [P0]; exact jb.1
  · rw [P0]; exact jb.2.1
  · rw [P0]; exact jb.2.2

theorem link_putNext_eq {s : State} (h : Canonical s) (n p) : (s.putNext n p).link n = { s.link n with next := p } := by
  unfold State.putNext; rw [link_putLink h]

/-- What linking chains one behind the other leaves in the link entries (R140). -/
structure ChainsLinked (s t : State) (cs : List PlateChain) : Prop where
  last : ∀ before c, cs = before ++ [c] → ∀ q, c.tail = some q → t.link q = { s.link q with next := none }
  next : ∀ before c d after, cs = before ++ c :: d :: after → ∀ q, c.tail = some q →
    (∀ x ∈ d :: after, x.tail ≠ some q) → t.link q = { s.link q with next := d.head }
  other : ∀ q, (∀ c ∈ cs, c.tail ≠ some q) → t.link q = s.link q

theorem chains_linked : ∀ (cs : List PlateChain) (s : State), Canonical s → ChainsLinked s (s.linkChains cs) cs
  | [], s, _ => ⟨fun b c h => by simp at h, fun b c d a h => by simp at h, fun _ _ => rfl⟩
  | [c], s, k => by
    unfold State.linkChains
    refine ⟨fun b c' h q hq => ?_, fun b c' d a h => ?_, fun q h => ?_⟩
    · have : c' = c := by
        rcases b with _ | ⟨x, b⟩
        · simpa using h.symm
        · simp at h
      subst this; rw [hq]; exact link_putNext_eq k _ _
    · rcases b with _ | ⟨x, b⟩ <;> simp at h
    · split
      · rename_i x hx; exact link_putNext_ne _ (fun e => h c (by simp) (by rw [hx, e])) _
      · rfl
  | c :: c' :: rest, s, k => by
    unfold State.linkChains
    set u := (match c.tail with
      | some t => s.putNext t c'.head
      | none => s) with hu
    have uc : Canonical u := by rw [hu]; split; exact (quiet_putNext _ _ _).canonical k; exact k
    have un : ∀ q x, { u.link q with next := x } = { s.link q with next := x } := by
      intro q x; rw [hu]; split
      · rename_i y _
        by_cases e : q = y
        · subst e; rw [link_putNext_eq k]
        · rw [link_putNext_ne _ e]
      · rfl
    have uo : ∀ q, c.tail ≠ some q → u.link q = s.link q := by
      intro q h; rw [hu]; split
      · rename_i y hy; exact link_putNext_ne _ (fun e => h (by rw [hy, e])) _
      · rfl
    have L := chains_linked (c' :: rest) u uc
    refine ⟨fun b x h q hq => ?_, fun b x d a h q hq hx => ?_, fun q h => ?_⟩
    · rcases b with _ | ⟨y, b⟩
      · simp at h
      · rw [List.cons_append] at h
        exact (L.last b x (List.cons.inj h).2 q hq).trans (un _ _)
    · rcases b with _ | ⟨y, b⟩
      · rw [List.nil_append] at h
        obtain ⟨h1, h2⟩ := List.cons.inj h
        obtain ⟨h3, h4⟩ := List.cons.inj h2
        subst h1 h3 h4
        exact (L.other q hx).trans (by rw [hu, hq]; exact link_putNext_eq k _ _)
      · rw [List.cons_append] at h
        exact (L.next b x d a (List.cons.inj h).2 q hq hx).trans (un _ _)
    · exact (L.other q (fun x hx => h x (List.mem_cons_of_mem _ hx))).trans (uo q (h c List.mem_cons_self))

theorem chains_returned (cs : List PlateChain) (s : State) (k : Canonical s) : ChainsReturned s (s.returnChains cs) cs := by
  unfold State.returnChains ChainsReturned
  generalize hcs : (cs.filter fun c => decide (0 < c.count)) = given
  dsimp only
  rcases given with _ | ⟨c, rest⟩
  · exact ⟨fun _ => ⟨rfl, fun _ => rfl⟩, fun _ _ h => by simp at h, fun b l h => by simp at h, fun b c d a h => by simp at h, fun _ _ _ => rfl⟩
  dsimp only
  set joined := (match s.images.free.tail with
      | some t => s.putNext t c.head
      | none => s) with hj
  have jc : Canonical joined := by rw [hj]; split; exact (quiet_putNext _ _ _).canonical k; exact k
  have jn : ∀ q x, { joined.link q with next := x } = { s.link q with next := x } := by
    intro q x; rw [hj]; split
    · rename_i y _
      by_cases e : q = y
      · subst e; rw [link_putNext_eq k]
      · rw [link_putNext_ne _ e]
    · rfl
  have jo : ∀ q, s.images.free.tail ≠ some q → joined.link q = s.link q := by
    intro q h; rw [hj]; split
    · rename_i y hy; exact link_putNext_ne _ (fun e => h (by rw [hy, e])) _
    · rfl
  have L := chains_linked (c :: rest) joined jc
  refine ⟨fun h => by simp at h, fun f r h => ?_, fun b l h => ?_, fun b x d a h q hq hx => ?_, fun q h1 h2 => ?_⟩
  · obtain ⟨rfl, rfl⟩ := List.cons.inj h
    refine ⟨rfl, rfl, fun q hq hx => (L.other q hx).trans ?_⟩
    rw [hj, hq]; exact link_putNext_eq k _ _
  · refine ⟨?_, fun q hq => (L.last b l h q hq).trans (jn _ _)⟩
    show (((c :: rest).getLast?.getD c).tail) = _
    rw [h]; simp
  · exact (L.next b x d a h q hq hx).trans (jn _ _)
  · exact (L.other q h2).trans (jo q h1)
theorem links_linkChains : ∀ (cs : List PlateChain) (s : State), Links s (s.linkChains cs)
  | [], s => .rfl
  | [c], s => by
    unfold State.linkChains; split
    · exact links_putNext _ _ _
    · exact .rfl
  | c :: c' :: rest, s => by
    unfold State.linkChains
    refine Links.trans ?_ (links_linkChains (c' :: rest) _)
    split
    · exact links_putNext _ _ _
    · exact .rfl

theorem chains_congr {q s t t' : State} {cs : List PlateChain} (h : ChainsReturned q t cs) (hf : q.images.free = s.images.free)
    (hl : ∀ p, q.link p = s.link p) (tf : t'.images.free = t.images.free) (tl : ∀ p, t'.link p = t.link p) : ChainsReturned s t' cs := by
  unfold ChainsReturned at h ⊢
  simp only [hf, hl] at h
  simp only [tf, tl]; exact h

/-- A ticket's plates have gone back to the free plate queue. -/
structure Returned (s t : State) (u : Ticket) : Prop where
  rest : t = { s with record := t.record, journal := t.journal, tracker := { s.tracker with train := emptied s u }, images.free := t.images.free }
  slot : ∀ n, t.slot n = s.slot n
  place : ∀ n, t.matterAt n = s.matterAt n
  can : Canonical s → Canonical t
  len : t.images.free.length = s.images.free.length + u.frontChain.count + u.backChain.count
  chains : Canonical s → ChainsReturned s t [u.frontChain, u.backChain]

theorem returned_spec (s : State) (u : Ticket) : Returned s (s.returnTicketPlates u) u := by
  have key : ∃ w, s.returnChains [u.frontChain, u.backChain] = w ∧ w = { s with record := w.record, journal := w.journal, images.free := w.images.free } ∧ (∀ n, w.slot n = s.slot n) ∧ (∀ n, w.matterAt n = s.matterAt n) ∧ (Canonical s → Canonical w) ∧
      w.images.free.length = s.images.free.length + u.frontChain.count + u.backChain.count := by
    refine ⟨_, rfl, ?_⟩
    have cnt : (([u.frontChain, u.backChain].filter fun c => 0 < c.count).map PlateChain.count).sum = u.frontChain.count + u.backChain.count := by
      by_cases h1 : 0 < u.frontChain.count <;> by_cases h2 : 0 < u.backChain.count <;> simp [List.filter, h1, h2] <;> omega
    unfold State.returnChains
    generalize hcs : ([u.frontChain, u.backChain].filter fun c => 0 < c.count) = cs at cnt
    cases cs with
    | nil =>
      dsimp only
      refine ⟨rfl, fun _ => rfl, fun _ => rfl, id, ?_⟩
      simp at cnt; omega
    | cons c rest =>
      dsimp only
      set joined := (match s.images.free.tail with
      | some t => s.putNext t c.head
      | none => s) with hj
      have lj : Links s joined := by rw [hj]; split; exact links_putNext _ _ _; exact .rfl
      have l := lj.trans (links_linkChains (c :: rest) joined)
      generalize hl : joined.linkChains (c :: rest) = linked at l ⊢
      refine ⟨?_, fun n => ?_, fun n => ?_, fun h => l.can h, ?_⟩
      · conv_lhs => rw [show linked = _ from l.rest]
      · show linked.slot n = _; unfold State.slot; rw [l.slot]
      · show linked.matterAt n = _; unfold State.matterAt; rw [l.place]
      · show s.images.free.length + _ = _
        rw [cnt]; omega
  obtain ⟨w, hw, h1, h2, h3, h4, h5⟩ := key
  have R := fun c => chains_returned [u.frontChain, u.backChain] s c
  unfold State.returnTicketPlates
  rw [hw] at R ⊢
  refine ⟨?_, h2, h3, h4, h5, R⟩
  conv_lhs => rw [h1]
  rfl

/-- What opening a record with its first page leaves. -/
structure Opened (q w : State) (n place : Nat) (fresh : Record) (p : Option Word) (u : Ticket) (e : Evaluator) (front back : List Nat) : Prop where
  rest : w = { q with record := w.record, journal := w.journal, folio.freeSlots := q.folio.freeSlots - 1 }
  slot : w.slot n = pageAppended q fresh u e front back
  tail : ∀ t, (q.matterAt place).tail = some t → (w.slot t).chainNext = some n
  partner : ∀ f, p = some f → (w.slot (f.toNat / 16)).successor = some (fresh.folio n)
  state : ∀ m, m ≠ n → (w.slot m).state = (q.slot m).state
  place : w.matterAt place = (q.matterAt place).join n
  linked : PlatesLinked q w fresh u front back
  can : Canonical w

theorem opened_spec (q : State) (c : Canonical q) (n place : Nat) (k : TrayIx) (box : Long) (pr p : Option Word) (hp : q.livePredecessor pr = p)
    (u : Ticket) (e : Evaluator) (front back : List Nat) (hpl : TicketPlates q u front back)
    (hnum : (q.matterAt place).number ≠ 0) (htl : (q.matterAt place).tail ≠ some n) (hpn : ∀ f, p = some f → f.toNat / 16 ≠ n) :
    Opened q (q.openRecord n place k box pr u e.tags e.outcome.intakeHold) n place (q.newRecord n place k box p) p u e front back := by
  unfold State.openRecord
  rw [hp]
  dsimp only
  set m := q.matterAt place with hm
  set fresh := q.newRecord n place k box p with hfr
  rw [paged_eq q fresh u e front back hpl]
  set r := pageAppended q fresh u e front back with hr
  obtain ⟨L, PL⟩ := linkPage_spec q fresh u front back hpl
  replace PL := PL c
  set y := q.linkPage fresh.plateTail u with hy
  have yc : Canonical y := L.can c
  have ys : ∀ j, y.slot j = q.slot j := fun j => by unfold State.slot; rw [L.slot]
  have ym : ∀ j, y.matterAt j = q.matterAt j := fun j => by unfold State.matterAt; rw [L.place]
  set z := y.putSlot n r with hz
  have zc : Canonical z := can_putSlot yc _ _
  have zr : z = { q with record := z.record, journal := z.journal } := by
    rw [hz]; conv_lhs => rw [L.rest]
    rfl
  set linked := z.linkSlot n m with hl
  have lc : Canonical linked ∧ linked = { q with record := linked.record, journal := linked.journal } ∧ linked.slot n = r ∧ (∀ t, m.tail = some t → (linked.slot t).chainNext = some n) ∧ (∀ j, j ≠ n → (linked.slot j).state = (q.slot j).state) ∧ (∀ j, linked.matterAt j = q.matterAt j) ∧ (∀ j, linked.link j = y.link j) := by
    rw [hl]; unfold State.linkSlot
    rcases ht : m.tail with _ | t
    · exact ⟨zc, zr, slot_putSlot yc _ _, (by simp), fun j hj => by rw [hz, slot_putSlot_ne _ hj, ys], ym, fun _ => rfl⟩
    · dsimp only
      have tn : t ≠ n := fun h => htl (by rw [ht, h])
      unfold State.editSlot
      refine ⟨can_putSlot zc _ _, ?_, ?_, fun t' h => ?_, fun j hj => ?_, ym, fun _ => rfl⟩
      · conv_lhs => rw [zr]
        rfl
      · rw [slot_putSlot_ne _ (fun h => tn h.symm), hz, slot_putSlot yc]
      · cases h; rw [slot_putSlot zc]
      · by_cases e : j = t
        · subst e; rw [slot_putSlot zc]; show (z.slot j).state = _; rw [hz, slot_putSlot_ne _ hj, ys]
        · rw [slot_putSlot_ne _ e, hz, slot_putSlot_ne _ hj, ys]
  obtain ⟨l1, l2, l3, l4, l5, l6, l7⟩ := lc
  set part := linked.linkPredecessor p (fresh.folio n) with hpa
  have pc : Canonical part ∧ part = { q with record := part.record, journal := part.journal } ∧ part.slot n = r ∧ (∀ t, m.tail = some t → (part.slot t).chainNext = some n) ∧ (∀ f, p = some f → (part.slot (f.toNat / 16)).successor = some (fresh.folio n)) ∧ (∀ j, j ≠ n → (part.slot j).state = (q.slot j).state) ∧ (∀ j, part.matterAt j = q.matterAt j) ∧ (∀ j, part.link j = y.link j) := by
    rw [hpa]; unfold State.linkPredecessor
    rcases hpp : p with _ | f
    · exact ⟨l1, l2, l3, l4, (by simp), l5, l6, l7⟩
    · dsimp only
      have fn := hpn f hpp
      have sf : slotOf f = f.toNat / 16 := rfl
      unfold State.editSlot
      rw [sf]
      refine ⟨can_putSlot l1 _ _, ?_, ?_, fun t ht => ?_, fun f' h => ?_, fun j hj => ?_, fun j => by rw [matterAt_putSlot, l6], fun j => by rw [link_putSlot, l7]⟩
      · conv_lhs => rw [l2]
        rfl
      · rw [slot_putSlot_ne _ (fun h => fn h.symm), l3]
      · by_cases e : t = f.toNat / 16
        · subst e; rw [slot_putSlot l1]; exact l4 _ ht
        · rw [slot_putSlot_ne _ e]; exact l4 _ ht
      · cases h; rw [slot_putSlot l1]
      · by_cases e : j = f.toNat / 16
        · subst e; rw [slot_putSlot l1]; exact l5 _ hj
        · rw [slot_putSlot_ne _ e]; exact l5 _ hj
  obtain ⟨p1, p2, p3, p4, p5, p6, p7, p8⟩ := pc
  have jn : (m.join n).number ≠ 0 := hnum
  have ff : part.folio = q.folio := by rw [p2]
  refine ⟨?_, p3, p4, p5, p6, ?_, ?_, can_putMatter p1 _ _⟩
  · show ({ part.putMatter place (m.join n) with folio := { part.folio with freeSlots := part.folio.freeSlots - 1 } } : State) = _
    rw [ff]
    conv_lhs => rw [p2]
    rfl
  · exact matterAt_putMatter p1 place jn
  · unfold PlatesLinked at PL ⊢
    have lk : ∀ j, (State.link { part.putMatter place (m.join n) with folio := { part.folio with freeSlots := part.folio.freeSlots - 1 } } j) = y.link j := fun j => p8 j
    exact ⟨fun a b h1 h2 h3 => (congrArg Link.next (lk a)).trans (PL.1 a b h1 h2 h3), fun a b h1 h2 h3 => (congrArg Link.next (lk a)).trans (PL.2.1 a b h1 h2 h3), fun a h1 h2 => (lk a).trans (PL.2.2 a h1 h2)⟩

/-- What no part of a ruling changes: the Assembler, the evaluator, the engine, the batch, the lines, the
replies. -/
def RulingKept (s t : State) : Prop :=
  t = { s with port := t.port, folio := t.folio, record := t.record, journal := t.journal, tracker := t.tracker, images := t.images } ∧ t.port.replies = s.port.replies
theorem RulingKept.rfl {s} : RulingKept s s := ⟨Eq.refl _, Eq.refl _⟩
theorem RulingKept.trans {s t u} (h : RulingKept s t) (k : RulingKept t u) : RulingKept s u := by
  obtain ⟨h, h'⟩ := h; obtain ⟨k, k'⟩ := k
  refine ⟨?_, k'.trans h'⟩
  conv_lhs => rw [k]
  conv_lhs => rw [h]
theorem rulingKept_putNext (n p s) : RulingKept s (State.putNext n p s) := ⟨rfl, rfl⟩
theorem rulingKept_putSlot (n p s) : RulingKept s (State.putSlot n p s) := ⟨rfl, rfl⟩
theorem rulingKept_link (cs : List PlateChain) : ∀ s, RulingKept s (State.linkChains cs s) := by
  induction cs with
  | nil => intro s; exact .rfl
  | cons c cs ih =>
    intro s
    rcases cs with _ | ⟨c', cs⟩
    · unfold State.linkChains; split
      · exact rulingKept_putNext _ _ _
      · exact .rfl
    · unfold State.linkChains
      refine RulingKept.trans ?_ (ih _)
      split
      · exact rulingKept_putNext _ _ _
      · exact .rfl
theorem rulingKept_return (cs s) : RulingKept s (State.returnChains cs s) := by
  unfold State.returnChains
  split
  · exact .rfl
  · dsimp only
    refine RulingKept.trans (RulingKept.trans (t := (match s.images.free.tail with
      | some t => s.putNext t _
      | none => s)) ?_ (rulingKept_link _ _)) ⟨rfl, rfl⟩
    split
    · exact rulingKept_putNext _ _ _
    · exact .rfl
theorem rulingKept_returnTicket (u s) : RulingKept s (State.returnTicketPlates u s) := (rulingKept_return _ _).trans ⟨rfl, rfl⟩
theorem rulingKept_post (n s) : RulingKept s (State.postFolio n s) := by unfold State.postFolio; split <;> exact ⟨rfl, rfl⟩
theorem rulingKept_closeRecord (n s) : RulingKept s (State.closeRecord n s) := by
  unfold State.closeRecord; dsimp only; split
  · exact rulingKept_putSlot _ _ _
  · exact (rulingKept_putSlot _ _ _).trans (rulingKept_post _ _)
theorem rulingKept_linkPage (o t s) : RulingKept s (State.linkPage o t s) := by
  unfold State.linkPage
  dsimp only
  have joined : RulingKept s (match o, t.plateChains.head? with
      | some p, some c => s.putNext p c.head
      | _, _ => s) := by
    split
    · exact rulingKept_putNext _ _ _
    · exact .rfl
  split
  · split
    · exact joined.trans (rulingKept_putNext _ _ _)
    · exact joined
  · exact joined
theorem rulingKept_append (n t g h s) : RulingKept s (State.appendPage n t g h s) := by
  unfold State.appendPage
  exact (rulingKept_linkPage _ _ _).trans (rulingKept_putSlot _ _ _)

/-- The evaluator and the lines are as they were. -/
def EvaluatorKept (s t : State) : Prop := t.evaluator = s.evaluator ∧ t.lines = s.lines
theorem EvaluatorKept.rfl {s} : EvaluatorKept s s := ⟨Eq.refl _, Eq.refl _⟩
theorem EvaluatorKept.trans {s t u} (h : EvaluatorKept s t) (k : EvaluatorKept t u) : EvaluatorKept s u := ⟨k.1.trans h.1, k.2.trans h.2⟩
theorem RulingKept.evaluatorKept {s t} (h : RulingKept s t) : EvaluatorKept s t := by rw [h.1]; exact ⟨Eq.refl _, Eq.refl _⟩
theorem evaluatorKept_closeDoc (m s) : EvaluatorKept s (State.closeDocument m s) := by
  unfold State.closeDocument; split
  · exact .rfl
  · exact EvaluatorKept.trans (rulingKept_closeRecord _ _).evaluatorKept ⟨rfl, rfl⟩
theorem evaluatorKept_drainClose (s) : EvaluatorKept s (State.drainClose s) := by
  unfold State.drainClose; split
  · exact evaluatorKept_closeDoc _ _
  · exact .rfl
theorem evaluatorKept_countPage (d t g s) : EvaluatorKept s (State.countPage d t g s).1 := by
  unfold State.countPage
  dsimp only
  have h1 : EvaluatorKept s ((s.editTicket t.ordinal fun u => { u with frontChain := {}, backChain := {} }).editTray d.tray Tray.commit) := ⟨rfl, rfl⟩
  split
  · exact h1.trans (evaluatorKept_closeDoc _ _)
  · exact h1
theorem evaluatorKept_takePage (d t h g s) : EvaluatorKept s (State.takePage d t h g s).1 :=
  (rulingKept_append (slotOf d.folio) t g h s).evaluatorKept.trans (evaluatorKept_countPage _ _ _ _)
theorem evaluatorKept_reject (t s) : EvaluatorKept s (State.takeReject t s) := EvaluatorKept.trans (rulingKept_returnTicket t s).evaluatorKept ⟨rfl, rfl⟩
theorem evaluatorKept_raise (c s) : EvaluatorKept s (State.raise c s) := by
  unfold State.raise
  split
  · exact .rfl
  · split
    · unfold State.enterFeedHold State.postBatch; split <;> exact ⟨rfl, rfl⟩
    · exact ⟨rfl, rfl⟩
    · exact ⟨rfl, rfl⟩
    · exact .rfl
    · exact .rfl
theorem evaluatorKept_turn (t r g c s) : EvaluatorKept s (State.turnAway t r g c s).1 := (evaluatorKept_reject t s).trans (evaluatorKept_raise _ _)
theorem evaluatorKept_linkPredecessor (p f s) : EvaluatorKept s (State.linkPredecessor p f s) := by
  unfold State.linkPredecessor; split <;> exact ⟨rfl, rfl⟩
theorem evaluatorKept_linkSlot (n m) (s : State) : EvaluatorKept s (s.linkSlot n m) := by
  unfold State.linkSlot; split <;> exact ⟨rfl, rfl⟩
theorem evaluatorKept_open (n p k b pr u g h s) : EvaluatorKept s (State.openRecord n p k b pr u g h s) := by
  unfold State.openRecord
  dsimp only
  generalize s.newRecord n p k b (s.livePredecessor pr) = r
  have h1 := (rulingKept_linkPage r.plateTail u s).evaluatorKept
  generalize State.linkPage r.plateTail u s = x at h1 ⊢
  have h2 : EvaluatorKept x (x.putSlot n (s.paged u g h r)) := ⟨rfl, rfl⟩
  generalize x.putSlot n (s.paged u g h r) = y at h2 ⊢
  have h3 := evaluatorKept_linkSlot n (s.matterAt p) y
  generalize y.linkSlot n (s.matterAt p) = z at h3 ⊢
  have h4 := evaluatorKept_linkPredecessor (s.livePredecessor pr) (r.folio n) z
  generalize State.linkPredecessor (s.livePredecessor pr) (r.folio n) z = w at h4 ⊢
  exact ((h1.trans h2).trans h3).trans (h4.trans ⟨rfl, rfl⟩)
theorem evaluatorKept_bind (f k b s) : EvaluatorKept s (State.bindDocument f k b s) := ⟨rfl, rfl⟩
theorem evaluatorKept_takeOpen (e t s) : EvaluatorKept s (State.takeOpen e t s).1 := by
  unfold State.takeOpen
  split
  · split <;> exact evaluatorKept_turn _ _ _ _ _
  · split
    · exact evaluatorKept_turn _ _ _ _ _
    · dsimp only
      exact ((evaluatorKept_open _ _ _ _ _ _ _ _ _).trans (evaluatorKept_bind _ _ _ _)).trans (evaluatorKept_countPage _ _ _ _)
theorem evaluatorKept_rule (e t s) : EvaluatorKept s (State.rule e t s).1 := by
  unfold State.rule
  split
  · have h : EvaluatorKept s ((s.returnTicketPlates t).closeDocument (some false)) := (rulingKept_returnTicket t s).evaluatorKept.trans (evaluatorKept_closeDoc _ _)
    generalize hx : (s.returnTicketPlates t).closeDocument (some false) = x at h
    show EvaluatorKept s (s.takeSeparator t)
    unfold State.takeSeparator
    rw [hx]
    exact h
  · split
    · refine (evaluatorKept_reject t s).trans ?_
      unfold State.tellReject; split
      · exact ⟨rfl, rfl⟩
      · exact .rfl
    · unfold State.takeSheet
      split
      · exact evaluatorKept_takeOpen _ _ _
      · split
        · exact (evaluatorKept_closeDoc _ _).trans (evaluatorKept_takeOpen _ _ _)
        · exact evaluatorKept_takePage _ _ _ _ _

theorem rejectNoted_eq (r : Record) (d : Nat) : r.addException { page := r.pageCount, cause := .sheetRejected, detail := d } = rejectNoted r d := by
  unfold Record.addException rejectNoted
  by_cases h8 : r.exceptions.length < 8
  · rw [if_pos (show r.exceptions.length < Config.exceptionPlaces from h8)]; dsimp only; rw [if_pos h8, decide_eq_false (by omega), Bool.or_false]
  · rw [if_neg (show ¬ r.exceptions.length < Config.exceptionPlaces from h8)]; dsimp only; rw [if_neg h8, decide_eq_true (by omega), Bool.or_true]

theorem or_left (c : HoldCauses) : c.or { noTray := true } = { c with noTray := true } := by
  unfold HoldCauses.or; simp only [Bool.or_false, Bool.or_true]
theorem or_left' (c : HoldCauses) : c.or { tableFull := true } = { c with tableFull := true } := by
  unfold HoldCauses.or; simp only [Bool.or_false, Bool.or_true]

theorem raise_running (rc : HoldCauses) (y : State) (h : ¬ rc.isEmpty = true) (hs : y.batch.state = .running) :
    y.raise rc = y.enterFeedHold (y.batch.causes.or rc) := by
  unfold State.raise; rw [if_neg h]; split <;> simp_all
theorem raise_held (rc : HoldCauses) (y : State) (h : ¬ rc.isEmpty = true) (hs : y.batch.state = .feedHold ∨ y.batch.state = .draining) :
    y.raise rc = { y with batch.causes := y.batch.causes.or rc } := by
  unfold State.raise; rw [if_neg h]; split <;> simp_all

/-- A sheet turned away, with its outcome handed over. -/
theorem turned (s q t : State) (u : Ticket) (e : Evaluator) (reason : RejectReason) (raised : Bool) (rc causes : HoldCauses)
    (c : Canonical q) (hql : ∀ p, q.link p = s.link p) (ha : s.acts = true) (hqp : q.port = s.port) (hqf : q.folio = s.folio) (hqb : q.batch = s.batch) (hqa : q.assembler = s.assembler) (hqt : q.tracker = s.tracker) (hqi : q.images = s.images)
    (ho : s.assembler.openDocument = none) (hr : raised = !rc.isEmpty) (hc : raised = true → s.batch.causes.or rc = causes)
    (ht : t = State.drainClose { (q.turnAway u reason e.tags rc).1 with assembler.outcomes := (q.turnAway u reason e.tags rc).1.assembler.outcomes ++ [{ ordinal := u.ordinal, decision := (q.turnAway u reason e.tags rc).2 }] }) :
    TurnedAway s t u e reason raised causes := by
  have R := returned_spec q u
  set z := q.returnTicketPlates u with hz
  have ze : z.port = s.port ∧ z.folio = s.folio ∧ z.batch = s.batch ∧ z.assembler = s.assembler ∧ z.tracker = { s.tracker with train := emptied s u } ∧
      z.images.free.length = s.images.free.length + u.frontChain.count + u.backChain.count := by
    refine ⟨by rw [R.rest]; exact hqp, by rw [R.rest]; exact hqf, by rw [R.rest]; exact hqb, by rw [R.rest]; exact hqa, ?_, by rw [R.len, hqi]⟩
    rw [R.rest]; show ({ q.tracker with train := emptied q u } : Tracker) = _
    unfold emptied changed; rw [hqt]
  obtain ⟨z1, z2, z3, z4, z5, z6⟩ := ze
  set y := q.takeReject u with hy
  have ye : y = { z with batch := { s.batch with rejected := min (s.batch.rejected + 1) 65535 } } := by
    rw [hy]; unfold State.takeReject; rw [← hz]
    show ({ z with batch := { z.batch with rejected := countUp z.batch.rejected } } : State) = _
    rw [z3]; rfl
  have hmot : s.batch.state = .running ∨ s.batch.state = .feedHold ∨ s.batch.state = .draining := by
    unfold State.acts State.motorOn at ha
    cases hs : s.batch.state <;> rw [hs] at ha <;> simp at ha ⊢
  have tw : State.turnAway u reason e.tags rc q = (y.raise rc, .reject reason e.tags) := rfl
  rw [tw] at ht
  dsimp only at ht
  -- the raise
  have key : ∃ v, y.raise rc = v ∧ v.tracker = y.tracker ∧ v.images = y.images ∧ v.folio = y.folio ∧ v.assembler = y.assembler ∧
      v.batch = { s.batch with rejected := min (s.batch.rejected + 1) 65535, causes := if raised then causes else s.batch.causes, state := if raised ∧ s.batch.state = .running then .feedHold else s.batch.state, kept := v.batch.kept } ∧
      (raised = true → s.batch.state = .running → BatchNotice s v (.feedHold causes s.batch.fed (min (s.batch.rejected + 1) 65535) s.batch.opened)) ∧
      (raised = false ∨ s.batch.state ≠ .running → v.port = s.port ∧ v.batch.kept = s.batch.kept) ∧ v.record = y.record := by
    refine ⟨_, rfl, ?_⟩
    by_cases hE : rc.isEmpty = true
    · unfold State.raise
      have hf : raised = false := by rw [hr, hE]; rfl
      rw [if_pos hE, hf, ye]
      refine ⟨rfl, rfl, rfl, rfl, rfl, fun h => absurd h (by decide), fun _ => ⟨z1, rfl⟩, rfl⟩
    · have hf : raised = true := by rw [hr]; simpa using hE
      have hcc := hc hf
      have yb : y.batch = { s.batch with rejected := min (s.batch.rejected + 1) 65535 } := by rw [ye]
      rcases hmot with h | h | h
      · have hys : y.batch.state = .running := by rw [yb]; exact h
        have yc : y.batch.causes.or rc = causes := by rw [yb]; exact hcc
        rw [raise_running rc y hE hys, yc]
        set v0 : State := { y with batch.state := .feedHold, batch.causes := causes } with hv0
        have hn : y.enterFeedHold causes = State.postBatch (.feedHold causes s.batch.fed (min (s.batch.rejected + 1) 65535) s.batch.opened) v0 := by
          unfold State.enterFeedHold
          show State.postBatch (.feedHold causes y.batch.fed y.batch.rejected y.batch.opened) v0 = _
          rw [yb]
        rw [hn]
        have fr : ∀ n, (State.postBatch n v0).tracker = y.tracker ∧ (State.postBatch n v0).images = y.images ∧ (State.postBatch n v0).folio = y.folio ∧ (State.postBatch n v0).assembler = y.assembler ∧ (State.postBatch n v0).batch = { v0.batch with kept := (State.postBatch n v0).batch.kept } ∧ (State.postBatch n v0).record = y.record := by
          intro n; unfold State.postBatch; split <;> exact ⟨rfl, rfl, rfl, rfl, rfl, rfl⟩
        obtain ⟨f1, f2, f3, f4, f5, f6⟩ := fr (.feedHold causes s.batch.fed (min (s.batch.rejected + 1) 65535) s.batch.opened)
        refine ⟨f1, f2, f3, f4, ?_, fun _ _ => batchNotice_post s v0 _ (by show y.port = _; rw [ye]; exact z1) (by show y.batch.kept = _; rw [yb]), fun hx => ?_, f6⟩
        · conv_lhs => rw [f5]
          rw [if_pos hf, if_pos ⟨hf, h⟩]
          show ({ y.batch with state := _, causes := _, kept := _ } : Batch) = _
          rw [yb]
        · rcases hx with hx | hx
          · rw [hf] at hx; exact absurd hx (by decide)
          · exact absurd h hx
      all_goals
        have hys := (congrArg Batch.state yb).trans h
        have yc : y.batch.causes.or rc = causes := by rw [yb]; exact hcc
        rw [raise_held rc y hE (by first | exact .inl hys | exact .inr hys), yc]
        refine ⟨rfl, rfl, rfl, rfl, ?_, fun _ hx => absurd (h.symm.trans hx) (by decide), fun _ => ⟨by show y.port = _; rw [ye]; exact z1, by show y.batch.kept = _; rw [yb]⟩, rfl⟩
        rw [if_pos hf, if_neg (fun hx => absurd (h.symm.trans hx.2) (by decide))]
        show ({ y.batch with causes := causes } : Batch) = _
        rw [yb]
  obtain ⟨v, hv, v1, v2, v3, v4, v5, v6, v7, v8⟩ := key
  rw [hv] at ht
  have hvo : v.assembler = s.assembler := by rw [v4, ye]; exact z4
  have te : t = { v with assembler.outcomes := v.assembler.outcomes ++ [{ ordinal := u.ordinal, decision := .reject reason e.tags }] } := by
    rw [ht]; unfold State.drainClose
    split
    · exact closeDoc_none _ _ (by show v.assembler.openDocument = none; rw [hvo]; exact ho)
    · rfl
  have tt : t.tracker = { s.tracker with train := emptied s u } := by rw [te]; show v.tracker = _; rw [v1, ye]; exact z5
  refine ⟨?_, ⟨tt, chains_congr (R.chains c) (by rw [hqi]) hql (by rw [te]; show v.images.free = _; rw [v2, ye]) (fun p => by rw [te]; exact link_congr (v8.trans (by rw [ye])) p), ?_⟩, ?_, ?_, ?_, ?_, ?_⟩
  · rw [te]; show v.assembler.outcomes ++ _ = _; rw [hvo]; rfl
  · rw [te]; show v.images.free.length = _; rw [v2, ye]; exact z6
  · rw [te]; show v.assembler.openDocument = _; rw [hvo]; exact ho
  · rw [te]; show v.folio = _; rw [v3, ye]; exact z2
  · rw [te]; exact v5
  · intro h1 h2; rw [te]; exact v6 h1 h2
  · intro h; rw [te]; exact v7 h

theorem pfrom_congr {s t : State} (h : ∀ p, t.link p = s.link p) : ∀ (l : List Nat) (x : Option Nat), PlatesFrom s x l → PlatesFrom t x l
  | [], _, _ => trivial
  | n :: l, _, k => ⟨k.1, by rw [h]; exact pfrom_congr h l _ k.2⟩
theorem tp_congr {s t : State} (h : ∀ p, t.link p = s.link p) {u f b} (k : TicketPlates s u f b) : TicketPlates t u f b :=
  ⟨pfrom_congr h _ _ k.1, k.2.1, pfrom_congr h _ _ k.2.2.1, k.2.2.2⟩

theorem drainClose_none (s : State) (h : s.assembler.openDocument = none) : s.drainClose = s := by
  unfold State.drainClose; split
  · exact closeDoc_none _ _ h
  · rfl

/-- A SEPARATE sheet, with its outcome handed over. -/
theorem separated (s q t : State) (u : Ticket) (e : Evaluator) (c : Canonical q)
    (hqp : q.port = s.port) (hqf : q.folio = s.folio) (hqb : q.batch = s.batch) (hqa : q.assembler = s.assembler) (hqt : q.tracker = s.tracker) (hqi : q.images = s.images)
    (hqs : ∀ n, q.slot n = s.slot n) (hql : ∀ p, q.link p = s.link p)
    (ht : t = State.drainClose { q.takeSeparator u with assembler.outcomes := (q.takeSeparator u).assembler.outcomes ++ [{ ordinal := u.ordinal, decision := .reject .separator e.tags }] }) :
    HandsOver s t u { route := none, page := none, reason := some .separator, tags := e.tags } ∧
        PlatesReturned s t u ∧ t.assembler.marker = false ∧ t.assembler.openDocument = none ∧
        (∀ d, s.assembler.openDocument = some d → DocumentClosed s t d (s.slot (d.folio.toNat / 16))) ∧ t.batch = s.batch := by
  have R := returned_spec q u
  set z := q.returnTicketPlates u with hz
  have z1 : z.port = s.port := by rw [R.rest]; exact hqp
  have z2 : z.folio = s.folio := by rw [R.rest]; exact hqf
  have z3 : z.batch = s.batch := by rw [R.rest]; exact hqb
  have z4 : z.assembler = s.assembler := by rw [R.rest]; exact hqa
  have z5 : z.tracker = { s.tracker with train := emptied s u } := by
    rw [R.rest]; show ({ q.tracker with train := emptied q u } : Tracker) = _
    unfold emptied changed; rw [hqt]
  have z6 : z.images.free.length = s.images.free.length + u.frontChain.count + u.backChain.count := by rw [R.len, hqi]
  have zr : ∀ t' : State, t'.images.free = z.images.free → (∀ p, t'.link p = z.link p) → ChainsReturned s t' [u.frontChain, u.backChain] :=
    fun t' => chains_congr (R.chains c) (by rw [hqi]) hql
  unfold State.takeSeparator at ht
  rw [← hz] at ht
  rcases ho : s.assembler.openDocument with _ | d
  · rw [closeDoc_none z _ (by rw [z4]; exact ho)] at ht
    dsimp only at ht
    have te : t = { z with assembler := { s.assembler with marker := false, outcomes := s.assembler.outcomes ++ [{ ordinal := u.ordinal, decision := .reject .separator e.tags }] } } := by
      have hx : z.assembler.openDocument = none := by rw [z4]; exact ho
      refine ht.trans ((drainClose_none _ ?_).trans ?_)
      · exact hx
      · rw [z4]
    rw [te]
    exact ⟨rfl, ⟨z5, zr _ rfl (fun _ => rfl), z6⟩, rfl, ho, fun d h => absurd h (by simp), z3⟩
  · rw [closeDoc_eq z _ d (by rw [z4]; exact ho)] at ht
    dsimp only at ht
    have C := close_spec z (d.folio.toNat / 16)
    set v := z.closeRecord (d.folio.toNat / 16) with hv
    have te : t = { v with assembler := { s.assembler with openDocument := none, lastClosed := some d.folio, marker := false, outcomes := s.assembler.outcomes ++ [{ ordinal := u.ordinal, decision := .reject .separator e.tags }] } } := by
      have va : v.assembler = s.assembler := by rw [C.rest]; exact z4
      refine ht.trans ((drainClose_none _ rfl).trans ?_)
      rw [z4]
    rw [te]
    refine ⟨rfl, ⟨?_, zr _ (by show v.images.free = _; rw [C.rest]) (fun p => C.link p), ?_⟩, rfl, rfl, fun d' hd => ?_, ?_⟩
    · show v.tracker = _; rw [C.rest]; exact z5
    · show v.images.free.length = _; rw [C.rest]; exact z6
    · cases hd
      have hzs : z.slot (d.folio.toNat / 16) = s.slot (d.folio.toNat / 16) := by rw [R.slot, hqs]
      refine ⟨?_, rfl, rfl, fun h0 hk hn => ?_⟩
      · show v.slot _ = _; rw [C.slot (R.can c), hzs]
      · show v.port.notices = _
        rw [(C.note (by rw [hzs]; exact h0) (by rw [z2]; exact hk) (by rw [z1]; exact hn)).1, hzs, z1]
    · show v.batch = _; rw [C.rest]; exact z3

/-- A rejected sheet, with its outcome handed over. -/
theorem rejected (s q t : State) (u : Ticket) (e : Evaluator) (r : RejectReason) (c : Canonical q)
    (hqp : q.port = s.port) (hqf : q.folio = s.folio) (hqb : q.batch = s.batch) (hqa : q.assembler = s.assembler) (hqt : q.tracker = s.tracker) (hqi : q.images = s.images)
    (hqs : ∀ n, q.slot n = s.slot n) (hql : ∀ p, q.link p = s.link p)
    (ht : t = State.drainClose { (q.takeReject u).tellReject r.detail with assembler.outcomes := ((q.takeReject u).tellReject r.detail).assembler.outcomes ++ [{ ordinal := u.ordinal, decision := .reject r e.tags }] }) :
    HandsOver s t u { route := none, page := none, reason := some r, tags := e.tags } ∧
        PlatesReturned s t u ∧ t.assembler.marker = s.assembler.marker ∧
        t.batch = { s.batch with rejected := min (s.batch.rejected + 1) 65535 } ∧
        (¬ LastRuling s u → t.assembler.openDocument = s.assembler.openDocument) ∧
        ∀ d, s.assembler.openDocument = some d →
          (¬ LastRuling s u → t.slot (d.folio.toNat / 16) = rejectNoted (s.slot (d.folio.toNat / 16)) r.detail) ∧
          (LastRuling s u → DocumentClosed s t d (rejectNoted (s.slot (d.folio.toNat / 16)) r.detail)) := by
  have R := returned_spec q u
  set z := q.returnTicketPlates u with hz
  have z1 : z.port = s.port := by rw [R.rest]; exact hqp
  have z2 : z.folio = s.folio := by rw [R.rest]; exact hqf
  have z3 : z.batch = s.batch := by rw [R.rest]; exact hqb
  have z4 : z.assembler = s.assembler := by rw [R.rest]; exact hqa
  have z5 : z.tracker = { s.tracker with train := emptied s u } := by
    rw [R.rest]; show ({ q.tracker with train := emptied q u } : Tracker) = _
    unfold emptied changed; rw [hqt]
  have z6 : z.images.free.length = s.images.free.length + u.frontChain.count + u.backChain.count := by rw [R.len, hqi]
  have zr : ∀ t' : State, t'.images.free = z.images.free → (∀ p, t'.link p = z.link p) → ChainsReturned s t' [u.frontChain, u.backChain] :=
    fun t' => chains_congr (R.chains c) (by rw [hqi]) hql
  set y := q.takeReject u with hy
  have ye : y = { z with batch := { s.batch with rejected := min (s.batch.rejected + 1) 65535 } } := by
    rw [hy]; unfold State.takeReject; rw [← hz]
    show ({ z with batch := { z.batch with rejected := countUp z.batch.rejected } } : State) = _
    rw [z3]; rfl
  have yc : Canonical y := by rw [ye]; exact R.can c
  set w := y.tellReject r.detail with hw
  have we : w.port = s.port ∧ w.folio = s.folio ∧ w.batch = { s.batch with rejected := min (s.batch.rejected + 1) 65535 } ∧ w.assembler = s.assembler ∧ w.tracker = { s.tracker with train := emptied s u } ∧ w.images = z.images ∧ Canonical w ∧ (∀ p, w.link p = z.link p) ∧
      ∀ d, s.assembler.openDocument = some d → w.slot (d.folio.toNat / 16) = rejectNoted (s.slot (d.folio.toNat / 16)) r.detail := by
    have ya : y.assembler = s.assembler := by rw [ye]; exact z4
    rw [hw]; unfold State.tellReject
    rw [ya]
    rcases ho : s.assembler.openDocument with _ | d
    · dsimp only; rw [ye]; exact ⟨z1, z2, rfl, z4, z5, rfl, R.can c, fun _ => rfl, fun d h => absurd h (by simp)⟩
    · dsimp only
      refine ⟨?_, ?_, ?_, ?_, ?_, ?_, can_putSlot yc _ _, fun p => by rw [ye]; rfl, fun d' hd => ?_⟩
      · show y.port = _; rw [ye]; exact z1
      · show y.folio = _; rw [ye]; exact z2
      · show y.batch = _; rw [ye]
      · exact ya
      · show y.tracker = _; rw [ye]; exact z5
      · show y.images = _; rw [ye]
      · cases hd
        unfold State.rejectedSheet State.editSlot
        rw [show slotOf d.folio = d.folio.toNat / 16 from rfl, slot_putSlot yc]
        have : y.slot (d.folio.toNat / 16) = s.slot (d.folio.toNat / 16) := by
          rw [ye]; exact (R.slot _).trans (hqs _)
        rw [this]; exact rejectNoted_eq _ _
  obtain ⟨w1, w2, w3, w4, w5, w6, w7, wl, w8⟩ := we
  set v : State := { w with assembler.outcomes := w.assembler.outcomes ++ [{ ordinal := u.ordinal, decision := .reject r e.tags }] } with hv
  have va : v.assembler = { s.assembler with outcomes := s.assembler.outcomes ++ [{ ordinal := u.ordinal, decision := .reject r e.tags }] } := by
    rw [hv]; dsimp only; rw [w4]
  have lr := last_iff s v u (.reject r e.tags) (by show w.batch.state = _; rw [w3]) (by show w.tracker.train = _; rw [w5]) (by rw [va])
  by_cases hl : LastRuling s u
  · have t0 : t = v.closeDocument none := by rw [ht]; unfold State.drainClose; exact if_pos (lr.mpr hl)
    rcases ho : s.assembler.openDocument with _ | d
    · rw [closeDoc_none v _ (by rw [va]; exact ho)] at t0
      rw [t0]
      refine ⟨?_, ⟨w5, zr _ (by show w.images.free = _; rw [w6]) wl, ?_⟩, ?_, w3, fun h => absurd hl h, fun d h => absurd h (by simp)⟩
      · unfold HandsOver; rw [va]; rfl
      · show w.images.free.length = _; rw [w6]; exact z6
      · rw [va]
    · rw [closeDoc_eq v _ d (by rw [va]; exact ho)] at t0
      have C := close_spec v (d.folio.toNat / 16)
      rw [t0]
      refine ⟨?_, ⟨?_, zr _ (by show (v.closeRecord _).images.free = _; rw [C.rest]; show w.images.free = _; rw [w6]) (fun p => (C.link p).trans (wl p)), ?_⟩, ?_, ?_, fun h => absurd hl h, fun d' hd => ⟨fun h => absurd hl h, fun _ => ?_⟩⟩
      · show v.assembler.outcomes = _; rw [va]; rfl
      · show (v.closeRecord _).tracker = _; rw [C.rest]; exact w5
      · show (v.closeRecord _).images.free.length = _; rw [C.rest]; show w.images.free.length = _; rw [w6]; exact z6
      · show v.assembler.marker = _; rw [va]
      · show (v.closeRecord _).batch = _; rw [C.rest]; exact w3
      · cases hd
        have hvs : v.slot (d.folio.toNat / 16) = rejectNoted (s.slot (d.folio.toNat / 16)) r.detail := w8 d ho
        refine ⟨?_, rfl, rfl, fun h0 hk hn => ?_⟩
        · show (v.closeRecord _).slot _ = _; rw [C.slot w7, hvs]
        · show (v.closeRecord _).port.notices = _
          rw [(C.note (by rw [hvs]; exact h0) (by show w.folio.kept = _; rw [w2]; exact hk) (by show w.port.notices.length < 16; rw [w1]; exact hn)).1, hvs]
          show w.port.notices ++ _ = _
          rw [w1]
  · have t0 : t = v := by rw [ht]; unfold State.drainClose; exact if_neg fun h => hl (lr.mp h)
    rw [t0]
    refine ⟨?_, ⟨w5, zr _ (by show w.images.free = _; rw [w6]) wl, ?_⟩, ?_, w3, fun _ => ?_, fun d hd => ⟨fun _ => w8 d hd, fun h => absurd h hl⟩⟩
    · unfold HandsOver; rw [va]; rfl
    · show w.images.free.length = _; rw [w6]; exact z6
    · rw [va]
    · rw [va]

theorem folio_slot (n : Nat) (g : BitVec 4) (h : n < 4096) : (folioOf n g).toNat / 16 = n := by
  unfold folioOf word
  have := g.isLt
  rw [BitVec.toNat_ofNat]; omega

theorem page_congr {q s : State} (h : ∀ p, q.link p = s.link p) (r u e f b) : pageAppended q r u e f b = pageAppended s r u e f b := by
  unfold pageAppended; simp only [h]

/-- A document opened, from a state whose last document is closed. -/
theorem opening (s q t : State) (u : Ticket) (e : Evaluator) (k : TrayIx) (n place : Nat) (pr : Option Word) (front back : List Nat)
    (c : Canonical q) (hn : n < 4096) (hsn : q.slot n = s.slot n) (hm : q.matterAt place = s.matterAt place) (hl : ∀ p, q.link p = s.link p)
    (htr : q.assembler.trays = s.assembler.trays) (hro : q.assembler.rotation = s.assembler.rotation) (hou : q.assembler.outcomes = s.assembler.outcomes)
    (hb : q.batch = s.batch) (ht : q.tracker = s.tracker) (hff : q.folio.freeSlots = s.folio.freeSlots)
    (hch : q.chooseTray e.outcome.route = some k) (hcl : q.openClaim = some (n, place))
    (hp : q.livePredecessor (if q.assembler.marker then q.assembler.lastClosed else none) = pr) (hpn : ∀ f, pr = some f → f.toNat / 16 ≠ n)
    (hnum : (s.matterAt place).number ≠ 0) (htl : (s.matterAt place).tail ≠ some n) (hpl : TicketPlates s u front back)
    (te : t = State.drainClose { (q.takeOpen e u).1 with assembler.outcomes := (q.takeOpen e u).1.assembler.outcomes ++ [{ ordinal := u.ordinal, decision := (q.takeOpen e u).2 }] }) :
    DocumentOpened s t u e k n place pr front back ∧ ∀ m, m ≠ n → (t.slot m).state = (q.slot m).state := by
  have O := opened_spec q c n place k q.assembler.trays[k].box (if q.assembler.marker then q.assembler.lastClosed else none) pr hp u e front back (tp_congr hl hpl) (by rw [hm]; exact hnum) (by rw [hm]; exact htl) hpn
  set folio := folioOf n (q.slot n).generation with hfo
  have hfn : folio.toNat / 16 = n := folio_slot n _ hn
  have hfs : folio = folioNumber s n := by rw [hfo, hsn]; rfl
  have hto : q.takeOpen e u = ((q.openRecord n place k q.assembler.trays[k].box (if q.assembler.marker then q.assembler.lastClosed else none) u e.tags e.outcome.intakeHold).bindDocument folio k (e.outcome.route = .rotation)).countPage
        { folio := folio, tray := k } u e.tags := by
    unfold State.takeOpen; rw [hch]; dsimp only; rw [hcl]
  rw [hto] at te
  set w := q.openRecord n place k q.assembler.trays[k].box (if q.assembler.marker then q.assembler.lastClosed else none) u e.tags e.outcome.intakeHold with hw
  set q2 := w.bindDocument folio k (e.outcome.route = .rotation) with hq2
  have wa : w.assembler = q.assembler := by rw [O.rest]
  have wb : w.batch = q.batch := by rw [O.rest]
  have wt : w.tracker = q.tracker := by rw [O.rest]
  have wf : w.folio.freeSlots = q.folio.freeSlots - 1 := by rw [O.rest]
  set fresh : Record := {
    generation := (s.slot n).generation, state := .assembling, matter := s.batch.matter, place := place,
    sequence := (s.matterAt place).nextSequence, cls := s.batch.cls, tray := some k, box := s.assembler.trays[k].box,
    predecessor := pr } with hfr
  have nf : q.newRecord n place k q.assembler.trays[k].box pr = fresh := by
    unfold State.newRecord
    rw [hsn, hm, hb, hfr]; simp only [htr]
  rw [nf] at O
  set page := pageAppended s fresh u e front back with hpg
  have qf : q2.slot n = page := by
    show w.slot n = _
    rw [O.slot]; exact page_congr hl _ _ _ _ _
  have P := page_counted q2 O.can { folio := folio, tray := k } u e rfl (by show 0 < (q2.slot (folio.toNat / 16)).outstanding; rw [hfn, qf]; exact Nat.succ_pos _) _ rfl t te
  have lr : LastRuling q2 u ↔ LastRuling s u := by
    have h1 : q2.batch.state = s.batch.state := by show w.batch.state = _; rw [wb, hb]
    have h2 : q2.tracker = s.tracker := by show w.tracker = _; rw [wt, ht]
    have h3 : q2.assembler.outcomes = s.assembler.outcomes := by show w.assembler.outcomes = _; rw [wa, hou]
    unfold LastRuling Unruled; rw [h1, h2, h3]
  have P0 := P.rest
  obtain ⟨p1, _, p3, p4, _, p5, p6, p7, p8, p9, p10, _⟩ := P
  dsimp only at p1 p3 p4 p5 p6 p7 p8 p9 p10
  rw [hfn] at p1 p3 p4 p5
  rw [qf] at p1 p3 p4
  have pc : page.pageCount = 1 := rfl
  have wtr : q2.assembler.trays = s.assembler.trays := by show w.assembler.trays = _; rw [wa, htr]
  have wou : q2.assembler.outcomes = s.assembler.outcomes := by show w.assembler.outcomes = _; rw [wa, hou]
  have trk : q2.tracker = s.tracker := by show w.tracker = _; rw [wt, ht]
  refine ⟨⟨?_, fun h => ?_, fun h => ?_, ?_, ?_, fun x hx => ?_, fun f hf => ?_, ?_, ?_, ?_, ?_, ?_, fun j hj => ?_, ?_⟩, fun m hmn => ?_⟩
  · unfold HandsOver; rw [p1, wou, pc, hfs]
  · obtain ⟨a, _, b⟩ := p3 (by rw [pc]; decide) (lr.mpr h); exact ⟨b, a⟩
  · obtain ⟨a, _, b⟩ := p4 (by rw [pc]; decide) (fun x => h (lr.mp x))
    exact ⟨b, by rw [a, ← hfs]; rfl⟩
  · have L := O.linked
    unfold PlatesLinked at L ⊢
    simp only [hl] at L
    have lk : ∀ p, t.link p = w.link p := p7
    simp only [lk]; exact L
  · unfold ChainsEmptied
    rw [p8]; unfold emptied changed; rw [trk]
  · have hxn : x ≠ n := fun h => htl (by rw [hx, h])
    rw [p5 x hxn]
    exact O.tail x (by rw [hm]; exact hx)
  · rw [p5 _ (hpn f hf)]
    have := O.partner f hf
    refine this.trans ?_
    rfl
  · rw [p6]
    refine O.place.trans ?_
    rw [hm]; unfold Matter.join sequenceAfter
    cases (s.matterAt place).head <;> rfl
  · have : t.folio = q2.folio := by rw [P0]
    rw [this]; show w.folio.freeSlots = _; rw [wf, hff]
  · by_cases h : LastRuling s u
    · exact (p3 (by rw [pc]; decide) (lr.mpr h)).2.1
    · exact (p4 (by rw [pc]; decide) (fun x => h (lr.mp x))).2.1
  · rw [p10]
    show (if decide (e.outcome.route = .rotation) = true then k + 1 else w.assembler.rotation) = _
    rw [wa, hro]; simp only [decide_eq_true_eq]
  · show t.assembler.trays[k.val] = _
    simp only [p9, wtr, Vector.getElem_set_self]; rfl
  · show t.assembler.trays[j.val] = s.assembler.trays[j.val]
    simp only [p9, wtr]
    exact Vector.getElem_set_ne _ _ (fun h => hj (Fin.ext h.symm))
  · have : t.batch = q2.batch := by rw [P0]
    rw [this]; show ({ w.batch with opened := countUp w.batch.opened } : Batch) = _
    rw [wb, hb]; rfl
  · rw [p5 m hmn]; exact O.state m hmn

theorem choose_eq (s q : State) (route : RouteCandidate) (k : TrayIx) (htr : q.assembler.trays = s.assembler.trays) (hro : q.assembler.rotation = s.assembler.rotation)
    (h : Chosen s route k) : q.chooseTray route = some k := by
  have el : ∀ j : TrayIx, (s.assembler.trays[j].eligible = true ↔ Eligible s j) := fun j => by
    unfold Tray.eligible Tray.sum Eligible; simp
  obtain ⟨h1, h2⟩ := h
  unfold State.chooseTray
  rcases h2 with rfl | ⟨rfl, j, hj, hlt⟩
  · dsimp only; rw [htr, if_pos ((el k).mpr h1)]
  · dsimp only
    rw [htr, hro]
    unfold rotationOrder
    have hk := (el k).mpr h1
    have no : ∀ i : TrayIx, i < j → s.assembler.trays[s.assembler.rotation + i].eligible = false := fun i hi => by
      rw [Bool.eq_false_iff]; intro hx; exact hlt i hi ((el _).mp hx)
    have z : s.assembler.rotation + 0 = s.assembler.rotation := by simp
    rw [hj] at hk ⊢
    fin_cases j
    · simp only [List.find?_cons]
      have : s.assembler.trays[s.assembler.rotation].eligible = true := by simpa using hk
      rw [this]; simp
    · have n0 : s.assembler.trays[s.assembler.rotation].eligible = false := by simpa using no 0 (by decide)
      simp only [List.find?_cons]
      rw [n0]
      have : s.assembler.trays[s.assembler.rotation + 1].eligible = true := hk
      rw [this]; rfl
    · have n0 : s.assembler.trays[s.assembler.rotation].eligible = false := by simpa using no 0 (by decide)
      have n1 := no 1 (by decide)
      simp only [List.find?_cons]
      rw [n0, n1]
      have : s.assembler.trays[s.assembler.rotation + 2].eligible = true := hk
      rw [this]; rfl
    · have n0 : s.assembler.trays[s.assembler.rotation].eligible = false := by simpa using no 0 (by decide)
      have n1 := no 1 (by decide)
      have n2 := no 2 (by decide)
      simp only [List.find?_cons]
      rw [n0, n1, n2]
      have : s.assembler.trays[s.assembler.rotation + 3].eligible = true := hk
      rw [this]; rfl

theorem ffirst (f : Nat → Bool) (p : Nat) (hp : f p = true) : ∀ (c a : Nat), a ≤ p → p < a + c → (∀ q, a ≤ q → q < p → f q = false) → firstFrom f a c = some p
  | 0, a, h1, h2, _ => by omega
  | c + 1, a, h1, h2, h => by
    unfold firstFrom
    by_cases e : a = p
    · subst e; rw [if_pos hp]
    · rw [if_neg (by rw [h a (Nat.le_refl _) (by omega)]; decide)]
      exact ffirst f p hp c (a + 1) (by omega) (by omega) fun q h3 h4 => h q (by omega) h4

theorem claim_eq (s q : State) (n place : Nat) (h : Opens s n place) (hb : q.batch = s.batch) (hff : q.folio.freeSlots = s.folio.freeSlots) (hk : q.folio.kept = []) (hix : q.folio.index = s.folio.index)
    (hm : q.matterAt place = s.matterAt place) (hsn : (q.slot n).state = .free) (hlow : ∀ m, m < n → (q.slot m).state ≠ .free) : q.openClaim = some (n, place) := by
  obtain ⟨h1, h2, h3, h4, h5, ⟨pin, h6⟩, h7, h8, h9, h10⟩ := h
  unfold State.openClaim
  rw [if_neg (by rw [hff, hk]; simp [h1])]
  have e1 : q.findMatter q.batch.matter = s.findMatter s.batch.matter := by
    unfold State.findMatter; rw [hix, hb]
  have e2 : q.freeSlot = some n := ffirst _ n (by simpa using hsn) _ 0 (Nat.zero_le _) (by show n < 0 + 4096; omega) fun m _ hm => by simpa using hlow m hm
  rw [e1, h6, e2]
  dsimp only
  rw [hm, if_neg h9]

end Sys2Proof.Laws.Decisions
end

