-- ==== Sys2Proof/Laws/Batches.lean ====
section
/-! SUPPORT. What the shared operations of a batch's end leave: a record settled, a page not shelved, the open
document closed, the matter unpinned, the batch gone to IDLE, a ticket disposed of. -/

namespace Sys2Proof.Laws.Batches

open Sys2Proof.Machine Sys2Proof.Safety Sys2Proof.Claims Sys2Proof.Laws.Decisions

/-- `Unchanged` from one equation for each block that is not named. -/
theorem unchanged_of {but : List Part} {s t : State}
    (port : .port ∈ but ∨ t.port = s.port) (folio : .folio ∈ but ∨ t.folio = s.folio)
    (record : .record ∈ but ∨ t.record = s.record)
    (assembler : .assembler ∈ but ∨ t.assembler = s.assembler)
    (evaluator : .evaluator ∈ but ∨ t.evaluator = s.evaluator)
    (tracker : .tracker ∈ but ∨ t.tracker = s.tracker) (engine : .engine ∈ but ∨ t.engine = s.engine)
    (images : .images ∈ but ∨ t.images = s.images) (batch : .batch ∈ but ∨ t.batch = s.batch)
    (lines : .lines ∈ but ∨ t.lines = s.lines) (pending : t.pending = s.pending) : Unchanged but s t :=
  ⟨port.resolve_left, folio.resolve_left, record.resolve_left, assembler.resolve_left,
    evaluator.resolve_left, tracker.resolve_left, engine.resolve_left, images.resolve_left,
    batch.resolve_left, lines.resolve_left, pending⟩

theorem Unchanged.rfl {but : List Part} {s : State} : Unchanged but s s :=
  ⟨fun _ => Eq.refl _, fun _ => Eq.refl _, fun _ => Eq.refl _, fun _ => Eq.refl _, fun _ => Eq.refl _,
    fun _ => Eq.refl _, fun _ => Eq.refl _, fun _ => Eq.refl _, fun _ => Eq.refl _, fun _ => Eq.refl _,
    Eq.refl _⟩

/-! ## Records -/

theorem slotWritten_of {s t : State} (c : Canonical s) (n : Nat) (r : Record)
    (h : t.record = (s.putSlot n r).record) : SlotWritten s t n r :=
  ⟨by rw [slotEntry_congr h, slotEntry_putSlot c]; rfl,
    RecordKept.trans (kept_putSlot n r s) (RecordKept.of_record h (a := []) (b := []) (c := []))⟩

theorem putSlot_congr {s u : State} (h : u.record = s.record) (n : Nat) (r : Record) :
    (u.putSlot n r).record = (s.putSlot n r).record := by
  unfold State.putSlot State.writeRecord State.slotEntry
  dsimp only
  rw [h]

theorem postFolio_record (n : Notice) (u : State) : (u.postFolio n).record = u.record := by
  unfold State.postFolio; split <;> rfl

theorem folioNotice_post (s u : State) (n : Notice) (hp : u.port = s.port) (hk : u.folio = s.folio) :
    FolioNotice s (u.postFolio n) n := by
  unfold State.postFolio
  constructor
  · intro h1 h2
    rw [if_pos ⟨by rw [hk]; exact h1, by unfold State.noticeRoom Config.noticePlaces; rw [hp]; omega⟩]
    exact ⟨by dsimp only; rw [hp], hk⟩
  · intro h
    rw [if_neg]
    · exact ⟨hp, by dsimp only; rw [hk]⟩
    · rintro ⟨a, b⟩
      rw [hk] at a; unfold State.noticeRoom Config.noticePlaces at b; rw [hp] at b
      rcases h with h | h
      · exact h a
      · omega

theorem settled_settle (s u : State) (c : Canonical s) (n : Nat) (r : Record) (hr : u.record = s.record)
    (hp : u.port = s.port) (hk : u.folio = s.folio) : Settled s (u.settleRecord n r) n r := by
  have sw : ∀ (r' : Record) (t : State), t.record = (u.putSlot n r').record → SlotWritten s t n r' :=
    fun r' t ht => slotWritten_of c n r' (ht.trans (putSlot_congr hr n r'))
  unfold State.settleRecord
  constructor
  · intro h
    rw [if_neg h]
    exact ⟨sw _ _ rfl, hp, hk⟩
  · intro h1 h2
    rw [if_pos ⟨h1, h2⟩]
    exact ⟨sw _ _ (postFolio_record _ _), folioNotice_post s _ _ hp hk⟩

theorem slotWritten_congr {s t t' : State} {n : Nat} {r : Record} (h : SlotWritten s t n r)
    (hr : t'.record = t.record) : SlotWritten s t' n r :=
  ⟨by rw [slotEntry_congr hr]; exact h.1,
    RecordKept.trans h.2 (RecordKept.of_record hr (a := []) (b := []) (c := []))⟩

theorem settled_congr {s t t' : State} {n : Nat} {r : Record} (h : Settled s t n r)
    (hr : t'.record = t.record) (hp : t'.port = t.port) (hk : t'.folio = t.folio) : Settled s t' n r := by
  refine ⟨fun x => ?_, fun x y => ?_⟩
  · obtain ⟨a, b, c⟩ := h.1 x
    exact ⟨slotWritten_congr a hr, hp.trans b, hk.trans c⟩
  · obtain ⟨a, b⟩ := h.2 x y
    refine ⟨slotWritten_congr a hr, ?_⟩
    unfold FolioNotice at *
    rw [hp, hk]; exact b

theorem settle_frame (u : State) (n : Nat) (r : Record) : ∃ rec j ns k, u.settleRecord n r =
    { u with record := rec, journal := j, port.notices := ns, folio.kept := k } := by
  unfold State.settleRecord
  split
  · unfold State.fileRecord State.postFolio
    split
    · exact ⟨_, _, _, u.folio.kept, rfl⟩
    · exact ⟨_, _, u.port.notices, _, rfl⟩
  · exact ⟨_, _, u.port.notices, u.folio.kept, rfl⟩

/-! ## Pages not shelved (R16) -/

theorem exception_stored (r : Record) (e : ExceptionEntry) (o : Nat) :
    ({ r.addException e with outstanding := o } : Record) = { r with
      exceptions := (if r.exceptions.length < 8 then r.exceptions ++ [e] else r.exceptions)
      overflow := r.overflow || decide (8 ≤ r.exceptions.length)
      outstanding := o } := by
  unfold Record.addException
  by_cases h8 : r.exceptions.length < 8
  · rw [if_pos (show r.exceptions.length < Config.exceptionPlaces from h8), if_pos h8,
      decide_eq_false (by omega)]; simp
  · rw [if_neg (show ¬ r.exceptions.length < Config.exceptionPlaces from h8), if_neg h8,
      decide_eq_true (by omega)]; simp

/-- A page not shelved, from a state with the record memory, the port, the folio table and the trays of
`s`. -/
theorem notShelved_spec (s w : State) (c : Canonical s) (hr : w.record = s.record) (hp : w.port = s.port)
    (hf : w.folio = s.folio) (ha : w.assembler.trays = s.assembler.trays) (g : PageOf) (k : TrayIx)
    (d : Nat) : NotShelved s (w.notShelved g (some k) d) g k d := by
  unfold State.notShelved State.resolveNotShelved
  dsimp only
  have hs : w.slot (slotOf g.folio) = s.slot (g.folio.toNat / 16) := slot_congr hr _
  rw [hs, exception_stored]
  unfold NotShelved
  dsimp only
  set r' : Record := { s.slot (g.folio.toNat / 16) with
      exceptions := _
      overflow := _
      outstanding := (s.slot (g.folio.toNat / 16)).outstanding - 1 } with hr'
  have se := settled_settle s w c (g.folio.toNat / 16) r' hr hp hf
  obtain ⟨rec, j, ns, kk, e⟩ := settle_frame w (g.folio.toNat / 16) r'
  have as : ((w.settleRecord (g.folio.toNat / 16) r').editTray k Tray.uncommit).assembler.trays =
      s.assembler.trays.set k.val (Tray.uncommit s.assembler.trays[k]) k.isLt := by
    rw [e]; show w.assembler.trays.set k.val (Tray.uncommit w.assembler.trays[k]) k.isLt = _
    simp only [ha]
  refine ⟨settled_congr se rfl rfl rfl, ?_, ?_⟩
  · show ((w.settleRecord (g.folio.toNat / 16) r').editTray k Tray.uncommit).assembler.trays[k.val] = _
    simp only [as]
    exact Vector.getElem_set_self _
  · intro jx hj
    show ((w.settleRecord (g.folio.toNat / 16) r').editTray k Tray.uncommit).assembler.trays[jx.val] =
      s.assembler.trays[jx.val]
    simp only [as]
    exact Vector.getElem_set_ne _ _ (fun h => hj (Fin.ext h.symm))

theorem notShelved_frame (w : State) (g : PageOf) (k : Option TrayIx) (d : Nat) :
    ∃ rec j ns kk tr, w.notShelved g k d =
      { w with record := rec, journal := j, port.notices := ns, folio.kept := kk, assembler.trays := tr } := by
  unfold State.notShelved State.resolveNotShelved
  dsimp only
  obtain ⟨rec, j, ns, kk, e⟩ := settle_frame w (slotOf g.folio)
    { (w.slot (slotOf g.folio)).addException { page := g.ordinal, cause := .notShelved, detail := d } with
      outstanding := (w.slot (slotOf g.folio)).outstanding - 1 }
  rw [e]
  rcases k with _ | k
  · exact ⟨rec, j, ns, kk, w.assembler.trays, rfl⟩
  · exact ⟨rec, j, ns, kk, _, rfl⟩

theorem notShelved_congr {s t t' : State} {g : PageOf} {k : TrayIx} {d : Nat} (h : NotShelved s t g k d)
    (ha : t'.assembler.trays = t.assembler.trays) (hr : t'.record = t.record) (hp : t'.port = t.port)
    (hk : t'.folio = t.folio) : NotShelved s t' g k d := by
  obtain ⟨a, b, c⟩ := h
  unfold NotShelved; dsimp only
  rw [ha]
  exact ⟨settled_congr a hr hp hk, b, c⟩

/-! ## The open document closed (R14, R65, R66) -/

theorem openClosed_close (s u : State) (c : Canonical s) (hu : Unchanged [] s u) :
    OpenClosed s { u.closeDocument none with journal := s.journal } := by
  obtain ⟨u1, u2, u3, u4, u5, u6, u7, u8, u9, u10, u11⟩ := hu
  replace u1 := u1 (by simp); replace u2 := u2 (by simp); replace u3 := u3 (by simp)
  replace u4 := u4 (by simp); replace u5 := u5 (by simp); replace u6 := u6 (by simp)
  replace u7 := u7 (by simp); replace u8 := u8 (by simp); replace u9 := u9 (by simp)
  replace u10 := u10 (by simp)
  refine ⟨fun h => ?_, fun d h => ?_⟩
  · rw [closeDoc_none u none (by rw [u4]; exact h)]
    exact unchanged_of (.inr u1) (.inr u2) (.inr u3) (.inr u4) (.inr u5) (.inr u6) (.inr u7) (.inr u8)
      (.inr u9) (.inr u10) u11
  · rw [closeDoc_eq u none d (by rw [u4]; exact h)]
    dsimp only
    set n := d.folio.toNat / 16 with hn
    have us : u.slot n = s.slot n := slot_congr u3 n
    have C := (close_spec u n).rest
    have sw : SlotWritten s (u.closeRecord n) n { s.slot n with state := closedState (s.slot n) } := by
      refine slotWritten_of c n _ ?_
      rw [← us, ← putSlot_congr u3]
      unfold State.closeRecord closedState
      dsimp only
      split
      · rfl
      · unfold State.fileRecord; rw [postFolio_record]
    refine ⟨by rw [u4]; rfl, slotWritten_congr sw rfl, fun h0 => ?_, fun h0 => ?_, ?_⟩
    · obtain ⟨a, b⟩ := (close_spec u n).busy (by rw [us]; exact h0)
      exact ⟨a.trans u1, b.trans u2⟩
    · have e : u.closeRecord n = (u.putSlot n { u.slot n with state := .filed }).postFolio
          ((u.slot n).filedNotice n) := by
        unfold State.closeRecord State.fileRecord
        exact if_neg (by rw [us, h0]; simp)
      rw [e, us]
      exact folioNotice_post s (u.putSlot n { s.slot n with state := .filed }) (filedNotice n (s.slot n)) u1 u2
    · rw [C]
      exact unchanged_of (.inl (by decide)) (.inl (by decide)) (.inl (by decide)) (.inl (by decide))
        (.inr u5) (.inr u6) (.inr u7) (.inr u8) (.inr u9) (.inr u10) u11

/-- The close speaks of the port, the folio table, the record memory and the assembler alone. -/
theorem openClosed_congr {s s' t t' : State} (h : OpenClosed s t) (sp : s'.port = s.port)
    (sf : s'.folio = s.folio) (sr : s'.record = s.record) (sa : s'.assembler = s.assembler)
    (tp : t'.port = t.port) (tf : t'.folio = t.folio) (tr : t'.record = t.record)
    (ta : t'.assembler = t.assembler)
    (rest : Unchanged [.port, .folio, .record, .assembler] s' t') : OpenClosed s' t' := by
  obtain ⟨-, -, -, -, r5, r6, r7, r8, r9, r10, r11⟩ := rest
  have eq : ∀ {but : List Part}, (.port ∈ but ∨ t'.port = s'.port) → (.folio ∈ but ∨ t'.folio = s'.folio) →
      (.record ∈ but ∨ t'.record = s'.record) → (.assembler ∈ but ∨ t'.assembler = s'.assembler) →
      Unchanged but s' t' := fun a b c d =>
    unchanged_of a b c d (.inr (r5 (by simp))) (.inr (r6 (by simp))) (.inr (r7 (by simp)))
      (.inr (r8 (by simp))) (.inr (r9 (by simp))) (.inr (r10 (by simp))) r11
  refine ⟨fun hn => ?_, fun d hd => ?_⟩
  · obtain ⟨u1, u2, u3, u4, -⟩ := h.1 (by rw [← sa]; exact hn)
    exact eq (.inr (by rw [tp, sp]; exact u1 (by simp))) (.inr (by rw [tf, sf]; exact u2 (by simp)))
      (.inr (by rw [tr, sr]; exact u3 (by simp))) (.inr (by rw [ta, sa]; exact u4 (by simp)))
  · obtain ⟨c1, c2, c3, c4, -⟩ := h.2 d (by rw [← sa]; exact hd)
    dsimp only
    have e := slot_congr (s := s') (t := s) sr.symm (d.folio.toNat / 16)
    rw [← e]
    refine ⟨by rw [ta, sa]; exact c1, ?_, fun x => ?_, fun x => ?_, eq (.inl (by decide)) (.inl (by decide))
      (.inl (by decide)) (.inl (by decide))⟩
    · refine ⟨by rw [slotEntry_congr tr]; exact c2.1, fun a h1 h2 h3 => ?_⟩
      exact (recordByte_congr tr a).trans ((c2.2 a h1 h2 h3).trans (recordByte_congr sr a).symm)
    · rw [tp, sp, tf, sf]; exact c3 x
    · have := c4 x
      unfold FolioNotice at *
      rw [tp, sp, tf, sf]; exact this

/-! ## The batch goes to IDLE (R172) -/

theorem postBatch_frame (u : State) (n : Notice) : u.postBatch n = { u with
    port.notices := (u.postBatch n).port.notices, batch.kept := (u.postBatch n).batch.kept } := by
  unfold State.postBatch; split <;> rfl

theorem unpin_frame (u : State) : ∃ r j ix, u.unpin = { u with record := r, journal := j, folio.index := ix } := by
  unfold State.unpin State.testRemoval
  split
  · exact ⟨u.record, u.journal, u.folio.index, rfl⟩
  · split
    · exact ⟨_, _, _, rfl⟩
    · exact ⟨u.record, u.journal, _, rfl⟩

/-- What the unpin leaves, with R7's test. -/
theorem unpinned_spec (u : State) (c : Canonical u) : MatterUnpinned u u.unpin := by
  obtain ⟨r, j, ix, e⟩ := unpin_frame u
  refine ⟨by rw [e], fun h => ?_, ?_⟩
  · have : u.unpin = u := by unfold State.unpin; rw [show u.findMatter u.batch.matter = none from h]
    rw [this]; exact ⟨rfl, RecordKept.rfl⟩
  · rintro place ⟨p, hf⟩
    intro m index gone
    have e1 : u.unpin = State.testRemoval place { u with folio.index := index } := by
      unfold State.unpin; rw [hf]
    have np : State.pinned { u with folio.index := index } place = false := by
      unfold State.pinned
      rw [List.any_eq_false]
      intro x hx
      obtain ⟨f, _, rfl⟩ := List.mem_map.1 (show x ∈ index from hx)
      by_cases hp : f.place = place <;> simp [hp]
    have key : State.removable { u with folio.index := index } place = true ↔ gone := by
      unfold State.removable
      rw [np]
      show (decide (m.number ≠ 0) && decide (m.recordCount = 0) && decide (m.holdCount = 0) && !false) = true ↔ _
      simp [gone, and_assoc]
    rw [e1]
    unfold State.testRemoval
    constructor
    · intro hg
      rw [if_pos (key.2 hg)]
      refine ⟨?_, rfl, ?_⟩
      · rw [placeEntry_putMatter (s := { u with folio.index := index.filter fun e => e.place ≠ place }) c place {}]; rfl
      · exact kept_putMatter place {} { u with folio.index := index.filter fun e => e.place ≠ place }
    · intro hg
      rw [if_neg (fun h => hg (key.1 h))]
      exact ⟨rfl, RecordKept.of_record rfl⟩

theorem matterUnpinned_congr {s s' t t' : State} (h : MatterUnpinned s t) (hf : s'.folio = s.folio)
    (hb : s'.batch.matter = s.batch.matter) (hr : s'.record = s.record) (tf : t'.folio = t.folio)
    (tr : t'.record = t.record) : MatterUnpinned s' t' := by
  have rk : ∀ {b}, RecordKept s t [] b [] → RecordKept s' t' [] b [] := fun k a h1 h2 h3 =>
    (recordByte_congr tr a).trans ((k a h1 h2 h3).trans (recordByte_congr hr a).symm)
  obtain ⟨a, b, c⟩ := h
  refine ⟨by rw [tf, hf]; exact a, fun hn => ?_, ?_⟩
  · obtain ⟨b1, b2⟩ := b (by unfold NotInDirectory State.findMatter at *; rw [hf, hb] at hn; exact hn)
    exact ⟨by rw [tf, hf]; exact b1, rk b2⟩
  · rintro place ⟨p, hi⟩
    have c' := c place ⟨p, by unfold State.findMatter at *; rw [hf, hb] at hi; exact hi⟩
    dsimp only at c' ⊢
    rw [tf, hf, placeEntry_congr tr, matterAt_congr hr]
    exact ⟨fun h => ⟨(c'.1 h).1, (c'.1 h).2.1, rk (c'.1 h).2.2⟩, fun h => ⟨(c'.2 h).1, rk (c'.2 h).2⟩⟩

/-- The batch over, from a state that has the record memory, the port, the folio table and the batch's
counters, matter and kept notices of `s`. -/
theorem batchOver_spec (s u : State) (k : EndKind) (hp : u.port = s.port)
    (hf : u.folio = s.folio) (hr : u.record = s.record)
    (hb : u.batch = { s.batch with
      state := u.batch.state, haltCause := u.batch.haltCause, causes := u.batch.causes
      stopTaken := u.batch.stopTaken, feeder := u.batch.feeder }) (uc : Canonical u) :
    BatchOver s (u.enterIdle k) k := by
  unfold State.enterIdle
  set w : State := { u with
        batch.state := .idle
        batch.haltCause := none
        batch.causes := {}
        batch.stopTaken := false
        batch.feeder := .atRest
        tracker.stallTimer := none } with hw
  have wc : Canonical w := uc
  have M := unpinned_spec w wc
  obtain ⟨r, j, ix, h1⟩ := unpin_frame w
  have bn := batchNotice_post s w.unpin (.batchEnded k u.batch.fed u.batch.rejected u.batch.opened)
    (by rw [h1]; exact hp) (by rw [h1]; show u.batch.kept = _; rw [hb])
  have pf := postBatch_frame w.unpin (.batchEnded k u.batch.fed u.batch.rejected u.batch.opened)
  refine ⟨⟨?_, ?_, ?_⟩, ?_⟩
  · rw [pf, h1]; show ({ u.batch with state := _, haltCause := _, causes := _, stopTaken := _, feeder := _, kept := _ } : Batch) = _
    rw [hb]
  · rw [hb] at bn ⊢
    obtain ⟨x, y⟩ := bn
    refine ⟨fun a b => ⟨?_, (x a b).2⟩, fun a => ⟨?_, (y a).2⟩⟩
    · exact (x a b).1
    · exact (y a).1
  · rw [pf, h1]
  · exact matterUnpinned_congr M hf.symm (by show s.batch.matter = u.batch.matter; rw [hb]) hr.symm
      (by rw [pf]) (by rw [pf])

/-! ## Outcomes (R112, R118) -/

theorem ticket_ordinal {s : State} {o : Word} {u : Ticket} (h : s.ticket o = some u) : u.ordinal = o := by
  have := List.find?_some h; simpa using this

/-- What the tracker's taking of the oldest outcome leaves; the ticket that leaves the train with it may end
a drain. -/
theorem outcome_spec (s : State) (o : Outcome) (rest : List Outcome) (h : s.assembler.outcomes = o :: rest)
    (hc : ∀ u, s.ticket o.ordinal = some u → u.flags.exitedUndecided = true →
      o.decision.page = none ∨ Canonical s) :
    ∃ m : State, OutcomeTaken s m o rest ∧
      m = { s with port.notices := m.port.notices, folio.kept := m.folio.kept, record := m.record
                   journal := m.journal, assembler := m.assembler, tracker.train := m.tracker.train } ∧
      m.assembler.openDocument = s.assembler.openDocument ∧
      ((∀ u, s.ticket o.ordinal = some u → u.flags.exitedUndecided = false) → s.takeOutcome = m) ∧
      (∀ u, s.ticket o.ordinal = some u → u.flags.exitedUndecided = true → s.takeOutcome = m.endDrain) ∧
      (Canonical s → Canonical m) := by
  have st : s.takeOutcome = State.settle o { s with assembler.outcomes := rest } := by
    unfold State.takeOutcome; rw [h]
  rw [st]
  unfold State.settle
  rw [show State.ticket { s with assembler.outcomes := rest } o.ordinal = s.ticket o.ordinal from rfl]
  set b : State := { s with assembler.outcomes := rest } with hb
  have un : ∀ {but : List Part} {t : State} {r j ns k tr tn}, .assembler ∈ but → .tracker ∈ but → .port ∈ but → .folio ∈ but → .record ∈ but →
      t = { b with record := r, journal := j, port.notices := ns, folio.kept := k, assembler.trays := tr, tracker.train := tn } → Unchanged but s t := by
    rintro but t r j ns k tr tn h1 h2 h3 h4 h5 rfl
    exact unchanged_of (.inl h3) (.inl h4) (.inl h5) (.inl h1) (.inr (Eq.refl _)) (.inl h2) (.inr (Eq.refl _))
      (.inr (Eq.refl _)) (.inr (Eq.refl _)) (.inr (Eq.refl _)) (Eq.refl _)
  rcases hu : s.ticket o.ordinal with _ | u
  · dsimp only
    refine ⟨b, ⟨rfl, fun _ => ⟨rfl, ?_⟩, fun v hv => ?_⟩, rfl, rfl, fun _ => rfl, fun u hu => by simp at hu, id⟩
    · exact unchanged_of (.inr rfl) (.inr rfl) (.inr rfl) (.inl (by decide)) (.inr rfl) (.inr rfl) (.inr rfl)
        (.inr rfl) (.inr rfl) (.inr rfl) rfl
    · rw [hu] at hv; simp at hv
  · dsimp only
    have uo := ticket_ordinal hu
    have hwo : (s.tracker.train.filter fun v => v.ordinal ≠ o.ordinal) = without s u := by
      unfold without; rw [uo]
    by_cases hx : u.flags.exitedUndecided = true
    · rw [if_pos hx]
      rcases hp : o.decision.page with _ | g
      · dsimp only
        unfold State.dismiss
        refine ⟨b.removeTicket o.ordinal, ⟨rfl, fun h => by rw [hu] at h; simp at h, fun v hv => ?_⟩, rfl, rfl,
          fun hf => by rw [hf u rfl] at hx; simp at hx, fun _ _ _ => rfl, id⟩
        rw [hu] at hv; cases hv
        refine ⟨fun h => by rw [h] at hx; simp at hx, fun _ => ⟨?_, fun _ => ⟨rfl, ?_⟩, fun g k h => by rw [hp] at h; simp at h⟩⟩
        · rw [← hwo]; rfl
        · exact unchanged_of (.inr rfl) (.inr rfl) (.inr rfl) (.inl (by decide)) (.inr rfl) (.inl (by decide))
            (.inr rfl) (.inr rfl) (.inr rfl) (.inr rfl) rfl
      · dsimp only
        unfold State.dismiss
        obtain ⟨rec, j, ns, kk, tr, e⟩ := notShelved_frame b g o.decision.route Astray.late.detail
        have hcan := (hc u hu hx).resolve_left (by rw [hp]; simp)
        have N := fun k => notShelved_spec s b hcan rfl rfl rfl rfl g k 20
        have Nk : ∀ k, o.decision.route = some k → NotShelved s (b.notShelved g o.decision.route Astray.late.detail) g k 20 := by
          intro k hk; rw [hk]; exact N k
        set w := b.notShelved g o.decision.route Astray.late.detail with hw
        refine ⟨w.removeTicket o.ordinal, ⟨by unfold State.removeTicket; rw [e], fun h => by rw [hu] at h; simp at h, fun v hv => ?_⟩,
          ?_, by unfold State.removeTicket; rw [e], fun hf => by rw [hf u rfl] at hx; simp at hx, fun _ _ _ => rfl,
          (quiet_notShelved g o.decision.route Astray.late.detail b).canonical⟩
        · rw [hu] at hv; cases hv
          refine ⟨fun h => by rw [h] at hx; simp at hx, fun _ => ⟨?_, fun h => by rw [hp] at h; simp at h, fun g' k hg hk => ?_⟩⟩
          · rw [← hwo]; unfold State.removeTicket; rw [e]
          · rw [hp] at hg; cases hg
            exact ⟨notShelved_congr (Nk k hk) rfl rfl rfl rfl,
              un (by decide) (by decide) (by decide) (by decide) (by decide) (by unfold State.removeTicket; rw [e])⟩
        · unfold State.removeTicket; rw [e]
    · rw [if_neg hx]
      refine ⟨b.editTicket o.ordinal (Ticket.decide o.decision), ⟨rfl, fun h => by rw [hu] at h; simp at h, fun v hv => ?_⟩,
        rfl, rfl, fun _ => rfl, fun v hv hx' => by cases hv; exact absurd hx' hx, id⟩
      rw [hu] at hv; cases hv
      have lt : u.late o.decision.route = true ↔ ∃ k, o.decision.route = some k ∧ u.gates[k] ≠ .notReached := by
        unfold Ticket.late
        rcases o.decision.route with _ | k
        · simp
        · simp
      have key : ∀ path d, (∀ v : Ticket, v = u → Ticket.decide o.decision v = { v with stage := .decided, decision := some d, path := path }) →
          (∀ b ∈ s.tracker.train, b.ordinal = o.ordinal → b = u) →
          (b.editTicket o.ordinal (Ticket.decide o.decision)).assembler = { s.assembler with outcomes := rest } ∧
          (b.editTicket o.ordinal (Ticket.decide o.decision)).tracker = { s.tracker with train := changed s o.ordinal fun v => { v with
            stage := .decided, decision := some d, path := path } } ∧
          Unchanged [.assembler, .tracker] s (b.editTicket o.ordinal (Ticket.decide o.decision)) := by
        intro path d hv hq
        refine ⟨rfl, ?_, unchanged_of (.inr rfl) (.inr rfl) (.inr rfl) (.inl (by decide)) (.inr rfl) (.inl (by decide))
            (.inr rfl) (.inr rfl) (.inr rfl) (.inr rfl) rfl⟩
        refine congrArg (fun x => ({ s.tracker with train := x } : Tracker)) ?_
        refine List.map_congr_left fun v hm => ?_
        by_cases hvo : v.ordinal = o.ordinal
        · rw [if_pos hvo, if_pos hvo]; exact hv v (hq v hm hvo)
        · rw [if_neg hvo, if_neg hvo]
      refine ⟨fun _ hq => ⟨fun hl => key _ _ ?_ hq, fun hl => key _ _ ?_ hq⟩, fun h => absurd h hx⟩
      · rintro v rfl
        unfold Ticket.decide
        rw [lt.2 hl]; rfl
      · rintro v rfl
        unfold Ticket.decide
        rw [Bool.eq_false_iff.2 (fun x => hl (lt.1 x))]; rfl

/-! ## CLEAR TRAIN's disposal (R123) -/

theorem disposed_spec (s : State) (c : Canonical s) (u : Ticket) (detail : Nat) :
    Disposed s (s.dispose detail u) u detail := by
  unfold State.dispose
  rcases hd : u.decision with _ | d
  · dsimp only
    have R := chains_returned [u.frontChain, u.backChain] s c
    have K : ∃ r j f, s.returnChains [u.frontChain, u.backChain] = { s with record := r, journal := j, images.free := f } ∧
        ∀ n, State.slotEntry { s with record := r, journal := j, images.free := f } n = s.slotEntry n ∧
          State.placeEntry { s with record := r, journal := j, images.free := f } n = s.placeEntry n := by
      unfold State.returnChains
      split
      · exact ⟨s.record, s.journal, s.images.free, rfl, fun _ => ⟨rfl, rfl⟩⟩
      · rename_i c cs _
        dsimp only
        set joined := (match s.images.free.tail with
          | some t => s.putNext t c.head
          | none => s) with hj
        have lj : Links s joined := by rw [hj]; split; exact links_putNext _ _ _; exact .rfl
        have l := lj.trans (links_linkChains (c :: cs) joined)
        refine ⟨(joined.linkChains (c :: cs)).record, (joined.linkChains (c :: cs)).journal,
          ⟨if s.images.free.length = 0 then c.head else s.images.free.head, ((c :: cs).getLast?.getD c).tail,
            s.images.free.length + ((c :: cs).map PlateChain.count).sum⟩, ?_, fun n => ⟨l.slot n, l.place n⟩⟩
        generalize joined.linkChains (c :: cs) = v at l ⊢
        rw [l.rest]
    obtain ⟨r, j, f, e, k⟩ := K
    refine ⟨fun _ => ⟨R, ?_, ?_, ?_⟩, fun d' h => by rw [hd] at h; simp at h, fun d' g k h => by rw [hd] at h; simp at h⟩
    · rw [e]
    · rw [e]; exact k
    · rw [e]; exact unchanged_of (.inr rfl) (.inr rfl) (.inl (by decide)) (.inr rfl) (.inr rfl) (.inr rfl)
        (.inr rfl) (.inl (by decide)) (.inr rfl) (.inr rfl) rfl
  · dsimp only
    refine ⟨fun h => by rw [hd] at h; simp at h, fun d' h hp => ?_, fun d' g k h hp hk => ?_⟩
    · rw [hd] at h; cases h; rw [hp]; exact Unchanged.rfl
    · rw [hd] at h; cases h; rw [hp]; dsimp only
      obtain ⟨rec, j, ns, kk, tr, e⟩ := notShelved_frame s g (some k) detail
      rw [hk]
      refine ⟨notShelved_spec s s c rfl rfl rfl rfl g k detail, by rw [e], ?_⟩
      rw [e]; exact unchanged_of (.inl (by decide)) (.inl (by decide)) (.inl (by decide)) (.inl (by decide))
        (.inr rfl) (.inr rfl) (.inr rfl) (.inr rfl) (.inr rfl) (.inr rfl) rfl

end Sys2Proof.Laws.Batches
end

