-- ==== Sys2Proof/Laws/Cuts.lean ====
section
/-! SUPPORT. Record memory after the newest writes of a step have been taken back (R37): an entry that none
of them wrote stands, one that some of them wrote is as it was before the oldest of those. -/

namespace Sys2Proof.Laws.Cuts

open Sys2Proof.Machine Sys2Proof.Safety Sys2Proof.Claims

/-- Record memory with writes taken back, newest first. -/
def undoAll (m : RecordMemory) (l : List RecordWrite) : RecordMemory := l.foldl (fun m w => m.write w.undone) m

theorem wf_parts {m : RecordMemory} (h : m.wf = true) :
    Table.wf {} m.slots = true ∧ Table.wf {} m.directory = true ∧ Table.wf {} m.links = true := by
  simp only [RecordMemory.wf, Bool.and_eq_true] at h; exact ⟨h.1.1, h.1.2, h.2⟩

theorem wf_write {m : RecordMemory} (h : m.wf = true) (w : RecordWrite) : (m.write w).wf = true := by
  obtain ⟨a, b, c⟩ := wf_parts h
  cases w <;> simp only [RecordMemory.write, RecordMemory.wf, Bool.and_eq_true]
  · exact ⟨⟨Table.set_wf _ _ _ _ a, b⟩, c⟩
  · exact ⟨⟨a, Table.set_wf _ _ _ _ b⟩, c⟩
  · exact ⟨⟨a, b⟩, Table.set_wf _ _ _ _ c⟩

theorem wf_undo : ∀ l (m : RecordMemory), m.wf = true → (undoAll m l).wf = true
  | [], _, h => h
  | w :: l, m, h => wf_undo l _ (wf_write h _)

/-- A kind of entry of record memory, with its write. -/
structure Kind (α : Type) where
  get : RecordMemory → Nat → α
  wr : Nat → α → α → RecordWrite
  same : ∀ (m : RecordMemory) n o w, m.wf = true → get (m.write (wr n o w)) n = w
  undo : ∀ n o w, (wr n o w).undone = wr n w o
  other : ∀ m n w, (∀ o x, w ≠ wr n o x) → get (m.write w.undone) n = get m n

theorem Kind.none {α} (k : Kind α) (n) : ∀ l m, (∀ o w, k.wr n o w ∉ l) → k.get (undoAll m l) n = k.get m n
  | [], _, _ => rfl
  | w :: l, m, h => by
    refine (k.none n l _ fun o x hm => h o x (List.mem_cons_of_mem _ hm)).trans ?_
    exact k.other _ _ _ fun o x e => h o x (by rw [e]; exact List.mem_cons_self ..)

theorem Kind.some {α} (k : Kind α) (n) (o x : α) (b) (h : ∀ o w, k.wr n o w ∉ b) : ∀ a m, m.wf = true →
    k.get (undoAll m (a ++ k.wr n o x :: b)) n = o
  | [], m, hm => by
    refine (k.none n b _ h).trans ?_
    show k.get (m.write (k.wr n o x).undone) n = o
    rw [k.undo]; exact k.same _ _ _ _ hm
  | w :: a, m, hm => k.some n o x b h a _ (wf_write hm _)

def kSlot : Kind SlotEntry where
  get m n := Table.get {} m.slots n
  wr := .slot
  same _ _ _ _ h := Table.get_set_same _ _ _ _ (wf_parts h).1
  undo _ _ _ := rfl
  other m n w h := by
    cases w with
    | slot k o x => exact Table.get_set_ne _ (fun e => h o x (by rw [e])) _ _
    | place => rfl
    | link => rfl
def kPlace : Kind PlaceEntry where
  get m n := Table.get {} m.directory n
  wr := .place
  same _ _ _ _ h := Table.get_set_same _ _ _ _ (wf_parts h).2.1
  undo _ _ _ := rfl
  other m n w h := by
    cases w with
    | place k o x => exact Table.get_set_ne _ (fun e => h o x (by rw [e])) _ _
    | slot => rfl
    | link => rfl
def kLink : Kind Link where
  get m n := Table.get {} m.links n
  wr := .link
  same _ _ _ _ h := Table.get_set_same _ _ _ _ (wf_parts h).2.2
  undo _ _ _ := rfl
  other m n w h := by
    cases w with
    | link k o x => exact Table.get_set_ne _ (fun e => h o x (by rw [e])) _ _
    | slot => rfl
    | place => rfl

theorem Kind.taken {α} (k : Kind α) (n) (entry : State → α) (lost : List RecordWrite) (s t : State) (m : RecordMemory)
    (hs : entry s = k.get s.record n) (ht : entry t = k.get m n) (hm : s.record.wf = true)
    (h : k.get m n = k.get (undoAll s.record lost) n) :
    TakenBack lost s t entry (k.wr n) := by
  constructor
  · intro hn; rw [ht, h, hs]; exact k.none n _ _ hn
  · intro a o x b e hb; rw [ht, h, e]; exact k.some n o x b hb _ _ hm

/-- Every entry but those a torn write was writing is taken back. -/
theorem takenBut (lost) (s t : State) (m : RecordMemory) (ht : t.record = m) (hm : s.record.wf = true)
    (A B C : Nat → Prop)
    (a : ∀ n, ¬ A n → kSlot.get m n = kSlot.get (undoAll s.record lost) n)
    (b : ∀ n, ¬ B n → kPlace.get m n = kPlace.get (undoAll s.record lost) n)
    (c : ∀ n, ¬ C n → kLink.get m n = kLink.get (undoAll s.record lost) n) :
    TakenBackBut lost s t A B C := fun n =>
  ⟨fun h => kSlot.taken n _ lost s t m rfl (by rw [← ht]; rfl) hm (a n h),
   fun h => kPlace.taken n _ lost s t m rfl (by rw [← ht]; rfl) hm (b n h),
   fun h => kLink.taken n _ lost s t m rfl (by rw [← ht]; rfl) hm (c n h)⟩

theorem cut_eq (s : State) (lost earlier) (torn) (h : s.journal = lost ++ earlier) :
    s.cutRecord (some ⟨earlier.length, torn⟩) =
      match torn, lost.getLast? with
      | true, some w => (undoAll s.record lost).write (w.torn s.draws)
      | _, _ => undoAll s.record lost := by
  unfold State.cutRecord
  simp [h]
  rfl

/-- The complement of a check word fails. -/
theorem fails (w : Word) : decide (~~~ w = w) = false := by
  simp only [decide_eq_false_iff_not]
  intro h
  have := congrArg (fun v : Word => v.getLsbD 0) h
  simp at this


end Sys2Proof.Laws.Cuts
end

