-- ==== Sys2Proof/Laws/Grants.lean ====
section
/-! SUPPORT. What the arbiter grants, what a side's channel does when its side is lost or ends, what its
request leads to, and what an export run does with a plate: `portGiven_of`, `lost_spec`, `req_made`,
`take_made`, `plateTaken_of`. -/

namespace Sys2Proof.Laws.Bands

open Sys2Proof.Machine Sys2Proof.Safety Sys2Proof.Claims

/-! ## The arbiter -/

theorem grantable_iff (u : State) (c : Channel) : Grantable u c ↔ u.eligibleChannel c = true := by
  unfold Grantable State.eligibleChannel
  cases c <;> simp [State.maskedChannel]

theorem orderAfter_eq (s : State) (c : Channel) : orderAfter s.images.mode c s.images.order = orderGranted s c := by
  unfold orderAfter orderGranted
  cases s.images.mode <;> rfl

theorem grant_grantable {u : State} {c b : Channel} (h : Grantable (u.grant c) b) : Grantable u b ∧ b ≠ c := by
  rw [grantable_iff] at *
  unfold State.eligibleChannel at *
  cases c <;> cases b <;> simp_all [State.grant, State.transferring, State.asks, State.maskedChannel, State.editCapture] <;> first | exact of_decide_eq_true h | exact of_decide_eq_true h.1

theorem grant_carries (u : State) (c : Channel) : Carries (u.grant c) (u.transferOf c) := by
  have hc : ∀ d, ((u.grant c).capture d).side = (u.capture d).side := by
    intro d; cases c <;> cases d <;> rfl
  have hq : ∀ d, (u.grant c).side d = u.side d := by
    intro d; cases c <;> cases d <;> rfl
  have ha : (u.grant c).images.audit.run = u.images.audit.run := by cases c <;> rfl
  have he : (u.grant c).images.exporter.run = u.images.exporter.run := by cases c <;> rfl
  have h0 : (u.transferOf c).channel = c := by
    unfold State.transferOf
    cases c <;> dsimp only <;> split <;> rfl
  refine ⟨?_, ?_, ?_⟩
  · intro d h p n b rest h1 h2 h3 h4 h5
    rw [hc] at h2; rw [hq] at h5
    rw [h0] at h1
    subst h1
    cases d
    · unfold State.transferOf
      simp [channelOf, h2, h3, h4, h5, DeskewSide.headLines]
    · unfold State.transferOf
      simp [channelOf, h2, h3, h4, h5, DeskewSide.headLines]
  · intro r p n h1 h2 h3 h4
    rw [h0] at h1; subst h1; rw [ha] at h2
    unfold State.transferOf
    simp [h2, h3, h4]
  · intro r p n h1 h2 h3 h4
    rw [h0] at h1; subst h1; rw [he] at h2
    unfold State.transferOf
    simp [h2, h3, h4]

theorem portGiven_of {s u : State} (hm : u.images.mode = s.images.mode) (ho : u.images.order = s.images.order)
    (h : u.images.transfer = none) : PortGiven s u.arbitrate := by
  have e : u.arbitrate = match u.images.order.find? u.eligibleChannel with
    | some c => u.grant c
    | none => u := by
    unfold State.arbitrate; rw [h] <;> rfl
  cases hf : u.images.order.find? u.eligibleChannel with
  | none =>
    rw [e, hf]
    refine ⟨hm, fun _ => ⟨ho, fun c hc => ?_⟩, fun g hg => by simp [h] at hg⟩
    rw [grantable_iff]
    have := List.find?_eq_none.1 hf c (by rw [ho]; exact hc)
    simpa using this
  | some c =>
    rw [e, hf]
    have h0 : (u.transferOf c).channel = c := by
      unfold State.transferOf
      cases c <;> dsimp only <;> split <;> rfl
    have hel : u.eligibleChannel c = true := List.find?_some hf
    refine ⟨by rw [← hm]; cases c <;> rfl, fun hn => ?_, fun g hg => ?_⟩
    · exact absurd hn (by unfold State.grant; simp)
    · have hg' : g = u.transferOf c := by
        have : some (u.transferOf c) = some g := hg
        simpa using this.symm
      subst hg'
      rw [h0]
      have hel' := (grantable_iff u c).2 hel
      refine ⟨?_, grant_carries u c, ?_, ?_, ?_, ?_, ?_⟩
      · unfold State.transferOf; cases c <;> dsimp only <;> split <;> rfl
      · cases c <;> rfl
      · show orderAfter u.images.mode c u.images.order = _
        rw [orderAfter_eq]; unfold orderGranted; rw [hm, ho]
      · rintro ⟨rfl, hh⟩; exact hel'.2.1 ⟨rfl, hh⟩
      · rintro ⟨rfl, hh⟩; exact hel'.2.2 ⟨rfl, hh⟩
      · rw [← ho]
        obtain ⟨as, bs, h1, h2⟩ := List.find?_eq_some_iff_append.1 hf |>.2
        refine ⟨as, bs, h1, fun b hb hg => ?_⟩
        have := grant_grantable hg
        rw [grantable_iff] at this
        simpa [this.1] using h2 b hb


/-! ## A side that ends or is lost -/

theorem close_done (d : Side) (n : Option Nat) (s : State) {h : CaptureSide} (hs : (s.capture d).side = some h)
    (hc : h.current = none ∨ h.closed = true) : s.closePlate d n = s := by
  unfold State.closePlate
  rw [hs]; dsimp only
  rcases hc with hc | hc
  · rw [hc]
  · rw [hc]; cases h.current <;> rfl

/-- What closing the plate of a side in hand leaves. -/
theorem close_side (d : Side) (s : State) {h : CaptureSide} (hs : (s.capture d).side = some h) :
    (s.closePlate d none).capture d = { s.capture d with side := some { h with closed := h.closed || h.current.isSome } } := by
  have same : ∀ k : CaptureSide, k = h → s.capture d = { s.capture d with side := some k } := by
    rintro k rfl; rw [← hs]
  unfold State.closePlate
  rw [hs]; dsimp only
  rcases h with ⟨a, b, c, e, f, g, i⟩
  cases c with
  | none => dsimp only; exact same _ (by simp)
  | some p =>
    dsimp only
    cases i with
    | true => rw [if_pos rfl]; exact same _ (by simp)
    | false =>
      rw [if_neg (by decide), capture_edit]
      cases d <;> rfl

/-- The plate of a side in hand, once closed with nothing behind it. -/
theorem plateClosed_of {s b x : State} {d : Side} {h : CaptureSide} (hb : b.record = s.record) (hs : (b.capture d).side = some h)
    (can : Canonical b) (hx : x.record = (b.closePlate d none).record) : PlateClosed s x d h := by
  refine ⟨fun p hp hc => ?_, fun hc => ?_⟩
  · have e := close_rec d none b h p hs hp hc
    rw [← hx] at e
    refine ⟨?_, ?_⟩
    · rw [link_congr e, link_putLink (s := b) can]; unfold CaptureSide.used; cases h.residue <;> rfl
    · intro y y1 y2 y3
      rw [recordByte_congr e, kept_putLink p _ b y y1 y2 y3, recordByte_congr hb]
  · rw [hx, close_done d none b hs hc, hb]

theorem act_ended {d : Side} {s : State} {o : Word} {l : Bool} (h : (s.capture d).state = .idle ∨ (s.capture d).state = .waiting)
    (hq : (s.side d).queue = [.ended o l]) (n : Nat) :
    s.actOnQueue d (n + 2) = ((s.editSide d fun e => { e with queue := [] }).endCapture d o l).editCapture d fun c => { c with state := .idle } := by
  conv_lhs => unfold State.actOnQueue
  dsimp only
  rw [if_neg (by rcases h with h | h <;> rw [h] <;> decide), hq]
  dsimp only
  obtain ⟨e1, e2, _⟩ := end_spec d o l (s.editSide d fun e => { e with queue := [] }) _ rfl
  rw [act_nil (.inl (by rw [e1])) (by rw [e2, side_edit])]
  cases d
  · have e1' : ((State.editSide Side.front (fun e => { e with queue := [] }) s).endCapture Side.front o l).images.front = _ := e1
    unfold State.editCapture
    dsimp only
    rw [e1']; rfl
  · have e1' : ((State.editSide Side.back (fun e => { e with queue := [] }) s).endCapture Side.back o l).images.back = _ := e1
    unfold State.editCapture
    dsimp only
    rw [e1']; rfl

/-- A lost end handed over: what the channel does with it. -/
theorem ended_spec {d : Side} {s : State} {o : Word} (h : (s.capture d).state = .idle ∨ (s.capture d).state = .waiting)
    (hq : (s.side d).queue = [.ended o true]) (n : Nat) (x : State) (hx : x = s.actOnQueue d (n + 2)) :
    LostSideEnded s x d o ((s.capture d).pendingEnd.getD .bandOverrun) ∧ x.side d = { s.side d with queue := [] } ∧
    x.record = (s.closePlate d none).record ∧ x.images.free = s.images.free ∧
    (∀ v ∈ x.tracker.train, ∃ w ∈ s.tracker.train, w.ordinal = v.ordinal ∧ (w.flags.imageLost = true → v.flags.imageLost = true)) := by
  rw [act_ended h hq] at hx
  set y := s.editSide d fun e => { e with queue := [] } with hy
  obtain ⟨e1, e2, e3, e4, e5, e6⟩ := end_spec d o true y _ rfl
  set z := y.endCapture d o true with hz
  have yc : y.capture d = s.capture d := by cases d <;> rfl
  have ya : y.acts = s.acts := by cases d <;> rfl
  have yt : y.tracker = s.tracker := by cases d <;> rfl
  have yb : y.batch = s.batch := by cases d <;> rfl
  have yr : (y.closePlate d none).record = (s.closePlate d none).record := by
    unfold State.closePlate
    rw [yc]
    split
    · cases d <;> rfl
    · split
      · cases d <;> rfl
      · split <;> cases d <;> rfl
  have xt : x.tracker = z.tracker := by rw [hx]; cases d <;> rfl
  refine ⟨⟨?_, fun ha v hv ho => ?_⟩, ?_, ?_, ?_, ?_⟩
  · rw [hx, capture_edit, e1, yc]; rfl
  · rw [xt, e6, ya, if_pos ha] at hv
    unfold changed at hv
    simp only [yt, List.mem_map] at hv
    obtain ⟨w, hw, e⟩ := hv
    have : w.ordinal = o := by
      by_contra hne
      rw [if_neg hne] at e; subst e; exact hne ho
    rw [if_pos this] at e
    subst e
    unfold sideDone
    cases d <;> simp
  · rw [hx]
    have : (z.editCapture d fun c => { c with state := .idle }).side d = z.side d := by cases d <;> rfl
    rw [this, e2, hy, side_edit]
  · rw [← yr, ← e3, hx]; cases d <;> rfl
  · have : x.images.free = z.images.free := by rw [hx]; cases d <;> rfl
    rw [this, e4]; cases d <;> rfl
  · intro v hv
    rw [xt, e6, ya] at hv
    split at hv
    · unfold changed at hv
      simp only [yt, List.mem_map] at hv
      obtain ⟨w, hw, e⟩ := hv
      refine ⟨w, hw, ?_⟩
      split at e
      · subst e; exact ⟨rfl, id⟩
      · subst e; exact ⟨rfl, id⟩
    · rw [yt] at hv; exact ⟨v, hv, rfl, id⟩

theorem queue_takeWaiting : ∀ (ws : List WaitingStart) (e : DeskewSide), (∀ i ∈ e.queue, ∃ o l, i = QueueItem.ended o l) →
    ∀ i ∈ (DeskewSide.takeWaiting ws e).queue, ∃ o l, i = QueueItem.ended o l
  | [], e, h => h
  | w :: ws, e, h => by
    unfold DeskewSide.takeWaiting
    split
    · refine queue_takeWaiting ws _ fun i hi => ?_
      rcases List.mem_append.1 hi with hi | hi
      · exact h i hi
      · rw [List.mem_singleton] at hi; exact ⟨_, _, hi⟩
    · exact h

/-- Ends of sides handed over to a channel whose plate is closed. -/
theorem ends_keep (d : Side) : ∀ (n : Nat) (s : State), (∀ i ∈ (s.side d).queue, ∃ o l, i = QueueItem.ended o l) →
    s.closePlate d none = s → (s.actOnQueue d n).record = s.record ∧ (s.actOnQueue d n).images.free = s.images.free ∧
    (∀ v ∈ (s.actOnQueue d n).tracker.train, ∃ w ∈ s.tracker.train, w.ordinal = v.ordinal ∧ (w.flags.imageLost = true → v.flags.imageLost = true))
  | 0, s, _, _ => ⟨rfl, rfl, fun v hv => ⟨v, hv, rfl, id⟩⟩
  | n + 1, s, hq, hc => by
    unfold State.actOnQueue
    dsimp only
    split
    · exact ⟨rfl, rfl, fun v hv => ⟨v, hv, rfl, id⟩⟩
    · split
      · exact ⟨by cases d <;> rfl, by cases d <;> rfl, fun v hv => ⟨v, by cases d <;> exact hv, rfl, id⟩⟩
      · rename_i o l rest hqq
        set y := s.editSide d fun e => { e with queue := rest } with hy
        obtain ⟨e1, e2, e3, e4, e5, e6⟩ := end_spec d o l y _ rfl
        set z := y.endCapture d o l with hz
        have yc : y.capture d = s.capture d := by cases d <;> rfl
        have yr : (y.closePlate d none).record = (s.closePlate d none).record := by
          unfold State.closePlate
          rw [yc]
          split
          · cases d <;> rfl
          · split
            · cases d <;> rfl
            · split <;> cases d <;> rfl
        have yt : y.tracker = s.tracker := by cases d <;> rfl
        obtain ⟨i1, i2, i3⟩ := ends_keep d n z (by
          intro i hi
          rw [e2, hy, side_edit] at hi
          exact hq i (by rw [hqq]; exact List.mem_cons_of_mem _ hi)) (by unfold State.closePlate; rw [e1])
        refine ⟨by rw [i1, e3, yr, hc], by rw [i2, e4]; cases d <;> rfl, fun v hv => ?_⟩
        obtain ⟨w, hw, a1, a2⟩ := i3 v hv
        rw [e6] at hw
        split at hw
        · unfold changed at hw
          simp only [yt, List.mem_map] at hw
          obtain ⟨u, hu, e⟩ := hw
          refine ⟨u, hu, ?_⟩
          split at e
          · subst e; exact ⟨a1, a2⟩
          · subst e; exact ⟨a1, a2⟩
        · rw [yt] at hw; exact ⟨w, hw, a1, a2⟩
      · rename_i b rest hqq
        obtain ⟨o, l, h⟩ := hq (.band b) (by rw [hqq]; simp)
        cases h

theorem takeSide_none {s : State} {d : Side} {h : CaptureSide} {cause : CaptureEnd} (np : NoPlate s h cause) :
    s.takeSidePlate d h = s.loseCapture d h.ordinal cause := by
  unfold State.takeSidePlate
  rcases np with ⟨h1, rfl⟩ | ⟨h1, h2, rfl⟩
  · exact if_pos h1
  · rw [if_neg (by unfold Config.sidePlates; omega)]
    have : s.takePlate = none := by
      unfold State.takePlate; rw [h2]
    rw [this]

/-- A capture channel that can have no plate for a side in hand loses it. -/
theorem lost_spec (d : Side) (s beg : State) (h : CaptureSide) (cause : CaptureEnd) (e : DeskewSide) (m : Nat) (st : CaptureState)
    (b1 : beg.capture d = { s.capture d with state := st, side := some h }) (b2 : beg.side d = e) (b3 : beg.record = s.record)
    (b4 : beg.acts = s.acts)
    (hall : ∀ i ∈ e.queue, i.bandOf h.ordinal = true) (can : Canonical beg) (np : NoPlate beg h cause) :
    SideLost s ((beg.takeSidePlate d h).actOnQueue d (m + 2)) d h cause e ∧
      (((beg.takeSidePlate d h).actOnQueue d (m + 2)).images.free = beg.images.free) := by
  rw [takeSide_none np]
  set cl := beg.closePlate d none with hcl
  obtain ⟨k1, k2, k3, k4, _⟩ := close_keeps d none beg
  rw [← hcl] at k1 k2 k3 k4
  have kc := close_side d beg (h := h) (by rw [b1])
  rw [← hcl] at kc
  set h' : CaptureSide := { h with closed := h.closed || h.current.isSome } with hh'
  set p := cl.editCapture d fun c => { c with state := .waiting, pendingEnd := some cause } with hp
  have pc : p.capture d = { s.capture d with state := .waiting, pendingEnd := some cause, side := some h' } := by
    rw [hp, capture_edit, kc, b1]
  have ps : p.side d = e := by rw [← b2, ← k1]; cases d <;> rfl
  have pr : p.record = cl.record := by cases d <;> rfl
  have pf : p.images.free = beg.images.free := by rw [← k4]; cases d <;> rfl
  set x := p.reportLoss d h.ordinal with hx
  have hx' : beg.loseCapture d h.ordinal cause = x := rfl
  rw [hx']
  have xc : x.capture d = p.capture d := by cases d <;> rfl
  have xr : x.record = cl.record := by rw [← pr]; cases d <;> rfl
  have xf : x.images.free = beg.images.free := by rw [← pf]; cases d <;> rfl
  have xa : x.acts = beg.acts := by
    have h1 : x.batch = beg.batch := by rw [← k3]; cases d <;> rfl
    have h2 : x.tracker.stopped = beg.tracker.stopped := by rw [← k2]; cases d <;> rfl
    unfold State.acts State.motorOn; rw [h1, h2]
  have xt : ∀ v ∈ x.tracker.train, v.ordinal = h.ordinal → v.flags.imageLost = true := by
    have : x.tracker.train = p.tracker.train.map fun v => if v.ordinal = h.ordinal then v.lose else v := by cases d <;> rfl
    intro v hv ho
    rw [this, List.mem_map] at hv
    obtain ⟨w, hw, hv⟩ := hv
    split at hv
    · subst hv; rfl
    · subst hv; rename_i hne; exact absurd ho hne
  have wq : withoutBands h.ordinal false e.queue = [] := by
    unfold withoutBands
    dsimp only
    exact List.filter_eq_nil_iff.2 fun i hi => by rw [hall i hi]; decide
  have hxs : x.side d = (let left := { e with queue := [] }
    if e.ordinal = h.ordinal ∧ e.state = .taking then left.discard
    else if e.ordinal = h.ordinal ∧ e.state = .flushing then
      DeskewSide.next { left with queue := left.queue ++ [.ended h.ordinal true] }
    else if e.ordinal = h.ordinal ∧ e.state = .discarding then left
    else { left with queue := .ended h.ordinal true :: left.queue }) := by
    have : x.side d = (fun e : DeskewSide =>
      let left := { e with queue := withoutBands h.ordinal false e.queue }
    if e.ordinal = h.ordinal ∧ e.state = .taking then left.discard
    else if e.ordinal = h.ordinal ∧ e.state = .flushing then
      DeskewSide.next { left with queue := left.queue ++ [.ended h.ordinal true] }
    else if e.ordinal = h.ordinal ∧ e.state = .discarding then left
    else { left with queue := .ended h.ordinal true :: left.queue }) (p.side d) := by
      rw [hx]; unfold State.reportLoss
      rw [side_edit]; rfl
    rw [this, ps]
    dsimp only
    rw [wq]
  -- the plate, whatever follows
  have plate : ∀ y : State, y.record = (x.closePlate d none).record → PlateClosed s y d h := by
    intro y hy
    have : x.closePlate d none = x := by
      refine close_done d none x (h := h') (by rw [xc, pc]) ?_
      by_cases hcur : h.current = none
      · left; exact hcur
      · right; show (h.closed || h.current.isSome) = true; rw [Option.isSome_iff_ne_none.2 hcur]; simp
    rw [this, xr] at hy
    exact plateClosed_of b3 (by rw [b1]) can hy
  have ended : ∀ q : DeskewSide, x.side d = q → q.queue = [.ended h.ordinal true] →
      ∀ y, y = x.actOnQueue d (m + 2) → LostSideEnded s y d h.ordinal cause ∧ y.side d = { q with queue := [] } ∧ PlateClosed s y d h ∧
        (∀ v ∈ y.tracker.train, v.ordinal = h.ordinal → v.flags.imageLost = true) ∧ y.images.free = beg.images.free := by
    intro q hq hqq y hy
    obtain ⟨a1, a2, a3, a4, a5⟩ := ended_spec (d := d) (s := x) (o := h.ordinal) (.inr (by rw [xc, pc])) (by rw [hq]; exact hqq) m y hy
    rw [xc, pc] at a1
    refine ⟨⟨a1.1, fun ha => a1.2 (by rw [xa, b4]; exact ha)⟩, by rw [a2, hq], plate y a3, fun v hv ho => ?_, by rw [a4, xf]⟩
    obtain ⟨w, hw, e1, e2⟩ := a5 v hv
    exact e2 (xt w hw (e1.trans ho))
  have still : ∀ q : DeskewSide, x.side d = q → q.queue = [] →
      ∀ y, y = x.actOnQueue d (m + 2) → y.capture d = p.capture d ∧ y.side d = q ∧ PlateClosed s y d h ∧
        (∀ v ∈ y.tracker.train, v.ordinal = h.ordinal → v.flags.imageLost = true) ∧ y.images.free = beg.images.free := by
    intro q hq hqq y hy
    rw [act_nil (.inr (by rw [xc, pc])) (by rw [hq]; exact hqq)] at hy
    subst hy
    refine ⟨?_, ?_, plate _ ?_, ?_, ?_⟩
    · rw [capture_edit, xc, pc]; rfl
    · rw [← hq]; cases d <;> rfl
    · rw [close_done d none x (h := h') (by rw [xc, pc])]
      · cases d <;> rfl
      · cases hcur : h.current with
        | none => left; first | exact hcur | rfl
        | some q => right; show (h.closed || h.current.isSome) = true; rw [hcur]; simp
    · intro v hv ho
      refine xt v ?_ ho
      cases d <;> exact hv
    · rw [← xf]; cases d <;> rfl
  set y := x.actOnQueue d (m + 2) with hy
  by_cases c1 : e.ordinal = h.ordinal ∧ e.state = .taking
  · rw [if_pos c1] at hxs
    obtain ⟨a1, a2, a3, a4, a5⟩ := still _ hxs rfl y rfl
    refine ⟨⟨a3, a4, fun _ _ => ⟨?_, a2⟩, fun _ hf => ?_, fun hf => ?_⟩, a5⟩
    · rw [a1, pc]
    · rw [c1.2] at hf; cases hf
    · rcases hf with hf | hf
      · exact absurd c1.1 hf
      · rw [c1.2] at hf; cases hf
  · rw [if_neg c1] at hxs
    by_cases c2 : e.ordinal = h.ordinal ∧ e.state = .flushing
    · rw [if_pos c2] at hxs
      by_cases hw : e.waiting = []
      · have hn : DeskewSide.next ({ e with queue := [] ++ [.ended h.ordinal true] } : DeskewSide) = { black := e.black, lastCount := e.lastCount, queue := [.ended h.ordinal true] } := by
          unfold DeskewSide.next
          dsimp only
          rw [hw]; rfl
        have hxs' : x.side d = DeskewSide.next ({ e with queue := [] ++ [.ended h.ordinal true] } : DeskewSide) := hxs
        rw [hn] at hxs'
        obtain ⟨a1, a2, a3, a4, a5⟩ := ended _ hxs' rfl y rfl
        refine ⟨⟨a3, a4, fun h1 h2 => absurd ⟨h1, h2⟩ c1, fun _ _ _ => ⟨a1, a2⟩, fun hf => ?_⟩, a5⟩
        rcases hf with hf | hf
        · exact absurd c2.1 hf
        · rw [c2.2] at hf; cases hf
      · have hq : ∀ i ∈ (x.side d).queue, ∃ o l, i = QueueItem.ended o l := by
          rw [hxs]
          refine queue_takeWaiting _ _ fun i hi => ?_
          exact ⟨h.ordinal, true, by simpa using hi⟩
        have hcx : x.closePlate d none = x := by
          refine close_done d none x (h := h') (by rw [xc, pc]) ?_
          by_cases hcur : h.current = none
          · left; exact hcur
          · right; show (h.closed || h.current.isSome) = true; rw [Option.isSome_iff_ne_none.2 hcur]; simp
        obtain ⟨a1, a2, a3⟩ := ends_keep d (m + 2) x hq hcx
        refine ⟨⟨plate y (by rw [hcx]; exact a1), fun v hv ho => ?_, fun h1 h2 => absurd ⟨h1, h2⟩ c1, fun _ _ hf => absurd hf hw, fun hf => ?_⟩, by rw [← xf]; exact a2⟩
        · obtain ⟨w, hw, e1, e2⟩ := a3 v hv
          exact e2 (xt w hw (e1.trans ho))
        · rcases hf with hf | hf
          · exact absurd c2.1 hf
          · rw [c2.2] at hf; cases hf
    · rw [if_neg c2] at hxs
      by_cases c3 : e.ordinal = h.ordinal ∧ e.state = .discarding
      · rw [if_pos c3] at hxs
        obtain ⟨a1, a2, a3, a4, a5⟩ := still _ hxs rfl y rfl
        refine ⟨⟨a3, a4, fun h1 h2 => absurd ⟨h1, h2⟩ c1, fun h1 h2 => absurd ⟨h1, h2⟩ c2, fun hf => ?_⟩, a5⟩
        rcases hf with hf | hf
        · exact absurd c3.1 hf
        · rw [c3.2] at hf; cases hf
      · rw [if_neg c3] at hxs
        obtain ⟨a1, a2, a3, a4, a5⟩ := ended _ hxs rfl y rfl
        exact ⟨⟨a3, a4, fun h1 h2 => absurd ⟨h1, h2⟩ c1, fun h1 h2 => absurd ⟨h1, h2⟩ c2, fun hf => ⟨a1, a2⟩⟩, a5⟩

/-! ## A request -/

theorem find_only (u : State) (c : Channel) (hm : u.eligibleChannel c = true) (h : ∀ d, d ≠ c → u.asks d = false) :
    ∀ l : List Channel, c ∈ l → l.find? u.eligibleChannel = some c
  | [], h' => by simp at h'
  | d :: l, h' => by
    by_cases e : d = c
    · subst e; simp [hm]
    · have : u.eligibleChannel d = false := by unfold State.eligibleChannel; rw [h d e]; rfl
      simp only [List.find?_cons, this]
      exact find_only u c hm h l (by simpa [Ne.symm e] using h')

/-- The parts of image memory that a request of a capture channel rests on. -/
structure SamePort (d : Side) (x v : State) : Prop where
  transfer : v.images.transfer = x.images.transfer
  order : v.images.order = x.images.order
  mode : v.images.mode = x.images.mode
  asks : ∀ c, c ≠ channelOf d → v.asks c = x.asks c

theorem SamePort.trans {d x v w} (h : SamePort d x v) (k : SamePort d v w) : SamePort d x w :=
  ⟨k.1.trans h.1, k.2.trans h.2, k.3.trans h.3, fun c hc => (k.4 c hc).trans (h.4 c hc)⟩

theorem same_edit (d : Side) (f) (x : State) : SamePort d x (x.editCapture d f) := by
  cases d <;> exact ⟨rfl, rfl, rfl, fun c hc => by cases c <;> first | rfl | exact absurd rfl hc⟩

theorem same_side (d : Side) (f) (x : State) : SamePort d x (x.editSide d f) := by
  cases d <;> exact ⟨rfl, rfl, rfl, fun c _ => by cases c <;> rfl⟩

theorem same_close (d : Side) (n) (x : State) : SamePort d x (x.closePlate d n) := by
  unfold State.closePlate
  split
  · exact ⟨rfl, rfl, rfl, fun _ _ => rfl⟩
  · split
    · exact ⟨rfl, rfl, rfl, fun _ _ => rfl⟩
    · split
      · exact ⟨rfl, rfl, rfl, fun _ _ => rfl⟩
      · exact SamePort.trans (v := x.putLink _ _) ⟨rfl, rfl, rfl, fun c _ => by cases c <;> rfl⟩ (same_edit d _ _)

/-- A capture channel's request, granted at once while the port is free and no other channel asks. -/
theorem req_made {x v : State} {d : Side} {h : CaptureSide} {p n : Nat} {b : Band} {rest : List QueueItem} (sp : SamePort d x v)
    (hs : (v.capture d).side = some h) (hc : h.current = some p) (hr : h.residue = some n) (hq : (v.side d).queue = .band b :: rest) :
    RequestMade x (v.requestCapture d) ⟨channelOf d, p, 7 - n, b.lines, false⟩ := by
  set w := v.editCapture d fun c => { c with state := .requesting } with hw
  have ww : v.requestCapture d = w.arbitrate := rfl
  have sw := sp.trans (same_edit d (fun c => { c with state := .requesting }) v)
  have wc : (w.capture d) = { v.capture d with state := .requesting } := by rw [hw, capture_edit]
  constructor
  · intro ht
    rw [ww, arb_held (by rw [sw.transfer]; exact ht)]
    refine ⟨sw.transfer, sw.order, ?_⟩
    cases d
    · show ¬ (w.capture .front).state = _; rw [wc]; simp
    · show ¬ (w.capture .back).state = _; rw [wc]; simp
  · intro ht ha hin
    have el : w.eligibleChannel (channelOf d) = true := by
      unfold State.eligibleChannel
      have e1 : w.asks (channelOf d) = true := by cases d <;> rfl
      have e2 : w.maskedChannel (channelOf d) = false := by cases d <;> rfl
      rw [e1, e2]; rfl
    have hf := find_only w (channelOf d) el (fun c hc => by rw [sw.asks c hc, ha c]) w.images.order (by rw [sw.order]; exact hin)
    have hg : w.arbitrate = w.grant (channelOf d) := by
      unfold State.arbitrate
      rw [sw.transfer, ht]; dsimp only; rw [hf]
    rw [ww, hg]
    refine ⟨?_, ?_, ?_⟩
    · show some (w.transferOf (channelOf d)) = _
      have w1 : (w.capture d).side = some h := by rw [wc]; exact hs
      have w2 : (w.side d).queue = .band b :: rest := by rw [← hq]; cases d <;> rfl
      cases d
      · unfold State.transferOf channelOf
        dsimp only
        rw [w1]; dsimp only
        rw [hc, hr]
        unfold DeskewSide.headLines; rw [w2]; rfl
      · unfold State.transferOf channelOf
        dsimp only
        rw [w1]; dsimp only
        rw [hc, hr]
        unfold DeskewSide.headLines; rw [w2]; rfl
    · show orderAfter w.images.mode (channelOf d) w.images.order = _
      rw [sw.mode, sw.order, orderAfter_eq]
    · cases d <;> rfl

/-- The request made with a fresh plate. -/
theorem take_made {x s : State} {d : Side} {h : CaptureSide} {p : Nat} {free : FreeQueue} {b : Band} {more : List QueueItem} (sp : SamePort d x s)
    (hp : h.plates < 54) (hf : FreeHead s p free) (hq : (s.side d).queue = .band b :: more) :
    RequestMade x (s.takeSidePlate d h) ⟨channelOf d, p, 0, b.lines, false⟩ := by
  have e : s.takeSidePlate d h = (((({ s with images.free := free } : State).closePlate d (some p)).editTicket h.ordinal
        (Ticket.editChain d (PlateChain.append p))).editCapture d fun c =>
          { c with side := some (h.withPlate p) }).requestCapture d := by
    unfold State.takeSidePlate
    rw [if_neg (by unfold Config.sidePlates; omega), takePlate_eq hf]
  rw [e]
  set a : State := { s with images.free := free } with ha
  set c := (a.closePlate d (some p)).editTicket h.ordinal (Ticket.editChain d (PlateChain.append p)) with hc
  have s1 : SamePort d s a := ⟨rfl, rfl, rfl, fun c _ => by cases c <;> rfl⟩
  have s3 : SamePort d (a.closePlate d (some p)) c := ⟨rfl, rfl, rfl, fun c _ => by cases c <;> rfl⟩
  have s4 := (((sp.trans s1).trans (same_close d (some p) a)).trans s3).trans (same_edit d (fun c => { c with side := some (h.withPlate p) }) c)
  have q4 : ((c.editCapture d fun c => { c with side := some (h.withPlate p) }).side d).queue = .band b :: more := by
    rw [← hq, show s.side d = a.side d by cases d <;> rfl, ← (close_keeps d (some p) a).1]
    cases d <;> rfl
  have := req_made s4 (h := h.withPlate p) (p := p) (n := 7) (b := b) (rest := more) (by rw [capture_edit]) rfl rfl q4
  exact this

/-! ## An export run and a plate -/

theorem sideBands_eq (s : State) : ∀ (rest : List Nat) (p n : Nat), SidePlates s (p :: rest) → rest.length ≤ n →
    s.sideBands p n = ((p :: rest).map fun q => (s.link q).bandsUsed).sum
  | [], p, n, h, _ => by
    have h : ∀ q, (s.link p).next = some q → (s.link q).sideStart = true := h
    cases n with
    | zero => simp [State.sideBands]
    | succ n =>
      unfold State.sideBands
      cases hn : (s.link p).next with
      | none => simp
      | some q => simp [h q hn]
  | q :: rest, p, n, h, hl => by
    obtain ⟨h1, h2, h3⟩ : (s.link p).next = some q ∧ (s.link q).sideStart = false ∧ SidePlates s (q :: rest) := h
    cases n with
    | zero => simp at hl
    | succ n =>
      unfold State.sideBands
      rw [h1]; dsimp only
      rw [if_neg (by rw [h2]; decide), sideBands_eq s rest q n h3 (by simp at hl; omega)]
      simp

theorem sideBands_congr {s u : State} (hl : ∀ q, u.link q = s.link q) : ∀ n p, u.sideBands p n = s.sideBands p n
  | 0, p => by unfold State.sideBands; rw [hl]
  | n + 1, p => by
    unfold State.sideBands; rw [hl]
    cases (s.link p).next with
    | none => rfl
    | some q => dsimp only; rw [hl, sideBands_congr hl n q]

/-- The band an export run stands at: asked for or waited for. -/
theorem placeBand {u : State} {r : ExportRun} {n k : Nat} (hi : r.item = .band) (hr : r.residue = some k) :
    (u.placeItems r (n + 1)).port.exports = u.port.exports ∧ AwaitsBand (u.placeItems r (n + 1)) r u.port.exports.length := by
  have e : u.placeItems r (n + 1) = if Config.bandWords ≤ u.exportRoom then (u.setExport .requesting r).arbitrate else u.setExport .waiting r := by
    conv_lhs => unfold State.placeItems
    rw [hi, hr]
  rw [e]
  obtain ⟨b1, _, _, b2, b3, b4, _⟩ := arb_images (u.setExport .requesting r)
  by_cases hl : u.port.exports.length + 4096 ≤ 8192
  · rw [if_pos (by unfold State.exportRoom; show 4096 ≤ 8192 - _; omega)]
    refine ⟨by rw [b1]; rfl, by rw [b2]; rfl, fun h => by omega, fun _ => b3⟩
  · rw [if_neg (by unfold State.exportRoom; show ¬ 4096 ≤ 8192 - _; omega)]
    exact ⟨rfl, rfl, fun _ => rfl, fun h => absurd h hl⟩

theorem plateTaken_of {s u : State} (hl : ∀ q, u.link q = s.link q) {r : ExportRun} {p n : Nat} (hi : r.item = .plate) (h1 : r.taken < r.plateCount)
    (h2 : u.nextPlate r.plateHead r.current = some p) (hb : 0 < (s.link p).bandsUsed) :
    PlateTaken s (u.placeItems r (n + 3)) r p u.port.exports := by
  have e : u.placeItems r (n + 3) = u.placeItems (r.take u p) (n + 2) := by
    conv_lhs => unfold State.placeItems
    rw [hi]; dsimp only
    rw [if_neg (by omega), h2]
  rw [e]
  have hres : unreadResidue (s.link p).bandsUsed = some ((s.link p).bandsUsed - 1) := by unfold unreadResidue; exact if_neg (by omega)
  unfold PlateTaken
  dsimp only
  generalize hpo : (match (s.link p).side with
      | .front => r.pageOrdinal + 1
      | .back => r.pageOrdinal) = po
  refine ⟨fun hs => ?_, fun rest hs hp hlen => ⟨fun hf => ?_, fun hf => ?_⟩⟩
  · have : r.take u p = { r with taken := r.taken + 1, current := some p, bandsUsed := (s.link p).bandsUsed, residue := some ((s.link p).bandsUsed - 1), item := .band } := by
      unfold ExportRun.take
      dsimp only
      rw [hl, hs, hres]; rfl
    rw [this]
    exact placeBand rfl rfl
  · have : r.take u p = { r with taken := r.taken + 1, current := some p, bandsUsed := (s.link p).bandsUsed, residue := some ((s.link p).bandsUsed - 1), pageOrdinal := po, sideOrdinal := r.sideOrdinal + 1, item := .sideHeader (sideHead s (s.link p).side (p :: rest) po (r.sideOrdinal + 1)) } := by
      unfold ExportRun.take
      dsimp only
      rw [hl, hs, hres, sideBands_congr hl, sideBands_eq s rest p _ hp (by omega)]
      rw [← hpo]; cases (s.link p).side <;> rfl
    rw [this]
    have e2 : ∀ (q : ExportRun) ws, q.item = .sideHeader ws → ws.length = 4 → u.placeItems q (n + 2) = (u.placeWords ws).placeItems { q with item := .band } (n + 1) := by
      intro q ws hq h4
      conv_lhs => unfold State.placeItems
      rw [hq]; dsimp only
      rw [if_pos (by unfold State.exportRoom; show _ ≤ 8192 - _; omega)]
    rw [e2 _ _ rfl rfl]
    have pb := @placeBand (u.placeWords (sideHead s (s.link p).side (p :: rest) po (r.sideOrdinal + 1))) { r with taken := r.taken + 1, current := some p, bandsUsed := (s.link p).bandsUsed, residue := some ((s.link p).bandsUsed - 1), pageOrdinal := po, sideOrdinal := r.sideOrdinal + 1, item := .band } n _ rfl rfl
    have hlen4 : (u.placeWords (sideHead s (s.link p).side (p :: rest) po (r.sideOrdinal + 1))).port.exports.length = u.port.exports.length + 4 := by
      show (u.port.exports ++ _).length = _
      rw [List.length_append]; rfl
    rw [hlen4] at pb
    subst hpo
    exact pb
  · have : r.take u p = { r with taken := r.taken + 1, current := some p, bandsUsed := (s.link p).bandsUsed, residue := some ((s.link p).bandsUsed - 1), pageOrdinal := po, sideOrdinal := r.sideOrdinal + 1, item := .sideHeader (sideHead s (s.link p).side (p :: rest) po (r.sideOrdinal + 1)) } := by
      unfold ExportRun.take
      dsimp only
      rw [hl, hs, hres, sideBands_congr hl, sideBands_eq s rest p _ hp (by omega)]
      rw [← hpo]; cases (s.link p).side <;> rfl
    rw [this]
    have e2 : ∀ (q : ExportRun) ws, q.item = .sideHeader ws → ws.length = 4 → u.placeItems q (n + 2) = u.setExport .waiting q := by
      intro q ws hq h4
      conv_lhs => unfold State.placeItems
      rw [hq]; dsimp only
      rw [if_neg (by unfold State.exportRoom; show ¬ _ ≤ 8192 - _; omega)]
    rw [e2 _ _ rfl rfl]
    subst hpo
    exact ⟨rfl, rfl, rfl⟩


end Sys2Proof.Laws.Bands
end

