-- ==== Sys2Proof/Laws/Lines.lean ====
section
/-! SUPPORT. An edge that the Sheet Tracker acts on neither reads nor writes the lines and the
reply FIFO: `edge_relined`.
The readings of a state with other lines, and the changes an edge makes, one law each. -/

namespace Sys2Proof.Laws.Lines

open Sys2Proof.Machine

/-- A state with other lines and other replies waiting. -/
def relined (x : Sys2Proof.Machine.Lines) (w : List Word) (s : State) : State :=
  { s with lines := x, port.replies := w }

variable (x : Sys2Proof.Machine.Lines) (w : List Word) (s : State)

/-! ## What is read -/

theorem acts_relined : (relined x w s).acts = s.acts := rfl
theorem oldest_relined (p : Ticket → Bool) : (relined x w s).oldest p = s.oldest p := rfl
theorem ticket_relined (o : Word) : (relined x w s).ticket o = s.ticket o := rfl
theorem side_relined (d : Side) : (relined x w s).side d = s.side d := by cases d <;> rfl
theorem capture_relined (d : Side) : (relined x w s).capture d = s.capture d := by cases d <;> rfl
theorem slot_relined (n : Nat) : (relined x w s).slot n = s.slot n := rfl
theorem findMatter_relined (m : Long) : (relined x w s).findMatter m = s.findMatter m := rfl
theorem takePlate_relined :
    (relined x w s).takePlate = s.takePlate.map fun p => (p.1, relined x w p.2) := by
  unfold State.takePlate
  simp only [show (relined x w s).images = s.images from rfl]
  cases s.images.free.length <;> cases s.images.free.head <;> rfl

/-! ## What is changed -/

theorem ite_relined (c : Prop) [Decidable c] (t u : State) :
    (if c then relined x w t else relined x w u) = relined x w (if c then t else u) :=
  (apply_ite (relined x w) c t u).symm

theorem ite_of_relined {c : Prop} [Decidable c] {a b t u : State} (ha : a = relined x w t)
    (hb : b = relined x w u) : (if c then a else b) = relined x w (if c then t else u) := by
  rw [ha, hb]; exact ite_relined x w c t u

theorem editTicket_relined (o f) : (relined x w s).editTicket o f = relined x w (s.editTicket o f) := rfl
theorem removeTicket_relined (o) : (relined x w s).removeTicket o = relined x w (s.removeTicket o) := rfl
theorem editTray_relined (n f) : (relined x w s).editTray n f = relined x w (s.editTray n f) := rfl
theorem editSide_relined (d f) : (relined x w s).editSide d f = relined x w (s.editSide d f) := by
  cases d <;> rfl
theorem editCapture_relined (d f) :
    (relined x w s).editCapture d f = relined x w (s.editCapture d f) := by cases d <;> rfl
theorem putSlot_relined (n r) : (relined x w s).putSlot n r = relined x w (s.putSlot n r) := rfl
theorem putMatter_relined (n m) : (relined x w s).putMatter n m = relined x w (s.putMatter n m) := rfl
theorem putLink_relined (n l) : (relined x w s).putLink n l = relined x w (s.putLink n l) := rfl
theorem postFolio_relined (n) : (relined x w s).postFolio n = relined x w (s.postFolio n) := by
  unfold State.postFolio; exact ite_of_relined x w rfl rfl
theorem postBatch_relined (n) : (relined x w s).postBatch n = relined x w (s.postBatch n) := by
  unfold State.postBatch; exact ite_of_relined x w rfl rfl
theorem halt_relined (c) : (relined x w s).halt c = relined x w (s.halt c) := rfl
theorem sheetEntered_relined : (relined x w s).sheetEntered = relined x w s.sheetEntered := rfl
theorem openMeasurement_relined (o e) :
    (relined x w s).openMeasurement o e = relined x w (s.openMeasurement o e) := rfl
theorem closeMeasurement_relined (o) :
    (relined x w s).closeMeasurement o = relined x w (s.closeMeasurement o) := by
  unfold State.closeMeasurement
  simp only [show (relined x w s).engine = s.engine from rfl]
  cases s.engine.measurements.find? fun m => m.ordinal = o <;> rfl

theorem jam_relined (c l t) : (relined x w s).jam c l t = relined x w (s.jam c l t) := by
  unfold State.jam
  simp only [acts_relined, halt_relined, postBatch_relined]
  exact ite_relined x w _ _ _

theorem stray_relined (l) : (relined x w s).stray l = relined x w (s.stray l) := jam_relined x w s _ _ _

theorem testRemoval_relined (p) : (relined x w s).testRemoval p = relined x w (s.testRemoval p) := by
  unfold State.testRemoval; exact ite_of_relined x w rfl rfl

theorem unpin_relined : (relined x w s).unpin = relined x w s.unpin := by
  unfold State.unpin
  simp only [findMatter_relined, show (relined x w s).batch = s.batch from rfl]
  cases s.findMatter s.batch.matter with
  | none => rfl
  | some e =>
    exact testRemoval_relined x w { s with
      folio.index := s.folio.index.map fun f =>
        if f.place = e.place then { f with pinned := false } else f } e.place

theorem enterIdle_relined (k) : (relined x w s).enterIdle k = relined x w (s.enterIdle k) := by
  unfold State.enterIdle
  have h := unpin_relined x w { s with
    batch.state := .idle
    batch.haltCause := none
    batch.causes := {}
    batch.stopTaken := false
    batch.feeder := .atRest
    tracker.stallTimer := none }
  exact (congrArg (State.postBatch _) h).trans (postBatch_relined x w _ _)

theorem endDrain_relined : (relined x w s).endDrain = relined x w s.endDrain := by
  unfold State.endDrain
  rw [enterIdle_relined]
  exact ite_of_relined x w rfl rfl

theorem settleRecord_relined (n r) :
    (relined x w s).settleRecord n r = relined x w (s.settleRecord n r) := by
  unfold State.settleRecord State.fileRecord
  simp only [putSlot_relined, postFolio_relined, ite_relined]

theorem deliverPage_relined (n p) :
    (relined x w s).deliverPage n p = relined x w (s.deliverPage n p) := settleRecord_relined x w s _ _
theorem resolveNotShelved_relined (n o d) :
    (relined x w s).resolveNotShelved n o d = relined x w (s.resolveNotShelved n o d) :=
  settleRecord_relined x w s _ _

theorem notShelved_relined (p r d) :
    (relined x w s).notShelved p r d = relined x w (s.notShelved p r d) := by
  unfold State.notShelved
  rw [resolveNotShelved_relined]
  cases r <;> rfl

theorem dismiss_relined (o) : (relined x w s).dismiss o = relined x w (s.dismiss o) :=
  endDrain_relined x w (s.removeTicket o)

theorem deliverTray_relined (n t) :
    (relined x w s).deliverTray n t = relined x w (s.deliverTray n t) := by
  unfold State.deliverTray
  cases t.decision.bind Decision.page
  · exact dismiss_relined x w (s.editTray n Tray.deliver) t.ordinal
  · rename_i p
    have h := deliverPage_relined x w (s.editTray n Tray.deliver) (slotOf p.folio)
      (s.assembler.trays[n].fill + 1)
    exact (congrArg (State.dismiss t.ordinal) h).trans (dismiss_relined x w _ _)

theorem deliverReject_relined (t) :
    (relined x w s).deliverReject t = relined x w (s.deliverReject t) := by
  unfold State.deliverReject
  cases t.decision with
  | none => rfl
  | some d =>
    dsimp only
    cases d.page <;> cases d.astray <;> dsimp only
    iterate 3 exact dismiss_relined x w _ _
    rw [notShelved_relined]; exact dismiss_relined x w _ _

/-! ## Sides and channels -/

theorem startSide_relined (d o) : (relined x w s).startSide d o = relined x w (s.startSide d o) := by
  unfold State.startSide
  rw [ticket_relined, side_relined]
  cases s.ticket o with
  | none => rfl
  | some t =>
    dsimp only
    simp only [editTicket_relined, editSide_relined]
    exact ite_relined x w _ _ _

theorem startSides_relined (o) : (relined x w s).startSides o = relined x w (s.startSides o) := by
  unfold State.startSides
  simp only [startSide_relined]
  exact ite_relined x w _ _ _

theorem blankTest_relined (d) : (relined x w s).blankTest d = relined x w (s.blankTest d) := by
  unfold State.blankTest
  simp only [side_relined, editSide_relined, editTicket_relined]
  exact ite_relined x w _ _ _

theorem endSide_relined (d o) : (relined x w s).endSide d o = relined x w (s.endSide d o) := by
  unfold State.endSide
  simp only [side_relined, editSide_relined, blankTest_relined, ite_relined]

theorem reportLoss_relined (d o) :
    (relined x w s).reportLoss d o = relined x w (s.reportLoss d o) :=
  editSide_relined x w (s.editTicket o Ticket.lose) d _

theorem closePlate_relined (d n) :
    (relined x w s).closePlate d n = relined x w (s.closePlate d n) := by
  unfold State.closePlate
  rw [capture_relined]
  cases (s.capture d).side with
  | none => rfl
  | some h =>
    dsimp only
    cases h.current with
    | none => rfl
    | some p =>
      dsimp only
      rw [putLink_relined, editCapture_relined]
      exact ite_relined x w _ _ _

theorem completeCapture_relined (d o) :
    (relined x w s).completeCapture d o = relined x w (s.completeCapture d o) := by
  unfold State.completeCapture
  exact ite_of_relined x w rfl rfl

theorem endCapture_relined (d o l) :
    (relined x w s).endCapture d o l = relined x w (s.endCapture d o l) := by
  unfold State.endCapture
  simp only [capture_relined, closePlate_relined, editCapture_relined, completeCapture_relined]

theorem loseCapture_relined (d o c) :
    (relined x w s).loseCapture d o c = relined x w (s.loseCapture d o c) := by
  unfold State.loseCapture
  simp only [closePlate_relined, editCapture_relined, reportLoss_relined]

theorem arbitrate_relined : (relined x w s).arbitrate = relined x w s.arbitrate := by
  unfold State.arbitrate
  simp only [show (relined x w s).images = s.images from rfl,
    show (relined x w s).eligibleChannel = s.eligibleChannel from rfl]
  cases s.images.transfer with
  | some => rfl
  | none =>
    dsimp only
    cases s.images.order.find? s.eligibleChannel with
    | none => rfl
    | some c => cases c <;> rfl

theorem requestCapture_relined (d) :
    (relined x w s).requestCapture d = relined x w (s.requestCapture d) := by
  unfold State.requestCapture
  rw [editCapture_relined]; exact arbitrate_relined x w _

theorem takeSidePlate_relined (d h) :
    (relined x w s).takeSidePlate d h = relined x w (s.takeSidePlate d h) := by
  unfold State.takeSidePlate
  rw [takePlate_relined]
  simp only [loseCapture_relined]
  cases s.takePlate with
  | none => exact ite_relined x w _ _ _
  | some p =>
    obtain ⟨p, t⟩ := p
    simp only [Option.map_some, closePlate_relined, editTicket_relined, editCapture_relined,
      requestCapture_relined, ite_relined]

theorem actOnQueue_relined (d) : ∀ (fuel : Nat) (s : State),
    (relined x w s).actOnQueue d fuel = relined x w (s.actOnQueue d fuel)
  | 0, _ => rfl
  | fuel + 1, s => by
    unfold State.actOnQueue
    simp only [capture_relined, side_relined, editCapture_relined, editSide_relined,
      endCapture_relined, takeSidePlate_relined, requestCapture_relined,
      actOnQueue_relined d fuel]
    split
    · rfl
    · split
      · rfl
      · rfl
      · split
        · rfl
        · split <;> split <;> rfl

theorem handOver_relined (d) (work : State → State)
    (hw : ∀ s, work (relined x w s) = relined x w (work s)) :
    (relined x w s).handOver d work = relined x w (s.handOver d work) := by
  unfold State.handOver State.serveQueue
  simp only [hw, side_relined, actOnQueue_relined]
  exact ite_relined x w _ _ _

theorem endSides_relined (o) : (relined x w s).endSides o = relined x w (s.endSides o) := by
  unfold State.endSides
  simp only [handOver_relined x w _ _ _ fun s => endSide_relined x w s _ o]
  exact ite_relined x w _ _ _

/-! ## The edges -/

theorem tracker_relined : (relined x w s).tracker = s.tracker := rfl
theorem firstEdgeFits_relined : (relined x w s).firstEdgeFits = s.firstEdgeFits := rfl
theorem secondEdgeFits_relined : (relined x w s).secondEdgeFits = s.secondEdgeFits := rfl
theorem scanLeadingFits_relined : (relined x w s).scanLeadingFits = s.scanLeadingFits := rfl
theorem scanPosition_relined : (relined x w s).scanPosition = s.scanPosition := rfl
theorem exitPosition_relined : (relined x w s).exitPosition = s.exitPosition := rfl
theorem tolerance_relined : (relined x w s).tolerance = s.tolerance := rfl
theorem trailingWithin_relined : (relined x w s).trailingWithin = s.trailingWithin := rfl

theorem entryLeading_relined : (relined x w s).entryLeading = relined x w s.entryLeading := by
  unfold State.entryLeading
  simp only [acts_relined, jam_relined, tracker_relined]
  exact ite_of_relined x w rfl (ite_of_relined x w rfl rfl)

theorem entryTrailing_relined : (relined x w s).entryTrailing = relined x w s.entryTrailing := by
  unfold State.entryTrailing
  simp only [acts_relined, stray_relined, tracker_relined]
  refine ite_of_relined x w rfl ?_
  cases s.tracker.train.getLast? with
  | none => rfl
  | some t => exact ite_of_relined x w rfl rfl

theorem edgeSensor_relined (e) : (relined x w s).edgeSensor e = relined x w (s.edgeSensor e) := by
  unfold State.edgeSensor
  simp only [acts_relined, stray_relined, tracker_relined, oldest_relined, firstEdgeFits_relined,
    secondEdgeFits_relined, editTicket_relined, openMeasurement_relined, closeMeasurement_relined]
  refine ite_of_relined x w rfl ?_
  cases s.oldest fun t => s.firstEdgeFits t || s.secondEdgeFits e t with
  | none => rfl
  | some t => exact ite_of_relined x w rfl rfl

theorem scanLeading_relined : (relined x w s).scanLeading = relined x w s.scanLeading := by
  unfold State.scanLeading
  simp only [acts_relined, stray_relined, jam_relined, oldest_relined, scanLeadingFits_relined,
    editTicket_relined, startSides_relined]
  refine ite_of_relined x w rfl ?_
  cases s.oldest s.scanLeadingFits with
  | none => rfl
  | some t => exact ite_of_relined x w rfl rfl

theorem scanTrailing_relined : (relined x w s).scanTrailing = relined x w s.scanTrailing := by
  unfold State.scanTrailing
  simp only [acts_relined, stray_relined, oldest_relined, trailingWithin_relined,
    scanPosition_relined, editTicket_relined, endSides_relined]
  refine ite_of_relined x w rfl ?_
  cases s.oldest fun t => t.armed.scanTrailing && s.trailingWithin s.scanPosition t <;> rfl

theorem exitLeading_relined (p) : (relined x w s).exitLeading p = relined x w (s.exitLeading p) := by
  unfold State.exitLeading
  simp only [acts_relined, jam_relined, tracker_relined, oldest_relined, exitPosition_relined,
    tolerance_relined, editTicket_relined]
  refine ite_of_relined x w rfl ?_
  cases s.oldest fun t => t.path = p && t.armed.exitLeading &&
    within (t.leading s.tracker.travel) (s.exitPosition p) s.tolerance <;> rfl

theorem exitTrailing_relined (p) :
    (relined x w s).exitTrailing p = relined x w (s.exitTrailing p) := by
  unfold State.exitTrailing
  simp only [acts_relined, jam_relined, oldest_relined, exitPosition_relined,
    trailingWithin_relined, deliverTray_relined, deliverReject_relined]
  refine ite_of_relined x w rfl ?_
  cases s.oldest fun t => t.path = p && t.armed.exitTrailing &&
    s.trailingWithin (s.exitPosition p) t with
  | none => rfl
  | some t => cases p <;> rfl

/-- An edge, with other lines and other replies, does the same and leaves those. -/
theorem edge_relined (l a) : (relined x w s).edge l a = relined x w (s.edge l a) := by
  unfold State.edge
  split <;> first
    | rfl
    | exact entryLeading_relined x w s
    | exact entryTrailing_relined x w s
    | exact edgeSensor_relined x w s _
    | exact scanLeading_relined x w s
    | exact scanTrailing_relined x w s
    | exact exitLeading_relined x w s _
    | exact exitTrailing_relined x w s _

/-- An edge leaves the lines and the replies. -/
theorem edge_leaves (l a) :
    (s.edge l a).lines = s.lines ∧ (s.edge l a).port.replies = s.port.replies := by
  have h : State.edge l a (relined s.lines s.port.replies s) = _ := edge_relined _ _ s l a
  constructor
  · show (State.edge l a (relined s.lines s.port.replies s)).lines = s.lines
    rw [h]; rfl
  · show (State.edge l a (relined s.lines s.port.replies s)).port.replies = s.port.replies
    rw [h]; rfl

end Sys2Proof.Laws.Lines
end

