-- ==== Sys2Proof/Laws/Rebuild.lean ====
section
/-! SUPPORT. The rebuild, stage by stage (spec/02, section 2.2): what each stage leaves of the directory, the slots, the
chains, the plates and the links, and what the whole of it leaves of any record memory. -/

namespace Sys2Proof.Laws.Rebuild

open Sys2Proof.Machine Sys2Proof.Safety Sys2Proof.Claims

/-! pointwise -/
theorem slot_put {s : State} (c : Canonical s) (n : Nat) (r : Record) (m : Nat) :
    (s.putSlot n r).slot m = if m = n then r else s.slot m := by
  split
  · rename_i h; subst h; exact slot_putSlot c _ _
  · rename_i h; exact slot_putSlot_ne s h r
theorem slot_settle {s : State} (c : Canonical s) (n : Nat) (r : Record) (m : Nat) :
    (s.settleSlot n r).slot m = if m = n then r else s.slot m := by
  unfold State.settleSlot
  split
  · rename_i h; split
    · rename_i e; subst e; exact h
    · rfl
  · exact slot_put c _ _ _
theorem slot_damage {s : State} (c : Canonical s) (n : Nat) (m : Nat) :
    (s.damage n).slot m = if m = n then { s.slot n with state := .damaged } else s.slot m := slot_put c _ _ _
theorem matter_put {s : State} (c : Canonical s) (n : Nat) (r : Matter) (h : r.number ≠ 0 ∨ r = {}) (m : Nat) :
    (s.putMatter n r).matterAt m = if m = n then r else s.matterAt m := by
  split
  · rename_i e; subst e
    unfold State.matterAt; rw [placeEntry_putMatter c]; unfold PlaceEntry.of
    rcases h with h | h
    · rw [if_neg h]
    · subst h; rfl
  · rename_i e; exact matterAt_putMatter_ne s e r
theorem matter_settle {s : State} (c : Canonical s) (n : Nat) (r : Matter) (h : r.number ≠ 0 ∨ r = {}) (m : Nat) :
    (s.settleMatter n r).matterAt m = if m = n then r else s.matterAt m := by
  unfold State.settleMatter
  split
  · rename_i h; split
    · rename_i e; subst e; exact h
    · rfl
  · exact matter_put c _ _ h _
theorem link_next {s : State} (c : Canonical s) (n : Nat) (x : Option Nat) (m : Nat) :
    (s.putNext n x).link m = if m = n then { s.link n with next := x } else s.link m := by
  unfold State.putNext
  split
  · rename_i h; subst h; exact link_putLink c _ _
  · rename_i h; exact link_putLink_ne s h _

/-- frames: what a rebuild stage may change -/
structure Fr (s t : State) : Prop where
  canon : Canonical s → Canonical t
  rest : t = { s with folio.index := t.folio.index, record := t.record, journal := t.journal }
theorem Fr.rfl {s} : Fr s s := ⟨id, Eq.refl _⟩
theorem Fr.trans {s t u : State} (h : Fr s t) (k : Fr t u) : Fr s u :=
  ⟨k.canon ∘ h.canon, by rw [k.rest, h.rest]⟩
theorem fr_putSlot (n r) (s : State) : Fr s (s.putSlot n r) := ⟨(quiet_putSlot n r s).canonical, rfl⟩
theorem fr_putMatter (n r) (s : State) : Fr s (s.putMatter n r) := ⟨(quiet_putMatter n r s).canonical, rfl⟩
theorem fr_putLink (n r) (s : State) : Fr s (s.putLink n r) := ⟨(quiet_putLink n r s).canonical, rfl⟩
theorem fr_putNext (n r) (s : State) : Fr s (s.putNext n r) := fr_putLink _ _ _
theorem fr_index (m : Long) (n) (s : State) : Fr s (s.indexMatter m n) := ⟨id, rfl⟩
theorem fr_damage (n) (s : State) : Fr s (s.damage n) := fr_putSlot _ _ _
theorem fr_settleSlot (n r) (s : State) : Fr s (s.settleSlot n r) := by
  unfold State.settleSlot; split
  · exact .rfl
  · exact fr_putSlot _ _ _
theorem fr_settleMatter (n r) (s : State) : Fr s (s.settleMatter n r) := by
  unfold State.settleMatter; split
  · exact .rfl
  · exact fr_putMatter _ _ _
theorem fr_testRemoval (p) (s : State) : Fr s (s.testRemoval p) := by
  unfold State.testRemoval; split
  · exact Fr.trans (t := { s with folio.index := s.folio.index.filter fun e => e.place ≠ p }) ⟨id, rfl⟩ (fr_putMatter _ _ _)
  · exact .rfl

/-! what slot operations leave -/
theorem settleSlot_dir (n r) (s : State) (p) : (s.settleSlot n r).placeEntry p = s.placeEntry p := by
  unfold State.settleSlot; split <;> rfl
theorem settleSlot_mat (n r) (s : State) (p) : (s.settleSlot n r).matterAt p = s.matterAt p := by
  unfold State.settleSlot; split <;> rfl
theorem settleSlot_link (n r) (s : State) (p) : (s.settleSlot n r).link p = s.link p := by
  unfold State.settleSlot; split <;> rfl
theorem settleSlot_ix (n r) (s : State) : (s.settleSlot n r).folio.index = s.folio.index := by
  unfold State.settleSlot; split <;> rfl
theorem settleSlot_entry_ne (n r) (s : State) (m) (h : m ≠ n) : (s.settleSlot n r).slotEntry m = s.slotEntry m := by
  unfold State.settleSlot; split
  · rfl
  · exact slotEntry_putSlot_ne s h r
theorem settleMatter_link (n r) (s : State) (p) : (s.settleMatter n r).link p = s.link p := by
  unfold State.settleMatter; split <;> rfl
theorem settleMatter_slot (n r) (s : State) (p) : (s.settleMatter n r).slotEntry p = s.slotEntry p := by
  unfold State.settleMatter; split <;> rfl
theorem settleMatter_ix (n r) (s : State) : (s.settleMatter n r).folio.index = s.folio.index := by
  unfold State.settleMatter; split <;> rfl

/-! index -/
theorem perm_insert (e : IndexEntry) : ∀ l, (insertIndex e l).Perm (e :: l)
  | [] => by unfold insertIndex; exact .refl _
  | f :: l => by
    unfold insertIndex; split
    · exact .refl _
    · exact ((perm_insert e l).cons f).trans (.swap _ _ _)
theorem mem_insert (e : IndexEntry) (l) (x) : x ∈ insertIndex e l ↔ x = e ∨ x ∈ l := by
  rw [(perm_insert e l).mem_iff, List.mem_cons]
theorem sorted_insert (e : IndexEntry) : ∀ l : List IndexEntry, l.Pairwise (fun a b => a.place < b.place) →
    (∀ x ∈ l, x.place ≠ e.place) → (insertIndex e l).Pairwise (fun a b => a.place < b.place)
  | [], _, _ => by unfold insertIndex; exact List.pairwise_singleton _ _
  | f :: l, h, hn => by
    rw [List.pairwise_cons] at h
    unfold insertIndex; split
    · rename_i hlt
      refine List.pairwise_cons.mpr ⟨fun x hx => ?_, List.pairwise_cons.mpr h⟩
      rcases List.mem_cons.mp hx with rfl | hx
      · exact hlt
      · exact Nat.lt_trans hlt (h.1 x hx)
    · rename_i hlt
      have := hn f List.mem_cons_self
      refine List.pairwise_cons.mpr ⟨fun x hx => ?_, sorted_insert e l h.2 fun x hx => hn x (List.mem_cons_of_mem _ hx)⟩
      rcases (mem_insert e l x).mp hx with rfl | hx
      · omega
      · exact h.1 x hx

theorem find_none (s : State) (m : Long) : s.findMatter m = none ↔ ∀ e ∈ s.folio.index, e.matter ≠ m := by
  unfold State.findMatter; rw [List.find?_eq_none]; simp
theorem find_some (s : State) (m : Long) (e) (h : s.findMatter m = some e) : e ∈ s.folio.index ∧ e.matter = m := by
  unfold State.findMatter at h
  exact ⟨List.mem_of_find?_eq_some h, by simpa using List.find?_some h⟩

theorem firstFrom_spec (f : Nat → Bool) : ∀ (c a : Nat),
    (∃ p, firstFrom f a c = some p ∧ a ≤ p ∧ p < a + c ∧ f p = true) ∨
    (firstFrom f a c = none ∧ ∀ p, a ≤ p → p < a + c → f p = false)
  | 0, a => .inr ⟨rfl, fun p h1 h2 => by omega⟩
  | c + 1, a => by
    unfold firstFrom
    by_cases h : f a = true
    · rw [if_pos h]; exact .inl ⟨a, rfl, Nat.le_refl _, by omega, h⟩
    · rw [if_neg h]
      rcases firstFrom_spec f c (a + 1) with ⟨p, h1, h2, h3, h4⟩ | ⟨h1, h2⟩
      · exact .inl ⟨p, h1, by omega, by omega, h4⟩
      · refine .inr ⟨h1, fun p h3 h4 => ?_⟩
        by_cases e : p = a
        · subst e; simpa using h
        · exact h2 p (by omega) (by omega)
theorem freePlace_spec (s : State) :
    (∃ p, s.freePlace = some p ∧ p < 256 ∧ (s.matterAt p).number = 0) ∨
    (s.freePlace = none ∧ ∀ p, p < 256 → (s.matterAt p).number ≠ 0) := by
  rcases firstFrom_spec (fun p => (s.matterAt p).number = 0) 256 0 with ⟨p, h1, _, h3, h4⟩ | ⟨h1, h2⟩
  · exact .inl ⟨p, h1, by omega, by simpa using h4⟩
  · exact .inr ⟨h1, fun p hp => by simpa using h2 p (by omega) (by omega)⟩

/-! stage 1 -/
theorem fr_checkPlace (n) (s : State) : Fr s (s.checkPlace n) := by
  unfold State.checkPlace; dsimp only; split
  · split
    · exact .rfl
    · exact fr_putMatter _ _ _
  · split
    · exact fr_putMatter _ _ _
    · exact fr_index _ _ _
theorem fr_ascending : ∀ n s, Fr s (ascending State.checkPlace n s)
  | 0, _ => .rfl
  | n + 1, s => (fr_ascending n s).trans (fr_checkPlace _ _)

/-- lowest acceptable place -/
def Acc (s : State) (p : Nat) : Prop :=
  Acceptable s p ∧ ∀ q, q < p → Acceptable s q → (s.matterAt q).number ≠ (s.matterAt p).number

structure One (j : Nat) (s t : State) : Prop where
  slots : ∀ n, t.slotEntry n = s.slotEntry n
  links : ∀ n, t.link n = s.link n
  later : ∀ p, j ≤ p → t.placeEntry p = s.placeEntry p
  kept : ∀ p, p < j → Acc s p → t.placeEntry p = s.placeEntry p
  gone : ∀ p, p < j → ¬ Acc s p → t.placeEntry p = {}
  mem : ∀ e, e ∈ t.folio.index ↔ e.place < j ∧ Acc s e.place ∧ e.pinned = false ∧ e.matter = (s.matterAt e.place).number
  sorted : t.folio.index.Pairwise (fun a b => a.place < b.place)

theorem lowest (s : State) : ∀ p, Acceptable s p → ∃ q, q ≤ p ∧ Acc s q ∧ (s.matterAt q).number = (s.matterAt p).number := by
  intro p
  induction p using Nat.strongRecOn with
  | ind p ih =>
    intro h
    by_cases k : Acc s p
    · exact ⟨p, Nat.le_refl _, k, rfl⟩
    · have : ∃ q, q < p ∧ Acceptable s q ∧ (s.matterAt q).number = (s.matterAt p).number := by
        by_contra hne
        exact k ⟨h, fun q h1 h2 h3 => hne ⟨q, h1, h2, h3⟩⟩
      obtain ⟨q, h1, h2, h3⟩ := this
      obtain ⟨q', h4, h5, h6⟩ := ih q h1 h2
      exact ⟨q', by omega, h5, h6.trans h3⟩

theorem one_zero (s : State) (h : s.folio.index = []) : One 0 s s where
  slots _ := rfl
  links _ := rfl
  later _ _ := rfl
  kept _ h := absurd h (Nat.not_lt_zero _)
  gone _ h := absurd h (Nat.not_lt_zero _)
  mem e := by rw [h]; simp
  sorted := by rw [h]; exact .nil

theorem one_succ (j : Nat) (s t : State) (c : Canonical t) (h : One j s t) : One (j + 1) s (t.checkPlace j) := by
  have hej : t.placeEntry j = s.placeEntry j := h.later j (Nat.le_refl _)
  have hmj : t.matterAt j = s.matterAt j := by unfold State.matterAt; rw [hej]
  have clear : ¬ Acc s j → ∀ u : State, u.placeEntry j = {} → (∀ p, p ≠ j → u.placeEntry p = t.placeEntry p) → (∀ n, u.slotEntry n = t.slotEntry n) →
      (∀ n, u.link n = t.link n) → u.folio.index = t.folio.index → One (j + 1) s u := by
    intro hn u h1 h2 h3 h4 h5
    refine ⟨fun n => (h3 n).trans (h.slots n), fun n => (h4 n).trans (h.links n), fun p hp => (h2 p (by omega)).trans (h.later p (by omega)), fun p hp hA => ?_, fun p hp hA => ?_, fun e => ?_, by rw [h5]; exact h.sorted⟩
    · by_cases e : p = j
      · subst e; exact absurd hA hn
      · exact (h2 p e).trans (h.kept p (by omega) hA)
    · by_cases e : p = j
      · subst e; exact h1
      · exact (h2 p e).trans (h.gone p (by omega) hA)
    · rw [h5, h.mem e]
      constructor
      · rintro ⟨a, b⟩; exact ⟨by omega, b⟩
      · rintro ⟨a, b⟩
        refine ⟨?_, b⟩
        by_cases hj : e.place = j
        · rw [hj] at b; exact absurd b.1 hn
        · omega
  have put : ¬ Acc s j → One (j + 1) s (t.putMatter j {}) := fun hn =>
    clear hn _ (placeEntry_putMatter c _ _) (fun p hp => placeEntry_putMatter_ne t hp _) (fun _ => rfl) (fun _ => rfl) rfl
  unfold State.checkPlace
  dsimp only
  have hnum : (t.placeEntry j).fields.number = (s.matterAt j).number := by rw [hej]; rfl
  split
  · rename_i h0
    rw [hnum] at h0
    have hn : ¬ Acc s j := fun k => k.1.1 h0
    split
    · rename_i he
      exact clear hn _ he (fun _ _ => rfl) (fun _ => rfl) (fun _ => rfl) rfl
    · exact put hn
  · rename_i h0
    rw [hnum] at h0
    have hfound : (t.findMatter (t.placeEntry j).fields.number).isSome = true ↔ ∃ q, q < j ∧ Acc s q ∧ (s.matterAt q).number = (s.matterAt j).number := by
      rw [hnum]
      constructor
      · intro hs
        obtain ⟨e, he⟩ := Option.isSome_iff_exists.mp hs
        obtain ⟨h1, h2⟩ := find_some _ _ _ he
        obtain ⟨h3, h4, _, h5⟩ := (h.mem e).mp h1
        exact ⟨e.place, h3, h4, h5.symm.trans h2⟩
      · rintro ⟨q, h1, h2, h3⟩
        by_contra hc
        have hc : t.findMatter (s.matterAt j).number = none := by simpa using hc
        exact (find_none _ _).mp hc ⟨(s.matterAt q).number, q, false⟩ ((h.mem _).mpr ⟨h1, h2, rfl, rfl⟩) h3
    split
    · rename_i hb
      refine put fun k => ?_
      rcases hb with hb | hb | hb | hb
      · have : (s.placeEntry j).checks = true := by
          unfold PlaceEntry.checks; exact decide_eq_true k.1.2.1
        rw [hej, this] at hb; exact absurd hb (by decide)
      · rw [hej] at hb; exact absurd k.1.2.2.1 (by show ¬ (s.placeEntry j).fields.holdCount ≤ 15; omega)
      · rw [hej] at hb; exact absurd k.1.2.2.2 (by show ¬ (s.placeEntry j).fields.nextSequence ≤ 65535; omega)
      · obtain ⟨q, h1, h2, h3⟩ := hfound.mp hb
        exact k.2 q h1 h2.1 h3
    · rename_i hb
      simp only [not_or] at hb
      obtain ⟨hb1, hb2, hb3, hb4⟩ := hb
      have hacc : Acceptable s j := by
        refine ⟨h0, ?_, ?_, ?_⟩
        · rw [hej] at hb1; unfold PlaceEntry.checks at hb1; show (s.placeEntry j).check = crc16 (s.placeEntry j).fields.bytes; simpa using hb1
        · rw [hej] at hb2; show (s.placeEntry j).fields.holdCount ≤ 15; omega
        · rw [hej] at hb3; show (s.placeEntry j).fields.nextSequence ≤ 65535; omega
      have hA : Acc s j := by
        refine ⟨hacc, fun q h1 h2 h3 => hb4 (hfound.mpr ?_)⟩
        obtain ⟨q', h4, h5, h6⟩ := lowest s q h2
        exact ⟨q', by omega, h5, h6.trans h3⟩
      rw [hnum]
      refine ⟨h.slots, h.links, fun p hp => h.later p (by omega), fun p hp hk => ?_, fun p hp hk => ?_, fun e => ?_, ?_⟩
      · by_cases e : p = j
        · subst e; exact hej
        · exact h.kept p (by omega) hk
      · by_cases e : p = j
        · subst e; exact absurd hA hk
        · exact h.gone p (by omega) hk
      · show e ∈ insertIndex _ _ ↔ _
        rw [mem_insert, h.mem e]
        constructor
        · rintro (rfl | ⟨a, b⟩)
          · exact ⟨Nat.lt_succ_self _, hA, rfl, rfl⟩
          · exact ⟨by omega, b⟩
        · rintro ⟨a, b, b2, b3⟩
          by_cases hj : e.place = j
          · left
            obtain ⟨m, p, pin⟩ := e
            dsimp only at *
            subst hj b2 b3; rfl
          · exact .inr ⟨by omega, b, b2, b3⟩
      · refine sorted_insert _ _ h.sorted fun x hx => ?_
        have := ((h.mem x).mp hx).1
        dsimp only; omega

theorem one_all (s : State) (c : Canonical s) (h : s.folio.index = []) : ∀ j, One j s (ascending State.checkPlace j s)
  | 0 => one_zero s h
  | j + 1 => one_succ j s _ ((fr_ascending j s).canon c) (one_all s c h j)

theorem blank_iff (s : State) (n : Nat) : (s.slotEntry n).blank = true ↔ BlankSlot s n := by
  unfold SlotEntry.blank BlankSlot; simp
theorem checks_iff (s : State) (n : Nat) : (s.slotEntry n).checks = true ↔ (s.slotEntry n).check = crc16 (s.slot n).bytes := by
  unfold SlotEntry.checks; exact decide_eq_true_iff
theorem disagrees_iff {α} (o : Option α) (n : Nat) : disagrees o.isSome n = false ↔ ((n = 0 ∧ o = none) ∨ (0 < n ∧ o ≠ none)) := by
  unfold disagrees
  cases o <;> simp <;> omega

theorem range_iff (r : Record) (h1 : r.state ≠ .free) (h2 : r.state ≠ .damaged) : r.outOfRange = false ↔ InRange r := by
  have hst : r.state ≠ .undefined ↔ (r.state = .assembling ∨ r.state = .filing ∨ r.state = .filed) := by
    cases hr : r.state <;> simp_all
  unfold Record.outOfRange InRange
  rw [← hst]
  have hx : Config.exceptionPlaces = 8 := rfl
  simp only [Bool.or_eq_false_iff, disagrees_iff, hx, decide_eq_false_iff_not, Bool.and_eq_false_iff]
  constructor
  · rintro ⟨⟨⟨⟨⟨⟨⟨⟨⟨⟨⟨⟨⟨⟨⟨⟨⟨⟨a1, a2⟩, a3⟩, a4⟩, a5⟩, a6⟩, a7⟩, a8⟩, a9⟩, a10⟩, a11⟩, a12⟩, a13⟩, a14⟩, a15⟩, a16⟩, a17⟩, a18⟩, a19⟩
    refine ⟨a1, a2, a3, by omega, by omega, by omega, by omega, by omega, ?_, by omega, ?_, ?_, by omega, ?_, by omega, ?_⟩
    · rcases a9 with ⟨b1, b2⟩ | ⟨b1, b2⟩ <;> rcases a10 with ⟨b3, b4⟩ | ⟨b3, b4⟩ <;> try omega
      · exact .inl ⟨b1, b2, b4⟩
      · obtain ⟨f, hf⟩ := Option.ne_none_iff_exists'.mp b2
        obtain ⟨l, hl⟩ := Option.ne_none_iff_exists'.mp b4
        rw [hf, hl] at a11
        exact .inr ⟨b1, f, l, hf, hl, by simp at a11; omega⟩
    · rcases a13 with ⟨b1, b2⟩ | ⟨b1, b2⟩ <;> rcases a14 with ⟨b3, b4⟩ | ⟨b3, b4⟩ <;> try omega
      · exact .inl ⟨b1, b2, b4⟩
      · exact .inr ⟨b1, b2, b4⟩
    · intro hi; rcases a15 with h | h
      · exact absurd hi h
      · omega
    · intro hn; rw [hn] at a17; exact absurd a17 (by decide)
    · intro hn; rcases a19 with h | h
      · exact absurd hn h
      · omega
  · rintro ⟨a1, a2, a3, a4, a5, a6, a7, a8, a9, a10, a11, a12, a13, a14, a15, a16⟩
    refine ⟨⟨⟨⟨⟨⟨⟨⟨⟨⟨⟨⟨⟨⟨⟨⟨⟨⟨a1, a2⟩, a3⟩, by omega⟩, by omega⟩, by omega⟩, by omega⟩, by omega⟩, ?_⟩, ?_⟩, ?_⟩, by omega⟩, ?_⟩, ?_⟩, ?_⟩, by omega⟩, ?_⟩, by omega⟩, ?_⟩
    · rcases a9 with ⟨b1, b2, b3⟩ | ⟨b1, f, l, b2, b3, b4⟩
      · exact .inl ⟨b1, b2⟩
      · exact .inr ⟨b1, by rw [b2]; simp⟩
    · rcases a9 with ⟨b1, b2, b3⟩ | ⟨b1, f, l, b2, b3, b4⟩
      · exact .inl ⟨b1, b3⟩
      · exact .inr ⟨b1, by rw [b3]; simp⟩
    · rcases a9 with ⟨b1, b2, b3⟩ | ⟨b1, f, l, b2, b3, b4⟩
      · rw [b2]
      · rw [b2, b3]; simp; omega
    · rcases a11 with ⟨b1, b2, b3⟩ | ⟨b1, b2, b3⟩
      · exact .inl ⟨b1, b2⟩
      · exact .inr ⟨b1, b2⟩
    · rcases a11 with ⟨b1, b2, b3⟩ | ⟨b1, b2, b3⟩
      · exact .inl ⟨b1, b3⟩
      · exact .inr ⟨b1, b3⟩
    · by_cases hi : r.image = .shed
      · right; have := a12 hi; omega
      · exact .inl hi
    · cases ht : r.tray with
      | none => exact absurd ht a14
      | some _ => rfl
    · by_cases hi : r.state = .filed
      · right; have := a16 hi; omega
      · exact .inl hi

theorem normalize_eq (r : Record) (h : r.state = .assembling ∨ r.state = .filing ∨ r.state = .filed) :
    r.normalize = normalized r := by
  unfold Record.normalize normalized Record.addException
  have hx : Config.exceptionPlaces = 8 := rfl
  have ho : 8 ≤ r.exceptions.length ↔ ¬ r.exceptions.length < 8 := by omega
  rcases h with h | h | h <;> rw [h] <;> by_cases hl : r.exceptions.length < 8 <;> simp [hx, ho, hl]

structure IxOK (t : State) : Prop where
  each : ∀ e ∈ t.folio.index, e.place < 256 ∧ e.pinned = false ∧ e.matter ≠ 0 ∧ (t.matterAt e.place).number = e.matter
  sorted : t.folio.index.Pairwise (fun a b => a.place < b.place)
  uniq : ∀ e ∈ t.folio.index, ∀ f ∈ t.folio.index, e.matter = f.matter → e = f
  all : ∀ p, p < 256 → (t.matterAt p).number ≠ 0 → ∃ e ∈ t.folio.index, e.place = p

def Slot2 (s t : State) (n : Nat) : Prop :=
  (BlankSlot s n → t.slot n = {}) ∧
  (¬ BlankSlot s n → ¬ ChecksOut s n → t.slot n = { s.slot n with state := .damaged }) ∧
  (ChecksOut s n → (s.slot n).state = .damaged ∨ (s.slot n).state = .free → t.slotEntry n = s.slotEntry n) ∧
  (ChecksOut s n → (s.slot n).state ≠ .damaged → (s.slot n).state ≠ .free → ¬ InRange (s.slot n) →
      t.slot n = { s.slot n with state := .damaged }) ∧
  (FoundLive s n →
    (∃ e ∈ t.folio.index, e.matter = (s.slot n).matter ∧ t.slot n = { normalized (s.slot n) with place := e.place }) ∨
    ((∀ e ∈ t.folio.index, e.matter ≠ (s.slot n).matter) ∧ (∀ p, p < 256 → (t.matterAt p).number ≠ 0) ∧
      (∀ e ∈ t.folio.index, e ∈ s.folio.index ∨ ((∀ f ∈ s.folio.index, f.matter ≠ e.matter) ∧
        ∃ k, k < n ∧ FoundLive s k ∧ (s.slot k).matter = e.matter)) ∧
      t.slot n = { s.slot n with state := .damaged }))

structure Two (j : Nat) (s t : State) : Prop where
  links : ∀ n, t.link n = s.link n
  later : ∀ n, j ≤ n → t.slotEntry n = s.slotEntry n
  ix : IxOK t
  old : ∀ p, (s.matterAt p).number ≠ 0 → t.placeEntry p = s.placeEntry p
  sub : ∀ e ∈ s.folio.index, e ∈ t.folio.index
  new : ∀ e ∈ t.folio.index, e ∈ s.folio.index ∨ ((∀ f ∈ s.folio.index, f.matter ≠ e.matter) ∧
    (s.matterAt e.place).number = 0 ∧
    t.matterAt e.place = { Matter.fresh e.matter with holdCount := 1 } ∧
    ∃ n, n < j ∧ FoundLive s n ∧ (s.slot n).matter = e.matter)
  done : ∀ n, n < j → Slot2 s t n

theorem two_slot {j : Nat} {s t u : State} (h : Two j s t) (hl : ∀ n, u.link n = t.link n)
    (hs : ∀ n, n ≠ j → u.slotEntry n = t.slotEntry n) (hp : ∀ p, u.placeEntry p = t.placeEntry p)
    (hi : u.folio.index = t.folio.index) (hd : Slot2 s u j) : Two (j + 1) s u := by
  have hm : ∀ p, u.matterAt p = t.matterAt p := fun p => by unfold State.matterAt; rw [hp]
  refine ⟨fun n => (hl n).trans (h.links n), fun n hn => (hs n (by omega)).trans (h.later n (by omega)), ?_, fun p q => (hp p).trans (h.old p q), by rw [hi]; exact h.sub, ?_, ?_⟩
  · refine ⟨by rw [hi]; simp only [hm]; exact h.ix.each, by rw [hi]; exact h.ix.sorted, by rw [hi]; exact h.ix.uniq, by rw [hi]; simp only [hm]; exact h.ix.all⟩
  · intro e he
    rw [hi] at he
    rcases h.new e he with k | ⟨k1, k0, k2, n, k3, k4⟩
    · exact .inl k
    · exact .inr ⟨k1, k0, (hm _).trans k2, n, by omega, k4⟩
  · intro n hn
    by_cases e : n = j
    · subst e; exact hd
    · have hx := h.done n (by omega)
      have hsn : u.slot n = t.slot n := by unfold State.slot; rw [hs n e]
      unfold Slot2 at hx ⊢
      simp only [hsn, hi, hm, hs n e]
      exact hx

theorem two_new {j : Nat} {s t u : State} (h : Two j s t) (m : Long) (place : Nat)
    (hpl : place < 256) (hfree : (t.matterAt place).number = 0) (hm0 : m ≠ 0) (hnf : ∀ e ∈ t.folio.index, e.matter ≠ m)
    (hl : ∀ n, u.link n = t.link n)
    (hs : ∀ n, n ≠ j → u.slotEntry n = t.slotEntry n) (hp : ∀ p, p ≠ place → u.placeEntry p = t.placeEntry p)
    (hpp : u.matterAt place = { Matter.fresh m with holdCount := 1 })
    (hi : u.folio.index = insertIndex ⟨m, place, false⟩ t.folio.index)
    (hf : FoundLive s j ∧ (s.slot j).matter = m)
    (hslot : u.slot j = { normalized (s.slot j) with place := place }) (hnd : (s.slot j).state ≠ .damaged ∧ (s.slot j).state ≠ .free) : Two (j + 1) s u := by
  have hm : ∀ p, p ≠ place → u.matterAt p = t.matterAt p := fun p k => by unfold State.matterAt; rw [hp p k]
  have hmem : ∀ e, e ∈ u.folio.index ↔ e = ⟨m, place, false⟩ ∨ e ∈ t.folio.index := fun e => by rw [hi, mem_insert]
  have hne : ∀ e ∈ t.folio.index, e.place ≠ place := fun e he k => by
    obtain ⟨_, _, k3, k4⟩ := h.ix.each e he
    rw [k, hfree] at k4; exact k3 k4.symm
  have hnum : (u.matterAt place).number = m := by rw [hpp]; rfl
  have hs0 : (s.matterAt place).number = 0 := by
    by_contra k
    have := h.old place k
    apply k
    rw [← hfree]; unfold State.matterAt; rw [this]
  refine ⟨fun n => (hl n).trans (h.links n), fun n hn => (hs n (by omega)).trans (h.later n (by omega)), ⟨?_, ?_, ?_, ?_⟩, fun p q => ?_, fun e he => (hmem e).mpr (.inr (h.sub e he)), ?_, ?_⟩
  · intro e he
    rcases (hmem e).mp he with rfl | he
    · exact ⟨hpl, rfl, hm0, hnum⟩
    · rw [hm _ (hne e he)]; exact h.ix.each e he
  · rw [hi]; exact sorted_insert _ _ h.ix.sorted hne
  · intro e he f hf' hef
    rcases (hmem e).mp he with rfl | he <;> rcases (hmem f).mp hf' with rfl | hf'
    · rfl
    · exact absurd hef.symm (hnf f hf')
    · exact absurd hef (hnf e he)
    · exact h.ix.uniq e he f hf' hef
  · intro p h1 h2
    by_cases k : p = place
    · exact ⟨_, (hmem _).mpr (.inl rfl), k.symm⟩
    · rw [hm p k] at h2
      obtain ⟨e, h3, h4⟩ := h.ix.all p h1 h2
      exact ⟨e, (hmem e).mpr (.inr h3), h4⟩
  · by_cases k : p = place
    · subst k; exact absurd hs0 q
    · exact (hp p k).trans (h.old p q)
  · intro e he
    rcases (hmem e).mp he with rfl | he
    · exact .inr ⟨fun f hf => hnf f (h.sub f hf), hs0, hpp, j, Nat.lt_succ_self _, hf⟩
    · rcases h.new e he with k | ⟨k1, k0, k2, n, k3, k4⟩
      · exact .inl k
      · exact .inr ⟨k1, k0, (hm _ (hne e he)).trans k2, n, by omega, k4⟩
  · intro n hn
    by_cases e : n = j
    · subst e
      refine ⟨fun b => absurd b hf.1.2.1.1, fun _ b => absurd hf.1.2.1 b, fun _ b => ?_, fun _ _ _ b => absurd hf.1.2.2 b, fun _ => .inl ⟨_, (hmem _).mpr (.inl rfl), hf.2.symm, hslot⟩⟩
      rcases b with b | b
      · exact absurd b hnd.1
      · exact absurd b hnd.2
    · have hx := h.done n (by omega)
      have hsn : u.slot n = t.slot n := by unfold State.slot; rw [hs n e]
      obtain ⟨x1, x2, x3, x4, x5⟩ := hx
      refine ⟨fun a => hsn.trans (x1 a), fun a b => hsn.trans (x2 a b), fun a b => (hs n e).trans (x3 a b), fun a b c d => hsn.trans (x4 a b c d), fun a => ?_⟩
      rcases x5 a with ⟨f, f1, f2, f3⟩ | ⟨f1, f2, f3⟩
      · exact .inl ⟨f, (hmem f).mpr (.inr f1), f2, hsn.trans f3⟩
      · exact absurd hfree (f2 place hpl)

theorem fr_tie (n) (p : State × Nat) : Fr p.1 (tieRecord n p).1 := by
  obtain ⟨s, k⟩ := p
  unfold tieRecord; dsimp only
  split
  · exact fr_settleSlot _ _ _
  · split
    · exact fr_damage _ _
    · exact ((fr_index _ _ _).trans (fr_settleSlot _ _ _)).trans (fr_putMatter _ _ _)
theorem fr_checkSlot (n) (p : State × Nat) : Fr p.1 (checkSlot n p).1 := by
  obtain ⟨s, k⟩ := p
  unfold checkSlot; dsimp only
  split
  · exact fr_putSlot _ _ _
  · split
    · exact fr_damage _ _
    · split
      · exact .rfl
      · exact .rfl
      all_goals
        split
        · exact fr_damage _ _
        · exact fr_tie _ (_, _)
theorem fr_checkSlots : ∀ n p, Fr p.1 (checkSlots n p).1
  | 0, _ => .rfl
  | n + 1, p => (fr_checkSlots n p).trans (fr_checkSlot _ _)

theorem two_succ (j : Nat) (hj : j < 4096) (s : State) (p : State × Nat) (c : Canonical p.1) (h : Two j s p.1) :
    Two (j + 1) s (checkSlot j p).1 := by
  obtain ⟨t, k⟩ := p
  dsimp only at c h
  have hej : t.slotEntry j = s.slotEntry j := h.later j (Nat.le_refl _)
  have hsj : t.slot j = s.slot j := by unfold State.slot; rw [hej]
  have slotOnly : ∀ r, Slot2 s (t.putSlot j r) j → Two (j + 1) s (t.putSlot j r) := fun r hd =>
    two_slot h (fun _ => rfl) (fun n hn => slotEntry_putSlot_ne t hn _) (fun _ => rfl) rfl hd
  have dam : ∀ r, r = { s.slot j with state := .damaged } → ¬ BlankSlot s j →
     ¬ (ChecksOut s j ∧ ((s.slot j).state = .damaged ∨ (s.slot j).state = .free)) →
     (FoundLive s j → (∀ e ∈ t.folio.index, e.matter ≠ (s.slot j).matter) ∧ (∀ p, p < 256 → (t.matterAt p).number ≠ 0)) → Slot2 s (t.putSlot j r) j := by
    rintro r rfl hb hc hf
    have hr := slot_put c j { s.slot j with state := RecordState.damaged } j
    rw [if_pos rfl] at hr
    exact ⟨fun a => absurd a hb, fun _ _ => hr, fun a b => absurd ⟨a, b⟩ hc, fun _ _ _ _ => hr, fun a => .inr ⟨(hf a).1, (hf a).2, fun e he => (h.new e he).imp id fun q => ⟨q.1, q.2.2.2⟩, hr⟩⟩
  have damEq : t.damage j = t.putSlot j { s.slot j with state := .damaged } := by unfold State.damage State.editSlot; rw [hsj]
  unfold checkSlot
  dsimp only
  rw [hej]
  split
  · rename_i hb
    have hb := (blank_iff s j).mp hb
    refine slotOnly _ ⟨fun _ => ?_, fun a => absurd hb a, fun a => absurd hb a.1, fun a => absurd hb a.1, fun a => absurd hb a.2.1.1⟩
    rw [slot_put c, if_pos rfl]
  · rename_i hb
    have hb : ¬ BlankSlot s j := fun k => hb ((blank_iff s j).mpr k)
    split
    · rename_i hc
      have hc : ¬ ChecksOut s j := fun k => by rw [(checks_iff s j).mpr k.2] at hc; exact absurd hc (by decide)
      rw [damEq]
      exact slotOnly _ (dam _ rfl hb (fun k => hc k.1) (fun k => absurd k.2.1 hc))
    · rename_i hc
      have hc : ChecksOut s j := ⟨hb, (checks_iff s j).mp (by simpa using hc)⟩
      have same : (s.slot j).state = .damaged ∨ (s.slot j).state = .free → Two (j + 1) s t := fun hd => by
        refine two_slot h (fun _ => rfl) (fun _ _ => rfl) (fun _ => rfl) rfl ⟨fun a => absurd a hb, fun _ a => absurd hc a, fun _ _ => hej, fun _ a b => ?_, fun a => ?_⟩
        · rcases hd with hd | hd
          · exact absurd hd a
          · exact absurd hd b
        · have := a.2.2.1
          rcases hd with hd | hd <;> rw [hd] at this <;> simp at this
      have hfields : (s.slotEntry j).fields = s.slot j := rfl
      rw [hfields]
      have live : (s.slot j).state ≠ .damaged → (s.slot j).state ≠ .free →
          Two (j + 1) s (if (s.slot j).outOfRange = true then (t.damage j, k) else tieRecord j (t, k)).1 := by
        intro hd hf
        split
        · rename_i ho
          have ho : ¬ InRange (s.slot j) := fun a => by rw [(range_iff _ hf hd).mpr a] at ho; exact absurd ho (by decide)
          dsimp only
          rw [damEq]
          refine slotOnly _ (dam _ rfl hb ?_ (fun k => absurd k.2.2 ho))
          rintro ⟨_, a | a⟩
          · exact hd a
          · exact hf a
        · rename_i ho
          have ho : InRange (s.slot j) := (range_iff _ hf hd).mp (by simpa using ho)
          have hl : FoundLive s j := ⟨hj, hc, ho⟩
          have hnm : (s.slot j).normalize = normalized (s.slot j) := normalize_eq _ ho.1
          have hmat : (normalized (s.slot j)).matter = (s.slot j).matter := by unfold normalized; split <;> rfl
          unfold tieRecord
          dsimp only
          rw [hsj, hnm]
          split
          · rename_i e he
            obtain ⟨h1, h2⟩ := find_some _ _ _ he
            refine two_slot h (fun _ => settleSlot_link _ _ _ _) (fun n hn => settleSlot_entry_ne _ _ _ _ hn) (fun _ => settleSlot_dir _ _ _ _) (settleSlot_ix _ _ _) ⟨fun a => absurd a hb, fun _ a => absurd hc a, fun _ a => ?_, fun _ _ _ a => absurd ho a, fun _ => .inl ⟨e, by rw [settleSlot_ix]; exact h1, h2.trans hmat, ?_⟩⟩
            · rcases a with a | a
              · exact absurd a hd
              · exact absurd a hf
            · rw [slot_settle c, if_pos rfl]
          · rename_i hfn
            have hfn := (find_none _ _).mp hfn
            have hm0 : (normalized (s.slot j)).matter ≠ 0 := by rw [hmat]; exact ho.2.1
            rcases freePlace_spec t with ⟨p, h1, h2, h3⟩ | ⟨h1, h2⟩
            · rw [h1]
              dsimp only
              have c1 : Canonical (t.indexMatter (normalized (s.slot j)).matter p) := c
              have c2 := (fr_settleSlot j { normalized (s.slot j) with place := p } (t.indexMatter (normalized (s.slot j)).matter p)).canon c1
              refine two_new h (normalized (s.slot j)).matter p h2 h3 hm0 hfn ?_ ?_ ?_ ?_ ?_ ⟨hl, hmat.symm⟩ ?_ ⟨hd, hf⟩
              · intro n; rw [link_putMatter, settleSlot_link]; rfl
              · intro n hn; rw [slotEntry_putMatter, settleSlot_entry_ne _ _ _ _ hn]; rfl
              · intro q hq; rw [placeEntry_putMatter_ne _ hq, settleSlot_dir]; rfl
              · rw [matter_put c2 _ _ (.inl hm0), if_pos rfl]
              · show ((t.indexMatter (normalized (s.slot j)).matter p).settleSlot j _).folio.index = _
                rw [settleSlot_ix]; rfl
              · rw [slot_putMatter, slot_settle c1, if_pos rfl]
            · rw [h1]
              dsimp only
              rw [damEq]
              refine slotOnly _ (dam _ rfl hb ?_ (fun _ => ⟨by rw [← hmat]; exact hfn, h2⟩))
              rintro ⟨_, a | a⟩
              · exact hd a
              · exact hf a
      split
      · rename_i hd; exact same (.inl hd)
      · rename_i hd; exact same (.inr hd)
      all_goals
        rename_i hd
        exact live (by rw [hd]; decide) (by rw [hd]; decide)

theorem two_all (s : State) (c : Canonical s) (h : Two 0 s s) : ∀ j, j ≤ 4096 → Two j s (checkSlots j (s, 0)).1
  | 0, _ => h
  | j + 1, hj => two_succ j (by omega) s _ ((fr_checkSlots j (s, 0)).canon c) (two_all s c h j (by omega))

/-- Stage 2 counts the index entries it makes. -/
theorem recreated_count : ∀ (j : Nat) (p : State × Nat),
    (checkSlots j p).2 + p.1.folio.index.length = (checkSlots j p).1.folio.index.length + p.2
  | 0, p => by show p.2 + p.1.folio.index.length = p.1.folio.index.length + p.2; omega
  | j + 1, p => by
    have h := recreated_count j p
    unfold checkSlots
    generalize checkSlots j p = q at h
    obtain ⟨t, k⟩ := q
    dsimp only at h
    have tie : (tieRecord j (t, k)).2 + p.1.folio.index.length =
        (tieRecord j (t, k)).1.folio.index.length + p.2 := by
      unfold tieRecord; dsimp only
      split
      · dsimp only; rw [settleSlot_ix]; exact h
      · split
        · exact h
        · dsimp only
          show _ = (State.settleSlot _ _ _).folio.index.length + _
          rw [settleSlot_ix]
          show _ = (insertIndex _ t.folio.index).length + _
          rw [(perm_insert _ _).length_eq, List.length_cons]; omega
    unfold checkSlot
    dsimp only
    split
    · exact h
    · split
      · exact h
      · split
        · exact h
        · exact h
        all_goals
          split
          · exact h
          · exact tie

/-- after stage 1 -/
theorem two_zero (s t : State) (P : Nat) (hP : P = 256) (h : One P s t) : Two 0 t t := by
  subst hP
  have hm : ∀ p, p < 256 → Acc s p → t.matterAt p = s.matterAt p := fun p a b => by unfold State.matterAt; rw [h.kept p a b]
  refine ⟨fun _ => rfl, fun _ _ => rfl, ⟨?_, h.sorted, ?_, ?_⟩, fun _ _ => rfl, fun _ a => a, fun _ a => .inl a, fun _ a => absurd a (Nat.not_lt_zero _)⟩
  · intro e he
    obtain ⟨a, b, d, f⟩ := (h.mem e).mp he
    exact ⟨a, d, by rw [f]; exact b.1.1, by rw [hm _ a b]; exact f.symm⟩
  · intro e he f hf hef
    obtain ⟨a1, a2, a3, a4⟩ := (h.mem e).mp he
    obtain ⟨b1, b2, b3, b4⟩ := (h.mem f).mp hf
    have : e.place = f.place := by
      rcases Nat.lt_trichotomy e.place f.place with k | k | k
      · exact absurd (a4.symm.trans (hef.trans b4)) (b2.2 _ k a2.1)
      · exact k
      · exact absurd (b4.symm.trans (hef.symm.trans a4)) (a2.2 _ k b2.1)
    obtain ⟨em, ep, eq⟩ := e; obtain ⟨fm, fp, fq⟩ := f
    dsimp only at *
    subst this hef a3 b3; rfl
  · intro p hp hn
    by_cases k : Acc s p
    · exact ⟨⟨(s.matterAt p).number, p, false⟩, (h.mem _).mpr ⟨hp, k, rfl, rfl⟩, rfl⟩
    · exact absurd (by unfold State.matterAt; rw [h.gone p hp k]) hn

theorem chainFrom_congr {s t : State} : ∀ (l : List Nat) (h : Option Nat), (∀ n ∈ l, (t.slot n).chainNext = (s.slot n).chainNext) →
    ChainFrom s h l → ChainFrom t h l
  | [], _, _, h => h
  | n :: l, _, k, h => ⟨h.1, by rw [k n List.mem_cons_self]; exact chainFrom_congr l _ (fun m hm => k m (List.mem_cons_of_mem _ hm)) h.2⟩

/-! insertChain -/
theorem insertChain_none (q n) : ∀ c, insertChain q n c = none → ∃ m, (q, m) ∈ c
  | [], h => by simp [insertChain] at h
  | (p, m) :: c, h => by
    unfold insertChain at h
    split at h
    · rename_i e; exact ⟨m, by rw [e]; exact List.mem_cons_self⟩
    · split at h
      · simp at h
      · simp only [Option.map_eq_none_iff] at h
        obtain ⟨k, hk⟩ := insertChain_none q n c h
        exact ⟨k, List.mem_cons_of_mem _ hk⟩
theorem insertChain_some (q n) : ∀ c c', insertChain q n c = some c' → c.Pairwise (fun a b => a.1 < b.1) →
    c'.Perm ((q, n) :: c) ∧ c'.Pairwise (fun a b => a.1 < b.1)
  | [], c', h, _ => by
    simp [insertChain] at h; subst h; exact ⟨.refl _, List.pairwise_singleton _ _⟩
  | (p, m) :: c, c', h, hp => by
    rw [List.pairwise_cons] at hp
    unfold insertChain at h
    split at h
    · exact absurd h (by simp)
    · rename_i hne
      split at h
      · rename_i hlt
        simp only [Option.some.injEq] at h; subst h
        refine ⟨.refl _, List.pairwise_cons.mpr ⟨fun x hx => ?_, List.pairwise_cons.mpr hp⟩⟩
        rcases List.mem_cons.mp hx with rfl | hx
        · exact hlt
        · exact Nat.lt_trans hlt (hp.1 x hx)
      · rename_i hlt
        simp only [Option.map_eq_some_iff] at h
        obtain ⟨d, hd, rfl⟩ := h
        obtain ⟨h1, h2⟩ := insertChain_some q n c d hd hp.2
        refine ⟨(h1.cons _).trans (.swap _ _ _), List.pairwise_cons.mpr ⟨fun x hx => ?_, h2⟩⟩
        rcases List.mem_cons.mp (h1.mem_iff.mp hx) with rfl | hx
        · dsimp only; omega
        · exact hp.1 x hx

structure SlotFr (s t : State) : Prop where
  fr : Fr s t
  dir : ∀ p, t.placeEntry p = s.placeEntry p
  link : ∀ p, t.link p = s.link p
  ix : t.folio.index = s.folio.index
theorem SlotFr.rfl {s} : SlotFr s s := ⟨.rfl, fun _ => Eq.refl _, fun _ => Eq.refl _, Eq.refl _⟩
theorem SlotFr.trans {s t u : State} (h : SlotFr s t) (k : SlotFr t u) : SlotFr s u :=
  ⟨h.fr.trans k.fr, fun p => (k.dir p).trans (h.dir p), fun p => (k.link p).trans (h.link p), k.ix.trans h.ix⟩
theorem SlotFr.mat {s t : State} (h : SlotFr s t) (p) : t.matterAt p = s.matterAt p := by
  unfold State.matterAt; rw [h.dir]
theorem sf_put (n r) (s : State) : SlotFr s (s.putSlot n r) := ⟨fr_putSlot _ _ _, fun _ => rfl, fun _ => rfl, rfl⟩
theorem sf_settle (n r) (s : State) : SlotFr s (s.settleSlot n r) :=
  ⟨fr_settleSlot _ _ _, settleSlot_dir _ _ _, settleSlot_link _ _ _, settleSlot_ix _ _ _⟩

structure Built (ns : List Nat) (c : List (Nat × Nat)) (s : State) (c' : List (Nat × Nat)) (t : State) : Prop where
  sf : SlotFr s t
  sorted : c'.Pairwise (fun a b => a.1 < b.1)
  keep : ∀ x ∈ c, x ∈ c'
  mem : ∀ x ∈ c', x.1 = (s.slot x.2).sequence ∧ (x ∈ c ∨ x.2 ∈ ns)
  nodup : (c'.map Prod.snd).Nodup
  out : ∀ n, (n ∈ ns → n ∈ c'.map Prod.snd) → t.slotEntry n = s.slotEntry n
  dam : ∀ n, n ∈ ns → n ∉ c'.map Prod.snd → t.slot n = { s.slot n with state := .damaged } ∧
    ∃ m ∈ c'.map Prod.snd, m < n ∧ (s.slot m).sequence = (s.slot n).sequence

theorem build_spec : ∀ (ns : List Nat) (c : List (Nat × Nat)) (s : State), Canonical s →
    c.Pairwise (fun a b => a.1 < b.1) → (∀ x ∈ c, x.1 = (s.slot x.2).sequence) → (c.map Prod.snd).Nodup →
    ns.Pairwise (· < ·) → (∀ x ∈ c, ∀ n ∈ ns, x.2 < n) → Built ns c s (buildChain ns c s).1 (buildChain ns c s).2
  | [], c, s, _, h1, h2, h3, _, _ => by
    unfold buildChain
    exact ⟨.rfl, h1, fun _ h => h, fun x hx => ⟨h2 x hx, .inl hx⟩, h3, fun _ _ => rfl, fun n hn => absurd hn List.not_mem_nil⟩
  | n :: ns, c, s, hc, h1, h2, h3, h4, h5 => by
    rw [List.pairwise_cons] at h4
    unfold buildChain
    split
    · rename_i c' hi
      obtain ⟨hp, hs⟩ := insertChain_some _ _ _ _ hi h1
      have hmem : ∀ x, x ∈ c' ↔ x = ((s.slot n).sequence, n) ∨ x ∈ c := fun x => by rw [hp.mem_iff, List.mem_cons]
      have hnd : (c'.map Prod.snd).Nodup := by
        rw [(hp.map Prod.snd).nodup_iff, List.map_cons, List.nodup_cons]
        refine ⟨fun hx => ?_, h3⟩
        obtain ⟨x, hx, hxn⟩ := List.mem_map.mp hx
        have := h5 x hx n List.mem_cons_self
        omega
      obtain ⟨b0, b1, b2, b3, b4, b5, b6⟩ := build_spec ns c' s hc hs (fun x hx => by
          rcases (hmem x).mp hx with rfl | hx
          · rfl
          · exact h2 x hx) hnd h4.2 (fun x hx m hm => by
          rcases (hmem x).mp hx with rfl | hx
          · exact h4.1 m hm
          · exact h5 x hx m (List.mem_cons_of_mem _ hm))
      have hn : n ∈ (buildChain ns c' s).1.map Prod.snd :=
        List.mem_map.mpr ⟨_, b2 _ ((hmem _).mpr (.inl rfl)), rfl⟩
      refine ⟨b0, b1, fun x hx => b2 x ((hmem x).mpr (.inr hx)), fun x hx => ?_, b4, fun m hm => b5 m fun k => hm (List.mem_cons_of_mem _ k), fun m hm hx => ?_⟩
      · obtain ⟨k1, k2⟩ := b3 x hx
        refine ⟨k1, ?_⟩
        rcases k2 with k2 | k2
        · rcases (hmem x).mp k2 with rfl | k2
          · exact .inr List.mem_cons_self
          · exact .inl k2
        · exact .inr (List.mem_cons_of_mem _ k2)
      · rcases List.mem_cons.mp hm with rfl | hm
        · exact absurd hn hx
        · exact b6 m hm hx
    · rename_i hi
      obtain ⟨m, hm⟩ := insertChain_none _ _ _ hi
      have hsd := slot_damage hc n
      have hseq : ∀ k, ((s.damage n).slot k).sequence = (s.slot k).sequence := fun k => by
        rw [hsd]; split
        · rename_i e; rw [e]
        · rfl
      have hne : ∀ k, k ≠ n → (s.damage n).slotEntry k = s.slotEntry k := fun k hk => slotEntry_putSlot_ne s hk _
      have hnn : n ∉ ns := fun k => Nat.lt_irrefl _ (h4.1 n k)
      obtain ⟨b0, b1, b2, b3, b4, b5, b6⟩ := build_spec ns c (s.damage n) ((fr_damage n s).canon hc) h1 (fun x hx => by rw [hseq]; exact h2 x hx) h3 h4.2
        (fun x hx m hm => h5 x hx m (List.mem_cons_of_mem _ hm))
      have hnc : n ∉ (buildChain ns c (s.damage n)).1.map Prod.snd := fun hx => by
        obtain ⟨x, hx, hxn⟩ := List.mem_map.mp hx
        rcases (b3 x hx).2 with k | k
        · have := h5 x k n List.mem_cons_self; omega
        · rw [hxn] at k; exact hnn k
      have hent : (buildChain ns c (s.damage n)).2.slotEntry n = (s.damage n).slotEntry n := b5 n fun k => absurd k hnn
      refine ⟨(sf_put n _ s).trans b0, b1, b2, fun x hx => ?_, b4, fun k hk => ?_, fun k hk hx => ?_⟩
      · obtain ⟨k1, k2⟩ := b3 x hx
        rw [hseq] at k1
        exact ⟨k1, k2.imp id (List.mem_cons_of_mem _)⟩
      · have hkn : k ≠ n := fun e => by subst e; exact hnc (hk List.mem_cons_self)
        rw [b5 k fun q => hk (List.mem_cons_of_mem _ q), hne k hkn]
      · by_cases e : k = n
        · subst e
          refine ⟨?_, m, List.mem_map.mpr ⟨_, b2 _ hm, rfl⟩, h5 _ hm k List.mem_cons_self, (h2 _ hm).symm⟩
          have : (buildChain ns c (s.damage k)).2.slot k = (s.damage k).slot k := by unfold State.slot; rw [hent]
          rw [this, hsd, if_pos rfl]
        · have hk : k ∈ ns := (List.mem_cons.mp hk).resolve_left e
          obtain ⟨k1, k2, k3, k4, k5⟩ := b6 k hk hx
          have hsk : (s.damage n).slot k = s.slot k := by unfold State.slot; rw [hne k e]
          rw [hsk] at k1
          refine ⟨k1, k2, k3, k4, ?_⟩
          rw [hseq, hseq] at k5; exact k5

theorem chainSlots_spec : ∀ (c : List (Nat × Nat)) (s : State), Canonical s → (c.map Prod.snd).Nodup →
    SlotFr s (s.chainSlots c) ∧ (∀ n, n ∉ c.map Prod.snd → (s.chainSlots c).slotEntry n = s.slotEntry n) ∧
    (∀ n, (s.chainSlots c).slot n = { s.slot n with chainNext := ((s.chainSlots c).slot n).chainNext }) ∧
    ChainFrom (s.chainSlots c) (c.head?.map Prod.snd) (c.map Prod.snd)
  | [], s, _, _ => by
    unfold State.chainSlots
    exact ⟨.rfl, fun _ _ => rfl, fun _ => rfl, rfl⟩
  | (q, n) :: c, s, hc, hn => by
    unfold State.chainSlots
    rw [List.map_cons, List.nodup_cons] at hn
    set r := { s.slot n with chainNext := c.head?.map Prod.snd } with hr
    have hc1 := (fr_settleSlot n r s).canon hc
    obtain ⟨a1, a2, a3, a4⟩ := chainSlots_spec c (s.settleSlot n r) hc1 hn.2
    have hsn : ((s.settleSlot n r).chainSlots c).slot n = r := by
      have := a2 n hn.1
      unfold State.slot; rw [this]; show (s.settleSlot n r).slot n = r
      rw [slot_settle hc, if_pos rfl]
    refine ⟨(sf_settle n r s).trans a1, fun m hm => ?_, fun m => ?_, ?_⟩
    · rw [List.map_cons, List.mem_cons, not_or] at hm
      rw [a2 m hm.2, settleSlot_entry_ne _ _ _ _ hm.1]
    · by_cases e : m = n
      · subst e; rw [hsn, hr]
      · have h := a3 m
        rw [slot_settle hc, if_neg e] at h
        exact h
    · rw [List.map_cons]
      refine ⟨rfl, ?_⟩
      rw [hsn]; exact a4

structure ChainAt (live : List Nat) (t : State) (e : IndexEntry) (slots : List Nat) : Prop where
  chain : ChainFrom t (t.matterAt e.place).head slots
  count : (t.matterAt e.place).recordCount = slots.length
  tail : (t.matterAt e.place).tail = slots.getLast?
  sorted : slots.Pairwise (fun m n => (t.slot m).sequence < (t.slot n).sequence)
  mem : ∀ n, n ∈ slots ↔ n ∈ live ∧ (t.slot n).state = .filed ∧ (t.slot n).matter = e.matter
  next : ∀ n ∈ slots, (t.matterAt e.place).nextSequence = 0 ∨ (t.slot n).sequence < (t.matterAt e.place).nextSequence

theorem ChainAt.congr {live} {s t : State} {e} {slots} (h : ChainAt live s e slots)
    (hm : t.matterAt e.place = s.matterAt e.place)
    (hs : ∀ n ∈ live, ((s.slot n).matter = e.matter ∨ (t.slot n).matter = e.matter) → t.slot n = s.slot n) : ChainAt live t e slots := by
  have hin : ∀ n ∈ slots, t.slot n = s.slot n := fun n hn => hs n ((h.mem n).mp hn).1 (.inl ((h.mem n).mp hn).2.2)
  refine ⟨?_, by rw [hm]; exact h.count, by rw [hm]; exact h.tail, ?_, fun n => ?_, fun n hn => by rw [hm, hin n hn]; exact h.next n hn⟩
  · rw [hm]; exact chainFrom_congr _ _ (fun n hn => by rw [hin n hn]) h.chain
  · exact h.sorted.imp_of_mem fun a b k => by rw [hin _ a, hin _ b]; exact k
  · constructor
    · intro hn; rw [hin n hn]; exact (h.mem n).mp hn
    · rintro ⟨a, b, c⟩
      have := hs n a (.inr c)
      rw [this] at b c
      exact (h.mem n).mpr ⟨a, b, c⟩

/-- A matter's next sequence after stage 3 (R43), from the one it had and the live records of its matter. -/
def SequenceAt (live : List Nat) (s : State) (e : IndexEntry) (next : Nat) : Prop :=
  ((∀ n ∈ live, (s.slot n).matter ≠ e.matter) → next = (s.matterAt e.place).nextSequence) ∧
  ∀ n ∈ live, (s.slot n).matter = e.matter →
    (∀ m ∈ live, (s.slot m).matter = e.matter → (s.slot m).sequence ≤ (s.slot n).sequence) →
    next = if (s.matterAt e.place).nextSequence = 0 ∨ (s.slot n).sequence = 65535 then 0
      else max (s.matterAt e.place).nextSequence ((s.slot n).sequence + 1)

structure Chained (live : List Nat) (done : List IndexEntry) (s t : State) : Prop where
  fr : Fr s t
  links : ∀ p, t.link p = s.link p
  ix : t.folio.index = s.folio.index
  dirs : ∀ p, (∀ e ∈ done, e.place ≠ p) → t.placeEntry p = s.placeEntry p
  num : ∀ p, (t.matterAt p).number = (s.matterAt p).number ∧ (t.matterAt p).holdCount = (s.matterAt p).holdCount
  out : ∀ n, (n ∈ live → ∀ e ∈ done, e.matter ≠ (s.slot n).matter) → t.slotEntry n = s.slotEntry n
  slots : ∀ n, t.slot n = { s.slot n with chainNext := (t.slot n).chainNext, state := (t.slot n).state }
  state : ∀ n ∈ live, (t.slot n).state = .filed ∨ ((t.slot n).state = .damaged ∧
    ∃ m ∈ live, m < n ∧ (s.slot m).matter = (s.slot n).matter ∧ (s.slot m).sequence = (s.slot n).sequence)
  chains : ∀ e ∈ done, ∃ l, ChainAt live t e l
  seqs : ∀ e ∈ done, SequenceAt live s e (t.matterAt e.place).nextSequence

theorem rebuiltSeq_spec (stored : Nat) (l : Nat) : rebuiltSequence stored (some l) = 0 ∨ l < rebuiltSequence stored (some l) := by
  unfold rebuiltSequence; dsimp only
  split
  · exact .inl rfl
  · right; omega

theorem last_max {α} (f : α → Nat) : ∀ (l : List α), l.Pairwise (fun a b => f a < f b) → ∀ x ∈ l, ∃ y, l.getLast? = some y ∧ f x ≤ f y
  | [], _, x, hx => absurd hx List.not_mem_nil
  | [a], _, x, hx => by
    rw [List.mem_singleton] at hx; subst hx; exact ⟨x, rfl, Nat.le_refl _⟩
  | a :: b :: l, h, x, hx => by
    rw [List.pairwise_cons] at h
    rw [List.getLast?_cons_cons]
    rcases List.mem_cons.mp hx with rfl | hx
    · obtain ⟨y, h1, h2⟩ := last_max f (b :: l) h.2 b List.mem_cons_self
      have := h.1 b List.mem_cons_self
      exact ⟨y, h1, by omega⟩
    · exact last_max f (b :: l) h.2 x hx

theorem chained_succ (live : List Nat) (hlive : live.Pairwise (· < ·)) (done : List IndexEntry) (e : IndexEntry) (s t : State) (c : Canonical t)
    (hfiled : ∀ n ∈ live, (s.slot n).state = .filed)
    (hne : ∀ f ∈ done, f.matter ≠ e.matter ∧ f.place ≠ e.place) (he : (s.matterAt e.place).number ≠ 0)
    (h : Chained live done s t) : Chained live (e :: done) s (t.rebuildChain live e) := by
  have hmat : ∀ n, (t.slot n).matter = (s.slot n).matter := fun n => by rw [h.slots n]
  have hseq : ∀ n, (t.slot n).sequence = (s.slot n).sequence := fun n => by rw [h.slots n]
  unfold State.rebuildChain
  set ns := live.filter fun n => (t.slot n).matter = e.matter with hns
  have hmem : ∀ n, n ∈ ns ↔ n ∈ live ∧ (s.slot n).matter = e.matter := fun n => by rw [hns, List.mem_filter, hmat]; simp
  have hb := build_spec ns [] t c .nil (fun x hx => absurd hx List.not_mem_nil) .nil (hlive.sublist List.filter_sublist) (fun x hx => absurd hx List.not_mem_nil)
  generalize buildChain ns [] t = r at hb ⊢
  obtain ⟨ch, b⟩ := r
  dsimp only at hb ⊢
  have cb := hb.sf.fr.canon c
  obtain ⟨a1, a2, a3, a4⟩ := chainSlots_spec ch b cb hb.nodup
  set d := b.chainSlots ch with hd
  have cd := a1.fr.canon cb
  set m := (b.matterAt e.place).rebuilt ch with hm
  have hbm : b.matterAt e.place = t.matterAt e.place := hb.sf.mat _
  have hmn : m.number ≠ 0 := by
    rw [hm, hbm]; show (t.matterAt e.place).number ≠ 0
    rw [(h.num _).1]; exact he
  have hM : ∀ p, (d.settleMatter e.place m).matterAt p = if p = e.place then m else t.matterAt p := fun p => by
    rw [matter_settle cd _ _ (.inl hmn), a1.mat, hb.sf.mat]
  have hS : ∀ n, (d.settleMatter e.place m).slotEntry n = d.slotEntry n := settleMatter_slot _ _ _
  have hSl : ∀ n, (d.settleMatter e.place m).slot n = d.slot n := fun n => by unfold State.slot; rw [hS]
  have sub : ∀ n, n ∈ ch.map Prod.snd → n ∈ ns := fun n hn => by
    obtain ⟨x, hx, hxn⟩ := List.mem_map.mp hn
    rcases (hb.mem x hx).2 with k | k
    · exact absurd k List.not_mem_nil
    · rw [← hxn]; exact k
  have outE : ∀ n, n ∉ ns → d.slotEntry n = t.slotEntry n := fun n hn => by
    rw [a2 n fun k => hn (sub n k), hb.out n fun k => absurd k hn]
  have inns : ∀ n, n ∈ ns → t.slotEntry n = s.slotEntry n := fun n hn => h.out n fun _ f hf k => by
    rw [((hmem n).mp hn).2] at k; exact (hne f hf).1 k
  have innsS : ∀ n, n ∈ ns → t.slot n = s.slot n := fun n hn => by unfold State.slot; rw [inns n hn]
  have bIn : ∀ n, n ∈ ch.map Prod.snd → b.slot n = s.slot n := fun n hn => by
    rw [← innsS n (sub n hn)]; unfold State.slot; rw [hb.out n fun _ => hn]
  have dIn : ∀ n, n ∈ ch.map Prod.snd → d.slot n = { s.slot n with chainNext := (d.slot n).chainNext } := fun n hn => by
    have := a3 n; rw [bIn n hn] at this; exact this
  have dDam : ∀ n, n ∈ ns → n ∉ ch.map Prod.snd → d.slot n = { s.slot n with state := .damaged } ∧
      ∃ m ∈ ch.map Prod.snd, m < n ∧ (s.slot m).sequence = (s.slot n).sequence := fun n hn hx => by
    obtain ⟨k1, m, k2, k3, k4⟩ := hb.dam n hn hx
    refine ⟨?_, m, k2, k3, by rw [hseq, hseq] at k4; exact k4⟩
    have : d.slot n = b.slot n := by unfold State.slot; rw [a2 n hx]
    rw [this, k1, innsS n hn]
  have dS : ∀ n, d.slot n = { s.slot n with chainNext := (d.slot n).chainNext, state := (d.slot n).state } := fun n => by
    by_cases hn : n ∈ ns
    · by_cases hx : n ∈ ch.map Prod.snd
      · have := dIn n hx
        have h2 : (d.slot n).state = (s.slot n).state := by rw [this]
        rw [h2]; exact this
      · have := (dDam n hn hx).1
        have h2 : (d.slot n).chainNext = (s.slot n).chainNext := by rw [this]
        have h3 : (d.slot n).state = .damaged := by rw [this]
        rw [h2, h3]; exact this
    · have : d.slot n = t.slot n := by unfold State.slot; rw [outE n hn]
      rw [this]; exact h.slots n
  refine ⟨(h.fr.trans (hb.sf.fr.trans a1.fr)).trans (fr_settleMatter _ _ _), fun p => ?_, ?_, fun p hp => ?_, fun p => ?_, fun n hn => ?_, fun n => ?_, fun n hn => ?_, ?_, ?_⟩
  · rw [settleMatter_link, a1.link, hb.sf.link, h.links]
  · rw [settleMatter_ix, a1.ix, hb.sf.ix, h.ix]
  · have hpe : p ≠ e.place := fun k => hp e List.mem_cons_self k.symm
    have : (d.settleMatter e.place m).placeEntry p = d.placeEntry p := by
      unfold State.settleMatter; split
      · rfl
      · exact placeEntry_putMatter_ne d hpe _
    rw [this, a1.dir, hb.sf.dir, h.dirs p fun f hf => hp f (List.mem_cons_of_mem _ hf)]
  · rw [hM]; split
    · rename_i k; rw [hm, hbm, k]; exact h.num _
    · exact h.num p
  · have : n ∉ ns := fun k => hn ((hmem n).mp k).1 e List.mem_cons_self ((hmem n).mp k).2.symm
    rw [hS, outE n this, h.out n fun k f hf => hn k f (List.mem_cons_of_mem _ hf)]
  · rw [hSl]; exact dS n
  · rw [hSl]
    by_cases k : n ∈ ns
    · by_cases hx : n ∈ ch.map Prod.snd
      · left; rw [dIn n hx]; exact hfiled n hn
      · obtain ⟨k1, m', k2, k3, k4⟩ := dDam n k hx
        have hm' := (hmem m').mp (sub m' k2)
        exact .inr ⟨by rw [k1], m', hm'.1, k3, hm'.2.trans ((hmem n).mp k).2.symm, k4⟩
    · have : d.slot n = t.slot n := by unfold State.slot; rw [outE n k]
      rw [this]; exact h.state n hn
  · intro f hf
    rcases List.mem_cons.mp hf with rfl | hf
    · have hm1 : (d.settleMatter f.place m).matterAt f.place = m := by rw [hM, if_pos rfl]
      have dmem : ∀ n, n ∈ ch.map Prod.snd ↔ n ∈ live ∧ (d.slot n).state = .filed ∧ (d.slot n).matter = f.matter := fun n => by
        constructor
        · intro hn
          have k := (hmem n).mp (sub n hn)
          exact ⟨k.1, by rw [dIn n hn]; exact hfiled n k.1, by rw [dS n]; exact k.2⟩
        · rintro ⟨k1, k2, k3⟩
          by_contra hx
          have hn : n ∈ ns := (hmem n).mpr ⟨k1, by rw [dS n] at k3; exact k3⟩
          rw [(dDam n hn hx).1] at k2; exact absurd k2 (by simp)
      have dseq : ∀ x ∈ ch, (d.slot x.2).sequence = x.1 := fun x hx => by
        rw [dS x.2, (hb.mem x hx).1, hseq]
      refine ⟨ch.map Prod.snd, ?_, ?_, ?_, ?_, ?_, ?_⟩
      · rw [hm1]
        refine chainFrom_congr (s := d) _ _ (fun n hn => by rw [hSl]) ?_
        exact a4
      · rw [hm1]; show ch.length = _; rw [List.length_map]
      · rw [hm1]; show ch.getLast?.map Prod.snd = _; rw [List.getLast?_map]
      · rw [List.pairwise_map]
        refine hb.sorted.imp_of_mem fun ha hb' k => ?_
        rw [hSl, hSl, dseq _ ha, dseq _ hb']; exact k
      · intro n; rw [hSl]; exact dmem n
      · intro n hn
        obtain ⟨x, hx, hxn⟩ := List.mem_map.mp hn
        rw [hm1, hSl, ← hxn, dseq x hx]
        obtain ⟨y, hy1, hy2⟩ := last_max Prod.fst ch hb.sorted x hx
        have hns : m.nextSequence = rebuiltSequence (b.matterAt f.place).nextSequence (some y.1) := by
          rw [hm]; unfold Matter.rebuilt; dsimp only; rw [hy1]; rfl
        rw [hns]
        rcases rebuiltSeq_spec (b.matterAt f.place).nextSequence y.1 with k | k
        · exact .inl k
        · exact .inr (by omega)
    · obtain ⟨l, hl⟩ := h.chains f hf
      refine ⟨l, hl.congr ?_ fun n hn k => ?_⟩
      · rw [hM, if_neg (hne f hf).2]
      · have : n ∉ ns := fun q => by
          have hq := ((hmem n).mp q).2
          rcases k with k | k
          · rw [hmat, hq] at k; exact (hne f hf).1 k.symm
          · rw [hSl, dS n] at k
            exact (hne f hf).1 (k.symm.trans hq)
        rw [hSl]; unfold State.slot; rw [outE n this]
  · intro f hf
    rcases List.mem_cons.mp hf with rfl | hf
    · have hm1 : (d.settleMatter f.place m).matterAt f.place = m := by rw [hM, if_pos rfl]
      have hold : b.matterAt f.place = s.matterAt f.place := by
        rw [hbm]; unfold State.matterAt
        rw [h.dirs f.place fun g hg k => (hne g hg).2 k]
      have hns : m.nextSequence = rebuiltSequence (s.matterAt f.place).nextSequence (ch.getLast?.map Prod.fst) := by
        rw [hm, hold]; rfl
      have reach : ∀ n, n ∈ ns → ∃ x ∈ ch, x.1 = (s.slot n).sequence := fun n hn => by
        by_cases hx : n ∈ ch.map Prod.snd
        · obtain ⟨x, hxc, rfl⟩ := List.mem_map.mp hx
          exact ⟨x, hxc, by rw [(hb.mem x hxc).1, hseq]⟩
        · obtain ⟨_, m', k2, _, k4⟩ := dDam n hn hx
          obtain ⟨x, hx, rfl⟩ := List.mem_map.mp k2
          exact ⟨x, hx, by rw [(hb.mem x hx).1, hseq, k4]⟩
      rw [hm1, hns]
      refine ⟨fun hnone => ?_, fun n hn hmn hmax => ?_⟩
      · have : ch = [] := by
          cases hch : ch with
          | nil => rfl
          | cons x l =>
            have := sub x.2 (by rw [hch]; exact List.mem_cons_self)
            exact absurd ((hmem _).mp this).2 (hnone _ ((hmem _).mp this).1)
        rw [this]; rfl
      · obtain ⟨x, hx, hxs⟩ := reach n ((hmem n).mpr ⟨hn, hmn⟩)
        obtain ⟨y, hy1, hy2⟩ := last_max Prod.fst ch hb.sorted x hx
        have hyc := List.mem_of_getLast? hy1
        have hyn := (hmem _).mp (sub y.2 (List.mem_map.mpr ⟨y, hyc, rfl⟩))
        have hle := hmax y.2 hyn.1 hyn.2
        rw [← hseq y.2, ← (hb.mem y hyc).1] at hle
        have hye : y.1 = (s.slot n).sequence := by omega
        rw [hy1]
        show rebuiltSequence _ (some y.1) = _
        rw [hye]; rfl
    · rw [hM, if_neg (hne f hf).2]; exact h.seqs f hf

theorem chained_all (live : List Nat) (hlive : live.Pairwise (· < ·)) (s : State) (c : Canonical s)
    (hfiled : ∀ n ∈ live, (s.slot n).state = .filed) :
    ∀ (es done : List IndexEntry) (t : State), Chained live done s t →
    (∀ e ∈ es, (s.matterAt e.place).number ≠ 0) → es.Pairwise (fun a b => a.matter ≠ b.matter ∧ a.place ≠ b.place) →
    (∀ e ∈ es, ∀ f ∈ done, f.matter ≠ e.matter ∧ f.place ≠ e.place) →
    Chained live (es.reverse ++ done) s (t.rebuildChains live es)
  | [], done, t, h, _, _, _ => by unfold State.rebuildChains; exact h
  | e :: es, done, t, h, h1, h2, h3 => by
    unfold State.rebuildChains
    rw [List.pairwise_cons] at h2
    rw [List.reverse_cons, List.append_assoc]
    refine chained_all live hlive s c hfiled es (e :: done) _ (chained_succ live hlive done e s t (h.fr.canon c) hfiled (h3 e List.mem_cons_self) (h1 e List.mem_cons_self) h)
      (fun f hf => h1 f (List.mem_cons_of_mem _ hf)) h2.2 fun f hf g hg => ?_
    rcases List.mem_cons.mp hg with rfl | hg
    · exact h2.1 f hf
    · exact h3 f (List.mem_cons_of_mem _ hf) g hg

theorem chained_zero (live : List Nat) (s : State) (hfiled : ∀ n ∈ live, (s.slot n).state = .filed) : Chained live [] s s :=
  ⟨.rfl, fun _ => rfl, rfl, fun _ _ => rfl, fun _ => ⟨rfl, rfl⟩, fun _ _ => rfl, fun _ => rfl, fun n hn => .inl (hfiled n hn), fun e he => absurd he List.not_mem_nil,
    fun e he => absurd he List.not_mem_nil⟩

/-! plates -/
theorem platesFrom_congr {s t : State} : ∀ (l : List Nat) (h : Option Nat), (∀ p ∈ l, t.link p = s.link p) →
    PlatesFrom s h l → PlatesFrom t h l
  | [], _, _, _ => trivial
  | n :: l, _, k, h => ⟨h.1, by rw [k n List.mem_cons_self]; exact platesFrom_congr l _ (fun m hm => k m (List.mem_cons_of_mem _ hm)) h.2⟩
theorem platesTo_congr {s t : State} : ∀ (l : List Nat) (h : Option Nat), (∀ p ∈ l, (t.link p).next = (s.link p).next) →
    PlatesTo s h l → PlatesTo t h l
  | [], _, _, h => h
  | n :: l, _, k, h => ⟨h.1, by rw [k n List.mem_cons_self]; exact platesTo_congr l _ (fun m hm => k m (List.mem_cons_of_mem _ hm)) h.2⟩
theorem platesTo_of {s t : State} (last : Nat) (hl : (t.link last).next = none) (ho : ∀ p, p ≠ last → (t.link p).next = (s.link p).next) :
    ∀ (l : List Nat) (h : Option Nat), l.Nodup → l.getLast? = some last → PlatesFrom s h l → PlatesTo t h l
  | [], _, _, h, _ => by simp at h
  | [p], h, _, hg, hp => by
    simp at hg; subst hg
    exact ⟨hp.1, hl⟩
  | p :: q :: l, h, hn, hg, hp => by
    rw [List.nodup_cons] at hn
    rw [List.getLast?_cons_cons] at hg
    have hpl : p ≠ last := fun e => hn.1 (by rw [e]; exact List.mem_of_getLast? hg)
    exact ⟨hp.1, by rw [ho p hpl]; exact platesTo_of last hl ho (q :: l) _ hn.2 hg hp.2⟩

theorem testBit_or (c p q : Nat) : (c ||| 2 ^ p).testBit q = (c.testBit q || decide (q = p)) := by
  rw [Nat.testBit_or, Nat.testBit_two_pow]
  congr 1
  simp [eq_comm]

theorem walk_some (s : State) : ∀ (more p claims : Nat) (last cl : Nat), s.walkPlates p claims more = some (last, cl) →
    ∃ w, PlatesFrom s (some p) w ∧ w.length = more + 1 ∧ w.getLast? = some last ∧ w.Nodup ∧
      (∀ q ∈ w, claims.testBit q = false) ∧ ∀ q, cl.testBit q = (claims.testBit q || decide (q ∈ w))
  | 0, p, claims, last, cl, h => by
    unfold State.walkPlates at h
    split at h
    · simp at h
    · rename_i hc
      simp only [Option.some.injEq, Prod.mk.injEq] at h
      obtain ⟨rfl, rfl⟩ := h
      refine ⟨[p], ⟨rfl, trivial⟩, rfl, rfl, List.nodup_singleton _, fun q hq => ?_, fun q => ?_⟩
      · rw [List.mem_singleton] at hq; subst hq; simpa using hc
      · rw [testBit_or]; simp
  | more + 1, p, claims, last, cl, h => by
    unfold State.walkPlates at h
    split at h
    · simp at h
    · rename_i hc
      split at h
      · simp at h
      · rename_i q hq
        obtain ⟨w, w1, w2, w3, w4, w5, w6⟩ := walk_some s more q _ last cl h
        have hpw : p ∉ w := fun k => by
          have := w5 p k
          rw [testBit_or] at this; simp at this
        refine ⟨p :: w, ⟨rfl, by rw [hq]; exact w1⟩, by rw [List.length_cons, w2], ?_, List.nodup_cons.mpr ⟨hpw, w4⟩, fun x hx => ?_, fun x => ?_⟩
        · cases w with
          | nil => simp at w2
          | cons a w => rw [List.getLast?_cons_cons]; exact w3
        · rcases List.mem_cons.mp hx with rfl | hx
          · simpa using hc
          · have := w5 x hx
            rw [testBit_or] at this; simp at this; exact this.1
        · rw [w6, testBit_or]; simp [Bool.or_assoc]

theorem walk_of (s : State) : ∀ (more p claims : Nat) (w : List Nat), PlatesFrom s (some p) w → w.length = more + 1 → w.Nodup →
    (∀ q ∈ w, claims.testBit q = false) → ∃ last cl, s.walkPlates p claims more = some (last, cl) ∧ w.getLast? = some last
  | 0, p, claims, w, h1, h2, _, h4 => by
    match w, h2 with
    | [x], _ =>
      have hx : p = x := Option.some.inj h1.1
      subst hx
      unfold State.walkPlates
      rw [if_neg (by rw [h4 p List.mem_cons_self]; decide)]
      exact ⟨_, _, rfl, rfl⟩
  | more + 1, p, claims, w, h1, h2, h3, h4 => by
    match w, h2 with
    | x :: y :: w, h2 =>
      have hx : p = x := Option.some.inj h1.1
      subst hx
      have hy := h1.2.1
      have h1' := h1.2
      rw [List.nodup_cons] at h3
      unfold State.walkPlates
      rw [if_neg (by rw [h4 p List.mem_cons_self]; decide), hy]
      rw [hy] at h1'
      obtain ⟨last, cl, k1, k2⟩ := walk_of s more y (claims ||| 2 ^ p) (y :: w) h1' (by simpa using h2) h3.2 (fun q hq => by
        rw [testBit_or, h4 q (List.mem_cons_of_mem _ hq)]
        have : q ≠ p := fun e => h3.1 (e ▸ hq)
        simp [this])
      exact ⟨last, cl, k1, by rw [List.getLast?_cons_cons]; exact k2⟩

/-! leaving a chain -/
theorem before_none (s : State) (n : Nat) : ∀ (fuel : Nat) (l : List Nat) (h : Option Nat), ChainFrom s h l → n ∉ l.drop 1 → s.before n fuel h = none
  | 0, _, _, _, _ => by unfold State.before; rfl
  | fuel + 1, [], h, hc, _ => by
    rw [show h = none from hc]; unfold State.before; rfl
  | fuel + 1, c :: l, h, hc, hn => by
    rw [hc.1]; unfold State.before
    have hn : n ∉ l := hn
    rw [if_neg]
    · exact before_none s n fuel l _ hc.2 fun k => hn (List.mem_of_mem_drop k)
    · intro k
      have := hc.2
      rw [k] at this
      cases l with
      | nil => exact absurd this (by simp [ChainFrom])
      | cons x l => exact hn (by rw [Option.some.inj this.1]; exact List.mem_cons_self)

theorem before_some (s : State) (n : Nat) (b : List Nat) : ∀ (a : List Nat) (fuel : Nat) (h : Option Nat), a ≠ [] → a.length ≤ fuel →
    ChainFrom s h (a ++ n :: b) → (a ++ n :: b).Nodup → s.before n fuel h = a.getLast?
  | [], _, _, h, _, _, _ => absurd rfl h
  | c :: a, 0, _, _, h, _, _ => by simp at h
  | c :: a, fuel + 1, h, _, hf, hc, hn => by
    rw [List.cons_append] at hc hn
    rw [hc.1]; unfold State.before
    cases a with
    | nil =>
      rw [if_pos hc.2.1]; rfl
    | cons x a =>
      have hx := hc.2.1
      rw [List.nodup_cons] at hn
      have hxn : x ≠ n := fun e => by
        have := hn.2
        rw [List.cons_append, List.nodup_cons] at this
        exact this.1 (by rw [e]; exact List.mem_append_right _ List.mem_cons_self)
      rw [if_neg (by rw [hx]; simpa using hxn), List.getLast?_cons_cons]
      exact before_some s n b (x :: a) fuel _ (by simp) (by simpa using hf) hc.2 hn.2

theorem chainBefore_eq (s : State) (n place : Nat) (a b : List Nat) (hf : a.length ≤ 4096)
    (hc : ChainFrom s (s.matterAt place).head (a ++ n :: b)) (hn : (a ++ n :: b).Nodup) : s.chainBefore n place = a.getLast? := by
  unfold State.chainBefore
  cases a with
  | nil => exact before_none s n _ (n :: b) _ hc (by simpa using (List.nodup_cons.mp hn).1)
  | cons c a => exact before_some s n b (c :: a) _ _ (by simp) hf hc hn

theorem chain_erase {s t : State} (n : Nat) (b : List Nat) (hb : ∀ m ∈ b, (t.slot m).chainNext = (s.slot m).chainNext) :
    ∀ (a : List Nat) (h : Option Nat), ChainFrom s h (a ++ n :: b) → a.Nodup →
      (∀ m ∈ a, a.getLast? ≠ some m → (t.slot m).chainNext = (s.slot m).chainNext) →
      (∀ m, a.getLast? = some m → (t.slot m).chainNext = (s.slot n).chainNext) →
      ChainFrom t (if h = some n ∧ a = [] then (s.slot n).chainNext else h) (a ++ b)
  | [], h, hc, _, _, _ => by
    rw [if_pos ⟨hc.1, rfl⟩]
    exact chainFrom_congr b _ hb hc.2
  | [c], h, hc, _, _, h2 => by
    rw [if_neg (by simp)]
    refine ⟨hc.1, ?_⟩
    rw [h2 c rfl]
    exact chainFrom_congr b _ hb hc.2.2
  | c :: x :: a, h, hc, hn, h1, h2 => by
    rw [if_neg (by simp)]
    rw [List.nodup_cons] at hn
    have ih := chain_erase n b hb (x :: a) _ hc.2 hn.2 (fun m hm k => h1 m (List.mem_cons_of_mem _ hm) (by rw [List.getLast?_cons_cons]; exact k))
      (fun m k => h2 m (by rw [List.getLast?_cons_cons]; exact k))
    rw [if_neg (by simp)] at ih
    refine ⟨hc.1, ?_⟩
    rw [h1 c List.mem_cons_self]
    · exact ih
    · rw [List.getLast?_cons_cons]
      intro k
      exact hn.1 (List.mem_of_getLast? k)

theorem fr_unlink (p r) (s : State) : Fr s (s.unlinkSlot p r) := by
  unfold State.unlinkSlot; split
  · exact fr_putSlot _ _ _
  · exact .rfl

structure Failed (live : List Nat) (n : Nat) (s t : State) : Prop where
  fr : Fr s t
  links : ∀ p, t.link p = s.link p
  ix : t.folio.index = s.folio.index
  num : ∀ p, (t.matterAt p).number = (s.matterAt p).number ∧ (t.matterAt p).holdCount = (s.matterAt p).holdCount
  out : ∀ m, m ∉ live → t.slotEntry m = s.slotEntry m
  slots : ∀ m, m ≠ n → t.slot m = { s.slot m with chainNext := (t.slot m).chainNext }
  self : t.slot n = { s.slot n with state := .damaged }
  next : ∀ p, (t.matterAt p).nextSequence = (s.matterAt p).nextSequence

theorem failed_spec (live : List Nat) (n : Nat) (s : State) (c : Canonical s) (hlive : ∀ m ∈ live, m < 4096)
    (e : IndexEntry) (he : e.matter = (s.slot n).matter) (hp : e.place = (s.slot n).place) (he0 : (s.matterAt e.place).number ≠ 0)
    (hn : n ∈ live) (hst : (s.slot n).state = .filed) (l : List Nat) (hl : ChainAt live s e l) :
    Failed live n s (s.failWalk n) ∧ (∃ l', ChainAt live (s.failWalk n) e l') ∧
    (∀ f l', f.matter ≠ e.matter → f.place ≠ e.place → ChainAt live s f l' → ChainAt live (s.failWalk n) f l') := by
  have hmem : n ∈ l := (hl.mem n).mpr ⟨hn, hst, he.symm⟩
  obtain ⟨a, b, rfl⟩ := List.append_of_mem hmem
  have hnd : (a ++ n :: b).Nodup := hl.sorted.imp fun h k => by subst k; exact Nat.lt_irrefl _ h
  have hlen : a.length ≤ 4096 := by
    have hsub : (a ++ n :: b).Subperm (List.range 4096) := List.subperm_of_subset hnd fun m hm =>
      List.mem_range.mpr (hlive m ((hl.mem m).mp hm).1)
    have := hsub.length_le
    rw [List.length_range, List.length_append] at this; omega
  have hprev : s.chainBefore n (s.slot n).place = a.getLast? := by
    rw [← hp]; exact chainBefore_eq s n e.place a b hlen hl.chain hnd
  have hd := slot_damage c n
  have cd : Canonical (s.damage n) := (fr_damage n s).canon c
  have hna : n ∉ a := by
    have := (List.nodup_append.mp hnd).2.2
    exact fun k => this n k n List.mem_cons_self rfl
  have hnb : n ∉ b := by
    have := (List.nodup_append.mp hnd).2.1
    exact (List.nodup_cons.mp this).1
  have hab : ∀ m ∈ a, m ∉ b := fun m h1 h2 => (List.nodup_append.mp hnd).2.2 m h1 m (List.mem_cons_of_mem _ h2) rfl
  unfold State.failWalk
  dsimp only
  rw [hprev]
  set r := s.slot n with hr
  set u := (s.damage n).unlinkSlot a.getLast? r with hu
  have cu : Canonical u := (fr_unlink _ _ _).canon cd
  have us : ∀ m, u.slot m = if a.getLast? = some m then { s.slot m with chainNext := r.chainNext } else (s.damage n).slot m := fun m => by
    rw [hu]; unfold State.unlinkSlot
    cases hg : a.getLast? with
    | none => simp
    | some p =>
      dsimp only
      unfold State.editSlot
      rw [slot_put cd]
      have hpa : p ∈ a := List.mem_of_getLast? hg
      have hpn : p ≠ n := fun k => hna (k ▸ hpa)
      by_cases k : m = p
      · subst k; rw [if_pos rfl, if_pos rfl, hd, if_neg hpn]
      · rw [if_neg k, if_neg (by simpa using Ne.symm k)]
  have udir : ∀ p, u.placeEntry p = s.placeEntry p := fun p => by
    rw [hu]; unfold State.unlinkSlot; split <;> rfl
  have umat : ∀ p, u.matterAt p = s.matterAt p := fun p => by unfold State.matterAt; rw [udir]
  have ulink : ∀ p, u.link p = s.link p := fun p => by
    rw [hu]; unfold State.unlinkSlot; split <;> rfl
  have uix : u.folio.index = s.folio.index := by
    rw [hu]; unfold State.unlinkSlot; split <;> rfl
  have uout : ∀ m, m ∉ live → u.slotEntry m = s.slotEntry m := fun m hm => by
    have hmn : m ≠ n := fun k => hm (k ▸ hn)
    rw [hu]; unfold State.unlinkSlot
    split
    · rename_i p hg
      have hpa : p ∈ a := List.mem_of_getLast? hg
      have hmp : m ≠ p := fun k => hm (k ▸ ((hl.mem p).mp (List.mem_append_left _ hpa)).1)
      exact (slotEntry_putSlot_ne _ hmp _).trans (slotEntry_putSlot_ne _ hmn _)
    · exact slotEntry_putSlot_ne _ hmn _
  set M := Matter.leave n a.getLast? r (u.matterAt r.place) with hM
  have hMn : M.number ≠ 0 := by rw [hM, umat, ← hp]; exact he0
  have ht : u.editMatter r.place (Matter.leave n a.getLast? r) = u.putMatter r.place M := rfl
  rw [ht]
  set t := u.putMatter r.place M with htt
  have tM : ∀ p, t.matterAt p = if p = r.place then M else s.matterAt p := fun p => by
    rw [htt, matter_put cu _ _ (.inl hMn), umat]
  have tS : ∀ m, t.slot m = u.slot m := fun m => rfl
  have tme : t.matterAt e.place = M := by rw [tM, if_pos hp]
  have hpl : ∀ p, a.getLast? = some p → p ∈ a := fun p hg => List.mem_of_getLast? hg
  have self : t.slot n = { r with state := .damaged } := by
    rw [tS, us, if_neg (fun k => hna (hpl n k)), hd, if_pos rfl]
  have sl : ∀ m, m ≠ n → t.slot m = { s.slot m with chainNext := (t.slot m).chainNext } := fun m hm => by
    rw [tS, us]; split
    · rfl
    · rw [hd, if_neg hm]
  have same : ∀ m, m ≠ n → a.getLast? ≠ some m → t.slot m = s.slot m := fun m hm hg => by
    rw [tS, us, if_neg hg, hd, if_neg hm]
  refine ⟨⟨((fr_damage n s).trans (fr_unlink _ _ _)).trans (fr_putMatter _ _ _), fun p => ulink p, uix, fun p => ?_, fun m hm => uout m hm, sl, self, fun p => ?_⟩, ⟨a ++ b, ?_⟩, ?_⟩
  · rw [tM]; split
    · rename_i k; subst k; rw [hM, umat]; exact ⟨rfl, rfl⟩
    · exact ⟨rfl, rfl⟩
  · rw [tM]; split
    · rename_i k; subst k; rw [hM, umat]; rfl
    · rfl
  · have hmne : ∀ m ∈ a ++ b, m ≠ n := fun m hm k => by
      subst k; rcases List.mem_append.mp hm with k | k
      · exact hna k
      · exact hnb k
    have hsub : ∀ m ∈ a ++ b, m ∈ a ++ n :: b := fun m hm => by
      rcases List.mem_append.mp hm with k | k
      · exact List.mem_append_left _ k
      · exact List.mem_append_right _ (List.mem_cons_of_mem _ k)
    have hMu : M = Matter.leave n a.getLast? r (s.matterAt e.place) := by rw [hM, umat, hp]
    refine ⟨?_, ?_, ?_, ?_, fun m => ?_, fun m hm => ?_⟩
    · rw [tme, hMu]
      show ChainFrom t (if (s.matterAt e.place).head = some n then r.chainNext else (s.matterAt e.place).head) _
      have hh := chain_erase (s := s) (t := t) n b (fun m hm => by
          rw [same m (fun k => hnb (k ▸ hm)) (fun k => hab m (hpl m k) hm)]) a _ hl.chain (List.nodup_append.mp hnd).1
          (fun m hm k => by rw [same m (fun k => hna (k ▸ hm)) k])
          (fun m k => by rw [tS, us, if_pos k])
      have hhead : ((s.matterAt e.place).head = some n ∧ a = []) ↔ (s.matterAt e.place).head = some n := by
        refine ⟨fun k => k.1, fun k => ⟨k, ?_⟩⟩
        cases a with
        | nil => rfl
        | cons x a =>
          have := hl.chain.1
          rw [k] at this
          exact absurd (List.mem_cons_self) (Option.some.inj this ▸ hna)
      simp only [hhead] at hh
      exact hh
    · rw [tme, hMu]; show (s.matterAt e.place).recordCount - 1 = _
      rw [hl.count]; simp
    · rw [tme, hMu]
      show (if (s.matterAt e.place).tail = some n then a.getLast? else (s.matterAt e.place).tail) = _
      rw [hl.tail]
      cases b with
      | nil => simp
      | cons x b =>
        have hg : (a ++ n :: x :: b).getLast? = (x :: b).getLast? := by
          rw [List.getLast?_append, List.getLast?_cons_cons, List.getLast?_eq_some_getLast (List.cons_ne_nil x b)]; rfl
        have hg2 : (a ++ x :: b).getLast? = (x :: b).getLast? := by
          rw [List.getLast?_append, List.getLast?_eq_some_getLast (List.cons_ne_nil x b)]; rfl
        rw [hg, hg2, if_neg]
        intro k; exact hnb (List.mem_of_getLast? k)
    · have := hl.sorted.sublist (List.Sublist.append_left (List.sublist_cons_self n b) a)
      refine this.imp_of_mem fun h1 h2 k => ?_
      rw [sl _ (hmne _ h1), sl _ (hmne _ h2)]; exact k
    · constructor
      · intro hm
        have h1 := (hl.mem m).mp (hsub m hm)
        rw [sl m (hmne m hm)]; exact h1
      · rintro ⟨h1, h2, h3⟩
        have hmn : m ≠ n := fun k => by subst k; rw [self] at h2; exact absurd h2 (by simp)
        rw [sl m hmn] at h2 h3
        have := (hl.mem m).mpr ⟨h1, h2, h3⟩
        rcases List.mem_append.mp this with k | k
        · exact List.mem_append_left _ k
        · exact List.mem_append_right _ ((List.mem_cons.mp k).resolve_left hmn)
    · rw [tme, hMu, sl m (hmne m hm)]
      exact hl.next m (hsub m hm)
  · intro f l' hf1 hf2 h
    refine h.congr ?_ fun m hm k => ?_
    · rw [tM, if_neg (by rw [← hp]; exact hf2)]
    · have hmat : (t.slot m).matter = (s.slot m).matter := by
        by_cases q : m = n
        · subst q; rw [self]
        · rw [sl m q]
      have hmm : (s.slot m).matter = f.matter := by
        rcases k with k | k
        · exact k
        · rw [← hmat]; exact k
      refine same m (fun q => ?_) (fun q => ?_)
      · subst q; exact hf1 (hmm.symm.trans he.symm)
      · have := ((hl.mem m).mp (List.mem_append_left _ (hpl m q))).2.2
        exact hf1 (hmm.symm.trans this)

/-- the plate conditions of a live record in range -/
def PlateOk (r : Record) : Prop :=
  (r.plateCount = 0 ∧ r.plateHead = none ∧ r.plateTail = none) ∨
  (0 < r.plateCount ∧ r.plateHead ≠ none ∧ r.image = .resident)

/-- nothing speaks against the walk of a record, lower slots being those of `live` below it -/
def WalkOk (s : State) (live : List Nat) (n : Nat) : Prop :=
  ∃ w, PlatesFrom s (s.slot n).plateHead w ∧ w.length = (s.slot n).plateCount ∧ w.Nodup ∧
    w.getLast? = (s.slot n).plateTail ∧
    ∀ m ∈ live, m < n → (s.slot m).state = .filed → ∀ w', PlatesFrom s (s.slot m).plateHead w' → w'.length = (s.slot m).plateCount →
      ∀ p ∈ w', p ∉ w

structure Claimed (live done : List Nat) (s t : State) (claims : Nat) : Prop where
  fr : Fr s t
  ix : t.folio.index = s.folio.index
  num : ∀ p, (t.matterAt p).number = (s.matterAt p).number ∧ (t.matterAt p).holdCount = (s.matterAt p).holdCount
  out : ∀ n, n ∉ live → t.slotEntry n = s.slotEntry n
  slots : ∀ n, t.slot n = { s.slot n with chainNext := (t.slot n).chainNext, state := (t.slot n).state }
  state : ∀ n, (t.slot n).state = (s.slot n).state ∨ (n ∈ done ∧ (s.slot n).state = .filed ∧ (t.slot n).state = .damaged ∧ ¬ WalkOk s live n)
  chains : ∀ e ∈ s.folio.index, ∃ l, ChainAt live t e l
  links : ∀ p, claims.testBit p = false → t.link p = s.link p
  next : ∀ p, (t.matterAt p).nextSequence = (s.matterAt p).nextSequence
  owned : ∃ own : Nat → List Nat,
    (∀ n ∈ done, (t.slot n).state = .filed → PlatesTo t (t.slot n).plateHead (own n) ∧ (t.slot n).plateCount = (own n).length ∧
      (t.slot n).plateTail = (own n).getLast? ∧ (own n).Nodup ∧ PlatesFrom s (s.slot n).plateHead (own n)) ∧
    (∀ m ∈ done, ∀ n ∈ done, (t.slot m).state = .filed → (t.slot n).state = .filed → m ≠ n → ∀ p ∈ own m, p ∉ own n) ∧
    ∀ p, claims.testBit p = true ↔ ∃ n ∈ done, (t.slot n).state = .filed ∧ p ∈ own n

theorem Fr.putNext? {s : State} (b : Bool) (n x) : Fr s (if b then s.putNext n x else s) := by
  split
  · exact fr_putNext _ _ _
  · exact .rfl

theorem claimed_succ (live done : List Nat) (n : Nat) (s t : State) (claims : Nat) (c : Canonical t)
    (hlive : ∀ m ∈ live, m < 4096) (hn : n ∈ live) (hdone : ∀ m ∈ done, m ∈ live ∧ m < n)
    (hix : ∀ e ∈ s.folio.index, (s.matterAt e.place).number ≠ 0)
    (huniq : ∀ e ∈ s.folio.index, ∀ f ∈ s.folio.index, f ≠ e → f.matter ≠ e.matter ∧ f.place ≠ e.place)
    (hplace : ∀ m ∈ live, ∃ e ∈ s.folio.index, (s.slot m).state = .filed → e.matter = (s.slot m).matter ∧ e.place = (s.slot m).place)
    (hok : (s.slot n).state = .filed → PlateOk (s.slot n)) (hst : (s.slot n).state = .filed ∨ (s.slot n).state = .damaged)
    (h : Claimed live done s t claims) :
    Claimed live (n :: done) s (claimPlates n (t, claims)).1 (claimPlates n (t, claims)).2 := by
  have hnd : n ∉ done := fun k => Nat.lt_irrefl _ (hdone n k).2
  have hstn : (t.slot n).state = (s.slot n).state := (h.state n).resolve_right fun k => hnd k.1
  obtain ⟨own, o1, o2, o3⟩ := h.owned
  have hcount : (t.slot n).plateCount = (s.slot n).plateCount := by rw [h.slots n]
  have himg : (t.slot n).image = (s.slot n).image := by rw [h.slots n]
  have hhead : ∀ m, (t.slot m).plateHead = (s.slot m).plateHead := fun m => by rw [h.slots m]
  have htail : (t.slot n).plateTail = (s.slot n).plateTail := by rw [h.slots n]
  have unclaimed : ∀ p, claims.testBit p = false ↔ ∀ m ∈ done, (t.slot m).state = .filed → p ∉ own m := fun p => by
    constructor
    · intro k m h1 h2 h3
      rw [(o3 p).mpr ⟨m, h1, h2, h3⟩] at k; exact absurd k (by decide)
    · intro k
      by_contra hc
      obtain ⟨m, h1, h2, h3⟩ := (o3 p).mp (by simpa using hc)
      exact k m h1 h2 h3
  unfold claimPlates
  dsimp only
  split
  · rename_i hg
    simp only [Bool.and_eq_true, decide_eq_true_eq] at hg
    obtain ⟨⟨hl, hi⟩, hc⟩ := hg
    have hf : (s.slot n).state = .filed := by
      rcases hst with k | k
      · exact k
      · rw [hstn, k] at hl; exact absurd hl (by decide)
    have hft : (t.slot n).state = .filed := hstn.trans hf
    have hpos : 0 < (s.slot n).plateCount := by rw [← hcount]; exact hc
    have hh : (s.slot n).plateHead ≠ none := by
      rcases hok hf with k | k
      · omega
      · exact k.2.1
    obtain ⟨hd, hhd⟩ := Option.ne_none_iff_exists'.mp hh
    split
    · rename_i hw
      -- a failed walk
      have hbad : ¬ WalkOk s live n := by
        rintro ⟨w, w1, w2, w3, w4, w5⟩
        have wun : ∀ q ∈ w, claims.testBit q = false := fun q hq => (unclaimed q).mpr fun m h1 h2 h3 => by
          have hm := o1 m h1 h2
          have hsm : (s.slot m).state = .filed := by
            rcases h.state m with k | k
            · rw [← k]; exact h2
            · exact k.2.1
          exact w5 m (hdone m h1).1 (hdone m h1).2 hsm (own m) hm.2.2.2.2 (by rw [← hm.2.1, h.slots m]) q h3 hq
        have w1t : PlatesFrom t (some hd) w := by
          rw [← hhd]; exact platesFrom_congr w _ (fun p hp => h.links p (wun p hp)) w1
        obtain ⟨last, cl, k1, k2⟩ := walk_of t ((t.slot n).plateCount - 1) hd claims w w1t (by rw [w2, hcount]; omega) w3 wun
        unfold State.walkRecord at hw
        rw [hhead, hhd] at hw
        dsimp only at hw
        rw [k1] at hw
        dsimp only at hw
        rw [if_pos (by rw [htail, ← w4, k2])] at hw
        exact absurd hw (by simp)
      obtain ⟨e, he, he'⟩ := hplace n hn
      obtain ⟨he1, he2⟩ := he' hf
      obtain ⟨l, hl⟩ := h.chains e he
      have hnum : (t.matterAt e.place).number ≠ 0 := by rw [(h.num _).1]; exact hix e he
      obtain ⟨F, ⟨l', hl'⟩, hO⟩ := failed_spec live n t c hlive e (by rw [he1, h.slots n]) (by rw [he2, h.slots n]) hnum hn hft l hl
      have ts : ∀ m, m ≠ n → ((t.failWalk n).slot m).state = (t.slot m).state := fun m hm => by rw [F.slots m hm]
      have tn : ((t.failWalk n).slot n).state = .damaged := by rw [F.self]
      have td : ∀ m ∈ done, m ≠ n := fun m hm k => hnd (k ▸ hm)
      have filedIn : ∀ m ∈ n :: done, ((t.failWalk n).slot m).state = .filed → m ∈ done ∧ (t.slot m).state = .filed := fun m hm k => by
        rcases List.mem_cons.mp hm with rfl | hm
        · rw [tn] at k; exact absurd k (by decide)
        · exact ⟨hm, by rw [← ts m (td m hm)]; exact k⟩
      dsimp only
      refine ⟨h.fr.trans F.fr, F.ix.trans h.ix, fun p => ⟨(F.num p).1.trans (h.num p).1, (F.num p).2.trans (h.num p).2⟩, fun m hm => (F.out m hm).trans (h.out m hm), fun m => ?_, fun m => ?_, fun f hf' => ?_, fun p hp => (F.links p).trans (h.links p hp), fun p => (F.next p).trans (h.next p), own, fun m hm k => ?_, fun m hm m' hm' k k' => ?_, fun p => ?_⟩
      · by_cases k : m = n
        · subst k; rw [F.self]
          have := h.slots m
          rw [this]
        · have h1 := F.slots m k
          have h2 := h.slots m
          rw [h1]
          rw [h2]
      · by_cases k : m = n
        · subst k; exact .inr ⟨List.mem_cons_self, hf, tn, hbad⟩
        · rw [ts m k]
          exact (h.state m).imp id fun q => ⟨List.mem_cons_of_mem _ q.1, q.2⟩
      · by_cases k : f = e
        · subst k; exact ⟨l', hl'⟩
        · obtain ⟨q, hq⟩ := h.chains f hf'
          have := huniq e he f hf' k
          exact ⟨q, hO f q this.1 this.2 hq⟩
      · obtain ⟨k1, k2⟩ := filedIn m hm k
        obtain ⟨a1, a2, a3, a4, a5⟩ := o1 m k1 k2
        rw [F.slots m (td m k1)]
        exact ⟨platesTo_congr _ _ (fun p _ => by rw [F.links]) a1, a2, a3, a4, a5⟩
      · exact o2 m (filedIn m hm k).1 m' (filedIn m' hm' k').1 (filedIn m hm k).2 (filedIn m' hm' k').2
      · rw [o3]
        constructor
        · rintro ⟨m, h1, h2, h3⟩
          exact ⟨m, List.mem_cons_of_mem _ h1, by rw [ts m (td m h1)]; exact h2, h3⟩
        · rintro ⟨m, h1, h2, h3⟩
          exact ⟨m, (filedIn m h1 h2).1, (filedIn m h1 h2).2, h3⟩
    · rename_i last claimed hw
      dsimp only
      unfold State.walkRecord at hw
      rw [hhead, hhd] at hw
      dsimp only at hw
      split at hw
      · exact absurd hw (by simp)
      · rename_i last' cl hw'
        split at hw
        · rename_i ht
          simp only [Option.some.injEq, Prod.mk.injEq] at hw
          obtain ⟨rfl, rfl⟩ := hw
          obtain ⟨w, w1, w2, w3, w4, w5, w6⟩ := walk_some t _ _ _ _ _ hw'
          have hlw : last' ∈ w := List.mem_of_getLast? w3
          set u := (if (t.link last').next.isSome = true then t.putNext last' none else t) with hu
          have ulink : ∀ p, p ≠ last' → u.link p = t.link p := fun p hp => by
            rw [hu]; split
            · rw [link_next c, if_neg hp]
            · rfl
          have ulast : (u.link last').next = none := by
            rw [hu]; split
            · rw [link_next c, if_pos rfl]
            · rename_i k; simpa using k
          have us : ∀ m, u.slot m = t.slot m := fun m => by rw [hu]; split <;> rfl
          have use : ∀ m, u.slotEntry m = t.slotEntry m := fun m => by rw [hu]; split <;> rfl
          have um : ∀ m, u.matterAt m = t.matterAt m := fun m => by rw [hu]; split <;> rfl
          have uix : u.folio.index = t.folio.index := by rw [hu]; split <;> rfl
          have ufr : Fr t u := by rw [hu]; exact Fr.putNext? _ _ _
          have wS : PlatesFrom s (s.slot n).plateHead w := by
            rw [hhd]; exact platesFrom_congr w _ (fun p hp => (h.links p (w5 p hp)).symm) w1
          have wdis : ∀ m ∈ done, (t.slot m).state = .filed → ∀ p ∈ own m, p ∉ w := fun m h1 h2 p h3 h4 =>
            (unclaimed p).mp (w5 p h4) m h1 h2 h3
          have o' : ∀ m ∈ done, (if m = n then w else own m) = own m := fun m hm => if_neg fun (k : m = n) => hnd (k ▸ hm)
          refine ⟨h.fr.trans ufr, uix.trans h.ix, fun p => by rw [um]; exact h.num p, fun m hm => (use m).trans (h.out m hm), fun m => by rw [us]; exact h.slots m, fun m => ?_, fun f hf' => ?_, fun p hp => ?_, fun p => by rw [um]; exact h.next p, fun m => if m = n then w else own m, fun m hm k => ?_, fun m hm m' hm' k k' hne => ?_, fun p => ?_⟩ <;> beta_reduce
          · rw [us]; exact (h.state m).imp id fun q => ⟨List.mem_cons_of_mem _ q.1, q.2⟩
          · obtain ⟨q, hq⟩ := h.chains f hf'
            exact ⟨q, hq.congr (um _) fun m _ _ => us m⟩
          · rw [w6] at hp
            simp only [Bool.or_eq_false_iff, decide_eq_false_iff_not] at hp
            rw [ulink p fun (k : p = last') => hp.2 (k ▸ hlw)]
            exact h.links p hp.1
          · rw [us]
            rw [us] at k
            rcases List.mem_cons.mp hm with rfl | hm
            · rw [if_pos (rfl : m = m)]
              refine ⟨platesTo_of (s := t) last' ulast (fun p hp => by rw [ulink p hp]) w _ w4 w3 (by rw [hhead, hhd]; exact w1), by rw [w2]; omega, by rw [w3]; exact ht, w4, wS⟩
            · rw [o' m hm]
              obtain ⟨a1, a2, a3, a4, a5⟩ := o1 m hm k
              refine ⟨platesTo_congr _ _ (fun p hp => ?_) a1, a2, a3, a4, a5⟩
              rw [ulink p fun (q : p = last') => wdis m hm k p hp (q ▸ hlw)]
          · rw [us] at k k'
            rcases List.mem_cons.mp hm with rfl | hd1 <;> rcases List.mem_cons.mp hm' with rfl | hd2
            · exact absurd rfl hne
            · rw [o' m' hd2, if_pos rfl]
              exact fun p h1 h2 => wdis m' hd2 k' p h2 h1
            · rw [o' m hd1, if_pos rfl]
              exact wdis m hd1 k
            · rw [o' m hd1, o' m' hd2]
              exact o2 m hd1 m' hd2 k k' hne
          · rw [w6]
            simp only [Bool.or_eq_true, decide_eq_true_eq]
            constructor
            · rintro (k | k)
              · obtain ⟨m, h1, h2, h3⟩ := (o3 p).mp k
                exact ⟨m, List.mem_cons_of_mem _ h1, by rw [us]; exact h2, by rw [o' m h1]; exact h3⟩
              · exact ⟨n, List.mem_cons_self, by rw [us]; exact hft, by rw [if_pos rfl]; exact k⟩
            · rintro ⟨m, h1, h2, h3⟩
              rw [us] at h2
              rcases List.mem_cons.mp h1 with rfl | h1
              · rw [if_pos rfl] at h3; exact .inr h3
              · rw [o' m h1] at h3; exact .inl ((o3 p).mpr ⟨m, h1, h2, h3⟩)
        · exact absurd hw (by simp)
  · rename_i hg
    simp only [Bool.and_eq_true, decide_eq_true_eq] at hg
    have hzero : (t.slot n).state = .filed → (s.slot n).plateCount = 0 ∧ (s.slot n).plateHead = none ∧ (s.slot n).plateTail = none := fun k => by
      rcases hok (hstn ▸ k) with q | q
      · exact q
      · refine absurd ⟨⟨by rw [k]; rfl, ?_⟩, by rw [hcount]; exact q.1⟩ hg
        rw [himg]; exact q.2.2
    have o' : ∀ m ∈ done, (if m = n then [] else own m) = own m := fun m hm => if_neg fun (k : m = n) => hnd (k ▸ hm)
    dsimp only
    refine ⟨h.fr, h.ix, h.num, h.out, h.slots, fun m => (h.state m).imp id fun q => ⟨List.mem_cons_of_mem _ q.1, q.2⟩, h.chains, h.links, h.next, fun m => if m = n then [] else own m, fun m hm k => ?_, fun m hm m' hm' k k' hne => ?_, fun p => ?_⟩ <;> beta_reduce
    · rcases List.mem_cons.mp hm with rfl | hm
      · obtain ⟨z1, z2, z3⟩ := hzero k
        rw [if_pos rfl, hhead, hcount, htail, z1, z2, z3]
        exact ⟨rfl, rfl, rfl, .nil, trivial⟩
      · rw [o' m hm]; exact o1 m hm k
    · rcases List.mem_cons.mp hm with rfl | hm <;> rcases List.mem_cons.mp hm' with rfl | hm'
      · exact absurd rfl hne
      · rw [if_pos rfl]; intro p hp; exact absurd hp List.not_mem_nil
      · rw [if_pos (rfl : m' = m')]; intro p _; exact List.not_mem_nil
      · rw [o' m hm, o' m' hm']; exact o2 m hm m' hm' k k' hne
    · rw [o3]
      constructor
      · rintro ⟨m, h1, h2, h3⟩
        exact ⟨m, List.mem_cons_of_mem _ h1, h2, by rw [o' m h1]; exact h3⟩
      · rintro ⟨m, h1, h2, h3⟩
        rcases List.mem_cons.mp h1 with rfl | h1
        · rw [if_pos rfl] at h3; exact absurd h3 List.not_mem_nil
        · rw [o' m h1] at h3; exact ⟨m, h1, h2, h3⟩

theorem claimed_all (live : List Nat) (s : State) (c : Canonical s)
    (hlive : ∀ m ∈ live, m < 4096)
    (hix : ∀ e ∈ s.folio.index, (s.matterAt e.place).number ≠ 0)
    (huniq : ∀ e ∈ s.folio.index, ∀ f ∈ s.folio.index, f ≠ e → f.matter ≠ e.matter ∧ f.place ≠ e.place)
    (hplace : ∀ m ∈ live, ∃ e ∈ s.folio.index, (s.slot m).state = .filed → e.matter = (s.slot m).matter ∧ e.place = (s.slot m).place)
    (hok : ∀ n ∈ live, (s.slot n).state = .filed → PlateOk (s.slot n))
    (hst : ∀ n ∈ live, (s.slot n).state = .filed ∨ (s.slot n).state = .damaged) :
    ∀ (todo done : List Nat) (p : State × Nat), (∀ m ∈ todo, m ∈ live) → todo.Pairwise (· < ·) → (∀ m ∈ done, m ∈ live ∧ ∀ n ∈ todo, m < n) →
      Claimed live done s p.1 p.2 → Claimed live (todo.reverse ++ done) s (claimAll todo p).1 (claimAll todo p).2
  | [], done, p, _, _, _, h => h
  | n :: todo, done, (t, claims), h1, h2, h3, h => by
    unfold claimAll
    rw [List.pairwise_cons] at h2
    rw [List.reverse_cons, List.append_assoc]
    refine claimed_all live s c hlive hix huniq hplace hok hst todo (n :: done) _ (fun m hm => h1 m (List.mem_cons_of_mem _ hm)) h2.2 (fun m hm => ?_)
      (claimed_succ live done n s t claims (h.fr.canon c) hlive (h1 n List.mem_cons_self) (fun m hm => ⟨(h3 m hm).1, (h3 m hm).2 n List.mem_cons_self⟩) hix huniq hplace
        (hok n (h1 n List.mem_cons_self)) (hst n (h1 n List.mem_cons_self)) h)
    rcases List.mem_cons.mp hm with rfl | hm
    · exact ⟨h1 m List.mem_cons_self, h2.1⟩
    · exact ⟨(h3 m hm).1, fun k hk => (h3 m hm).2 k (List.mem_cons_of_mem _ hk)⟩

theorem claimed_zero (live : List Nat) (s : State) (h : ∀ e ∈ s.folio.index, ∃ l, ChainAt live s e l) : Claimed live [] s s 0 :=
  ⟨.rfl, rfl, fun _ => ⟨rfl, rfl⟩, fun _ _ => rfl, fun _ => rfl, fun _ => .inl rfl, h, fun _ _ => rfl, fun _ => rfl, fun _ => [],
    fun n hn => absurd hn List.not_mem_nil, fun n hn => absurd hn List.not_mem_nil, fun p => by simp⟩

/-! stage 5 -/
theorem fr_form (claims) : ∀ n q s, Fr s (formQueue claims n q s).2
  | 0, _, _ => .rfl
  | n + 1, q, s => by
    unfold formQueue; split
    · exact fr_form _ _ _ _
    · exact (fr_putNext _ _ _).trans (fr_form _ _ _ _)

theorem form_spec (claims : Nat) : ∀ (n : Nat) (q : FreeQueue) (s : State) (f : List Nat), Canonical s →
    PlatesTo s q.head f → q.tail = f.getLast? → q.length = f.length → f.Pairwise (· < ·) → (∀ p ∈ f, n ≤ p) →
    ∃ g, PlatesTo (formQueue claims n q s).2 (formQueue claims n q s).1.head g ∧ (formQueue claims n q s).1.tail = g.getLast? ∧
      (formQueue claims n q s).1.length = g.length ∧ g.Pairwise (· < ·) ∧
      (∀ p, p ∈ g ↔ (p < n ∧ claims.testBit p = false) ∨ p ∈ f) ∧
      (∀ p, (n ≤ p ∨ claims.testBit p = true) → (formQueue claims n q s).2.link p = s.link p) ∧
      (∀ m, (formQueue claims n q s).2.slotEntry m = s.slotEntry m) ∧ (∀ m, (formQueue claims n q s).2.placeEntry m = s.placeEntry m) ∧
      (formQueue claims n q s).2.folio.index = s.folio.index
  | 0, q, s, f, _, h1, h2, h3, h4, _ => by
    unfold formQueue
    exact ⟨f, h1, h2, h3, h4, fun p => by simp, fun _ _ => rfl, fun _ => rfl, fun _ => rfl, rfl⟩
  | n + 1, q, s, f, c, h1, h2, h3, h4, h5 => by
    unfold formQueue
    split
    · rename_i hc
      obtain ⟨g, g1, g2, g3, g4, g5, g6, g7⟩ := form_spec claims n q s f c h1 h2 h3 h4 fun p hp => by have := h5 p hp; omega
      refine ⟨g, g1, g2, g3, g4, fun p => ?_, fun p hp => g6 p (hp.imp (by omega) id), g7⟩
      rw [g5]
      constructor
      · rintro (⟨k1, k2⟩ | k)
        · exact .inl ⟨by omega, k2⟩
        · exact .inr k
      · rintro (⟨k1, k2⟩ | k)
        · refine .inl ⟨?_, k2⟩
          by_contra e
          have : p = n := by omega
          subst this; rw [hc] at k2; exact absurd k2 (by decide)
        · exact .inr k
    · rename_i hc
      have hc : claims.testBit n = false := by simpa using hc
      have hnf : ∀ p ∈ f, p ≠ n := fun p hp k => by have := h5 p hp; omega
      have hl := link_next c n q.head
      obtain ⟨g, g1, g2, g3, g4, g5, g6, g7, g8, g9⟩ := form_spec claims n
        { head := some n, tail := match q.tail with | some t => some t | none => some n, length := q.length + 1 }
        (s.putNext n q.head) (n :: f) ((fr_putNext _ _ _).canon c)
        ⟨rfl, by
          rw [hl, if_pos rfl]
          exact platesTo_congr f _ (fun p hp => by rw [hl, if_neg (hnf p hp)]) h1⟩
        (by
          dsimp only
          rw [h2]
          cases f with
          | nil => rfl
          | cons x f => rw [List.getLast?_cons_cons, List.getLast?_eq_some_getLast (List.cons_ne_nil x f)])
        (by dsimp only; rw [h3]; rfl)
        (List.pairwise_cons.mpr ⟨fun p hp => by have := h5 p hp; omega, h4⟩)
        (fun p hp => by
          rcases List.mem_cons.mp hp with rfl | hp
          · exact Nat.le_refl _
          · have := h5 p hp; omega)
      refine ⟨g, g1, g2, g3, g4, fun p => ?_, fun p hp => ?_, g7, g8, g9⟩
      · rw [g5, List.mem_cons]
        constructor
        · rintro (⟨k1, k2⟩ | rfl | k)
          · exact .inl ⟨by omega, k2⟩
          · exact .inl ⟨Nat.lt_succ_self _, hc⟩
          · exact .inr k
        · rintro (⟨k1, k2⟩ | k)
          · by_cases e : p = n
            · exact .inr (.inl e)
            · exact .inl ⟨by omega, k2⟩
          · exact .inr (.inr k)
      · have hpn : p ≠ n := fun k => by
          subst k
          rcases hp with hp | hp
          · omega
          · rw [hc] at hp; exact absurd hp (by decide)
        refine (g6 p (hp.imp (by omega) id)).trans ?_
        rw [hl, if_neg hpn]

theorem folio_nat (n : Nat) (g : BitVec 4) (h : n < 4096) : (folioOf n g).toNat = n * 16 + g.toNat := by
  unfold folioOf word
  have := g.isLt
  rw [BitVec.toNat_ofNat]; omega
theorem slotOf_folio (n : Nat) (g : BitVec 4) (h : n < 4096) : slotOf (folioOf n g) = n := by
  unfold slotOf; rw [folio_nat n g h]; have := g.isLt; omega
theorem genOf_folio (n : Nat) (g : BitVec 4) (h : n < 4096) : generationOf (folioOf n g) = g := by
  unfold generationOf
  apply BitVec.eq_of_toNat_eq
  rw [BitVec.extractLsb'_toNat, folio_nat n g h]; have := g.isLt; simp; omega
theorem folio_of (f : Word) : folioOf (slotOf f) (generationOf f) = f := by
  apply BitVec.eq_of_toNat_eq
  have hf := f.isLt
  have : slotOf f < 4096 := by unfold slotOf; omega
  rw [folio_nat _ _ this]
  unfold slotOf generationOf
  rw [BitVec.extractLsb'_toNat]; simp; omega
theorem slotOf_lt (f : Word) : slotOf f < 4096 := by unfold slotOf; have := f.isLt; omega

theorem resolve_ok (s : State) (f : Word) (q : Record) :
    s.resolve f = .ok q ↔ s.slot (slotOf f) = q ∧ q.generation = generationOf f ∧ q.state.live = true := by
  unfold State.resolve
  dsimp only
  constructor
  · intro h
    split at h
    · simp at h
    · split at h
      · simp at h
      · rename_i h1 h2
        split at h
        · rename_i h3
          simp only [Except.ok.injEq] at h; subst h
          exact ⟨rfl, by simpa using h2, h3⟩
        · simp at h
  · rintro ⟨rfl, h2, h3⟩
    rw [if_neg (by intro k; rw [k] at h3; exact absurd h3 (by decide)), if_neg (by simpa using h2), if_pos h3]

theorem kept_some (s : State) (x : Option Word) (back : Record → Option Word) (g f : Word) :
    s.keptLink x back g = some f ↔ x = some f ∧ ∃ q, s.resolve f = .ok q ∧ back q = some g := by
  unfold State.keptLink
  cases x with
  | none => simp
  | some y =>
    dsimp only
    cases hr : s.resolve y with
    | error e =>
      simp only [Option.some.injEq]
      constructor
      · intro h; simp at h
      · rintro ⟨rfl, q, h, _⟩; rw [hr] at h; simp at h
    | ok q =>
      dsimp only
      split
      · rename_i h
        simp only [Option.some.injEq]
        constructor
        · rintro rfl; exact ⟨rfl, q, hr, h⟩
        · exact fun k => k.1
      · rename_i h
        simp only [Option.some.injEq, reduceCtorEq, false_iff]
        rintro ⟨rfl, q', h1, h2⟩
        rw [hr] at h1; simp only [Except.ok.injEq] at h1; subst h1
        exact h h2

def ks (s : State) (n : Nat) : Option Word := s.keptLink (s.slot n).successor Record.predecessor ((s.slot n).folio n)
def kp (s : State) (n : Nat) : Option Word := s.keptLink (s.slot n).predecessor Record.successor ((s.slot n).folio n)

structure LinkedTo (done : List Nat) (s t : State) : Prop where
  sf : SlotFr s t
  out : ∀ n, (n ∉ done ∨ (s.slot n).state.live = false) → t.slotEntry n = s.slotEntry n
  done : ∀ n ∈ done, (s.slot n).state.live = true → t.slot n = { s.slot n with predecessor := kp s n, successor := ks s n }

/-- a kept link as found before and as found now -/
theorem mutual_iff (s : State) (n m : Nat) (x y : Record → Option Word) (f : Word) (hn : n < 4096) (hl : (s.slot n).state.live = true)
    (hf : slotOf f = m) (hg : (s.slot m).generation = generationOf f) (hx : x (s.slot n) = some f) :
    s.keptLink (y (s.slot m)) x ((s.slot m).folio m) = some ((s.slot n).folio n) ↔ y (s.slot m) = some ((s.slot n).folio n) := by
  rw [kept_some]
  refine ⟨fun h => h.1, fun h => ⟨h, s.slot n, ?_, ?_⟩⟩
  · rw [resolve_ok]
    unfold Record.folio
    rw [slotOf_folio n _ hn, genOf_folio n _ hn]
    exact ⟨rfl, rfl, hl⟩
  · rw [hx]; unfold Record.folio; rw [hg, ← hf, folio_of]

theorem linked_slot {done} {s t : State} (h : LinkedTo done s t) (n : Nat) :
    t.slot n = { s.slot n with predecessor := (t.slot n).predecessor, successor := (t.slot n).successor } := by
  by_cases k : n ∈ done ∧ (s.slot n).state.live = true
  · rw [h.done n k.1 k.2]
  · have : t.slotEntry n = s.slotEntry n := h.out n (by
      by_cases q : n ∈ done
      · right; simpa using fun w => k ⟨q, w⟩
      · exact .inl q)
    have h2 : t.slot n = s.slot n := by unfold State.slot; rw [this]
    rw [h2]

theorem linked_succ (done : List Nat) (n : Nat) (s t : State) (c : Canonical t) (hn : n < 4096) (hnd : n ∉ done) (h : LinkedTo done s t) :
    LinkedTo (n :: done) s (t.settleLinks n) := by
  have hent : t.slotEntry n = s.slotEntry n := h.out n (.inl hnd)
  have hsn : t.slot n = s.slot n := by unfold State.slot; rw [hent]
  unfold State.settleLinks
  dsimp only
  rw [hsn]
  split
  · rename_i hl
    have key : ∀ (x y : Record → Option Word), (∀ m, t.slot m = s.slot m ∨ y (t.slot m) = s.keptLink (y (s.slot m)) x ((s.slot m).folio m)) →
        t.keptLink (x (s.slot n)) y ((s.slot n).folio n) = s.keptLink (x (s.slot n)) y ((s.slot n).folio n) := by
      intro x y hy
      apply Option.ext
      intro f
      rw [kept_some, kept_some]
      refine and_congr_right fun hx => ?_
      constructor
      · rintro ⟨q, h1, h2⟩
        obtain ⟨a1, a2, a3⟩ := (resolve_ok _ _ _).mp h1
        have hls := linked_slot h (slotOf f)
        have g1 : (s.slot (slotOf f)).generation = generationOf f := by rw [← a2, ← a1, hls]
        refine ⟨s.slot (slotOf f), (resolve_ok _ _ _).mpr ⟨rfl, g1, by rw [← a3, ← a1, hls]⟩, ?_⟩
        rcases hy (slotOf f) with e | e
        · rw [← e, a1]; exact h2
        · refine (mutual_iff s n _ x y f hn hl rfl g1 hx).mp ?_
          rw [← e, a1]; exact h2
      · rintro ⟨q, h1, h2⟩
        obtain ⟨a1, a2, a3⟩ := (resolve_ok _ _ _).mp h1
        have hls := linked_slot h (slotOf f)
        refine ⟨t.slot (slotOf f), (resolve_ok _ _ _).mpr ⟨rfl, by rw [← a2, ← a1, hls], by rw [← a3, ← a1, hls]⟩, ?_⟩
        rcases hy (slotOf f) with e | e
        · rw [e, a1]; exact h2
        · rw [e]
          exact (mutual_iff s n _ x y f hn hl rfl (by rw [a1]; exact a2) hx).mpr (by rw [a1]; exact h2)
    have k1 := key Record.predecessor Record.successor fun m => by
      by_cases k : m ∈ done ∧ (s.slot m).state.live = true
      · right; rw [h.done m k.1 k.2]; rfl
      · left
        have : t.slotEntry m = s.slotEntry m := h.out m (by
          by_cases q : m ∈ done
          · right; simpa using fun w => k ⟨q, w⟩
          · exact .inl q)
        unfold State.slot; rw [this]
    have k2 := key Record.successor Record.predecessor fun m => by
      by_cases k : m ∈ done ∧ (s.slot m).state.live = true
      · right; rw [h.done m k.1 k.2]; rfl
      · left
        have : t.slotEntry m = s.slotEntry m := h.out m (by
          by_cases q : m ∈ done
          · right; simpa using fun w => k ⟨q, w⟩
          · exact .inl q)
        unfold State.slot; rw [this]
    rw [k1, k2]
    refine ⟨h.sf.trans (sf_settle _ _ _), fun m hm => ?_, fun m hm hlm => ?_⟩
    · have hmn : m ≠ n := fun k => by
        subst k
        rcases hm with k | k
        · exact k List.mem_cons_self
        · rw [hl] at k; exact absurd k (by decide)
      rw [settleSlot_entry_ne _ _ _ _ hmn]
      exact h.out m (hm.imp (fun k q => k (List.mem_cons_of_mem _ q)) id)
    · rw [slot_settle c]
      split
      · rename_i k; subst k; rfl
      · rename_i k; exact h.done m ((List.mem_cons.mp hm).resolve_left k) hlm
  · rename_i hl
    refine ⟨h.sf, fun m hm => ?_, fun m hm hlm => ?_⟩
    · by_cases k : m = n
      · subst k; exact hent
      · exact h.out m (hm.imp (fun k q => k (List.mem_cons_of_mem _ q)) id)
    · rcases List.mem_cons.mp hm with rfl | hm
      · exact absurd hlm hl
      · exact h.done m hm hlm

theorem linked_all (s : State) (c : Canonical s) : ∀ (todo done : List Nat) (t : State), (∀ n ∈ todo, n < 4096 ∧ n ∉ done) → todo.Nodup →
    LinkedTo done s t → LinkedTo (todo.reverse ++ done) s (t.settleAllLinks todo)
  | [], _, _, _, _, h => h
  | n :: todo, done, t, h1, h2, h => by
    unfold State.settleAllLinks
    rw [List.nodup_cons] at h2
    rw [List.reverse_cons, List.append_assoc]
    refine linked_all s c todo (n :: done) _ (fun m hm => ⟨(h1 m (List.mem_cons_of_mem _ hm)).1, fun k => ?_⟩) h2.2
      (linked_succ done n s t (h.sf.fr.canon c) (h1 n List.mem_cons_self).1 (h1 n List.mem_cons_self).2 h)
    rcases List.mem_cons.mp k with rfl | k
    · exact h2.1 hm
    · exact (h1 m (List.mem_cons_of_mem _ hm)).2 k

/-! removal -/
def Empty (s : State) (p : Nat) : Prop := (s.matterAt p).number ≠ 0 ∧ (s.matterAt p).recordCount = 0 ∧ (s.matterAt p).holdCount = 0

structure Trimmed (done : List Nat) (s t : State) : Prop where
  fr : Fr s t
  slot : ∀ n, t.slotEntry n = s.slotEntry n
  link : ∀ n, t.link n = s.link n
  gone : ∀ p ∈ done, Empty s p → t.matterAt p = {}
  kept : ∀ p, (p ∉ done ∨ ¬ Empty s p) → t.matterAt p = s.matterAt p
  mem : ∀ e, e ∈ t.folio.index ↔ e ∈ s.folio.index ∧ (e.place ∉ done ∨ ¬ Empty s e.place)
  sub : t.folio.index.Sublist s.folio.index

theorem trimmed_succ (done : List Nat) (p : Nat) (s t : State) (c : Canonical t) (hp : p ∉ done)
    (hpin : ∀ e ∈ s.folio.index, e.pinned = false) (h : Trimmed done s t) : Trimmed (p :: done) s (t.testRemoval p) := by
  have hm : t.matterAt p = s.matterAt p := h.kept p (.inl hp)
  have hpn : t.pinned p = false := by
    unfold State.pinned
    rw [List.any_eq_false]
    intro e he
    have := hpin e ((h.mem e).mp he).1
    rw [this]; simp
  have hrem : t.removable p = true ↔ Empty s p := by
    unfold State.removable Empty
    dsimp only
    rw [hm, hpn]; simp [and_assoc]
  unfold State.testRemoval
  split
  · rename_i hr
    have hE := hrem.mp hr
    set u : State := { t with folio.index := t.folio.index.filter fun e => e.place ≠ p } with hu
    have cu : Canonical u := c
    have hM := matter_put cu p {} (.inr rfl)
    refine ⟨h.fr.trans ((Fr.mk id rfl : Fr t u).trans (fr_putMatter _ _ u)), h.slot, h.link, fun q hq k => ?_, fun q hq => ?_, fun e => ?_, (List.filter_sublist).trans h.sub⟩
    · rw [hM]; split
      · rfl
      · rename_i e; exact h.gone q ((List.mem_cons.mp hq).resolve_left e) k
    · have hqp : q ≠ p := fun e => by
        subst e
        rcases hq with k | k
        · exact k List.mem_cons_self
        · exact k hE
      rw [hM, if_neg hqp]
      exact h.kept q (hq.imp (fun k w => k (List.mem_cons_of_mem _ w)) id)
    · show e ∈ t.folio.index.filter _ ↔ _
      rw [List.mem_filter, h.mem e]
      simp only [decide_eq_true_eq, List.mem_cons, not_or]
      constructor
      · rintro ⟨⟨a, b⟩, d⟩; exact ⟨a, b.imp (fun b => ⟨d, b⟩) id⟩
      · rintro ⟨a, b⟩
        refine ⟨⟨a, b.imp (fun b => b.2) id⟩, fun k => ?_⟩
        rcases b with b | b
        · exact b.1 k
        · rw [k] at b; exact b hE
  · rename_i hr
    have hE : ¬ Empty s p := fun k => hr (hrem.mpr k)
    refine ⟨h.fr, h.slot, h.link, fun q hq k => ?_, fun q hq => ?_, fun e => ?_, h.sub⟩
    · rcases List.mem_cons.mp hq with rfl | hq
      · exact absurd k hE
      · exact h.gone q hq k
    · by_cases e : q = p
      · subst e; exact h.kept q (.inr hE)
      · exact h.kept q (hq.imp (fun k w => k (List.mem_cons_of_mem _ w)) id)
    · rw [h.mem e]
      simp only [List.mem_cons, not_or]
      refine and_congr_right fun _ => ?_
      constructor
      · rintro (b | b)
        · by_cases k : e.place = p
          · right; rw [k]; exact hE
          · exact .inl ⟨k, b⟩
        · exact .inr b
      · rintro (b | b)
        · exact .inl b.2
        · exact .inr b

theorem trimmed_all (s : State) (c : Canonical s) (hpin : ∀ e ∈ s.folio.index, e.pinned = false) :
    ∀ (es : List IndexEntry) (done : List Nat) (t : State), es.Pairwise (fun a b => a.place < b.place) → (∀ e ∈ es, e.place ∉ done) →
      Trimmed done s t → Trimmed ((es.map IndexEntry.place).reverse ++ done) s (t.removeEmpty es)
  | [], _, _, _, _, h => h
  | e :: es, done, t, h1, h2, h => by
    unfold State.removeEmpty
    rw [List.pairwise_cons] at h1
    rw [List.map_cons, List.reverse_cons, List.append_assoc]
    refine trimmed_all s c hpin es (e.place :: done) _ h1.2 (fun f hf k => ?_) (trimmed_succ done e.place s t (h.fr.canon c) (h2 e List.mem_cons_self) hpin h)
    rcases List.mem_cons.mp k with k | k
    · have := h1.1 f hf; omega
    · exact h2 f (List.mem_cons_of_mem _ hf) k
theorem trimmed_zero (s : State) : Trimmed [] s s :=
  ⟨.rfl, fun _ => rfl, fun _ => rfl, fun p h => absurd h List.not_mem_nil, fun _ _ => rfl, fun e => by simp, List.Sublist.refl _⟩

theorem live_of_filed {x : RecordState} (h : x = .filed) : x.live = true := by rw [h]; rfl
theorem norm_state (r : Record) : (normalized r).state = .filed := by unfold normalized; split <;> simp_all
theorem norm_matter (r : Record) : (normalized r).matter = r.matter := by unfold normalized; split <;> rfl
theorem norm_seq (r : Record) : (normalized r).sequence = r.sequence := by unfold normalized; split <;> rfl
theorem norm_head (r : Record) : (normalized r).plateHead = r.plateHead := by unfold normalized; split <;> rfl
theorem norm_tail (r : Record) : (normalized r).plateTail = r.plateTail := by unfold normalized; split <;> rfl
theorem norm_count (r : Record) : (normalized r).plateCount = r.plateCount := by unfold normalized; split <;> rfl
theorem norm_image (r : Record) : (normalized r).image = r.image := by unfold normalized; split <;> rfl
theorem norm_gen (r : Record) : (normalized r).generation = r.generation := by unfold normalized; split <;> rfl
theorem norm_succ (r : Record) : (normalized r).successor = r.successor := by unfold normalized; split <;> rfl
theorem norm_pred (r : Record) : (normalized r).predecessor = r.predecessor := by unfold normalized; split <;> rfl

theorem accepts_iff (s : State) (p : Nat) (m : Long) : Accepts s p m ↔ p < 256 ∧ Acc s p ∧ (s.matterAt p).number = m := by
  unfold Accepts Acc
  constructor
  · rintro ⟨a, b, rfl, d⟩; exact ⟨a, ⟨b, d⟩, rfl⟩
  · rintro ⟨a, ⟨b, d⟩, rfl⟩; exact ⟨a, b, rfl, d⟩

theorem slot2_congr {s a t : State} (h : ∀ n, a.slotEntry n = s.slotEntry n) (n : Nat) :
    (BlankSlot a n ↔ BlankSlot s n) ∧ (ChecksOut a n ↔ ChecksOut s n) ∧ (FoundLive a n ↔ FoundLive s n) ∧ a.slot n = s.slot n := by
  have hs : a.slot n = s.slot n := by unfold State.slot; rw [h]
  unfold FoundLive ChecksOut BlankSlot
  rw [h, hs]
  exact ⟨.rfl, .rfl, .rfl, rfl⟩

theorem rebuilt_core (s : State) (c : Canonical s) (hi : s.folio.index = []) (K P W : Nat) (hK : K = 4096) (hP : P = 256) (hW : W = 65536) :
    ∃ (t : State) (rec : Nat) (q : FreeQueue), s.rebuildOver K P W = State.postFolio
        (.ready rec (t.countSlots K RecordState.live) (t.countSlots K (· = .damaged)) q.length)
        { t with folio.freeSlots := t.countSlots K (· = .free), images.free := q, port.starting := false } ∧
      ∀ u : State, u.record = t.record → u.folio.index = t.folio.index → u.images.free = q → Rebuilt s u ∧
        ∃ made : List Long, made.Nodup ∧ made.length = rec ∧
          ∀ m, m ∈ made ↔ (∃ e ∈ u.folio.index, e.matter = m) ∧ ∀ p, ¬ Accepts s p m := by
  set A := ascending State.checkPlace P s with hA
  have h1 : One P s A := one_all s c hi P
  have cA : Canonical A := (fr_ascending P s).canon c
  set B := (checkSlots K (A, 0)).1 with hB
  have h2 : Two K A B := two_all A cA (two_zero s A P hP h1) K (Nat.le_of_eq hK)
  have cB : Canonical B := (fr_checkSlots K (A, 0)).canon cA
  set L := B.liveSlots K with hL
  have memL : ∀ n, n ∈ L ↔ n < 4096 ∧ (B.slot n).state.live = true := fun n => by
    rw [hL]; unfold State.liveSlots; simp [hK]
  have sortL : L.Pairwise (· < ·) := by
    rw [hL]; unfold State.liveSlots
    exact List.Pairwise.sublist List.filter_sublist (List.pairwise_lt_range)
  have sA := slot2_congr (t := A) h1.slots
  -- the slots of the live list
  have liveB : ∀ n ∈ L, FoundLive s n ∧ ∃ e ∈ B.folio.index, e.matter = (s.slot n).matter ∧
      B.slot n = { normalized (s.slot n) with place := e.place } := fun n hn => by
    obtain ⟨k1, k2⟩ := (memL n).mp hn
    obtain ⟨x1, x2, x3, x4, x5⟩ := h2.done n (by omega)
    by_cases hb : BlankSlot A n
    · rw [x1 hb] at k2; exact absurd k2 (by decide)
    · by_cases hc : ChecksOut A n
      · by_cases hd : (A.slot n).state = .damaged ∨ (A.slot n).state = .free
        · have : B.slot n = A.slot n := by unfold State.slot; rw [x3 hc hd]
          rw [this] at k2
          rcases hd with hd | hd <;> rw [hd] at k2 <;> exact absurd k2 (by decide)
        · simp only [not_or] at hd
          by_cases hr : InRange (A.slot n)
          · have hf : FoundLive A n := ⟨k1, hc, hr⟩
            rcases x5 hf with ⟨e, e1, e2, e3⟩ | ⟨_, _, _, e3⟩
            · rw [(sA n).2.2.2] at e2 e3
              exact ⟨(sA n).2.2.1.mp hf, e, e1, e2, e3⟩
            · rw [e3] at k2; exact absurd k2 (by simp [RecordState.live])
          · rw [x4 hc hd.1 hd.2 hr] at k2; exact absurd k2 (by simp [RecordState.live])
      · rw [x2 hb hc] at k2; exact absurd k2 (by simp [RecordState.live])
  have filedB : ∀ n ∈ L, (B.slot n).state = .filed := fun n hn => by
    obtain ⟨_, e, _, _, h⟩ := liveB n hn; rw [h]; exact norm_state _
  have matB : ∀ n ∈ L, (B.slot n).matter = (s.slot n).matter := fun n hn => by
    obtain ⟨_, e, _, _, h⟩ := liveB n hn; rw [h]; exact norm_matter _
  have seqB : ∀ n ∈ L, (B.slot n).sequence = (s.slot n).sequence := fun n hn => by
    obtain ⟨_, e, _, _, h⟩ := liveB n hn; rw [h]; exact norm_seq _
  have numB : ∀ e ∈ B.folio.index, (B.matterAt e.place).number ≠ 0 := fun e he => by
    obtain ⟨_, _, k3, k4⟩ := h2.ix.each e he; rw [k4]; exact k3
  have placeUniq : ∀ e ∈ B.folio.index, ∀ f ∈ B.folio.index, e.place = f.place → e = f := fun e he f hf k => by
    refine h2.ix.uniq e he f hf ?_
    rw [← (h2.ix.each e he).2.2.2, ← (h2.ix.each f hf).2.2.2, k]
  have uniqB : ∀ e ∈ B.folio.index, ∀ f ∈ B.folio.index, f ≠ e → f.matter ≠ e.matter ∧ f.place ≠ e.place := fun e he f hf k =>
    ⟨fun q => k (h2.ix.uniq f hf e he q), fun q => k (placeUniq f hf e he q)⟩
  have pairB : B.folio.index.Pairwise (fun a b => a.matter ≠ b.matter ∧ a.place ≠ b.place) := by
    refine h2.ix.sorted.imp_of_mem fun {a b} ha hb k => ?_
    have hne : a.place ≠ b.place := Nat.ne_of_lt k
    exact ⟨fun q => hne (congrArg IndexEntry.place (h2.ix.uniq a ha b hb q)), hne⟩
  set C := B.rebuildChains L B.folio.index with hC
  have h3 : Chained L (B.folio.index.reverse ++ []) B C :=
    chained_all L sortL B cB filedB B.folio.index [] B (chained_zero L B filedB) numB pairB (fun _ _ _ hf => absurd hf List.not_mem_nil)
  have cC : Canonical C := h3.fr.canon cB
  have linkC : ∀ p, C.link p = s.link p := fun p => ((h3.links p).trans (h2.links p)).trans (h1.links p)
  have fldC : ∀ n ∈ L, (C.slot n).matter = (s.slot n).matter ∧ (C.slot n).sequence = (s.slot n).sequence ∧
      (C.slot n).plateHead = (s.slot n).plateHead ∧ (C.slot n).plateTail = (s.slot n).plateTail ∧
      (C.slot n).plateCount = (s.slot n).plateCount ∧ (C.slot n).image = (s.slot n).image ∧ (C.slot n).place = (B.slot n).place := fun n hn => by
    obtain ⟨_, e, _, _, h⟩ := liveB n hn
    have := h3.slots n
    refine ⟨?_, ?_, ?_, ?_, ?_, ?_, ?_⟩ <;> rw [this] <;> dsimp only <;> try rw [h]
    · exact norm_matter _
    · exact norm_seq _
    · exact norm_head _
    · exact norm_tail _
    · exact norm_count _
    · exact norm_image _
  have chainsC : ∀ e ∈ C.folio.index, ∃ l, ChainAt L C e l := fun e he => by
    rw [h3.ix] at he; exact h3.chains e (by simpa using he)
  set D := (claimAll L (C, 0)).1 with hD
  set cl := (claimAll L (C, 0)).2 with hcl
  have h4 : Claimed L (L.reverse ++ []) C D cl := by
    refine claimed_all L C cC (fun m hm => ((memL m).mp hm).1) (fun e he => ?_) (by rw [h3.ix]; exact uniqB) (fun n hn => ?_) (fun n hn hf => ?_) (fun n hn => ?_)
      L [] (C, 0) (fun _ h => h) sortL (fun m hm => absurd hm List.not_mem_nil) (claimed_zero L C chainsC)
    · rw [h3.ix] at he; rw [(h3.num _).1]; exact numB e he
    · obtain ⟨_, e, e1, e2, e3⟩ := liveB n hn
      refine ⟨e, by rw [h3.ix]; exact e1, fun _ => ⟨by rw [(fldC n hn).1]; exact e2, ?_⟩⟩
      rw [(fldC n hn).2.2.2.2.2.2, e3]
    · obtain ⟨_, _, f3, f4, f5, f6, _⟩ := fldC n hn
      obtain ⟨⟨_, _, r⟩, _⟩ := liveB n hn
      unfold PlateOk
      rw [f3, f4, f5, f6]
      rcases r.2.2.2.2.2.2.2.2.2.2.1 with k | k
      · exact .inl k
      · refine .inr ⟨k.1, k.2.1, ?_⟩
        have := r.2.2.2.2.2.2.2.2.2.2.2.1
        cases hx : (s.slot n).image with
        | resident => rfl
        | shed => have := this hx; omega
    · rcases h3.state n hn with k | k
      · exact .inl k
      · exact .inr k.1
  have cD : Canonical D := h4.fr.canon cC
  have inDone : ∀ n, n ∈ L.reverse ++ [] ↔ n ∈ L := fun n => by simp
  obtain ⟨g, g1, g2, g3, g4, g5, g6, g7, g8, g9⟩ := form_spec cl W {} D [] cD rfl rfl rfl .nil (fun p hp => absurd hp List.not_mem_nil)
  set E := (formQueue cl W {} D).2 with hE
  set Q := (formQueue cl W {} D).1 with hQ
  have cE : Canonical E := (fr_form cl W {} D).canon cD
  have slotE : ∀ n, E.slot n = D.slot n := fun n => by unfold State.slot; rw [g7]
  have matE : ∀ n, E.matterAt n = D.matterAt n := fun n => by unfold State.matterAt; rw [g8]
  set F := E.settleAllLinks L with hF
  have h5 : LinkedTo (L.reverse ++ []) E F := linked_all E cE L [] E (fun n hn => ⟨((memL n).mp hn).1, List.not_mem_nil⟩)
    (sortL.imp fun h => Nat.ne_of_lt h) ⟨.rfl, fun _ _ => rfl, fun _ h => absurd h List.not_mem_nil⟩
  have cF : Canonical F := h5.sf.fr.canon cE
  have ixF : F.folio.index = B.folio.index := h5.sf.ix.trans (g9.trans (h4.ix.trans h3.ix))
  have matF : ∀ p, F.matterAt p = D.matterAt p := fun p => (h5.sf.mat p).trans (matE p)
  set T := F.removeEmpty F.folio.index with hT
  have h6 : Trimmed ((F.folio.index.map IndexEntry.place).reverse ++ []) F T :=
    trimmed_all F cF (fun e he => (h2.ix.each e (ixF ▸ he)).2.1) F.folio.index [] F (by rw [ixF]; exact h2.ix.sorted) (fun _ _ => List.not_mem_nil) (trimmed_zero F)
  have donePl : ∀ p, p ∈ (F.folio.index.map IndexEntry.place).reverse ++ [] ↔ ∃ e ∈ B.folio.index, e.place = p := fun p => by
    rw [ixF]; simp
  have slotT : ∀ n, T.slot n = F.slot n := fun n => by unfold State.slot; rw [h6.slot]
  have linkT : ∀ p, T.link p = E.link p := fun p => (h6.link p).trans (h5.sf.link p)
  refine ⟨T, (checkSlots K (A, 0)).2, Q, rfl, fun u hu1 hu2 hu3 => ?_⟩
  have slotU : ∀ n, u.slot n = F.slot n := fun n => (slot_congr hu1 n).trans (slotT n)
  have entU : ∀ n, u.slotEntry n = F.slotEntry n := fun n => (slotEntry_congr hu1 n).trans (h6.slot n)
  have matU : ∀ p, u.matterAt p = T.matterAt p := fun p => matterAt_congr hu1 p
  have linkU : ∀ p, u.link p = E.link p := fun p => (link_congr hu1 p).trans (linkT p)
  -- a slot outside the live list is as stage 2 left it
  have outU : ∀ n, n ∉ L → u.slotEntry n = B.slotEntry n := fun n hn => by
    rw [entU, h5.out n (.inl (by rw [inDone]; exact hn)), g7, h4.out n hn, h3.out n fun k => absurd k hn]
  have outUS : ∀ n, n ∉ L → u.slot n = B.slot n := fun n hn => by unfold State.slot; rw [outU n hn]
  -- every slot of u against D, C and B
  have vsD : ∀ n, u.slot n = { D.slot n with predecessor := (u.slot n).predecessor, successor := (u.slot n).successor } := fun n => by
    have := linked_slot h5 n
    rw [slotE] at this
    rw [slotU]; exact this
  have stD : ∀ n, (u.slot n).state = (D.slot n).state := fun n => by rw [vsD n]
  have vsB : ∀ n, u.slot n = { B.slot n with chainNext := (u.slot n).chainNext, state := (u.slot n).state, predecessor := (u.slot n).predecessor, successor := (u.slot n).successor } := fun n => by
    have e1 := vsD n
    have e2 := h4.slots n
    have e3 := h3.slots n
    rw [e3] at e2
    have hc : (u.slot n).chainNext = (D.slot n).chainNext := by rw [vsD n]
    have hst := stD n
    rw [hc, hst]
    rw [e2] at e1
    exact e1
  have filedL : ∀ n, n < 4096 → (u.slot n).state = .filed → n ∈ L := fun n hn k => by
    by_contra q
    rw [outUS n q] at k
    exact q ((memL n).mpr ⟨hn, live_of_filed k⟩)
  have stateL : ∀ n ∈ L, (u.slot n).state = .filed ∨ (u.slot n).state = .damaged := fun n hn => by
    rw [stD]
    rcases h4.state n with k | k
    · rw [k]
      exact (h3.state n hn).imp id fun q => q.1
    · exact .inr k.2.2.1
  have filedU : ∀ n, n < 4096 → (u.slot n).state = .filed → FoundLive s n ∧ u.slot n = { normalized (s.slot n) with place := (u.slot n).place, chainNext := (u.slot n).chainNext, predecessor := (u.slot n).predecessor, successor := (u.slot n).successor } := fun n hn k => by
    have hl := filedL n hn k
    obtain ⟨f1, e, e1, e2, e3⟩ := liveB n hl
    refine ⟨f1, ?_⟩
    have := vsB n
    rw [k, e3] at this
    have hp : (u.slot n).place = e.place := by rw [this]
    rw [hp]
    rw [this]
    have hst := norm_state (s.slot n)
    generalize normalized (s.slot n) = r at hst
    obtain ⟨⟩ := r
    dsimp only at hst
    subst hst
    rfl
  -- chains in D
  have chainsD : ∀ e ∈ B.folio.index, ∃ l, ChainAt L D e l := fun e he => h4.chains e (by rw [h3.ix]; exact he)
  have matD : ∀ p, (D.matterAt p).number = (B.matterAt p).number ∧ (D.matterAt p).holdCount = (B.matterAt p).holdCount := fun p =>
    ⟨(h4.num p).1.trans (h3.num p).1, (h4.num p).2.trans (h3.num p).2⟩
  have emptyF : ∀ e ∈ B.folio.index, Empty F e.place ↔ (D.matterAt e.place).recordCount = 0 ∧ (D.matterAt e.place).holdCount = 0 := fun e he => by
    unfold Empty; rw [matF, (matD _).1]
    exact ⟨fun k => k.2, fun k => ⟨numB e he, k⟩⟩
  have memU : ∀ e, e ∈ u.folio.index ↔ e ∈ B.folio.index ∧ ¬ Empty F e.place := fun e => by
    rw [hu2, h6.mem e]
    constructor
    · rintro ⟨he, k | k⟩
      · exact absurd ((donePl _).mpr ⟨e, ixF ▸ he, rfl⟩) k
      · exact ⟨ixF ▸ he, k⟩
    · rintro ⟨he, k⟩; exact ⟨ixF.symm ▸ he, .inr k⟩
  have matKept : ∀ p, ¬ Empty F p → u.matterAt p = D.matterAt p := fun p k => by rw [matU, h6.kept p (.inr k), matF]
  -- a filed record's matter stays
  have matterOf : ∀ n, n ∈ L → (u.slot n).state = .filed → ∃ e ∈ u.folio.index, e.matter = (u.slot n).matter ∧ e.place = (u.slot n).place := fun n hn k => by
    obtain ⟨_, e, e1, e2, e3⟩ := liveB n hn
    have hv := vsB n
    have hm : (u.slot n).matter = (s.slot n).matter := by rw [hv, e3]; exact norm_matter _
    have hp : (u.slot n).place = e.place := by rw [hv, e3]
    obtain ⟨l, hl⟩ := chainsD e e1
    have hmD : (D.slot n).matter = (u.slot n).matter := by rw [vsD n]
    have hnl : n ∈ l := (hl.mem n).mpr ⟨hn, by rw [← stD]; exact k, by rw [hmD, hm]; exact e2.symm⟩
    refine ⟨e, (memU e).mpr ⟨e1, fun q => ?_⟩, e2.trans hm.symm, hp.symm⟩
    have := ((emptyF e e1).mp q).1
    rw [hl.count] at this
    exact absurd (List.length_eq_zero_iff.mp this ▸ hnl) List.not_mem_nil
  -- sources of the index
  have oldA : ∀ p m, Accepts s p m → (⟨m, p, false⟩ : IndexEntry) ∈ A.folio.index := fun p m h => by
    obtain ⟨a, b, d⟩ := (accepts_iff s p m).mp h
    exact (h1.mem _).mpr ⟨by show p < P; omega, b, rfl, d.symm⟩
  have accA : ∀ e ∈ A.folio.index, Accepts s e.place e.matter := fun e he => by
    obtain ⟨a, b, _, d⟩ := (h1.mem e).mp he
    exact (accepts_iff _ _ _).mpr ⟨by omega, b, d.symm⟩
  have holdA : ∀ e ∈ A.folio.index, B.matterAt e.place = s.matterAt e.place := fun e he => by
    obtain ⟨a, b, _, d⟩ := (h1.mem e).mp he
    have k1 : A.placeEntry e.place = s.placeEntry e.place := h1.kept _ a b
    have k2 : (A.matterAt e.place).number ≠ 0 := by unfold State.matterAt; rw [k1]; exact b.1.1
    unfold State.matterAt; rw [h2.old _ k2, k1]
  refine ⟨⟨fun n hn => ?_, ⟨fun e he => ?_, ?_, fun p hp hnum => ?_, fun p m hacc => ?_, fun n hn k => ?_⟩, fun e he => ?_, ?_, fun n hn k => ?_, fun n hs => ?_, fun e he stored hst => ?_⟩, ?_⟩
  · -- SlotsSettled
    obtain ⟨y1, y2, y3, y4⟩ := sA n
    obtain ⟨x1, x2, x3, x4, x5⟩ := h2.done n (by omega)
    rw [y1] at x1 x2; rw [y2] at x2 x3 x4; rw [y4] at x2 x3 x4
    have notL : ∀ x : RecordState, (B.slot n).state = x → x.live = false → n ∉ L := fun x h1 h2 h3 => by
      have := ((memL n).mp h3).2
      rw [h1, h2] at this; exact absurd this (by decide)
    refine ⟨fun b => ?_, fun b k => ?_, fun k d => ?_, fun k d1 d2 d3 => ?_, fun k => ?_, fun k => filedU n hn k⟩
    · rw [outUS n (notL _ rfl (by rw [x1 b]; rfl))]; exact x1 b
    · rw [outUS n (notL _ rfl (by rw [x2 b k]; rfl))]; exact x2 b k
    · have : (B.slot n).state = (s.slot n).state := by unfold State.slot; rw [x3 k d, h1.slots]
      rw [outU n (notL _ this (by rcases d with d | d <;> rw [d] <;> rfl)), x3 k d, h1.slots]
    · rw [outUS n (notL _ rfl (by rw [x4 k d1 d2 d3]; rfl))]; exact x4 k d1 d2 d3
    · by_cases hl : n ∈ L
      · exact stateL n hl
      · right
        rw [outUS n hl]
        rcases x5 (y3.mpr k) with ⟨e, _, _, e3⟩ | ⟨_, _, _, e3⟩
        · exact absurd ((memL n).mpr ⟨hn, by rw [e3]; exact live_of_filed (norm_state _)⟩) hl
        · rw [e3]
  · -- DirectorySettled, entries
    obtain ⟨hb, hne⟩ := (memU e).mp he
    obtain ⟨k1, k2, k3, k4⟩ := h2.ix.each e hb
    have hm := matKept _ hne
    refine ⟨k1, k2, k3, by rw [hm, (matD _).1]; exact k4, ?_, ?_⟩
    · rw [hm]
      have : ¬ ((D.matterAt e.place).recordCount = 0 ∧ (D.matterAt e.place).holdCount = 0) := fun q => hne ((emptyF e hb).mpr q)
      omega
    · rw [hm, (matD _).2]
      rcases h2.new e hb with q | ⟨q1, q0, q2, _⟩
      · exact .inl ⟨accA e q, by rw [holdA e q]⟩
      · exact .inr ⟨fun p hp => q1 _ (oldA p _ hp) rfl, by rw [q2]⟩
  · rw [hu2]
    refine List.Pairwise.sublist h6.sub ?_
    rw [ixF]
    refine h2.ix.sorted.imp_of_mem fun {a b} ha hb k => ⟨k, fun q => ?_⟩
    have := congrArg IndexEntry.place (h2.ix.uniq a ha b hb q); omega
  · have hne : ¬ Empty F p := fun k => by
      have hnB : (B.matterAt p).number ≠ 0 := by rw [← (matD p).1, ← matF]; exact k.1
      have := h2.ix.all p hp hnB
      rw [matU, h6.gone p ((donePl p).mpr this) k] at hnum
      exact hnum rfl
    have hnB : (B.matterAt p).number ≠ 0 := by rw [← (matD p).1, ← matKept p hne]; exact hnum
    obtain ⟨e, he, hep⟩ := h2.ix.all p hp hnB
    exact ⟨e, (memU e).mpr ⟨he, by rw [hep]; exact hne⟩, hep⟩
  · have ha := oldA p m hacc
    have hb := h2.sub _ ha
    by_cases hne : Empty F p
    · right
      obtain ⟨q1, q2⟩ := (emptyF _ hb).mp hne
      have hmt := holdA _ ha
      dsimp only at q1 q2 hmt
      refine ⟨by rw [← hmt, ← (matD p).2]; exact q2, fun n hn k hm => ?_⟩
      obtain ⟨l, hl⟩ := chainsD _ hb
      have hmD : (D.slot n).matter = (u.slot n).matter := by rw [vsD n]
      have hnl : n ∈ l := (hl.mem n).mpr ⟨filedL n hn k, by rw [← stD]; exact k, hmD.trans hm⟩
      have := hl.count
      dsimp only at this
      rw [q1] at this
      exact absurd (List.length_eq_zero_iff.mp this.symm ▸ hnl) List.not_mem_nil
    · exact .inl ⟨_, (memU _).mpr ⟨hb, hne⟩, rfl, rfl⟩
  · exact matterOf n (filedL n hn k) k
  · -- ChainsSettled
    obtain ⟨hb, hne⟩ := (memU e).mp he
    have hm := matKept _ hne
    obtain ⟨l, hl⟩ := chainsD e hb
    have hmatD : ∀ n, (u.slot n).matter = (D.slot n).matter := fun n => by rw [vsD n]
    have hseqD : ∀ n, (u.slot n).sequence = (D.slot n).sequence := fun n => by rw [vsD n]
    refine ⟨l, ?_, by rw [hm]; exact hl.count, by rw [hm]; exact hl.tail, ?_, fun n => ?_, fun n hn => by rw [hm, hseqD]; exact hl.next n hn⟩
    · rw [hm]; exact chainFrom_congr l _ (fun n _ => by rw [vsD n]) hl.chain
    · exact hl.sorted.imp fun k => by rw [hseqD, hseqD]; exact k
    · rw [hl.mem, stD, hmatD]
      constructor
      · rintro ⟨a, b⟩; exact ⟨((memL n).mp a).1, b⟩
      · rintro ⟨a, b, d⟩; exact ⟨filedL n a (by rw [stD]; exact b), b, d⟩
  · -- PlatesSettled
    obtain ⟨own, o1, o2, o3⟩ := h4.owned
    have dn : ∀ n, n < 4096 → (u.slot n).state = .filed → n ∈ L.reverse ++ [] ∧ (D.slot n).state = .filed := fun n hn k =>
      ⟨(inDone n).mpr (filedL n hn k), by rw [← stD]; exact k⟩
    refine ⟨g, own, ?_, by rw [hu3]; exact g2, by rw [hu3]; exact g3, g4, fun n hn k => ?_, fun m n hm hn k1 k2 hmn => ?_, fun p => ?_⟩
    · rw [hu3]; exact platesTo_congr g _ (fun p _ => by rw [linkU]) g1
    · obtain ⟨q1, q2⟩ := dn n hn k
      obtain ⟨a1, a2, a3, a4, _⟩ := o1 n q1 q2
      have e1 : (u.slot n).plateHead = (D.slot n).plateHead := by rw [vsD n]
      have e2 : (u.slot n).plateCount = (D.slot n).plateCount := by rw [vsD n]
      have e3 : (u.slot n).plateTail = (D.slot n).plateTail := by rw [vsD n]
      rw [e1, e2, e3]
      refine ⟨platesTo_congr _ _ (fun p hp => ?_) a1, a2, a3, a4⟩
      rw [linkU, g6 p (.inr ((o3 p).mpr ⟨n, q1, q2, hp⟩))]
    · exact o2 m (dn m hm k1).1 n (dn n hn k2).1 (dn m hm k1).2 (dn n hn k2).2 hmn
    · rw [g5, hW]
      simp only [List.not_mem_nil, or_false]
      refine and_congr_right fun _ => ?_
      constructor
      · intro hf n hn k hp
        rw [(o3 p).mpr ⟨n, (dn n hn k).1, (dn n hn k).2, hp⟩] at hf
        exact absurd hf (by decide)
      · intro h
        by_contra hc
        obtain ⟨n, q1, q2, q3⟩ := (o3 p).mp (by simpa using hc)
        have hl := (inDone n).mp q1
        exact h n ((memL n).mp hl).1 (by rw [stD]; exact q2) q3
  · -- LinksSettled
    have hl := filedL n hn k
    have hstE : (E.slot n).state.live = true := by rw [slotE, ← stD, k]; rfl
    have hlink := h5.done n ((inDone n).mpr hl) hstE
    have genU : ∀ m, (u.slot m).generation = (E.slot m).generation := fun m => by rw [vsD m, slotE]
    have hfol : (E.slot n).folio n = folioNumber u n := by
      unfold Record.folio folioNumber folioOf word; rw [genU]
    have s1 : (u.slot n).successor = ks E n := by rw [slotU, hlink]
    have p1 : (u.slot n).predecessor = kp E n := by rw [slotU, hlink]
    have sB : ∀ m ∈ L, (E.slot m).successor = (s.slot m).successor ∧ (E.slot m).predecessor = (s.slot m).predecessor := fun m hm => by
      obtain ⟨_, e, _, _, e3⟩ := liveB m hm
      have := h4.slots m
      rw [h3.slots m, e3] at this
      rw [slotE, this]
      exact ⟨norm_succ _, norm_pred _⟩
    have names : ∀ f q, E.resolve f = .ok q → slotOf f ∈ L ∧ (E.slot (slotOf f)).state.live = true ∧
        Names u f (u.slot (slotOf f)) ∧ (E.slot (slotOf f)).generation = generationOf f ∧ E.slot (slotOf f) = q := fun f q h => by
      obtain ⟨a1, a2, a3⟩ := (resolve_ok _ _ _).mp h
      have hlv : (E.slot (slotOf f)).state.live = true := by rw [a1]; exact a3
      have hst : (u.slot (slotOf f)).state = (E.slot (slotOf f)).state := by rw [stD, slotE]
      have hmem : slotOf f ∈ L := by
        by_contra q
        have := outUS _ q
        rw [← hst, this] at hlv
        exact q ((memL _).mpr ⟨slotOf_lt f, hlv⟩)
      refine ⟨hmem, hlv, ⟨rfl, ?_, ?_⟩, by rw [a1]; exact a2, a1⟩
      · rw [genU, a1]; exact a2
      · rcases stateL _ hmem with q | q
        · exact .inr (.inr q)
        · rw [← hst, q] at hlv; exact absurd hlv (by decide)
    have linkM : ∀ m, m ∈ L → (E.slot m).state.live = true → (u.slot m).successor = ks E m ∧ (u.slot m).predecessor = kp E m := fun m h1 h2 => by
      have := h5.done m ((inDone m).mpr h1) h2
      rw [slotU, this]; exact ⟨rfl, rfl⟩
    have hn' : n < 4096 := hn
    refine ⟨fun f hf => ?_, fun f hf => ?_, fun f q hf hnm hb => ?_⟩
    · rw [s1] at hf
      obtain ⟨k1, q, k2, k3⟩ := (kept_some _ _ _ _ _).mp hf
      obtain ⟨m1, m2, m3, m4, m5⟩ := names f q k2
      refine ⟨by rw [← (sB n hl).1]; exact k1, _, m3, ?_⟩
      rw [(linkM _ m1 m2).2, ← hfol]
      refine (mutual_iff E n (slotOf f) Record.successor Record.predecessor f hn' hstE rfl m4 k1).mpr ?_
      rw [m5]; exact k3
    · rw [p1] at hf
      obtain ⟨k1, q, k2, k3⟩ := (kept_some _ _ _ _ _).mp hf
      obtain ⟨m1, m2, m3, m4, m5⟩ := names f q k2
      refine ⟨by rw [← (sB n hl).2]; exact k1, _, m3, ?_⟩
      rw [(linkM _ m1 m2).1, ← hfol]
      refine (mutual_iff E n (slotOf f) Record.predecessor Record.successor f hn' hstE rfl m4 k1).mpr ?_
      rw [m5]; exact k3
    · obtain ⟨n1, n2, n3⟩ := hnm
      have n1 : u.slot (slotOf f) = q := n1
      have hres : E.resolve f = .ok (E.slot (slotOf f)) := by
        rw [resolve_ok]
        refine ⟨rfl, ?_, ?_⟩
        · rw [← genU, n1]; exact n2
        · have hst : (u.slot (slotOf f)).state = (E.slot (slotOf f)).state := by rw [stD, slotE]
          rw [← hst, n1]
          rcases n3 with k | k | k <;> rw [k] <;> rfl
      obtain ⟨m1, m2, m3, m4, m5⟩ := names f _ hres
      have hEs : (E.slot n).successor = some f := by rw [(sB n hl).1]; exact hf
      have hEp : (E.slot (slotOf f)).predecessor = some ((E.slot n).folio n) := by
        rw [(sB _ m1).2, hfol]; exact hb
      refine ⟨?_, ?_⟩
      · rw [s1]
        exact (kept_some _ _ _ _ _).mpr ⟨hEs, _, hres, hEp⟩
      · rw [← n1, (linkM _ m1 m2).2, ← hfol]
        exact (mutual_iff E n (slotOf f) Record.successor Record.predecessor f hn' hstE rfl m4 hEs).mpr hEp
  · -- a record against which nothing speaks
    obtain ⟨hfl, ⟨p, hp⟩, hseq, w, ⟨w1, w1'⟩, w2, w3, w4⟩ := hs
    have hn := hfl.1
    obtain ⟨y1, y2, y3, y4⟩ := sA n
    obtain ⟨_, _, _, _, x5⟩ := h2.done n (by omega)
    have hl : n ∈ L := by
      rcases x5 (y3.mpr hfl) with ⟨e, _, _, e3⟩ | ⟨q1, q2, q3, _⟩
      · exact (memL n).mpr ⟨hn, by rw [e3]; exact live_of_filed (norm_state _)⟩
      · exfalso
        rw [y4] at q1
        rcases hp with hp | ⟨hp1, hp2, hp3⟩
        · exact q1 _ (h2.sub _ (oldA p _ hp)) rfl
        · obtain ⟨e, he, hep⟩ := h2.ix.all p hp1 (q2 p hp1)
          rcases q3 e he with k | ⟨k1, m, k2, k3, k4⟩
          · exact hp2 e.matter (hep ▸ accA e k)
          · rw [(sA m).2.2.2] at k4
            rcases hp3 m k2 ((sA m).2.2.1.mp k3) with k | ⟨q, k⟩
            · exact q1 e he (k4.symm.trans k)
            · exact k1 _ (oldA q _ k) k4
    rw [stD]
    have hC : (C.slot n).state = .filed := by
      rcases h3.state n hl with k | ⟨_, m, m1, m2, m3, m4⟩
      · exact k
      · exfalso
        rw [matB m m1, matB n hl] at m3
        rw [seqB m m1, seqB n hl] at m4
        exact hseq m m2 (liveB m m1).1 m3 m4
    rcases h4.state n with k | ⟨_, _, _, k⟩
    · rw [k]; exact hC
    · refine absurd ?_ k
      obtain ⟨_, _, f3, f4, f5, _⟩ := fldC n hl
      refine ⟨w, ?_, by rw [f5]; exact w1', w2, by rw [f4]; exact w3, fun m hm hmn _ w' hw1 hw2 => ?_⟩
      · rw [f3]; exact platesFrom_congr w _ (fun p _ => linkC p) w1
      · obtain ⟨_, _, f3', _, f5', _⟩ := fldC m hm
        rw [f3'] at hw1; rw [f5'] at hw2
        exact w4 m w' hmn (liveB m hm).1 ⟨platesFrom_congr w' _ (fun p _ => (linkC p).symm) hw1, hw2⟩
  · -- SequencesSettled
    obtain ⟨hb, hne⟩ := (memU e).mp he
    have hm := matKept _ hne
    have hnx : (u.matterAt e.place).nextSequence = (C.matterAt e.place).nextSequence := by rw [hm, h4.next]
    have hstored : stored = (B.matterAt e.place).nextSequence := by
      rcases h2.new e hb with q | ⟨q1, q0, q2, _⟩
      · rcases hst with ⟨_, k⟩ | ⟨k, _⟩
        · rw [holdA e q]; exact k
        · exact absurd (accA e q) (k _)
      · rcases hst with ⟨k, _⟩ | ⟨_, k⟩
        · exact (q1 ⟨e.matter, e.place, false⟩ (oldA _ _ k) rfl).elim
        · rw [q2, k]; rfl
    have found : ∀ n, FoundLive s n ∧ (s.slot n).matter = e.matter ↔ n ∈ L ∧ (B.slot n).matter = e.matter := fun n => by
      constructor
      · rintro ⟨k1, k2⟩
        obtain ⟨y1, y2, y3, y4⟩ := sA n
        have hn := k1.1
        obtain ⟨_, _, _, _, x5⟩ := h2.done n (by omega)
        have hl : n ∈ L := by
          rcases x5 (y3.mpr k1) with ⟨f, _, _, e3⟩ | ⟨q1, _⟩
          · exact (memL n).mpr ⟨hn, by rw [e3]; exact live_of_filed (norm_state _)⟩
          · rw [y4] at q1; exact absurd k2.symm (q1 e hb)
        exact ⟨hl, (matB n hl).trans k2⟩
      · rintro ⟨k1, k2⟩
        exact ⟨(liveB n k1).1, (matB n k1).symm.trans k2⟩
    obtain ⟨z1, z2⟩ := h3.seqs e (by simpa using hb)
    rw [← hnx, ← hstored] at z1
    rw [← hnx, ← hstored] at z2
    refine ⟨fun k => z1 fun n hn q => k n ((found n).mpr ⟨hn, q⟩), fun n hn hmax => ?_⟩
    obtain ⟨hl, hmn⟩ := (found n).mp hn
    have := z2 n hl hmn fun m hm1 hm2 => by
      rw [seqB m hm1, seqB n hl]; exact hmax m ((found m).mpr ⟨hm1, hm2⟩)
    rw [seqB n hl] at this
    exact this
  · -- the matters recreated
    have hA' : ∀ e ∈ A.folio.index, e ∈ B.folio.index := h2.sub
    have ndA : A.folio.index.Nodup := h1.sorted.imp fun h k => by subst k; exact Nat.lt_irrefl _ h
    have ndB : B.folio.index.Nodup := h2.ix.sorted.imp fun h k => by subst k; exact Nat.lt_irrefl _ h
    have hcount := recreated_count K (A, 0)
    refine ⟨(B.folio.index.filter fun e => e ∉ A.folio.index).map IndexEntry.matter, ?_, ?_, fun m => ?_⟩
    · refine List.Nodup.map_on (fun a ha b hb k => h2.ix.uniq a (List.mem_filter.mp ha).1 b (List.mem_filter.mp hb).1 k) (ndB.filter _)
    · rw [List.length_map]
      have hp : (A.folio.index ++ B.folio.index.filter fun e => e ∉ A.folio.index).Perm B.folio.index := by
        refine (List.perm_ext_iff_of_nodup ?_ ndB).mpr fun x => ?_
        · refine List.nodup_append.mpr ⟨ndA, ndB.filter _, fun a ha b hb k => ?_⟩
          subst k
          have := (List.mem_filter.mp hb).2
          simp at this; exact this ha
        · rw [List.mem_append, List.mem_filter]
          constructor
          · rintro (k | k)
            · exact hA' x k
            · exact k.1
          · intro k
            by_cases q : x ∈ A.folio.index
            · exact .inl q
            · exact .inr ⟨k, by simpa using q⟩
      have := hp.length_eq
      rw [List.length_append] at this
      dsimp only at hcount
      rw [← hB] at hcount
      omega
    · rw [List.mem_map]
      constructor
      · rintro ⟨e, he, rfl⟩
        obtain ⟨hb, hna⟩ := List.mem_filter.mp he
        have hna : e ∉ A.folio.index := by simpa using hna
        rcases h2.new e hb with q | ⟨q1, q0, q2, _⟩
        · exact absurd q hna
        · refine ⟨⟨e, (memU e).mpr ⟨hb, fun k => ?_⟩, rfl⟩, fun p hp => q1 _ (oldA p _ hp) rfl⟩
          have := ((emptyF e hb).mp k).2
          rw [(matD _).2, q2] at this
          exact Nat.one_ne_zero this
      · rintro ⟨⟨e, he, rfl⟩, hno⟩
        obtain ⟨hb, _⟩ := (memU e).mp he
        exact ⟨e, List.mem_filter.mpr ⟨hb, by simpa using fun q => hno _ (accA e q)⟩, rfl⟩

end Sys2Proof.Laws.Rebuild
end

