-- ==== Sys2Proof/Tests/Slice0.lean ====
section
/-! SUPPORT. The model's own tests: an ill-formed term for each check of well-formedness, worked examples of
the manual, one small step here and there, and for every statement with hypotheses a state and operands that
meet them together. -/

namespace Sys2Proof.Tests

open Sys2Proof.Machine Sys2Proof.Safety Sys2Proof.Claims

/-! ## Well-formedness: what each check refuses -/

/-- A write to PORT CONTROL with bit 0 at 0 is no CLEAR OVERRUN. -/
theorem test_clear_overrun_needs_bit_0 : (Instr.clearOverrun 0xFFFE).wellFormed = false := by decide
/-- A write to PORT CONTROL with bit 0 at 1 has an effect. -/
theorem test_no_effect_refuses_bit_0 :
    (Instr.writeNoEffect .portControl 1).wellFormed = false := by decide
theorem test_load_terms_needs_a_term : (Instr.loadTerms 0 0 []).wellFormed = false := by decide
theorem test_load_terms_refuses_seven :
    (Instr.loadTerms 0 0 [0, 0, 0, 0, 0, 0, 0]).wellFormed = false := by decide
theorem test_set_path_needs_a_value : (Instr.setPath 0 0 []).wellFormed = false := by decide
theorem test_set_path_refuses_seven :
    (Instr.setPath 0 0 [0, 0, 0, 0, 0, 0, 0]).wellFormed = false := by decide

/-! ## Small states -/

/-- The part with the rebuild behind it and nothing in record memory. -/
def up : State := { port.starting := false }

/-- The part with so many words in its reply FIFO. -/
def answered (n : Nat) (s : State) : State := { s with port.replies := List.replicate n 0 }

/-- The part with words in its request FIFO. -/
def asked (ws : List Word) (s : State) : State := { s with port.requests := ws }

/-- The part with so many notices waiting. -/
def noticed (n : Nat) (s : State) : State :=
  { s with port.notices := List.replicate n (.ready 0 0 0 0) }

/-- What a command leaves; the state itself where it stops. -/
def ran (i : Instr) (s : State) : State :=
  match exec i s with
  | .next t => t
  | _ => s

/-- A filed record with two pages on two plates. -/
def filedRecord : Record :=
  { generation := 3, state := .filed, matter := 5000, place := 1, sequence := 1, cls := 2,
    tags := ⟨true, false, false, true⟩, tray := some 0, box := 77, pageCount := 2, sideCount := 2,
    shelved := 2, firstPosition := some 5, lastPosition := some 6, plateHead := some 9,
    plateTail := some 10, plateCount := 2, digest := 0xABCD1234, retention := 100,
    chainNext := some 2, exceptions := [⟨1, .skewUncorrected, 0⟩] }

/-- Two matters and a slot for each case: 1 and 2 FILED in one chain, 3 ASSEMBLING, 4 DAMAGED, 5 held as
often as can be, 6 FILING, 7 SHED, 8 resident without a plate. Matter 6000 has the most holds; matter 7000
has one hold and no record. -/
def shelf : State :=
  { up with
    record.slots := [(1, ⟨filedRecord, 0⟩),
      (2, ⟨{ filedRecord with sequence := 3, chainNext := none, generation := 0 }, 0⟩),
      (3, ⟨{ generation := 1, state := .assembling, matter := 5000, place := 1, sequence := 4,
             tray := some 3, pageCount := 2, outstanding := 1 }, 0⟩),
      (4, ⟨{ generation := 15, state := .damaged }, 0⟩),
      (5, ⟨{ filedRecord with holdCount := 7, matter := 6000, place := 2 }, 0⟩),
      (6, ⟨{ filedRecord with state := .filing }, 0⟩),
      (7, ⟨{ filedRecord with image := .shed, plateHead := none, plateTail := none, plateCount := 0 }, 0⟩),
      (8, ⟨{ filedRecord with plateHead := none, plateTail := none, plateCount := 0 }, 0⟩),
      (9, ⟨{ filedRecord with state := .assembling, pageCount := 2, outstanding := 0 }, 0⟩)]
    record.directory := [(1, ⟨⟨5000, 2, 5, some 1, some 2, 0⟩, 0⟩),
      (2, ⟨⟨6000, 1, 2, some 5, some 5, 15⟩, 0⟩), (3, ⟨⟨7000, 0, 1, none, none, 1⟩, 0⟩),
      (4, ⟨⟨8000, 1, 0, none, none, 0⟩, 0⟩)]
    record.links := [(9, ⟨some 10, 7, 8, true, .front⟩), (10, ⟨none, 8, 8, true, .front⟩)]
    folio.index := [⟨5000, 1, false⟩, ⟨6000, 2, false⟩, ⟨7000, 3, false⟩, ⟨8000, 4, false⟩]
    folio.freeSlots := 4087
    images.free := ⟨some 20, some 21, 2⟩ }

/-- A directory with a matter at each of its 256 places. -/
def crowded : State :=
  { shelf with
    record.directory := (List.range 256).map fun p => (p, ⟨⟨BitVec.ofNat 32 (p + 1), 1, 2, none, none, 0⟩, 0⟩)
    folio.index := [] }

/-- Every function enabled; L12 to L17 outputs. -/
def wiredLines : Lines :=
  { settings := Vector.ofFn fun l => ⟨decide (12 ≤ l.val ∧ l.val ≤ 17), false, false, true, true⟩ }

/-- A batch that runs, with these sheets in the path. -/
def rolling (travel : Long) (train : List Ticket) : State :=
  { shelf with
    lines := wiredLines
    batch := { state := .running, matter := 5000 }
    tracker := { travel := travel, nextOrdinal := 7, train := train, stallTimer := some 50 } }

/-- A sheet that has just entered. -/
def entered : Ticket :=
  { ordinal := 1, entry := 1000, armed := { entryTrailing := true, firstEdge := true, scanLeading := true } }

/-- A sheet of length 4000 whose edges have been taken. -/
def gauged : Ticket :=
  { ordinal := 1, entry := 1000, length := some 4000, delta := some (-16), stage := .gauged,
    armed := { scanLeading := true } }

/-- A sheet on its way to tray 4 as page 2 of the open record of slot 3. -/
def routed : Ticket :=
  { ordinal := 1, entry := 1000, length := some 4000, delta := some 0, stage := .decided, path := some 3,
    frontDone := true, decision := some ⟨some 3, some ⟨0x31, 2⟩, none, {}, none⟩,
    armed := { exitLeading := true, exitTrailing := true } }

/-- A sheet to be rejected. -/
def turned : Ticket :=
  { routed with path := none, decision := some ⟨none, none, some .imageLost, {}, none⟩ }

/-- A page that goes to the reject tray because its gate was busy. -/
def strayed : Ticket :=
  { routed with path := none, decision := some ⟨some 3, some ⟨0x31, 2⟩, none, {}, some .gateBusy⟩ }

/-! ## Worked examples of the manual -/

/-- LOOKUP of folio 0090h with tag 3 is 1023h, 0090h, and its reply header 0483h; VERIFY with tag 5 is 5325h,
and its reply header 0805h (R188). -/
theorem test_header_examples :
    requestWords (.lookup 3 0x90) = some [0x1023, 0x90] ∧
    (replyWords 0 3 (List.replicate 18 0)).head? = some 0x0483 ∧
    (requestWords (.verify 5 0x90)).map List.head? = some (some 0x5325) ∧
    replyWords 1 5 [] = [0x0805] := by decide

/-- The list of the worked evaluation (04). -/
def panelList : List Word :=
  [0x0105, 0x1200, 0x0106, 0x0307, 0x1103, 0x0101, 0x1900, 0x012C, 0x1700, 0x0120, 0x012D, 0x1600] ++
  [0x0109, 0x0D01, 0x0100, 0x1000, 0x0118, 0x0B00, 0x0113, 0x0F04, 0x0118, 0x1901, 0x0C00, 0x0E01, 0]

/-- The part with a term list loaded from place 0, in a duplex batch, switch 0 held and tray 4 eligible. -/
def listed (list : List Word) : State :=
  { up with
    evaluator.terms := storeTerms 0 list (Vector.replicate 64 0)
    batch.duplex := true
    lines := { settings := Vector.ofFn fun l => ⟨false, false, false, true, decide (22 ≤ l.val)⟩,
               board := (Vector.replicate 24 .low).set 22 .high }
    assembler.trays := (Vector.replicate 4 {}).set 3 ⟨true, 9, 2000, 2000, 0, 0⟩ }

/-- CHECK TERMS answers 25 places, depth 2 and one gate region (04, worked evaluation). -/
theorem test_panel_list_is_valid :
    (ran (.checkTerms 0) (listed panelList)).port.replies =
      [0x0080, pack [(7, 25)], pack [(4, 2), (3, 1)]] := by decide +kernel

/-- Sheet 1 of the worked evaluation: blank on the back only, double-fed, no document open. -/
def firstSheet : Evaluator :=
  (listed panelList).evaluate { ordinal := 1, entry := 0, flags := { doubleFeed := true, blankBack := true } }

theorem test_worked_evaluation_sheet_1 :
    firstSheet.outcome = ⟨false, none, .tray 3, false⟩ ∧ firstSheet.tags = ⟨true, true, false, false⟩ ∧
    firstSheet.latches[0] = true ∧ firstSheet.pulses[0] = true ∧ firstSheet.memories[0] = true ∧
    firstSheet.stack = [] ∧ firstSheet.gates = [] := by decide +kernel

/-- Sheet 2 of the worked evaluation: clean, with the document of sheet 1 open. -/
def secondSheet : Evaluator :=
  { listed panelList with evaluator := firstSheet, assembler.openDocument := some ⟨0, 3⟩ }.evaluate
    { ordinal := 2, entry := 0 }

theorem test_worked_evaluation_sheet_2 :
    secondSheet.outcome = {} ∧ secondSheet.tags = ⟨false, true, false, false⟩ ∧
    secondSheet.latches[0] = true ∧ secondSheet.pulses[0] = false ∧ secondSheet.memories[0] = true := by
  decide +kernel

/-! ## One small step -/

/-- A request that arrives while STARTING is set is answered STARTING, code 19. -/
theorem test_starting_reply :
    (ran .takeRequest (asked [0x1023, 0x90] State.reset)).port.replies = [0x9803] := by decide +kernel

/-- LOOKUP of a FREE slot answers NOT FOUND, code 2. -/
theorem test_lookup_not_found :
    (ran (.lookup 3 0x90) up).port.replies = [0x1003] := by decide +kernel

/-- HOLD of folio 0013h: OK with one result word, the new count in its top three bits. -/
theorem test_hold_replies :
    (ran (.hold 1 0x13) shelf).port.replies = [0x0041, 0x2000] ∧
    ((ran (.hold 1 0x13) shelf).slot 1).holdCount = 1 := by decide +kernel

/-- REFILE of slot 1 into matter 6000: sequence 2 there, and slot 2 now heads matter 5000. -/
theorem test_refile_moves :
    (ran (.refile 1 0x13 6000) shelf).port.replies = [0x0041, 2] ∧
    ((ran (.refile 1 0x13 6000) shelf).matterAt 1).head = some 2 ∧
    ((ran (.refile 1 0x13 6000) shelf).matterAt 2).tail = some 1 ∧
    ((ran (.refile 1 0x13 6000) shelf).slot 5).chainNext = some 1 := by decide +kernel

/-- RETIRE returns the two plates of slot 1 behind the two that are free. -/
theorem test_retire_returns_plates :
    (ran (.retire 1 0x13 100) shelf).images.free = ⟨some 20, some 10, 4⟩ ∧
    ((ran (.retire 1 0x13 100) shelf).link 21).next = some 9 ∧
    ((ran (.retire 1 0x13 100) shelf).slot 1) = { generation := 4 } ∧
    (ran (.retire 1 0x13 100) shelf).folio.freeSlots = 4088 := by decide +kernel

/-- A seventh sheet is TRAIN OVERRUN: the batch halts, and its notice names L0 and six tickets. -/
theorem test_train_overrun :
    (ran .entryLeadingEdge (rolling 5000 (List.replicate 6 entered))).batch.state = .halted ∧
    (ran .entryLeadingEdge (rolling 5000 (List.replicate 6 entered))).port.notices =
      [.jam .trainOverrun (some 0) none 6] := by decide +kernel

/-- Two edges at one travel count give a difference of 0. -/
theorem test_second_edge_measures :
    (ran (.edgeSensorLeadingEdge .b) (ran (.edgeSensorLeadingEdge .a) (rolling 1400 [entered]))).tracker.train.map
      Ticket.delta = [some 0] := by decide +kernel

/-- A page delivered at tray 4 leaves the train, and its record knows the box position. -/
theorem test_delivery :
    (ran (.exitTrailingEdge (.tray 3)) (rolling 18200 [routed])).tracker.train = [] ∧
    ((ran (.exitTrailingEdge (.tray 3)) (rolling 18200 [routed])).slot 3).shelved = 1 ∧
    ((ran (.exitTrailingEdge (.tray 3)) (rolling 18200 [routed])).slot 3).firstPosition = some 1 := by
  decide +kernel

/-- A step takes the front of the queue only. -/
theorem test_step_takes_the_front :
    (match step { up with pending := [.requestWord 5, .requestWord 6] } with
      | .next t => decide (t.port.requests = [5] ∧ t.pending = [.requestWord 6])
      | _ => false) = true := by decide

/-! ## Hypotheses met: the step, resets and the port -/

theorem test_meets_StepRunsFront :
    ({ up with pending := [.portStatus, .ready] }).pending = .portStatus :: [.ready] ∧
    up.pending = [] := by decide

/-- A state that meets the three invariants and from which a step writes record memory. -/
def holding : State := { shelf with pending := [.hold 1 0x13] }

theorem test_meets_CanonicalKept :
    Canonical holding ∧ ∃ t, step holding = .next t ∧ t.record ≠ holding.record :=
  ⟨⟨by decide, by decide⟩, ran (.hold 1 0x13) { holding with pending := [] }, rfl, by decide +kernel⟩

theorem test_meets_BoundedKept :
    Bounded (asked (List.replicate 32 0) (noticed 16 (rolling 5000 (List.replicate 6 entered)))) :=
  ⟨by decide, by decide, by decide, .refl _⟩

theorem test_meets_LegalKept :
    Legal (rolling 5000 [entered]) ∧
    Legal { up with batch := { state := .halted, haltCause := some .jam, kept := List.replicate 2 (.ready 0 0 0 0) },
                    tracker.stopped := true } :=
  ⟨⟨rfl, rfl, rfl, rfl, rfl, rfl⟩, ⟨rfl, rfl, by decide, rfl, rfl⟩⟩

/-- A state whose last step wrote slot 1, the second of two writes. -/
def written : State :=
  { shelf with
    journal := [.slot 1 ⟨{ filedRecord with holdCount := 1 }, 0⟩ ⟨filedRecord, 0⟩, .link 9 {} ⟨some 10, 7, 8, true, .front⟩] }

theorem test_meets_ResetInsideAWrite :
    Canonical written ∧ written.journal =
      .slot 1 ⟨{ filedRecord with holdCount := 1 }, 0⟩ ⟨filedRecord, 0⟩ ::
        [.link 9 {} ⟨some 10, 7, 8, true, .front⟩] := ⟨⟨by decide, by decide⟩, rfl⟩

/-- Record memory with the rebuild still to come, and one place left for its notice. -/
def rising : State := noticed 15 { shelf with port.starting := true }

theorem test_meets_ReadyRebuilds :
    Canonical rising ∧ rising.port.starting = true ∧ rising.folio.kept = [] ∧
    rising.port.notices.length < 16 ∧ shelf.port.starting = false :=
  ⟨⟨by decide, by decide⟩, rfl, rfl, by decide, rfl⟩

/-- A record that fits its place in the directory and its two plates. -/
def soundRecord : Record := { filedRecord with chainNext := none, exceptions := [] }

/-- Record memory with one sound record in slot 1, a blank slot 0, a slot 2 that fails its check word, a
DAMAGED slot 3, and an entry for the record's matter at place 1. -/
def kept : State :=
  { State.reset with
    record.slots := [(1, ⟨soundRecord, crc16 soundRecord.bytes⟩), (2, ⟨soundRecord, 0⟩),
      (3, ⟨{ state := .damaged }, crc16 ({ state := .damaged } : Record).bytes⟩),
      (4, ⟨{ soundRecord with pageCount := 0 }, crc16 { soundRecord with pageCount := 0 }.bytes⟩)]
    record.directory := [(1, ⟨⟨5000, 1, 2, some 1, some 1, 0⟩, crc16 (⟨5000, 1, 2, some 1, some 1, 0⟩ : Matter).bytes⟩)]
    record.links := [(9, ⟨some 10, 7, 8, true, .front⟩), (10, ⟨none, 8, 8, true, .front⟩)] }

/-- Each case a rebuild tells apart, and a record against which nothing speaks. -/
theorem test_meets_ReadyRebuilds_slots :
    Canonical kept ∧ BlankSlot kept 0 ∧ FoundLive kept 1 ∧ ¬ BlankSlot kept 2 ∧ ¬ ChecksOut kept 2 ∧
    ChecksOut kept 3 ∧ (kept.slot 3).state = .damaged ∧ ChecksOut kept 4 ∧
    (kept.slot 4).state ≠ .damaged ∧ (kept.slot 4).state ≠ .free ∧ ¬ InRange (kept.slot 4) := by
  have blank : ∀ n, BlankSlot kept n ↔ ∀ b ∈ (kept.slotEntry n).bytes, b = 0 := fun _ => Iff.rfl
  refine ⟨⟨by decide +kernel, rfl⟩, ?_, ⟨by decide, ⟨?_, rfl⟩, ?_⟩, ?_, ?_, ⟨?_, rfl⟩, rfl, ⟨?_, rfl⟩, by decide,
    by decide, ?_⟩
  · rw [blank]; decide +kernel
  · rw [blank]; decide +kernel
  · refine ⟨.inr (.inr rfl), by decide, by decide, by decide, by decide, by decide, by decide, by decide,
      .inr ⟨by decide, 5, 6, rfl, rfl, rfl⟩, by decide, .inr ⟨by decide, by decide, by decide⟩, by decide,
      by decide, by decide, by decide, by decide⟩
  · rw [blank]; decide +kernel
  · rintro ⟨_, h⟩; revert h; decide +kernel
  · rw [blank]; decide +kernel
  · rw [blank]; decide +kernel
  · rintro ⟨_, _, _, h, _⟩; revert h; decide

theorem test_meets_ReadyRebuilds_accepts : Accepts kept 1 5000 := by
  refine ⟨by decide, ⟨by decide, rfl, by decide, by decide⟩, rfl, ?_⟩
  intro q hq
  obtain rfl : q = 0 := by omega
  rintro ⟨h, _⟩
  exact absurd rfl h

theorem test_meets_ReadyRebuilds_stands : StandsUp kept 1 := by
  have low : ∀ m, m < 1 → ¬ FoundLive kept m := by
    intro m hm h
    obtain rfl : m = 0 := by omega
    exact h.2.1.1 test_meets_ReadyRebuilds_slots.2.1
  refine ⟨test_meets_ReadyRebuilds_slots.2.2.1, ⟨1, .inl test_meets_ReadyRebuilds_accepts⟩,
    fun m hm h => absurd h (low m hm), [9, 10], ⟨⟨rfl, rfl, trivial⟩, rfl⟩, by decide, rfl,
    fun m _ hm h => absurd h (low m hm)⟩

theorem test_meets_RequestWordWrites :
    (asked (List.replicate 31 0) up).port.requests.length < 32 ∧
    32 ≤ (asked (List.replicate 32 0) up).port.requests.length ∧ up.port.overrun = false ∧
    ({ up with port.overrun := true }).port.overrun = true ∧
    ({ up with port.overrun := true }).port.requests = [] ∧ (0xFFFF : Word).getLsbD 0 = true := by decide

theorem test_meets_TakeRequestRunsRow :
    requestWords (.lookup 3 0x90) = some (0x1023 :: [0x90]) ∧ (Instr.lookup 3 0x90).wellFormed = true ∧
    (asked [0x1023, 0x90, 7] up).port.requests = 0x1023 :: [0x90] ++ [7] ∧
    RoomFor ((0x1023 : Word).extractLsb' 8 8).toNat (answered 13 up) ∧
    ¬ RoomFor ((0x1023 : Word).extractLsb' 8 8).toNat (answered 14 up) ∧
    requestWords (.loadTerms 31 63 [1, 2, 3, 4, 5, 6]) = some (0x30FF :: [63, 1, 2, 3, 4, 5, 6]) := by
  unfold RoomFor; decide

theorem test_meets_TakeRequestByThePort :
    let count := ((0x1023 : Word).extractLsb' 5 3).toNat
    ([] : List Word).length < count ∧ count ≤ ([0x90] : List Word).length ∧
    RoomFor ((0x1023 : Word).extractLsb' 8 8).toNat (answered 31 State.reset) ∧
    State.reset.port.starting = true ∧ up.port.starting = false ∧
    RoomFor ((0x1003 : Word).extractLsb' 8 8).toNat (answered 13 up) ∧
    ((0x1003 : Word).extractLsb' 5 3).toNat ∉ acceptedCounts 0x10 ∧
    RoomFor 0x7F (answered 31 up) ∧ 0 ∉ acceptedCounts 0x7F := by
  unfold RoomFor; decide

theorem test_meets_ReplyReadRemoves :
    up.port.replies = [] ∧ (answered 1 up).port.replies = 0 :: [] := by decide

theorem test_meets_NoticeReadWalksFourWords :
    up.port.notices = [] ∧ (noticed 1 up).port.notices = .ready 0 0 0 0 :: [] ∧
    (noticed 1 up).port.noticeAt ≠ 3 ∧
    ({ noticed 1 up with port.noticeAt := 3 }).port.noticeAt = 3 ∧
    (∃ s : State, s.port.notices.length = 16 ∧ s.port.noticeAt = 3 ∧ s.folio.kept = [.ready 1 1 1 1]) ∧
    (∃ s : State, s.port.notices.length = 16 ∧ s.port.noticeAt = 3 ∧ s.folio.kept = [] ∧
      s.batch.kept = [.ready 1 1 1 1]) ∧
    ∃ s : State, s.port.notices.length = 16 ∧ s.port.noticeAt = 3 ∧ s.folio.kept = [] ∧
      s.batch.kept = [] ∧ s.images.audit.kept = some (.ready 1 1 1 1) :=
  ⟨rfl, rfl, by decide, rfl,
    ⟨{ noticed 16 up with port.noticeAt := 3, folio.kept := [.ready 1 1 1 1] }, rfl, rfl, rfl⟩,
    ⟨{ noticed 16 up with port.noticeAt := 3, batch.kept := [.ready 1 1 1 1] }, rfl, rfl, rfl, rfl⟩,
    ⟨{ noticed 16 up with port.noticeAt := 3, images.audit.kept := some (.ready 1 1 1 1) },
      rfl, rfl, rfl, rfl, rfl⟩⟩

/-- The largest values of a READY and of a DOCUMENT FILED notice fill their fields and no more. -/
theorem test_meets_NoticeLayout :
    (511 : Nat) < 512 ∧ 4096 < 65536 ∧ 65536 < 131072 ∧
    (Notice.ready 511 4096 4096 65536).words = [0x13FF, 0x1000, 0x1000, 0] ∧
    (Notice.documentFiled 0xFFFF 250 250 8 true).words = [0x2880, 0xFFFF, 0xFAFA, 0] := by decide

theorem test_meets_PortStatusWords :
    let s := asked (List.replicate 32 0) (answered 32 (noticed 16 up))
    s.port.requests.length ≤ 32 ∧ s.port.replies.length ≤ 32 ∧ s.port.notices.length ≤ 16 ∧
      s.port.exports.length ≤ 8192 ∧ s.port.statusAt = 0 ∧
      ∀ k : Fin 4, ({ s with port.statusAt := k }).port.statusAt = k :=
  ⟨by decide, by decide, by decide, by decide, rfl, fun _ => rfl⟩

/-- An export whose end word has been placed and is still to be read. -/
def ending : State :=
  { shelf with
    port.exports := [0x5AE0]
    folio.exportMark := some 1
    images.exporter := { state := .waiting,
                         run := some { folio := 0x13, header := [], plateHead := some 9, plateCount := 2, item := .done } } }

theorem test_meets_ExportDataRead :
    up.port.exports = [] ∧ ({ up with port.exports := [1, 2] }).port.exports = 1 :: [2] ∧
    up.images.exporter.run = none ∧ ending.port.exports = [0x5AE0] ∧
    (ending.images.exporter.run.map (·.item)) = some .done := by decide

/-- An export in progress with a word in the buffer and its stream at an item. -/
def exporting (item : StreamItem) (state : RunState) (words : List Word) : State :=
  { shelf with
    port.exports := words
    folio.exportMark := some 1
    images.exporter := { state := state,
                         run := some { folio := 0x13, header := [], plateHead := some 9, plateCount := 2,
                                       item := item, taken := 1, current := some 9, residue := some 7 } } }

theorem test_meets_ExportDataRead_going_on :
    (∀ item state, (exporting item state [1, 2]).port.exports = 1 :: [2] ∧
      (exporting item state [1, 2]).images.exporter.run.isSome) ∧
    ((exporting .done .waiting [1, 2]).port.exports ≠ [1] ∧
      (exporting .done .waiting [1, 2]).images.exporter.run.map (·.item) = some .done) ∧
    (exporting .band .requesting [1]).images.exporter.state ≠ .waiting ∧
    (exporting .band .requesting [1]).images.exporter.run.map (·.item) = some .band ∧
    (exporting (.endWord true) .waiting [1]).images.exporter.run.map (·.item) = some (.endWord true) ∧
    (exporting .band .waiting [1]).images.exporter.run.map (·.residue) = some (some 7) ∧
    (List.replicate 4096 (0 : Word)).length + 4096 ≤ 8192 ∧
    8192 < (List.replicate 4097 (0 : Word)).length + 4096 ∧
    (exporting .band .waiting [1]).images.transfer = none := by
  refine ⟨fun _ _ => ⟨rfl, rfl⟩, ?_, by decide, rfl, rfl, rfl, ?_, ?_, rfl⟩
  · decide
  · rw [List.length_replicate]
  · rw [List.length_replicate]; decide

theorem test_meets_ControlWrites :
    (1 : Word).getLsbD 0 = true ∧ (0xFFFE : Word).getLsbD 0 = false := by decide

/-! ## Hypotheses met: folio requests -/

theorem test_meets_FolioResolution :
    folioRequest (.lookup 1 0x4F) = some (19, 1, 0x4F) ∧ Takes 19 (answered 13 shelf) ∧
    folioRequest (.retire 1 0x40 5) = some (6, 1, 0x40) ∧ Takes 6 (answered 26 shelf) ∧
    (shelf.slot 0).state = .free ∧ (shelf.slot 4).state ≠ .free ∧ (shelf.slot 4).state = .damaged ∧
    (shelf.slot ((0x4F : Word).toNat / 16)).generation = (0x4F : Word).extractLsb' 0 4 ∧
    (shelf.slot ((0x40 : Word).toNat / 16)).generation ≠ (0x40 : Word).extractLsb' 0 4 := by
  unfold Takes; decide

/-- Folio 0013h names slot 1. -/
theorem test_names : Names shelf 0x13 filedRecord := by unfold Names; decide

theorem test_meets_LookupAnswers :
    Names shelf 0x13 filedRecord ∧ Takes 19 (answered 13 shelf) ∧
    Names shelf 0x31 (shelf.slot 3) ∧ Names shelf 0x63 (shelf.slot 6) := by
  unfold Names Takes; decide

theorem test_meets_FolioWalks :
    Takes 3 (answered 29 shelf) ∧ NotInDirectory shelf 4999 ∧ InDirectory shelf 5000 1 ∧
    ChainFrom shelf (shelf.matterAt 1).head ([1] ++ 2 :: []) ∧
    (∀ k ∈ [1], (shelf.slot k).sequence < 3) ∧ (shelf.slot 2).sequence = 3 ∧
    (∀ k ∈ [1], (shelf.slot k).sequence < 2) ∧ 2 < (shelf.slot 2).sequence ∧
    (∀ k ∈ [1, 2], (shelf.slot k).sequence < 4) ∧
    Names shelf 0x13 filedRecord ∧ filedRecord.chainNext = some 2 ∧
    Names shelf 0x20 (shelf.slot 2) ∧ (shelf.slot 2).chainNext = none ∧ Takes 10 (answered 22 shelf) := by
  refine ⟨⟨rfl, by decide⟩, rfl, ⟨_, rfl⟩, ⟨rfl, rfl, rfl⟩, ?_⟩
  unfold Names Takes; decide

theorem test_meets_SetRetentionStores :
    Takes 2 (answered 30 shelf) ∧ Names shelf 0x31 (shelf.slot 3) ∧ (shelf.slot 3).state ≠ .filed ∧
    Names shelf 0x53 (shelf.slot 5) ∧ (shelf.slot 5).state = .filed ∧
    (99 : Word).toNat < (shelf.slot 5).retention ∧ Held shelf (shelf.slot 5) ∧
    (shelf.slot 5).retention ≤ (100 : Word).toNat ∧ ¬ Held shelf (shelf.slot 1) ∧ Canonical shelf := by
  unfold Names Takes Held Canonical; decide

theorem test_meets_HoldAndRelease :
    Takes 2 (answered 30 shelf) ∧ Names shelf 0x53 (shelf.slot 5) ∧ (shelf.slot 5).holdCount = 7 ∧
    Names shelf 0x13 (shelf.slot 1) ∧ (shelf.slot 1).holdCount = 0 ∧ Canonical shelf := by
  unfold Names Takes Canonical; decide

theorem test_meets_MatterHolds :
    Takes 2 (answered 30 shelf) ∧ NotInDirectory shelf 9000 ∧ Canonical shelf ∧
    (shelf.matterAt 0).number = 0 ∧ (∀ p, p < 0 → (shelf.matterAt p).number ≠ 0) ∧
    InDirectory shelf 6000 2 ∧ (shelf.matterAt 2).number = 6000 ∧ (shelf.matterAt 2).holdCount = 15 ∧
    InDirectory shelf 5000 1 ∧ (shelf.matterAt 1).number = 5000 ∧ (shelf.matterAt 1).holdCount = 0 ∧
    1 < (shelf.matterAt 2).holdCount ∧ InDirectory shelf 7000 3 ∧ (shelf.matterAt 3).number = 7000 ∧
    (shelf.matterAt 3).holdCount = 1 ∧ (shelf.matterAt 3).recordCount = 0 ∧ shelf.pinned 3 = false := by
  refine ⟨⟨rfl, by decide⟩, rfl, ⟨by decide, by decide⟩, rfl, by decide, ⟨_, rfl⟩, rfl, rfl, ⟨_, rfl⟩, rfl, rfl,
    by decide, ⟨_, rfl⟩, rfl, rfl, rfl, rfl⟩

theorem test_meets_full_directory :
    NotInDirectory crowded 9000 ∧ ∀ p, p < 256 → (crowded.matterAt p).number ≠ 0 :=
  ⟨rfl, by decide +kernel⟩

theorem test_meets_RefileMoves :
    Names shelf 0x13 (shelf.slot 1) ∧ Takes 2 (answered 30 shelf) ∧ (shelf.slot 1).state = .filed ∧
    ¬ Held shelf (shelf.slot 1) ∧ (shelf.slot 1).matter = 5000 ∧ InDirectory shelf 8000 4 ∧
    (shelf.matterAt 4).nextSequence = 0 ∧ Canonical shelf ∧ InDirectory shelf 6000 2 ∧
    (shelf.matterAt 2).number = 6000 ∧ 2 ≠ (shelf.slot 1).place ∧ (shelf.matterAt 2).nextSequence ≠ 0 ∧
    (shelf.matterAt 2).tail ≠ some 1 ∧ Held shelf (shelf.slot 5) ∧ Names shelf 0x63 (shelf.slot 6) ∧
    (shelf.slot 6).state ≠ .filed := by
  refine ⟨⟨rfl, rfl, by decide⟩, ⟨rfl, by decide⟩, rfl, ?_, rfl, ⟨_, rfl⟩, rfl, ⟨by decide, by decide⟩, ⟨_, rfl⟩, ?_⟩ <;>
    unfold Held <;> first | decide | (unfold Names; decide)

/-- The last record of matter 5000 goes to a matter that is not in the directory, and one of two does. -/
theorem test_meets_RefileMoves_new :
    let lone : State := { shelf with
      record.slots := [(1, ⟨{ filedRecord with chainNext := none }, 0⟩)]
      record.directory := [(1, ⟨⟨5000, 1, 5, some 1, some 1, 0⟩, 0⟩)]
      folio.index := [⟨5000, 1, false⟩] }
    NotInDirectory shelf 9000 ∧ (shelf.matterAt 0).number = 0 ∧ (∀ p, p < 0 → (shelf.matterAt p).number ≠ 0) ∧
    0 ≠ (shelf.slot 1).place ∧ (shelf.matterAt 1).number ≠ 0 ∧ 1 < (shelf.matterAt 1).recordCount ∧
    Names lone 0x13 (lone.slot 1) ∧ Canonical lone ∧ ¬ Held lone (lone.slot 1) ∧ NotInDirectory lone 9000 ∧
    (lone.matterAt 1).recordCount = 1 ∧ lone.pinned 1 = false := by
  refine ⟨rfl, rfl, by decide, by decide, by decide, by decide, ⟨rfl, rfl, by decide⟩, ⟨by decide, rfl⟩, ?_, rfl, rfl, rfl⟩
  unfold Held; decide

theorem test_meets_RetireRemoves :
    Names shelf 0x13 (shelf.slot 1) ∧ Takes 6 (answered 26 shelf) ∧ Canonical shelf ∧
    (shelf.slot 1).state = .filed ∧ ¬ Held shelf (shelf.slot 1) ∧ (99 : Word).toNat < (shelf.slot 1).retention ∧
    (shelf.slot 1).retention ≤ (100 : Word).toNat ∧ shelf.chainBefore 1 (shelf.slot 1).place ≠ some 1 ∧
    ¬ (shelf.folio.auditMark = some 1 ∨ shelf.folio.exportMark = some 1) ∧
    ({ shelf with folio.auditMark := some 1 }).folio.auditMark = some 1 ∧
    (shelf.slot 1).image = .resident ∧ 0 < (shelf.slot 1).plateCount ∧
    Names shelf 0x73 (shelf.slot 7) ∧ (shelf.slot 7).image = .shed ∧
    shelf.chainBefore 7 (shelf.slot 7).place ≠ some 7 := by
  unfold Names Takes Canonical Held; decide +kernel

theorem test_meets_ShedImageGivesUpPlates :
    Names shelf 0x13 (shelf.slot 1) ∧ Takes 2 (answered 30 shelf) ∧ Canonical shelf ∧
    (shelf.slot 1).state = .filed ∧ ¬ Held shelf (shelf.slot 1) ∧ Held shelf (shelf.slot 5) ∧
    ({ shelf with folio.exportMark := some 1 }).folio.exportMark = some 1 ∧
    (shelf.slot 7).image = .shed ∧ (shelf.slot 1).image = .resident ∧ 0 < (shelf.slot 1).plateCount ∧
    Names shelf 0x83 (shelf.slot 8) ∧ (shelf.slot 8).image = .resident ∧ (shelf.slot 8).plateCount = 0 := by
  unfold Names Takes Canonical Held; decide

theorem test_meets_PurgeSlotFrees :
    Takes 2 (answered 30 shelf) ∧ 4095 < (4096 : Word).toNat ∧ (4095 : Word).toNat ≤ 4095 ∧
    (shelf.slot 4095).state ≠ .damaged ∧ Canonical shelf ∧ (shelf.slot 4).state = .damaged := by
  unfold Takes Canonical; decide

/-! ## Hypotheses met: trays, documents and terms -/

/-- Trays 1 and 4 mounted, tray 1 at its limit less one page; the record of slot 3 open on tray 4. -/
def mounted : State :=
  { shelf with
    assembler.trays := #v[⟨true, 77, 2000, 2000, 1999, 0⟩, {}, ⟨true, 79, 10, 10, 3, 1⟩, ⟨true, 80, 10, 5, 3, 1⟩]
    assembler.openDocument := some ⟨0x31, 3⟩ }

theorem test_meets_TrayRequests :
    let bad (tray soft hard fill : Word) : Prop := tray.toNat < 1 ∨ 4 < tray.toNat ∨ hard.toNat < 1 ∨
      2000 < hard.toNat ∨ soft.toNat < 1 ∨ hard.toNat < soft.toNat ∨ hard.toNat ≤ fill.toNat
    bad 0 1 1 0 ∧ bad 5 1 1 0 ∧ bad 1 1 2001 0 ∧ bad 1 2 1 0 ∧ bad 1 1 1 1 ∧ ¬ bad 1 2000 2000 1999 ∧
    ¬ bad 2 1 1 0 ∧ mounted.assembler.trays[(0 : TrayIx)].mounted = true ∧
    mounted.assembler.trays[(1 : TrayIx)].mounted = false ∧
    (∃ d, mounted.assembler.openDocument = some d ∧ d.tray = 3) ∧
    (∀ d, mounted.assembler.openDocument = some d → d.tray ≠ 2) ∧
    0 < mounted.assembler.trays[(2 : TrayIx)].committed ∧
    mounted.assembler.trays[(0 : TrayIx)].committed = 0 ∧
    Takes 2 (answered 30 up) ∧ Takes 4 (answered 28 up) ∧ Takes 11 (answered 21 up) := by
  refine ⟨by decide, by decide, by decide, by decide, by decide, by decide, by decide, rfl, rfl, ⟨_, rfl, rfl⟩, ?_, ?_⟩
  · intro d h; cases h; decide
  · unfold Takes; decide

theorem test_meets_CloseDocumentCloses :
    Takes 3 (answered 29 mounted) ∧ 1 < (2 : Word).toNat ∧ (1 : Word).toNat ≤ 1 ∧
    up.assembler.openDocument = none ∧ mounted.assembler.openDocument = some ⟨0x31, 3⟩ ∧ Canonical mounted ∧
    0 < (mounted.slot 3).outstanding ∧ (mounted.slot 9).outstanding = 0 ∧ mounted.folio.kept = [] ∧
    (noticed 15 mounted).port.notices.length < 16 ∧ 16 ≤ (noticed 16 mounted).port.notices.length := by
  unfold Takes Canonical; decide

theorem test_meets_LoadAndReadTerms :
    Takes 2 (answered 30 up) ∧ Takes 10 (answered 22 up) ∧ up.batch.state = .idle ∧
    (rolling 0 []).batch.state ≠ .idle ∧
    ((63 : Word).toNat ≤ 63 ∧ (63 : Word).toNat + ([1] : List Word).length ≤ 64) ∧
    64 < (63 : Word).toNat + ([1, 2] : List Word).length ∧ 63 < (64 : Word).toNat ∧
    (58 : Word).toNat + ([1, 2, 3, 4, 5, 6] : List Word).length ≤ 64 := by
  unfold Takes; decide

theorem test_meets_ClearTermsClears :
    Takes 1 (answered 31 up) ∧ up.batch.state = .idle ∧ (rolling 0 []).batch.state ≠ .idle := by
  unfold Takes; decide

theorem test_meets_CheckTermsValidates :
    Takes 3 (answered 29 up) ∧ up.evaluator.terms[0] = 0 ∧
    0x1A ≤ ((listed [0x1A00]).evaluator.terms[0].extractLsb' 8 8).toNat ∧
    termKind (listed [0x1904]).evaluator.terms[0] = some .tag ∧
    TermKind.tag.range.2 < termOperand (listed [0x1904]).evaluator.terms[0] := by
  unfold Takes; decide +kernel

/-- A walk in the midst of a list: a depth, the open regions, and the numbers used. -/
def midway (depth : Nat) (regions : List Region) : Walk :=
  { depth := depth, regions := regions, pulses := [7], skips := [15] }

/-- A term that fits a walk of depth 2. -/
theorem test_meets_Fits :
    Fits (midway 2 []) 0x0B00 .gate 0 1 ∧ Fits (midway 2 []) 0x0C00 .gateEnd 0 2 ∧
    Fits (midway 2 []) 0x0D0E .skip 14 1 ∧ Fits (midway 2 []) 0x0E0E .skipEnd 14 2 ∧
    Fits (midway 7 []) 0x012F .load 47 8 ∧ Fits (midway 2 []) 0x1605 .keep 5 0 := by
  refine ⟨?_, ?_, ?_, ?_, ?_, ?_⟩ <;> unfold Fits Sound <;> decide

theorem test_meets_CheckTerms_terms :
    termKind 0x1A00 = none ∧ (termKind 0x0F05 = some .route ∧ TermKind.route.range.2 < termOperand 0x0F05) ∧
    (termKind 0x1707 = some .pulseRise ∧ termOperand 0x1707 ≤ 7 ∧ termOperand 0x1707 ∈ (midway 2 []).pulses) ∧
    (Sound (midway 1 []) 0x0700 .mergeAnd 0 ∧ (midway 1 []).depth < valuesNeeded .mergeAnd) ∧
    (Sound (midway 8 []) 0x0100 .load 0 ∧ valuesNeeded .load ≤ (midway 8 []).depth ∧
      8 < (midway 8 []).depth + netChange .load) := by
  unfold Sound; decide

theorem test_meets_CheckTerms_regions :
    let gates (n : Nat) : List Region := List.replicate n .gate
    4 ≤ gatesOpen (midway 2 (gates 4)) ∧ gatesOpen (midway 2 (gates 3)) < 4 ∧
    gatesOpen (midway 2 [.skip 14 2]) = 0 ∧ gatesOpen (midway 2 [.skip 14 2, .gate]) ≠ 0 ∧
    (15 ≠ 0 ∧ 15 ∈ (midway 2 []).skips) ∧ SkipOpen (midway 2 [.skip 0 2]) 0 ∧
    ¬ (14 ≠ 0 ∧ 14 ∈ (midway 2 []).skips) ∧ ¬ SkipOpen (midway 2 []) 14 ∧
    SkipOpen (midway 2 [.gate, .skip 14 2]) 14 ∧ SkipOpen (midway 2 [.skip 13 2, .skip 14 2]) 14 ∧
    (midway 2 [.skip 14 3]).regions = .skip 14 3 :: [] ∧ 3 ≠ 2 := by
  refine ⟨by decide, by decide, by decide, by decide, by decide, ⟨2, by decide⟩, by decide, ?_, ⟨2, by decide⟩,
    ⟨2, by decide⟩, rfl, by decide⟩
  rintro ⟨_, h⟩
  cases h

theorem test_meets_CheckTerms_end :
    Sound (midway 8 []) 0 .endList 0 ∧ (midway 8 []).depth ≤ 8 ∧ (∃ n, SkipOpen (midway 0 [.skip 3 0]) n) ∧
    (∀ n, ¬ SkipOpen (midway 0 [.gate]) n) ∧ 0 < gatesOpen (midway 0 [.gate]) ∧
    (midway 1 []).depth ≠ 0 ∧ (midway 0 []).depth = 0 ∧
    (midway 0 []).place 0 = .ok (midway 0 []) ∧ (midway 0 []).place 0x1A00 = .error .kind ∧
    (midway 1 []).endCheck = .error .depthAtEnd ∧ (midway 0 []).endCheck = .ok (midway 0 []) := by
  refine ⟨by unfold Sound; decide, by decide, ⟨3, 0, by decide⟩, ?_, by decide, by decide, by decide, rfl, rfl, rfl, rfl⟩
  rintro n ⟨_, h⟩
  cases h with
  | tail _ h => cases h

/-- The stack of a term, and a SKIP with its SKIP END behind two other places. -/
theorem test_meets_TermEffects :
    ({ stack := [true, false] } : Evaluator).stack = true :: [false] ∧ [false] = false :: ([] : List Bool) ∧
    (7 : Nat) < 8 ∧ (3 : Nat) < 4 ∧ termKind 0 = some .endList ∧
    (termKind 0x0102 = some .load ∧ TermKind.load ≠ .endList ∧ TermKind.load ≠ .skip) ∧
    termKind 0x0D01 = some .skip ∧ termKind 0x0E01 = some .skipEnd ∧ termOperand 0x0E01 = termOperand 0x0D01 ∧
    ∀ y ∈ ([0x0102, 0x0E02] : List Word), ¬ (termKind y = some .skipEnd ∧ termOperand y = termOperand 0x0D01) := by
  refine ⟨rfl, rfl, by decide, by decide, rfl, ⟨rfl, by decide, by decide⟩, rfl, rfl, rfl, ?_⟩
  intro y h
  rcases List.mem_cons.mp h with rfl | h
  · rintro ⟨h, _⟩; cases h
  · rcases List.mem_singleton.mp h with rfl
    rintro ⟨_, h⟩
    exact absurd h (by decide)

/-! ## Hypotheses met: the train, the engine, channels, audit and export -/

theorem test_meets_TrainReads :
    Takes 28 (answered 4 up) ∧ Takes 11 (answered 21 up) ∧ (∀ u ∈ (rolling 0 [entered]).tracker.train, u.ordinal ≠ 2) ∧
    (rolling 0 [entered]).ticket 1 = some entered ∧ entered.decision = none ∧
    (rolling 0 [routed]).ticket 1 = some routed ∧
    routed.decision = some ⟨some 3, some ⟨0x31, 2⟩, none, {}, none⟩ := by
  unfold Takes; decide

/-- The default profile with its last item at the largest value in range. -/
def longer : Vector Nat 19 := defaultProfile.set 18 6912

theorem test_meets_SetPathStores :
    Takes 2 (answered 30 up) ∧ validProfile longer = true ∧
    (∀ k : Fin 19, longer[k] =
      if (18 : Word).toNat ≤ k.val ∧ k.val < (18 : Word).toNat + ([6912] : List Word).length then
        (([6912] : List Word).getD (k.val - (18 : Word).toNat) 0).toNat else up.tracker.profile[k]) ∧
    ((18 : Word).toNat ≤ 18 ∧ (18 : Word).toNat + ([6912] : List Word).length ≤ 19) ∧
    (∀ k, k < ([6912] : List Word).length →
      (itemRange ((18 : Word).toNat + k)).1 ≤ (([6912] : List Word).getD k 0).toNat ∧
      (([6912] : List Word).getD k 0).toNat ≤ (itemRange ((18 : Word).toNat + k)).2) ∧
    up.batch.state = .idle ∧ (rolling 0 []).batch.state ≠ .idle ∧
    ¬ ((19 : Word).toNat ≤ 18) ∧ ¬ ((18 : Word).toNat + ([6912, 0] : List Word).length ≤ 19) := by
  unfold Takes; decide

theorem test_meets_ReadPathAnswers :
    Takes 7 (answered 25 up) ∧ 18 < (19 : Word).toNat ∧ (18 : Word).toNat ≤ 18 ∧
    (18 : Word).toNat + 0 < 19 := by
  unfold Takes; decide

/-- A batch that stands still after a halt, with sheets in the path. -/
def halted (cause : HaltCause) : State :=
  { rolling 5000 [routed, entered] with
    batch := { state := .halted, haltCause := some cause, matter := 5000 }
    tracker.stopped := true
    tracker.stallTimer := none }

theorem test_meets_ClearTrainEmpties :
    Takes 3 (answered 29 up) ∧ up.batch.state ≠ .halted ∧ (halted .jam).batch.state = .halted ∧
    (halted .jam).batch.kept = [] ∧ (halted .jam).batch.haltCause = some .jam ∧
    (halted .jam).batch.stopTaken = false ∧ (halted .abort).batch.haltCause = some .abort ∧
    (halted .jam).assembler.outcomes = [] ∧
    ({ halted .jam with batch.kept := [.ready 0 0 0 0] }).batch.kept ≠ [] := by
  unfold Takes; decide

theorem test_meets_SkewRequests :
    Takes 3 (answered 29 up) ∧ Takes 13 (answered 19 up) ∧ up.batch.state = .idle ∧
    350 < (351 : Word).toNat ∧ (350 : Word).toNat ≤ 350 := by
  unfold Takes; decide

/-- The audit channel asks for its first band of plate 9, and is masked. -/
def auditing : State :=
  { shelf with
    folio.auditMark := some 1
    images.audit := {
      state := .requesting
      masked := true
      run := some { folio := 0x13, plateHead := some 9, plateCount := 2, digest := 0xABCD1234, taken := 1,
                    current := some 9, bandsUsed := 8, residue := some 7 } } }

theorem test_meets_ArbiterRequests :
    Takes 2 (answered 30 up) ∧ up.batch.state = .idle ∧ 1 < (2 : Word).toNat ∧ (1 : Word).toNat ≤ 1 ∧
    (4 : Word) ≠ 2 ∧ (4 : Word) ≠ 3 ∧ auditing.images.transfer = none ∧
    auditing.images.audit.state = .requesting ∧ Channel.audit ∈ auditing.images.order ∧
    (∀ c, c ≠ .audit → auditing.asks c = false) ∧ Channel.exporter ∈ auditing.images.order := by
  refine ⟨⟨rfl, by decide⟩, rfl, by decide, by decide, by decide, by decide, rfl, rfl, by decide, ?_, by decide⟩
  intro c h
  cases c <;> first | rfl | exact absurd rfl h

theorem test_meets_mask_of_the_export_channel :
    let s : State := { up with images.exporter := { state := .requesting, masked := true } }
    s.images.transfer = none ∧ s.images.exporter.state = .requesting ∧
      ∀ c, c ≠ .exporter → s.asks c = false := by
  refine ⟨rfl, rfl, ?_⟩
  intro c h
  cases c <;> first | rfl | exact absurd rfl h

/-- A front side in hand whose first band, not its last, is on its way to plate 20. -/
def capturing : State :=
  { rolling 3000 [{ gauged with stage := .scanning }] with
    engine.front := { state := .taking, ordinal := 1, queue := [.band ⟨1, 1, false, List.replicate 16 0⟩] }
    images.front := {
      state := .transferring
      side := some { ordinal := 1, plates := 1, current := some 20, residue := some 7, first := true } }
    images.transfer := some { channel := .captureFront, plate := 20, place := 0, lines := List.replicate 16 0 } }

theorem test_meets_ReadChannelsClearsFlags :
    Takes 16 (answered 16 up) ∧ capturing.images.front.side.isSome ∧ auditing.images.audit.run.isSome := by
  unfold Takes; decide

theorem test_meets_AuditRequests :
    Takes 1 (answered 31 shelf) ∧ auditing.images.audit.state ≠ .idle ∧ shelf.images.audit.state = .idle ∧
    shelf.images.audit.kept = none ∧ (shelf.slot 0).state = .free ∧ Names shelf 0x31 (shelf.slot 3) ∧
    (shelf.slot 3).state ≠ .filed ∧ Names shelf 0x73 (shelf.slot 7) ∧ (shelf.slot 7).image = .shed ∧
    Claimable shelf 0x13 (shelf.slot 1) ∧ 0 < (shelf.slot 1).plateCount ∧ (shelf.slot 1).plateHead = some 9 ∧
    0 < (shelf.link 9).bandsUsed ∧ Claimable shelf 0x83 (shelf.slot 8) ∧ (shelf.slot 8).plateCount = 0 ∧
    (noticed 15 shelf).port.notices.length < 16 ∧ capturing.images.transfer ≠ none ∧
    Takes 2 (answered 30 auditing) ∧ shelf.images.audit.run = none ∧ auditing.images.audit.run.isSome := by
  unfold Takes Claimable Names; decide

theorem test_meets_ExportRequests :
    Takes 1 (answered 31 shelf) ∧ ending.images.exporter.state ≠ .idle ∧ shelf.images.exporter.state = .idle ∧
    Claimable shelf 0x13 (shelf.slot 1) ∧ Claimable shelf 0x83 (shelf.slot 8) ∧ (shelf.slot 8).plateCount = 0 ∧
    shelf.port.exports = [] ∧ Takes 2 (answered 30 ending) ∧ shelf.images.exporter.run = none ∧
    ending.images.exporter.run ≠ none := by
  unfold Takes Claimable Names; decide

/-- A claim on a folio number that is stale, and on a DAMAGED slot, of VERIFY and of OPEN EXPORT. -/
theorem test_meets_claims_refused :
    (shelf.slot ((0x14 : Word).toNat / 16)).state ≠ .free ∧
    (shelf.slot ((0x14 : Word).toNat / 16)).generation ≠ (0x14 : Word).extractLsb' 0 4 ∧
    (shelf.slot ((0x4F : Word).toNat / 16)).state = .damaged ∧
    (shelf.slot ((0x4F : Word).toNat / 16)).generation = (0x4F : Word).extractLsb' 0 4 := by decide

/-- The transfer of `capturing` while the tracker is stopped. -/
def frozen : State :=
  { capturing with batch := { state := .halted, haltCause := some .jam }, tracker.stopped := true }

/-- A read of image memory whose run has been cancelled since. -/
def cancelled : State :=
  { shelf with
    images.audit.state := .transferring
    images.transfer := some { channel := .audit, plate := 9, place := 0, orphan := true } }

theorem test_meets_BandTransferCompletes :
    up.images.transfer = none ∧ Canonical capturing ∧
    (∃ g h b rest n, frozen.images.transfer = some g ∧ g.channel = .captureFront ∧ g.orphan = false ∧
      frozen.tracker.stopped = true ∧ frozen.images.front.side = some h ∧ h.residue = some (n + 1) ∧
      frozen.engine.front.queue = .band b :: rest ∧ b.last = false) ∧
    (∃ g, cancelled.images.transfer = some g ∧ g.channel = .audit ∧ g.orphan = true) ∧
    ∀ c, c ≠ .audit → cancelled.asks c = false := by
  refine ⟨rfl, ⟨by decide, rfl⟩, ⟨_, _, _, _, 6, rfl, rfl, rfl, rfl, rfl, rfl, rfl, rfl⟩, ⟨_, rfl, rfl, rfl⟩, ?_⟩
  intro c _
  cases c <;> rfl

/-- A band of a side. -/
def bandOf (number : Nat) (last : Bool) : QueueItem := .band ⟨1, number, last, List.replicate 16 0⟩

/-- `capturing` with a side in hand and a band queue of its own, and plate 30 at the head of the free
plate queue. -/
def carrying (residue : Nat) (queue : List QueueItem) : State :=
  { capturing with
    engine.front := { state := .taking, ordinal := 1, queue := queue }
    images.front := { capturing.images.front with
      side := some { ordinal := 1, plates := 1, current := some 20, residue := some residue, first := true } }
    images.free := ⟨some 30, some 31, 2⟩ }

theorem test_meets_BandTransfer_capture :
    (∀ n q, (carrying n q).images.transfer.isSome ∧ ((carrying n q).side .front).queue = q ∧
      ((carrying n q).capture .front).side.isSome ∧ ((carrying n q).capture .front).pendingEnd = none ∧
      (carrying n q).tracker.stopped = false) ∧
    bandOf 0 false :: [bandOf 1 true] ≠ [] ∧ (8 : Nat) ≠ 0 ∧ (1 : Nat) < 54 ∧
    (FreeHead (carrying 0 [bandOf 7 false, bandOf 8 true]) 30 ⟨(shelf.link 30).next, some 31, 1⟩ ∧
      Canonical (carrying 0 [bandOf 7 false, bandOf 8 true])) ∧
    (carrying 3 [bandOf 4 true]).acts = true ∧
    ({ carrying 3 [bandOf 4 true] with tracker.stopped := true }).acts = false := by
  refine ⟨fun _ _ => ⟨rfl, rfl, rfl, rfl, rfl⟩, by decide, by decide, by decide, ⟨⟨rfl, by decide, rfl⟩, by decide, rfl⟩,
    rfl, rfl⟩

/-- The plate of `auditing`'s read, with its last band coming in. -/
def reading (checked : Nat) (taken : Nat) (current : Nat) (stored : Word) (residue : Nat) : State :=
  { shelf with
    images.audit := {
      state := .transferring
      run := some { folio := 0x13, plateHead := some 9, plateCount := 2, digest := 0xABCD1234, checked := checked,
                    taken := taken, current := some current, bandsUsed := 8, storedCheck := stored,
                    residue := some residue } }
    images.transfer := some { channel := .audit, plate := current, place := 7 - residue } }

/-- The check of a plate as it comes in, whatever check is stored for it. -/
theorem test_meets_BandTransfer_audit (checked taken current : Nat) (stored : Word) :
    let s := reading checked taken current stored 0
    let g : Transfer := { channel := .audit, plate := current, place := 7 }
    let crc := crc16Extend 0xFFFF (bandHeld shelf g)
    s.images.transfer = some g ∧ bandHeld s g = bandHeld shelf g ∧ s.images.audit.kept = none ∧
    Canonical s ∧ crc ≠ ~~~crc ∧ (2 ≤ 2 ∧ 1 < 2 ∧ (s.link 10).next = none) ∧
    ((s.link 9).next = some 10 ∧ 0 < (s.link 10).bandsUsed) := by
  refine ⟨rfl, rfl, rfl, ⟨show shelf.record.wf = true by decide, rfl⟩, fun h => ?_, ⟨by decide, by decide, rfl⟩, rfl,
    show 0 < (shelf.link 10).bandsUsed by decide⟩
  have := congrArg (fun w : Word => w.getLsbD 0) h
  simp at this

theorem test_meets_BandTransfer_export :
    let s (residue : Nat) (words : List Word) : State := { exporting .band .transferring words with
      images.exporter.run := some { folio := 0x13, header := [], plateHead := some 9, plateCount := 2, item := .band,
                                    taken := 2, current := some 9, residue := some residue }
      images.transfer := some { channel := .exporter, plate := 9, place := 7 - residue } }
    (∀ n w, (s n w).images.transfer.isSome ∧ (s n w).port.exports = w ∧ (s n w).images.exporter.run.isSome) ∧
    Canonical (s 0 []) ∧ (2 : Nat) ≤ 2 ∧ (List.replicate 4095 (0 : Word)).length < 4096 := by
  refine ⟨fun _ _ => ⟨rfl, rfl, rfl⟩, ⟨by decide, rfl⟩, by decide, ?_⟩
  rw [List.length_replicate]; decide

/-- A cancelled read with the export's request pending behind two channels that do not ask, and the transfer
of a capture channel that has been cleared. -/
theorem test_meets_BandTransfer_orphans :
    let s : State := { cancelled with images.exporter := { state := .requesting } }
    let c : State := { shelf with images.transfer := some { channel := .captureFront, plate := 9, place := 0, orphan := true } }
    s.images.order = [.captureFront, .captureBack, .audit] ++ .exporter :: [] ∧ s.asks .exporter = true ∧
    s.images.exporter.masked = false ∧ s.asks .captureFront = false ∧ s.asks .captureBack = false ∧
    c.images.transfer.map (·.channel) = some (channelOf .front) ∧ c.images.transfer.map (·.orphan) = some true ∧
    (∀ k, c.asks k = false) := by
  refine ⟨rfl, rfl, rfl, rfl, rfl, rfl, rfl, fun k => ?_⟩
  cases k <;> rfl

/-! ## Hypotheses met: the batch and the lines -/

/-- The part with its lines ready for a batch. -/
def ready : State := { shelf with lines := wiredLines }

theorem test_meets_StartBatchRuns :
    Takes 3 (answered 29 ready) ∧ ready.batch.state = .idle ∧
    ((1 : Long) ≠ 0 ∧ (15 : Word).toNat ≤ 15 ∧ (1 : Word).toNat ≤ 1) ∧ ¬ (16 : Word).toNat ≤ 15 ∧
    (∃ places walk, ready.evaluator.validate = .valid places walk) ∧
    (∃ place reason, (listed [0x1A00]).evaluator.validate = .invalid place reason) ∧
    (∀ l : LineIx, l.val ≤ 17 → (ready.lines.settings[l].enabled = true ∨ l = 11) ∧
      (12 ≤ l.val → ready.lines.settings[l].output = true)) ∧
    (¬ ∀ l : LineIx, l.val ≤ 17 → (shelf.lines.settings[l].enabled = true ∨ l = 11) ∧
      (12 ≤ l.val → shelf.lines.settings[l].output = true)) ∧
    ready.batch.kept = [] ∧ InDirectory ready 5000 1 := by
  refine ⟨⟨rfl, by decide⟩, rfl, by decide, by decide, ⟨_, _, rfl⟩, ⟨0, .kind, by decide +kernel⟩, by decide, by decide, rfl,
    ⟨_, rfl⟩⟩

/-- The part with its lines ready for a batch but for L11, which is disabled. -/
theorem test_meets_StartBatch_new :
    let s : State := { ready with lines.settings := wiredLines.settings.set 11 {} }
    (∀ l : LineIx, l.val ≤ 17 → (s.lines.settings[l].enabled = true ∨ l = 11) ∧
      (12 ≤ l.val → s.lines.settings[l].output = true)) ∧
    s.lines.settings[(11 : LineIx)].enabled = false ∧ s.batch.kept = [] ∧ Canonical s ∧ NotInDirectory s 9000 ∧
    (s.matterAt 0).number = 0 ∧ (∀ p, p < 0 → (s.matterAt p).number ≠ 0) :=
  ⟨by decide, rfl, rfl, ⟨by decide, rfl⟩, rfl, rfl, by decide⟩

theorem test_meets_StartBatch_full :
    ∀ p, p < 256 → (({ crowded with lines := wiredLines } : State).matterAt p).number ≠ 0 := by
  decide +kernel

/-- A batch in FEED HOLD for every cause at once. -/
def held : State :=
  { rolling 5000 [] with
    batch.state := .feedHold
    batch.causes := ⟨true, true, true, true, true, true, true⟩
    assembler := mounted.assembler }

theorem test_meets_PauseAndResume :
    Takes 2 (answered 30 held) ∧ up.batch.state ≠ .running ∧ up.batch.state ≠ .feedHold ∧
    held.batch.state = .feedHold ∧ held.batch.kept = [] ∧ (rolling 5000 []).batch.state = .running ∧
    ({ held with batch.kept := [.ready 0 0 0 0] }).batch.kept ≠ [] ∧
    (rolling 5000 []).batch.causes.rejectFull = false ∧
    ({ held with lines := {} }).lines.settings[(11 : LineIx)].enabled = false := by
  unfold Takes; decide

/-- REJECT FULL with each thing that can drive the pin of L11. -/
theorem test_meets_Resume_reject_full :
    let s (c : LineSetting) (d : Drive) : State := { held with
      lines := { settings := wiredLines.settings.set 11 c, board := (Vector.replicate 24 .low).set 11 d } }
    (∀ c d, (s c d).batch.causes.rejectFull = true ∧ (s c d).batch.kept = [] ∧ (s c d).batch.state = .feedHold) ∧
    (∀ latch active, (s ⟨true, latch, false, active, true⟩ .low).lines.settings[(11 : LineIx)].output = true) ∧
    (∀ pull active d, (s ⟨false, false, pull, active, true⟩ d).lines.settings[(11 : LineIx)].output = false ∧
      (s ⟨false, false, pull, active, true⟩ d).lines.settings[(11 : LineIx)].pull = pull ∧
      (s ⟨false, false, pull, active, true⟩ d).lines.board[(11 : LineIx)] = d) :=
  ⟨fun _ _ => ⟨rfl, rfl, rfl⟩, fun _ _ => rfl, fun _ _ _ => ⟨rfl, rfl, rfl⟩⟩

theorem test_meets_StopAndAbort :
    Takes 2 (answered 30 held) ∧ held.tracker.train = [] ∧ held.batch.feeder = .atRest ∧
    (rolling 5000 [entered]).tracker.train.any (rolling 5000 [entered]).unruled = true ∧
    (rolling 5000 [entered]).batch.state = .running ∧ (halted .jam).batch.haltCause = some .jam ∧
    (halted .abort).batch.haltCause ≠ some .jam ∧ held.motorOn = true ∧ up.batch.state = .idle := by
  unfold Takes; decide

theorem test_meets_ReadBatchAnswers : Takes 8 (answered 24 held) := by unfold Takes; decide

/-- A setting of the five as SET LINE's words give it. -/
def settingOf (direction latch pull active enable : Word) : LineSetting :=
  ⟨decide (direction = 1), decide (latch = 1), decide (pull = 1), decide (active = 1), decide (enable = 1)⟩

theorem test_meets_LineRequests :
    let s := rolling 5000 []
    Takes 2 (answered 30 s) ∧ Takes 17 (answered 15 s) ∧ 23 < (24 : Word).toNat ∧ ¬ (2 : Word).toNat ≤ 1 ∧
    (23 : Word).toNat = (23 : LineIx).val ∧ s.batch.state ≠ .idle ∧
    settingOf 1 0 0 1 1 ≠ { s.lines.settings[(0 : LineIx)] with latch := (settingOf 1 0 0 1 1).latch } ∧
    settingOf 0 1 0 1 1 = { s.lines.settings[(0 : LineIx)] with latch := (settingOf 0 1 0 1 1).latch } ∧
    17 < (18 : LineIx).val ∧ up.acts = false := by
  unfold Takes; decide

/-- An entry line set to an output with its latch at the inactive level; SET LINE moves the latch. -/
def driven : State := { rolling 5000 [] with lines.settings := wiredLines.settings.set 0 ⟨true, false, false, true, true⟩ }

theorem test_meets_LineRequests_entry :
    driven.acts = true ∧ driven.tracker.train.length < 6 ∧ driven.begin.seen 0 = false ∧
    settingOf 1 1 0 1 1 = { driven.lines.settings[(0 : LineIx)] with latch := (settingOf 1 1 0 1 1).latch } ∧
    (settingOf 1 1 0 1 1).enabled = true ∧ (settingOf 1 1 0 1 1).output = true ∧
    (settingOf 1 1 0 1 1).latch = (settingOf 1 1 0 1 1).activeHigh := by decide

/-! ## Hypotheses met: travel, windows and gates -/

theorem test_meets_TravelPulseCounts : up.acts = false ∧ (rolling 1800 [gauged]).acts = true := by decide

/-- A zone at the first position a sheet covers and at the last, one before and one beyond. -/
theorem test_meets_CoversZone :
    CoversZone 1800 800 entered ∧ ¬ CoversZone 1799 800 entered ∧ CoversZone 5800 800 gauged ∧
    ¬ CoversZone 5801 800 gauged := by
  refine ⟨⟨by decide, by intro n h; cases h⟩, fun h => absurd h.1 (by decide), ⟨by decide, ?_⟩, fun h => ?_⟩
  · intro n h; cases h; decide
  · exact absurd (h.2 4000 rfl) (by decide)

/-- A pulse that flags the newer sheet in both zones, and one that flags none. -/
theorem test_meets_TravelPulse_zones :
    let old : Ticket := { gauged with entry := 0, length := some 700 }
    let s := rolling 2099 [old, { entered with ordinal := 2, entry := 1000 }]
    s.acts = true ∧ Zoned s 3 .high s.tracker.profile[1] (some 2) ∧ Zoned s 4 .high s.tracker.profile[2] (some 2) ∧
    Zoned s 3 .low s.tracker.profile[1] none ∧ Zoned (rolling 1798 [entered]) 3 .high 800 none := by
  refine ⟨rfl, ⟨?_, _, ⟨[_], [], rfl, ⟨by decide, by intro n h; cases h⟩, ?_⟩, rfl⟩,
    ⟨?_, _, ⟨[_], [], rfl, ⟨by decide, by intro n h; cases h⟩, ?_⟩, rfl⟩, .inl ?_, .inr ?_⟩
  · exact ⟨rfl, rfl⟩
  · intro b h k
    cases List.mem_singleton.mp h
    exact absurd (k.2 700 rfl) (by decide)
  · exact ⟨rfl, rfl⟩
  · intro b h k
    cases List.mem_singleton.mp h
    exact absurd (k.2 700 rfl) (by decide)
  · rintro ⟨_, h⟩
    cases h
  · intro u h k
    cases List.mem_singleton.mp h
    exact absurd k.1 (by decide)

/-- A side being taken, with so many lines in its band and so many bands in its queue. -/
def shearing (lines bands : Nat) : DeskewSide :=
  { state := .taking, ordinal := 1, delta := -16, span := 20, inputs := 40, outputs := 16 + lines,
    band := List.replicate lines 0, queue := List.replicate bands (bandOf 0 false) }

/-- The cases of a line taken, on either side, and of a band made ready. -/
theorem test_meets_TravelPulse_lines :
    let s (f b : DeskewSide) (c : CaptureChannel) : State := { rolling 3000 [{ gauged with stage := .scanning }] with
      engine.front := f, engine.back := b, images.front := c, images.free := ⟨some 30, some 31, 2⟩ }
    (∀ f b c, (s f b c).acts = true ∧ (s f b c).side .front = f ∧ (s f b c).side .back = b ∧
      (s f b c).capture .front = c) ∧
    (shearing 14 4).band.length < 15 ∧ 15 ≤ (shearing 15 0).band.length ∧ bandsQueued (shearing 15 3) < 4 ∧
    4 ≤ bandsQueued (shearing 15 4) ∧ (shearing 15 0).queue = [] ∧
    Busy (s (shearing 15 4) {} { state := .transferring }) .front ∧
    (1 ≠ 0 ∧ (15 + 16 + 1) / 16 - 1 = 1) ∧
    FreeHead (s (shearing 15 0) {} {}) 30 ⟨(shelf.link 30).next, some 31, 1⟩ := by
  refine ⟨fun _ _ _ => ⟨rfl, rfl, rfl, rfl⟩, by decide, by decide, by decide, by decide, rfl, .inr rfl, by decide,
    rfl, by decide, rfl⟩

/-- Each of the seven windows at the last position it still covers, and one beyond. -/
theorem test_meets_Passed :
    let s (travel : Long) (u : Ticket) := rolling travel [u]
    let second : Ticket := { entered with armed.secondEdge := some ⟨.b, 1400⟩ }
    let scan : Ticket := { gauged with armed.scanTrailing := true }
    Passed (s 8201 entered) entered .entryTrailing ∧ ¬ Passed (s 8200 entered) entered .entryTrailing ∧
    Passed (s 1616 entered) entered .firstEdge ∧ ¬ Passed (s 1615 entered) entered .firstEdge ∧
    Passed (s 1751 second) second .secondEdge ∧ ¬ Passed (s 1750 second) second .secondEdge ∧
    Passed (s 2641 entered) entered .scanLeading ∧ ¬ Passed (s 2640 entered) entered .scanLeading ∧
    Passed (s 6641 scan) scan .scanTrailing ∧ ¬ Passed (s 6640 scan) scan .scanTrailing ∧
    Passed (s 14241 routed) routed .exitLeading ∧ ¬ Passed (s 14240 routed) routed .exitLeading ∧
    Passed (s 18241 routed) routed .exitTrailing ∧ ¬ Passed (s 18240 routed) routed .exitTrailing ∧
    ¬ Passed (s 8201 gauged) gauged .entryTrailing := by
  refine ⟨⟨rfl, by decide⟩, fun h => absurd h.2 (by decide), ⟨rfl, by decide⟩, fun h => absurd h.2 (by decide),
    ⟨_, rfl, by decide⟩, ?_, ⟨rfl, by decide⟩, fun h => absurd h.2 (by decide),
    ⟨rfl, _, rfl, by decide⟩, ?_, ⟨rfl, by decide⟩, fun h => absurd h.2 (by decide), ⟨rfl, _, rfl, by decide⟩, ?_,
    fun h => absurd h.1 (by decide)⟩
  · rintro ⟨_, h, k⟩
    cases h
    exact absurd k (by decide)
  all_goals
    rintro ⟨_, _, h, k⟩
    cases h
    exact absurd k (by decide)

theorem test_meets_WindowsAndStallJam :
    let s := rolling 5000 [entered]
    s.ticket 1 = some entered ∧ s.acts = true ∧ up.acts = false ∧ up.ticket 1 = none ∧
    s.tracker.stallTimer.isSome ∧ up.tracker.stallTimer = none := by decide

/-- A decided sheet of another path, which holds gate 1 OFF in front of `routed`. -/
def holder : Ticket := { turned with ordinal := 5, entry := 100, gates := #v[.heldOff, .released, .notReached, .notReached] }

/-- A sheet that holds gate 1 ON. -/
def opener : Ticket := { routed with ordinal := 6, path := some 0, gates := #v[.heldOn, .notReached, .notReached, .notReached] }

theorem test_meets_GateClaims_free :
    let s := rolling 10400 [{ routed with entry := 1000 }]
    s.ticket 1 = some routed ∧ s.acts = true ∧ routed.gates[(0 : TrayIx)] = .notReached ∧
    (∀ n, routed.path = some n → (0 : TrayIx).val ≤ n.val) ∧
    gateAt s 0 ≤ leadingOf s routed + s.tracker.profile[15] ∧
    (∀ v ∈ s.tracker.train, v.gates[(0 : TrayIx)] ≠ .heldOn ∧ v.gates[(0 : TrayIx)] ≠ .heldOff) := by
  refine ⟨rfl, rfl, rfl, ?_, by decide, by decide⟩
  intro n _
  exact Nat.zero_le _

/-- A held gate, as the sheet needs it and otherwise, whose holder has not yet cleared it. -/
theorem test_meets_GateClaims_held :
    let s := rolling 10400 [holder, routed]
    let o := rolling 10400 [opener, routed]
    s.tracker.train = [] ++ holder :: [routed] ∧ o.tracker.train = [] ++ opener :: [routed] ∧
    s.ticket 1 = some routed ∧ holder.gates[(0 : TrayIx)] = .heldOff ∧ opener.gates[(0 : TrayIx)] = .heldOn ∧
    (∀ v ∈ [routed], v.gates[(0 : TrayIx)] ≠ .heldOn ∧ v.gates[(0 : TrayIx)] ≠ .heldOff) ∧
    trailingOf s holder 4000 < gateAt s 0 + s.tracker.profile[16] ∧
    (if routed.path = some 0 then Holding.heldOn else .heldOff) = holder.gates[(0 : TrayIx)] ∧
    (∀ b ∈ o.tracker.train, b.ordinal = 1 → b = routed) := by decide

/-- A release at the first position it is due, and one before. -/
theorem test_meets_GateReleases :
    let s (travel : Long) := rolling travel [opener]
    (s 14700).ticket 6 = some opener ∧ opener.length = some 4000 ∧
    gateAt (s 14700) 0 + (s 14700).tracker.profile[16] ≤ trailingOf (s 14700) opener 4000 ∧
    trailingOf (s 14699) opener 4000 < gateAt (s 14699) 0 + (s 14699).tracker.profile[16] := by decide

/-! ## Hypotheses met: the feeder and the edges -/

/-- A batch that may feed: plates enough, room for notices, nothing in the path. -/
def feedable : State := { rolling 5000 [] with images.free := ⟨some 20, some 21, 108⟩ }

theorem test_meets_FeederActs :
    up.batch.state ≠ .running ∧ feedable.batch.state = .running ∧ feedable.batch.feeder = .atRest ∧
    (feedable.begin.rejectFull || feedable.trayLimitStands) = false ∧ feedable.waits.any = false ∧
    (rolling 5000 []).waits.any = true ∧
    (({ feedable with lines.board := (Vector.replicate 24 .low).set 11 .high } : State).begin.rejectFull) = true ∧
    2000 < (((5000 : Long) - 2999).toNat) ∧ ¬ 2000 < (((5000 : Long) - 3000).toNat) ∧
    ({ feedable with batch.feeder := .feeding 2999 }).batch.feeder = .feeding 2999 ∧
    ({ held with batch.feeder := .feeding 2999 }).batch.state = .feedHold ∧
    ({ rolling 5000 [entered] with batch.state := .draining }).tracker.train ≠ [] := by decide

/-- A drain whose feeder is the last thing to come to rest. -/
theorem test_meets_FeederActs_drain :
    let s : State := { rolling 5000 [] with batch.state := .draining, batch.feeder := .feeding 2999 }
    2000 < (s.tracker.travel - 2999).toNat ∧ s.batch.feeder = .feeding 2999 ∧ s.batch.state = .draining ∧
    s.tracker.train = [] := by decide

theorem test_meets_EntryEdges :
    ¬ Wired up 0 ∧ Wired ready 0 ∧ ready.acts = false ∧ Wired (rolling 5000 []) 0 ∧ (rolling 5000 []).acts = true ∧
    (rolling 5000 (List.replicate 5 routed)).tracker.train.length < 6 ∧
    6 ≤ (rolling 5000 (List.replicate 6 routed)).tracker.train.length ∧
    (rolling 8200 [routed, entered]).tracker.train = [routed] ++ [entered] ∧ entered.length = none ∧
    leadingOf (rolling 8200 [routed, entered]) entered ≤ 7200 ∧ (rolling 5000 []).tracker.train = [] ∧
    routed.length.isSome := by
  unfold Wired; decide

/-- An entry trailing edge beyond its window. -/
theorem test_meets_EntryEdges_late :
    (rolling 8201 [routed, entered]).tracker.train = [routed] ++ [entered] ∧ entered.length = none ∧
    7200 < leadingOf (rolling 8201 [routed, entered]) entered := by decide

/-- A sheet whose first edge has been taken on A. -/
def halfway : Ticket := { entered with armed := { entryTrailing := true, secondEdge := some ⟨.b, 1400⟩, scanLeading := true } }

/-- The first edge at either end of its window, the second at the end of its. -/
theorem test_meets_SensorEdges_edges :
    Wired (rolling 1185 [entered]) 1 ∧ (rolling 1185 [entered]).acts = true ∧
    ExpectsFirst (rolling 1185 [entered]) entered ∧ ExpectsFirst (rolling 1615 [entered]) entered ∧
    ¬ ExpectsFirst (rolling 1184 [entered]) entered ∧ ¬ ExpectsFirst (rolling 1616 [entered]) entered ∧
    ¬ ExpectsFirst (rolling 1750 [halfway]) halfway := by
  unfold Wired ExpectsFirst Near; decide

theorem test_meets_SensorEdges_second :
    ExpectsSecond (rolling 1750 [halfway]) .b halfway ∧ ¬ ExpectsSecond (rolling 1751 [halfway]) .b halfway ∧
    ¬ ExpectsSecond (rolling 1750 [halfway]) .a halfway ∧
    Oldest (rolling 1750 [halfway])
      (fun v => ExpectsFirst (rolling 1750 [halfway]) v ∨ ExpectsSecond (rolling 1750 [halfway]) .b v) halfway ∧
    ({ rolling 1750 [halfway] with engine.measurements := [⟨1, .a, 1400⟩] }).engine.measurements =
      ⟨1, .a, 1400⟩ :: [] := by
  refine ⟨⟨1400, rfl, by decide⟩, ?_, ?_, ⟨[], [], rfl, Or.inr ⟨1400, rfl, by decide⟩, by simp⟩, rfl⟩
  · rintro ⟨c, h, k⟩
    cases h
    exact absurd k (by decide)
  · rintro ⟨c, h, _⟩
    cases h

/-- The scan edges at either end of their windows, for a sheet that is gauged, one that is still ENTERED and
one that is on its way past the sensor. -/
theorem test_meets_SensorEdges_scan :
    Wired (rolling 2560 [gauged]) 5 ∧ (rolling 2560 [gauged]).acts = true ∧
    ExpectsScan (rolling 2560 [gauged]) gauged ∧ ExpectsScan (rolling 2640 [gauged]) gauged ∧
    ¬ ExpectsScan (rolling 2559 [gauged]) gauged ∧ ¬ ExpectsScan (rolling 2641 [gauged]) gauged ∧
    gauged.stage ≠ .entered ∧ entered.stage = .entered ∧ ExpectsScan (rolling 2600 [entered]) entered ∧
    (rolling 2560 [gauged]).batch.duplex = false ∧ (rolling 2560 [gauged]).engine.front.state = .idle ∧
    (∀ b ∈ (rolling 2560 [gauged]).tracker.train, b.ordinal = gauged.ordinal → b = gauged) := by
  unfold Wired ExpectsScan Near; decide

/-- A sheet whose scan trailing edge is expected. -/
def passing : Ticket := { gauged with stage := .scanning, armed := { scanTrailing := true, exitLeading := true } }

/-- The starts of a side that is idle and of one that is not, in a duplex batch. -/
theorem test_meets_SensorEdges_duplex :
    let s : State := { rolling 2560 [gauged] with
      batch.duplex := true, engine.back := { state := .flushing, ordinal := 9 } }
    Oldest s (ExpectsScan s) gauged ∧ gauged.stage ≠ .entered ∧ s.batch.duplex = true ∧
    (s.side .front).state = .idle ∧ (s.side .back).state ≠ .idle ∧
    (∀ b ∈ s.tracker.train, b.ordinal = gauged.ordinal → b = gauged) := by
  refine ⟨⟨[], [], rfl, by unfold ExpectsScan Near; decide, by simp⟩, by decide, rfl, rfl, by decide, by decide⟩

/-- The ends of a side: lines left to flush, none left with its last band queued and with that band gone, a
lost side behind its channel and at it, with and without a start that waits, and a start whose end comes. -/
theorem test_meets_SensorEdges_ends :
    let s (e : DeskewSide) (c : CaptureState) : State := { rolling 6600 [passing] with
      engine.front := e, images.front.state := c }
    (∀ e c, Oldest (s e c) (ExpectsScanEnd (s e c)) passing ∧ (s e c).side .front = e ∧
      ((s e c).capture .front).state = c) ∧
    ToFlush { state := .taking, ordinal := 1, inputs := 4000, outputs := 3999 } passing ∧
    ((4000 + 0 + 15) / 16 * 16 ≤ 4000 ∧ Busy (s {} .transferring) .front) ∧
    [bandOf 250 false] = [] ++ [bandOf 250 false] ∧ (∀ b ∈ ([] : List QueueItem).getLast?, b.bandOf 1 = false) ∧
    (([⟨2, 5, false⟩, ⟨3, 0, true⟩] : List WaitingStart) = ⟨2, 5, false⟩ :: [⟨3, 0, true⟩]) ∧
    (∀ w ∈ ([⟨2, 5, false⟩] : List WaitingStart).head?, w.ended = false) ∧
    ¬ (({ state := .taking, ordinal := 9 } : DeskewSide).ordinal = passing.ordinal) := by
  refine ⟨fun e c => ⟨⟨[], [], rfl, ⟨rfl, 4000, rfl,
    show Near (trailingOf (rolling 6600 [passing]) passing 4000) 1600 40 by unfold Near; decide⟩, by simp⟩, rfl, rfl⟩,
    ⟨rfl, rfl, by decide⟩, ⟨by decide, .inr rfl⟩, rfl, by simp, rfl, by simp, by decide⟩

theorem test_meets_ExitEdges :
    let s := rolling 14200 [routed]
    let e := rolling 18200 [routed]
    let r := rolling 14600 [turned]
    let q := rolling 18600 [turned]
    let z := rolling 18600 [strayed]
    Wired s 9 ∧ s.acts = true ∧ Oldest s (ExpectsExit s (some 3)) routed ∧
    Oldest e (ExpectsExitEnd e (some 3)) routed ∧ Oldest r (ExpectsExit r none) turned ∧
    Oldest q (ExpectsExitEnd q none) turned ∧ Oldest z (ExpectsExitEnd z none) strayed ∧
    Canonical e ∧ (e.slot ((0x31 : Word).toNat / 16)).state ≠ .filing ∧ e.batch.state ≠ .draining ∧
    turned.decision = some ⟨none, none, some .imageLost, {}, none⟩ ∧
    strayed.decision = some ⟨some 3, some ⟨0x31, 2⟩, none, {}, some .gateBusy⟩ ∧
    (∀ u ∈ s.tracker.train, ¬ ExpectsExit s (some 0) u) ∧
    (∀ u ∈ s.tracker.train, ¬ ExpectsExitEnd s (some 0) u) := by
  refine ⟨⟨rfl, rfl⟩, rfl, ⟨[], [], rfl, ?_, by simp⟩, ⟨[], [], rfl, ?_, by simp⟩, ⟨[], [], rfl, ?_, by simp⟩,
    ⟨[], [], rfl, ?_, by simp⟩, ⟨[], [], rfl, ?_, by simp⟩, ⟨by decide, rfl⟩, by decide, by decide, rfl, rfl, ?_, ?_⟩
  · unfold ExpectsExit Near; decide
  · exact ⟨rfl, rfl, 4000, rfl, by unfold Near; decide⟩
  · unfold ExpectsExit Near; decide
  · exact ⟨rfl, rfl, 4000, rfl, by unfold Near; decide⟩
  · exact ⟨rfl, rfl, 4000, rfl, by unfold Near; decide⟩
  · unfold ExpectsExit Near; decide
  · intro u h k
    cases List.mem_singleton.mp h
    exact absurd k.1 (by decide)

/-- A sheet at the reject exit that has no decision yet. -/
theorem test_meets_ExitEdges_undecided :
    let u : Ticket := { turned with stage := .captured, decision := none }
    Oldest (rolling 18600 [u]) (ExpectsExitEnd (rolling 18600 [u]) none) u ∧ u.decision = none :=
  ⟨⟨[], [], rfl, ⟨rfl, rfl, 4000, rfl, by unfold Near; decide⟩, by simp⟩, rfl⟩

/-- The record of slot 3 as FILING with one page left. -/
def lastPage (s : State) : State :=
  { s with record.slots := [(3, ⟨{ (shelf.slot 3) with state := .filing }, 0⟩)] }

/-- The last page of a FILING record at its tray and at the reject exit, and the last sheet of a drain. -/
theorem test_meets_ExitEdges_filing :
    let e := lastPage (rolling 18200 [routed])
    let z := lastPage (rolling 18600 [strayed])
    let d : State := { e with batch.state := .draining }
    Oldest e (ExpectsExitEnd e (some 3)) routed ∧ Oldest z (ExpectsExitEnd z none) strayed ∧ Canonical e ∧
    (e.slot ((0x31 : Word).toNat / 16)).state = .filing ∧
    (e.slot ((0x31 : Word).toNat / 16)).outstanding - 1 = 0 ∧ e.folio.kept = [] ∧
    e.port.notices.length < 16 ∧ 16 ≤ (noticed 16 e).port.notices.length ∧
    ¬ DrainEnds e (without e routed) ∧ DrainEnds d (without d routed) ∧
    InDirectory d d.batch.matter 1 := by
  refine ⟨⟨[], [], rfl, ?_, by simp⟩, ⟨[], [], rfl, ?_, by simp⟩, ⟨by decide, rfl⟩, rfl, rfl, rfl, by decide, by decide,
    fun h => absurd h.1 (by decide), ⟨rfl, rfl, rfl⟩, ⟨_, rfl⟩⟩
  · exact ⟨rfl, rfl, 4000, rfl, by unfold Near; exact ⟨by decide, by decide⟩⟩
  · exact ⟨rfl, rfl, 4000, rfl, by unfold Near; exact ⟨by decide, by decide⟩⟩

/-! ## Hypotheses met: decisions and the shears -/

/-- A sheet that waits for its decision. -/
def waiting : Ticket := { gauged with stage := .captured, frontDone := true, armed := { exitLeading := true } }

/-- A list that takes every sheet as a separator, one that rejects every sheet with code 15, and the empty
list, with a sheet that waits and a document open on tray 4. -/
def deciding (list : List Word) (u : Ticket) : State :=
  { rolling 8000 [u] with
    evaluator.terms := storeTerms 0 list (Vector.replicate 64 0)
    assembler := mounted.assembler }

theorem test_meets_Decisions :
    let p (list : List Word) (u : Ticket) := (((deciding list u).begin).drive 22 .low).drive 23 .low
    let lost : Ticket := { waiting with flags.imageLost := true }
    up.acts = false ∧ (∀ u ∈ (rolling 5000 [entered]).tracker.train, u.stage ≠ .captured) ∧
    (deciding [] waiting).acts = true ∧ (deciding [] waiting).batch.state ≠ .draining ∧
    ((p [0x0100, 0x1200, 0] waiting).evaluate waiting).outcome.separator = true ∧
    ((p [0x0100, 0x110F, 0] waiting).evaluate waiting).outcome.separator = false ∧
    ((p [0x0100, 0x110F, 0] waiting).evaluate waiting).outcome.reject.isSome = true ∧
    ((p [] lost).evaluate lost).outcome.separator = false ∧ lost.flags.imageLost = true ∧
    ((p [] waiting).evaluate waiting).outcome.separator = false ∧
    ((p [] waiting).evaluate waiting).outcome.reject = none ∧ waiting.flags.imageLost = false := by decide +kernel

theorem test_meets_Decisions_append :
    let s := deciding [] waiting
    Oldest s (fun v => v.stage = .captured ∧ ∀ o ∈ s.assembler.outcomes, o.ordinal ≠ v.ordinal) waiting ∧
    s.assembler.openDocument = some ⟨0x31, 3⟩ ∧
    s.assembler.trays[(3 : TrayIx)].fill + s.assembler.trays[(3 : TrayIx)].committed <
      s.assembler.trays[(3 : TrayIx)].hard ∧
    (s.slot ((0x31 : Word).toNat / 16)).pageCount ≠ 249 ∧ Canonical s :=
  ⟨⟨[], [], rfl, ⟨rfl, by decide⟩, by simp⟩, rfl, by decide, by decide, ⟨by decide, rfl⟩⟩

/-- An outcome on its way to a sheet that has not yet come to the gate of its tray, and to one that has. -/
theorem test_meets_Outcomes :
    let o : Outcome := ⟨1, ⟨some 3, some ⟨0x31, 3⟩, none, {}, none⟩⟩
    let late : Ticket := { waiting with gates := #v[.released, .released, .released, .heldOff] }
    let s (u : Ticket) : State := { deciding [] u with assembler.outcomes := [o] }
    up.assembler.outcomes = [] ∧ (s waiting).ticket 1 = some waiting ∧ waiting.flags.exitedUndecided = false ∧
    (∀ b ∈ (s waiting).tracker.train, b.ordinal = 1 → b = waiting) ∧
    waiting.gates[(3 : TrayIx)] = .notReached ∧ (s late).ticket 1 = some late ∧
    late.gates[(3 : TrayIx)] ≠ .notReached := by decide

/-- `waiting` with a plate of either side, behind the record's two. -/
def plated : Ticket := { waiting with frontChain := ⟨some 40, some 40, 1⟩, backChain := ⟨some 41, some 41, 1⟩ }

/-- A ruling that leaves other sheets unruled, one that does not, and the plates of a sheet. -/
theorem test_meets_Decisions_due :
    let s := deciding [] plated
    let d : State := { s with batch.state := .draining }
    Due s plated ∧ Canonical s ∧ ¬ LastRuling s plated ∧ Due d plated ∧ LastRuling d plated ∧
    TicketPlates s plated [40] [41] ∧ s.assembler.openDocument = some ⟨0x31, 3⟩ ∧ ¬ BoxFull s 3 := by
  have o : ∀ q : State, q.tracker.train = [plated] → q.assembler.outcomes = [] →
      Oldest q (fun v => v.stage = .captured ∧ ∀ o ∈ q.assembler.outcomes, o.ordinal ≠ v.ordinal) plated :=
    fun q h k => ⟨[], [], h, ⟨rfl, by rw [k]; simp⟩, by simp⟩
  refine ⟨⟨rfl, o _ rfl rfl⟩, ⟨by decide, rfl⟩, fun h => absurd h.1 (by decide), ⟨rfl, o _ rfl rfl⟩, ⟨rfl, ?_⟩,
    ⟨⟨rfl, trivial⟩, rfl, ⟨rfl, trivial⟩, rfl⟩, rfl, ?_⟩
  · intro v h _
    cases List.mem_singleton.mp h
    rfl
  · unfold BoxFull; decide

/-- `deciding` with no document open, or with tray 4's box full, and slot 0 as the lowest FREE one. -/
def opening (doc : Option OpenDocument) (marker : Bool) (last : Option Word) : State :=
  { deciding [0x0100, 0x0F01, 0] plated with
    assembler := { openDocument := doc, marker := marker, lastClosed := last, rotation := 2,
                   trays := #v[⟨true, 77, 2000, 2000, 1998, 1⟩, {}, {}, ⟨true, 80, 10, 5, 9, 1⟩] } }

theorem test_meets_Decisions_opens :
    (∀ d m l, Opens (opening d m l) 0 1 ∧ Chosen (opening d m l) (.tray 0) 0 ∧
      Chosen (opening d m l) .rotation 0 ∧ ¬ Eligible (opening d m l) 3 ∧ BoxFull (opening d m l) 3) ∧
    OpensAfter (opening none false (some 0x13)) none ∧ OpensAfter (opening none true (some 0x13)) (some 0x13) ∧
    OpensAfter (opening none true (some 0x10)) none ∧ OpensAfter (opening (some ⟨0x31, 3⟩) false none) (some 0x31) := by
  refine ⟨fun d m l => ⟨?_, ⟨?_, .inl rfl⟩, ⟨?_, .inr ⟨rfl, 2, show (0 : Fin 4) = 2 + 2 by decide, ?_⟩⟩, ?_, ?_⟩, ⟨rfl, .inl rfl⟩,
    .inl ⟨rfl, rfl, rfl, _, rfl, rfl, ?_⟩, ⟨rfl, .inr (.inr ⟨_, rfl, ?_⟩)⟩,
    .inr ⟨_, _, rfl, ?_, rfl, ⟨rfl, rfl, .inl rfl⟩, .inl (by decide)⟩⟩
  · exact ⟨show (4087 : Nat) ≠ 0 by decide, rfl, by decide, rfl, by simp, ⟨_, rfl⟩, rfl, show (5000 : Long) ≠ 0 by decide,
      show (5 : Nat) ≠ 0 by decide, show (some 2 : Option Nat) ≠ some 0 by decide⟩
  · exact ⟨rfl, show (1998 + 1 : Nat) < 2000 by decide⟩
  · exact ⟨rfl, show (1998 + 1 : Nat) < 2000 by decide⟩
  · intro i hi h
    have two : ∀ j : TrayIx, j < 2 → j = 0 ∨ j = 1 := by decide
    rcases two i hi with rfl | rfl
    · exact absurd h.1 (show ¬ (false = true) by decide)
    · exact absurd h.2 (show ¬ (9 + 1 : Nat) < 5 by decide)
  · exact fun h => absurd h.2 (show ¬ (9 + 1 : Nat) < 5 by decide)
  · exact show (10 : Nat) ≤ 9 + 1 by decide
  · exact .inr (.inr rfl)
  · rintro r ⟨rfl, h, _⟩
    exact absurd h (show ¬ (3 : BitVec 4) = (0x10 : Word).extractLsb' 0 4 by decide)
  · exact show (10 : Nat) ≤ 9 + 1 by decide

/-- A sheet that cannot be opened for: no route, a tray that takes no document, none that does, no record. -/
theorem test_meets_Decisions_turned :
    let p := ((opening none false none).begin.drive 22 .low).drive 23 .low
    let full : State := { opening none false none with folio.freeSlots := 0 }
    (((deciding [] plated).begin.drive 22 .low).drive 23 .low |>.evaluate plated).outcome.route = .none ∧
    (p.evaluate plated).outcome.route = .tray 0 ∧ (p.evaluate plated).outcome.separator = false ∧
    (p.evaluate plated).outcome.reject = none ∧ plated.flags.imageLost = false ∧ NoRecord full ∧
    Chosen full (.tray 0) 0 ∧ (∀ k, ¬ Eligible { full with assembler.trays := Vector.replicate 4 {} } k) := by
  refine ⟨by decide +kernel, by decide +kernel, by decide +kernel, by decide +kernel, rfl, .inl rfl,
    ⟨⟨rfl, show (1998 + 1 : Nat) < 2000 by decide⟩, .inl rfl⟩, fun k h => ?_⟩
  have none : ∀ j : TrayIx, (Vector.replicate 4 ({} : Tray))[j].mounted = false := by decide
  exact absurd ((none k).symm.trans h.1) (by decide)

/-- An outcome for a sheet that has left by the reject exit, with a page and without, in a drain and not. -/
theorem test_meets_Outcomes_undecided :
    let gone : Ticket := { waiting with flags.exitedUndecided := true, armed := {} }
    let o (page : Option PageOf) : Outcome := ⟨1, ⟨some 3, page, none, {}, none⟩⟩
    let s (page : Option PageOf) (b : BatchState) : State := { deciding [] gone with
      assembler.outcomes := [o page], batch.state := b }
    (∀ g b, (s g b).ticket 1 = some gone ∧ (s g b).assembler.outcomes = o g :: [] ∧
      gone.flags.exitedUndecided = true) ∧
    (∀ g, ¬ DrainEnds (s g .running) (without (s g .running) gone)) ∧
    (∀ g, DrainEnds (s g .draining) (without (s g .draining) gone)) ∧
    Canonical (s (some ⟨0x31, 3⟩) .running) := by
  refine ⟨fun _ _ => ⟨rfl, rfl, rfl⟩, ?_, fun _ => ⟨rfl, rfl, rfl⟩, by decide, rfl⟩
  intro _ h
  cases h.1

/-- A side that flushes, one line from the end of its band less one. -/
theorem test_meets_ShearsAndFlush :
    let e : DeskewSide := { state := .flushing, ordinal := 1, outputs := 14, outputLength := 16,
                            band := List.replicate 14 0 }
    let s : State := { rolling 5000 [] with engine.front := e }
    s.tracker.stopped = false ∧ (s.side .front).state = .flushing ∧ (s.side .front).band.length < 15 ∧
    (s.side .front).outputs + 1 < (s.side .front).outputLength ∧ (s.side .front).queue = [] ∧
    (s.side .front).delta = 0 ∧ (halted .jam).tracker.stopped = true := by decide

/-- A side that flushes: the wait at four bands, a line within its band, a line that completes one, the last
line of the side. -/
theorem test_meets_ShearsAndFlush_band :
    let e (lines bands outputs : Nat) : DeskewSide :=
      { state := .flushing, ordinal := 1, outputs := outputs, outputLength := 32,
        band := List.replicate lines 0, queue := List.replicate bands (bandOf 0 false) }
    let s (d : DeskewSide) : State := { rolling 5000 [] with engine.back := d }
    (∀ d, (s d).tracker.stopped = false ∧ (s d).side .back = d) ∧ (e 15 4 15).band.length = 15 ∧
    4 ≤ bandsQueued (e 15 4 15) ∧ bandsQueued (e 15 3 15) < 4 ∧ (e 14 4 14).band.length < 15 ∧
    (e 14 4 14).outputs + 1 ≠ (e 14 4 14).outputLength ∧ (e 15 3 15).outputs + 1 ≠ (e 15 3 15).outputLength ∧
    (e 15 3 31).outputs + 1 = (e 15 3 31).outputLength ∧ (e 15 3 31).waiting = [] ∧ (-16 : Int) ≠ 0 := by
  refine ⟨fun _ => ⟨rfl, rfl⟩, by decide, by decide, by decide, by decide, by decide, by decide, rfl, rfl, by decide⟩

/-! ## Hypotheses met: the clauses of a second reading -/

/-- A step that wrote slot 1, then place 1, then link 9, newest first. -/
def threeWrites : State :=
  { shelf with journal := [.link 9 {} ⟨some 10, 7, 8, true, .front⟩, .place 1 {} ⟨⟨5000, 2, 5, some 1, some 2, 0⟩, 0⟩,
      .slot 1 {} ⟨filedRecord, 0⟩] }

/-- A cut before, between and behind the writes of a step, and inside each of the three. -/
theorem test_meets_ResetInsideAWrite_cuts :
    Canonical threeWrites ∧ threeWrites.journal = [] ++ threeWrites.journal ∧
    threeWrites.journal = threeWrites.journal ++ [] ∧
    threeWrites.journal = ([] ++ [.link 9 {} ⟨some 10, 7, 8, true, .front⟩]) ++ threeWrites.journal.drop 1 ∧
    threeWrites.journal = (threeWrites.journal.take 1 ++ [.place 1 {} ⟨⟨5000, 2, 5, some 1, some 2, 0⟩, 0⟩]) ++
      threeWrites.journal.drop 2 ∧
    threeWrites.journal = (threeWrites.journal.take 2 ++ [.slot 1 {} ⟨filedRecord, 0⟩]) ++ [] ∧
    (∀ old new, RecordWrite.slot 2 old new ∉ threeWrites.journal) ∧
    (∀ old new, RecordWrite.slot 1 old new ∉ ([] : List RecordWrite)) :=
  ⟨⟨by decide, by decide⟩, rfl, rfl, rfl, rfl, rfl, by simp [threeWrites], by simp⟩

/-- The one live record found with its matter has the largest sequence. -/
theorem test_meets_ReadyRebuilds_sequence :
    Accepts kept 1 5000 ∧ FoundLive kept 1 ∧ (kept.slot 1).matter = 5000 ∧
    (kept.matterAt 1).nextSequence ≠ 0 ∧ (kept.slot 1).sequence ≠ 65535 :=
  ⟨test_meets_ReadyRebuilds_accepts, test_meets_ReadyRebuilds_slots.2.2.1, rfl, by decide, by decide⟩

/-- The second record of a chain leaves it for another matter, whose tail stands in neither's way. -/
theorem test_meets_RefileMoves_chain :
    let lone : State := { shelf with
      record.slots := [(1, ⟨{ filedRecord with chainNext := none }, 0⟩)]
      record.directory := [(1, ⟨⟨5000, 1, 5, some 1, some 1, 0⟩, 0⟩)]
      folio.index := [⟨5000, 1, false⟩] }
    Names shelf 0x20 (shelf.slot 2) ∧ ¬ Held shelf (shelf.slot 2) ∧ shelf.chainBefore 2 (shelf.slot 2).place = some 1 ∧
    (shelf.matterAt 2).tail = some 5 ∧ (shelf.matterAt 2).tail ≠ some 1 ∧
    shelf.chainBefore 2 (shelf.slot 2).place ≠ some 5 ∧ ¬ LastOut shelf 1 ∧ LastOut lone 1 ∧
    (shelf.matterAt 1).number ≠ 0 := by
  unfold Names Held LastOut; decide +kernel

/-- Two records in two slots that continue one another. -/
def partners : State :=
  { shelf with
    record.slots := [(1, ⟨{ filedRecord with successor := some 0x20 }, 0⟩),
      (2, ⟨{ filedRecord with sequence := 3, chainNext := none, generation := 0, predecessor := some 0x13 }, 0⟩)] }

/-- Either of two partners retires, and a record without a partner. -/
theorem test_meets_RetireRemoves_partners :
    Names partners 0x13 (partners.slot 1) ∧ Canonical partners ∧
    NamesBack partners (partners.slot 1).successor Record.predecessor 0x13 2 ∧
    ¬ NamesBack partners (partners.slot 1).predecessor Record.successor 0x13 2 ∧
    NamesBack partners (partners.slot 2).predecessor Record.successor 0x20 1 ∧
    partners.chainBefore 2 (partners.slot 2).place = some 1 := by
  refine ⟨⟨rfl, rfl, by decide⟩, ⟨by decide, rfl⟩, ⟨0x20, rfl, rfl, ⟨rfl, rfl, by decide⟩, rfl⟩, ?_,
    ⟨0x13, rfl, rfl, ⟨rfl, rfl, by decide⟩, rfl⟩, by decide +kernel⟩
  rintro ⟨f, h, _⟩
  cases h

/-- Chains given back: none with a plate, one and two behind a queue, and one to an empty queue. -/
theorem test_meets_ChainsReturned :
    let one : PlateChain := ⟨some 9, some 10, 2⟩
    let two : PlateChain := ⟨some 40, some 40, 1⟩
    let given (cs : List PlateChain) := cs.filter fun c => decide (0 < c.count)
    given [⟨none, none, 0⟩] = [] ∧ given [one] = one :: [] ∧ given [one] = [] ++ [one] ∧
    given [one, two] = [] ++ one :: two :: [] ∧ shelf.images.free.tail = some 21 ∧
    (∀ c ∈ given [one, two], c.tail ≠ some 21) ∧ (∀ x ∈ [two], x.tail ≠ one.tail) ∧
    shelf.images.free.length ≠ 0 ∧ up.images.free.length = 0 := by decide

/-- The next word read makes room for a side header. -/
theorem test_meets_ExportDataRead_header :
    let s := exporting (.sideHeader [0x5A11, 1, 2, 8]) .waiting [1, 2]
    s.images.exporter.state = .waiting ∧ s.images.exporter.run.map (·.residue) = some (some 7) ∧
    ([0x5A11, 1, 2, 8] : List Word).length = 4 ∧ ([2] : List Word).length + 4 ≤ 8192 ∧ s.images.transfer = none ∧
    capturing.images.transfer ≠ none := by decide

theorem test_meets_TrainReads_decided :
    (rolling 0 [turned]).ticket 1 = some turned ∧
    turned.decision = some ⟨none, none, some .imageLost, {}, none⟩ := by decide

/-- A halt with an outcome on its way, a document open or not, and a matter with and without a record. -/
theorem test_meets_ClearTrainEmpties_disposes :
    let o : Outcome := ⟨1, ⟨some 3, some ⟨0x31, 3⟩, none, {}, none⟩⟩
    let s (c : HaltCause) (stop : Bool) : State := { halted c with
      batch := { state := .halted, haltCause := some c, matter := 5000, stopTaken := stop }
      assembler := { mounted.assembler with outcomes := [o] } }
    let bare : State := { s .abort false with record.directory := [(1, ⟨⟨5000, 0, 5, none, none, 0⟩, 0⟩)] }
    (∀ c b, Canonical (s c b) ∧ (s c b).batch.state = .halted ∧ (s c b).batch.haltCause = some c ∧
      (s c b).assembler.outcomes = o :: [] ∧ (s c b).assembler.openDocument = some ⟨0x31, 3⟩) ∧
    (halted .jam).assembler.openDocument = none ∧ 0 < ((s .jam true).slot 3).outstanding ∧
    InDirectory (s .abort false) 5000 1 ∧ ((s .abort false).matterAt 1).recordCount ≠ 0 ∧
    ((bare.matterAt 1).number ≠ 0 ∧ (bare.matterAt 1).recordCount = 0 ∧ (bare.matterAt 1).holdCount = 0) ∧
    NotInDirectory { s .abort false with folio.index := [] } 5000 :=
  ⟨fun _ _ => ⟨⟨show shelf.record.wf = true by decide, rfl⟩, rfl, rfl, rfl, rfl⟩, rfl, by decide, ⟨_, rfl⟩, by decide, by decide, rfl⟩

/-- The disposal of an undecided sheet, of a page and of a sheet that is no page. -/
theorem test_meets_Disposed :
    entered.decision = none ∧ turned.decision = some ⟨none, none, some .imageLost, {}, none⟩ ∧
    routed.decision = some ⟨some 3, some ⟨0x31, 2⟩, none, {}, none⟩ := by decide

/-- A free port and the audit's request, which becomes eligible; a free port that nobody asks for. -/
theorem test_meets_PortGiven :
    let s : State := { auditing with images.audit.masked := false }
    s.images.transfer = none ∧ Grantable s .audit ∧ ¬ Grantable auditing .audit ∧
    s.images.order = [.captureFront, .captureBack] ++ .audit :: [.exporter] ∧
    (∀ b ∈ [Channel.captureFront, .captureBack], ¬ Grantable s b) ∧ (∀ c ∈ up.images.order, ¬ Grantable up c) := by
  unfold Grantable; decide

/-- A request while the port is free and nobody asks, and while it is busy. -/
theorem test_meets_RequestMade :
    shelf.images.transfer = none ∧ (∀ c, shelf.asks c = false) ∧ Channel.audit ∈ shelf.images.order ∧
    shelf.images.audit.masked = false ∧ capturing.images.transfer ≠ none :=
  ⟨rfl, fun c => by cases c <;> rfl, by decide, rfl, by decide⟩

/-- A first plate that is a side start with another of its side behind it, one that is none, one that is
absent, and a buffer with and without room for the header. -/
theorem test_meets_PlateTaken :
    let loose : State := { shelf with record.links := [(9, ⟨some 10, 7, 8, false, .front⟩), (10, ⟨none, 8, 8, true, .back⟩)] }
    let whole : State := { shelf with record.links := [(9, ⟨some 10, 7, 8, true, .front⟩), (10, ⟨none, 8, 8, false, .front⟩)] }
    (shelf.slot 1).plateHead = some 9 ∧ 0 < (shelf.link 9).bandsUsed ∧ (loose.link 9).sideStart = false ∧
    (whole.link 9).sideStart = true ∧ SidePlates whole [9, 10] ∧ ([10] : List Nat).length < 2 - 0 ∧
    SidePlates shelf [9] ∧ ({ filedRecord with plateHead := none }).plateHead = none ∧
    ([] : List Word).length + 4 ≤ 8192 ∧ 8192 < (List.replicate 8192 (0 : Word)).length + 4 := by
  refine ⟨rfl, by decide, rfl, rfl, ⟨rfl, rfl, fun q h => by cases h⟩, by decide, ?_, rfl, by decide, ?_⟩
  · intro q h
    obtain rfl : (10 : Nat) = q := Option.some.inj h
    rfl
  · rw [List.length_replicate]; decide

/-- A side in hand that cannot have a plate, whose engine side takes, flushes, discards or has gone on. -/
theorem test_meets_NoPlate :
    let s : State := { carrying 0 [bandOf 7 false, bandOf 8 false] with images.free := {} }
    let h (n : Nat) : CaptureSide := { ordinal := 1, plates := n, current := some 20, residue := none, first := true }
    NoPlate s (h 1) .noPlate ∧ NoPlate s (h 54) .sideLimit ∧ Canonical s ∧
    (∀ i ∈ [bandOf 8 false], i.bandOf 1 = true) ∧ (8 : Nat) ≠ 0 ∧ (h 1).closed = false ∧
    ((s.side .front).ordinal = 1 ∧ (s.side .front).state = .taking) ∧
    ({ s with engine.front := { state := .flushing, ordinal := 1 } }).engine.front.waiting = [] ∧
    ({ s with engine.front := {} }).engine.front.state = .idle ∧ s.tracker.stopped = false :=
  ⟨.inr ⟨by decide, rfl, rfl⟩, .inl ⟨by decide, rfl⟩, ⟨by decide, rfl⟩, by decide, by decide, rfl, ⟨rfl, rfl⟩, rfl, rfl, rfl⟩

/-- A lost end that was held behind the granted band. -/
theorem test_meets_BandTransfer_lost_end :
    let s := carrying 3 [bandOf 4 false, .ended 1 true]
    (s.side .front).queue.tail = [.ended 1 true] ∧ Canonical s ∧ s.acts = true ∧
    (s.capture .front).pendingEnd.getD .bandOverrun = .bandOverrun := by
  refine ⟨rfl, ⟨by decide, rfl⟩, rfl, rfl⟩

/-- The last band of a plate with another behind it, and with none where one is expected. -/
theorem test_meets_BandTransfer_export_plates :
    (1 : Nat) < 2 ∧ (shelf.link 9).next = some 10 ∧ 0 < (shelf.link 10).bandsUsed ∧ (shelf.link 10).next = none ∧
    (List.replicate 4095 (0 : Word)).length < 4096 := by
  refine ⟨by decide, rfl, by decide, rfl, ?_⟩
  rw [List.length_replicate]; decide

/-- A batch to be stopped with every ticket ruled on, and one that feeds into an empty train. -/
theorem test_meets_StopBatch_ruled :
    let s : State := { rolling 5000 [routed] with assembler := mounted.assembler }
    let f : State := { rolling 5000 [] with batch.feeder := .feeding 10 }
    Canonical s ∧ s.batch.state = .running ∧ (∀ v ∈ s.tracker.train, ¬ Unruled s v) ∧
    ¬ (s.tracker.train = [] ∧ s.batch.feeder = .atRest) ∧ s.assembler.openDocument = some ⟨0x31, 3⟩ ∧
    (∀ v ∈ f.tracker.train, ¬ Unruled f v) ∧ ¬ (f.tracker.train = [] ∧ f.batch.feeder = .atRest) ∧
    Canonical held := by
  refine ⟨⟨by decide, rfl⟩, rfl, ?_, by decide, rfl, fun v h => (by cases h), by decide, ⟨by decide, rfl⟩⟩
  intro v h k
  cases List.mem_singleton.mp h
  exact absurd rfl k.1

/-- SET LINE at L0 that lets it be seen asserted, and one that takes that back. -/
theorem test_meets_LineRequests_edges :
    let raised : State := { driven with lines.settings := driven.lines.settings.set 0 (settingOf 1 1 0 1 1) }
    edgeAt 0 true = some .entryLeadingEdge ∧ edgeAt 0 false = some .entryTrailingEdge ∧
    edgeAt 10 false = some (.exitTrailingEdge .reject) ∧
    ¬ SeenAt driven 0 driven.lines.board[(0 : LineIx)] ∧ SeenAt raised 0 raised.lines.board[(0 : LineIx)] ∧
    settingOf 1 0 0 1 1 = { raised.lines.settings[(0 : LineIx)] with latch := (settingOf 1 0 0 1 1).latch } ∧
    (0 : Word).toNat = (0 : LineIx).val := by
  refine ⟨rfl, rfl, rfl, fun h => absurd h.2 (show ¬ (true = false) by decide), ⟨rfl, rfl⟩, by decide, rfl⟩

/-- The pin of a line for each row, and the functions of a batch that runs. -/
theorem test_meets_PinLevels :
    let s := rolling 5000 [opener]
    let i (pull : Bool) (d : Drive) : State := { s with
      lines := { settings := s.lines.settings.set 0 ⟨false, false, pull, true, true⟩, board := (Vector.replicate 24 .low).set 0 d } }
    (∀ p d, (i p d).lines.settings[(0 : LineIx)].output = false ∧ (i p d).lines.board[(0 : LineIx)] = d ∧
      (i p d).lines.settings[(0 : LineIx)].pull = p) ∧
    driven.lines.settings[(0 : LineIx)].output = true ∧
    (s.lines.settings[(14 : LineIx)].output = true ∧ s.lines.settings[(14 : LineIx)].enabled = true ∧ ¬ Parked s 14) ∧
    Parked (halted .jam) 17 ∧ (halted .jam).lines.settings[(17 : LineIx)].output = true ∧ GateOn s 0 ∧ ¬ GateOn s 1 := by
  refine ⟨fun _ _ => ⟨rfl, rfl, rfl⟩, rfl, ⟨rfl, rfl, ?_⟩, ⟨by decide, by decide, rfl, .inr rfl⟩, rfl, ⟨[], opener, [], rfl, rfl, by simp⟩, ?_⟩
  · rintro ⟨_, _, _, h | h⟩ <;> cases h
  · rintro ⟨a, h, b, e, k, _⟩
    have : h ∈ [opener] := by
      show h ∈ (rolling 5000 [opener]).tracker.train
      rw [e]; simp
    cases List.mem_singleton.mp this
    exact absurd k (by decide)

/-- A band made ready for a channel that waits with its plate spent, and one whose request an overrun
withdraws. -/
theorem test_meets_TravelPulse_channel :
    let h : CaptureSide := { ordinal := 1, plates := 1, current := some 20, residue := none, first := true }
    let s (free : FreeQueue) (state : CaptureState) (e : DeskewSide) : State := {
      rolling 3000 [{ gauged with stage := .scanning }] with
      engine.front := e, images.free := free, images.front := { state := state, side := some h } }
    (∀ f x e, ((s f x e).capture .front).state = x ∧ ((s f x e).capture .front).pendingEnd = none ∧
      ((s f x e).capture .front).side = some h ∧ (s f x e).side .front = e) ∧
    h.residue = none ∧ 0 < h.plates ∧ h.plates < 54 ∧ h.closed = false ∧
    FreeHead (s ⟨some 30, some 31, 2⟩ .waiting (shearing 15 0)) 30 ⟨(shelf.link 30).next, some 31, 1⟩ ∧
    Canonical (s {} .waiting (shearing 15 0)) ∧ NoPlate (s {} .waiting (shearing 15 0)) h .noPlate ∧
    (15 ≤ (shearing 15 4).band.length ∧ 4 ≤ bandsQueued (shearing 15 4)) ∧
    (∀ i ∈ (shearing 15 4).queue, i.bandOf (shearing 15 4).ordinal = true) ∧
    ((s {} .requesting (shearing 15 4)).side .back).state ≠ .taking ∧
    (up.images.free.length = 0 ∧ up.images.front.side = none) :=
  ⟨fun _ _ _ => ⟨rfl, rfl, rfl, rfl⟩, rfl, by decide, by decide, rfl, ⟨rfl, by decide, rfl⟩, ⟨by decide, rfl⟩,
    .inr ⟨by decide, rfl, rfl⟩, by decide, by decide, by decide, by decide⟩

/-- Lines that do not see their pins, and a tracker that does not act. -/
theorem test_meets_edges_that_only_move_the_pin :
    (¬ Wired up 1 ∧ ¬ Wired up 5 ∧ ¬ Wired up 10) ∧ ready.acts = false ∧ Wired ready 9 := by
  unfold Wired; decide

/-- The last line of a side with a start waiting. -/
theorem test_meets_ShearsAndFlush_waiting :
    let e : DeskewSide := { state := .flushing, ordinal := 1, outputs := 31, outputLength := 32,
                            band := List.replicate 15 0, waiting := [⟨2, 5, false⟩] }
    e.outputs + 1 = e.outputLength ∧ (∀ w ∈ e.waiting.head?, w.ended = false) ∧ e.waiting = ⟨2, 5, false⟩ :: [] := by
  decide

end Sys2Proof.Tests
end

/-! PROOFS. How the port takes a request from its words and how a served request answers, in the vocabulary of
the statements: `takenFrom_of_owner` for the words, `after_of_owner` and the `reads_of` lemmas for the reply. -/

namespace Sys2Proof.Proofs

open Sys2Proof.Machine Sys2Proof.Safety Sys2Proof.Claims Sys2Proof.Laws

/-! ## Reply words (R188) -/

theorem number_lt (code : ReplyCode) : code.number < 32 := by cases code <;> decide

/-- The packed header is the header's arithmetic, since code and tag fit their five bits. -/
theorem replyHeader_eq (tag : Tag) (r : Reply) : replyHeader tag r =
    BitVec.ofNat 16 (r.code.number * 2048 + r.results.length % 32 * 64 + tag.toNat) := by
  have hcode : r.code.number % 32 = r.code.number := Nat.mod_eq_of_lt (number_lt r.code)
  have htag : tag.toNat % 32 = tag.toNat := Nat.mod_eq_of_lt tag.isLt
  simp [replyHeader, pack, packBelow, word, hcode, htag, Nat.add_assoc]

theorem words_eq_replyWords (tag : Tag) (r : Reply) :
    r.words tag = replyWords r.code.number tag r.results := by
  rw [Reply.words, replyHeader_eq, replyWords]

/-- An answer on a state whose port is still that of `s` is an answer to `s`. -/
theorem answers_of_port {s t : State} (h : t.port = s.port) (tag : Tag) (r : Reply) :
    Answers s (t.answer tag r) r.code.number tag r.results := by
  rw [Answers, ← words_eq_replyWords, ← h]
  rfl

/-! ## Request words (R186, R188) -/

section Header

variable {code count : Nat} (hcode : code < 256) (hcount : count < 8) (tag : Tag)

include hcode hcount

/-- A field of a request header: the fields fit, so they stand side by side. -/
theorem field_requestHeader (start len : Nat) :
    ((requestHeader code count tag).extractLsb' start len).toNat =
      (code * 256 + count * 32 + tag.toNat) / 2 ^ start % 2 ^ len := by
  have fits : code * 256 + count * 32 + tag.toNat < 2 ^ 16 := by
    have := tag.isLt
    omega
  rw [BitVec.extractLsb'_toNat, requestHeader, BitVec.toNat_ofNat, Nat.mod_eq_of_lt fits,
    Nat.shiftRight_eq_div_pow]

theorem requestCode_requestHeader : requestCode (requestHeader code count tag) = code := by
  have := tag.isLt
  rw [requestCode, field_requestHeader hcode hcount]
  omega

theorem requestCount_requestHeader : requestCount (requestHeader code count tag) = count := by
  have := tag.isLt
  rw [requestCount, field_requestHeader hcode hcount]
  omega

theorem requestTag_requestHeader : requestTag (requestHeader code count tag) = tag := by
  have := tag.isLt
  apply BitVec.eq_of_toNat_eq
  rw [requestTag, field_requestHeader hcode hcount]
  omega

end Header

theorem canAnswer_of_roomFor {code : Nat} {s : State} (h : RoomFor code s) :
    s.canAnswer (largestReply code) = true := by
  have room := Nat.le_sub_of_add_le' h
  exact decide_eq_true room

/-- With a request's words at the head of the FIFO and room for its reply, its owner serves it on the rest. -/
theorem takeRequest_of_words {s : State} {code : Nat} {tag : Tag} {args rest : List Word}
    (hcode : code < 256) (hargs : args.length < 8)
    (hwords : s.port.requests = requestHeader code args.length tag :: args ++ rest)
    (room : RoomFor code s) :
    s.takeRequest = serve tag (ownerOrBad code args) { s with port.requests := rest } := by
  have enough : ¬ ((args ++ rest).length < args.length ∨
      (!s.canAnswer (largestReply code)) = true) := by
    simp [canAnswer_of_roomFor room]
  unfold State.takeRequest
  simp only [hwords, List.cons_append, requestCode_requestHeader hcode hargs,
    requestCount_requestHeader hcode hargs, requestTag_requestHeader hcode hargs]
  rw [if_neg enough, List.take_left, List.drop_left]

/-- A row that runs the owner of its code and arguments is what the port runs for its words. -/
theorem takenFrom_of_owner {i : Instr} {code : Nat} {tag : Tag} {args : List Word} {owner : Owner}
    (hcode : code < 256) (hargs : args.length < 8) (howner : ownerOf code args = some owner)
    (run : ∀ s, exec i s = request (largestReply code) tag owner s) : TakenFrom i code tag args := by
  intro s rest hwords room
  have taken : s.begin.takeRequest = _ := takeRequest_of_words (s := s.begin) hcode hargs hwords room
  have answerable : ({ s with port.requests := rest } : State).begin.canAnswer (largestReply code) = true :=
    canAnswer_of_roomFor (s := s) room
  rw [run, request, complete, if_pos answerable]
  show Host.Outcome.next s.begin.takeRequest = _
  rw [taken, ownerOrBad, howner]
  rfl

/-! ## Requests that are served -/

section Served

variable {i : Instr} {s : State} {most : Nat} {tag : Tag} {owner : Owner}

/-- A request row that the port serves leaves its owner's state, answered with its owner's reply. -/
theorem after_of_owner (run : exec i s = request most tag owner s) (takes : Takes most s) {t : State}
    {r : Reply} (h : owner s.begin = (t, r)) {holds : State → Prop} (after : holds (t.answer tag r)) :
    After i s holds := by
  obtain ⟨idle, room⟩ := takes
  refine ⟨_, run.trans (request_taken tag owner idle room), ?_⟩
  rw [h]
  exact after

/-- An owner that changes nothing makes its row one that reads. -/
theorem reads_of_owner (run : exec i s = request most tag owner s) (takes : Takes most s) {r : Reply}
    (h : owner s.begin = (s.begin, r)) : Reads i s r.code.number tag r.results :=
  after_of_owner run takes h
    ⟨answers_of_port (begin_port s) tag r, by simp [Unchanged]⟩

theorem reads_of_refused (code : ReplyCode) (run : exec i s = request most tag owner s)
    (takes : Takes most s) (h : owner s.begin = refused code s.begin) : Reads i s code.number tag [] :=
  reads_of_owner (r := refuse code) run takes h

end Served

end Sys2Proof.Proofs

/-! PROOFS. The folio table's LOOKUP, SET RETENTION and PURGE SLOT (R20, R24, R32). -/

namespace Sys2Proof.Proofs

open Sys2Proof.Machine Sys2Proof.Safety Sys2Proof.Claims Sys2Proof.Laws Sys2Proof.Laws.Batches

/-! ## Folios that name a live record (R2, R9) -/

theorem resolve_of_names {s : State} {folio : Word} {r : Record} (h : Names s folio r) :
    s.resolve folio = .ok r := by
  obtain ⟨hslot, hgen, hstate⟩ := h
  have hr : s.slot (slotOf folio) = r := hslot
  have hgen : r.generation = generationOf folio := hgen
  have hfree : r.state ≠ .free := by rintro e; simp [e] at hstate
  have hlive : r.state.live = true := by
    rcases hstate with e | e | e <;> rw [e] <;> rfl
  simp [State.resolve, hr, hgen, hfree, hlive]

/-- The owner of a folio request runs its own part on the live record the folio names. -/
theorem onFolio_of_names {s : State} {folio : Word} {r : Record} (h : Names s folio r)
    (own : Record → State → State × Reply) : onFolio folio own s.begin = own r s.begin := by
  have : s.begin.resolve folio = .ok r := resolve_of_names (s := s.begin) h
  rw [onFolio, this]

theorem heldRecord_iff (s : State) (r : Record) : s.heldRecord r = true ↔ Held s r := by
  simp [State.heldRecord, Held]

/-! ## One slot written and the request answered -/

/-- A slot write and its reply touch only record memory and the port. -/
theorem unchanged_putSlot_answer (s : State) (n : Nat) (r : Record) (tag : Tag) (reply : Reply) :
    Unchanged [.port, .record] s ((s.begin.putSlot n r).answer tag reply) := by
  simp [Unchanged]

theorem slotWritten_putSlot_answer {s : State} (c : Canonical s) (n : Nat) (r : Record) (tag : Tag)
    (reply : Reply) : SlotWritten s ((s.begin.putSlot n r).answer tag reply) n r :=
  slotWritten_of c n r rfl

/-! ## LOOKUP (R20) -/

theorem packBelow_cons (room w v : Nat) (fs : List (Nat × Nat)) :
    packBelow room ((w, v) :: fs) = (v % 2 ^ w) * 2 ^ (room - w) + packBelow (room - w) fs := rfl

/-- The tag summary packs as its four tags one by one, tag 0 first (R193). -/
theorem packBelow_tags {room : Nat} (h : 4 ≤ room) (t : Tags) (fs : List (Nat × Nat)) :
    packBelow room ((4, t.code) :: fs) =
      packBelow room ((1, bit t.tag0) :: (1, bit t.tag1) :: (1, bit t.tag2) :: (1, bit t.tag3) :: fs) := by
  obtain ⟨k, rfl⟩ := Nat.exists_eq_add_of_le' h
  have hbit : ∀ b, bit b % 2 = bit b := by decide
  have hcode : t.code % 16 = t.code := by
    obtain ⟨a, b, c, d⟩ := t
    revert a b c d
    decide
  simp only [packBelow_cons, Nat.reducePow, hbit, hcode, Nat.add_sub_cancel, Nat.reduceSubDiff]
  rw [Tags.code]
  ring

/-- The summary's first word with its tags one by one. -/
theorem pack_summaryHead (state cls tray shed : Nat) (t : Tags) :
    pack [(3, state), (4, cls), (4, t.code), (3, tray), (1, shed)] =
      pack [(3, state), (4, cls), (1, bit t.tag0), (1, bit t.tag1), (1, bit t.tag2), (1, bit t.tag3),
        (3, tray), (1, shed)] := by
  rw [pack, packBelow_cons, packBelow_cons, packBelow_tags (by decide)]
  rfl

/-- LOOKUP's reply is the largest of the folio requests (R20). -/
theorem largestReply_le_lookup {code : Nat} (h : code / 16 = 1) :
    largestReply code ≤ largestReply 0x10 := by
  have folio : ∀ c < 32, 16 ≤ c → largestReply c ≤ largestReply 0x10 := by decide
  exact folio code (by omega) (by omega)

theorem exec_lookup (tag : Tag) (folio : Word) (s : State) : exec (.lookup tag folio) s =
    request (largestReply 0x10) tag (ownerLookup folio) s := rfl

/-- Settles O22: the owner answers the summary; its first word shows each
live state, and a tray present or absent, by the numbers of R193. -/
theorem lookupAnswers : Obligations.LookupAnswers := by
  unfold Obligations.LookupAnswers
  intro s tag folio r names takes
  refine ⟨takenFrom_of_owner (by decide) (by simp) rfl (exec_lookup tag folio),
    fun _ => largestReply_le_lookup, rfl, ?_⟩
  have owner : ownerLookup folio s.begin = (s.begin, okWith (r.summary (s.heldRecord r))) :=
    onFolio_of_names names _
  obtain ⟨-, -, live⟩ := names
  have reply := reads_of_owner (exec_lookup tag folio s) takes owner
  rw [okWith, Record.summary, pack_summaryHead] at reply
  rcases live with state | state | state <;> rw [state] at reply ⊢
  all_goals
    cases tray : r.tray <;> rw [tray] at reply <;> exact reply

/-! ## SET RETENTION (R24) -/

theorem exec_setRetention (tag : Tag) (folio day : Word) (s : State) :
    exec (.setRetention tag folio day) s =
      request (largestReply 0x14) tag (ownerSetRetention folio day) s := rfl

/-- The owner's three branches, on a folio that names a live record. -/
theorem ownerSetRetention_eq {s : State} {folio : Word} {r : Record} (names : Names s folio r)
    (day : Word) : ownerSetRetention folio day s.begin =
      if r.state ≠ .filed then refused .state s.begin
      else if day.toNat < r.retention ∧ s.heldRecord r then refused .held s.begin
      else (s.begin.putSlot (slotOf folio) { r.amend with retention := day.toNat },
        okWith [word r.retention]) := by
  rw [ownerSetRetention, onFolio_of_names names]
  rfl

/-- Settles O24, one branch of the owner at a time. -/
theorem setRetentionStores : Obligations.SetRetentionStores := by
  unfold Obligations.SetRetentionStores
  intro s tag folio day r names takes
  have run := exec_setRetention tag folio day s
  have owner := ownerSetRetention_eq names day
  refine ⟨takenFrom_of_owner (by decide) (by simp) rfl (exec_setRetention tag folio day), ?_, ?_, ?_⟩
  · intro notFiled
    rw [if_pos notFiled] at owner
    exact reads_of_refused .state run takes owner
  · intro filed shorter held
    rw [if_neg (not_not.mpr filed), if_pos ⟨shorter, (heldRecord_iff s r).mpr held⟩] at owner
    exact reads_of_refused .held run takes owner
  · intro canonical filed allowed
    have notShortened : ¬ (day.toNat < r.retention ∧ s.heldRecord r) := by
      rintro ⟨shorter, held⟩
      exact allowed.elim (Nat.not_le.mpr shorter) (· ((heldRecord_iff s r).mp held))
    rw [if_neg (not_not.mpr filed), if_neg notShortened] at owner
    exact after_of_owner run takes owner
      ⟨answers_of_port rfl tag _, unchanged_putSlot_answer s _ _ tag _,
        slotWritten_putSlot_answer canonical _ _ tag _⟩

/-! ## PURGE SLOT (R32) -/

theorem exec_purgeSlot (tag : Tag) (slot : Word) (s : State) : exec (.purgeSlot tag slot) s =
    request (largestReply 0x1C) tag (ownerPurgeSlot slot) s := rfl

/-- The state PURGE SLOT leaves before its reply: the slot vacated and one more slot free. -/
def purged (s : State) (slot : Nat) : State :=
  { s.putSlot slot (s.slot slot).vacated with folio.freeSlots := s.folio.freeSlots + 1 }

/-- The owner's three branches. -/
theorem ownerPurgeSlot_eq (slot : Word) (s : State) : ownerPurgeSlot slot s.begin =
    if 4095 < slot.toNat then refused .badArgument s.begin
    else if (s.slot slot.toNat).state ≠ .damaged then refused .state s.begin
    else (purged s.begin slot.toNat, okWith [(s.slot slot.toNat).vacated.folio slot.toNat]) := rfl

/-- A purge touches only the slot, the free-slot count and the port. -/
theorem unchanged_purged_answer (s : State) (slot : Nat) (tag : Tag) (reply : Reply) :
    Unchanged [.port, .folio, .record] s ((purged s.begin slot).answer tag reply) := by
  simp [Unchanged, purged]

/-- Settles O30, one branch of the owner at a time. -/
theorem purgeSlotFrees : Obligations.PurgeSlotFrees := by
  unfold Obligations.PurgeSlotFrees
  intro s tag slot takes
  have run := exec_purgeSlot tag slot s
  have owner := ownerPurgeSlot_eq slot s
  refine ⟨takenFrom_of_owner (by decide) (by simp) rfl (exec_purgeSlot tag slot), ?_, ?_, ?_⟩
  · intro beyond
    rw [if_pos beyond] at owner
    exact reads_of_refused .badArgument run takes owner
  · intro inside sound
    rw [if_neg (Nat.not_lt.mpr inside), if_pos sound] at owner
    exact reads_of_refused .state run takes owner
  · intro canonical inside damaged
    rw [if_neg (Nat.not_lt.mpr inside), if_neg (not_not.mpr damaged)] at owner
    exact after_of_owner run takes owner
      ⟨answers_of_port rfl tag _, slotWritten_of canonical _ _ rfl, rfl,
        unchanged_purged_answer s _ tag _⟩

end Sys2Proof.Proofs

/-! PROOFS. The term list's CLEAR TERMS (R76). -/

namespace Sys2Proof.Proofs

open Sys2Proof.Machine Sys2Proof.Safety Sys2Proof.Claims Sys2Proof.Laws

/-! ## Cleared stored values and tag lines (R76, R89) -/

theorem clearStored_values (e : Evaluator) (k : Fin 8) :
    e.clearStored.latches[k] = false ∧ e.clearStored.pulses[k] = false ∧
      e.clearStored.memories[k] = false ∧ e.clearStored.marks[k] = false := by
  simp [Evaluator.clearStored]

/-- The tag lines L18 to L21 show the four tags, so they are low when every tag is false. -/
theorem functionValue_of_tags_false {s : State} (tags : s.evaluator.tags = {}) {l : LineIx}
    (low : 18 ≤ l.val) (high : l.val ≤ 21) : s.functionValue l = false := by
  have line : l.val = 18 ∨ l.val = 19 ∨ l.val = 20 ∨ l.val = 21 := by omega
  rcases line with line | line | line | line <;> simp [State.functionValue, line, tags]

/-! ## CLEAR TERMS (R76) -/

theorem exec_clearTerms (tag : Tag) (s : State) :
    exec (.clearTerms tag) s = request (largestReply 0x31) tag ownerClearTerms s := rfl

/-- The state CLEAR TERMS leaves before its reply: the stored values cleared and every place zero. -/
def termsCleared (s : State) : State :=
  { s with evaluator := { s.evaluator.clearStored with terms := Vector.replicate 64 0 } }

/-- The owner's two branches. -/
theorem ownerClearTerms_eq (s : State) : ownerClearTerms s.begin =
    if s.batch.state ≠ .idle then refused .state s.begin
    else (termsCleared s.begin, okWith []) := rfl

theorem termsCleared_terms (s : State) (k : Fin 64) : (termsCleared s).evaluator.terms[k] = 0 := by
  simp [termsCleared]

/-- The zero word is the term END with operand 0 (R74). -/
theorem zero_is_end : termKind 0 = some .endList ∧ termOperand 0 = 0 := by decide

/-- Clearing the terms touches only the evaluator, and the reply only the port. -/
theorem unchanged_termsCleared_answer (s : State) (tag : Tag) (reply : Reply) :
    Unchanged [.port, .evaluator] s ((termsCleared s.begin).answer tag reply) := by
  simp [Unchanged, termsCleared]

/-- Settles O34, one branch of the owner at a time. -/
theorem clearTermsClears : Obligations.ClearTermsClears := by
  unfold Obligations.ClearTermsClears
  intro s tag takes
  have run := exec_clearTerms tag s
  have owner := ownerClearTerms_eq s
  refine ⟨takenFrom_of_owner (by decide) (by simp) rfl (exec_clearTerms tag), ?_, ?_⟩
  · intro busy
    rw [if_pos busy] at owner
    exact reads_of_refused .state run takes owner
  · intro idle
    rw [if_neg (not_not.mpr idle)] at owner
    have places (k : Fin 64) : termKind (termsCleared s.begin).evaluator.terms[k] = some .endList ∧
        termOperand (termsCleared s.begin).evaluator.terms[k] = 0 := by
      rw [termsCleared_terms]
      exact zero_is_end
    exact after_of_owner run takes owner
      ⟨answers_of_port rfl tag _, places, clearStored_values s.evaluator, rfl,
        fun _ low high => functionValue_of_tags_false rfl low high,
        unchanged_termsCleared_answer s tag _⟩

end Sys2Proof.Proofs

/-! PROOFS. The request port's writes of a word to REQUEST and of OVERRUN's clearing (R185, R187). -/

namespace Sys2Proof.Proofs

open Sys2Proof.Machine Sys2Proof.Safety Sys2Proof.Claims Sys2Proof.Laws.Batches

/-! ## Rows with a change of their own -/

/-- A row that runs the change `f` leaves what `f` makes of the state as the step begins. -/
theorem after_of_complete {i : Instr} {s : State} {f : State → State} (run : exec i s = complete f s)
    {holds : State → Prop} (after : holds (f s.begin)) : After i s holds :=
  ⟨f s.begin, run, after⟩

/-- The start of a step changes no block and not the queue. -/
theorem unchanged_begin (but : List Part) (s : State) : Unchanged but s s.begin :=
  Unchanged.rfl (s := s)

/-- A step that rewrites the port leaves every other block as it was. -/
theorem unchanged_setPort (s : State) (p : Port) : Unchanged [.port] s { s.begin with port := p } := by
  simp [Unchanged]

/-! ## What a write does -/

section Writes

variable {s : State}

theorem writeRequest_of_room (w : Word) (clear : s.port.overrun = false)
    (room : s.port.requests.length < 32) :
    s.writeRequest w = { s with port.requests := s.port.requests ++ [w] } := by
  have notFull : ¬ Config.fifoWords ≤ s.port.requests.length := Nat.not_le.mpr room
  rw [State.writeRequest, if_neg (by simp [clear]), if_neg notFull]

theorem writeRequest_of_full (w : Word) (clear : s.port.overrun = false)
    (full : 32 ≤ s.port.requests.length) :
    s.writeRequest w = { s with port.requests := [], port.overrun := true } := by
  have full : Config.fifoWords ≤ s.port.requests.length := full
  rw [State.writeRequest, if_neg (by simp [clear]), if_pos full]

theorem writeRequest_of_overrun (w : Word) (overrun : s.port.overrun = true) :
    s.writeRequest w = s := by
  rw [State.writeRequest, if_pos overrun]

theorem writeControl_of_bit {v : Word} (bit : v.getLsbD 0 = true) :
    s.writeControl v = { s with port.overrun := false } := by
  have clears : clearsOverrun v = true := bit
  rw [State.writeControl, if_pos clears]

end Writes

/-! ## REQUEST_WORD and CLEAR_OVERRUN (R187) -/

theorem exec_requestWord (w : Word) (s : State) :
    exec (.requestWord w) s = complete (State.writeRequest w) s := rfl

theorem exec_clearOverrun (v : Word) (s : State) :
    exec (.clearOverrun v) s = complete (State.writeControl v) s := rfl

section Rows

variable {s : State} (w : Word)

theorem requestWord_joins (clear : s.port.overrun = false) (room : s.port.requests.length < 32) :
    After (.requestWord w) s fun t =>
      t.port = { s.port with requests := s.port.requests ++ [w] } ∧ Unchanged [.port] s t := by
  apply after_of_complete (exec_requestWord w s)
  rw [writeRequest_of_room (s := s.begin) w clear room]
  exact ⟨rfl, unchanged_setPort s _⟩

theorem requestWord_overruns (clear : s.port.overrun = false) (full : 32 ≤ s.port.requests.length) :
    After (.requestWord w) s fun t =>
      t.port = { s.port with requests := [], overrun := true } ∧ Unchanged [.port] s t := by
  apply after_of_complete (exec_requestWord w s)
  rw [writeRequest_of_full (s := s.begin) w clear full]
  exact ⟨rfl, unchanged_setPort s _⟩

theorem requestWord_dropped (overrun : s.port.overrun = true) : Idles (.requestWord w) s := by
  apply after_of_complete (exec_requestWord w s)
  rw [writeRequest_of_overrun (s := s.begin) w overrun]
  exact unchanged_begin [] s

theorem clearOverrun_clears {v : Word} (bit : v.getLsbD 0 = true) :
    After (.clearOverrun v) s fun t =>
      t.port = { s.port with overrun := false } ∧ Unchanged [.port] s t := by
  apply after_of_complete (exec_clearOverrun v s)
  rw [writeControl_of_bit bit]
  exact ⟨rfl, unchanged_setPort s _⟩

/-- On an empty FIFO the word that joins is its head. -/
theorem requestWord_heads (clear : s.port.overrun = false) (empty : s.port.requests = []) :
    After (.requestWord w) s fun u => u.port = { s.port with requests := [w] } := by
  obtain ⟨u, run, joined, _⟩ := requestWord_joins w clear (by simp [empty])
  exact ⟨u, run, joined.trans (by rw [empty, List.nil_append])⟩

end Rows

/-- Settles O11: the three fates of a word, and the first word after OVERRUN is cleared, which meets the
FIFO that the overrun left empty. -/
theorem requestWordWrites : Obligations.RequestWordWrites := by
  unfold Obligations.RequestWordWrites
  intro s w
  refine ⟨requestWord_joins w, requestWord_overruns w, requestWord_dropped w, ?_⟩
  intro v _ empty bit
  obtain ⟨t, run, cleared, _⟩ := clearOverrun_clears (s := s) bit
  have first := requestWord_heads (s := t) w (by rw [cleared]) (by rw [cleared, empty])
  rw [cleared] at first
  exact ⟨t, run, cleared, first⟩

end Sys2Proof.Proofs

/-! PROOFS. What every command keeps (Laws/Keeps.lean), gathered over the rows, and the step, its invariants and
its state after power-on. -/

namespace Sys2Proof.Proofs

open Sys2Proof.Machine Sys2Proof.Safety Sys2Proof.Claims Sys2Proof.Laws

/-! ## Every row -/

/-- Every command completes, and what it does keeps the queue and the three invariants: a row with a change of
its own by what that change keeps, a request row by what its owner keeps. -/
theorem exec_keeps (c : Instr) (s : State) : ∃ t, exec c s = .next t ∧ Keeps s t := by
  cases c with
  | powerOn cut => exact ⟨_, rfl, keeps_resetTo _ cut s⟩
  | resetPin cut => exact ⟨_, rfl, keeps_resetTo _ cut s⟩
  | ready => exact complete_next (fun s => (quiet_rebuild s).keeps) s
  | requestWord w => exact complete_next (fun s => (quiet_writeRequest w s).keeps) s
  | takeRequest => exact complete_next keeps_takeRequest s
  | replyRead => exact complete_next (fun s => (quiet_readReply s).keeps) s
  | noticeRead => exact complete_next keeps_readNotice s
  | portStatus => exact complete_next (fun s => (quiet_readStatus s).keeps) s
  | exportData => exact complete_next (fun s => (quiet_readExport s).keeps) s
  | clearOverrun w => exact complete_next (fun s => (quiet_writeControl w s).keeps) s
  | interruptEnable w => exact complete_next (fun s => (quiet_writeEnables w s).keeps) s
  | writeNoEffect l w => exact complete_next (fun s => (quiet_writeIdle l w s).keeps) s
  | lookup tag folio => exact request_next (quiet_ownerLookup folio).keeps _ tag s
  | find tag matter sequence => exact request_next (quiet_ownerFind matter sequence).keeps _ tag s
  | nextInMatter tag folio => exact request_next (quiet_ownerNextInMatter folio).keeps _ tag s
  | readExceptions tag folio => exact request_next (quiet_ownerReadExceptions folio).keeps _ tag s
  | setRetention tag folio day => exact request_next (quiet_ownerSetRetention folio day).keeps _ tag s
  | refile tag folio matter => exact request_next (quiet_ownerRefile folio matter).keeps _ tag s
  | hold tag folio => exact request_next (quiet_ownerHold folio).keeps _ tag s
  | release tag folio => exact request_next (quiet_ownerRelease folio).keeps _ tag s
  | holdMatter tag matter => exact request_next (quiet_ownerHoldMatter matter).keeps _ tag s
  | releaseMatter tag matter => exact request_next (quiet_ownerReleaseMatter matter).keeps _ tag s
  | retire tag folio today => exact request_next (quiet_ownerRetire folio today).keeps _ tag s
  | shedImage tag folio => exact request_next (quiet_ownerShedImage folio).keeps _ tag s
  | purgeSlot tag slot => exact request_next (quiet_ownerPurgeSlot slot).keeps _ tag s
  | mountTray tag tray box soft hard fill =>
    exact request_next (quiet_ownerMountTray tray box soft hard fill).keeps _ tag s
  | dismountTray tag tray => exact request_next (quiet_ownerDismountTray tray).keeps _ tag s
  | readTray tag tray => exact request_next (quiet_ownerReadTray tray).keeps _ tag s
  | closeDocument tag flag => exact request_next (quiet_ownerCloseDocument flag).keeps _ tag s
  | loadTerms tag first terms => exact request_next (quiet_ownerLoadTerms first terms).keeps _ tag s
  | clearTerms tag => exact request_next quiet_ownerClearTerms.keeps _ tag s
  | checkTerms tag => exact request_next quiet_ownerCheckTerms.keeps _ tag s
  | readTerms tag first => exact request_next (quiet_ownerReadTerms first).keeps _ tag s
  | readTrain tag => exact request_next quiet_ownerReadTrain.keeps _ tag s
  | readTicket tag ordinal => exact request_next (quiet_ownerReadTicket ordinal).keeps _ tag s
  | setPath tag first values => exact request_next (quiet_ownerSetPath first values).keeps _ tag s
  | readPath tag first => exact request_next (quiet_ownerReadPath first).keeps _ tag s
  | clearTrain tag => exact request_next keeps_ownerClearTrain _ tag s
  | setSkew tag limit threshold => exact request_next (quiet_ownerSetSkew limit threshold).keeps _ tag s
  | readSkew tag => exact request_next quiet_ownerReadSkew.keeps _ tag s
  | setArbiter tag mode => exact request_next (quiet_ownerSetArbiter mode).keeps _ tag s
  | maskChannel tag channel mask => exact request_next (quiet_ownerMaskChannel channel mask).keeps _ tag s
  | readChannels tag => exact request_next quiet_ownerReadChannels.keeps _ tag s
  | verify tag folio => exact request_next (quiet_ownerVerify folio).keeps _ tag s
  | cancelVerify tag => exact request_next quiet_ownerCancelVerify.keeps _ tag s
  | openExport tag folio => exact request_next (quiet_ownerOpenExport folio).keeps _ tag s
  | cancelExport tag => exact request_next quiet_ownerCancelExport.keeps _ tag s
  | startBatch tag matter cls duplex => exact request_next (keeps_ownerStartBatch matter cls duplex) _ tag s
  | pauseFeed tag => exact request_next keeps_ownerPauseFeed _ tag s
  | resumeFeed tag => exact request_next keeps_ownerResumeFeed _ tag s
  | stopBatch tag => exact request_next keeps_ownerStopBatch _ tag s
  | abortBatch tag => exact request_next keeps_ownerAbortBatch _ tag s
  | readBatch tag => exact request_next quiet_ownerReadBatch.keeps _ tag s
  | setLine tag line direction latch pull active enable =>
    exact request_next (keeps_ownerSetLine line direction latch pull active enable) _ tag s
  | readLines tag => exact request_next quiet_ownerReadLines.keeps _ tag s
  | travelPulse zones left front back => exact complete_next (keeps_travelPulse zones left front back) s
  | windowPasses ordinal arrival => exact complete_next (keeps_passWindow ordinal arrival) s
  | gateClaim ordinal gate => exact complete_next (fun s => (quiet_claimGate ordinal gate s).keeps) s
  | gateRelease ordinal gate => exact complete_next (fun s => (quiet_releaseGate ordinal gate s).keeps) s
  | stall => exact complete_next keeps_stallExpires s
  | feedWindowPasses => exact complete_next keeps_passFeedWindow s
  | entryLeadingEdge => exact complete_next (keeps_boardEdge 0 true) s
  | entryTrailingEdge => exact complete_next (keeps_boardEdge 0 false) s
  | edgeSensorLeadingEdge sensor => exact complete_next (keeps_boardEdge (sensorLine sensor) true) s
  | scanLeadingEdge => exact complete_next (keeps_boardEdge 5 true) s
  | scanTrailingEdge => exact complete_next (keeps_boardEdge 5 false) s
  | flushLine side =>
    have flush (s : State) : Quiet s (if s.tracker.stopped then s else s.handOver side (State.flushOne side)) :=
      .ite .rfl (quiet_handOver side (quiet_flushOne side) s)
    exact complete_next (fun s => (flush s).keeps) s
  | exitLeadingEdge exit => exact complete_next (keeps_boardEdge (exitLine (exitPath exit)) true) s
  | exitTrailingEdge exit => exact complete_next (keeps_boardEdge (exitLine (exitPath exit)) false) s
  | rejectFullLineChange drive => exact complete_next (fun s => (quiet_drive 11 drive s).keeps) s
  | feedTest => exact complete_next keeps_feedTest s
  | bandTransferDone => exact complete_next (fun s => (quiet_transferDone s).keeps) s
  | decision switch0 switch1 =>
    have rules (s : State) : Keeps s ((s.drive 22 switch0).drive 23 switch1).decide :=
      ((quiet_drive 22 switch0 s).trans (quiet_drive 23 switch1 _)).keeps.trans (keeps_decide _)
    exact complete_next rules s
  | decisionOutcome => exact complete_next keeps_takeOutcome s

/-! ## The step -/

theorem step_front {s : State} {c : Instr} {rest : List Instr} (h : s.pending = c :: rest) :
    step s = exec c { s with pending := rest } := by
  rw [step, h]

theorem step_idle {s : State} (h : s.pending = []) : step s = .next s := by
  rw [step, h]

/-- What a predicate on states needs to be kept by every step: that the commands keep it, and that it does not
look at the queue. -/
theorem step_keeps {P : State → Prop} (queue : ∀ (s : State) (q : List Instr), P s → P { s with pending := q })
    (command : ∀ s t : State, Keeps s t → P s → P t) {s t : State} (h : P s) (run : step s = .next t) :
    P t := by
  cases pending : s.pending with
  | nil =>
    rw [step_idle pending] at run
    cases run
    exact h
  | cons c rest =>
    obtain ⟨u, next, keeps⟩ := exec_keeps c { s with pending := rest }
    rw [step_front pending, next] at run
    cases run
    exact command _ _ keeps (queue s rest h)

/-- Settles O3. -/
theorem canonicalKept : Obligations.CanonicalKept := by
  unfold Obligations.CanonicalKept
  intro s t
  exact step_keeps (P := Canonical) (fun _ _ h => h) fun _ _ keeps => keeps.canonical

/-- Settles O4. -/
theorem boundedKept : Obligations.BoundedKept := by
  unfold Obligations.BoundedKept
  intro s t
  exact step_keeps (P := Bounded) (fun _ _ h => h) fun _ _ keeps => keeps.bounded

/-- Settles O5. -/
theorem legalKept : Obligations.LegalKept := by
  unfold Obligations.LegalKept
  intro s t
  exact step_keeps (P := Legal) (fun _ _ h => h) fun _ _ keeps => keeps.legal

/-- Settles O2. -/
theorem everyCommandCompletes : Obligations.EveryCommandCompletes := by
  unfold Obligations.EveryCommandCompletes
  intro c s
  obtain ⟨t, run, keeps⟩ := exec_keeps c s
  exact ⟨t, run, keeps.pending⟩

/-- Settles O1. -/
theorem stepRunsFront : Obligations.StepRunsFront := by
  unfold Obligations.StepRunsFront
  exact ⟨fun _ _ _ => step_front, fun _ => step_idle⟩

/-- Settles O6: the reset state lists nothing in either memory, nothing stands in its queues, and its batch is
IDLE. -/
theorem resetMeetsInvariants : Obligations.ResetMeetsInvariants := by
  unfold Obligations.ResetMeetsInvariants
  have canonical : Canonical State.reset := ⟨rfl, rfl⟩
  have bounded : Bounded State.reset := ⟨by decide, by decide, by decide, .refl _⟩
  have legal : Legal State.reset := ⟨rfl, rfl, rfl, rfl, by decide, rfl, rfl⟩
  exact ⟨canonical, bounded, legal⟩

end Sys2Proof.Proofs

/-! PROOFS. The request port taking a request (R186, R188), and the host's reads and writes (R185, R189 to R191). -/

namespace Sys2Proof.Proofs

open Sys2Proof.Machine Sys2Proof.Safety Sys2Proof.Claims Sys2Proof.Laws Sys2Proof.Laws.Batches

/-! ## Request rows as words (R188) -/

theorem ofWords_halves (x : Long) : Long.ofWords (x.extractLsb' 16 16) (x.extractLsb' 0 16) = x := by
  apply BitVec.eq_of_toNat_eq
  have := x.isLt
  simp only [Long.ofWords, BitVec.toNat_append, BitVec.extractLsb'_toNat, Nat.shiftRight_eq_div_pow,
    Nat.shiftLeft_eq]
  rw [← Nat.shiftLeft_eq, ← Nat.shiftLeft_add_eq_or_of_lt (by omega), Nat.shiftLeft_eq]
  omega

/-- A request row, its words, and the owner that both the row and the port run. -/
def RowWords (i : Instr) (header : Word) (args : List Word) : Prop :=
  ∃ code tag owner, header = requestHeader code args.length tag ∧ code < 256 ∧ args.length < 8 ∧
    ownerOf code args = some owner ∧ ∀ s, exec i s = request (largestReply code) tag owner s

theorem rowWords_of {i : Instr} {header : Word} {code : Nat} {tag : Tag} {args : List Word} {owner : Owner}
    (words : header = requestHeader code args.length tag)
    (hcode : code < 256) (hargs : args.length < 8) (howner : ownerOf code args = some owner)
    (run : ∀ s, exec i s = request (largestReply code) tag owner s) :
    RowWords i header args :=
  ⟨code, tag, owner, words, hcode, hargs, howner, run⟩

/-- A list of 1 to 6 words behind a first one is a request's argument list. -/
theorem listArgs_of_oneToSix (f : Word → List Word → Owner) (first : Word) {ws : List Word}
    (h : oneToSix ws = true) : listArgs f (first :: ws) = some (f first ws) ∧ (first :: ws).length < 8 := by
  simp only [oneToSix, Bool.and_eq_true, decide_eq_true_eq] at h
  obtain ⟨least, most⟩ := h
  cases ws with
  | nil => simp at least
  | cons w ws => exact ⟨rfl, Nat.succ_lt_succ (Nat.lt_succ_of_le most)⟩

/-! The owner of a request with a two-word argument, which the port joins from its halves. -/

theorem ownerOf_find (m : Long) (q : Word) :
    ownerOf 0x11 [m.extractLsb' 16 16, m.extractLsb' 0 16, q] = some (ownerFind m q) :=
  congrArg (fun x => some (ownerFind x q)) (ofWords_halves m)

theorem ownerOf_refile (f : Word) (m : Long) :
    ownerOf 0x15 [f, m.extractLsb' 16 16, m.extractLsb' 0 16] = some (ownerRefile f m) :=
  congrArg (fun x => some (ownerRefile f x)) (ofWords_halves m)

theorem ownerOf_holdMatter (m : Long) :
    ownerOf 0x18 [m.extractLsb' 16 16, m.extractLsb' 0 16] = some (ownerHoldMatter m) :=
  congrArg (fun x => some (ownerHoldMatter x)) (ofWords_halves m)

theorem ownerOf_releaseMatter (m : Long) :
    ownerOf 0x19 [m.extractLsb' 16 16, m.extractLsb' 0 16] = some (ownerReleaseMatter m) :=
  congrArg (fun x => some (ownerReleaseMatter x)) (ofWords_halves m)

theorem ownerOf_mountTray (tray : Word) (box : Long) (soft hard fill : Word) :
    ownerOf 0x20 [tray, box.extractLsb' 16 16, box.extractLsb' 0 16, soft, hard, fill] =
      some (ownerMountTray tray box soft hard fill) :=
  congrArg (fun x => some (ownerMountTray tray x soft hard fill)) (ofWords_halves box)

theorem ownerOf_startBatch (m : Long) (cls duplex : Word) :
    ownerOf 0x60 [m.extractLsb' 16 16, m.extractLsb' 0 16, cls, duplex] =
      some (ownerStartBatch m cls duplex) :=
  congrArg (fun x => some (ownerStartBatch x cls duplex)) (ofWords_halves m)

/-- Every request row's words name its owner by code and arguments. -/
theorem rowWords_of_requestWords {i : Instr} {header : Word} {args : List Word}
    (h : requestWords i = some (header :: args)) (wf : i.wellFormed = true) : RowWords i header args := by
  cases i <;> cases h
  case find m q => exact rowWords_of rfl (by decide) (Nat.le_of_ble_eq_true rfl) (ownerOf_find m q) fun _ => rfl
  case refile f m => exact rowWords_of rfl (by decide) (Nat.le_of_ble_eq_true rfl) (ownerOf_refile f m) fun _ => rfl
  case holdMatter m => exact rowWords_of rfl (by decide) (Nat.le_of_ble_eq_true rfl) (ownerOf_holdMatter m) fun _ => rfl
  case releaseMatter m => exact rowWords_of rfl (by decide) (Nat.le_of_ble_eq_true rfl) (ownerOf_releaseMatter m) fun _ => rfl
  case mountTray y b x hd f =>
    exact rowWords_of rfl (by decide) (Nat.le_of_ble_eq_true rfl) (ownerOf_mountTray y b x hd f) fun _ => rfl
  case startBatch m c d => exact rowWords_of rfl (by decide) (Nat.le_of_ble_eq_true rfl) (ownerOf_startBatch m c d) fun _ => rfl
  case loadTerms p ws =>
    obtain ⟨owner, short⟩ := listArgs_of_oneToSix ownerLoadTerms p wf
    exact rowWords_of rfl (by decide) short owner fun _ => rfl
  case setPath p ws =>
    obtain ⟨owner, short⟩ := listArgs_of_oneToSix ownerSetPath p wf
    exact rowWords_of rfl (by decide) short owner fun _ => rfl
  all_goals exact rowWords_of rfl (by decide) (Nat.le_of_ble_eq_true rfl) rfl fun _ => rfl

/-! ## The port at the head of the FIFO (R186) -/

theorem largestReply_pos (code : Nat) : 1 ≤ largestReply code := by
  unfold largestReply
  split <;> decide

theorem canAnswer_iff_roomFor (code : Nat) (s : State) :
    s.canAnswer (largestReply code) = true ↔ RoomFor code s := by
  rw [State.canAnswer, decide_eq_true_eq, RoomFor, State.replyRoom, Config.fifoWords]
  have least : 1 ≤ largestReply code := largestReply_pos code
  split <;> omega

theorem exec_takeRequest (s : State) : exec .takeRequest s = complete State.takeRequest s := rfl

section Head

variable {s : State} {header : Word} {rest : List Word} (head : s.port.requests = header :: rest)

include head

theorem takeRequest_waits (short : rest.length < requestCount header) : s.takeRequest = s := by
  rw [State.takeRequest, head]
  exact if_pos (.inl short)

theorem takeRequest_of_no_room (full : ¬ RoomFor (requestCode header) s) : s.takeRequest = s := by
  rw [State.takeRequest, head]
  rw [← canAnswer_iff_roomFor] at full
  exact if_pos (.inr (by simp [full]))

theorem takeRequest_serves (whole : requestCount header ≤ rest.length)
    (room : RoomFor (requestCode header) s) : s.takeRequest =
      serve (requestTag header) (ownerOrBad (requestCode header) (rest.take (requestCount header)))
        { s with port.requests := rest.drop (requestCount header) } := by
  rw [← canAnswer_iff_roomFor] at room
  rw [State.takeRequest, head]
  exact if_neg (by simp [room, whole])

end Head

theorem idles_of_takeRequest {s : State} (h : s.begin.takeRequest = s.begin) : Idles .takeRequest s := by
  apply after_of_complete (exec_takeRequest s)
  rw [h]
  exact unchanged_begin [] s

/-- Settles O12: with room the port runs the owner that the row runs; without room it leaves the head. -/
theorem takeRequestRunsRow : Obligations.TakeRequestRunsRow := by
  unfold Obligations.TakeRequestRunsRow
  intro s i header args rest words wf head
  obtain ⟨code, tag, owner, rfl, hcode, hargs, howner, run⟩ := rowWords_of_requestWords words wf
  have code_eq : ((requestHeader code args.length tag).extractLsb' 8 8).toNat = code :=
    requestCode_requestHeader hcode hargs tag
  refine ⟨fun room => ?_, fun full => ?_⟩
  · rw [code_eq] at room
    exact takenFrom_of_owner hcode hargs howner run s rest head room
  · exact idles_of_takeRequest (takeRequest_of_no_room (s := s.begin) head full)

/-! ## Counts a rule accepts (R186) -/

section Counts

variable {args : List Word} {owner : Owner} {digit : Nat}

theorem length_of_noWords {f : Owner} (h : noWords f args = some owner) : args.length = 0 := by
  unfold noWords at h
  split at h
  · rfl
  · cases h

theorem length_of_oneWord {f : Word → Owner} (h : oneWord f args = some owner) : args.length = 1 := by
  unfold oneWord at h
  split at h
  · rfl
  · cases h

theorem length_of_twoArgs {f : Word → Word → Owner} (h : twoArgs f args = some owner) :
    args.length = 2 := by
  unfold twoArgs at h
  split at h
  · rfl
  · cases h

theorem length_of_threeArgs {f : Word → Word → Word → Owner} (h : threeArgs f args = some owner) :
    args.length = 3 := by
  unfold threeArgs at h
  split at h
  · rfl
  · cases h

theorem length_of_fourArgs {f : Word → Word → Word → Word → Owner} (h : fourArgs f args = some owner) :
    args.length = 4 := by
  unfold fourArgs at h
  split at h
  · rfl
  · cases h

theorem length_of_sixArgs {f : Word → Word → Word → Word → Word → Word → Owner}
    (h : sixArgs f args = some owner) : args.length = 6 := by
  unfold sixArgs at h
  split at h
  · rfl
  · cases h

theorem length_of_listArgs {f : Word → List Word → Owner} (h : listArgs f args = some owner) :
    2 ≤ args.length := by
  unfold listArgs at h
  split at h
  · simp
  · cases h

/-- A list of arguments that a header can count is within what a list rule accepts. -/
theorem mem_listCounts {f : Word → List Word → Owner} (h : listArgs f args = some owner)
    (fits : args.length < 8) : args.length ∈ [2, 3, 4, 5, 6, 7] := by
  have least := length_of_listArgs h
  have : args.length = 2 ∨ args.length = 3 ∨ args.length = 4 ∨ args.length = 5 ∨ args.length = 6 ∨
    args.length = 7 := by omega
  simpa using this

theorem accepted_folioOwner (h : folioOwner args digit = some owner) :
    args.length ∈ acceptedCounts (16 + digit) := by
  unfold folioOwner at h
  split at h
  case h_1 => rw [length_of_oneWord h]; decide
  case h_2 => rw [length_of_threeArgs h]; decide
  case h_3 => rw [length_of_oneWord h]; decide
  case h_4 => rw [length_of_oneWord h]; decide
  case h_5 => rw [length_of_twoArgs h]; decide
  case h_6 => rw [length_of_threeArgs h]; decide
  case h_7 => rw [length_of_oneWord h]; decide
  case h_8 => rw [length_of_oneWord h]; decide
  case h_9 => rw [length_of_twoArgs h]; decide
  case h_10 => rw [length_of_twoArgs h]; decide
  case h_11 => rw [length_of_twoArgs h]; decide
  case h_12 => rw [length_of_oneWord h]; decide
  case h_13 => rw [length_of_oneWord h]; decide
  case h_14 => cases h

theorem accepted_assemblerOwner (h : assemblerOwner args digit = some owner) :
    args.length ∈ acceptedCounts (32 + digit) := by
  unfold assemblerOwner at h
  split at h
  case h_1 => rw [length_of_sixArgs h]; decide
  case h_2 => rw [length_of_oneWord h]; decide
  case h_3 => rw [length_of_oneWord h]; decide
  case h_4 => rw [length_of_oneWord h]; decide
  case h_5 => cases h

theorem accepted_termOwner (h : termOwner args digit = some owner) (fits : args.length < 8) :
    args.length ∈ acceptedCounts (48 + digit) := by
  unfold termOwner at h
  split at h
  case h_1 => exact mem_listCounts h fits
  case h_2 => rw [length_of_noWords h]; decide
  case h_3 => rw [length_of_noWords h]; decide
  case h_4 => rw [length_of_oneWord h]; decide
  case h_5 => cases h

theorem accepted_pathOwner (h : pathOwner args digit = some owner) (fits : args.length < 8) :
    args.length ∈ acceptedCounts (64 + digit) := by
  unfold pathOwner at h
  split at h
  case h_1 => rw [length_of_noWords h]; decide
  case h_2 => rw [length_of_oneWord h]; decide
  case h_3 => exact mem_listCounts h fits
  case h_4 => rw [length_of_oneWord h]; decide
  case h_5 => rw [length_of_noWords h]; decide
  case h_6 => rw [length_of_twoArgs h]; decide
  case h_7 => rw [length_of_noWords h]; decide
  case h_8 => cases h

theorem accepted_imageOwner (h : imageOwner args digit = some owner) :
    args.length ∈ acceptedCounts (80 + digit) := by
  unfold imageOwner at h
  split at h
  case h_1 => rw [length_of_oneWord h]; decide
  case h_2 => rw [length_of_twoArgs h]; decide
  case h_3 => rw [length_of_noWords h]; decide
  case h_4 => rw [length_of_oneWord h]; decide
  case h_5 => rw [length_of_noWords h]; decide
  case h_6 => rw [length_of_oneWord h]; decide
  case h_7 => rw [length_of_noWords h]; decide
  case h_8 => cases h

theorem accepted_batchOwner (h : batchOwner args digit = some owner) :
    args.length ∈ acceptedCounts (96 + digit) := by
  unfold batchOwner at h
  split at h
  case h_1 => rw [length_of_fourArgs h]; decide
  case h_2 => rw [length_of_noWords h]; decide
  case h_3 => rw [length_of_noWords h]; decide
  case h_4 => rw [length_of_noWords h]; decide
  case h_5 => rw [length_of_noWords h]; decide
  case h_6 => rw [length_of_noWords h]; decide
  case h_7 => cases h

theorem accepted_lineOwner (h : lineOwner args digit = some owner) :
    args.length ∈ acceptedCounts (112 + digit) := by
  unfold lineOwner at h
  split at h
  case h_1 => rw [length_of_sixArgs h]; decide
  case h_2 => rw [length_of_noWords h]; decide
  case h_3 => cases h

theorem accepted_ownerOf {code : Nat} (h : ownerOf code args = some owner) (fits : args.length < 8) :
    args.length ∈ acceptedCounts code := by
  have digits : code / 16 * 16 + code % 16 = code := Nat.div_add_mod' code 16
  rw [← digits]
  unfold ownerOf at h
  split at h
  next family => exact family ▸ accepted_folioOwner h
  next family => exact family ▸ accepted_assemblerOwner h
  next family => exact family ▸ accepted_termOwner h fits
  next family => exact family ▸ accepted_pathOwner h fits
  next family => exact family ▸ accepted_imageOwner h
  next family => exact family ▸ accepted_batchOwner h
  next family => exact family ▸ accepted_lineOwner h
  next => cases h

theorem ownerOrBad_of_bad_count {code : Nat} (fits : args.length < 8)
    (bad : args.length ∉ acceptedCounts code) : ownerOrBad code args = refused .badRequest := by
  cases owner : ownerOf code args with
  | none => rw [ownerOrBad, owner]
  | some => exact absurd (accepted_ownerOf owner fits) bad

end Counts

theorem requestCount_lt (header : Word) : requestCount header < 8 := (header.extractLsb' 5 3).isLt

/-- What the port answers by itself consumes the request's words and joins the reply FIFO. -/
theorem after_takeRequest_refused {s : State} {rest : List Word} {tag : Tag} (code : ReplyCode)
    (h : s.begin.takeRequest = State.answer tag (refuse code) { s.begin with port.requests := rest }) :
    After .takeRequest s fun t =>
      t.port = { s.port with requests := rest, replies := s.port.replies ++ replyWords code.number tag [] } ∧
        Unchanged [.port] s t := by
  apply after_of_complete (exec_takeRequest s)
  rw [h]
  refine ⟨?_, by simp [Unchanged]⟩
  rw [State.answer, words_eq_replyWords]
  rfl

/-- Settles O13. -/
theorem takeRequestByThePort : Obligations.TakeRequestByThePort := by
  unfold Obligations.TakeRequestByThePort
  refine ⟨fun s empty => ?_, ?_⟩
  · apply idles_of_takeRequest
    have empty : s.begin.port.requests = [] := empty
    rw [State.takeRequest, empty]
  · intro s header rest head
    refine ⟨fun short => ?_, fun whole room starting => ?_, fun whole room idle bad => ?_⟩
    · exact idles_of_takeRequest (takeRequest_waits (s := s.begin) head short)
    · apply after_takeRequest_refused .starting
      rw [takeRequest_serves (s := s.begin) head whole room]
      exact if_pos starting
    · have taken : (rest.take (requestCount header)).length = requestCount header := by
        exact List.length_take_of_le whole
      have owner : ownerOrBad (requestCode header) (rest.take (requestCount header)) = refused .badRequest :=
        ownerOrBad_of_bad_count (taken.symm ▸ requestCount_lt header) (taken.symm ▸ bad)
      apply after_takeRequest_refused .badRequest
      rw [takeRequest_serves (s := s.begin) head whole room, owner]
      exact if_neg (by simp [idle])

end Sys2Proof.Proofs

/-! PROOFS. The host's reads and writes of the port (R185, R189 to R191). -/

namespace Sys2Proof.Proofs

open Sys2Proof.Machine Sys2Proof.Safety Sys2Proof.Claims Sys2Proof.Laws Sys2Proof.Laws.Batches

/-! ## Blocks left alone -/

theorem unchanged_trans {but : List Part} {s t u : State} (h : Unchanged but s t) (k : Unchanged but t u) :
    Unchanged but s u := by
  obtain ⟨h1, h2, h3, h4, h5, h6, h7, h8, h9, h10, h11⟩ := h
  obtain ⟨k1, k2, k3, k4, k5, k6, k7, k8, k9, k10, k11⟩ := k
  exact ⟨fun p => (k1 p).trans (h1 p), fun p => (k2 p).trans (h2 p), fun p => (k3 p).trans (h3 p),
    fun p => (k4 p).trans (h4 p), fun p => (k5 p).trans (h5 p), fun p => (k6 p).trans (h6 p),
    fun p => (k7 p).trans (h7 p), fun p => (k8 p).trans (h8 p), fun p => (k9 p).trans (h9 p),
    fun p => (k10 p).trans (h10 p), k11.trans h11⟩

/-- A change within some blocks is one within more. -/
theorem unchanged_mono {but more : List Part} {s t : State} (sub : but ⊆ more) (h : Unchanged but s t) :
    Unchanged more s t := by
  obtain ⟨h1, h2, h3, h4, h5, h6, h7, h8, h9, h10, h11⟩ := h
  exact ⟨fun p => h1 (p ∘ @sub _), fun p => h2 (p ∘ @sub _), fun p => h3 (p ∘ @sub _),
    fun p => h4 (p ∘ @sub _), fun p => h5 (p ∘ @sub _), fun p => h6 (p ∘ @sub _),
    fun p => h7 (p ∘ @sub _), fun p => h8 (p ∘ @sub _), fun p => h9 (p ∘ @sub _),
    fun p => h10 (p ∘ @sub _), h11⟩

/-! ## REPLY (R185) -/

theorem exec_replyRead (s : State) : exec .replyRead s = complete State.readReply s := rfl

/-- Settles O14. -/
theorem replyReadRemoves : Obligations.ReplyReadRemoves := by
  unfold Obligations.ReplyReadRemoves
  intro s
  refine ⟨fun empty => ?_, fun w rest head => ?_⟩
  · have empty : s.begin.port.replies = [] := empty
    apply after_of_complete (exec_replyRead s)
    rw [State.readReply, empty]
    exact ⟨rfl, unchanged_setPort s _⟩
  · have head : s.begin.port.replies = w :: rest := head
    apply after_of_complete (exec_replyRead s)
    rw [State.readReply, head]
    exact ⟨rfl, unchanged_setPort s _⟩

/-! ## NOTICE (R185, R189) -/

theorem exec_noticeRead (s : State) : exec .noticeRead s = complete State.readNotice s := rfl

/-- Every notice has four words. -/
theorem some_word_of_notice (n : Notice) (k : Fin 4) : some (n.words[k.val]?.getD 0) = n.words[k.val]? := by
  have four : n.words.length = 4 := by cases n <;> rfl
  have within : k.val < n.words.length := four.symm ▸ k.isLt
  rw [List.getElem?_eq_getElem within]
  rfl

section Notices

variable {s : State} {n : Notice} {rest : List Notice} (head : s.port.notices = n :: rest)

include head

theorem readNotice_advances (inside : s.port.noticeAt ≠ 3) : s.readNotice =
    { s with port.noticeAt := s.port.noticeAt + 1, port.dataOut := n.words[s.port.noticeAt.val]?.getD 0 } := by
  rw [State.readNotice, head]
  exact if_neg inside

theorem readNotice_removes (last : s.port.noticeAt = 3) : s.readNotice =
    State.postKept { s with port.notices := rest, port.noticeAt := 0, port.dataOut := n.words[3]?.getD 0 } := by
  rw [State.readNotice, head]
  simp only [last]
  exact if_pos trivial

end Notices

/-! Which producer the freed place goes to (R189). -/

theorem postKept_folio {s : State} {k : Notice} {ks : List Notice} (folio : s.folio.kept = k :: ks) :
    s.postKept = { s with port.notices := s.port.notices ++ [k], folio.kept := ks } := by
  rw [State.postKept, folio]

theorem postKept_batch {s : State} {k : Notice} {ks : List Notice} (folio : s.folio.kept = [])
    (batch : s.batch.kept = k :: ks) :
    s.postKept = { s with port.notices := s.port.notices ++ [k], batch.kept := ks } := by
  rw [State.postKept, folio, batch]

theorem postKept_audit {s : State} {k : Notice} (folio : s.folio.kept = []) (batch : s.batch.kept = [])
    (audit : s.images.audit.kept = some k) :
    s.postKept = { s with port.notices := s.port.notices ++ [k], images.audit.kept := none } := by
  rw [State.postKept, folio, batch, audit]

theorem postKept_none {s : State} (folio : s.folio.kept = []) (batch : s.batch.kept = [])
    (audit : s.images.audit.kept = none) : s.postKept = s := by
  rw [State.postKept, folio, batch, audit]

/-- A freed place given to a producer changes the notices and what is kept, and nothing else. -/
theorem postKept_frame (s : State) :
    s.postKept.port.dataOut = s.port.dataOut ∧
    s.postKept.port = { s.port with
      notices := s.postKept.port.notices, dataOut := s.postKept.port.dataOut } ∧
    Unchanged [.port, .folio, .batch, .images] s s.postKept := by
  unfold State.postKept
  split <;> exact ⟨rfl, rfl, by simp [Unchanged]⟩

/-- Settles O15. -/
theorem noticeReadWalksFourWords : Obligations.NoticeReadWalksFourWords := by
  unfold Obligations.NoticeReadWalksFourWords
  intro s
  refine ⟨fun empty => ?_, fun n rest head inside => ?_, fun n rest head last => ?_⟩
  · have empty : s.begin.port.notices = [] := empty
    apply after_of_complete (exec_noticeRead s)
    rw [State.readNotice, empty]
    exact ⟨rfl, unchanged_setPort s _⟩
  · apply after_of_complete (exec_noticeRead s)
    rw [readNotice_advances (s := s.begin) head inside]
    exact ⟨some_word_of_notice n _, rfl, unchanged_setPort s _⟩
  · apply after_of_complete (exec_noticeRead s)
    rw [readNotice_removes (s := s.begin) head last]
    set u : State := { s.begin with
      port.notices := rest, port.noticeAt := 0, port.dataOut := n.words[3]?.getD 0 } with hu
    obtain ⟨out, port, frame⟩ := postKept_frame u
    have read : Unchanged [.port, .folio, .batch, .images] s u :=
      unchanged_mono (by simp) (unchanged_setPort s _)
    refine ⟨?_, fun k ks folio => ?_, fun k ks folio batch => ?_, fun k folio batch audit => ?_,
      fun folio batch audit => ?_, port, unchanged_trans read frame⟩
    · rw [out]
      exact some_word_of_notice n 3
    · rw [postKept_folio (s := u) folio]
      exact ⟨rfl, rfl, rfl, rfl⟩
    · rw [postKept_batch (s := u) folio batch]
      exact ⟨rfl, rfl, rfl, rfl⟩
    · rw [postKept_audit (s := u) folio batch audit]
      exact ⟨rfl, rfl, rfl, rfl⟩
    · rw [postKept_none (s := u) folio batch audit]
      exact ⟨rfl, rfl, rfl, rfl⟩

/-! ## The words of a notice (R191) -/

theorem bit_eq (b : Bool) : bit b = if b then 1 else 0 := rfl

/-- The words of a FEED HOLD notice depend on its seven causes alone, so each of the 128 sets is checked. -/
theorem feedHold_head (a b c d e f g : Bool) : word (0x3000 + (HoldCauses.mk a b c d e f g).code) =
    (3 : BitVec 4) ++ (0 : BitVec 5) ++ BitVec.ofBool a ++ BitVec.ofBool b ++ BitVec.ofBool c ++
      BitVec.ofBool d ++ BitVec.ofBool e ++ BitVec.ofBool f ++ BitVec.ofBool g := by
  revert a b c d e f g
  decide

/-- Settles O16, one kind of notice at a time. -/
theorem noticeLayout : Obligations.NoticeLayout := by
  unfold Obligations.NoticeLayout
  refine ⟨?_, ?_, ?_, ?_, ?_, ?_⟩
  · intro recreated valid damaged free hr _ _ hf
    have high : free / 65536 % 2 = free / 65536 := Nat.mod_eq_of_lt (by omega)
    have low : BitVec.ofNat 16 free = BitVec.ofNat 16 (free % 65536) := BitVec.eq_of_toNat_eq (by simp)
    simp only [Notice.words, Notice.head, word, high, Nat.mod_eq_of_lt hr, low]
  · intro folio pages shelved entries overflow hp hs he
    simp only [Notice.words, Notice.head, word, Nat.mod_eq_of_lt hp, Nat.mod_eq_of_lt hs, Nat.mod_eq_of_lt he,
      bit_eq, ite_mul, Nat.one_mul, Nat.zero_mul]
  · intro a b c d e f g fed rejected opened
    exact congrArg (· :: _) (feedHold_head a b c d e f g)
  · intro cause line ticket tickets
    cases cause <;> cases line <;> cases ticket <;> rfl
  · intro kind fed rejected opened
    cases kind <;> rfl
  · intro result folio failing checked
    cases result <;> rfl

/-! ## PORT STATUS (R190) -/

theorem exec_portStatus (s : State) : exec .portStatus s = complete State.readStatus s := rfl

/-- Flags side by side, as the packed word 0 of PORT STATUS has them. -/
theorem pack_statusFlags (starting overrun : Bool) (enables conditions : PortConditions) :
    pack [(2, 0), (1, bit starting), (1, bit overrun), (4, enables.code), (4, conditions.code), (4, 0)] =
      (0 : BitVec 2) ++ BitVec.ofBool starting ++ BitVec.ofBool overrun ++
        BitVec.ofBool enables.noticeWaiting ++ BitVec.ofBool enables.replyWaiting ++
        BitVec.ofBool enables.requestSpace ++ BitVec.ofBool enables.exportWaiting ++
        BitVec.ofBool conditions.noticeWaiting ++ BitVec.ofBool conditions.replyWaiting ++
        BitVec.ofBool conditions.requestSpace ++ BitVec.ofBool conditions.exportWaiting ++ (0 : BitVec 4) := by
  obtain ⟨a, b, c, d⟩ := enables
  obtain ⟨e, f, g, h⟩ := conditions
  revert starting overrun a b c d e f g h
  decide

theorem not_isEmpty_eq {α : Type} [DecidableEq α] (l : List α) : (!l.isEmpty) = decide (l ≠ []) := by
  cases l <;> simp

theorem conditions_requestSpace (s : State) : s.conditions.requestSpace =
    decide (s.port.requests.length ≤ 24 ∧ s.port.overrun = false) := by
  have room : (8 ≤ 32 - s.port.requests.length) = (s.port.requests.length ≤ 24) := propext (by omega)
  simp [State.conditions, State.requestRoom, Config.fifoWords, room]

theorem statusWord_zero (s : State) : s.statusWord 0 =
    (0 : BitVec 2) ++ BitVec.ofBool s.port.starting ++ BitVec.ofBool s.port.overrun ++
      BitVec.ofBool s.port.enables.noticeWaiting ++ BitVec.ofBool s.port.enables.replyWaiting ++
      BitVec.ofBool s.port.enables.requestSpace ++ BitVec.ofBool s.port.enables.exportWaiting ++
      BitVec.ofBool (decide (s.port.notices ≠ [])) ++ BitVec.ofBool (decide (s.port.replies ≠ [])) ++
      BitVec.ofBool (decide (s.port.requests.length ≤ 24 ∧ s.port.overrun = false)) ++
      BitVec.ofBool (decide (s.port.exports ≠ [])) ++ (0 : BitVec 4) := by
  refine (pack_statusFlags _ _ _ _).trans ?_
  rw [conditions_requestSpace, ← not_isEmpty_eq, ← not_isEmpty_eq, ← not_isEmpty_eq]
  rfl

theorem statusWord_one {s : State} (requests : s.port.requests.length ≤ 32) (replies : s.port.replies.length ≤ 32) :
    s.statusWord 1 = BitVec.ofNat 16 (0x4000 + (32 - s.port.requests.length) * 256 + s.port.replies.length) := by
  have room : (32 - s.port.requests.length) % 64 = 32 - s.port.requests.length := Nat.mod_eq_of_lt (by omega)
  have standing : s.port.replies.length % 64 = s.port.replies.length := Nat.mod_eq_of_lt (by omega)
  simp [State.statusWord, pack, packBelow, word, State.requestRoom, Config.fifoWords, room, standing, Nat.add_assoc]

theorem statusWord_two {s : State} (notices : s.port.notices.length ≤ 16) :
    s.statusWord 2 = BitVec.ofNat 16 (0x8000 + s.port.notices.length) := by
  have standing : s.port.notices.length % 32 = s.port.notices.length := Nat.mod_eq_of_lt (by omega)
  simp [State.statusWord, pack, packBelow, word, standing]

theorem statusWord_three {s : State} (exports : s.port.exports.length ≤ 8192) :
    s.statusWord 3 = BitVec.ofNat 16 (0xC000 + s.port.exports.length) := by
  have standing : s.port.exports.length % 16384 = s.port.exports.length := Nat.mod_eq_of_lt (by omega)
  simp [State.statusWord, pack, packBelow, word, standing]

/-- Settles O17, one value of the pointer at a time. -/
theorem portStatusWords : Obligations.PortStatusWords := by
  unfold Obligations.PortStatusWords
  intro s requests replies notices exports
  have read (k : Fin 4) (at_k : s.port.statusAt = k) :
      s.begin.readStatus.port.dataOut = s.begin.statusWord k := by
    rw [State.readStatus, begin_port, at_k]
  apply after_of_complete (exec_portStatus s)
  exact ⟨rfl, fun h => (read 0 h).trans (statusWord_zero s.begin),
    fun h => (read 1 h).trans (statusWord_one requests replies), fun h => (read 2 h).trans (statusWord_two notices),
    fun h => (read 3 h).trans (statusWord_three exports), unchanged_setPort s _⟩

/-! ## Writes (R185, R190) -/

theorem exec_interruptEnable (w : Word) (s : State) :
    exec (.interruptEnable w) s = complete (State.writeEnables w) s := rfl

theorem exec_writeNoEffect (l : IdleLocation) (w : Word) (s : State) :
    exec (.writeNoEffect l w) s = complete (State.writeIdle l w) s := rfl

/-- Settles O19. -/
theorem controlWrites : Obligations.ControlWrites := by
  unfold Obligations.ControlWrites
  intro s w
  refine ⟨clearOverrun_clears, ?_, ?_, fun low => ?_⟩
  · exact after_of_complete (exec_interruptEnable w s) ⟨rfl, unchanged_setPort s _⟩
  · exact after_of_complete (exec_writeNoEffect .location3 w s) (unchanged_begin [] s)
  · have keeps : ¬ clearsOverrun w = true := by rw [clearsOverrun, low]; decide
    apply after_of_complete (exec_writeNoEffect .portControl w s)
    rw [State.writeIdle, State.writeControl, if_neg keeps]
    exact unchanged_begin [] s

/-! ## INT (R190) -/

/-- Two sets of four conditions meet when one of the four stands in both. -/
theorem code_and_code_ne_zero (a b : PortConditions) : a.code &&& b.code ≠ 0 ↔
    (a.noticeWaiting = true ∧ b.noticeWaiting = true) ∨ (a.replyWaiting = true ∧ b.replyWaiting = true) ∨
      (a.requestSpace = true ∧ b.requestSpace = true) ∨ (a.exportWaiting = true ∧ b.exportWaiting = true) := by
  obtain ⟨a0, a1, a2, a3⟩ := a
  obtain ⟨b0, b1, b2, b3⟩ := b
  revert a0 a1 a2 a3 b0 b1 b2 b3
  decide

/-- Settles O20. -/
theorem interruptLevel : Obligations.InterruptLevel := by
  unfold Obligations.InterruptLevel
  intro s
  have notices : s.conditions.noticeWaiting = true ↔ s.port.notices ≠ [] := by simp [State.conditions]
  have replies : s.conditions.replyWaiting = true ↔ s.port.replies ≠ [] := by simp [State.conditions]
  have exports : s.conditions.exportWaiting = true ↔ s.port.exports ≠ [] := by simp [State.conditions]
  have space : s.conditions.requestSpace = true ↔
      s.port.requests.length + 8 ≤ 32 ∧ s.port.overrun = false := by
    rw [conditions_requestSpace, decide_eq_true_eq]
    exact and_congr_left fun _ => by omega
  rw [State.int, decide_eq_true_eq, code_and_code_ne_zero, notices, replies, space, exports]

end Sys2Proof.Proofs

/-! PROOFS. The two resets, alone (R34, R38, R178) and inside a change of record memory (R37). -/

namespace Sys2Proof.Proofs

open Sys2Proof.Machine Sys2Proof.Safety Sys2Proof.Claims Sys2Proof.Laws Sys2Proof.Laws.Cuts

/-! ## Both resets (R34, R38, R178) -/

theorem exec_powerOn (cut : Option Cut) (s : State) :
    exec (.powerOn cut) s = .next (s.resetTo (Vector.replicate 24 {}) cut) := rfl

theorem exec_resetPin (cut : Option Cut) (s : State) :
    exec (.resetPin cut) s = .next (s.resetTo (keepLatches s.lines.settings) cut) := rfl

theorem getElem_replicate_settings (l : LineIx) :
    (Vector.replicate 24 ({} : LineSetting))[l] = ⟨false, false, false, true, false⟩ := by
  simp

theorem getElem_keepLatches (v : Vector LineSetting 24) (l : LineIx) :
    (keepLatches v)[l] = ⟨false, v[l].latch, false, true, false⟩ := by
  simp [keepLatches]

/-- Settles O8. -/
theorem resetLines : Obligations.ResetLines := by
  unfold Obligations.ResetLines
  intro s cut
  exact ⟨⟨_, exec_powerOn cut s, getElem_replicate_settings, rfl⟩,
    ⟨_, exec_resetPin cut s, getElem_keepLatches s.lines.settings, rfl⟩⟩

/-- What a reset leaves whichever of the two it is: the settings it leaves give each line all but its latch. -/
theorem after_reset {i : Instr} {s : State} {cut : Option Cut} (h : i = .powerOn cut ∨ i = .resetPin cut)
    {holds : State → Prop}
    (after : ∀ v : Vector LineSetting 24, (∀ l : LineIx, v[l].output = false ∧ v[l].pull = false ∧
      v[l].activeHigh = true ∧ v[l].enabled = false) → holds (s.resetTo v cut)) : After i s holds := by
  rcases h with rfl | rfl
  · exact ⟨_, exec_powerOn cut s, after _ fun l => by simp⟩
  · exact ⟨_, exec_resetPin cut s, after _ fun l => by rw [getElem_keepLatches]; simp⟩

/-- Settles O7: every block but the lines and the two memories is that of the reset state. -/
theorem resetsLeave : Obligations.ResetsLeave := by
  unfold Obligations.ResetsLeave
  intro s cut i h
  apply after_reset h
  intro v lines
  have trays (k : TrayIx) : (Vector.replicate 4 ({} : Tray))[k] = ⟨false, 0, 0, 0, 0, 0⟩ := by simp
  have stored (k : Fin 8) : (Vector.replicate 8 false)[k] = false := by simp
  have low : (s.resetTo v cut).int = false := by
    have enables : (s.resetTo v cut).port.enables.code = 0 := rfl
    rw [State.int, enables, Nat.zero_and]
    rfl
  refine ⟨⟨rfl, rfl, rfl, rfl, rfl, rfl, rfl, rfl, rfl, low⟩, ⟨rfl, rfl, rfl, rfl, rfl⟩,
    ⟨rfl, rfl, rfl, rfl, trays, rfl⟩,
    ⟨rfl, rfl, rfl, rfl, fun k => ⟨stored k, stored k, stored k, stored k⟩, rfl⟩,
    ⟨rfl, rfl, rfl, rfl, rfl, rfl, rfl⟩, ⟨rfl, rfl, rfl, rfl, rfl⟩,
    ⟨rfl, rfl, rfl, rfl, rfl, rfl, rfl, rfl⟩,
    ⟨rfl, rfl, rfl, rfl, rfl, rfl, rfl, rfl, rfl, rfl, rfl, rfl⟩, lines, rfl, ?_, rfl⟩
  rintro rfl
  rfl

/-! ## A cut before or inside a write (R37) -/

section Cut

variable {s t : State} {lost earlier : List RecordWrite} (journal : s.journal = lost ++ earlier)

include journal

theorem cutRecord_of_whole :
    s.cutRecord (some ⟨earlier.length, false⟩) = undoAll s.record lost := by
  rw [cut_eq s lost earlier false journal]

theorem cutRecord_of_none_lost (none : lost = []) (torn : Bool) :
    s.cutRecord (some ⟨earlier.length, torn⟩) = s.record := by
  rw [cut_eq s lost earlier torn journal, none]
  cases torn <;> rfl

theorem cutRecord_of_torn {newer : List RecordWrite} {w : RecordWrite} (last : lost = newer ++ [w]) :
    s.cutRecord (some ⟨earlier.length, true⟩) = (undoAll s.record lost).write (w.torn s.draws) := by
  rw [cut_eq s lost earlier true journal, last, List.getLast?_concat]

end Cut

theorem tornField_or {α : Type} (draw field : Nat) (old new : α) :
    tornField draw field old new = old ∨ tornField draw field old new = new := by
  unfold tornField
  split
  · exact .inr rfl
  · exact .inl rfl

section Torn

variable {s t : State} {lost : List RecordWrite} {n : Nat}

/-- A torn slot fails its check word, and every other entry is taken back. -/
theorem torn_slot (c : s.record.wf = true) {old new : SlotEntry}
    (h : t.record = (undoAll s.record lost).write ((RecordWrite.slot n old new).torn s.draws)) :
    (t.slotEntry n).checks = false ∧
      TakenBackBut lost s t (fun m => m = n) (fun _ => False) (fun _ => False) := by
  have back := wf_parts (wf_undo lost s.record c)
  constructor
  · rw [State.slotEntry, h]
    simp only [RecordWrite.torn, RecordMemory.write]
    rw [Table.get_set_same _ _ _ _ back.1]
    exact fails _
  · exact takenBut lost s t _ h c _ _ _ (fun _ other => Table.get_set_ne _ other _ _)
      (fun _ _ => rfl) (fun _ _ => rfl)

/-- A torn directory entry fails its check word, and every other entry is taken back. -/
theorem torn_place (c : s.record.wf = true) {old new : PlaceEntry}
    (h : t.record = (undoAll s.record lost).write ((RecordWrite.place n old new).torn s.draws)) :
    (t.placeEntry n).checks = false ∧
      TakenBackBut lost s t (fun _ => False) (fun m => m = n) (fun _ => False) := by
  have back := wf_parts (wf_undo lost s.record c)
  constructor
  · rw [State.placeEntry, h]
    simp only [RecordWrite.torn, RecordMemory.write]
    rw [Table.get_set_same _ _ _ _ back.2.1]
    exact fails _
  · exact takenBut lost s t _ h c _ _ _ (fun _ _ => rfl) (fun _ other => Table.get_set_ne _ other _ _)
      (fun _ _ => rfl)

/-- A torn link entry is its old and its new fields mixed, and every other entry is taken back. -/
theorem torn_link (c : s.record.wf = true) {old new : Link}
    (h : t.record = (undoAll s.record lost).write ((RecordWrite.link n old new).torn s.draws)) :
    t.link n = Link.torn s.draws old new ∧
      TakenBackBut lost s t (fun _ => False) (fun _ => False) (fun m => m = n) := by
  have back := wf_parts (wf_undo lost s.record c)
  constructor
  · rw [State.link, h]
    exact Table.get_set_same _ _ _ _ back.2.2
  · exact takenBut lost s t _ h c _ _ _ (fun _ _ => rfl) (fun _ _ => rfl)
      (fun _ other => Table.get_set_ne _ other _ _)

end Torn

/-- Settles O9: where no write is lost, where some are and none is torn, and by the kind of entry torn. -/
theorem resetInsideAWrite : Obligations.ResetInsideAWrite := by
  unfold Obligations.ResetInsideAWrite
  intro s lost earlier torn i canonical journal reset
  obtain ⟨c, -⟩ := canonical
  apply after_reset reset
  intro v _
  refine ⟨fun none => cutRecord_of_none_lost journal none torn, ?_, ?_, ?_, ?_⟩
  · rintro rfl
    exact takenBut lost s _ _ (cutRecord_of_whole journal) c _ _ _ (fun _ _ => rfl) (fun _ _ => rfl)
      fun _ _ => rfl
  · rintro newer n old new rfl last
    exact torn_slot c (cutRecord_of_torn journal last)
  · rintro newer n old new rfl last
    exact torn_place c (cutRecord_of_torn journal last)
  · rintro newer n old new rfl last
    obtain ⟨link, back⟩ := torn_link (t := s.resetTo v (some ⟨earlier.length, true⟩)) c (cutRecord_of_torn journal last)
    rw [link]
    exact ⟨tornField_or .., tornField_or .., tornField_or .., tornField_or .., tornField_or .., back⟩

end Sys2Proof.Proofs

/-! PROOFS. The rebuild (R38 to R47): stage 2 leaves each slot FREE, FILED or DAMAGED, later stages only make slots
DAMAGED, and Laws/Rebuild.lean says what a rebuild after a reset leaves. -/

namespace Sys2Proof.Proofs

open Sys2Proof.Machine Sys2Proof.Safety Sys2Proof.Claims Sys2Proof.Laws Sys2Proof.Laws.Rebuild

/-! ## Stages that make slots DAMAGED at most -/

/-- A change within the rebuild's reach that leaves each slot's state or makes it DAMAGED. -/
structure Wears (s t : State) : Prop where
  frame : Fr s t
  states : Canonical s → ∀ n, (t.slot n).state = (s.slot n).state ∨ (t.slot n).state = .damaged

theorem Wears.rfl {s : State} : Wears s s := ⟨.rfl, fun _ _ => .inl (Eq.refl _)⟩

theorem Wears.trans {s t u : State} (h : Wears s t) (k : Wears t u) : Wears s u where
  frame := h.frame.trans k.frame
  states c n := by
    rcases k.states (h.frame.canon c) n with same | damaged
    · rw [same]
      exact h.states c n
    · exact .inr damaged

theorem wears_of_slots {s t : State} (frame : Fr s t) (slots : ∀ n, t.slot n = s.slot n) : Wears s t :=
  ⟨frame, fun _ n => .inl (by rw [slots])⟩

theorem wears_putNext (n : Nat) (x : Option Nat) (s : State) : Wears s (s.putNext n x) :=
  wears_of_slots (fr_putNext n x s) fun _ => Eq.refl _

theorem wears_putMatter (n : Nat) (m : Matter) (s : State) : Wears s (s.putMatter n m) :=
  wears_of_slots (fr_putMatter n m s) fun _ => Eq.refl _

theorem wears_settleMatter (n : Nat) (m : Matter) (s : State) : Wears s (s.settleMatter n m) :=
  wears_of_slots (fr_settleMatter n m s) fun k => congrArg SlotEntry.fields (settleMatter_slot n m s k)

theorem wears_testRemoval (p : Nat) (s : State) : Wears s (s.testRemoval p) :=
  wears_of_slots (fr_testRemoval p s) fun n => by
    unfold State.testRemoval
    split <;> rfl

theorem wears_damage (n : Nat) (s : State) : Wears s (s.damage n) where
  frame := fr_damage n s
  states c m := by
    rw [slot_damage c]
    split
    · exact .inr (Eq.refl _)
    · exact .inl (Eq.refl _)

/-- A slot written with the state it has. -/
theorem wears_putSlot {n : Nat} {r : Record} {s : State} (same : r.state = (s.slot n).state) :
    Wears s (s.putSlot n r) where
  frame := fr_putSlot n r s
  states c m := by
    rw [slot_put c]
    split
    next at_n => exact .inl (at_n ▸ same)
    next => exact .inl (Eq.refl _)

theorem wears_settleSlot {n : Nat} {r : Record} {s : State} (same : r.state = (s.slot n).state) :
    Wears s (s.settleSlot n r) := by
  unfold State.settleSlot
  split
  · exact .rfl
  · exact wears_putSlot same

/-! Stage 3. -/

theorem wears_buildChain (ns : List Nat) (c : List (Nat × Nat)) (s : State) :
    Wears s (buildChain ns c s).2 := by
  induction ns generalizing c s with
  | nil => exact .rfl
  | cons n ns ih =>
    rw [buildChain]
    split
    · exact ih _ _
    · exact (wears_damage n s).trans (ih _ _)

theorem wears_chainSlots (c : List (Nat × Nat)) (s : State) : Wears s (s.chainSlots c) := by
  induction c generalizing s with
  | nil => exact .rfl
  | cons x c ih =>
    refine Wears.trans ?_ (ih _)
    exact wears_settleSlot (Eq.refl _)

theorem wears_rebuildChain (live : List Nat) (e : IndexEntry) (s : State) : Wears s (s.rebuildChain live e) :=
  ((wears_buildChain _ _ s).trans (wears_chainSlots _ _)).trans (wears_settleMatter _ _ _)

theorem wears_rebuildChains (live : List Nat) (es : List IndexEntry) (s : State) :
    Wears s (s.rebuildChains live es) := by
  induction es generalizing s with
  | nil => exact .rfl
  | cons e es ih => exact (wears_rebuildChain live e s).trans (ih _)

/-! Stage 4. -/

theorem wears_unlinkSlot (prev : Option Nat) (r : Record) (s : State) : Wears s (s.unlinkSlot prev r) := by
  unfold State.unlinkSlot
  split
  · exact wears_putSlot (Eq.refl _)
  · exact .rfl

theorem wears_failWalk (n : Nat) (s : State) : Wears s (s.failWalk n) :=
  ((wears_damage n s).trans (wears_unlinkSlot _ _ _)).trans (wears_putMatter _ _ _)

theorem wears_claimPlates (n : Nat) (p : State × Nat) : Wears p.1 (claimPlates n p).1 := by
  unfold claimPlates
  dsimp only
  split
  · split
    · exact wears_failWalk n p.1
    · dsimp only
      split
      · exact wears_putNext _ _ _
      · exact .rfl
  · exact .rfl

theorem wears_claimAll (ns : List Nat) (p : State × Nat) : Wears p.1 (claimAll ns p).1 := by
  induction ns generalizing p with
  | nil => exact .rfl
  | cons n ns ih => exact (wears_claimPlates n p).trans (ih _)

/-! Stages 5 and 6. -/

theorem wears_formQueue (claims n : Nat) (q : FreeQueue) (s : State) : Wears s (formQueue claims n q s).2 := by
  induction n generalizing q s with
  | zero => exact .rfl
  | succ n ih =>
    rw [formQueue]
    split
    · exact ih _ _
    · exact (wears_putNext _ _ _).trans (ih _ _)

theorem wears_settleLinks (n : Nat) (s : State) : Wears s (s.settleLinks n) := by
  unfold State.settleLinks
  dsimp only
  split
  · exact wears_settleSlot (Eq.refl _)
  · exact .rfl

theorem wears_settleAllLinks (ns : List Nat) (s : State) : Wears s (s.settleAllLinks ns) := by
  induction ns generalizing s with
  | nil => exact .rfl
  | cons n ns ih => exact (wears_settleLinks n s).trans (ih _)

theorem wears_removeEmpty (es : List IndexEntry) (s : State) : Wears s (s.removeEmpty es) := by
  induction es generalizing s with
  | nil => exact .rfl
  | cons e es ih => exact (wears_testRemoval _ s).trans (ih _)

/-! ## Stage 2 settles every slot (R40 to R42) -/

/-- The states a rebuild leaves a slot in. -/
def SettledState (x : RecordState) : Prop := x = .free ∨ x = .filed ∨ x = .damaged

theorem settledState_of_wears {s t : State} (h : Wears s t) (c : Canonical s) {n : Nat}
    (settled : SettledState (s.slot n).state) : SettledState (t.slot n).state := by
  rcases h.states c n with same | damaged
  · rw [same]
    exact settled
  · exact .inr (.inr damaged)

theorem settledState_damage {s : State} (c : Canonical s) (n : Nat) : SettledState ((s.damage n).slot n).state := by
  rw [slot_damage c, if_pos rfl]
  exact .inr (.inr rfl)

theorem slot_damage_ne {s : State} (c : Canonical s) {n m : Nat} (h : m ≠ n) : (s.damage n).slot m = s.slot m := by
  rw [slot_damage c, if_neg h]

/-- A record in range is FILED once normalized: an undefined state is out of range. -/
theorem normalize_filed {r : Record} (inRange : r.outOfRange = false) (free : r.state ≠ .free)
    (damaged : r.state ≠ .damaged) : r.normalize.state = .filed := by
  have sound := ((range_iff r free damaged).mp inRange).1
  rw [normalize_eq r sound]
  exact norm_state r

/-- Tying a record to its matter writes its own slot: normalized, or DAMAGED where no place is free. -/
theorem tieRecord_slot (n : Nat) (p : State × Nat) (c : Canonical p.1) (m : Nat) :
    (m ≠ n → (tieRecord n p).1.slot m = p.1.slot m) ∧
    (SettledState (p.1.slot n).normalize.state → SettledState ((tieRecord n p).1.slot n).state) := by
  unfold tieRecord
  dsimp only
  split
  · refine ⟨fun other => ?_, fun settled => ?_⟩
    · rw [slot_settle c, if_neg other]
    · rw [slot_settle c, if_pos rfl]
      exact settled
  · split
    · exact ⟨slot_damage_ne c, fun _ => settledState_damage c n⟩
    · next place _ =>
      have indexed (r : Record) (k : Nat) :
          (((p.1.indexMatter (p.1.slot n).normalize.matter place).settleSlot n r).slot k) =
            if k = n then r else p.1.slot k :=
        slot_settle (s := p.1.indexMatter _ place) c n r k
      refine ⟨fun other => ?_, fun settled => ?_⟩
      · exact (indexed _ m).trans (if_neg other)
      · have written := (indexed { (p.1.slot n).normalize with place := place } n).trans (if_pos rfl)
        exact (congrArg Record.state written).symm ▸ settled

/-- Stage 2 on one slot settles it and leaves the others. -/
theorem checkSlot_slot (n : Nat) (p : State × Nat) (c : Canonical p.1) :
    (∀ m, m ≠ n → (checkSlot n p).1.slot m = p.1.slot m) ∧ SettledState ((checkSlot n p).1.slot n).state := by
  unfold checkSlot
  dsimp only
  split
  · refine ⟨fun m other => ?_, ?_⟩
    · rw [slot_put c, if_neg other]
    · rw [slot_put c, if_pos rfl]
      exact .inl rfl
  · split
    · exact ⟨fun _ => slot_damage_ne c, settledState_damage c n⟩
    · split
      next state => exact ⟨fun _ _ => rfl, .inr (.inr state)⟩
      next state => exact ⟨fun _ _ => rfl, .inl state⟩
      all_goals
        next state =>
        have state : (p.1.slot n).state = _ := state
        split
        · exact ⟨fun _ => slot_damage_ne c, settledState_damage c n⟩
        · next inRange =>
          have filed := normalize_filed (r := p.1.slot n) (Bool.eq_false_of_not_eq_true inRange)
            (by simp [state]) (by simp [state])
          exact ⟨fun m => (tieRecord_slot n p c m).1, (tieRecord_slot n p c n).2 (.inr (.inl filed))⟩

theorem checkSlots_settled (j : Nat) (p : State × Nat) (c : Canonical p.1) :
    ∀ n, n < j → SettledState ((checkSlots j p).1.slot n).state := by
  induction j with
  | zero => exact fun n below => absurd below (Nat.not_lt_zero n)
  | succ j ih =>
    intro n below
    obtain ⟨others, own⟩ := checkSlot_slot j (checkSlots j p) ((fr_checkSlots j p).canon c)
    rw [checkSlots]
    by_cases at_j : n = j
    · rw [at_j]
      exact own
    · rw [others n at_j]
      exact ih n (by omega)

/-! ## The whole rebuild (R38, R47) -/

/-- The state a rebuild ends in, up to its notice: the free-slot count, the free plate queue, STARTING clear. -/
def rebuildEnd (slots : Nat) (queue : FreeQueue) (t : State) : State :=
  { t with
    folio.freeSlots := t.countSlots slots (· = .free), images.free := queue, port.starting := false }

/-- The READY notice of a rebuild. -/
def readyNotice (slots recreated : Nat) (queue : FreeQueue) (t : State) : Notice :=
  .ready recreated (t.countSlots slots RecordState.live) (t.countSlots slots (· = .damaged)) queue.length

/-- The state that stages 1 and 2 leave. -/
def checkedSlots (slots places : Nat) (s : State) : State × Nat :=
  checkSlots slots (ascending State.checkPlace places s, 0)

/-- Stages 3 to 6 after that. -/
theorem rebuildOver_wears (slots places plates : Nat) (s : State) : ∃ (t : State) (queue : FreeQueue),
    Wears (checkedSlots slots places s).1 t ∧ s.rebuildOver slots places plates =
      (rebuildEnd slots queue t).postFolio (readyNotice slots (checkedSlots slots places s).2 queue t) := by
  unfold State.rebuildOver checkedSlots
  dsimp only
  generalize checkSlots slots (ascending State.checkPlace places s, 0) = tied
  generalize tied.1.liveSlots slots = live
  have chained := wears_rebuildChains live tied.1.folio.index tied.1
  generalize tied.1.rebuildChains live tied.1.folio.index = c at chained ⊢
  have claimed := chained.trans (wears_claimAll live (c, 0))
  generalize claimAll live (c, 0) = d at claimed ⊢
  have queued := claimed.trans (wears_formQueue d.2 plates {} d.1)
  generalize formQueue d.2 plates {} d.1 = f at queued ⊢
  have linked := queued.trans (wears_settleAllLinks live f.2)
  generalize f.2.settleAllLinks live = l at linked ⊢
  exact ⟨_, f.1, linked.trans (wears_removeEmpty l.folio.index l), rfl⟩

/-- A rebuild ends in a state whose slots are all settled. -/
theorem rebuildOver_eq (slots places plates : Nat) (s : State) (c : Canonical s) :
    ∃ (t : State) (recreated : Nat) (queue : FreeQueue), Fr s t ∧
      (∀ n, n < slots → SettledState (t.slot n).state) ∧
      s.rebuildOver slots places plates =
        (rebuildEnd slots queue t).postFolio (readyNotice slots recreated queue t) := by
  obtain ⟨t, queue, worn, rebuilt⟩ := rebuildOver_wears slots places plates s
  have checked : Fr s (ascending State.checkPlace places s) := fr_ascending places s
  have tied : Fr s (checkedSlots slots places s).1 := checked.trans (fr_checkSlots slots (_, 0))
  refine ⟨t, _, queue, tied.trans worn.frame, fun n below => ?_, rebuilt⟩
  exact settledState_of_wears worn (tied.canon c) (checkSlots_settled slots (_, 0) (checked.canon c) n below)

/-- In settled slots the live records are the FILED ones. -/
theorem countSlots_live {slots : Nat} {t : State} (settled : ∀ n, n < slots → SettledState (t.slot n).state) :
    t.countSlots slots RecordState.live = (List.range slots).countP fun n => (t.slot n).state = .filed := by
  apply List.countP_congr
  intro n mem
  rcases settled n (List.mem_range.mp mem) with state | state | state <;> rw [state] <;> decide

theorem exec_ready (s : State) : exec .ready s = complete State.rebuild s := rfl

theorem rebuild_of_starting {s : State} (starting : s.port.starting = true) :
    s.rebuild = s.rebuildOver Config.slotCount Config.placeCount Config.plateCount := if_pos starting

theorem rebuild_of_started {s : State} (started : s.port.starting = false) : s.rebuild = s :=
  if_neg (by simp [started])

theorem postFolio_of_room {s : State} (n : Notice) (kept : s.folio.kept = []) (room : s.port.notices.length < 16) :
    s.postFolio n = { s with port.notices := s.port.notices ++ [n] } :=
  if_pos ⟨kept, Nat.sub_pos_of_lt room⟩

/-- Posting changes the notices, or what the Folio Table keeps. -/
theorem postFolio_frame (n : Notice) (s : State) : ∃ notices kept,
    s.postFolio n = { s with port.notices := notices, folio.kept := kept } := by
  unfold State.postFolio
  split
  · exact ⟨_, s.folio.kept, rfl⟩
  · exact ⟨s.port.notices, _, rfl⟩

/-- What the rebuild's stages reach is the folio table's index and record memory. -/
theorem fr_blocks {s t : State} (h : Fr s t) : t.port = s.port ∧ t.images = s.images ∧
    t.folio.kept = s.folio.kept ∧ Unchanged [.port, .folio, .record, .images] s t := by
  have e := h.rest
  refine ⟨?_, ?_, ?_, ?_⟩
  all_goals rw [e]
  simp [Unchanged]

theorem unchanged_rebuildEnd (slots : Nat) (queue : FreeQueue) (t : State) (notices kept : List Notice) :
    Unchanged [.port, .folio, .record, .images] t
      { rebuildEnd slots queue t with port.notices := notices, folio.kept := kept } := by
  simp [Unchanged, rebuildEnd]

/-- What a rebuild over so many slots leaves, whatever record memory holds. -/
theorem rebuildOver_settles (slots places plates : Nat) {s : State} (c : Canonical s) :
    ∃ t, s.rebuildOver slots places plates = t ∧ t.port.starting = false ∧
      (∀ n, n < slots → SettledState (t.slot n).state) ∧
      t.folio.freeSlots = (List.range slots).countP (fun n => (t.slot n).state = .free) ∧
      (s.folio.kept = [] → s.port.notices.length < 16 → t.folio.kept = [] ∧
        ∃ recreated, t.port.notices = s.port.notices ++ [.ready recreated ((List.range slots).countP fun n => (t.slot n).state = .filed)
          ((List.range slots).countP fun n => (t.slot n).state = .damaged) t.images.free.length]) ∧
      t.port.replies = s.port.replies ∧ t.images.memory = s.images.memory ∧
      Unchanged [.port, .folio, .record, .images] s t := by
  obtain ⟨t, recreated, queue, frame, settled, rebuilt⟩ := rebuildOver_eq slots places plates s c
  obtain ⟨port, images, kept, unchanged⟩ := fr_blocks frame
  obtain ⟨notices, keeps, posted⟩ :=
    postFolio_frame (readyNotice slots recreated queue t) (rebuildEnd slots queue t)
  have post (none : s.folio.kept = []) (room : s.port.notices.length < 16) :
      keeps = [] ∧ notices = s.port.notices ++ [readyNotice slots recreated queue t] := by
    have same : t.port.notices = s.port.notices := congrArg Port.notices port
    have none : t.folio.kept = [] := kept.trans none
    rw [postFolio_of_room (s := rebuildEnd slots queue t) _ none (same.symm ▸ room)] at posted
    exact ⟨(congrArg (fun u => u.folio.kept) posted).symm.trans none,
      (congrArg (fun u => u.port.notices) posted).symm.trans (congrArg (· ++ [_]) same)⟩
  have replies : t.port.replies = s.port.replies := congrArg Port.replies port
  have memory : t.images.memory = s.images.memory := congrArg Images.memory images
  rw [readyNotice, countSlots_live settled] at post
  exact ⟨_, rebuilt.trans posted, rfl, settled, rfl, fun none room => (post none room).imp_right fun same => ⟨recreated, same⟩,
    replies, memory, unchanged_trans unchanged (unchanged_rebuildEnd slots queue t _ _)⟩

/-! ## READY after a reset (R39 to R47) -/

theorem settledState_of_slotsSettled {s t : State} (h : SlotsSettled s t) {n : Nat} (below : n < 4096) :
    SettledState (t.slot n).state := by
  obtain ⟨blank, failed, kept, wild, live, -⟩ := h n below
  by_cases isBlank : BlankSlot s n
  · rw [blank isBlank]
    exact .inl rfl
  by_cases sound : ChecksOut s n
  · by_cases still : (s.slot n).state = .damaged ∨ (s.slot n).state = .free
    · have same : t.slot n = s.slot n := congrArg SlotEntry.fields (kept sound still)
      rw [same]
      exact still.elim (fun damaged => .inr (.inr damaged)) .inl
    · obtain ⟨damaged, free⟩ := not_or.mp still
      by_cases inRange : InRange (s.slot n)
      · exact .inr (live ⟨below, sound, inRange⟩)
      · rw [wild sound damaged free inRange]
        exact .inr (.inr rfl)
  · rw [failed isBlank sound]
    exact .inr (.inr rfl)

/-- A notice that is not kept is posted. -/
theorem notices_postFolio {n : Notice} {s : State} (h : (s.postFolio n).folio.kept = []) :
    (s.postFolio n).port.notices = s.port.notices ++ [n] := by
  unfold State.postFolio at h ⊢
  split at h
  · next room => rw [if_pos room]
  · exact absurd h (by simp)

/-- What a rebuild leaves of the record memory that a reset hands it. -/
theorem rebuildOver_rebuilt {u : State} {slots places plates : Nat} (hslots : slots = 4096)
    (hplaces : places = 256) (hplates : plates = 65536) (c : Canonical u) (index : u.folio.index = [])
    (kept : u.folio.kept = []) (notices : u.port.notices = []) :
    Rebuilt u (u.rebuildOver slots places plates) ∧ ReadyPosted u (u.rebuildOver slots places plates) := by
  obtain ⟨t, rebuilt, -, -, -, posts, -⟩ := rebuildOver_settles slots places plates c
  obtain ⟨none, recreated, posted⟩ := posts kept (by simp [notices])
  obtain ⟨w, made, queue, core, spec⟩ := rebuilt_core u c index slots places plates hslots hplaces hplates
  obtain ⟨notices', kept', frame⟩ := postFolio_frame (readyNotice slots made queue w) (rebuildEnd slots queue w)
  have core : t = (rebuildEnd slots queue w).postFolio (readyNotice slots made queue w) := rebuilt.symm.trans core
  obtain ⟨sound, matters, nodup, count, recreates⟩ := spec t (by rw [core, frame]; rfl) (by rw [core, frame]; rfl)
    (by rw [core, frame]; rfl)
  have last : t.port.notices = w.port.notices ++ [readyNotice slots made queue w] := by
    rw [core] at none ⊢
    exact notices_postFolio none
  rw [notices, List.nil_append] at posted
  have count : recreated = matters.length := by
    have same := congrArg List.getLast? (last.symm.trans posted)
    rw [List.getLast?_concat, List.getLast?_singleton, readyNotice] at same
    injection same with same
    injection same with same
    exact same.symm.trans count.symm
  rw [rebuilt]
  refine ⟨sound, matters, nodup, recreates, ?_⟩
  rw [posted, count, hslots]

theorem platesFrom_begin (s : State) (l : List Nat) (h : Option Nat) :
    PlatesFrom s.begin h l = PlatesFrom s h l := by
  induction l generalizing h with
  | nil => rfl
  | cons p l ih => exact congrArg (h = some p ∧ ·) (ih _)

/-- The start of a step is no part of what speaks against a record. -/
theorem standsUp_begin (s : State) (n : Nat) : StandsUp s.begin n = StandsUp s n := by
  simp only [StandsUp, PlateWalk, platesFrom_begin]
  rfl

theorem ready_rebuilds {u : State} (c : Canonical u) (starting : u.port.starting = true)
    (index : u.folio.index = []) (kept : u.folio.kept = []) (notices : u.port.notices = []) :
    After .ready u fun t => Rebuilt u t ∧ ReadyPosted u t := by
  apply after_of_complete (exec_ready u)
  rw [rebuild_of_starting (s := u.begin) starting]
  have spec := rebuildOver_rebuilt (u := u.begin) (slots := Config.slotCount) (places := Config.placeCount)
    (plates := Config.plateCount) rfl rfl rfl c index kept notices
  generalize u.begin.rebuildOver Config.slotCount Config.placeCount Config.plateCount = t at spec ⊢
  obtain ⟨⟨slots, directory, chains, plates, links, stands, sequences⟩, posted⟩ := spec
  exact ⟨⟨slots, directory, chains, plates, links, fun n h => stands n (standsUp_begin u n ▸ h), sequences⟩, posted⟩

/-- Settles O10. -/
theorem readyRebuilds : Obligations.ReadyRebuilds := by
  unfold Obligations.ReadyRebuilds
  refine ⟨fun s c starting => ?_, fun s cut c => ?_, fun s started => ?_⟩
  · obtain ⟨t, rebuilt, started, settled, free, posts, rest⟩ :=
      rebuildOver_settles Config.slotCount Config.placeCount Config.plateCount (s := s.begin) c
    apply after_of_complete (exec_ready s)
    rw [rebuild_of_starting (s := s.begin) starting, rebuilt]
    exact ⟨started, settled, free, fun none room => (posts none room).2, rest⟩
  · have rebuilds (v : Vector LineSetting 24) :
        After .ready (s.resetTo v cut) fun t => Rebuilt (s.resetTo v cut) t ∧ ReadyPosted (s.resetTo v cut) t :=
      ready_rebuilds ((keeps_resetTo v cut s).canonical c) rfl rfl rfl rfl
    exact ⟨⟨_, exec_powerOn cut s, rebuilds _⟩, ⟨_, exec_resetPin cut s, rebuilds _⟩⟩
  · apply after_of_complete (exec_ready s)
    rw [rebuild_of_started (s := s.begin) started]
    exact unchanged_begin [] s

end Sys2Proof.Proofs

/-! PROOFS. Folio requests that walk or hold: the checks of R2, FIND, NEXT IN MATTER and READ EXCEPTIONS (R21 to
R23), the holds of a record and of a matter (R26 to R29). -/

namespace Sys2Proof.Proofs

open Sys2Proof.Machine Sys2Proof.Safety Sys2Proof.Claims Sys2Proof.Laws Sys2Proof.Laws.Batches
  Sys2Proof.Laws.Rebuild

/-! ## Resolution (R2, R19) -/

section Resolution

variable {s : State} {folio : Word}

theorem resolve_of_free (free : (s.slot (folio.toNat / 16)).state = .free) : s.resolve folio = .error .notFound :=
  if_pos free

theorem resolve_of_stale (used : (s.slot (folio.toNat / 16)).state ≠ .free)
    (stale : (s.slot (folio.toNat / 16)).generation ≠ folio.extractLsb' 0 4) :
    s.resolve folio = .error .stale :=
  (if_neg used).trans (if_pos stale)

theorem resolve_of_damaged (damaged : (s.slot (folio.toNat / 16)).state = .damaged)
    (same : (s.slot (folio.toNat / 16)).generation = folio.extractLsb' 0 4) :
    s.resolve folio = .error .damaged := by
  have damaged : (s.slot (slotOf folio)).state = .damaged := damaged
  have same : (s.slot (slotOf folio)).generation = generationOf folio := same
  rw [State.resolve]
  simp [damaged, same, RecordState.live]

theorem onFolio_of_error {code : ReplyCode} (own : Record → State → State × Reply)
    (error : s.resolve folio = .error code) : onFolio folio own s = refused code s := by
  rw [onFolio, error]

end Resolution

/-- Every request that names a folio is served behind the checks of R2. -/
theorem exec_folioRequest {i : Instr} {most : Nat} {tag : Tag} {folio : Word}
    (h : folioRequest i = some (most, tag, folio)) :
    ∃ own, ∀ s, exec i s = request most tag (onFolio folio own) s := by
  cases i <;> cases h
  all_goals exact ⟨_, fun _ => rfl⟩

/-- Settles O21. -/
theorem folioResolution : Obligations.FolioResolution := by
  unfold Obligations.FolioResolution
  intro s i most tag folio named takes
  obtain ⟨own, run⟩ := exec_folioRequest named
  have refuses (code : ReplyCode) (error : s.begin.resolve folio = .error code) :
      Reads i s code.number tag [] :=
    reads_of_refused code (run s) takes (onFolio_of_error own error)
  exact ⟨fun free => refuses .notFound (resolve_of_free (s := s.begin) free),
    fun used stale => refuses .stale (resolve_of_stale (s := s.begin) used stale),
    fun damaged same => refuses .damaged (resolve_of_damaged (s := s.begin) damaged same)⟩

/-! ## FIND (R21) -/

theorem chainFrom_begin {s : State} {l : List Nat} {h : Option Nat} (chain : ChainFrom s h l) :
    ChainFrom s.begin h l :=
  chainFrom_congr (s := s) (t := s.begin) l h (fun _ _ => rfl) chain

section Walk

variable {s : State} {sequence : Nat}

/-- The walk passes the records before the one with the sequence or above it. -/
theorem findSequence_passes {before rest : List Nat} {h : Option Nat} {fuel : Nat}
    (chain : ChainFrom s h (before ++ rest)) (room : before.length ≤ fuel)
    (below : ∀ k ∈ before, (s.slot k).sequence < sequence) :
    ∃ h', ChainFrom s h' rest ∧
      s.findSequence sequence fuel h = s.findSequence sequence (fuel - before.length) h' := by
  induction before generalizing h fuel with
  | nil => exact ⟨h, chain, rfl⟩
  | cons k before ih =>
    obtain ⟨rfl, chain⟩ := chain
    obtain ⟨fuel, rfl⟩ : ∃ m, fuel = m + 1 := Nat.exists_eq_succ_of_ne_zero (by simp at room; omega)
    have lower := below k List.mem_cons_self
    obtain ⟨h', chain', walks⟩ := ih chain (Nat.le_of_succ_le_succ room)
      fun j mem => below j (List.mem_cons_of_mem k mem)
    refine ⟨h', chain', ?_⟩
    rw [State.findSequence, if_neg (by omega), if_neg (by omega), walks, List.length_cons,
      Nat.add_sub_add_right]

variable {before after : List Nat} {n : Nat} {h : Option Nat} {fuel : Nat}
  (chain : ChainFrom s h (before ++ n :: after)) (room : (before ++ n :: after).length ≤ fuel)
  (below : ∀ k ∈ before, (s.slot k).sequence < sequence)

include chain room below

/-- The walk comes to a slot behind lower sequences and stops there. -/
theorem findSequence_stops : s.findSequence sequence fuel h =
    if (s.slot n).sequence = sequence then some n
    else if sequence < (s.slot n).sequence then none
    else s.findSequence sequence (fuel - before.length - 1) (s.slot n).chainNext := by
  rw [List.length_append, List.length_cons] at room
  obtain ⟨h', ⟨rfl, -⟩, walks⟩ := findSequence_passes (fuel := fuel) chain (by omega) below
  obtain ⟨m, left⟩ : ∃ m, fuel - before.length = m + 1 :=
    Nat.exists_eq_succ_of_ne_zero (Nat.sub_ne_zero_of_lt (by omega))
  rw [walks, left, State.findSequence, Nat.add_sub_cancel]

theorem findSequence_found (same : (s.slot n).sequence = sequence) :
    s.findSequence sequence fuel h = some n := by
  rw [findSequence_stops chain room below, if_pos same]

theorem findSequence_above (above : sequence < (s.slot n).sequence) :
    s.findSequence sequence fuel h = none := by
  rw [findSequence_stops chain room below, if_neg (by omega), if_pos above]

end Walk

theorem findSequence_none (s : State) (sequence fuel : Nat) : s.findSequence sequence fuel none = none := by
  cases fuel <;> rfl

theorem findSequence_to_tail {s : State} {chain : List Nat} {h : Option Nat} {sequence fuel : Nat}
    (walk : ChainFrom s h chain) (room : chain.length ≤ fuel)
    (below : ∀ k ∈ chain, (s.slot k).sequence < sequence) : s.findSequence sequence fuel h = none := by
  obtain ⟨h', tail, walks⟩ := findSequence_passes (rest := []) (by rwa [List.append_nil]) room below
  have tail : h' = none := tail
  rw [walks, tail, findSequence_none]

theorem exec_find (tag : Tag) (matter : Long) (sequence : Word) (s : State) :
    exec (.find tag matter sequence) s = request (largestReply 0x11) tag (ownerFind matter sequence) s := rfl

theorem ownerFind_badArgument {matter : Long} {sequence : Word} (zero : matter = 0 ∨ sequence = 0) (s : State) :
    ownerFind matter sequence s = refused .badArgument s := if_pos zero

theorem ownerFind_unknown {matter : Long} {sequence : Word} {s : State} (number : matter ≠ 0)
    (positive : sequence ≠ 0) (unknown : s.findMatter matter = none) :
    ownerFind matter sequence s = refused .notFound s := by
  rw [ownerFind, if_neg (not_or.mpr ⟨number, positive⟩), unknown]

/-- The answer of FIND to what its walk finds. -/
def foundReply (s : State) : Option Nat → Reply
  | none => refuse .notFound
  | some n => okWith [(s.slot n).folio n, (s.slot n).stateWord]

theorem ownerFind_walks {matter : Long} {sequence : Word} {s : State} {place : Nat} (number : matter ≠ 0)
    (positive : sequence ≠ 0) (known : InDirectory s matter place) :
    ownerFind matter sequence s =
      (s, foundReply s (s.findSequence sequence.toNat 4096 (s.matterAt place).head)) := by
  obtain ⟨pinned, known⟩ := known
  rw [ownerFind, if_neg (not_or.mpr ⟨number, positive⟩), known]
  change (match s.findSequence sequence.toNat 4096 (s.matterAt place).head with
    | none => _
    | some slot => _) = _
  generalize s.findSequence sequence.toNat 4096 (s.matterAt place).head = found
  cases found <;> rfl

/-- FIND of a matter in the directory, by what its walk finds. -/
theorem reads_find {s : State} {matter : Long} {sequence : Word} {place : Nat} (tag : Tag) (takes : Takes 3 s)
    (number : matter ≠ 0) (positive : sequence ≠ 0) (known : InDirectory s matter place) {found : Option Nat}
    (walk : s.begin.findSequence sequence.toNat 4096 (s.matterAt place).head = found) :
    Reads (.find tag matter sequence) s (foundReply s.begin found).code.number tag
      (foundReply s.begin found).results := by
  have owner := ownerFind_walks (s := s.begin) number positive known
  refine reads_of_owner (exec_find tag matter sequence s) takes ?_
  rw [owner]
  exact congrArg (fun x => (s.begin, foundReply s.begin x)) walk

theorem find_answers (s : State) (tag : Tag) (matter : Long) (sequence : Word) (takes : Takes 3 s) :
    (matter = 0 ∨ sequence = 0 → Reads (.find tag matter sequence) s 18 tag []) ∧
    (matter ≠ 0 → sequence ≠ 0 → NotInDirectory s matter → Reads (.find tag matter sequence) s 2 tag []) ∧
    (∀ (place : Nat) (before after : List Nat) (n : Nat), matter ≠ 0 → sequence ≠ 0 →
      InDirectory s matter place → (before ++ n :: after).length ≤ 4096 →
      ChainFrom s (s.matterAt place).head (before ++ n :: after) →
      (∀ k ∈ before, (s.slot k).sequence < sequence.toNat) →
      ((s.slot n).sequence = sequence.toNat → Reads (.find tag matter sequence) s 0 tag
        [folioNumber s n, pack [(3, (s.slot n).state.code)]]) ∧
      (sequence.toNat < (s.slot n).sequence → Reads (.find tag matter sequence) s 2 tag [])) ∧
    (∀ (place : Nat) (chain : List Nat), matter ≠ 0 → sequence ≠ 0 → InDirectory s matter place →
      chain.length ≤ 4096 → ChainFrom s (s.matterAt place).head chain →
      (∀ k ∈ chain, (s.slot k).sequence < sequence.toNat) →
      Reads (.find tag matter sequence) s 2 tag []) := by
  have run := exec_find tag matter sequence s
  refine ⟨fun zero => ?_, fun number positive unknown => ?_,
    fun place before after n number positive known room chain below => ⟨fun same => ?_, fun above => ?_⟩,
    fun place chain number positive known room walk below => ?_⟩
  · exact reads_of_refused .badArgument run takes (ownerFind_badArgument zero s.begin)
  · exact reads_of_refused .notFound run takes (ownerFind_unknown (s := s.begin) number positive unknown)
  · exact reads_find tag takes number positive known (found := some n)
      (findSequence_found (s := s.begin) (chainFrom_begin chain) room below same)
  · exact reads_find tag takes number positive known (found := none)
      (findSequence_above (s := s.begin) (chainFrom_begin chain) room below above)
  · exact reads_find tag takes number positive known (found := none)
      (findSequence_to_tail (s := s.begin) (chainFrom_begin walk) room below)

/-! ## NEXT IN MATTER and READ EXCEPTIONS (R22, R23) -/

theorem exec_nextInMatter (tag : Tag) (folio : Word) (s : State) :
    exec (.nextInMatter tag folio) s = request (largestReply 0x12) tag (ownerNextInMatter folio) s := rfl

theorem exec_readExceptions (tag : Tag) (folio : Word) (s : State) :
    exec (.readExceptions tag folio) s = request (largestReply 0x13) tag (ownerReadExceptions folio) s := rfl

theorem nextInMatter_answers (s : State) (tag : Tag) (folio : Word) (r : Record) (names : Names s folio r)
    (takes : Takes 3 s) : (r.chainNext = none → Reads (.nextInMatter tag folio) s 16 tag []) ∧
      (∀ n, r.chainNext = some n → Reads (.nextInMatter tag folio) s 0 tag
        [folioNumber s n, pack [(3, (s.slot n).state.code)]]) := by
  have run := exec_nextInMatter tag folio s
  refine ⟨fun tail => reads_of_refused .endOfChain run takes ?_, fun n next => reads_of_owner run takes
    (r := okWith [(s.slot n).folio n, (s.slot n).stateWord]) ?_⟩
  · rw [ownerNextInMatter, onFolio_of_names names, tail]
  · rw [ownerNextInMatter, onFolio_of_names names, next]
    rfl

/-- Settles O23. -/
theorem folioWalks : Obligations.FolioWalks := by
  unfold Obligations.FolioWalks
  refine ⟨find_answers, nextInMatter_answers, fun s tag folio r names takes => ?_⟩
  have owner : ownerReadExceptions folio s.begin = (s.begin, _) := onFolio_of_names names _
  have reads := reads_of_owner (exec_readExceptions tag folio s) takes owner
  have causes (e : ExceptionEntry) : pack [(8, e.page), (3, e.cause.code), (5, e.detail)] =
      pack [(8, e.page), (3, match e.cause with
        | .sheetRejected => 0 | .notShelved => 1 | .skewUncorrected => 2 | .doubleFeedFiled => 3
        | .interrupted => 4), (5, e.detail)] := by
    cases e.cause <;> rfl
  rw [okWith, funext causes] at reads
  exact reads

/-! ## HOLD and RELEASE (R26, R27) -/

theorem exec_hold (tag : Tag) (folio : Word) (s : State) :
    exec (.hold tag folio) s = request (largestReply 0x16) tag (ownerHold folio) s := rfl

theorem exec_release (tag : Tag) (folio : Word) (s : State) :
    exec (.release tag folio) s = request (largestReply 0x17) tag (ownerRelease folio) s := rfl

theorem ownerHold_eq {s : State} {folio : Word} {r : Record} (names : Names s folio r) :
    ownerHold folio s.begin =
      if r.holdCount = 7 then refused .limit s.begin
      else (s.begin.putSlot (slotOf folio) { r with holdCount := r.holdCount + 1 },
        okWith [packOne 3 (r.holdCount + 1)]) := by
  rw [ownerHold, onFolio_of_names names]

theorem ownerRelease_eq {s : State} {folio : Word} {r : Record} (names : Names s folio r) :
    ownerRelease folio s.begin =
      if r.holdCount = 0 then refused .state s.begin
      else (s.begin.putSlot (slotOf folio) { r with holdCount := r.holdCount - 1 },
        okWith [pack [(3, r.holdCount - 1), (1, bit (0 < (s.matterAt r.place).holdCount))]]) := by
  rw [ownerRelease, onFolio_of_names names]
  rfl

/-- An owner that writes one slot: its reply, and that slot and no other byte of record memory. -/
theorem after_of_putSlot {i : Instr} {s : State} {most : Nat} {tag : Tag} {owner : Owner}
    (run : exec i s = request most tag owner s) (takes : Takes most s) (c : Canonical s) {n : Nat} {r : Record}
    {reply : Reply} (h : owner s.begin = (s.begin.putSlot n r, reply)) :
    After i s fun t => Answers s t reply.code.number tag reply.results ∧ Unchanged [.port, .record] s t ∧
      SlotWritten s t n r :=
  after_of_owner run takes h ⟨answers_of_port rfl tag _, unchanged_putSlot_answer s n r tag _,
    slotWritten_putSlot_answer c n r tag _⟩

/-- Settles O25. -/
theorem holdAndRelease : Obligations.HoldAndRelease := by
  unfold Obligations.HoldAndRelease
  intro s tag folio r names takes
  have held := ownerHold_eq names
  have released := ownerRelease_eq names
  refine ⟨fun most => ?_, fun c room => ?_, fun none => ?_, fun c some => ?_⟩
  · rw [if_pos most] at held
    exact reads_of_refused .limit (exec_hold tag folio s) takes held
  · rw [if_neg room] at held
    exact (after_of_putSlot (exec_hold tag folio s) takes c held :)
  · rw [if_pos none] at released
    exact reads_of_refused .state (exec_release tag folio s) takes released
  · rw [if_neg some] at released
    exact (after_of_putSlot (exec_release tag folio s) takes c released :)

end Sys2Proof.Proofs

/-! PROOFS. The matter index and the directory (R4, R6, R7), the plates given back to the free plate queue (R140),
and the requests HOLD MATTER, RELEASE MATTER and SHED IMAGE (R28, R29, R31). -/

namespace Sys2Proof.Proofs

open Sys2Proof.Machine Sys2Proof.Safety Sys2Proof.Claims Sys2Proof.Laws Sys2Proof.Laws.Decisions
  Sys2Proof.Laws.Batches Sys2Proof.Laws.Rebuild

/-! ## The matter index (R4, R6) -/

/-- A new index entry stands between the entries below its place and the others. -/
theorem insertIndex_splits (e : IndexEntry) (l : List IndexEntry) :
    ∃ below above, l = below ++ above ∧ insertIndex e l = below ++ e :: above := by
  induction l with
  | nil => exact ⟨[], [], rfl, rfl⟩
  | cons f rest ih =>
    rw [insertIndex]
    split
    · exact ⟨[], f :: rest, rfl, rfl⟩
    · obtain ⟨below, above, parts, inserted⟩ := ih
      exact ⟨f :: below, above, congrArg (f :: ·) parts, congrArg (f :: ·) inserted⟩

theorem indexMatter_index (number : Long) (place : Nat) (s : State) :
    (s.indexMatter number place).folio.index = insertIndex ⟨number, place, false⟩ s.folio.index := rfl

/-- The one index entry of its matter is the one that is found. -/
theorem findMatter_of_unique {s : State} {e : IndexEntry} (mem : e ∈ s.folio.index)
    (unique : ∀ x ∈ s.folio.index, x.matter = e.matter → x = e) : s.findMatter e.matter = some e := by
  cases found : s.findMatter e.matter with
  | none => exact absurd rfl ((find_none s e.matter).mp found e mem)
  | some x =>
    obtain ⟨memX, same⟩ := find_some s e.matter x found
    rw [unique x memX same]

/-- The entry made for a new matter is the one that is found. -/
theorem inDirectory_indexMatter {s : State} {number : Long} (unknown : NotInDirectory s number) (place : Nat) :
    InDirectory (s.indexMatter number place) number place := by
  refine ⟨false, findMatter_of_unique (e := ⟨number, place, false⟩) ?_ fun x mem same => ?_⟩
  · rw [indexMatter_index, mem_insert]
    exact .inl rfl
  · rw [indexMatter_index, mem_insert] at mem
    exact mem.resolve_right fun old => (find_none s number).mp unknown x old same

/-- No other matter's entry is found elsewhere. -/
theorem findMatter_indexMatter_ne {s : State} {number other : Long} (h : other ≠ number) (place : Nat) :
    (s.indexMatter number place).findMatter other = s.findMatter other := by
  obtain ⟨below, above, parts, inserted⟩ := insertIndex_splits ⟨number, place, false⟩ s.folio.index
  rw [State.findMatter, State.findMatter, indexMatter_index, inserted, parts, List.find?_append,
    List.find?_append, List.find?_cons_of_neg (by simpa using h.symm)]

/-- A new entry is not pinned. -/
theorem pinned_indexMatter (s : State) (number : Long) (place p : Nat) :
    (s.indexMatter number place).pinned p = s.pinned p := by
  rw [State.pinned, State.pinned, indexMatter_index, (perm_insert _ s.folio.index).any_eq, List.any_cons]
  simp

/-! ## Free directory places (R6) -/

theorem firstFrom_of_lowest {test : Nat → Bool} {p : Nat} (holds : test p = true) (count start : Nat)
    (least : start ≤ p) (most : p < start + count) (fails : ∀ q, start ≤ q → q < p → test q = false) :
    firstFrom test start count = some p := by
  induction count generalizing start with
  | zero => omega
  | succ count ih =>
    rw [firstFrom]
    rcases Nat.eq_or_lt_of_le least with rfl | above
    · rw [if_pos holds]
    · rw [if_neg (by simp [fails start (Nat.le_refl _) above])]
      exact ih (start + 1) above (by omega) fun q low => fails q (by omega)

theorem freePlace_of_lowest {s : State} {place : Nat} (inside : place < 256)
    (free : (s.matterAt place).number = 0) (used : ∀ p, p < place → (s.matterAt p).number ≠ 0) :
    s.freePlace = some place :=
  firstFrom_of_lowest (decide_eq_true free) _ _ (Nat.zero_le _) (by rwa [Nat.zero_add])
    fun q _ below => decide_eq_false (used q below)

theorem freePlace_of_full {s : State} (used : ∀ p, p < 256 → (s.matterAt p).number ≠ 0) :
    s.freePlace = none := by
  rcases freePlace_spec s with ⟨p, -, inside, free⟩ | ⟨none, -⟩
  · exact absurd free (used p inside)
  · exact none

/-! ## Directory entries written -/

theorem placeWritten_of {s t : State} (c : Canonical s) (n : Nat) (m : Matter)
    (h : t.record = (s.putMatter n m).record) : PlaceWritten s t n m :=
  ⟨(placeEntry_congr h n).trans (placeEntry_putMatter c n m),
    fun a slots places links => (recordByte_congr h a).trans (kept_putMatter n m s a slots places links)⟩

theorem placeWritten_twice {s t : State} {n : Nat} {m m' : Matter} (c : Canonical s)
    (h : t.record = ((s.putMatter n m).putMatter n m').record) : PlaceWritten s t n m' := by
  have between : Canonical (s.putMatter n m) := (quiet_putMatter n m s).canonical c
  obtain ⟨entry, kept⟩ := placeWritten_of between n m' h
  exact ⟨entry, RecordKept.mono (RecordKept.trans (kept_putMatter n m s) kept) (by simp) (by simp) (by simp)⟩

/-! ## HOLD MATTER and RELEASE MATTER (R28, R29) -/

theorem exec_holdMatter (tag : Tag) (matter : Long) (s : State) :
    exec (.holdMatter tag matter) s = request (largestReply 0x18) tag (ownerHoldMatter matter) s := rfl

theorem exec_releaseMatter (tag : Tag) (matter : Long) (s : State) :
    exec (.releaseMatter tag matter) s = request (largestReply 0x19) tag (ownerReleaseMatter matter) s := rfl

section Owners

variable {s : State} {matter : Long}

theorem ownerHoldMatter_new (number : matter ≠ 0) (unknown : s.findMatter matter = none) :
    ownerHoldMatter matter s =
      match s.freePlace with
      | none => refused .full s
      | some place => ((s.indexMatter matter place).putMatter place { Matter.fresh matter with holdCount := 1 },
        okWith [packOne 4 1]) := by
  rw [ownerHoldMatter, if_neg number, unknown] <;> rfl

theorem ownerHoldMatter_known {place : Nat} (number : matter ≠ 0) (known : InDirectory s matter place) :
    ownerHoldMatter matter s =
      if (s.matterAt place).holdCount = 15 then refused .limit s
      else (s.putMatter place { s.matterAt place with holdCount := (s.matterAt place).holdCount + 1 },
        okWith [packOne 4 ((s.matterAt place).holdCount + 1)]) := by
  obtain ⟨pinned, known⟩ := known
  rw [ownerHoldMatter, if_neg number, known]

theorem ownerReleaseMatter_new (number : matter ≠ 0) (unknown : s.findMatter matter = none) :
    ownerReleaseMatter matter s = refused .notFound s := by
  rw [ownerReleaseMatter, if_neg number, unknown]

/-- The state with the hold count of a place's matter lowered. -/
def heldLess (s : State) (place : Nat) : State :=
  s.putMatter place { s.matterAt place with holdCount := (s.matterAt place).holdCount - 1 }

theorem ownerReleaseMatter_known {place : Nat} (number : matter ≠ 0) (known : InDirectory s matter place) :
    ownerReleaseMatter matter s =
      if (s.matterAt place).holdCount = 0 then refused .state s
      else ((heldLess s place).testRemoval place, okWith [pack [(4, (s.matterAt place).holdCount - 1),
        (1, bit ((heldLess s place).removable place))]]) := by
  obtain ⟨pinned, known⟩ := known
  rw [ownerReleaseMatter, if_neg number, known]
  rfl

/-- A lowered matter leaves when it has no record, no hold and no pin (R7). -/
theorem removable_heldLess {place : Nat} (c : Canonical s) (number : (s.matterAt place).number ≠ 0) :
    (heldLess s place).removable place = (decide ((s.matterAt place).recordCount = 0) &&
      decide ((s.matterAt place).holdCount - 1 = 0) && !s.pinned place) := by
  have lowered : (heldLess s place).matterAt place =
      { s.matterAt place with holdCount := (s.matterAt place).holdCount - 1 } :=
    matterAt_putMatter c place number
  have pinned : (heldLess s place).pinned place = s.pinned place := rfl
  have known : decide ((s.matterAt place).number ≠ 0) = true := decide_eq_true number
  simp only [State.removable, lowered, pinned, known, Bool.true_and]

end Owners

theorem testRemoval_of_not_removable {s : State} {p : Nat} (h : s.removable p = false) :
    s.testRemoval p = s := if_neg (by simp [h])

theorem testRemoval_of_removable {s : State} {p : Nat} (h : s.removable p = true) :
    s.testRemoval p =
      { s with folio.index := s.folio.index.filter fun e => e.place ≠ p }.putMatter p {} := if_pos h

/-- Settles O26: a matter not in the directory by the first free place, one in it by its hold count. -/
theorem matterHolds : Obligations.MatterHolds := by
  unfold Obligations.MatterHolds
  intro s tag matter takes
  have holds := exec_holdMatter tag matter s
  have releases := exec_releaseMatter tag matter s
  refine ⟨fun zero => ⟨?_, ?_⟩, fun number unknown => ?_, fun number unknown full => ?_,
    fun place c number unknown inside free lowest => ?_, fun place number known => ?_⟩
  · exact reads_of_refused .badArgument holds takes (if_pos zero)
  · exact reads_of_refused .badArgument releases takes (if_pos zero)
  · exact reads_of_refused .notFound releases takes (ownerReleaseMatter_new (s := s.begin) number unknown)
  · have owner := ownerHoldMatter_new (s := s.begin) number unknown
    rw [freePlace_of_full (s := s.begin) full] at owner
    exact reads_of_refused .full holds takes owner
  · have owner := ownerHoldMatter_new (s := s.begin) number unknown
    rw [freePlace_of_lowest (s := s.begin) inside free lowest] at owner
    exact after_of_owner holds takes owner ⟨answers_of_port rfl tag _, by simp [Unchanged],
      placeWritten_of (s := s) c place _ rfl, rfl, inDirectory_indexMatter (s := s.begin) unknown place,
      fun other h => findMatter_indexMatter_ne (s := s.begin) h place⟩
  · have held := ownerHoldMatter_known (s := s.begin) number known
    have released := ownerReleaseMatter_known (s := s.begin) number known
    refine ⟨fun most => ?_, fun c same room => ?_, fun none => ?_, fun c same some stays => ?_,
      fun c same one empty unpinned => ?_⟩
    · exact reads_of_refused .limit holds takes (held.trans (if_pos most))
    · exact after_of_owner holds takes (held.trans (if_neg room)) ⟨answers_of_port rfl tag _, by simp [Unchanged],
        placeWritten_of (s := s) c place _ rfl⟩
    · exact reads_of_refused .state releases takes (released.trans (if_pos none))
    · have keeps : (heldLess s.begin place).removable place = false := by
        rw [removable_heldLess (s := s.begin) c (same.trans_ne number)]
        simp only [Bool.and_eq_false_iff, decide_eq_false_iff_not, Bool.not_eq_false']
        rcases stays with held | records | pinned
        · exact .inl (.inr (Nat.sub_ne_zero_of_lt held))
        · exact .inl (.inl (Nat.ne_of_gt records))
        · exact .inr pinned
      rw [keeps, testRemoval_of_not_removable keeps] at released
      exact after_of_owner releases takes (released.trans (if_neg some)) ⟨answers_of_port rfl tag _,
        by simp [Unchanged, heldLess], placeWritten_of (s := s) c place _ rfl⟩
    · have leaves : (heldLess s.begin place).removable place = true := by
        rw [removable_heldLess (s := s.begin) c (same.trans_ne number)]
        have unpinned : s.begin.pinned place = false := unpinned
        have one : (s.begin.matterAt place).holdCount = 1 := one
        have empty : (s.begin.matterAt place).recordCount = 0 := empty
        simp [empty, one, unpinned]
      have one : (s.begin.matterAt place).holdCount = 1 := one
      have some : ¬ (s.begin.matterAt place).holdCount = 0 := by simp [one]
      have reply : pack [(4, (s.begin.matterAt place).holdCount - 1), (1, bit true)] = pack [(4, 0), (1, 1)] := by
        rw [one]
        rfl
      rw [if_neg some, leaves, testRemoval_of_removable leaves, reply] at released
      exact after_of_owner releases takes released ⟨answers_of_port rfl tag _, by simp [Unchanged, heldLess],
        placeWritten_twice c rfl, rfl⟩

/-! ## Plates given back (R140) -/

/-- What giving one chain back to the free plate queue leaves. -/
structure PlatesBack (s t : State) (c : PlateChain) : Prop where
  frame : t = { s with record := t.record, journal := t.journal, images.free := t.images.free }
  slots : ∀ n, t.slotEntry n = s.slotEntry n
  places : ∀ n, t.placeEntry n = s.placeEntry n
  canonical : Canonical s → Canonical t
  queue : 0 < c.count → t.images.free =
    { head := if s.images.free.length = 0 then c.head else s.images.free.head
      tail := c.tail, length := s.images.free.length + c.count }
  still : c.count = 0 → t.images.free = s.images.free
  chains : Canonical s → ChainsReturned s t [c]
  kept : RecordKept s t [] [] (s.images.free.tail.toList ++ c.tail.toList)

/-- A next-plate field rewritten where there is a plate to rewrite. -/
def putNextAt (plate : Option Nat) (next : Option Nat) (s : State) : State :=
  match plate with
  | some p => s.putNext p next
  | none => s

theorem links_putNextAt (plate next : Option Nat) (s : State) : Links s (putNextAt plate next s) := by
  cases plate with
  | none => exact .rfl
  | some p => exact links_putNext p next s

theorem kept_putNextAt (plate next : Option Nat) (s : State) :
    RecordKept s (putNextAt plate next s) [] [] plate.toList := by
  cases plate with
  | none => exact RecordKept.rfl
  | some p => exact kept_putLink p _ s

theorem returnChains_of_plates (c : PlateChain) (s : State) (h : 0 < c.count) :
    s.returnChains [c] =
      let linked := putNextAt c.tail none (putNextAt s.images.free.tail c.head s)
      { linked with images.free :=
        { head := if s.images.free.length = 0 then c.head else s.images.free.head
          tail := c.tail, length := s.images.free.length + c.count } } := by
  have given : [c].filter (fun c => decide (0 < c.count)) = [c] := by simp [h]
  rw [State.returnChains, given]
  rfl

theorem returnChains_of_none (c : PlateChain) (s : State) (h : c.count = 0) : s.returnChains [c] = s := by
  have given : [c].filter (fun c => decide (0 < c.count)) = [] := by simp [h]
  rw [State.returnChains, given]

theorem platesBack (c : PlateChain) (s : State) : PlatesBack s (s.returnChains [c]) c := by
  have chains (k : Canonical s) : ChainsReturned s (s.returnChains [c]) [c] := chains_returned [c] s k
  rcases Nat.eq_zero_or_pos c.count with zero | plates
  · rw [returnChains_of_none c s zero] at chains ⊢
    exact ⟨rfl, fun _ => rfl, fun _ => rfl, id, fun h => absurd zero (Nat.ne_of_gt h), fun _ => rfl, chains, RecordKept.rfl⟩
  · rw [returnChains_of_plates c s plates] at chains ⊢
    have links := (links_putNextAt s.images.free.tail c.head s).trans
      (links_putNextAt c.tail none (putNextAt s.images.free.tail c.head s))
    have kept := RecordKept.trans (kept_putNextAt s.images.free.tail c.head s)
      (kept_putNextAt c.tail none (putNextAt s.images.free.tail c.head s))
    generalize putNextAt c.tail none (putNextAt s.images.free.tail c.head s) = linked at links kept chains ⊢
    obtain ⟨rest, slots, places, canonical⟩ := links
    refine ⟨?_, slots, places, canonical, fun _ => rfl, fun h => absurd h (Nat.ne_of_gt plates), chains, kept⟩
    rw [rest]

/-! ## SHED IMAGE (R31) -/

theorem exec_shedImage (tag : Tag) (folio : Word) (s : State) :
    exec (.shedImage tag folio) s = request (largestReply 0x1B) tag (ownerShedImage folio) s := rfl

theorem inUse_iff (s : State) (n : Nat) :
    s.inUse n = true ↔ s.folio.auditMark = some n ∨ s.folio.exportMark = some n := by
  simp [State.inUse]

/-! The tests that RETIRE, REFILE and SHED IMAGE share, in the terms of the statements. -/

section Tests

variable {α : Type} {s : State} {r : Record} {n : Nat} (x y : α)

theorem ite_of_held (held : Held s r) : (if s.heldRecord r = true then x else y) = x :=
  if_pos ((heldRecord_iff s r).mpr held)

theorem ite_of_not_held (free : ¬ Held s r) : (if s.heldRecord r = true then x else y) = y :=
  if_neg fun held => free ((heldRecord_iff s r).mp held)

theorem ite_of_used (used : s.folio.auditMark = some n ∨ s.folio.exportMark = some n) :
    (if s.inUse n = true then x else y) = x :=
  if_pos ((inUse_iff s n).mpr used)

theorem ite_of_not_used (free : ¬ (s.folio.auditMark = some n ∨ s.folio.exportMark = some n)) :
    (if s.inUse n = true then x else y) = y :=
  if_neg fun used => free ((inUse_iff s n).mp used)

end Tests

/-- The state SHED IMAGE leaves before its reply. -/
def shed (s : State) (n : Nat) (r : Record) : State :=
  (s.returnChains [r.plates]).putSlot n
    { r with image := .shed, plateHead := none, plateTail := none, plateCount := 0 }

/-- The owner's branches, on a folio that names a live record. -/
theorem ownerShedImage_eq {s : State} {folio : Word} {r : Record} (names : Names s folio r) :
    ownerShedImage folio s.begin =
      if r.state ≠ .filed then refused .state s.begin
      else if s.heldRecord r then refused .held s.begin
      else if s.inUse (folio.toNat / 16) then refused .inUse s.begin
      else if r.image = .shed then refused .noImage s.begin
      else (shed s.begin (folio.toNat / 16) r, okWith [packOne 15 r.plateCount]) := by
  rw [ownerShedImage, onFolio_of_names names]
  rfl

/-- Settles O29. -/
theorem shedImageGivesUpPlates : Obligations.ShedImageGivesUpPlates := by
  unfold Obligations.ShedImageGivesUpPlates
  intro s tag folio r names takes n used
  have run := exec_shedImage tag folio s
  have owner := ownerShedImage_eq names
  refine ⟨fun state => ?_, fun filed held => ?_, fun filed free mark => ?_, fun filed free noMark none => ?_,
    fun c filed free noMark image => ?_⟩
  · exact reads_of_refused .state run takes (owner.trans (if_pos state))
  · rw [if_neg (not_not.mpr filed)] at owner
    exact reads_of_refused .held run takes (owner.trans (ite_of_held _ _ held))
  · rw [if_neg (not_not.mpr filed), ite_of_not_held _ _ free] at owner
    exact reads_of_refused .inUse run takes (owner.trans (ite_of_used _ _ mark))
  · rw [if_neg (not_not.mpr filed), ite_of_not_held _ _ free, ite_of_not_used _ _ noMark] at owner
    exact reads_of_refused .noImage run takes (owner.trans (if_pos none))
  · rw [if_neg (not_not.mpr filed), ite_of_not_held _ _ free, ite_of_not_used _ _ noMark, if_neg (by simp [image])] at owner
    have back := platesBack r.plates s.begin
    rw [shed] at owner
    generalize s.begin.returnChains [r.plates] = t at owner back
    obtain ⟨frame, slots, places, canonical, queue, still, chains, kept⟩ := back
    have images : t.images = { s.images with free := t.images.free } := (congrArg State.images frame :)
    have port : t.port = s.port := (congrArg State.port frame :)
    have unchanged : Unchanged [.port, .record, .images] s t := by
      rw [frame]
      simp [Unchanged]
    have written (w : Record) := RecordKept.trans kept (kept_putSlot n w t)
    refine after_of_owner run takes owner ⟨answers_of_port port tag _, slot_putSlot (canonical c) _ _, queue,
      still, chains c, images, unchanged_trans unchanged (by simp [Unchanged]), ?_⟩
    have tail : r.plates.tail = r.plateTail := rfl
    exact RecordKept.mono (written _) (by simp) (by simp) (by simp [tail])

end Sys2Proof.Proofs

/-! PROOFS. The Document Assembler's requests: MOUNT TRAY, DISMOUNT TRAY, READ TRAY and CLOSE DOCUMENT (R64, R67 to
R69). -/

namespace Sys2Proof.Proofs

open Sys2Proof.Machine Sys2Proof.Safety Sys2Proof.Claims Sys2Proof.Laws Sys2Proof.Laws.Batches

/-! ## The tray a request names -/

theorem trayOf_of_bad {tray : Word} (bad : tray.toNat < 1 ∨ 4 < tray.toNat) : trayOf tray = none :=
  dif_neg (by omega)

theorem trayOf_of_number {tray : Word} {k : TrayIx} (number : tray.toNat = k.val + 1) : trayOf tray = some k := by
  have inside : 1 ≤ tray.toNat ∧ tray.toNat ≤ 4 := by omega
  exact (dif_pos inside).trans (congrArg some (Fin.ext (by simp [number])))

theorem onTray_of_bad {tray : Word} (bad : tray.toNat < 1 ∨ 4 < tray.toNat)
    (own : TrayIx → State → State × Reply) (s : State) : onTray tray own s = refused .badArgument s := by
  rw [onTray, trayOf_of_bad bad]

theorem onTray_of_number {tray : Word} {k : TrayIx} (number : tray.toNat = k.val + 1)
    (own : TrayIx → State → State × Reply) (s : State) : onTray tray own s = own k s := by
  rw [onTray, trayOf_of_number number]

theorem trays_editTray_self (k : TrayIx) (f : Tray → Tray) (s : State) :
    (s.editTray k f).assembler.trays[k] = f s.assembler.trays[k] :=
  Vector.getElem_set_self k.isLt

theorem trays_editTray_ne {k j : TrayIx} (h : j ≠ k) (f : Tray → Tray) (s : State) :
    (s.editTray k f).assembler.trays[j] = s.assembler.trays[j] :=
  Vector.getElem_set_ne k.isLt j.isLt fun same => h (Fin.ext same.symm)

theorem unchanged_editTray_answer (k : TrayIx) (f : Tray → Tray) (s : State) (tag : Tag) (reply : Reply) :
    Unchanged [.port, .assembler] s ((s.begin.editTray k f).answer tag reply) := by
  simp [Unchanged]

/-- An owner that writes one tray: its reply, that tray, and nothing else. -/
theorem after_of_editTray {i : Instr} {s : State} {most : Nat} {tag : Tag} {owner : Owner}
    (run : exec i s = request most tag owner s) (takes : Takes most s) {k : TrayIx} {m : Tray} {reply : Reply}
    (h : owner s.begin = (s.begin.editTray k fun _ => m, reply)) :
    After i s fun t => Answers s t reply.code.number tag reply.results ∧ t.assembler.trays[k] = m ∧
      (∀ j : TrayIx, j ≠ k → t.assembler.trays[j] = s.assembler.trays[j]) ∧
      t.assembler = { s.assembler with trays := t.assembler.trays } ∧ Unchanged [.port, .assembler] s t :=
  after_of_owner run takes h ⟨answers_of_port rfl tag _, trays_editTray_self k (fun _ => m) s.begin,
    fun _ other => trays_editTray_ne other (fun _ => m) s.begin, rfl, unchanged_editTray_answer k _ s tag _⟩

/-! ## MOUNT TRAY (R67) -/

theorem exec_mountTray (tag : Tag) (tray : Word) (box : Long) (soft hard fill : Word) (s : State) :
    exec (.mountTray tag tray box soft hard fill) s =
      request (largestReply 0x20) tag (ownerMountTray tray box soft hard fill) s := rfl

theorem mountTray_answers (s : State) (tag : Tag) (tray : Word) (box : Long) (soft hard fill : Word)
    (takes : Takes 2 s) :
    let bad := tray.toNat < 1 ∨ 4 < tray.toNat ∨ hard.toNat < 1 ∨ 2000 < hard.toNat ∨
      soft.toNat < 1 ∨ hard.toNat < soft.toNat ∨ hard.toNat ≤ fill.toNat
    (bad → Reads (.mountTray tag tray box soft hard fill) s 18 tag []) ∧
    (∀ k : TrayIx, tray.toNat = k.val + 1 → ¬ bad → s.assembler.trays[k].mounted = true →
      Reads (.mountTray tag tray box soft hard fill) s 8 tag []) ∧
    (∀ k : TrayIx, tray.toNat = k.val + 1 → ¬ bad → s.assembler.trays[k].mounted = false →
      After (.mountTray tag tray box soft hard fill) s fun t =>
        Answers s t 0 tag [pack [(1, bit (decide (fill.toNat < soft.toNat)))]] ∧
        t.assembler.trays[k] = ⟨true, box, hard.toNat, soft.toNat, fill.toNat, 0⟩ ∧
        (∀ j : TrayIx, j ≠ k → t.assembler.trays[j] = s.assembler.trays[j]) ∧
        t.assembler = { s.assembler with trays := t.assembler.trays } ∧
        Unchanged [.port, .assembler] s t) := by
  intro bad
  have run := exec_mountTray tag tray box soft hard fill s
  refine ⟨fun wrong => reads_of_refused .badArgument run takes ?_, fun k number right mounted => ?_,
    fun k number right empty => ?_⟩
  · by_cases noTray : tray.toNat < 1 ∨ 4 < tray.toNat
    · exact onTray_of_bad noTray _ s.begin
    · have number : tray.toNat = (⟨tray.toNat - 1, by omega⟩ : TrayIx).val + 1 := by dsimp only; omega
      exact (onTray_of_number number _ s.begin).trans (if_pos (by omega))
  · exact reads_of_refused .state run takes
      ((onTray_of_number number _ s.begin).trans ((if_neg (by omega)).trans (if_pos mounted)))
  · exact (after_of_editTray run takes
      ((onTray_of_number number _ s.begin).trans ((if_neg (by omega)).trans (if_neg (ne_true_of_eq_false empty)))) :)

/-! ## DISMOUNT TRAY (R68) -/

theorem exec_dismountTray (tag : Tag) (tray : Word) (s : State) :
    exec (.dismountTray tag tray) s = request (largestReply 0x21) tag (ownerDismountTray tray) s := rfl

theorem ownerDismountTray_eq {tray : Word} {k : TrayIx} (number : tray.toNat = k.val + 1) (s : State) :
    ownerDismountTray tray s =
      if s.assembler.trays[k].mounted = false then refused .state s
      else if s.bound k then refused .bound s
      else if 0 < s.assembler.trays[k].committed then refused .busy s
      else (s.editTray k fun _ => {},
        okWith (twoWords s.assembler.trays[k].box ++ [packOne 11 s.assembler.trays[k].fill])) :=
  (onTray_of_number number _ s).trans (by simp only [Bool.not_eq_true'])

theorem bound_iff (s : State) (k : TrayIx) :
    s.bound k = true ↔ ∃ d, s.assembler.openDocument = some d ∧ d.tray = k := by
  rw [State.bound]
  cases s.assembler.openDocument <;> simp

theorem bound_eq_false {s : State} {k : TrayIx} (free : ∀ d, s.assembler.openDocument = some d → d.tray ≠ k) :
    s.bound k = false := by
  rw [← Bool.not_eq_true, bound_iff]
  exact fun ⟨d, bound, same⟩ => free d bound same

/-! ## READ TRAY (R69) -/

theorem exec_readTray (tag : Tag) (tray : Word) (s : State) :
    exec (.readTray tag tray) s = request (largestReply 0x22) tag (ownerReadTray tray) s := rfl

theorem folioWord_openDocument (o : Option OpenDocument) :
    folioWord (o.map OpenDocument.folio) = match o with | some d => d.folio | none => 0 := by
  cases o <;> rfl

/-- Settles O31. -/
theorem trayRequests : Obligations.TrayRequests := by
  unfold Obligations.TrayRequests
  refine ⟨mountTray_answers, fun s tag tray => ?_⟩
  have dismount := exec_dismountTray tag tray s
  have read := exec_readTray tag tray s
  refine ⟨fun takes bad => reads_of_refused .badArgument dismount takes (onTray_of_bad bad _ s.begin),
    fun takes bad => reads_of_refused .badArgument read takes (onTray_of_bad bad _ s.begin),
    fun k number => ?_⟩
  have owner := ownerDismountTray_eq number s.begin
  refine ⟨fun takes empty => ?_, fun takes mounted bound => ?_, fun takes mounted free busy => ?_,
    fun takes mounted free idle => ?_, fun takes => ?_⟩
  · exact reads_of_refused .state dismount takes (owner.trans (if_pos empty))
  · exact reads_of_refused .bound dismount takes
      (owner.trans ((if_neg (ne_false_of_eq_true mounted)).trans (if_pos ((bound_iff s k).mpr bound))))
  · have notBound : s.begin.bound k = false := bound_eq_false (s := s) free
    exact reads_of_refused .busy dismount takes
      (owner.trans ((if_neg (ne_false_of_eq_true mounted)).trans ((if_neg (by simp [notBound])).trans (if_pos busy))))
  · have notBound : s.begin.bound k = false := bound_eq_false (s := s) free
    exact (after_of_editTray dismount takes (owner.trans ((if_neg (ne_false_of_eq_true mounted)).trans
      ((if_neg (by simp [notBound])).trans (if_neg (Nat.not_lt.mpr (Nat.le_of_eq idle)))))) :)
  · have reads := reads_of_owner read takes (onTray_of_number number _ s.begin)
    simp only [folioWord_openDocument] at reads
    exact reads

/-! ## CLOSE DOCUMENT (R14, R17, R62, R64) -/

theorem exec_closeDocument (tag : Tag) (flag : Word) (s : State) :
    exec (.closeDocument tag flag) s = request (largestReply 0x23) tag (ownerCloseDocument flag) s := rfl

theorem flagOf_of_above {flag : Word} (above : 1 < flag.toNat) : flagOf flag = none := by
  have notZero : flag ≠ 0 := fun zero => by simp [zero] at above
  have notOne : flag ≠ 1 := fun one => by simp [one] at above
  rw [flagOf, if_neg notZero, if_neg notOne]

theorem flagOf_of_bit {flag : Word} (isBit : flag.toNat ≤ 1) : flagOf flag = some (decide (flag = 1)) := by
  rcases Nat.le_one_iff_eq_zero_or_eq_one.mp isBit with zero | one
  · obtain rfl : flag = 0 := BitVec.eq_of_toNat_eq zero
    rfl
  · obtain rfl : flag = 1 := BitVec.eq_of_toNat_eq one
    rfl

theorem bit_of_flag {flag : Word} (isBit : flag.toNat ≤ 1) : bit (decide (flag = 1)) = flag.toNat := by
  rcases Nat.le_one_iff_eq_zero_or_eq_one.mp isBit with zero | one
  · obtain rfl : flag = 0 := BitVec.eq_of_toNat_eq zero
    rfl
  · obtain rfl : flag = 1 := BitVec.eq_of_toNat_eq one
    rfl

theorem ownerCloseDocument_of_above {flag : Word} (above : 1 < flag.toNat) (s : State) :
    ownerCloseDocument flag s = refused .badArgument s := by
  rw [ownerCloseDocument, flagOf_of_above above]

theorem ownerCloseDocument_of_none {flag : Word} (isBit : flag.toNat ≤ 1) {s : State}
    (shut : s.assembler.openDocument = none) :
    ownerCloseDocument flag s = ({ s with assembler.marker := decide (flag = 1) },
      okWith [pack [(1, 0), (2, 2), (1, flag.toNat)], 0]) := by
  rw [ownerCloseDocument, flagOf_of_bit isBit, ← bit_of_flag isBit]
  dsimp only
  rw [shut]
  rfl

/-- The state with its document closed and the marker set, on top of the closed record. -/
def documentClosed (d : OpenDocument) (marker : Bool) (closed s : State) : State :=
  { closed with assembler := { s.assembler with
      openDocument := none, lastClosed := some d.folio, marker := marker } }

theorem ownerCloseDocument_of_open {flag : Word} (isBit : flag.toNat ≤ 1) {s : State} {d : OpenDocument}
    (bound : s.assembler.openDocument = some d) :
    ownerCloseDocument flag s =
      (documentClosed d (decide (flag = 1)) (s.closeRecord (slotOf d.folio)) s,
        okWith [pack [(1, 1),
          (2, closedField (some ((s.closeRecord (slotOf d.folio)).slot (slotOf d.folio)).state)),
          (1, flag.toNat)], d.folio]) := by
  have closed := Laws.Decisions.closeDoc_eq s (some (decide (flag = 1))) d bound
  rw [ownerCloseDocument, flagOf_of_bit isBit, bound, ← bit_of_flag isBit]
  dsimp only
  rw [closed]
  rfl

theorem closeRecord_of_outstanding {s : State} {n : Nat} (left : 0 < (s.slot n).outstanding) :
    s.closeRecord n = s.putSlot n { s.slot n with state := .filing } := if_pos left

theorem closeRecord_of_done {s : State} {n : Nat} (done : (s.slot n).outstanding = 0) :
    s.closeRecord n = (s.putSlot n { s.slot n with state := .filed }).postFolio ((s.slot n).filedNotice n) :=
  if_neg (by omega)

theorem slot_postFolio (note : Notice) (s : State) (n : Nat) : (s.postFolio note).slot n = s.slot n := by
  obtain ⟨notices, kept, frame⟩ := postFolio_frame note s
  rw [frame]
  rfl

/-- Settles O32. -/
theorem closeDocumentCloses : Obligations.CloseDocumentCloses := by
  unfold Obligations.CloseDocumentCloses
  intro s tag flag takes
  have run := exec_closeDocument tag flag s
  refine ⟨fun above => reads_of_refused .badArgument run takes (ownerCloseDocument_of_above above _),
    fun isBit shut => after_of_owner run takes (ownerCloseDocument_of_none isBit (s := s.begin) shut)
      ⟨answers_of_port rfl tag _, rfl, by simp [Unchanged]⟩,
    fun d isBit bound c => ?_⟩
  intro n r notice
  refine ⟨fun left => ?_, fun done => ?_⟩
  · have owner := ownerCloseDocument_of_open isBit (s := s.begin) bound
    rw [closeRecord_of_outstanding (s := s.begin) (n := slotOf d.folio) left, slot_putSlot (s := s.begin) c] at owner
    exact after_of_owner run takes owner ⟨answers_of_port rfl tag _, slotWritten_of (s := s.begin) c n _ rfl,
      rfl, by simp [Unchanged, documentClosed]⟩
  · have owner := ownerCloseDocument_of_open isBit (s := s.begin) bound
    rw [closeRecord_of_done (s := s.begin) (n := slotOf d.folio) done] at owner
    have state : ((s.begin.putSlot n { r with state := .filed }).postFolio notice).slot n =
        { r with state := .filed } := by
      rw [slot_postFolio]
      exact slot_putSlot (s := s.begin) c n _
    have written := slotWritten_of (s := s.begin) c n { r with state := .filed }
      (postFolio_record notice (s.begin.putSlot n { r with state := .filed }))
    obtain ⟨posts, keeps⟩ := folioNotice_post s.begin (s.begin.putSlot n { r with state := .filed }) notice rfl rfl
    have frame := postFolio_frame notice (s.begin.putSlot n { r with state := .filed })
    rw [show (s.begin.slot (slotOf d.folio)).filedNotice (slotOf d.folio) = notice from rfl] at owner
    change ownerCloseDocument flag s.begin = (documentClosed d _
      ((s.begin.putSlot n { r with state := .filed }).postFolio notice) s.begin, okWith [pack [(1, 1),
        (2, closedField (some (((s.begin.putSlot n { r with state := .filed }).postFolio notice).slot n).state)),
        (1, flag.toNat)], d.folio]) at owner
    rw [state] at owner
    generalize (s.begin.putSlot n { r with state := .filed }).postFolio notice = u at owner written posts keeps frame
    obtain ⟨notices, kept, rfl⟩ := frame
    refine after_of_owner run takes owner ⟨congrArg (fun p : Port => { p with notices := notices })
      (answers_of_port (t := s.begin) rfl tag _), fun none room => ?_, fun full => ?_, written, rfl,
      by simp [Unchanged, documentClosed]⟩
    · obtain ⟨port, folio⟩ := posts none room
      exact ⟨(congrArg Port.notices port :), folio⟩
    · obtain ⟨port, folio⟩ := keeps full
      exact ⟨(congrArg Port.notices port :), folio⟩

end Sys2Proof.Proofs

/-! PROOFS. The train's reads and the path profile (R103 to R105, R121, R122), and the term list's load and read (R75,
R77). -/

namespace Sys2Proof.Proofs

open Sys2Proof.Machine Sys2Proof.Safety Sys2Proof.Claims Sys2Proof.Laws Sys2Proof.Laws.Batches

/-! ## Consecutive places -/

/-- A vector read place by place, from its list and by its places. -/
theorem map_toList {α β : Type} {n : Nat} (v : Vector α n) (f : α → β) :
    v.toList.map f = (List.finRange n).map fun k => f v[k] := by
  apply List.ext_getElem (by simp)
  intro i _ _
  simp

theorem getElem_setIfInBounds_of_le {α : Type} {m i : Nat} (v : Vector α m) (x : α) (k : Fin m) :
    (v.setIfInBounds i x)[k] = if i = k.val then x else v[k] :=
  Vector.getElem_setIfInBounds k.isLt

/-- What stands at a place after a list is written from a place on: the head at its place, the tail behind. -/
theorem written_cons {α β : Type} {i k : Nat} (f : α → β) (w : α) (ws : List α) (d : α) (old : β) :
    (if i + 1 ≤ k ∧ k < i + 1 + ws.length then f (ws.getD (k - (i + 1)) d) else if i = k then f w else old) =
      if i ≤ k ∧ k < i + (w :: ws).length then f ((w :: ws).getD (k - i) d) else old := by
  rw [List.length_cons]
  rcases Nat.lt_trichotomy i k with above | rfl | below
  · obtain ⟨j, rfl⟩ := Nat.exists_eq_add_of_lt above
    rw [show i + j + 1 - i = j + 1 by omega, show i + j + 1 - (i + 1) = j by omega, List.getD_cons_succ,
      if_neg (show i ≠ i + j + 1 by omega)]
    exact if_congr (by omega) rfl rfl
  · rw [if_neg (by omega), if_pos rfl, if_pos (by omega), Nat.sub_self, List.getD_cons_zero]
  · rw [if_neg (by omega), if_neg (by omega), if_neg (by omega)]

/-! ## LOAD TERMS and READ TERMS (R75, R77) -/

theorem storeTerms_getElem (ws : List Word) (v : Vector Word 64) (first : Nat) (k : Fin 64) :
    (storeTerms first ws v)[k] =
      if first ≤ k.val ∧ k.val < first + ws.length then ws.getD (k.val - first) 0 else v[k] := by
  induction ws generalizing first v with
  | nil => exact (if_neg (by simp only [List.length_nil]; omega)).symm
  | cons w ws ih =>
    rw [storeTerms, ih, getElem_setIfInBounds_of_le]
    exact written_cons id w ws 0 v[k]

theorem exec_loadTerms (tag : Tag) (first : Word) (terms : List Word) (s : State) :
    exec (.loadTerms tag first terms) s = request (largestReply 0x30) tag (ownerLoadTerms first terms) s := rfl

theorem exec_readTerms (tag : Tag) (first : Word) (s : State) :
    exec (.readTerms tag first) s = request (largestReply 0x33) tag (ownerReadTerms first) s := rfl

theorem oneToSix_of {ws : List Word} (some : 1 ≤ ws.length) (few : ws.length ≤ 6) : ¬ (!oneToSix ws) = true := by
  simp [oneToSix, few, Nat.one_le_iff_ne_zero.mp some]

theorem pack_tags (t : Tags) (fields : List (Nat × Nat)) : pack ((4, t.code) :: fields) =
    pack ((1, bit t.tag0) :: (1, bit t.tag1) :: (1, bit t.tag2) :: (1, bit t.tag3) :: fields) :=
  congrArg word (packBelow_tags (by decide) t fields)

/-- Settles O33. -/
theorem loadAndReadTerms : Obligations.LoadAndReadTerms := by
  unfold Obligations.LoadAndReadTerms
  refine ⟨fun s tag first terms some few takes => ?_, fun s tag first takes => ⟨fun beyond => ?_, fun inside => ?_⟩⟩
  · have run := exec_loadTerms tag first terms s
    have owner : ownerLoadTerms first terms s.begin = if _ then _ else _ := if_neg (oneToSix_of some few)
    refine ⟨fun busy => reads_of_refused .state run takes (owner.trans (if_pos busy)),
      fun idle beyond => reads_of_refused .badArgument run takes
        (owner.trans ((if_neg (not_not.mpr idle)).trans (if_pos beyond))),
      fun idle start room => after_of_owner run takes
        (owner.trans ((if_neg (not_not.mpr idle)).trans (if_neg (by omega)))) ?_⟩
    exact ⟨answers_of_port rfl tag _, storeTerms_getElem terms s.evaluator.terms first.toNat, rfl,
      by simp [Unchanged]⟩
  · exact reads_of_refused .badArgument (exec_readTerms tag first s) takes (if_pos beyond)
  · have reads := reads_of_owner (exec_readTerms tag first s) takes
      (show ownerReadTerms first s.begin = _ from if_neg (Nat.not_lt.mpr inside))
    simp only [bitFields, map_toList, packOne, pack_tags] at reads
    exact (reads :)

/-! ## READ TRAIN and READ TICKET (R121, R122) -/

theorem exec_readTrain (tag : Tag) (s : State) :
    exec (.readTrain tag) s = request (largestReply 0x40) tag ownerReadTrain s := rfl

theorem exec_readTicket (tag : Tag) (ordinal : Word) (s : State) :
    exec (.readTicket tag ordinal) s = request (largestReply 0x41) tag (ownerReadTicket ordinal) s := rfl

/-- The path and the decision of a ticket as READ TRAIN packs them (R193). -/
theorem ticket_report (travel : Long) (u : Ticket) : u.report travel =
    [u.ordinal,
      pack [(3, u.stage.code), (3, match u.path with | some k => k.val + 1 | none => 0),
        (3, match u.decision with
          | none => 7
          | some d => match d.route with | some k => k.val + 1 | none => 0),
        (1, match u.decision with | none => 0 | some d => bit d.page.isSome),
        (2, match u.decision with
          | none => 2
          | some d => match d.astray with
            | some .late => 0 | some .gateBusy => 1 | none => 2)],
      pack [(1, bit u.flags.doubleFeed), (1, bit u.flags.separatorMark),
        (1, bit u.flags.skewOver), (1, bit u.flags.short), (1, bit u.flags.long),
        (1, bit u.flags.blankFront), (1, bit u.flags.blankBack), (1, bit u.flags.imageLost),
        (1, bit u.flags.exitedUndecided)],
      word (min 65535 (travel - u.entry).toNat)] := by
  have route (r : Option TrayIx) : routeField r = match r with | some k => k.val + 1 | none => 0 := by
    cases r <;> rfl
  have astray (a : Option Astray) : astrayField a = match a with
      | some .late => 0 | some .gateBusy => 1 | none => 2 := by
    rcases a with _ | _ | _ <;> rfl
  rw [Ticket.report, route]
  cases u.decision with
  | none => rfl
  | some d => simp only [decisionRoute, route, astray, Option.bind_some]; rfl

theorem ownerReadTicket_unknown {ordinal : Word} {s : State} (number : ordinal ≠ 0)
    (unknown : s.ticket ordinal = none) : ownerReadTicket ordinal s = refused .notFound s := by
  rw [ownerReadTicket, if_neg number, unknown]

theorem ownerReadTicket_known {ordinal : Word} {s : State} {u : Ticket} (number : ordinal ≠ 0)
    (known : s.ticket ordinal = some u) : ownerReadTicket ordinal s = (s, okWith u.details) := by
  rw [ownerReadTicket, if_neg number, known]

/-- Settles O37. -/
theorem trainReads : Obligations.TrainReads := by
  unfold Obligations.TrainReads
  refine ⟨fun s tag takes => ?_, fun s tag ordinal takes => ?_⟩
  · have reads := reads_of_owner (exec_readTrain tag s) takes (r := _) rfl
    rw [funext (ticket_report s.begin.tracker.travel)] at reads
    exact (reads :)
  · have run := exec_readTicket tag ordinal s
    refine ⟨fun zero => reads_of_refused .badArgument run takes (if_pos zero), fun number unknown => ?_,
      fun u number known => ?_⟩
    · have unknown : s.begin.ticket ordinal = none := by
        rw [State.ticket, List.find?_eq_none]
        simpa using unknown
      exact reads_of_refused .notFound run takes (ownerReadTicket_unknown number unknown)
    · have reads : Reads (.readTicket tag ordinal) s 0 tag u.details :=
        (reads_of_owner run takes (ownerReadTicket_known (s := s.begin) number known) :)
      obtain ⟨t, next, answers, unchanged⟩ := reads
      obtain rfl : u.ordinal = ordinal := by simpa using List.find?_some known
      refine ⟨t, next, unchanged, u.details, rfl, answers, rfl, rfl, rfl, rfl, ?_, rfl, rfl, fun none => ?_,
        fun d g some page reason => ?_, fun d some page => ?_, fun d some => ?_⟩
      · simp only [Ticket.details, deltaWord]
        rfl
      · simp only [Ticket.details, none, map_toList]
        exact ⟨rfl, rfl, rfl⟩
      · simp only [Ticket.details, some, Option.bind_some, page, reason]
        exact ⟨rfl, rfl⟩
      · simp only [Ticket.details, some, Option.bind_some, page]
        exact ⟨rfl, rfl⟩
      · simp only [Ticket.details, some, map_toList, pack_tags]
        rfl

/-! ## SET PATH and READ PATH (R103 to R105) -/

theorem storeItems_getElem (ws : List Word) (p : Vector Nat 19) (first : Nat) (k : Fin 19) :
    (storeItems first ws p)[k] =
      if first ≤ k.val ∧ k.val < first + ws.length then (ws.getD (k.val - first) 0).toNat else p[k] := by
  induction ws generalizing first p with
  | nil => exact (if_neg (by simp only [List.length_nil]; omega)).symm
  | cons w ws ih =>
    rw [storeItems, ih, getElem_setIfInBounds_of_le]
    exact written_cons BitVec.toNat w ws 0 p[k]

theorem inRanges_iff (ws : List Word) (first : Nat) : inRanges first ws = true ↔ ∀ k, k < ws.length →
    (itemRange (first + k)).1 ≤ (ws.getD k 0).toNat ∧ (ws.getD k 0).toNat ≤ (itemRange (first + k)).2 := by
  induction ws generalizing first with
  | nil => simp [inRanges]
  | cons w ws ih =>
    simp only [inRanges, Bool.and_eq_true, decide_eq_true_eq, ih, List.length_cons]
    constructor
    · rintro ⟨head, tail⟩ k lt
      cases k with
      | zero => exact head
      | succ k =>
        have at_k := tail k (Nat.lt_of_succ_lt_succ lt)
        rwa [Nat.add_right_comm] at at_k
    · intro each
      refine ⟨each 0 (Nat.succ_pos _), fun k lt => ?_⟩
      have at_k := each (k + 1) (Nat.succ_lt_succ lt)
      rwa [← Nat.add_assoc, Nat.add_right_comm] at at_k

theorem exec_setPath (tag : Tag) (first : Word) (values : List Word) (s : State) :
    exec (.setPath tag first values) s = request (largestReply 0x42) tag (ownerSetPath first values) s := rfl

/-- Settles O38. -/
theorem setPathStores : Obligations.SetPathStores := by
  unfold Obligations.SetPathStores
  intro s tag first values after some few takes each inside ranged
  have run := exec_setPath tag first values s
  have stored : storeItems first.toNat values s.begin.tracker.profile = after :=
    Vector.ext fun k lt => (storeItems_getElem values s.tracker.profile first.toNat ⟨k, lt⟩).trans (each ⟨k, lt⟩).symm
  have owner : ownerSetPath first values s.begin = if _ then _ else _ := if_neg (oneToSix_of some few)
  rw [stored] at owner
  refine ⟨fun busy => reads_of_refused .state run takes (owner.trans (if_pos busy)), fun idle wrong => ?_,
    fun idle fits lies valid => ?_⟩
  · by_cases outside : 18 < first.toNat ∨ 19 < first.toNat + values.length
    · exact reads_of_refused .badArgument run takes
        (owner.trans ((if_neg (not_not.mpr idle)).trans (if_pos outside)))
    · have fits : inside := ⟨by omega, by omega⟩
      refine reads_of_refused .badArgument run takes
        (owner.trans ((if_neg (not_not.mpr idle)).trans ((if_neg outside).trans ?_)))
      by_cases lies : ranged
      · have invalid : ¬ validProfile after = true := fun valid => wrong ⟨fits, lies, valid⟩
        rw [(inRanges_iff values first.toNat).mpr lies]
        exact (if_neg (by simp)).trans (if_pos (by simp [invalid]))
      · exact if_pos (by rw [Bool.not_eq_true', ← Bool.not_eq_true, inRanges_iff]; exact lies)
  · refine after_of_owner run takes (owner.trans ((if_neg (not_not.mpr idle)).trans ((if_neg (by omega)).trans ?_)))
      (t := { s.begin with tracker.profile := after }) (r := okWith [packOne 5 (first.toNat + values.length)])
      ⟨answers_of_port rfl tag _, rfl, by simp [Unchanged]⟩
    rw [(inRanges_iff values first.toNat).mpr lies, valid]
    rfl

theorem filter_range' (first n bound : Nat) :
    (List.range' first n).filter (fun k => decide (k < bound)) = List.range' first (min n (bound - first)) := by
  induction n generalizing first with
  | zero => simp
  | succ n ih =>
    rw [List.range'_succ, List.filter_cons, ih]
    by_cases below : first < bound
    · rw [if_pos (decide_eq_true below), ← List.range'_succ]
      congr 1
      omega
    · rw [if_neg (by simp [below])]
      simp [show bound - first = 0 by omega, show bound - (first + 1) = 0 by omega]

theorem exec_readPath (tag : Tag) (first : Word) (s : State) :
    exec (.readPath tag first) s = request (largestReply 0x43) tag (ownerReadPath first) s := rfl

/-- Settles O39. -/
theorem readPathAnswers : Obligations.ReadPathAnswers := by
  unfold Obligations.ReadPathAnswers
  intro s tag first takes
  have run := exec_readPath tag first s
  refine ⟨fun beyond => reads_of_refused .badArgument run takes (if_pos beyond), fun inside =>
    ⟨_, ?_, (reads_of_owner run takes (show ownerReadPath first s.begin = _ from if_neg (Nat.not_lt.mpr inside)) :),
      ?_⟩⟩
  · simp [okWith, filter_range']
  · intro k lt room
    have below : k < min 6 (19 - first.toNat) := by
      simpa [okWith, filter_range'] using room
    have item : s.begin.tracker.profile[first.toNat + k]? = some s.tracker.profile[first.toNat + k] :=
      Vector.getElem?_eq_getElem lt
    rw [okWith, filter_range', List.getElem?_map, List.getElem?_range' below, Nat.one_mul]
    exact congrArg (fun x => some (packOne (itemWidth (first.toNat + k)) (x.getD 0))) item

end Sys2Proof.Proofs

/-! PROOFS. Validation of the term list and CHECK TERMS (R93 to R98). -/

namespace Sys2Proof.Proofs

open Sys2Proof.Machine Sys2Proof.Safety Sys2Proof.Claims Sys2Proof.Laws Sys2Proof.Laws.Batches

/-! ## The counts of the statement -/

theorem needs_eq (k : TermKind) : k.needs = valuesNeeded k := by
  cases k <;> rfl

theorem depthAfter_eq {k : TermKind} {depth : Nat} (enough : valuesNeeded k ≤ depth) :
    (k.depthAfter depth : Int) = depth + netChange k := by
  rw [← needs_eq] at enough
  cases k <;> simp only [TermKind.needs] at enough <;> simp [TermKind.depthAfter, netChange] <;> omega

theorem isPulse_iff (k : TermKind) : k.isPulse = true ↔ k = .pulseRise ∨ k = .pulseFall := by
  simp [TermKind.isPulse]

theorem gates_eq (v : Walk) : v.gates = gatesOpen v := by
  have same : Region.isGate = fun r => decide (r = .gate) := by
    funext r
    cases r <;> rfl
  rw [Walk.gates, same, gatesOpen]

theorem skipOpen_iff (v : Walk) (n : Nat) : v.regions.any (Region.isSkip n) = true ↔ SkipOpen v n := by
  rw [List.any_eq_true]
  constructor
  · rintro ⟨_ | ⟨m, d⟩, mem, isSkip⟩
    · cases isSkip
    · obtain rfl : m = n := of_decide_eq_true isSkip
      exact ⟨d, mem⟩
  · rintro ⟨d, mem⟩
    exact ⟨_, mem, decide_eq_true rfl⟩

theorem someSkip_iff (v : Walk) : v.regions.any (fun r => !r.isGate) = true ↔ ∃ n, SkipOpen v n := by
  rw [List.any_eq_true]
  constructor
  · rintro ⟨_ | ⟨n, d⟩, mem, notGate⟩
    · cases notGate
    · exact ⟨n, d, mem⟩
  · rintro ⟨n, d, mem⟩
    exact ⟨_, mem, rfl⟩

/-! ## The checks at one place (R94, R95) -/

section Place

variable {v : Walk} {w : Word} {k : TermKind} {n : Nat}

theorem place_of_no_kind (none : termKind w = none) : v.place w = .error .kind := by
  rw [Walk.place, none]

theorem place_of_operand (kind : termKind w = some k)
    (outside : termOperand w < k.range.1 ∨ k.range.2 < termOperand w) : v.place w = .error .operand := by
  rw [Walk.place, kind]
  exact if_pos outside

theorem place_of_reused (kind : termKind w = some k)
    (inside : ¬ (termOperand w < k.range.1 ∨ k.range.2 < termOperand w)) (pulse : k = .pulseRise ∨ k = .pulseFall)
    (named : termOperand w ∈ v.pulses) : v.place w = .error .pulseReused := by
  rw [Walk.place, kind]
  exact (if_neg inside).trans (if_pos ⟨(isPulse_iff k).mpr pulse, named⟩)

/-- What is left to check at a sound term. -/
theorem place_of_sound (sound : Sound v w k n) : v.place w =
    if v.depth < valuesNeeded k then .error .underflow
    else if 8 < k.depthAfter v.depth then .error .overflow
    else if k = .endList then v.endCheck
    else Walk.region k n (walked v k n (k.depthAfter v.depth)) := by
  obtain ⟨kind, rfl, low, high, fresh⟩ := sound
  rw [← isPulse_iff] at fresh
  rw [Walk.place, kind, ← needs_eq, walked]
  simp only [← isPulse_iff]
  exact (if_neg (by omega)).trans (if_neg fresh)

/-- A term that fits goes on to the checks of its region. -/
theorem place_of_fits {depth : Nat} (fits : Fits v w k n depth) (more : k ≠ .endList) :
    v.place w = Walk.region k n (walked v k n depth) := by
  obtain ⟨sound, enough, change, room⟩ := fits
  have after := depthAfter_eq enough
  obtain rfl : depth = k.depthAfter v.depth := by omega
  rw [place_of_sound sound, if_neg (by omega), if_neg (by omega), if_neg more]

theorem region_of_other (v : Walk) (n : Nat) (other : k ∉ [.gate, .gateEnd, .skip, .skipEnd, .endList]) :
    Walk.region k n v = .ok v := by
  cases k
  case gate | gateEnd | skip | skipEnd => simp at other
  all_goals rfl

end Place

theorem termChecked (v : Walk) (w : Word) : TermChecked v w := by
  refine ⟨place_of_no_kind, fun k kind outside => place_of_operand kind outside,
    fun k pulse kind low named => place_of_reused kind ?_ pulse named, fun k n sound few => ?_,
    fun k n sound enough above => ?_, fun k n depth fits other => ?_⟩
  · rcases pulse with rfl | rfl <;> simp only [TermKind.range] <;> omega
  · rw [place_of_sound sound, if_pos few]
  · have after := depthAfter_eq enough
    rw [place_of_sound sound, if_neg (by omega), if_pos (by omega)]
  · rw [place_of_fits fits fun isEnd => other (by simp [isEnd]), region_of_other _ _ other]

/-! ## Regions (R96, R97) -/

theorem gatesOpen_cons_gate (rest : List Region) (v : Walk) (h : v.regions = .gate :: rest) : gatesOpen v ≠ 0 := by
  simp [gatesOpen, h]

theorem regionChecked (v : Walk) (w : Word) : RegionChecked v w := by
  refine ⟨fun n depth fits => ?_, fun n depth fits => ?_, fun n depth fits => ?_, fun n depth fits => ?_⟩
  all_goals rw [place_of_fits fits (by decide), Walk.region]
  · rw [gates_eq, show gatesOpen (walked v .gate n depth) = gatesOpen v from rfl]
    exact ⟨fun most => if_pos most, fun few => if_neg (by omega)⟩
  · rw [gates_eq, show gatesOpen (walked v .gateEnd n depth) = gatesOpen v from rfl]
    refine ⟨fun none => if_pos none, fun m d rest some inner => ?_, fun rest inner => ?_⟩
    · have inner : (walked v .gateEnd n depth).regions = .skip m d :: rest := inner
      rw [if_neg some, inner]
    · rw [if_neg (gatesOpen_cons_gate rest v inner)]
      have inner : (walked v .gateEnd n depth).regions = .gate :: rest := inner
      rw [inner]
  · have opens := skipOpen_iff (walked v .skip n depth) 0
    exact ⟨fun number used => if_pos ⟨number, used⟩,
      fun zero opened => (if_neg fun h => h.1 zero).trans (if_pos ⟨zero, opens.mpr opened⟩),
      fun fresh shut => (if_neg fresh).trans (if_neg fun h => shut ⟨h.1, opens.mp h.2⟩)⟩
  · have passes (opened : SkipOpen v n) : ¬ (!(walked v .skipEnd n depth).regions.any (Region.isSkip n)) = true := by
      rw [Bool.not_eq_true', Bool.not_eq_false]
      exact (skipOpen_iff (walked v .skipEnd n depth) n).mpr opened
    refine ⟨fun shut => if_pos ?_, fun rest opened inner => (if_neg (passes opened)).trans ?_,
      fun m d rest opened inner differs => (if_neg (passes opened)).trans ?_,
      fun d rest inner differs => (if_neg (passes ⟨d, inner ▸ List.mem_cons_self⟩)).trans ?_,
      fun rest inner => (if_neg (passes ⟨depth, inner ▸ List.mem_cons_self⟩)).trans ?_⟩
    · rw [Bool.not_eq_true', ← Bool.not_eq_true]
      exact fun opened => shut ((skipOpen_iff (walked v .skipEnd n depth) n).mp opened)
    all_goals rw [show (walked v .skipEnd n depth).regions = v.regions from rfl, inner]
    · exact if_pos differs
    · exact (if_neg (not_not.mpr rfl)).trans (if_pos differs)
    · exact (if_neg (not_not.mpr rfl)).trans (if_neg (not_not.mpr rfl))

/-! ## The end checks and the walk (R93) -/

theorem endChecked (v : Walk) : EndChecked v := by
  refine ⟨fun w sound room => ?_, fun opened => ?_, fun shut gates => ?_, fun none depth => ?_, fun none depth => ?_⟩
  · rw [place_of_sound sound, if_neg (by simp [valuesNeeded]), if_neg (by simpa [TermKind.depthAfter] using room),
      if_pos rfl]
  · exact if_pos ((someSkip_iff v).mpr opened)
  · rw [Walk.endCheck, if_neg (by rw [someSkip_iff]; exact fun ⟨n, opened⟩ => shut n opened), gates_eq, if_pos gates]
  · rw [Walk.endCheck, Walk.gates, none]
    exact if_pos depth
  · rw [Walk.endCheck, Walk.gates, none]
    exact if_neg (not_not.mpr depth)

theorem walkGoesOn : WalkGoesOn := by
  refine ⟨fun _ => rfl, fun i w rest v => ⟨fun reason fails => ?_, fun u passes isEnd => ?_, fun u passes more => ?_⟩,
    fun i v => ⟨fun reason fails => ?_, fun passes => ?_⟩⟩
  · rw [validateFrom, fails]
  · rw [validateFrom, passes]
    exact if_pos isEnd
  · rw [validateFrom, passes]
    exact if_neg more
  · rw [validateFrom, fails]
  · rw [validateFrom, passes]

/-! ## CHECK TERMS (R98) -/

theorem exec_checkTerms (tag : Tag) (s : State) :
    exec (.checkTerms tag) s = request (largestReply 0x32) tag ownerCheckTerms s := rfl

theorem checkTerms_of_valid {s : State} {tag : Tag} (takes : Takes 3 s) {places : Nat} {walk : Walk}
    (valid : s.evaluator.validate = .valid places walk) : Reads (.checkTerms tag) s 0 tag
      [pack [(7, places)], pack [(4, walk.maxDepth), (3, walk.maxGates)]] := by
  have valid : s.begin.evaluator.validate = .valid places walk := valid
  exact (reads_of_owner (exec_checkTerms tag s) takes (by rw [ownerCheckTerms, valid]) :)

theorem checkTerms_of_invalid {s : State} {tag : Tag} (takes : Takes 3 s) {place : Nat} {reason : TermFault}
    (invalid : s.evaluator.validate = .invalid place reason) : Reads (.checkTerms tag) s 14 tag
      [pack [(6, place)], pack [(4, reason.number)]] := by
  have invalid : s.begin.evaluator.validate = .invalid place reason := invalid
  exact (reads_of_owner (exec_checkTerms tag s) takes (by rw [ownerCheckTerms, invalid]) :)

theorem terms_cons (e : Evaluator) : ∃ rest, e.terms.toList = e.terms[0] :: rest := by
  obtain ⟨⟨l⟩, size⟩ := e.terms
  cases l with
  | nil => simp at size
  | cons w rest => exact ⟨rest, rfl⟩

theorem validate_first_end {e : Evaluator} (zero : e.terms[0] = 0) : e.validate = .valid 1 {} := by
  obtain ⟨rest, first⟩ := terms_cons e
  rw [Evaluator.validate, first, zero]
  rfl

theorem validate_first_error {e : Evaluator} {reason : TermFault}
    (fails : Walk.place e.terms[0] {} = .error reason) : e.validate = .invalid 0 reason := by
  obtain ⟨rest, first⟩ := terms_cons e
  obtain ⟨-, step, -⟩ := walkGoesOn
  rw [Evaluator.validate, first]
  exact (step 0 e.terms[0] rest {}).1 reason fails

theorem termKind_of_above {w : Word} (above : 0x1A ≤ (w.extractLsb' 8 8).toNat) : termKind w = none := by
  rw [termKind]
  split
  case h_27 => rfl
  all_goals omega

/-- Settles O35. -/
theorem checkTermsValidates : Obligations.CheckTermsValidates := by
  unfold Obligations.CheckTermsValidates
  refine ⟨fun s tag takes => ⟨?_, fun zero => ?_, fun above => ?_, fun k kind outside => ?_⟩, walkGoesOn,
    fun v w => ⟨termChecked v w, regionChecked v w⟩, endChecked⟩
  · cases outcome : s.evaluator.validate with
    | valid places walk => exact checkTerms_of_valid takes outcome
    | invalid place reason =>
      have reads := checkTerms_of_invalid (tag := tag) takes outcome
      cases reason <;> exact reads
  · exact checkTerms_of_valid takes (validate_first_end zero)
  · exact (checkTerms_of_invalid takes (validate_first_error (place_of_no_kind (termKind_of_above above))) :)
  · exact (checkTerms_of_invalid takes (validate_first_error (place_of_operand kind outside)) :)

end Sys2Proof.Proofs

/-! PROOFS. The effects of the terms, the signals they read and the order they run in (R78 to R89). -/

namespace Sys2Proof.Proofs

open Sys2Proof.Machine Sys2Proof.Safety Sys2Proof.Claims Sys2Proof.Laws Sys2Proof.Laws.Batches

/-! ## Stored bits -/

theorem getBit_of_lt {n : Nat} (v : Vector Bool 8) (h : n < 8) : getBit v n = v[n] := by
  rw [getBit, Vector.getElem?_eq_getElem h]
  rfl

theorem setBit_of_lt {n : Nat} (v : Vector Bool 8) (b : Bool) (h : n < 8) : setBit v n b = v.set n b h := by
  refine Vector.ext fun i lt => ?_
  rw [setBit, Vector.getElem_setIfInBounds, Vector.getElem_set]

/-! ## Each kind of term (R81 to R89) -/

theorem pushingTerms (sampled : List Bool) (e : Evaluator) : PushingTerms sampled e := by
  refine ⟨fun n => ⟨rfl, rfl⟩, fun n h => ?_, rfl, fun n => rfl⟩
  rw [Evaluator.runTerm, getBit_of_lt e.marks h]
  rfl

section Popping

variable (sampled : List Bool) {e : Evaluator} {a : Bool} {rest : List Bool} (stack : e.stack = a :: rest)

include stack

theorem top_eq : e.top = a := by
  rw [Evaluator.top, stack]
  rfl

theorem pop_eq : e.pop = { e with stack := rest } := by
  rw [Evaluator.pop, stack]
  rfl

theorem actsNow_eq : e.actsNow = (a && e.gates.headD true) := by
  rw [Evaluator.actsNow, top_eq stack, Evaluator.gated]

theorem stackTerms : StackTerms sampled e a rest := by
  have top := top_eq stack
  have pop := pop_eq stack
  refine ⟨fun n => ?_, fun n h => by rw [Evaluator.runTerm, top, setBit_of_lt e.marks a h], ?_⟩
  · simp only [Evaluator.runTerm, top, pop]
    exact ⟨rfl, rfl, rfl, rfl⟩
  · rw [Evaluator.runTerm, top, pop]
    rfl

theorem outcomeTerms : OutcomeTerms sampled e (a && e.gates.headD true) rest := by
  have pop := pop_eq stack
  rw [← actsNow_eq stack]
  refine ⟨fun k => ?_, ?_, fun n => ?_, ?_, ?_⟩
  · have tray : trayOf (word (k.val + 1)) = some k :=
      trayOf_of_number (by simp [word, Nat.mod_eq_of_lt (show k.val + 1 < 65536 by omega)])
    rw [Evaluator.runTerm, tray, pop]
    cases e.actsNow <;> rfl
  · rw [Evaluator.runTerm, pop]
    cases e.actsNow <;> rfl
  · rw [Evaluator.runTerm, pop]
    cases e.actsNow <;> rfl
  · rw [Evaluator.runTerm, pop]
    cases e.actsNow <;> simp
  · rw [Evaluator.runTerm, pop]
    cases e.actsNow <;> simp

/-- A pulse term, its input being the popped value while gated. -/
theorem pulse_eq (rise : Bool) {n : Nat} (h : n < 8) : e.pulse rise n = { e with
    stack := rest
    pulses := e.pulses.set n (if rise then e.actsNow && !e.memories[n] else !e.actsNow && e.memories[n]) h
    memories := e.memories.set n e.actsNow h } := by
  rw [Evaluator.pulse, ← Evaluator.actsNow, pop_eq stack]
  simp only [getBit_of_lt e.memories h, setBit_of_lt _ _ h]

theorem storedTerms (n : Nat) (h : n < 8) : StoredTerms sampled e (a && e.gates.headD true) rest n h := by
  have pop := pop_eq stack
  rw [← actsNow_eq stack]
  refine ⟨?_, ?_, pulse_eq stack true h, pulse_eq stack false h, fun few => ⟨_, ?_, rfl⟩⟩
  · rw [Evaluator.runTerm, pop, setBit_of_lt e.latches true h]
    cases e.actsNow <;> rfl
  · rw [Evaluator.runTerm, pop, setBit_of_lt e.latches false h]
    cases e.actsNow <;> rfl
  · rw [Evaluator.runTerm, ← Evaluator.actsNow, pop]
    match n, few with
    | 0, _ | 1, _ | 2, _ | 3, _ => rfl

theorem pairTerms {b : Bool} {rest' : List Bool} (below : rest = b :: rest') :
    PairTerms sampled e a b rest' := by
  subst below
  have top := top_eq stack
  have pop := pop_eq stack
  refine ⟨?_, ?_, fun n h => ?_⟩
  · rw [Evaluator.runTerm, top, pop]
    rfl
  · rw [Evaluator.runTerm, top, pop]
    rfl
  · rw [Evaluator.runTerm, Evaluator.keepLatch, top, pop, setBit_of_lt e.latches true h,
      setBit_of_lt e.latches false h, Evaluator.gated]
    simp only [Bool.not_eq_true']
    rfl

end Popping

/-! ## The signals (R52, R78, R79) -/

theorem signalsRead (sampled : List Bool) (e : Evaluator) : SignalsRead sampled e := by
  refine ⟨fun n h => ⟨?_, ?_⟩, rfl, rfl, rfl, rfl, fun n other => ?_⟩
  · rw [Evaluator.signal, if_pos (by omega), Nat.add_sub_cancel_left, getBit_of_lt e.latches h]
  · rw [Evaluator.signal, if_neg (by omega), if_pos (by omega), Nat.add_sub_cancel_left, getBit_of_lt e.pulses h]
  · rw [Evaluator.signal, if_neg (by omega), if_neg (by omega), if_neg (by omega), List.getD_eq_getElem?_getD]

theorem sampledSignals_getElem? (s : State) (u : Ticket) {n : Nat} (h : n < 48) :
    (s.sampledSignals u)[n]? = some (s.sampledSignal u n) := by
  rw [State.sampledSignals, List.getElem?_map, List.getElem?_range h]
  rfl

/-- A signal reads what its number's function reads. -/
theorem signal_of {s : State} {u : Ticket} {n : Nat} {value : Prop} (h : n < 48)
    (reads : s.sampledSignal u n = true ↔ value) :
    ∃ b, (s.sampledSignals u)[n]? = some b ∧ (b = true ↔ value) :=
  ⟨_, sampledSignals_getElem? s u h, reads⟩

theorem matterHeld_iff (s : State) (u : Ticket) : s.sampledSignal u 47 = true ↔ MatterHeld s := by
  change (match s.findMatter s.batch.matter with
    | some e => decide (0 < (s.matterAt e.place).holdCount)
    | none => false) = true ↔ _
  rw [MatterHeld]
  cases known : s.findMatter s.batch.matter with
  | none => simp [InDirectory, known]
  | some e =>
    have same : e.matter = s.batch.matter := by simpa using List.find?_some known
    refine decide_eq_true_iff.trans ⟨fun held => ⟨e.place, ⟨e.pinned, known.trans (by rw [← same])⟩, held⟩, ?_⟩
    rintro ⟨place, ⟨pinned, found⟩, held⟩
    rw [known] at found
    obtain rfl := Option.some.inj found
    exact held

theorem pages_iff (s : State) (u : Ticket) : s.sampledSignal u 46 = true ↔
    ∃ d, s.assembler.openDocument = some d ∧ 240 ≤ (s.slot (d.folio.toNat / 16)).pageCount := by
  change (match s.assembler.openDocument with
    | some d => decide (240 ≤ (s.slot (slotOf d.folio)).pageCount)
    | none => false) = true ↔ _
  cases s.assembler.openDocument with
  | none => simp
  | some d => exact decide_eq_true_iff.trans (by simp [slotOf])

theorem signalsSampled (s : State) (u : Ticket) : SignalsSampled s u := by
  refine ⟨by simp [State.sampledSignals], signal_of (by decide) (by simp [State.sampledSignal]),
    signal_of (by decide) .rfl, signal_of (by decide) .rfl, signal_of (by decide) .rfl, signal_of (by decide) .rfl,
    signal_of (by decide) .rfl, signal_of (by decide) .rfl, signal_of (by decide) (Bool.and_eq_true _ _ ▸ .rfl),
    signal_of (by decide) .rfl, signal_of (by decide) Option.isNone_iff_eq_none, signal_of (by decide) .rfl,
    signal_of (by decide) .rfl, fun k few => signal_of (by omega) ?_, fun k => signal_of (by omega) ?_,
    fun k => signal_of (by omega) ?_, signal_of (by decide) .rfl, signal_of (by decide) .rfl,
    signal_of (by decide) (pages_iff s u), signal_of (by decide) (matterHeld_iff s u)⟩
  · match k, few with
    | 0, _ | 1, _ | 2, _ | 3, _ => exact .rfl
  · have eligible (m : Tray) : m.eligible = true ↔ m.mounted = true ∧ m.fill + m.committed < m.soft := by
      rw [Tray.eligible, Bool.and_eq_true, decide_eq_true_iff, Tray.sum]
    match k with
    | 0 | 1 | 2 | 3 => exact eligible _
  · match k with
    | 0 | 1 | 2 | 3 => exact .rfl

/-! ## The order of the terms (R80, R84) -/

/-- A skip passes over the terms before its SKIP END. -/
theorem run_skipping (sampled : List Bool) (e : Evaluator) {before after : List Word} {x : Word} {n : Nat}
    (isEnd : termKind x = some .skipEnd) (same : termOperand x = n)
    (inside : ∀ y ∈ before, ¬ (termKind y = some .skipEnd ∧ termOperand y = n)) :
    Evaluator.run sampled (before ++ x :: after) (some n) e = Evaluator.run sampled after none e := by
  induction before with
  | nil => exact if_pos ⟨isEnd, same⟩
  | cons y before ih =>
    have passed : Evaluator.run sampled (y :: before ++ x :: after) (some n) e =
        Evaluator.run sampled (before ++ x :: after) (some n) e := if_neg (inside y List.mem_cons_self)
    exact passed.trans (ih fun z mem => inside z (List.mem_cons_of_mem y mem))

theorem run_skip (sampled : List Bool) {e : Evaluator} {w : Word} (places : List Word) {a : Bool} {rest : List Bool}
    (kind : termKind w = some .skip) (stack : e.stack = a :: rest) : Evaluator.run sampled (w :: places) none e =
      Evaluator.run sampled places (if a then none else some (termOperand w)) { e with stack := rest } := by
  rw [Evaluator.run, kind, top_eq stack, pop_eq stack]

theorem termOrder (sampled : List Bool) (e : Evaluator) (w : Word) (places : List Word) :
    TermOrder sampled e w places := by
  refine ⟨rfl, fun kind => ?_, fun k kind notEnd notSkip => ?_, fun rest kind stack => run_skip _ _ kind stack,
    fun rest before x after kind stack order isEnd same inside => ?_⟩
  · rw [Evaluator.run, kind]
  · rw [Evaluator.run, kind]
    cases k with
    | endList => exact absurd rfl notEnd
    | skip => exact absurd rfl notSkip
    | _ => rfl
  · rw [run_skip _ _ kind stack, order]
    exact run_skipping sampled _ isEnd same inside

/-- Settles O36. -/
theorem termEffects : Obligations.TermEffects := by
  unfold Obligations.TermEffects
  refine ⟨fun sampled e => ⟨pushingTerms sampled e, signalsRead sampled e, termOrder sampled e,
    fun a rest stack => ?_⟩, fun s u => ⟨signalsSampled s u, rfl⟩⟩
  exact ⟨stackTerms sampled stack, outcomeTerms sampled stack, storedTerms sampled stack,
    fun _ _ below => pairTerms sampled stack below⟩

end Sys2Proof.Proofs

/-! PROOFS. The skew requests (R135, R136), the arbiter's mode and masks (R147 to R149) and READ CHANNELS (R152). -/

namespace Sys2Proof.Proofs

open Sys2Proof.Machine Sys2Proof.Safety Sys2Proof.Claims Sys2Proof.Laws Sys2Proof.Laws.Batches
  Sys2Proof.Laws.Bands

/-! ## SET SKEW and READ SKEW (R135, R136) -/

theorem exec_setSkew (tag : Tag) (limit threshold : Word) (s : State) :
    exec (.setSkew tag limit threshold) s = request (largestReply 0x45) tag (ownerSetSkew limit threshold) s := rfl

theorem exec_readSkew (tag : Tag) (s : State) :
    exec (.readSkew tag) s = request (largestReply 0x46) tag ownerReadSkew s := rfl

theorem isEmpty_not {α : Type} [DecidableEq α] (l : List α) : (!l.isEmpty) = decide (l ≠ []) := by
  cases l <;> simp

theorem side_report (e : DeskewSide) : e.report =
    [pack [(2, match e.state with
        | .idle => 0 | .taking => 1 | .flushing => 2 | .discarding => 3), (1, bit (decide (e.waiting ≠ [])))],
      if e.state = .idle then 0 else e.ordinal, if e.state = .idle then 0 else word e.outputs,
      pack [(3, e.bands)], word e.lastCount] := by
  rw [DeskewSide.report, isEmpty_not]
  cases e.state <;> rfl

/-- Settles O41. -/
theorem skewRequests : Obligations.SkewRequests := by
  unfold Obligations.SkewRequests
  refine ⟨fun s tag limit threshold takes => ?_, fun s tag takes => ?_⟩
  · have run := exec_setSkew tag limit threshold s
    refine ⟨fun busy => reads_of_refused .state run takes (if_pos busy),
      fun idle above => reads_of_refused .badArgument run takes ((if_neg (not_not.mpr idle)).trans (if_pos above)),
      fun idle inside => after_of_owner run takes
        ((if_neg (not_not.mpr idle)).trans (if_neg (Nat.not_lt.mpr inside))) ?_⟩
    exact ⟨answers_of_port rfl tag _, rfl, by simp [Unchanged]⟩
  · have reads : Reads (.readSkew tag) s 0 tag ([pack [(9, s.engine.skewLimit)], word s.engine.blankThreshold] ++
        s.engine.front.report ++ s.engine.back.report) := (reads_of_owner (exec_readSkew tag s) takes rfl :)
    obtain ⟨t, next, answers, unchanged⟩ := reads
    refine ⟨t, next, unchanged, _, rfl, answers, rfl, rfl, fun d k front back => ?_⟩
    cases d with
    | front =>
      obtain rfl := front rfl
      rw [side_report]
      exact ⟨rfl, rfl, rfl, rfl, rfl⟩
    | back =>
      obtain rfl := back rfl
      rw [side_report s.engine.back]
      exact ⟨rfl, rfl, rfl, rfl, rfl⟩

/-! ## SET ARBITER and MASK CHANNEL (R147 to R149) -/

theorem exec_setArbiter (tag : Tag) (mode : Word) (s : State) :
    exec (.setArbiter tag mode) s = request (largestReply 0x50) tag (ownerSetArbiter mode) s := rfl

theorem exec_maskChannel (tag : Tag) (channel mask : Word) (s : State) :
    exec (.maskChannel tag channel mask) s = request (largestReply 0x51) tag (ownerMaskChannel channel mask) s := rfl

theorem mode_number (m : ArbiterMode) : m.number = match m with | .fixed => 0 | .rotating => 1 := by
  cases m <;> rfl

theorem ownerSetArbiter_of_above {mode : Word} (above : 1 < mode.toNat) {s : State} (idle : s.batch.state = .idle) :
    ownerSetArbiter mode s = refused .badArgument s := by
  rw [ownerSetArbiter, if_neg (not_not.mpr idle), flagOf_of_above above]

theorem ownerSetArbiter_of_bit {mode : Word} (isBit : mode.toNat ≤ 1) {s : State} (idle : s.batch.state = .idle) :
    ownerSetArbiter mode s =
      ({ s with
          images.mode := if mode = 1 then .rotating else .fixed
          images.order := [.captureFront, .captureBack, .audit, .exporter] },
        okWith [packOne 1 s.images.mode.number]) := by
  rw [ownerSetArbiter, if_neg (not_not.mpr idle), flagOf_of_bit isBit]
  simp only [decide_eq_true_eq, startingOrder]

theorem setArbiter_answers (s : State) (tag : Tag) (mode : Word) (takes : Takes 2 s) :
    (s.batch.state ≠ .idle → Reads (.setArbiter tag mode) s 8 tag []) ∧
    (s.batch.state = .idle → 1 < mode.toNat → Reads (.setArbiter tag mode) s 18 tag []) ∧
    (s.batch.state = .idle → mode.toNat ≤ 1 → After (.setArbiter tag mode) s fun t =>
      Answers s t 0 tag [pack [(1, match s.images.mode with | .fixed => 0 | .rotating => 1)]] ∧
      t.images = { s.images with
        mode := if mode = 1 then .rotating else .fixed
        order := [.captureFront, .captureBack, .audit, .exporter] } ∧
      Unchanged [.port, .images] s t) := by
  have run := exec_setArbiter tag mode s
  refine ⟨fun busy => reads_of_refused .state run takes (if_pos busy),
    fun idle above => reads_of_refused .badArgument run takes (ownerSetArbiter_of_above above (s := s.begin) idle),
    fun idle isBit => after_of_owner run takes (ownerSetArbiter_of_bit isBit (s := s.begin) idle) ?_⟩
  rw [← mode_number]
  exact ⟨answers_of_port rfl tag _, rfl, by simp [Unchanged]⟩

/-- The arbiter grants a request that alone is pending. -/
theorem arbitrate_alone {u : State} {c : Channel} (free : u.images.transfer = none) (eligible : u.eligibleChannel c = true)
    (alone : ∀ d, d ≠ c → u.asks d = false) (mem : c ∈ u.images.order) : u.arbitrate = u.grant c := by
  rw [State.arbitrate, free]
  dsimp only
  rw [find_only u c eligible alone _ mem]

theorem transferOf_channel (u : State) (c : Channel) : (u.transferOf c).channel = c := by
  unfold State.transferOf
  cases c <;> dsimp only <;> split <;> rfl

/-- The arbiter's work touches image memory only. -/
theorem unchanged_arbitrate {but : List Part} {s u : State} (images : .images ∈ but) (same : Unchanged but s u) :
    Unchanged but s u.arbitrate := by
  refine unchanged_trans same (unchanged_mono (but := [.images]) (by simp [images]) ?_)
  rw [arb_rest u]
  simp [Unchanged]

theorem unchanged_answer {but : List Part} {s u : State} (port : .port ∈ but) (same : Unchanged but s u) (tag : Tag)
    (reply : Reply) : Unchanged but s (u.answer tag reply) :=
  unchanged_trans same (unchanged_mono (but := [.port]) (by simp [port]) (by simp [Unchanged]))

section Mask

variable {channel mask : Word} {s : State}

theorem ownerMaskChannel_of_bad (bad : (channel ≠ 2 ∧ channel ≠ 3) ∨ 1 < mask.toNat) :
    ownerMaskChannel channel mask s = refused .badArgument s := by
  by_cases above : 1 < mask.toNat
  · rw [ownerMaskChannel, flagOf_of_above above]
  · obtain ⟨notAudit, notExport⟩ := bad.resolve_right above
    rw [ownerMaskChannel, flagOf_of_bit (Nat.not_lt.mp above)]
    exact (if_neg notAudit).trans (if_neg notExport)

theorem ownerMaskChannel_audit (isBit : mask.toNat ≤ 1) : ownerMaskChannel 2 mask s =
    (State.arbitrate { s with images.audit.masked := decide (mask = 1) },
      okWith [packOne 1 (bit s.images.audit.masked)]) := by
  rw [ownerMaskChannel, flagOf_of_bit isBit]
  rfl

theorem ownerMaskChannel_exporter (isBit : mask.toNat ≤ 1) : ownerMaskChannel 3 mask s =
    (State.arbitrate { s with images.exporter.masked := decide (mask = 1) },
      okWith [packOne 1 (bit s.images.exporter.masked)]) := by
  rw [ownerMaskChannel, flagOf_of_bit isBit]
  rfl

end Mask

theorem arbitrate_port (u : State) : u.arbitrate.port = u.port := (congrArg State.port (arb_rest u) :)

theorem arbitrate_audit_masked (u : State) : u.arbitrate.images.audit.masked = u.images.audit.masked := by
  obtain ⟨-, audit, -⟩ := arb_images u
  exact (congrArg AuditChannel.masked audit :)

theorem arbitrate_exporter_masked (u : State) : u.arbitrate.images.exporter.masked = u.images.exporter.masked := by
  obtain ⟨-, -, -, exporter, -⟩ := arb_images u
  exact (congrArg ExportChannel.masked exporter :)

theorem arbitrate_images_busy (u : State) (busy : u.images.transfer ≠ none) : u.arbitrate.images = u.images :=
  congrArg State.images (arb_held busy)

/-- Settles O42. -/
theorem arbiterRequests : Obligations.ArbiterRequests := by
  unfold Obligations.ArbiterRequests
  refine ⟨setArbiter_answers, fun s tag channel mask takes => ?_⟩
  have run := exec_maskChannel tag channel mask s
  refine ⟨fun bad => reads_of_refused .badArgument run takes (ownerMaskChannel_of_bad bad), ?_, ?_⟩
  · rintro rfl isBit
    refine after_of_owner run takes (ownerMaskChannel_audit isBit) ⟨answers_of_port (arbitrate_port _) tag _,
      arbitrate_audit_masked _, arbitrate_exporter_masked _,
      unchanged_answer (by simp) (unchanged_arbitrate (by simp) (by simp [Unchanged])) tag _,
      fun busy => arbitrate_images_busy _ busy, fun free clear asks alone mem => ?_,
      fun free _ => portGiven_of (s := s.begin) rfl rfl free⟩
    have granted := arbitrate_alone (u := { s.begin with images.audit.masked := decide (mask = 1) }) (c := .audit) free
      (by simp [State.eligibleChannel, State.asks, State.maskedChannel, asks, clear])
      (fun d other => by have quiet := alone d other; cases d <;> exact quiet) mem
    rw [granted]
    exact ⟨rfl, _, rfl, transferOf_channel _ _⟩
  · rintro rfl isBit
    refine after_of_owner run takes (ownerMaskChannel_exporter isBit) ⟨answers_of_port (arbitrate_port _) tag _,
      arbitrate_exporter_masked _, arbitrate_audit_masked _,
      unchanged_answer (by simp) (unchanged_arbitrate (by simp) (by simp [Unchanged])) tag _,
      fun busy => arbitrate_images_busy _ busy, fun free clear asks alone mem => ?_,
      fun free _ => portGiven_of (s := s.begin) rfl rfl free⟩
    have granted := arbitrate_alone (u := { s.begin with images.exporter.masked := decide (mask = 1) }) (c := .exporter)
      free (by simp [State.eligibleChannel, State.asks, State.maskedChannel, asks, clear])
      (fun d other => by have quiet := alone d other; cases d <;> exact quiet) mem
    rw [granted]
    exact ⟨rfl, _, rfl, transferOf_channel _ _⟩

/-! ## READ CHANNELS (R152) -/

theorem exec_readChannels (tag : Tag) (s : State) :
    exec (.readChannels tag) s = request (largestReply 0x52) tag ownerReadChannels s := rfl

theorem channelWord_eq (state : Nat) (asks masked : Bool) (current residue : Option Nat) (flag : Bool) (cause : Nat)
    (inHand : Option Word) :
    [channelWord state asks masked current residue flag cause, word (current.getD 0), inHand.getD 0] =
      channelWords state asks masked current residue flag cause inHand := by
  cases current <;> cases residue <;> cases inHand <;> rfl

theorem capture_report (c : CaptureChannel) : c.report = captureWords c := by
  rw [CaptureChannel.report, channelWord_eq, captureWords]
  cases c.state <;> cases c.endCause <;> cases c.side <;> rfl

theorem audit_report (c : AuditChannel) : c.report = readerWords c.state c.masked c.endFlag c.endCause
    (c.run.map fun r => (r.current, r.residue, r.folio)) := by
  rw [AuditChannel.report, channelWord_eq]
  unfold readerWords
  cases c.state <;> cases c.endCause <;> cases c.run <;> rfl

theorem export_report (c : ExportChannel) : c.report = readerWords c.state c.masked c.endFlag c.endCause
    (c.run.map fun r => (r.current, r.residue, r.folio)) := by
  rw [ExportChannel.report, channelWord_eq]
  unfold readerWords
  cases c.state <;> cases c.endCause <;> cases c.run <;> rfl

theorem channel_number : Channel.number = channelNumber := by
  funext c
  cases c <;> rfl

theorem arbiter_word (i : Images) : i.arbiterWord =
    pack ((1, match i.mode with | .fixed => 0 | .rotating => 1) :: (i.order.map (fun c => (2, channelNumber c)) ++
      [(1, bit i.transfer.isSome), (3, match i.transfer with
        | none => 4
        | some g => channelNumber g.channel)])) := by
  rw [Images.arbiterWord, Images.grantedField, mode_number, ← channel_number]
  cases i.transfer <;> rfl

theorem twoWords_ofNat (n : Nat) : twoWords (BitVec.ofNat 32 n) = [word (n / 65536), word n] := by
  have high : (BitVec.ofNat 32 n).extractLsb' 16 16 = word (n / 65536) := by
    apply BitVec.eq_of_toNat_eq
    simp [word, Nat.shiftRight_eq_div_pow]
    omega
  have low : (BitVec.ofNat 32 n).extractLsb' 0 16 = word n := by
    apply BitVec.eq_of_toNat_eq
    simp [word]
  rw [twoWords, Long.high, Long.low, high, low]

theorem answers_congr {s t : State} {code : Nat} {tag : Tag} {words words' : List Word}
    (answers : Answers s t code tag words) (same : words = words') : Answers s t code tag words' :=
  same ▸ answers

theorem images_report (i : Images) : i.report =
    [pack ((1, match i.mode with | .fixed => 0 | .rotating => 1) :: (i.order.map (fun c => (2, channelNumber c)) ++
        [(1, bit i.transfer.isSome), (3, match i.transfer with
          | none => 4
          | some g => channelNumber g.channel)])),
      word (i.free.length / 65536), word i.free.length] ++
    captureWords i.front ++ captureWords i.back ++
    readerWords i.audit.state i.audit.masked i.audit.endFlag i.audit.endCause
      (i.audit.run.map fun r => (r.current, r.residue, r.folio)) ++
    readerWords i.exporter.state i.exporter.masked i.exporter.endFlag i.exporter.endCause
      (i.exporter.run.map fun r => (r.current, r.residue, r.folio)) := by
  rw [Images.report, arbiter_word, twoWords_ofNat, capture_report, capture_report, audit_report, export_report]
  rfl

/-- Settles O43. -/
theorem readChannelsClearsFlags : Obligations.ReadChannelsClearsFlags := by
  unfold Obligations.ReadChannelsClearsFlags
  intro s tag takes
  have answers : Answers s ((ownerReadChannels s.begin).1.answer tag (okWith s.images.report)) 0 tag s.images.report :=
    (answers_of_port rfl tag (okWith s.images.report) :)
  exact after_of_owner (exec_readChannels tag s) takes rfl
    ⟨rfl, by simp [Unchanged], answers_congr answers (images_report s.images)⟩

end Sys2Proof.Proofs

/-! PROOFS. The stream of EXPORT DATA (R158 to R161): what placing its items leaves, the host's reads of EXPORT DATA, OPEN EXPORT
and CANCEL EXPORT. -/

namespace Sys2Proof.Proofs

open Sys2Proof.Machine Sys2Proof.Safety Sys2Proof.Claims Sys2Proof.Laws Sys2Proof.Laws.Batches
  Sys2Proof.Laws.Bands

/-! ## The items of the stream (R159, R160) -/

section Items

variable {r : ExportRun} {s : State} {n : Nat}

theorem placeItems_header (item : r.item = .header) : s.placeItems r (n + 1) =
    if r.header.length ≤ s.exportRoom then (s.placeWords r.header).placeItems { r with item := .plate } n
    else s.setExport .waiting r := by
  rw [State.placeItems, item]

theorem placeItems_plate_done (item : r.item = .plate) (all : r.plateCount ≤ r.taken) :
    s.placeItems r (n + 1) = s.placeItems { r with item := .endWord false } n := by
  rw [State.placeItems, item]
  exact if_pos all

theorem placeItems_plate_broken (item : r.item = .plate) (more : r.taken < r.plateCount)
    (broken : s.nextPlate r.plateHead r.current = none) :
    s.placeItems r (n + 1) = s.placeItems { r with item := .endWord true } n := by
  rw [State.placeItems, item, broken]
  exact if_neg (by omega)

theorem placeItems_plate_taken {p : Nat} (item : r.item = .plate) (more : r.taken < r.plateCount)
    (next : s.nextPlate r.plateHead r.current = some p) :
    s.placeItems r (n + 1) = s.placeItems (r.take s p) n := by
  rw [State.placeItems, item, next]
  exact if_neg (by omega)

theorem placeItems_sideHeader {ws : List Word} (item : r.item = .sideHeader ws) : s.placeItems r (n + 1) =
    if ws.length ≤ s.exportRoom then (s.placeWords ws).placeItems { r with item := .band } n
    else s.setExport .waiting r := by
  rw [State.placeItems, item]

theorem placeItems_band_spent (item : r.item = .band) (spent : r.residue = none) :
    s.placeItems r (n + 1) = s.placeItems { r with item := .plate } n := by
  rw [State.placeItems, item, spent]

theorem placeItems_band {k : Nat} (item : r.item = .band) (residue : r.residue = some k) : s.placeItems r (n + 1) =
    if Config.bandWords ≤ s.exportRoom then (s.setExport .requesting r).arbitrate else s.setExport .waiting r := by
  rw [State.placeItems, item, residue]

theorem placeItems_endWord {short : Bool} (item : r.item = .endWord short) : s.placeItems r (n + 1) =
    if 1 ≤ s.exportRoom then (s.placeWords [endWord short]).setExport .waiting { r with item := .done }
    else s.setExport .waiting r := by
  rw [State.placeItems, item]

theorem placeItems_done (item : r.item = .done) : s.placeItems r (n + 1) = s.setExport .waiting r := by
  rw [State.placeItems, item]

/-- Words fit in the buffer as the statements count it (R160). -/
theorem fits_iff {k : Nat} (some : 0 < k) : k ≤ s.exportRoom ↔ s.port.exports.length + k ≤ 8192 := by
  have room : s.exportRoom = 8192 - s.port.exports.length := rfl
  omega

end Items

/-- What placing items of a run leaves: words behind those in the buffer, the run in hand with its record, its channel
waiting, asking or granted, and nothing else but what the arbiter gives. -/
structure Streamed (r : ExportRun) (s t : State) : Prop where
  rest : t = { s with port.exports := t.port.exports, images := t.images }
  words : s.port.exports <+: t.port.exports
  run : ∃ k, t.images.exporter.run = some k ∧ k.folio = r.folio ∧ k.plateHead = r.plateHead ∧
    k.plateCount = r.plateCount
  channel : t.images.exporter =
    { s.images.exporter with state := t.images.exporter.state, run := t.images.exporter.run }
  memory : t.images.memory = s.images.memory
  state : t.images.exporter.state = .waiting ∨ t.images.exporter.state = .requesting ∨
    t.images.exporter.state = .transferring
  held : s.images.transfer ≠ none → t.images.exporter.state ≠ .transferring
  still : s.images.transfer ≠ none → t.images = { s.images with exporter := t.images.exporter }

theorem Streamed.waits (r : ExportRun) (s : State) : Streamed r s (s.setExport .waiting r) :=
  ⟨rfl, List.prefix_refl _, ⟨r, rfl, rfl, rfl, rfl⟩, rfl, rfl, .inl rfl, fun _ => nofun, fun _ => rfl⟩

theorem Streamed.asks (r : ExportRun) (s : State) : Streamed r s (s.setExport .requesting r).arbitrate := by
  obtain ⟨rest, -, -, channel, granted, busy, memory⟩ := arb_images (s.setExport .requesting r)
  refine ⟨rest.trans ?_, ?_, ⟨r, ?_, rfl, rfl, rfl⟩, channel.trans ?_, memory, .inr granted, fun held => ?_,
    fun held => ?_⟩
  · rw [arbitrate_port]
    rfl
  · rw [arbitrate_port]
    exact List.prefix_refl _
  · exact (congrArg ExportChannel.run channel :)
  · rw [show (s.setExport .requesting r).arbitrate.images.exporter.run = some r from (congrArg ExportChannel.run channel :)]
    rfl
  · rw [busy held]
    nofun
  · rw [busy held]
    rfl

/-- The stream goes on behind words just placed, for the same record. -/
theorem Streamed.behind {r r' : ExportRun} {s t : State} {ws : List Word} (h : Streamed r' (s.placeWords ws) t)
    (folio : r'.folio = r.folio) (head : r'.plateHead = r.plateHead) (count : r'.plateCount = r.plateCount) :
    Streamed r s t := by
  obtain ⟨rest, words, ⟨k, run, kFolio, kHead, kCount⟩, channel, memory, state, held, still⟩ := h
  exact ⟨rest, (List.prefix_append _ _).trans words,
    ⟨k, run, kFolio.trans folio, kHead.trans head, kCount.trans count⟩, channel, memory, state, held, still⟩

theorem Streamed.same {r r' : ExportRun} {s t : State} (h : Streamed r' s t) (folio : r'.folio = r.folio)
    (head : r'.plateHead = r.plateHead) (count : r'.plateCount = r.plateCount) : Streamed r s t := by
  obtain ⟨rest, words, ⟨k, run, kFolio, kHead, kCount⟩, channel, memory, state, held, still⟩ := h
  exact ⟨rest, words, ⟨k, run, kFolio.trans folio, kHead.trans head, kCount.trans count⟩, channel, memory, state, held, still⟩

theorem streamed_placeItems (n : Nat) (r : ExportRun) (s : State) : Streamed r s (s.placeItems r n) := by
  induction n generalizing r s with
  | zero => exact .waits r s
  | succ n ih =>
    cases item : r.item with
    | header =>
      rw [placeItems_header item]
      split
      · exact .behind (ih _ _) rfl rfl rfl
      · exact .waits r s
    | plate =>
      by_cases more : r.taken < r.plateCount
      · cases next : s.nextPlate r.plateHead r.current with
        | none =>
          rw [placeItems_plate_broken item more next]
          exact .same (ih _ _) rfl rfl rfl
        | some p =>
          rw [placeItems_plate_taken item more next]
          exact .same (ih _ _) rfl rfl rfl
      · rw [placeItems_plate_done item (by omega)]
        exact .same (ih _ _) rfl rfl rfl
    | sideHeader ws =>
      rw [placeItems_sideHeader item]
      split
      · exact .behind (ih _ _) rfl rfl rfl
      · exact .waits r s
    | band =>
      cases residue : r.residue with
      | none =>
        rw [placeItems_band_spent item residue]
        exact .same (ih _ _) rfl rfl rfl
      | some k =>
        rw [placeItems_band item residue]
        split
        · exact .asks r s
        · exact .waits r s
    | endWord short =>
      rw [placeItems_endWord item]
      split
      · exact .behind (.waits _ _) rfl rfl rfl
      · exact .waits r s
    | done =>
      rw [placeItems_done item]
      exact .waits r s

section Serve

variable {r : ExportRun} {s : State}

theorem serveExport_of_waiting (waiting : s.images.exporter.state = .waiting) (run : s.images.exporter.run = some r) :
    s.serveExport = s.placeItems r (3 * r.plateCount + 8) := by
  rw [State.serveExport, waiting, run]

theorem serveExport_of_not_waiting (busy : s.images.exporter.state ≠ .waiting) : s.serveExport = s := by
  rw [State.serveExport]
  split
  · rename_i waiting _
    exact absurd waiting busy
  · rfl

theorem serveExport_of_no_run (none : s.images.exporter.run = none) : s.serveExport = s := by
  rw [State.serveExport, none]
  split
  · rename_i run
    cases run
  · rfl

theorem setExport_images (run : s.images.exporter.run = some r) (state : RunState) :
    (s.setExport state r).images = { s.images with exporter.state := state } := by
  rw [State.setExport, ← run]

theorem setExport_same (waiting : s.images.exporter.state = .waiting) (run : s.images.exporter.run = some r) :
    (s.setExport .waiting r).images = s.images := by
  rw [setExport_images run, ← waiting]

/-- Serving a run leaves its channel as it was, or streams. -/
theorem serveExport_cases (run : s.images.exporter.run = some r) : s.serveExport = s ∨ Streamed r s s.serveExport := by
  by_cases waiting : s.images.exporter.state = .waiting
  · rw [serveExport_of_waiting waiting run]
    exact .inr (streamed_placeItems _ r s)
  · exact .inl (serveExport_of_not_waiting waiting)

end Serve

/-! ## EXPORT DATA (R160, R161, R185) -/

theorem exec_exportData (s : State) : exec .exportData s = complete State.readExport s := rfl

/-- The state with the oldest word read and removed. -/
def wordRead (w : Word) (rest : List Word) (s : State) : State :=
  { s with port.exports := rest, port.dataOut := w }

section Read

variable {s : State} {w : Word} {rest : List Word}

theorem readExport_of_empty (empty : s.port.exports = []) : s.readExport = { s with port.dataOut := 0 } := by
  rw [State.readExport, empty]

theorem readExport_of_word (head : s.port.exports = w :: rest) : s.readExport =
    if rest = [] ∧ s.streamPlaced then (wordRead w rest s).endExport .idle .complete
    else (wordRead w rest s).serveExport := by
  rw [State.readExport, head]
  rfl

theorem streamPlaced_iff {r : ExportRun} (run : s.images.exporter.run = some r) :
    s.streamPlaced = true ↔ r.item = .done := by
  rw [State.streamPlaced, run]
  exact decide_eq_true_iff

theorem readExport_serves {r : ExportRun} (head : s.port.exports = w :: rest) (run : s.images.exporter.run = some r)
    (more : ¬ (rest = [] ∧ r.item = .done)) : s.readExport = (wordRead w rest s).serveExport := by
  rw [readExport_of_word head, if_neg (by rwa [streamPlaced_iff run])]

theorem readExport_without_run (head : s.port.exports = w :: rest) (none : s.images.exporter.run = none) :
    s.readExport = wordRead w rest s := by
  have notPlaced : s.streamPlaced = false := by rw [State.streamPlaced, none]
  rw [readExport_of_word head, if_neg (by simp [notPlaced]), serveExport_of_no_run (s := wordRead w rest s) none]

theorem readExport_ends {r : ExportRun} (head : s.port.exports = [w]) (run : s.images.exporter.run = some r)
    (done : r.item = .done) : s.readExport = (wordRead w [] s).endExport .idle .complete := by
  rw [readExport_of_word head, if_pos ⟨rfl, (streamPlaced_iff run).mpr done⟩]

theorem unchanged_wordRead (w : Word) (rest : List Word) (s : State) (more : List Part) :
    Unchanged (.port :: more) s (wordRead w rest s.begin) := by
  simp [Unchanged, wordRead]

theorem unchanged_streamed {but : List Part} {r : ExportRun} {s t u : State} (port : .port ∈ but)
    (images : .images ∈ but) (same : Unchanged but s u) (h : Streamed r u t) : Unchanged but s t := by
  refine unchanged_trans same (unchanged_mono (but := [.port, .images]) (by simp [port, images]) ?_)
  rw [h.rest]
  simp [Unchanged]

end Read

/-- A read with a run in hand: how the stream goes on behind it. -/
theorem exportData_run {s : State} {w : Word} {rest : List Word} {r : ExportRun} (head : s.port.exports = w :: rest)
    (run : s.images.exporter.run = some r) (more : ¬ (rest = [] ∧ r.item = .done)) {holds : State → Prop}
    (after : holds (wordRead w rest s.begin).serveExport) : After .exportData s holds := by
  apply after_of_complete (exec_exportData s)
  rw [readExport_serves (s := s.begin) head run more]
  exact after

theorem exportData_goes_on {s : State} {w : Word} {rest : List Word} {r : ExportRun} (head : s.port.exports = w :: rest)
    (run : s.images.exporter.run = some r) (more : ¬ (rest = [] ∧ r.item = .done)) : After .exportData s fun t =>
      t.port = { s.port with exports := t.port.exports, dataOut := w } ∧ rest <+: t.port.exports ∧
      (∃ k, t.images.exporter.run = some k ∧ k.folio = r.folio ∧ k.plateCount = r.plateCount) ∧
      t.images.exporter.endFlag = s.images.exporter.endFlag ∧
      t.images.memory = s.images.memory ∧ Unchanged [.port, .images] s t := by
  refine exportData_run head run more ?_
  have same := unchanged_wordRead w rest s [.images]
  rcases serveExport_cases (s := wordRead w rest s.begin) run with still | streamed
  · rw [still]
    exact ⟨rfl, List.prefix_refl _, ⟨r, run, rfl, rfl⟩, rfl, rfl, same⟩
  · obtain ⟨k, kept, folio, -, count⟩ := streamed.run
    exact ⟨(congrArg State.port streamed.rest :), streamed.words, ⟨k, kept, folio, count⟩,
      (congrArg ExportChannel.endFlag streamed.channel :), streamed.memory, unchanged_streamed (by simp) (by simp) same streamed⟩

theorem exportData_places_nothing {s : State} {w : Word} {rest : List Word} {r : ExportRun}
    (head : s.port.exports = w :: rest) (run : s.images.exporter.run = some r) (more : ¬ (rest = [] ∧ r.item = .done))
    (still : s.images.exporter.state ≠ .waiting ∨ r.item = .done) : After .exportData s fun t =>
      t.port = { s.port with exports := rest, dataOut := w } ∧
      t.images = { s.images with exporter := t.images.exporter } ∧ t.images.exporter.run = some r ∧
      t.images.exporter.state = s.images.exporter.state ∧ Unchanged [.port, .images] s t := by
  refine exportData_run head run more ?_
  have same := unchanged_wordRead w rest s [.images]
  by_cases waiting : s.images.exporter.state = .waiting
  · rw [serveExport_of_waiting (s := wordRead w rest s.begin) waiting run,
      placeItems_done (still.resolve_left (not_not.mpr waiting))]
    exact ⟨rfl, rfl, rfl, waiting.symm, unchanged_streamed (by simp) (by simp) same (.waits r _)⟩
  · rw [serveExport_of_not_waiting (s := wordRead w rest s.begin) waiting]
    exact ⟨rfl, rfl, run, rfl, same⟩

theorem exportData_places_endWord {s : State} {w : Word} {rest : List Word} {r : ExportRun}
    (head : s.port.exports = w :: rest) (run : s.images.exporter.run = some r) (more : ¬ (rest = [] ∧ r.item = .done))
    (short : Bool) (waiting : s.images.exporter.state = .waiting) (item : r.item = .endWord short)
    (room : rest.length < 8192) : After .exportData s fun t =>
      t.port = { s.port with exports := rest ++ [if short then 0x5AE1 else 0x5AE0], dataOut := w } ∧
      t.images = { s.images with exporter.run := some { r with item := .done } } ∧
      Unchanged [.port, .images] s t := by
  refine exportData_run head run more ?_
  have fits : 1 ≤ (wordRead w rest s.begin).exportRoom := (fits_iff Nat.one_pos).mpr room
  have streamed := streamed_placeItems (3 * r.plateCount + 8) r (wordRead w rest s.begin)
  have unchanged := unchanged_streamed (by simp) (by simp) (unchanged_wordRead w rest s [.images]) streamed
  rw [serveExport_of_waiting (s := wordRead w rest s.begin) waiting run]
  rw [placeItems_endWord item, if_pos fits] at unchanged ⊢
  refine ⟨rfl, ?_, unchanged⟩
  rw [← waiting]
  rfl

theorem exportData_places_sideHeader {s : State} {w : Word} {rest : List Word} {r : ExportRun}
    (head : s.port.exports = w :: rest) (run : s.images.exporter.run = some r) (more : ¬ (rest = [] ∧ r.item = .done))
    (n : Nat) (ws : List Word) (waiting : s.images.exporter.state = .waiting) (item : r.item = .sideHeader ws)
    (four : ws.length = 4) (room : rest.length + 4 ≤ 8192) (residue : r.residue = some n) :
    After .exportData s fun t =>
      t.port = { s.port with exports := rest ++ ws, dataOut := w } ∧
      AwaitsBand t { r with item := .band } (rest.length + 4) ∧
      (s.images.transfer ≠ none → t.images.exporter.state ≠ .transferring) ∧ Unchanged [.port, .images] s t := by
  refine exportData_run head run more ?_
  have fits : ws.length ≤ (wordRead w rest s.begin).exportRoom := by
    rw [four]
    exact (fits_iff (by decide)).mpr room
  have streamed := streamed_placeItems (3 * r.plateCount + 8) r (wordRead w rest s.begin)
  have unchanged := unchanged_streamed (by simp) (by simp) (unchanged_wordRead w rest s [.images]) streamed
  obtain ⟨exports, awaits⟩ := placeBand (u := (wordRead w rest s.begin).placeWords ws) (r := { r with item := .band })
    (n := 3 * r.plateCount + 6) rfl residue
  have placed : ((wordRead w rest s.begin).placeWords ws).port.exports.length = rest.length + 4 := by
    rw [← four]
    exact List.length_append
  rw [placed] at awaits
  rw [serveExport_of_waiting (s := wordRead w rest s.begin) waiting run]
  have port := congrArg State.port streamed.rest
  have held := streamed.held
  rw [placeItems_sideHeader item, if_pos fits] at unchanged port held ⊢
  rw [exports] at port
  exact ⟨port, awaits, held, unchanged⟩

theorem exportData_asks {s : State} {w : Word} {rest : List Word} {r : ExportRun}
    (head : s.port.exports = w :: rest) (run : s.images.exporter.run = some r) (more : ¬ (rest = [] ∧ r.item = .done))
    (n : Nat) (waiting : s.images.exporter.state = .waiting) (item : r.item = .band) (residue : r.residue = some n) :
    After .exportData s fun t =>
      t.port = { s.port with exports := rest, dataOut := w } ∧ t.images.exporter.run = some r ∧
      (8192 < rest.length + 4096 → t.images = s.images) ∧
      (rest.length + 4096 ≤ 8192 →
        t.images.exporter.state = .requesting ∨ t.images.exporter.state = .transferring) ∧
      (rest.length + 4096 ≤ 8192 → s.images.transfer ≠ none →
        t.images = { s.images with exporter.state := .requesting }) ∧ Unchanged [.port, .images] s t := by
  refine exportData_run head run more ?_
  have streamed := streamed_placeItems (3 * r.plateCount + 8) r (wordRead w rest s.begin)
  have unchanged := unchanged_streamed (by simp) (by simp) (unchanged_wordRead w rest s [.images]) streamed
  obtain ⟨exports, awaits⟩ := placeBand (u := wordRead w rest s.begin) (n := 3 * r.plateCount + 7) item residue
  obtain ⟨kept, -, asking⟩ := awaits
  rw [serveExport_of_waiting (s := wordRead w rest s.begin) waiting run]
  have port := congrArg State.port streamed.rest
  rw [exports] at port
  refine ⟨port, kept, fun full => ?_, asking, fun room busy => ?_, unchanged⟩
  · have full : ¬ Config.bandWords ≤ (wordRead w rest s.begin).exportRoom := fun fits =>
      Nat.not_le.mpr full ((fits_iff (by decide)).mp fits)
    rw [placeItems_band item residue, if_neg full]
    exact setExport_same (s := wordRead w rest s.begin) waiting run
  · have fits : Config.bandWords ≤ (wordRead w rest s.begin).exportRoom := (fits_iff (by decide)).mpr room
    rw [placeItems_band item residue, if_pos fits]
    exact (arbitrate_images_busy (State.setExport .requesting r (wordRead w rest s.begin)) busy).trans
      (setExport_images (s := wordRead w rest s.begin) run .requesting)

/-- Settles O18. -/
theorem exportDataRead : Obligations.ExportDataRead := by
  unfold Obligations.ExportDataRead
  intro s
  refine ⟨fun empty => ?_, fun w rest head none => ?_, fun w rest r head run more => ?_, fun w r head run done => ?_⟩
  · apply after_of_complete (exec_exportData s)
    rw [readExport_of_empty (s := s.begin) empty]
    exact ⟨rfl, unchanged_setPort s _⟩
  · apply after_of_complete (exec_exportData s)
    rw [readExport_without_run (s := s.begin) head none]
    exact ⟨rfl, unchanged_wordRead w rest s []⟩
  · exact ⟨exportData_goes_on head run more, exportData_places_nothing head run more,
      exportData_places_endWord head run more, exportData_places_sideHeader head run more,
      exportData_asks head run more⟩
  · apply after_of_complete (exec_exportData s)
    rw [readExport_ends (s := s.begin) head run done]
    exact ⟨rfl, rfl, rfl, by simp [Unchanged, wordRead, State.endExport]⟩

end Sys2Proof.Proofs

/-! PROOFS. The start and the end of an audit run and of an exporter run (R33, R154 to R161): VERIFY, CANCEL VERIFY, OPEN EXPORT
and CANCEL EXPORT. -/

namespace Sys2Proof.Proofs

open Sys2Proof.Machine Sys2Proof.Safety Sys2Proof.Claims Sys2Proof.Laws Sys2Proof.Laws.Batches
  Sys2Proof.Laws.Bands

/-! ## The start claim (R33) -/

section Claim

variable {s : State} {folio : Word} {r : Record}

theorem startClaim_of_error {code : ReplyCode} (error : s.resolve folio = .error code) :
    s.startClaim folio = .error code := by
  rw [State.startClaim, error]

theorem startClaim_of_names (names : Names s folio r) : s.begin.startClaim folio =
    if r.state ≠ .filed then .error .state else if r.image = .shed then .error .noImage else .ok r := by
  rw [State.startClaim, resolve_of_names (s := s.begin) names]

theorem startClaim_of_claimable (claim : Claimable s folio r) : s.begin.startClaim folio = .ok r := by
  obtain ⟨names, filed, resident⟩ := claim
  rw [startClaim_of_names names, if_neg (not_not.mpr filed), if_neg (by rw [resident]; decide)]

/-- The refusals of a request that makes the start claim: R2's, then STATE and NO IMAGE. -/
theorem claim_refuses {i : Instr} {tag : Tag} {owner : Owner} (run : exec i s = request 1 tag owner s)
    (takes : Takes 1 s)
    (refuses : ∀ code, s.begin.startClaim folio = .error code → owner s.begin = refused code s.begin) :
    ((s.slot (folio.toNat / 16)).state = .free → Reads i s 2 tag []) ∧
    ((s.slot (folio.toNat / 16)).state ≠ .free →
      (s.slot (folio.toNat / 16)).generation ≠ folio.extractLsb' 0 4 → Reads i s 3 tag []) ∧
    ((s.slot (folio.toNat / 16)).state = .damaged →
      (s.slot (folio.toNat / 16)).generation = folio.extractLsb' 0 4 → Reads i s 4 tag []) ∧
    (Names s folio r → r.state ≠ .filed → Reads i s 8 tag []) ∧
    (Names s folio r → r.state = .filed → r.image = .shed → Reads i s 15 tag []) := by
  have reads (code : ReplyCode) (error : s.begin.startClaim folio = .error code) : Reads i s code.number tag [] :=
    reads_of_refused code run takes (refuses code error)
  refine ⟨fun free => reads .notFound (startClaim_of_error (resolve_of_free (s := s.begin) free)),
    fun used stale => reads .stale (startClaim_of_error (resolve_of_stale (s := s.begin) used stale)),
    fun damaged same => reads .damaged (startClaim_of_error (resolve_of_damaged (s := s.begin) damaged same)),
    fun names unfiled => reads .state ?_, fun names filed shed => reads .noImage ?_⟩
  · rw [startClaim_of_names names, if_pos unfiled]
  · rw [startClaim_of_names names, if_neg (not_not.mpr filed), if_pos shed]

end Claim

/-! ## The audit run (R154 to R156) -/

section Audit

variable {r : AuditRun} {s : State} {n : Nat}

theorem walkAudit_ends (all : r.plateCount ≤ r.taken) : s.walkAudit r (n + 1) =
    s.endAudit r (if ~~~ r.runningDigest = r.digest then .matched else .digestMismatch) 0 := by
  rw [State.walkAudit, if_pos all]

theorem walkAudit_broken (more : r.taken < r.plateCount) (broken : s.nextPlate r.plateHead r.current = none) :
    s.walkAudit r (n + 1) = s.endAudit r .plateMismatch (r.taken + 1) := by
  rw [State.walkAudit, if_neg (by omega), broken]

theorem auditRun_take {p : Nat} {l : Link} (bands : 0 < l.bandsUsed) : r.take p l = { r with
    taken := r.taken + 1, current := some p, bandsUsed := l.bandsUsed, storedCheck := l.check,
    residue := some (l.bandsUsed - 1), crc := 0xFFFF } := by
  rw [AuditRun.take, unreadResidue, if_neg (Nat.ne_of_gt bands)]
  rfl

theorem walkAudit_takes {p : Nat} (more : r.taken < r.plateCount)
    (next : s.nextPlate r.plateHead r.current = some p) (bands : 0 < (s.link p).bandsUsed) :
    s.walkAudit r (n + 1) = (s.setAudit .requesting { r with
      taken := r.taken + 1, current := some p, bandsUsed := (s.link p).bandsUsed, storedCheck := (s.link p).check,
      residue := some ((s.link p).bandsUsed - 1), crc := 0xFFFF }).arbitrate := by
  rw [State.walkAudit, if_neg (by omega), next]
  dsimp only
  rw [auditRun_take bands]

end Audit

theorem arbitrate_audit_run (u : State) : u.arbitrate.images.audit.run = u.images.audit.run := by
  obtain ⟨-, audit, -⟩ := arb_images u
  exact (congrArg AuditChannel.run audit :)

theorem arbitrate_audit_state {u : State} (asks : u.images.audit.state = .requesting) :
    u.arbitrate.images.audit.state = .requesting ∨ u.arbitrate.images.audit.state = .transferring := by
  obtain ⟨-, -, granted, -⟩ := arb_images u
  rwa [asks] at granted

theorem postAudit_frame (n : Notice) (s : State) : ∃ notices kept,
    s.postAudit n = { s with port.notices := notices, images.audit.kept := kept } := by
  rw [State.postAudit]
  split
  · exact ⟨_, s.images.audit.kept, rfl⟩
  · exact ⟨s.port.notices, _, rfl⟩

theorem verifyDonePosted_postAudit {s u : State} (port : u.port = s.port)
    (kept : u.images.audit.kept = s.images.audit.kept) (n : Notice) : VerifyDonePosted s (u.postAudit n) n := by
  have room : u.noticeRoom = 16 - s.port.notices.length := by rw [State.noticeRoom, port]; rfl
  refine ⟨fun none few => ?_, fun full => ?_⟩
  · rw [State.postAudit, kept, if_pos ⟨none, by omega⟩, port]
    exact ⟨rfl, kept.trans none⟩
  · rw [State.postAudit, if_neg (by omega), port]
    exact ⟨rfl, rfl⟩

/-- The request of the audit channel for a band of its run's current plate (R147, R155). -/
theorem requestMade_audit {s u : State} {r : AuditRun} {p n : Nat} (run : u.images.audit.run = some r)
    (current : r.current = some p) (residue : r.residue = some n) (asks : u.images.audit.state = .requesting)
    (unmasked : u.images.audit.masked = false) (transfer : u.images.transfer = s.images.transfer)
    (order : u.images.order = s.images.order) (mode : u.images.mode = s.images.mode)
    (others : ∀ c, c ≠ .audit → u.asks c = s.asks c) :
    RequestMade s u.arbitrate ⟨.audit, p, r.bandsUsed - 1 - n, [], false⟩ := by
  refine ⟨fun busy => ?_, fun free quiet mem => ?_⟩
  · rw [arb_held (transfer ▸ busy)]
    refine ⟨transfer, order, fun granted => ?_⟩
    have granted : u.images.audit.state = .transferring := granted
    rw [asks] at granted
    cases granted
  · have granted := arbitrate_alone (u := u) (c := .audit) (transfer.trans free)
      (by simp [State.eligibleChannel, State.asks, State.maskedChannel, asks, unmasked])
      (fun c other => (others c other).trans (quiet c)) (order ▸ mem)
    have carried : u.transferOf .audit = ⟨.audit, p, r.bandsUsed - 1 - n, [], false⟩ := by
      simp [State.transferOf, run, current, residue]
    rw [granted]
    refine ⟨congrArg some carried, ?_, rfl⟩
    rw [← orderAfter_eq, ← order, ← mode]
    rfl

/-! ## VERIFY and CANCEL VERIFY (R154, R157) -/

theorem exec_verify (tag : Tag) (folio : Word) (s : State) :
    exec (.verify tag folio) s = request (largestReply 0x53) tag (ownerVerify folio) s := rfl

theorem exec_cancelVerify (tag : Tag) (s : State) :
    exec (.cancelVerify tag) s = request (largestReply 0x54) tag ownerCancelVerify s := rfl

/-- The run a VERIFY begins (R154). -/
def auditBegun (folio : Word) (r : Record) : AuditRun :=
  { folio := folio, plateHead := r.plateHead, plateCount := r.plateCount, digest := r.digest }

/-- The state in which an audit of a record sets out: the mark, and the run before its first plate. -/
def auditSetOut (folio : Word) (r : Record) (s : State) : State :=
  State.setAudit .waiting (auditBegun folio r) { s with folio.auditMark := some (slotOf folio) }

/-- The state in which an audit has taken its record's first plate and asks for its first band (R155). -/
def auditAsking (folio : Word) (r : Record) (p : Nat) (s : State) : State :=
  State.setAudit .requesting
    { folio := folio, plateHead := r.plateHead, plateCount := r.plateCount, digest := r.digest, taken := 1,
      current := some p, bandsUsed := (s.link p).bandsUsed, storedCheck := (s.link p).check,
      residue := some ((s.link p).bandsUsed - 1), crc := 0xFFFF }
    { s with folio.auditMark := some (slotOf folio) }

section Verify

variable {s : State} {folio : Word}

theorem ownerVerify_of_error {code : ReplyCode} (free : ¬ (s.images.audit.state ≠ .idle ∨ s.images.audit.kept ≠ none))
    (error : s.startClaim folio = .error code) : ownerVerify folio s = refused code s := by
  rw [ownerVerify, if_neg free, error]

theorem ownerVerify_of_claim {r : Record} (free : ¬ (s.images.audit.state ≠ .idle ∨ s.images.audit.kept ≠ none))
    (claim : s.startClaim folio = .ok r) : ownerVerify folio s =
      ((auditSetOut folio r s).walkAudit (auditBegun folio r) (r.plateCount + 1), { code := .started }) := by
  rw [ownerVerify, if_neg free, claim]
  rfl

end Verify

theorem verify_takes_plate {s : State} {tag : Tag} {folio : Word} {r : Record} {p : Nat} (takes : Takes 1 s)
    (free : ¬ (s.images.audit.state ≠ .idle ∨ s.images.audit.kept ≠ none)) (claim : Claimable s folio r)
    (plates : 0 < r.plateCount) (head : r.plateHead = some p) (bands : 0 < (s.link p).bandsUsed) :
    After (.verify tag folio) s fun t =>
      Answers s t 1 tag [] ∧ t.folio = { s.folio with auditMark := some (folio.toNat / 16) } ∧
      t.images.audit.run = some
        { folio := folio, plateHead := r.plateHead, plateCount := r.plateCount,
          digest := r.digest, runningDigest := 0xFFFFFFFF, checked := 0, taken := 1,
          current := some p, bandsUsed := (s.link p).bandsUsed,
          storedCheck := (s.link p).check, residue := some ((s.link p).bandsUsed - 1),
          crc := 0xFFFF } ∧
      (s.images.transfer ≠ none → t.images.audit.state = .requesting ∧
        t.images = { s.images with audit := t.images.audit }) ∧
      (t.images.audit.state = .requesting ∨ t.images.audit.state = .transferring) ∧
      (s.images.audit.masked = false → RequestMade s t ⟨.audit, p, 0, [], false⟩) ∧
      Unchanged [.port, .folio, .images] s t := by
  have owner := ownerVerify_of_claim (s := s.begin) free (startClaim_of_claimable claim)
  rw [walkAudit_takes (s := auditSetOut folio r s.begin) (r := auditBegun folio r) plates head bands] at owner
  change ownerVerify folio s.begin = ((auditAsking folio r p s.begin).arbitrate, _) at owner
  refine after_of_owner (exec_verify tag folio s) takes owner ⟨answers_of_port (arbitrate_port _) tag _,
    (congrArg State.folio (arb_rest _) :), arbitrate_audit_run _, fun busy => ?_,
    arbitrate_audit_state rfl, fun unmasked => ?_, ?_⟩
  · rw [arb_held (s := auditAsking folio r p s.begin) busy]
    exact ⟨rfl, rfl⟩
  · have made := requestMade_audit (s := s) (u := auditAsking folio r p s.begin) rfl rfl rfl rfl unmasked rfl rfl rfl
      (fun c other => match c with
        | .audit => absurd rfl other
        | .captureFront | .captureBack | .exporter => rfl)
    rw [Nat.sub_self] at made
    exact made
  · exact unchanged_answer (by simp)
      (unchanged_arbitrate (by simp) (by simp [Unchanged, auditAsking, State.setAudit])) tag _

/-- The state with the audit's run ended by its result, before its notice is posted (R156). -/
def auditEnded (s : State) : State :=
  { s with
    folio.auditMark := none
    images.audit.state := .idle
    images.audit.run := none
    images.audit.endFlag := true
    images.audit.endCause := .complete }

theorem endAudit_frame (r : AuditRun) (result : AuditResult) (failing : Nat) (s : State) : ∃ notices kept,
    s.endAudit r result failing =
      { auditEnded s with port.notices := notices, images.audit.kept := kept } :=
  postAudit_frame (.verifyDone result r.folio failing r.checked) (auditEnded s)

theorem verifyDonePosted_endAudit {s u : State} (port : u.port = s.port)
    (kept : u.images.audit.kept = s.images.audit.kept) (r : AuditRun) (result : AuditResult) (failing : Nat) :
    VerifyDonePosted s (u.endAudit r result failing) (.verifyDone result r.folio failing r.checked) :=
  verifyDonePosted_postAudit (u := auditEnded u) port kept _

theorem verify_of_no_plate {s : State} {tag : Tag} {folio : Word} {r : Record} (takes : Takes 1 s)
    (free : ¬ (s.images.audit.state ≠ .idle ∨ s.images.audit.kept ≠ none)) (claim : Claimable s folio r)
    (plates : r.plateCount = 0) : After (.verify tag folio) s fun t =>
      t.folio = { s.folio with auditMark := none } ∧ t.images.audit.state = .idle ∧
      t.images.audit.run = none ∧ t.images.audit.endFlag = true ∧
      t.images.audit.endCause = .complete ∧ t.port.replies = s.port.replies ++ replyWords 1 tag [] ∧
      VerifyDonePosted s t
        (.verifyDone (if r.digest = 0 then .matched else .digestMismatch) folio 0 0) ∧
      Unchanged [.port, .folio, .images] s t := by
  have owner := ownerVerify_of_claim (s := s.begin) free (startClaim_of_claimable claim)
  rw [walkAudit_ends (s := auditSetOut folio r s.begin) (r := auditBegun folio r) (Nat.le_of_eq plates)] at owner
  have result : (if ~~~ (auditBegun folio r).runningDigest = (auditBegun folio r).digest then AuditResult.matched
      else .digestMismatch) = if r.digest = 0 then .matched else .digestMismatch := by
    rw [show ~~~ (auditBegun folio r).runningDigest = 0 from (by decide : ~~~ (0xFFFFFFFF : Long) = 0)]
    exact if_congr eq_comm rfl rfl
  rw [result] at owner
  have posted : VerifyDonePosted s ((auditSetOut folio r s.begin).endAudit (auditBegun folio r)
      (if r.digest = 0 then .matched else .digestMismatch) 0)
      (.verifyDone (if r.digest = 0 then .matched else .digestMismatch) folio 0 0) :=
    verifyDonePosted_endAudit (s := s) (u := auditSetOut folio r s.begin) rfl rfl _ _ _
  obtain ⟨notices, kept, frame⟩ := endAudit_frame (auditBegun folio r)
    (if r.digest = 0 then .matched else .digestMismatch) 0 (auditSetOut folio r s.begin)
  rw [frame] at owner posted
  exact after_of_owner (exec_verify tag folio s) takes owner ⟨rfl, rfl, rfl, rfl, rfl,
    (congrArg Port.replies (answers_of_port (s := s) (t := s.begin) rfl tag { code := .started }) :), posted,
    by simp [Unchanged, auditEnded, auditSetOut, State.setAudit]⟩

/-- The state with the audit's run cancelled, before its notice is posted (R157). -/
def auditCancelled (s : State) : State :=
  { s with
    folio.auditMark := none
    images.audit.state := s.images.audit.state.cancelled
    images.audit.run := none
    images.audit.endFlag := true
    images.audit.endCause := .cancelled }

theorem ownerCancelVerify_of_run {s : State} {run : AuditRun} (inHand : s.images.audit.run = some run) :
    ownerCancelVerify s = (((auditCancelled s).postAudit (.verifyDone .cancelled run.folio 0 run.checked)).orphan .audit,
      okWith [packOne 15 run.checked]) := by
  rw [ownerCancelVerify, inHand]
  rfl

theorem ownerCancelVerify_of_none {s : State} (none : s.images.audit.run = none) :
    ownerCancelVerify s = refused .state s := by
  rw [ownerCancelVerify, none]

/-- Settles O44. -/
theorem auditRequests : Obligations.AuditRequests := by
  unfold Obligations.AuditRequests
  refine ⟨fun s tag folio r takes => ⟨fun busy => ?_, fun idle kept => ?_⟩, fun s tag takes => ⟨fun none => ?_,
    fun run inHand => ?_⟩⟩
  · exact reads_of_refused .busy (exec_verify tag folio s) takes (if_pos busy)
  · have free : ¬ (s.images.audit.state ≠ .idle ∨ s.images.audit.kept ≠ none) := by simp [idle, kept]
    obtain ⟨notFound, stale, damaged, state, noImage⟩ := claim_refuses (folio := folio) (r := r)
      (exec_verify tag folio s) takes fun code => ownerVerify_of_error free
    exact ⟨notFound, stale, damaged, state, noImage,
      fun p claim plates head bands => verify_takes_plate takes free claim plates head bands,
      fun claim plates => verify_of_no_plate takes free claim plates⟩
  · exact reads_of_refused .state (exec_cancelVerify tag s) takes (ownerCancelVerify_of_none (s := s.begin) none)
  · have owner := ownerCancelVerify_of_run (s := s.begin) inHand
    have posted : VerifyDonePosted s ((auditCancelled s.begin).postAudit
        (.verifyDone .cancelled run.folio 0 run.checked)) (.verifyDone .cancelled run.folio 0 run.checked) :=
      verifyDonePosted_postAudit (s := s) (u := auditCancelled s.begin) rfl rfl _
    obtain ⟨notices, kept, frame⟩ := postAudit_frame (.verifyDone .cancelled run.folio 0 run.checked)
      (auditCancelled s.begin)
    rw [frame] at owner posted
    exact after_of_owner (exec_cancelVerify tag s) takes owner
      ⟨(congrArg Port.replies (answers_of_port (s := s) (t := s.begin) rfl tag (okWith [packOne 15 run.checked])) :),
        rfl, rfl, rfl, rfl, rfl, fun _ => posted, by simp [Unchanged, auditCancelled, State.orphan]⟩

/-! ## OPEN EXPORT and CANCEL EXPORT (R158, R161) -/

theorem exec_openExport (tag : Tag) (folio : Word) (s : State) :
    exec (.openExport tag folio) s = request (largestReply 0x55) tag (ownerOpenExport folio) s := rfl

theorem exec_cancelExport (tag : Tag) (s : State) :
    exec (.cancelExport tag) s = request (largestReply 0x56) tag ownerCancelExport s := rfl

/-- The run an OPEN EXPORT begins (R158). -/
def exportBegun (folio : Word) (r : Record) : ExportRun :=
  { folio := folio, header := folioHeader folio r, plateHead := r.plateHead, plateCount := r.plateCount }

/-- The state in which an exporter run of a record sets out: the mark, and the run before its first item. -/
def exportSetOut (folio : Word) (r : Record) (s : State) : State :=
  State.setExport .waiting (exportBegun folio r) { s with folio.exportMark := some (slotOf folio) }

section Export

variable {s : State} {folio : Word}

theorem ownerOpenExport_of_error {code : ReplyCode} (idle : s.images.exporter.state = .idle)
    (error : s.startClaim folio = .error code) : ownerOpenExport folio s = refused code s := by
  rw [ownerOpenExport, if_neg (not_not.mpr idle), error]

theorem ownerOpenExport_of_claim {r : Record} (idle : s.images.exporter.state = .idle)
    (claim : s.startClaim folio = .ok r) : ownerOpenExport folio s =
      ((exportSetOut folio r s).placeItems (exportBegun folio r) (3 * r.plateCount + 8), { code := .started }) := by
  rw [ownerOpenExport, if_neg (not_not.mpr idle), claim]
  exact congrArg (·, ({ code := .started } : Reply)) (serveExport_of_waiting (s := exportSetOut folio r s) rfl rfl)

end Export

/-- The state of an exporter run behind its folio header. -/
def headerPlaced (folio : Word) (r : Record) (s : State) : State :=
  (exportSetOut folio r s).placeWords (folioHeader folio r)

/-- The run behind its folio header. -/
def headerRun (folio : Word) (r : Record) : ExportRun := { exportBegun folio r with item := .plate }

/-- Placing the end word where it fits (R159). -/
theorem endWord_placed {r : ExportRun} {s : State} {n : Nat} {short : Bool} (item : r.item = .endWord short)
    (room : s.port.exports.length < 8192) : (s.placeItems r (n + 1)).port.exports =
      s.port.exports ++ [if short then 0x5AE1 else 0x5AE0] := by
  rw [placeItems_endWord item, if_pos ((fits_iff Nat.one_pos).mpr room)]
  rfl

theorem openExport_opens {s : State} {tag : Tag} {folio : Word} {r : Record} (takes : Takes 1 s)
    (idle : s.images.exporter.state = .idle) (claim : Claimable s folio r) (empty : s.port.exports = []) :
    After (.openExport tag folio) s fun t =>
      let header : List Word := [0x5A01, folio, r.matter.extractLsb' 16 16,
        r.matter.extractLsb' 0 16, word r.sequence, word r.pageCount, word r.sideCount,
        word r.plateCount, r.digest.extractLsb' 16 16, r.digest.extractLsb' 0 16]
      t.port.replies = s.port.replies ++ replyWords 1 tag [] ∧
      t.folio = { s.folio with exportMark := some (folio.toNat / 16) } ∧
      t.images.exporter.state ≠ .idle ∧ (∃ run, t.images.exporter.run = some run ∧
        run.folio = folio ∧ run.plateHead = r.plateHead ∧ run.plateCount = r.plateCount) ∧
      header <+: t.port.exports ∧
      (r.plateCount = 0 → t.port.exports = header ++ [0x5AE0]) ∧
      (0 < r.plateCount → r.plateHead = none → t.port.exports = header ++ [0x5AE1]) ∧
      (∀ p, 0 < r.plateCount → r.plateHead = some p → 0 < (s.link p).bandsUsed →
        PlateTaken s t ⟨folio, header, some p, r.plateCount, .header, 0, none, 0, none, 0, 0⟩ p
          header) ∧
      (s.images.transfer ≠ none → t.images.exporter.state ≠ .transferring) ∧
      Unchanged [.port, .folio, .images] s t := by
  have owner := ownerOpenExport_of_claim (s := s.begin) idle (startClaim_of_claimable claim)
  have placed : (headerPlaced folio r s.begin).port.exports = folioHeader folio r := by
    change s.port.exports ++ _ = _
    rw [empty, List.nil_append]
  have fits : (exportBegun folio r).header.length ≤ (exportSetOut folio r s.begin).exportRoom := by
    refine (fits_iff (k := 10) (by decide)).mpr ?_
    change s.port.exports.length + 10 ≤ 8192
    rw [empty]
    decide
  rw [placeItems_header (s := exportSetOut folio r s.begin) (r := exportBegun folio r) rfl, if_pos fits] at owner
  change ownerOpenExport folio s.begin =
    ((headerPlaced folio r s.begin).placeItems (headerRun folio r) (3 * r.plateCount + 7), _) at owner
  have streamed := streamed_placeItems (3 * r.plateCount + 7) (headerRun folio r) (headerPlaced folio r s.begin)
  obtain ⟨run, inHand, folioKept, headKept, countKept⟩ := streamed.run
  have same : Unchanged [.port, .folio, .images] s (headerPlaced folio r s.begin) := by
    simp [Unchanged, headerPlaced, exportSetOut, State.placeWords, State.setExport]
  have room : (headerPlaced folio r s.begin).port.exports.length < 8192 := by
    rw [placed]
    exact (by decide : 10 < 8192)
  refine after_of_owner (exec_openExport tag folio s) takes owner ⟨?_, (congrArg State.folio streamed.rest :), ?_,
    ⟨run, inHand, folioKept, headKept, countKept⟩, ?_, fun none => ?_, fun plates none => ?_,
    fun p plates head bands => ?_, streamed.held, ?_⟩
  · have replies := congrArg (fun t : State => t.port.replies) streamed.rest
    exact (congrArg (· ++ _) replies).trans
      (congrArg Port.replies (answers_of_port (s := s) (t := s.begin) rfl tag { code := .started }) :)
  · intro idle
    rcases streamed.state with state | state | state <;> cases idle.symm.trans state
  · have words := streamed.words
    rwa [placed] at words
  · rw [placeItems_plate_done (s := headerPlaced folio r s.begin) (r := headerRun folio r) rfl (Nat.le_of_eq none)]
    exact (endWord_placed (s := headerPlaced folio r s.begin) rfl room).trans (congrArg (· ++ _) placed)
  · rw [placeItems_plate_broken (s := headerPlaced folio r s.begin) (r := headerRun folio r) rfl plates none]
    exact (endWord_placed (s := headerPlaced folio r s.begin) rfl room).trans (congrArg (· ++ _) placed)
  · have taken := plateTaken_of (s := s) (u := headerPlaced folio r s.begin) (r := headerRun folio r)
      (n := 3 * r.plateCount + 4) (fun _ => rfl) rfl plates head bands
    rw [placed] at taken
    rw [← head]
    exact taken
  · exact unchanged_answer (by simp) (unchanged_streamed (by simp) (by simp) same streamed) tag _

/-- The state with its exporter run ended by a cancellation (R161). -/
def exportCancelled (s : State) : State :=
  State.endExport s.images.exporter.state.cancelled .cancelled { s with port.exports := [] }

theorem ownerCancelExport_of_run {s : State} (inHand : s.images.exporter.run ≠ none) :
    ownerCancelExport s = ((exportCancelled s).orphan .exporter, okWith [packOne 14 s.port.exports.length]) := by
  obtain ⟨run, inHand⟩ := Option.ne_none_iff_exists'.mp inHand
  rw [ownerCancelExport, inHand]
  rfl

theorem ownerCancelExport_of_none {s : State} (none : s.images.exporter.run = none) :
    ownerCancelExport s = refused .state s := by
  rw [ownerCancelExport, none]

/-- Settles O45. -/
theorem exportRequests : Obligations.ExportRequests := by
  unfold Obligations.ExportRequests
  refine ⟨fun s tag folio r takes => ⟨fun busy => ?_, fun idle => ?_⟩, fun s tag takes => ⟨fun none => ?_,
    fun inHand => ?_⟩⟩
  · exact reads_of_refused .busy (exec_openExport tag folio s) takes (if_pos busy)
  · obtain ⟨notFound, stale, damaged, state, noImage⟩ := claim_refuses (folio := folio) (r := r)
      (exec_openExport tag folio s) takes fun code => ownerOpenExport_of_error (s := s.begin) idle
    exact ⟨notFound, stale, damaged, state, noImage, fun claim empty => openExport_opens takes idle claim empty⟩
  · exact reads_of_refused .state (exec_cancelExport tag s) takes (ownerCancelExport_of_none (s := s.begin) none)
  · have replies := congrArg Port.replies (answers_of_port (s := s) (t := s.begin) rfl tag
      (okWith [packOne 14 s.port.exports.length]))
    exact after_of_owner (exec_cancelExport tag s) takes (ownerCancelExport_of_run (s := s.begin) inHand)
      ⟨congrArg (fun words => { s.port with exports := [], replies := words }) replies, rfl, rfl, rfl, rfl, rfl,
        by simp [Unchanged, exportCancelled, State.endExport, State.orphan]⟩

end Sys2Proof.Proofs

/-! PROOFS. A granted band transfer, what is common to its channels (R143, R147, R159): the band's bytes in image memory,
the port held while a channel works and given on behind it. -/

namespace Sys2Proof.Proofs

open Sys2Proof.Machine Sys2Proof.Safety Sys2Proof.Claims Sys2Proof.Laws Sys2Proof.Laws.Batches
  Sys2Proof.Laws.Bands

/-! ## The bytes of a band (R143, R159) -/

theorem length_lineBytes (l : ScanLine) : (lineBytes l).length = 512 := by
  simp [lineBytes]

theorem length_bandBytes (lines : List ScanLine) : (bandBytes lines).length = 512 * lines.length := by
  induction lines with
  | nil => rfl
  | cons l lines ih =>
    change (lineBytes l ++ bandBytes lines).length = _
    rw [List.length_append, length_lineBytes, ih, List.length_cons]
    omega

theorem getElem?_bandBytes (lines : List ScanLine) (y x : Nat) (h : y < lines.length) (inside : x < 512) :
    (bandBytes lines)[512 * y + x]? = some (lines[y].extractLsb' (4096 - 8 * (x + 1)) 8) := by
  induction lines generalizing y with
  | nil => exact absurd h (Nat.not_lt_zero y)
  | cons l lines ih =>
    change (lineBytes l ++ bandBytes lines)[512 * y + x]? = _
    cases y with
    | zero =>
      rw [Nat.mul_zero, Nat.zero_add, List.getElem?_append_left (by rwa [length_lineBytes]), lineBytes,
        List.getElem?_map, List.getElem?_range inside]
      rfl
    | succ y =>
      rw [List.getElem?_append_right (by rw [length_lineBytes]; omega), length_lineBytes,
        show 512 * (y + 1) + x - 512 = 512 * y + x by omega]
      exact ih y (Nat.lt_of_succ_lt_succ h)

/-- The band of a granted write stands at its place, and nowhere else has changed. -/
theorem bandStored_of_memory {s t : State} {g : Transfer} (c : Canonical s)
    (memory : t.images.memory = (s.writeBand g).images.memory) : BandStored s t g := by
  have address : bandAddress g.plate g.place = g.plate * 65536 + g.place * 8192 := rfl
  obtain ⟨-, canonical⟩ := c
  refine ⟨fun y x h inside => ?_, fun a outside => ?_⟩
  · have at_byte := getElem?_bandBytes g.lines y x h inside
    obtain ⟨within, value⟩ := List.getElem?_eq_some_iff.mp at_byte
    rw [State.imageByte, memory, State.writeBand, address, Nat.add_assoc, ← value]
    exact Table.get_setBlock_inside 0 s.images.memory _ _ canonical _ within
  · rw [State.imageByte, memory, State.writeBand, address]
    exact Table.get_setBlock_outside 0 s.images.memory _ a _ canonical (by rwa [length_bandBytes])

/-- A read band is the bytes held at its place. -/
theorem bandAt_eq {s : State} {g : Transfer} (c : Canonical s) : s.bandAt g.plate g.place = bandHeld s g := by
  obtain ⟨-, canonical⟩ := c
  have address : bandAddress g.plate g.place = g.plate * 65536 + g.place * 8192 := rfl
  rw [State.bandAt, Table.getBlock_eq 0 _ _ _ canonical, bandHeld, address, List.range'_eq_map_range, List.map_map]
  rfl

/-! ## The port while a channel works (R147) -/

/-- The port's transfer, the priority order and the mode stand as they were. -/
structure PortHeld (s t : State) : Prop where
  transfer : t.images.transfer = s.images.transfer
  order : t.images.order = s.images.order
  mode : t.images.mode = s.images.mode

theorem PortHeld.refl (s : State) : PortHeld s s := ⟨rfl, rfl, rfl⟩

theorem PortHeld.trans {s t u : State} (h : PortHeld s t) (k : PortHeld t u) : PortHeld s u :=
  ⟨k.transfer.trans h.transfer, k.order.trans h.order, k.mode.trans h.mode⟩

theorem PortHeld.busy {s t : State} (h : PortHeld s t) (busy : s.images.transfer ≠ none) : t.images.transfer ≠ none :=
  h.transfer ▸ busy

theorem portHeld_of_images {s t : State} (images : t.images = s.images) : PortHeld s t :=
  ⟨congrArg Images.transfer images, congrArg Images.order images, congrArg Images.mode images⟩

section Work

variable {d : Side} {s t : State} (held : PortHeld s t)

include held

theorem PortHeld.editCapture (f : CaptureChannel → CaptureChannel) : PortHeld s (t.editCapture d f) :=
  held.trans (by cases d <;> exact ⟨rfl, rfl, rfl⟩)

theorem PortHeld.editSide (f : DeskewSide → DeskewSide) : PortHeld s (t.editSide d f) :=
  held.trans (by cases d <;> exact ⟨rfl, rfl, rfl⟩)

theorem PortHeld.editTicket (ordinal : Word) (f : Ticket → Ticket) : PortHeld s (t.editTicket ordinal f) :=
  held.trans (portHeld_of_images rfl)

theorem PortHeld.closePlate (next : Option Nat) : PortHeld s (t.closePlate d next) := by
  obtain ⟨transfer, order, mode, -⟩ := same_close d next t
  exact held.trans ⟨transfer, order, mode⟩

theorem PortHeld.endCapture (ordinal : Word) (lost : Bool) : PortHeld s (t.endCapture d ordinal lost) := by
  rw [State.endCapture, complete_spec]
  exact ((held.closePlate none).editCapture _).trans (portHeld_of_images rfl)

theorem PortHeld.loseCapture (ordinal : Word) (cause : CaptureEnd) : PortHeld s (t.loseCapture d ordinal cause) := by
  rw [State.loseCapture, State.reportLoss]
  exact (((held.closePlate none).editCapture _).editTicket _ _).editSide _

theorem PortHeld.takePlate {u : State} {p : Nat} (taken : t.takePlate = some (p, u)) : PortHeld s u := by
  rw [State.takePlate] at taken
  split at taken
  · cases taken
    exact held.trans ⟨rfl, rfl, rfl⟩
  · cases taken

theorem PortHeld.requestCapture (busy : s.images.transfer ≠ none) : PortHeld s (t.requestCapture d) := by
  have asks := held.editCapture (d := d) fun c => { c with state := .requesting }
  rw [State.requestCapture, arb_held (asks.busy busy)]
  exact asks

theorem PortHeld.takeSidePlate (h : CaptureSide) (busy : s.images.transfer ≠ none) :
    PortHeld s (t.takeSidePlate d h) := by
  rw [State.takeSidePlate]
  split
  · exact held.loseCapture _ _
  · split
    · exact held.loseCapture _ _
    · rename_i taken
      exact ((((held.takePlate taken).closePlate _).editTicket _ _).editCapture _).requestCapture busy

end Work

theorem PortHeld.actOnQueue {d : Side} {s t : State} (fuel : Nat) (held : PortHeld s t)
    (busy : s.images.transfer ≠ none) : PortHeld s (t.actOnQueue d fuel) := by
  induction fuel generalizing t with
  | zero => exact held
  | succ fuel ih =>
    rw [State.actOnQueue]
    dsimp only
    split
    · exact held
    · split
      · exact held.editCapture _
      · exact ih ((held.editSide _).endCapture _ _)
      · split
        · exact held
        · split
          · exact (held.editCapture _).requestCapture busy
          · exact ih ((held.editCapture _).takeSidePlate _ busy)

/-! ## The port given on (R147) -/

/-- A granted transfer has completed: the port is free before the arbiter acts. -/
def portFreed (s : State) : State := { s with images.transfer := none }

/-- The arbiter does nothing, or grants a channel that asks. -/
theorem arbitrate_cases (u : State) : u.arbitrate = u ∨ ∃ c, u.asks c = true ∧ u.arbitrate = u.grant c := by
  rw [State.arbitrate]
  split
  · exact .inl rfl
  · split
    · rename_i c found
      have eligible : u.eligibleChannel c = true := List.find?_some found
      rw [State.eligibleChannel, Bool.and_eq_true] at eligible
      exact .inr ⟨c, eligible.1, rfl⟩
    · exact .inl rfl

section Given

variable {s : State}

theorem exec_bandTransferDone (s : State) : exec .bandTransferDone s = complete State.transferDone s := rfl

theorem transferDone_of_free (free : s.images.transfer = none) : s.transferDone = s := by
  rw [State.transferDone, free]

theorem transferDone_of_granted {g : Transfer} (granted : s.images.transfer = some g) : s.transferDone =
    (portFreed ((if g.channel.isCapture then s.writeBand g else s).channelWork g)).arbitrate := by
  rw [State.transferDone, granted]
  rfl

variable (s)

theorem capture_given {d : Side} (quiet : (s.capture d).state ≠ .requesting) :
    (portFreed s).arbitrate.capture d = s.capture d := by
  have free : (portFreed s).capture d = s.capture d := by cases d <;> rfl
  rcases cap_arb d (portFreed s) with same | ⟨asks, -⟩
  · exact same.trans free
  · rw [free] at asks
    exact absurd asks quiet

theorem side_given (d : Side) : (portFreed s).arbitrate.side d = s.side d :=
  (side_arb d _).trans (by cases d <;> rfl)

theorem record_given : (portFreed s).arbitrate.record = s.record := (congrArg State.record (arb_rest _) :)

theorem tracker_given : (portFreed s).arbitrate.tracker = s.tracker := (congrArg State.tracker (arb_rest _) :)

theorem free_given : (portFreed s).arbitrate.images.free = s.images.free := (arb_free _).trans rfl

theorem memory_given : (portFreed s).arbitrate.images.memory = s.images.memory := by
  obtain ⟨-, -, -, -, -, -, memory⟩ := arb_images (portFreed s)
  exact memory

theorem audit_given (quiet : s.images.audit.state ≠ .requesting) :
    (portFreed s).arbitrate.images.audit = s.images.audit := by
  rcases arbitrate_cases (portFreed s) with same | ⟨c, asks, grants⟩
  · rw [same]
    rfl
  · rw [grants]
    cases c with
    | audit => exact absurd (of_decide_eq_true asks) quiet
    | captureFront | captureBack | exporter => rfl

theorem exporter_given (quiet : s.images.exporter.state ≠ .requesting) :
    (portFreed s).arbitrate.images.exporter = s.images.exporter := by
  rcases arbitrate_cases (portFreed s) with same | ⟨c, asks, grants⟩
  · rw [same]
    rfl
  · rw [grants]
    cases c with
    | exporter => exact absurd (of_decide_eq_true asks) quiet
    | captureFront | captureBack | audit => rfl

end Given

end Sys2Proof.Proofs

/-! PROOFS. A granted band transfer of a capture channel completes (R142 to R146). -/

namespace Sys2Proof.Proofs

open Sys2Proof.Machine Sys2Proof.Safety Sys2Proof.Claims Sys2Proof.Laws Sys2Proof.Laws.Batches
  Sys2Proof.Laws.Bands

/-! ## The band counted -/

/-- The channel and the queue of a side once a band has been written (R143). -/
def bandCounted (d : Side) (g : Transfer) (s : State) : State :=
  (s.editCapture d fun c =>
    { c with state := .waiting, side := c.side.map (CaptureSide.afterBand g.lines) }).editSide d
    fun e => { e with queue := e.queue.tail }

/-- A capture channel at rest in HALTED (R146). -/
def frozen (d : Side) (s : State) : State := s.editCapture d fun c => { c with state := .frozen }

section Written

variable {d : Side} {g : Transfer} {s : State} {b : Band} {rest : List QueueItem}

theorem bandWritten_of_more (head : (s.side d).queue = .band b :: rest) (more : b.last = false) :
    s.bandWritten d g =
      if s.tracker.stopped then frozen d (bandCounted d g s) else (bandCounted d g s).serveQueue d := by
  rw [State.bandWritten, head]
  dsimp only
  rw [more]
  rfl

theorem bandWritten_of_last {h : CaptureSide} (head : (s.side d).queue = .band b :: rest) (last : b.last = true)
    (side : (s.capture d).side = some h) : s.bandWritten d g =
      if s.tracker.stopped then frozen d ((bandCounted d g s).endCapture d h.ordinal false)
      else ((bandCounted d g s).endCapture d h.ordinal false).serveQueue d := by
  rw [State.bandWritten, head]
  dsimp only
  rw [last, side]
  rfl

/-- A band written leads to the band counted, or the side ended with it, and then to rest or to the queue. -/
theorem bandWritten_shape (d : Side) (g : Transfer) (s : State) : ∃ settled,
    (settled = bandCounted d g s ∨ ∃ o, settled = (bandCounted d g s).endCapture d o false) ∧
    s.bandWritten d g = if s.tracker.stopped then frozen d settled else settled.serveQueue d := by
  cases queue : (s.side d).queue with
  | nil => exact ⟨_, .inl rfl, by rw [State.bandWritten, queue]; rfl⟩
  | cons item rest =>
    cases item with
    | ended o lost => exact ⟨_, .inl rfl, by rw [State.bandWritten, queue]; rfl⟩
    | band b =>
      cases last : b.last with
      | false => exact ⟨_, .inl rfl, bandWritten_of_more queue last⟩
      | true =>
        cases side : (s.capture d).side with
        | none => exact ⟨_, .inl rfl, by rw [State.bandWritten, queue, side]; dsimp only; rw [last]; rfl⟩
        | some h => exact ⟨_, .inr ⟨h.ordinal, rfl⟩, bandWritten_of_last queue last side⟩

variable (d g s)

theorem served_bandWritten : Served d s (s.bandWritten d g) := by
  have counted : Served d s (bandCounted d g s) := (served_editCapture d _ s).trans (served_editSide d _ _)
  obtain ⟨settled, shape, written⟩ := bandWritten_shape d g s
  have settles : Served d s settled := by
    rcases shape with rfl | ⟨o, rfl⟩
    · exact counted
    · exact counted.trans (served_endCapture d o false _)
  rw [written]
  exact .ite (settles.trans (served_editCapture d _ _)) (settles.trans (served_serveQueue d _))

variable {s}

theorem portHeld_bandWritten (busy : s.images.transfer ≠ none) : PortHeld s (s.bandWritten d g) := by
  have counted : PortHeld s (bandCounted d g s) := ((PortHeld.refl s).editCapture _).editSide _
  obtain ⟨settled, shape, written⟩ := bandWritten_shape d g s
  have settles : PortHeld s settled := by
    rcases shape with rfl | ⟨o, rfl⟩
    · exact counted
    · exact counted.endCapture o false
  rw [written]
  split
  · exact settles.editCapture _
  · exact settles.actOnQueue _ busy

end Written

/-! ## What the transfer rests on -/

/-- A side in hand with its band counted (R143), as the statement writes it. -/
theorem afterBand_eq {h : CaptureSide} {n : Nat} (lines : List ScanLine) (residue : h.residue = some n) :
    h.afterBand lines = { h with
      crc := crc16Extend h.crc (bandBytes lines)
      residue := if n = 0 then none else some (n - 1) } := by
  rw [CaptureSide.afterBand, residue]
  cases n <;> rfl

/-- The state with its band written and counted: the channel, the side and what they leave. -/
structure Counted (d : Side) (s k : State) (after : CaptureSide) (rest : List QueueItem) : Prop where
  capture : k.capture d = { s.capture d with state := .waiting, side := some after }
  side : k.side d = { s.side d with queue := rest }
  record : k.record = s.record
  tracker : k.tracker = s.tracker
  batch : k.batch = s.batch
  free : k.images.free = s.images.free
  canonical : Canonical s → Canonical k

theorem counted_of {d : Side} {g : Transfer} {s : State} {h : CaptureSide} {b : Band} {rest : List QueueItem}
    (side : (s.capture d).side = some h) (head : (s.side d).queue = .band b :: rest) :
    Counted d s (bandCounted d g (s.writeBand g)) (h.afterBand g.lines) rest := by
  have inner (c : CaptureChannel) (some' : c.side = some h) : ({ c with
      state := .waiting, side := c.side.map (CaptureSide.afterBand g.lines) } : CaptureChannel) =
      { c with state := .waiting, side := some (h.afterBand g.lines) } := by rw [some']; rfl
  have queue (e : DeskewSide) (head : e.queue = .band b :: rest) :
      ({ e with queue := e.queue.tail } : DeskewSide) = { e with queue := rest } := by rw [head]; rfl
  cases d with
  | front => exact ⟨inner s.images.front side, queue s.engine.front head, rfl, rfl, rfl, rfl,
      fun ⟨record, memory⟩ => ⟨record, Table.setBlock_wf _ _ _ _ memory⟩⟩
  | back => exact ⟨inner s.images.back side, queue s.engine.back head, rfl, rfl, rfl, rfl,
      fun ⟨record, memory⟩ => ⟨record, Table.setBlock_wf _ _ _ _ memory⟩⟩

/-! ## What the arbiter leaves behind the channel -/

section Given

variable {s x : State} {d : Side}

theorem plateClosed_congr {y : State} {h : CaptureSide} (record : y.record = x.record) (closed : PlateClosed s x d h) :
    PlateClosed s y d h := by
  obtain ⟨closes, stands⟩ := closed
  refine ⟨fun p current shut => ?_, fun done => record.trans (stands done)⟩
  obtain ⟨link, kept⟩ := closes p current shut
  exact ⟨(link_congr record p).trans link,
    RecordKept.trans kept (RecordKept.of_record record (a := []) (b := []) (c := []))⟩

theorem capture_given_of {c : CaptureChannel} (capture : x.capture d = c) (quiet : c.state ≠ .requesting) :
    (portFreed x).arbitrate.capture d = c :=
  (capture_given x (capture.symm ▸ quiet)).trans capture

theorem lostSideEnded_given {o : Word} {cause : CaptureEnd} (lost : LostSideEnded s x d o cause) :
    LostSideEnded s (portFreed x).arbitrate d o cause := by
  obtain ⟨capture, done⟩ := lost
  refine ⟨capture_given_of capture nofun, fun acts => ?_⟩
  rw [tracker_given]
  exact done acts

theorem sideLost_given {h : CaptureSide} {cause : CaptureEnd} {e : DeskewSide} (lost : SideLost s x d h cause e) :
    SideLost s (portFreed x).arbitrate d h cause e := by
  obtain ⟨plate, flags, taking, flushing, ended⟩ := lost
  refine ⟨plateClosed_congr (record_given x) plate, ?_, fun same state => ?_, fun same state alone => ?_,
    fun past => ?_⟩
  · rw [tracker_given]
    exact flags
  · obtain ⟨capture, side⟩ := taking same state
    exact ⟨capture_given_of capture nofun, (side_given x d).trans side⟩
  · obtain ⟨done, side⟩ := flushing same state alone
    exact ⟨lostSideEnded_given done, (side_given x d).trans side⟩
  · obtain ⟨done, side⟩ := ended past
    exact ⟨lostSideEnded_given done, (side_given x d).trans side⟩

/-- A channel that asks or was granted still does when the port is given on. -/
theorem asks_given {h : CaptureSide}
    (asks : ∃ state, (state = .requesting ∨ state = .transferring) ∧
      x.capture d = { s.capture d with state := state, side := some h }) : Asks s (portFreed x).arbitrate d h := by
  obtain ⟨state, busy, capture⟩ := asks
  have freed : (portFreed x).capture d = x.capture d := by cases d <;> rfl
  rcases cap_arb d (portFreed x) with same | ⟨-, granted⟩
  · exact ⟨state, busy, same.trans (freed.trans capture)⟩
  · exact ⟨.transferring, .inr rfl, granted.trans (by rw [freed, capture])⟩

end Given

/-! ## How the channel goes on (R142 to R146) -/

section GoesOn

variable {d : Side} {s k : State} {h after : CaptureSide} {rest : List QueueItem}
  (counted : Counted d s k after rest)

include counted

theorem waiting_of_counted : (k.capture d).state = .idle ∨ (k.capture d).state = .waiting := by
  rw [counted.capture]
  exact .inr rfl

theorem queue_of_counted : (k.side d).queue = rest := by
  rw [counted.side]

theorem acts_of_counted : k.acts = s.acts := acts_of counted.batch counted.tracker

/-- The channel at rest, in HALTED. -/
theorem frozen_goes : ((portFreed (frozen d k)).arbitrate.capture d =
      { s.capture d with state := .frozen, side := some after }) ∧
    (portFreed (frozen d k)).arbitrate.side d = { s.side d with queue := rest } ∧
    (portFreed (frozen d k)).arbitrate.record = s.record ∧
    (portFreed (frozen d k)).arbitrate.tracker = s.tracker := by
  have still : (frozen d k).side d = k.side d ∧ (frozen d k).record = k.record ∧ (frozen d k).tracker = k.tracker := by
    cases d <;> exact ⟨rfl, rfl, rfl⟩
  obtain ⟨side, record, tracker⟩ := still
  refine ⟨capture_given_of ?_ nofun, (side_given _ d).trans (side.trans counted.side),
    (record_given _).trans (record.trans counted.record), (tracker_given _).trans (tracker.trans counted.tracker)⟩
  rw [frozen, capture_edit, counted.capture]

/-- The channel waits on an empty queue. -/
theorem waits_goes (empty : rest = []) : (portFreed (k.serveQueue d)).arbitrate.capture d =
      { s.capture d with state := .waiting, side := some after } ∧
    (portFreed (k.serveQueue d)).arbitrate.side d = { s.side d with queue := [] } ∧
    (portFreed (k.serveQueue d)).arbitrate.record = s.record ∧
    (portFreed (k.serveQueue d)).arbitrate.tracker = s.tracker := by
  subst empty
  have served : k.serveQueue d = k.editCapture d fun c => { c with state := if c.side.isSome then .waiting else .idle } :=
    act_nil (waiting_of_counted counted) (queue_of_counted counted) _
  have still (f : CaptureChannel → CaptureChannel) : (k.editCapture d f).side d = k.side d ∧
      (k.editCapture d f).record = k.record ∧ (k.editCapture d f).tracker = k.tracker := by
    cases d <;> exact ⟨rfl, rfl, rfl⟩
  rw [served]
  obtain ⟨side, record, tracker⟩ := still fun c => { c with state := if c.side.isSome then .waiting else .idle }
  refine ⟨capture_given_of ?_ nofun, (side_given _ d).trans (side.trans counted.side),
    (record_given _).trans (record.trans counted.record), (tracker_given _).trans (tracker.trans counted.tracker)⟩
  rw [capture_edit, counted.capture]
  rfl

/-- The side in hand goes on to a band behind. -/
theorem inHand_of_counted {c : Band} (number : c.number ≠ 0) : inHand (k.capture d) c = after := by
  rw [inHand, counted.capture]
  exact if_neg number

theorem pendingEnd_of_counted (none : (s.capture d).pendingEnd = none) : (k.capture d).pendingEnd = .none := by
  rw [counted.capture]
  exact none

/-- The channel as it begins on a band behind. -/
theorem counted_begun : Counted d s (k.editCapture d fun c => { c with side := some after }) after rest := by
  obtain ⟨capture, side, record, tracker, batch, free, canonical⟩ := counted
  have still (f : CaptureChannel → CaptureChannel) : (k.editCapture d f).side d = k.side d ∧
      (k.editCapture d f).record = k.record ∧ (k.editCapture d f).tracker = k.tracker ∧
      (k.editCapture d f).batch = k.batch ∧ (k.editCapture d f).images.free = k.images.free ∧
      (k.editCapture d f).images.memory = k.images.memory := by
    cases d <;> exact ⟨rfl, rfl, rfl, rfl, rfl, rfl⟩
  obtain ⟨side', record', tracker', batch', free', memory⟩ := still fun c => { c with side := some after }
  refine ⟨?_, side'.trans side, record'.trans record, tracker'.trans tracker, batch'.trans batch, free'.trans free,
    fun can => ?_⟩
  · rw [capture_edit, capture]
  · obtain ⟨wf, image⟩ := canonical can
    exact ⟨record' ▸ wf, memory ▸ image⟩

theorem asks_goes {c : Band} {more : List QueueItem} {n : Nat} (next : rest = .band c :: more) (number : c.number ≠ 0)
    (none : (s.capture d).pendingEnd = none) (residue : after.residue = some n) :
    Asks s (portFreed (k.serveQueue d)).arbitrate d after ∧
    (portFreed (k.serveQueue d)).arbitrate.side d = { s.side d with queue := rest } ∧
    (portFreed (k.serveQueue d)).arbitrate.record = s.record := by
  have inHand := inHand_of_counted counted number
  have served : k.serveQueue d = (k.editCapture d fun c => { c with side := some after }).requestCapture d := by
    rw [State.serveQueue, act_ready (waiting_of_counted counted) ((queue_of_counted counted).trans next)
      (pendingEnd_of_counted counted none) (inHand.symm ▸ residue), inHand]
  have begun := counted_begun counted
  rw [served]
  generalize (k.editCapture d fun c => { c with side := some after }) = u at begun
  obtain ⟨state, busy, capture⟩ := req_cap d u _ begun.capture
  have side : (u.requestCapture d).side d = u.side d := by
    rw [State.requestCapture, side_arb]
    cases d <;> rfl
  have record : (u.requestCapture d).record = u.record := by
    rw [State.requestCapture, arb_rest]
    cases d <;> rfl
  exact ⟨asks_given ⟨state, busy, capture⟩, (side_given _ d).trans (side.trans begun.side),
    (record_given _).trans (record.trans begun.record)⟩

theorem fuel_of_counted {i : QueueItem} {more : List QueueItem} (next : rest = i :: more) :
    ∃ m, k.serveQueue d = k.actOnQueue d (m + 3) := by
  have length : (k.side d).queue.length = more.length + 1 := by rw [queue_of_counted counted, next, List.length_cons]
  refine ⟨2 * more.length + (k.side d).waiting.length + 1, ?_⟩
  rw [State.serveQueue, length]
  congr 1
  omega

/-- The channel comes to a band behind with its plate full. -/
theorem serve_fresh {c : Band} {more : List QueueItem} (next : rest = .band c :: more) (number : c.number ≠ 0)
    (none : (s.capture d).pendingEnd = none) (full : after.residue = .none) : ∃ m, k.serveQueue d =
      ((k.editCapture d fun c => { c with side := some after }).takeSidePlate d after).actOnQueue d (m + 2) := by
  have inHand := inHand_of_counted counted number
  obtain ⟨m, served⟩ := fuel_of_counted counted next
  refine ⟨m, ?_⟩
  rw [served, act_fresh (waiting_of_counted counted) ((queue_of_counted counted).trans next)
    (pendingEnd_of_counted counted none) (inHand.symm ▸ full), inHand]

theorem freshPlate_goes {c : Band} {more : List QueueItem} {p q : Nat} {free : FreeQueue}
    (next : rest = .band c :: more) (number : c.number ≠ 0) (none : (s.capture d).pendingEnd = none)
    (full : after.residue = .none) (some' : 0 < after.plates) (few : after.plates < 54)
    (current : after.current = some q) (opened : after.closed = false) (head : FreeHead s p free) (can : Canonical s) :
    Asks s (portFreed (k.serveQueue d)).arbitrate d { after with
      plates := after.plates + 1, current := some p, residue := some 7, crc := 0xFFFF, first := false } ∧
    (portFreed (k.serveQueue d)).arbitrate.side d = { s.side d with queue := rest } ∧
    (portFreed (k.serveQueue d)).arbitrate.images.free = free ∧
    PlateJoined s (portFreed (k.serveQueue d)).arbitrate d after.ordinal p ∧
    (portFreed (k.serveQueue d)).arbitrate.link q = ⟨some p, after.crc, 8, after.first, d⟩ ∧
    RecordKept s (portFreed (k.serveQueue d)).arbitrate [] [] [q] := by
  obtain ⟨m, served⟩ := serve_fresh counted next number none full
  have begun := counted_begun counted
  rw [served]
  generalize (k.editCapture d fun c => { c with side := some after }) = u at begun
  have freeHead : FreeHead u p free := by
    rw [FreeHead, begun.free, link_congr begun.record]
    exact head
  have took := take_fresh u d after p free (by rw [begun.capture]) few freeHead
  obtain ⟨⟨state, busy, capture⟩, side, taken, joined, link, -⟩ := took
  rw [act_busy (by rw [capture]; exact busy)]
  obtain ⟨linked, kept⟩ := link q current opened (begun.canonical can)
  have fresh : after.withPlate p = { after with
      plates := after.plates + 1, current := some p, residue := some 7, crc := 0xFFFF, first := false } := by
    rw [CaptureSide.withPlate, opened, decide_eq_false (Nat.ne_of_gt some')]
    rfl
  have used : after.used = 8 := by rw [CaptureSide.used, full]
  rw [fresh, begun.capture] at capture
  refine ⟨asks_given ⟨state, busy, capture⟩, (side_given _ d).trans (side.trans begun.side),
    (free_given _).trans taken, ?_, ?_, ?_⟩
  · rw [PlateJoined, tracker_given, ← begun.tracker]
    exact joined
  · rw [link_congr (record_given _), linked, used]
  · exact RecordKept.trans (RecordKept.of_record begun.record (a := []) (b := []) (c := []))
      (RecordKept.trans kept (RecordKept.of_record (record_given _) (a := []) (b := []) (c := [])))

theorem lost_goes {c : Band} {more : List QueueItem} {cause : CaptureEnd} (next : rest = .band c :: more)
    (number : c.number ≠ 0) (none : (s.capture d).pendingEnd = none) (full : after.residue = .none)
    (noPlate : NoPlate s after cause) (all : ∀ i ∈ rest, i.bandOf after.ordinal = true) (can : Canonical s) :
    SideLost s (portFreed (k.serveQueue d)).arbitrate d after cause { s.side d with queue := rest } := by
  obtain ⟨m, served⟩ := serve_fresh counted next number none full
  have begun := counted_begun counted
  rw [served]
  generalize (k.editCapture d fun c => { c with side := some after }) = u at begun
  have noPlate : NoPlate u after cause := by
    rw [NoPlate, begun.free]
    exact noPlate
  obtain ⟨lost, -⟩ := lost_spec d s u after cause { s.side d with queue := rest } m .waiting begun.capture begun.side
    begun.record (acts_of begun.batch begun.tracker) all (begun.canonical can) noPlate
  exact sideLost_given lost

theorem ended_goes {o : Word} (next : rest = [.ended o true]) (can : Canonical s) :
    PlateClosed s (portFreed (k.serveQueue d)).arbitrate d after ∧
    (portFreed (k.serveQueue d)).arbitrate.side d = { s.side d with queue := [] } ∧
    LostSideEnded s (portFreed (k.serveQueue d)).arbitrate d o ((s.capture d).pendingEnd.getD .bandOverrun) := by
  obtain ⟨m, served⟩ := fuel_of_counted counted next
  obtain ⟨⟨capture, done⟩, side, record, -⟩ := ended_spec (waiting_of_counted counted)
    ((queue_of_counted counted).trans next) (m + 1) _ served
  have closed : PlateClosed s (k.serveQueue d) d after :=
    plateClosed_of counted.record (by rw [counted.capture]) (counted.canonical can) record
  have ended : LostSideEnded s (k.serveQueue d) d o ((s.capture d).pendingEnd.getD .bandOverrun) := by
    refine ⟨capture.trans ?_, fun acts => done (acts_of_counted counted ▸ acts)⟩
    rw [counted.capture]
  exact ⟨plateClosed_congr (record_given _) closed,
    (side_given _ d).trans (side.trans (by rw [counted.side])), lostSideEnded_given ended⟩

/-- The side with its last band written, handed to rest or to its empty queue. -/
theorem last_goes {x : State} (empty : rest = []) (can : Canonical s)
    (shape : x = frozen d (k.endCapture d after.ordinal false) ∧ s.tracker.stopped = true ∨
      x = (k.endCapture d after.ordinal false).serveQueue d ∧ s.tracker.stopped = false) :
    (portFreed x).arbitrate.capture d =
      ⟨if s.tracker.stopped then .frozen else .idle, none, none, true, .normal⟩ ∧
    (portFreed x).arbitrate.side d = { s.side d with queue := [] } ∧
    PlateClosed s (portFreed x).arbitrate d after ∧
    (portFreed x).arbitrate.tracker =
      if s.acts then { s.tracker with train := changed s after.ordinal (sideDone s d) } else s.tracker := by
  subst empty
  obtain ⟨capture, side, record, -, -, tracker⟩ := end_spec d after.ordinal false k _ rfl
  generalize k.endCapture d after.ordinal false = e at capture side record tracker shape
  have edited (f : CaptureChannel → CaptureChannel) : (e.editCapture d f).side d = e.side d ∧
      (e.editCapture d f).record = e.record ∧ (e.editCapture d f).tracker = e.tracker := by
    cases d <;> exact ⟨rfl, rfl, rfl⟩
  have rests : ∃ f, x = e.editCapture d f ∧
      f ⟨.idle, none, none, true, .normal⟩ = ⟨if s.tracker.stopped then .frozen else .idle, none, none, true, .normal⟩ := by
    rcases shape with ⟨rfl, stopped⟩ | ⟨rfl, moving⟩
    · exact ⟨_, rfl, by rw [stopped]; rfl⟩
    · refine ⟨_, act_nil (.inl (by rw [capture])) (by rw [side, queue_of_counted counted]) _, ?_⟩
      rw [moving]
      rfl
  obtain ⟨f, rfl, after'⟩ := rests
  obtain ⟨side', record', tracker'⟩ := edited f
  have trains : changed k after.ordinal (sideDone k d) = changed s after.ordinal (sideDone s d) := by
    rw [changed, changed, counted.tracker]
    refine List.map_congr_left fun v _ => ?_
    rw [sideDone, sideDone, counted.batch]
  refine ⟨capture_given_of (by rw [capture_edit, capture]; exact after') ?_,
    (side_given _ d).trans (side'.trans (side.trans counted.side)), ?_, ?_⟩
  · cases s.tracker.stopped <;> nofun
  · exact plateClosed_congr (record_given _)
      (plateClosed_of counted.record (by rw [counted.capture]) (counted.canonical can) (record'.trans record))
  · rw [tracker_given, tracker', tracker, acts_of_counted counted, trains, counted.tracker]

end GoesOn

/-- How a capture channel goes on behind its transfer. -/
theorem captureGoesOn {s : State} {g : Transfer} {d : Side} {h : CaptureSide} {n : Nat} {b : Band}
    {rest : List QueueItem} (side : (s.capture d).side = some h) (residue : h.residue = some n)
    (head : (s.side d).queue = .band b :: rest) :
    CaptureGoesOn s (portFreed ((s.writeBand g).bandWritten d g)).arbitrate d g h n b rest := by
  have counted := counted_of (g := g) side head
  rw [afterBand_eq g.lines residue] at counted
  have more (m : b.last = false) := bandWritten_of_more (d := d) (g := g) (s := s.writeBand g) (b := b) (rest := rest)
    (by cases d <;> exact head) m
  have last (l : b.last = true) := bandWritten_of_last (d := d) (g := g) (s := s.writeBand g) (b := b) (rest := rest)
    (h := h) (by cases d <;> exact head) l (by cases d <;> exact side)
  have stopped : (s.writeBand g).tracker.stopped = s.tracker.stopped := rfl
  rw [stopped] at more last
  refine ⟨fun m halted => ?_, fun m moving empty => ?_, fun c others m moving next number none some' => ?_,
    fun c others p q free m moving next number none full plates few current opened freeHead can => ?_,
    fun q l empty current opened can => ?_, fun c others cause m moving next number none full noPlate all can => ?_,
    fun m moving next can => ?_⟩
  · rw [more m, halted]
    exact frozen_goes counted
  · rw [more m, moving]
    exact waits_goes counted empty
  · rw [more m, moving]
    exact asks_goes counted next number none (n := n - 1) (if_neg some')
  · rw [more m, moving]
    exact freshPlate_goes counted next number none (if_pos full) plates few current opened freeHead can
  · have shape : (s.writeBand g).bandWritten d g =
          frozen d ((bandCounted d g (s.writeBand g)).endCapture d h.ordinal false) ∧ s.tracker.stopped = true ∨
        (s.writeBand g).bandWritten d g =
          ((bandCounted d g (s.writeBand g)).endCapture d h.ordinal false).serveQueue d ∧
            s.tracker.stopped = false := by
      rw [last l]
      cases s.tracker.stopped
      · exact .inr ⟨rfl, rfl⟩
      · exact .inl ⟨rfl, rfl⟩
    obtain ⟨capture, queue, closed, tracker⟩ := last_goes counted empty can shape
    obtain ⟨closes, -⟩ := closed
    obtain ⟨link, kept⟩ := closes q current opened
    refine ⟨capture, queue, link.trans ?_, kept, fun acts => tracker.trans (if_pos acts),
      fun still => tracker.trans (if_neg (ne_true_of_eq_false still))⟩
    cases n with
    | zero => rfl
    | succ m =>
      have used : 8 - (m + 1) = 7 - m := by omega
      rw [used]
      rfl
  · rw [more m, moving]
    exact lost_goes counted next number none (if_pos full) noPlate all can
  · rw [more m, moving]
    exact ended_goes counted next can

end Sys2Proof.Proofs

/-! PROOFS. A granted read of the audit or of the transfer-out channel completes (R150, R155, R156, R159, R160), and what
every completion keeps (R147). -/

namespace Sys2Proof.Proofs

open Sys2Proof.Machine Sys2Proof.Safety Sys2Proof.Claims Sys2Proof.Laws Sys2Proof.Laws.Batches
  Sys2Proof.Laws.Bands

/-! ## The audit goes on (R155, R156) -/

section Audit

theorem auditRun_afterBand {r : AuditRun} {n : Nat} (bytes : List Byte) (residue : r.residue = some n) :
    r.afterBand bytes = { r with
      crc := crc16Extend r.crc bytes, residue := if n = 0 then none else some (n - 1) } := by
  rw [AuditRun.afterBand, residue]
  cases n <;> rfl

theorem unchanged_given {but : List Part} {s u : State} (images : .images ∈ but) (same : Unchanged but s u) :
    Unchanged but s (portFreed u).arbitrate :=
  unchanged_arbitrate images
    (unchanged_trans same (unchanged_mono (but := [.images]) (by simp [images]) (by simp [Unchanged, portFreed])))

/-- The audit reads on: it asks for its next band, and may be given the port. -/
theorem auditReads_given (s : State) (run : AuditRun) :
    ((portFreed (s.setAudit .requesting run)).arbitrate.images.audit.state = .requesting ∨
      (portFreed (s.setAudit .requesting run)).arbitrate.images.audit.state = .transferring) ∧
    (portFreed (s.setAudit .requesting run)).arbitrate.images.audit.run = some run ∧
    Unchanged [.images] s (portFreed (s.setAudit .requesting run)).arbitrate :=
  ⟨arbitrate_audit_state rfl, arbitrate_audit_run _,
    unchanged_given (by simp) (by simp [Unchanged, State.setAudit])⟩

/-- The audit has ended by its result. -/
theorem auditEnds_given (s : State) (run : AuditRun) (result : AuditResult) (failing : Nat) {t : State}
    (given : t = (portFreed (s.endAudit run result failing)).arbitrate) :
    t.images.audit.state = .idle ∧ t.images.audit.run = none ∧ t.images.audit.endFlag = true ∧
    t.images.audit.endCause = .complete ∧ t.folio = { s.folio with auditMark := none } ∧
    (s.images.audit.kept = none → VerifyDonePosted s t (.verifyDone result run.folio failing run.checked)) ∧
    t.port.replies = s.port.replies ∧ Unchanged [.port, .folio, .images] s t := by
  have posted := verifyDonePosted_endAudit (s := s) (u := s) rfl rfl run result failing
  obtain ⟨notices, kept, frame⟩ := endAudit_frame run result failing s
  rw [frame] at given posted
  have audit := audit_given { auditEnded s with port.notices := notices, images.audit.kept := kept } nofun
  have port := arbitrate_port
    (portFreed { auditEnded s with port.notices := notices, images.audit.kept := kept })
  have folio := congrArg State.folio (arb_rest
    (portFreed { auditEnded s with port.notices := notices, images.audit.kept := kept }))
  rw [← given] at audit port folio
  refine ⟨(congrArg AuditChannel.state audit :), (congrArg AuditChannel.run audit :),
    (congrArg AuditChannel.endFlag audit :), (congrArg AuditChannel.endCause audit :), folio, fun _ => ?_,
    (congrArg Port.replies port :), given ▸ unchanged_given (by simp) (by simp [Unchanged, auditEnded])⟩
  rw [VerifyDonePosted, port, audit]
  exact posted

/-- An audit run with a plate's last band read (R155). -/
def plateRead (r : AuditRun) (crc : Word) : AuditRun := { r with crc := crc, residue := none }

variable {s : State} {g : Transfer} {r : AuditRun}

theorem bandAudited_eq (run : s.images.audit.run = some r) {n : Nat} (residue : r.residue = some n)
    {bytes : List Byte} (read : s.bandAt g.plate g.place = bytes) :
    s.bandAudited g =
      if n = 0 then
        if crc16Extend r.crc bytes = r.storedCheck then
          s.walkAudit (plateRead r (crc16Extend r.crc bytes)).pass (r.plateCount + 1)
        else s.endAudit (plateRead r (crc16Extend r.crc bytes)) .plateMismatch r.taken
      else (s.setAudit .requesting
        { r with crc := crc16Extend r.crc bytes, residue := some (n - 1) }).arbitrate := by
  rw [State.bandAudited, run]
  dsimp only
  rw [read, auditRun_afterBand _ residue]
  generalize crc16Extend r.crc bytes = crc
  cases n <;> rfl

/-- How the audit goes on behind its read. -/
theorem auditGoesOn {n : Nat} (granted : s.images.transfer = some g) (run : s.images.audit.run = some r)
    (residue : r.residue = some n) (c : Canonical s) :
    AuditGoesOn s (portFreed (s.bandAudited g)).arbitrate g r n := by
  have busy (run : AuditRun) : (s.setAudit .requesting run).arbitrate = s.setAudit .requesting run :=
    arb_held (by rw [State.setAudit, granted]; nofun)
  have written := bandAudited_eq (g := g) run residue (bandAt_eq c)
  rw [AuditGoesOn]
  generalize crc16Extend r.crc (bandHeld s g) = crc at written ⊢
  refine ⟨fun more => ?_, fun last differs => ?_, fun last same all => ?_, fun q last same more current broken => ?_,
    fun p q last same more current next bands => ?_⟩
  · rw [if_neg more, busy] at written
    rw [written]
    exact auditReads_given s _
  all_goals rw [if_pos last] at written
  · rw [if_neg differs] at written
    exact auditEnds_given s _ .plateMismatch r.taken (congrArg (fun w => (portFreed w).arbitrate) written)
  all_goals rw [if_pos same] at written
  · rw [walkAudit_ends (r := (plateRead r crc).pass) all] at written
    exact auditEnds_given s _ _ 0 (congrArg (fun w => (portFreed w).arbitrate) written)
  · have none : s.nextPlate r.plateHead r.current = .none := by rw [current]; exact broken
    rw [walkAudit_broken (r := (plateRead r crc).pass) more none] at written
    exact auditEnds_given s _ .plateMismatch (r.taken + 1) (congrArg (fun w => (portFreed w).arbitrate) written)
  · have plate : s.nextPlate r.plateHead r.current = some p := by rw [current]; exact next
    rw [walkAudit_takes (r := (plateRead r crc).pass) more plate bands, busy] at written
    rw [written]
    exact auditReads_given s _

end Audit

/-! ## The stream goes on (R159, R160) -/

section Export

/-- The words of consecutive bytes, pair by pair. -/
theorem byteWords_range (f : Nat → Byte) (n : Nat) {m : Nat} (even : m = 2 * n) :
    byteWords ((List.range m).map f) = (List.range n).map fun k => f (2 * k) ++ f (2 * k + 1) := by
  subst even
  induction n generalizing f with
  | zero => rfl
  | succ n ih =>
    have pairs : (List.range (2 * (n + 1))).map f =
        f 0 :: f 1 :: (List.range (2 * n)).map fun k => f (k + 2) := by
      rw [show 2 * (n + 1) = 2 * n + 1 + 1 by omega, List.range_succ_eq_map, List.range_succ_eq_map]
      simp
    rw [pairs, byteWords, ih, List.range_succ_eq_map]
    simp [Function.comp_def, Nat.mul_add]

/-- The words of a band held at the place of a read. -/
def wordsHeld (s : State) (g : Transfer) : List Word :=
  (List.range 4096).map fun k =>
    s.imageByte (g.plate * 65536 + g.place * 8192 + 2 * k) ++
      s.imageByte (g.plate * 65536 + g.place * 8192 + 2 * k + 1)

theorem byteWords_bandHeld (s : State) (g : Transfer) : byteWords (bandHeld s g) = wordsHeld s g := by
  rw [bandHeld, wordsHeld]
  simp only [Nat.add_assoc _ (2 * _) 1]
  exact byteWords_range (fun j => s.imageByte (g.plate * 65536 + g.place * 8192 + j)) 4096 rfl

theorem length_wordsHeld (s : State) (g : Transfer) : (wordsHeld s g).length = 4096 := by
  rw [wordsHeld, List.length_map, List.length_range]

variable {s : State} {g : Transfer} {r : ExportRun}

/-- The state with a read band's words placed and its run counted on. -/
def bandPlaced (words : List Word) (r : ExportRun) (s : State) : State := (s.placeWords words).setExport .waiting r

theorem bandExported_eq {n : Nat} {words : List Word} (run : s.images.exporter.run = some r)
    (residue : r.residue = some n) (read : byteWords (s.bandAt g.plate g.place) = words) : s.bandExported g =
      (bandPlaced words { r with residue := if n = 0 then none else some (n - 1) } s).placeItems
        { r with residue := if n = 0 then none else some (n - 1) } (3 * r.plateCount + 8) := by
  have next : (match r.residue with
      | some (m + 1) => some m
      | _ => none) = if n = 0 then none else some (n - 1) := by
    rw [residue]
    cases n <;> rfl
  rw [State.bandExported, run]
  dsimp only
  rw [read]
  exact (congrArg (fun x => ((s.placeWords words).setExport .waiting { r with residue := x }).serveExport) next).trans
    (serveExport_of_waiting (s := bandPlaced words _ s) rfl rfl)

theorem arbitrate_exporter_run (u : State) : u.arbitrate.images.exporter.run = u.images.exporter.run := by
  obtain ⟨-, -, -, exporter, -⟩ := arb_images u
  exact (congrArg ExportChannel.run exporter :)

theorem arbitrate_exporter_state {u : State}
    (asks : u.images.exporter.state = .requesting ∨ u.images.exporter.state = .transferring) :
    u.arbitrate.images.exporter.state = .requesting ∨ u.arbitrate.images.exporter.state = .transferring := by
  obtain ⟨-, -, -, -, same | granted, -⟩ := arb_images u
  · rwa [same]
  · exact .inr granted

theorem exports_given (x : State) : (portFreed x).arbitrate.port = x.port := arbitrate_port _

theorem waiting_given {x : State} (waiting : x.images.exporter.state = .waiting) :
    (portFreed x).arbitrate.images.exporter = x.images.exporter :=
  exporter_given x (by rw [waiting]; nofun)

theorem awaitsBand_given {x : State} {run : ExportRun} {words : Nat} (awaits : AwaitsBand x run words) :
    AwaitsBand (portFreed x).arbitrate run words := by
  obtain ⟨kept, waits, asks⟩ := awaits
  refine ⟨(arbitrate_exporter_run _).trans kept, fun full => ?_,
    fun room => arbitrate_exporter_state (u := portFreed x) (asks room)⟩
  rw [waiting_given (waits full)]
  exact waits full

theorem plateTaken_given {x : State} {p : Nat} {placed : List Word} (taken : PlateTaken s x r p placed) :
    PlateTaken s (portFreed x).arbitrate r p placed := by
  obtain ⟨bare, headed⟩ := taken
  refine ⟨fun inside => ?_, fun rest start plates room => ?_⟩
  · obtain ⟨exports, awaits⟩ := bare inside
    exact ⟨(congrArg Port.exports (exports_given x)).trans exports, awaitsBand_given awaits⟩
  · obtain ⟨fits, full⟩ := headed rest start plates room
    refine ⟨fun few => ?_, fun many => ?_⟩
    · obtain ⟨exports, awaits⟩ := fits few
      exact ⟨(congrArg Port.exports (exports_given x)).trans exports, awaitsBand_given awaits⟩
    · obtain ⟨exports, run, waiting⟩ := full many
      exact ⟨(congrArg Port.exports (exports_given x)).trans exports, (arbitrate_exporter_run _).trans run,
        (congrArg ExportChannel.state (waiting_given waiting)).trans waiting⟩

/-- The stream's end word, placed behind a run's last plate or where its chain breaks. -/
theorem endWord_given {u : State} {run : ExportRun} {n : Nat} {short : Bool} (item : run.item = .endWord short)
    (room : u.port.exports.length < 8192) :
    (portFreed (u.placeItems run (n + 1))).arbitrate.port =
      { u.port with exports := u.port.exports ++ [if short then 0x5AE1 else 0x5AE0] } ∧
    (portFreed (u.placeItems run (n + 1))).arbitrate.images.exporter.run = some { run with item := .done } ∧
    (portFreed (u.placeItems run (n + 1))).arbitrate.images.exporter.state = .waiting := by
  rw [placeItems_endWord item, if_pos ((fits_iff Nat.one_pos).mpr room), exports_given, waiting_given rfl]
  exact ⟨rfl, rfl, rfl⟩

/-- The band behind the one read, asked for where it fits. -/
theorem nextBand_given {u : State} {run : ExportRun} {n k : Nat} (item : run.item = .band)
    (residue : run.residue = some k) :
    (portFreed (u.placeItems run (n + 1))).arbitrate.port = u.port ∧
    AwaitsBand (portFreed (u.placeItems run (n + 1))).arbitrate run u.port.exports.length := by
  obtain ⟨exports, awaits⟩ := placeBand (u := u) (n := n) item residue
  have streamed := streamed_placeItems (n + 1) run u
  have port := congrArg State.port streamed.rest
  rw [exports] at port
  exact ⟨(exports_given _).trans port, awaitsBand_given awaits⟩

/-- How the stream goes on behind a read. -/
theorem exportGoesOn {n : Nat} (run : s.images.exporter.run = some r) (item : r.item = .band)
    (residue : r.residue = some n) (c : Canonical s) :
    ExportGoesOn s (portFreed (s.begin.bandExported g)).arbitrate g r n := by
  have written := bandExported_eq (s := s.begin) (g := g) run residue
    ((congrArg byteWords (bandAt_eq (s := s.begin) c)).trans (byteWords_bandHeld s.begin g))
  have length := length_wordsHeld s g
  rw [show wordsHeld s.begin g = wordsHeld s g from rfl] at written
  rw [ExportGoesOn]
  change (s.port.exports ++ wordsHeld s g <+: _) ∧ (n ≠ 0 → _ = { s.port with exports := s.port.exports ++ wordsHeld s g } ∧ _) ∧
    (_ → _ → _ → _ = { s.port with exports := s.port.exports ++ wordsHeld s g ++ [0x5AE0] } ∧ _) ∧
    (∀ q, _ → _ → _ → _ → _ → _ = { s.port with exports := s.port.exports ++ wordsHeld s g ++ [0x5AE1] } ∧ _) ∧
    (∀ p q, _ → _ → _ → _ → _ → PlateTaken s _ r p (s.port.exports ++ wordsHeld s g)) ∧ _
  generalize wordsHeld s g = words at written length ⊢
  have unchanged : Unchanged [.port, .images] s (portFreed (s.begin.bandExported g)).arbitrate := by
    rw [written]
    exact unchanged_given (by simp) (unchanged_streamed (by simp) (by simp)
      (by simp [Unchanged, bandPlaced, State.placeWords, State.setExport]) (streamed_placeItems _ _ _))
  refine ⟨?_, fun more => ?_, fun last all room => ?_, fun q last more current broken room => ?_,
    fun p q last more current next bands => ?_, unchanged⟩
  · rw [written, exports_given]
    exact (streamed_placeItems (3 * r.plateCount + 8) _ (bandPlaced words _ s.begin)).words
  · rw [if_neg more] at written
    obtain ⟨port, kept, waits, asks⟩ := nextBand_given (u := bandPlaced words { r with residue := some (n - 1) } s.begin)
      (run := { r with residue := some (n - 1) }) (n := 3 * r.plateCount + 7) item rfl
    have placed : (bandPlaced words { r with residue := some (n - 1) } s.begin).port.exports.length =
        s.port.exports.length + 4096 := by
      rw [← length]
      exact List.length_append
    rw [placed] at waits asks
    rw [written]
    refine ⟨port, kept, fun empty => asks ?_, fun held => waits ?_⟩
    · rw [empty, List.length_nil]
    · have some' := List.length_pos_iff.mpr held
      omega
  all_goals rw [if_pos last] at written
  all_goals rw [written, placeItems_band_spent (r := { r with residue := none }) item rfl]
  · have fits : (bandPlaced words { r with residue := none } s.begin).port.exports.length < 8192 := by
      refine (List.length_append (as := s.port.exports) (bs := words)).trans_lt ?_
      omega
    rw [placeItems_plate_done (r := { r with residue := none, item := .plate }) rfl all]
    exact endWord_given (run := { r with residue := none, item := .endWord false }) rfl fits
  · have fits : (bandPlaced words { r with residue := none } s.begin).port.exports.length < 8192 := by
      refine (List.length_append (as := s.port.exports) (bs := words)).trans_lt ?_
      omega
    have none : (bandPlaced words { r with residue := .none } s.begin).nextPlate r.plateHead r.current = .none := by
      rw [current]
      exact broken
    rw [placeItems_plate_broken (r := { r with residue := .none, item := .plate }) rfl more none]
    exact endWord_given (run := { r with residue := .none, item := .endWord true }) rfl fits
  · have plate : (bandPlaced words { r with residue := none } s.begin).nextPlate r.plateHead r.current = some p := by
      rw [current]
      exact next
    exact plateTaken_given (plateTaken_of (s := s) (u := bandPlaced words { r with residue := none } s.begin)
      (r := { r with residue := none, item := .plate }) (n := 3 * r.plateCount + 4) (fun _ => rfl) rfl more plate bands)

end Export

end Sys2Proof.Proofs

/-! PROOFS. A granted band transfer completes, on every channel (R142 to R147, R150, R155, R160). -/

namespace Sys2Proof.Proofs

open Sys2Proof.Machine Sys2Proof.Safety Sys2Proof.Claims Sys2Proof.Laws Sys2Proof.Laws.Batches
  Sys2Proof.Laws.Bands

/-! ## What every channel's work keeps -/

/-- A channel's work while the port is held: image memory's bytes, the port's holder and the blocks that a transfer
does not concern stand as they were. -/
structure Worked (s t : State) : Prop where
  held : PortHeld s t
  memory : t.images.memory = s.images.memory
  batch : t.batch = s.batch
  lines : t.lines = s.lines
  assembler : t.assembler = s.assembler
  evaluator : t.evaluator = s.evaluator
  pending : t.pending = s.pending

theorem Worked.refl (s : State) : Worked s s := ⟨.refl s, rfl, rfl, rfl, rfl, rfl, rfl⟩

theorem worked_endAudit (r : AuditRun) (result : AuditResult) (failing : Nat) (s : State) :
    Worked s (s.endAudit r result failing) := by
  obtain ⟨notices, kept, frame⟩ := endAudit_frame r result failing s
  rw [frame]
  exact ⟨⟨rfl, rfl, rfl⟩, rfl, rfl, rfl, rfl, rfl, rfl⟩

section Busy

variable {s : State} (busy : s.images.transfer ≠ none)

include busy

theorem worked_asksAudit (r : AuditRun) : Worked s (s.setAudit .requesting r).arbitrate := by
  rw [arb_held (s := s.setAudit .requesting r) busy]
  exact ⟨⟨rfl, rfl, rfl⟩, rfl, rfl, rfl, rfl, rfl, rfl⟩

theorem worked_walkAudit (fuel : Nat) (r : AuditRun) : Worked s (s.walkAudit r fuel) := by
  induction fuel generalizing r with
  | zero => exact .refl s
  | succ fuel ih =>
    rw [State.walkAudit]
    dsimp only
    split
    · exact worked_endAudit _ _ _ s
    · split
      · exact worked_endAudit _ _ _ s
      · split
        · exact worked_asksAudit busy _
        · split
          · exact ih _
          · exact worked_endAudit _ _ _ s

theorem worked_bandAudited (g : Transfer) : Worked s (s.bandAudited g) := by
  rw [State.bandAudited]
  dsimp only
  split
  · exact .refl s
  · split
    · exact worked_asksAudit busy _
    · split
      · exact worked_walkAudit busy _ _
      · exact worked_endAudit _ _ _ s

theorem worked_streamed {r : ExportRun} {t : State} (h : Streamed r s t) : Worked s t := by
  have images := h.still busy
  have rest := h.rest
  exact ⟨⟨(congrArg Images.transfer images :), (congrArg Images.order images :), (congrArg Images.mode images :)⟩,
    h.memory, (congrArg State.batch rest :), (congrArg State.lines rest :), (congrArg State.assembler rest :),
    (congrArg State.evaluator rest :), (congrArg State.pending rest :)⟩

theorem worked_bandWritten (d : Side) (g : Transfer) : Worked s (s.bandWritten d g) := by
  have served := served_bandWritten d g s
  have rest := served.rest
  exact ⟨portHeld_bandWritten d g busy, served.memory, (congrArg State.batch rest :), (congrArg State.lines rest :),
    (congrArg State.assembler rest :), (congrArg State.evaluator rest :), (congrArg State.pending rest :)⟩

end Busy

theorem Worked.trans {s t u : State} (h : Worked s t) (k : Worked t u) : Worked s u :=
  ⟨h.held.trans k.held, k.memory.trans h.memory, k.batch.trans h.batch, k.lines.trans h.lines,
    k.assembler.trans h.assembler, k.evaluator.trans h.evaluator, k.pending.trans h.pending⟩

theorem worked_placed {s : State} (busy : s.images.transfer ≠ none) (words : List Word) (r : ExportRun) :
    Worked s (bandPlaced words r s).serveExport := by
  have placed : Worked s (bandPlaced words r s) := ⟨⟨rfl, rfl, rfl⟩, rfl, rfl, rfl, rfl, rfl, rfl⟩
  rcases serveExport_cases (r := r) (s := bandPlaced words r s) rfl with still | streamed
  · rwa [still]
  · exact placed.trans (worked_streamed (s := bandPlaced words r s) busy streamed)

theorem worked_bandExported {s : State} (busy : s.images.transfer ≠ none) (g : Transfer) :
    Worked s (s.bandExported g) := by
  rw [State.bandExported]
  split
  · exact .refl s
  · exact worked_placed busy _ _

theorem worked_channelWork {s : State} (busy : s.images.transfer ≠ none) (g : Transfer) :
    Worked s (s.channelWork g) := by
  obtain ⟨channel, plate, place, lines, orphan⟩ := g
  cases orphan with
  | false =>
    cases channel with
    | captureFront => exact worked_bandWritten busy .front _
    | captureBack => exact worked_bandWritten busy .back _
    | audit => exact worked_bandAudited busy _
    | exporter => exact worked_bandExported busy _
  | true =>
    cases channel with
    | captureFront | captureBack => exact .refl s
    | audit | exporter => exact ⟨⟨rfl, rfl, rfl⟩, rfl, rfl, rfl, rfl, rfl, rfl⟩

/-! ## Every completion (R143, R147) -/

section Done

variable {s : State} {g : Transfer}

theorem after_transferDone (granted : s.images.transfer = some g) {holds : State → Prop}
    (after : holds (portFreed ((if g.channel.isCapture then s.begin.writeBand g else s.begin).channelWork g)).arbitrate) :
    After .bandTransferDone s holds := by
  apply after_of_complete (exec_bandTransferDone s)
  rw [transferDone_of_granted (s := s.begin) granted]
  exact after

theorem isCapture_channelOf (d : Side) : (channelOf d).isCapture = true := by
  cases d <;> rfl

theorem transferDone_keeps (granted : s.images.transfer = some g) : After .bandTransferDone s fun t =>
    (g.channel = .audit ∨ g.channel = .exporter → t.images.memory = s.images.memory) ∧
    (Canonical s → ∀ d, g.channel = channelOf d → BandStored s t g) ∧
    t.pending = s.pending ∧ t.batch = s.batch ∧ t.lines = s.lines ∧ t.assembler = s.assembler ∧
    t.evaluator = s.evaluator ∧ PortGiven s t := by
  refine after_transferDone granted ?_
  have memory : g.channel = .audit ∨ g.channel = .exporter →
      (if g.channel.isCapture then s.begin.writeBand g else s.begin) = s.begin := by
    rintro (channel | channel) <;> exact if_neg (by rw [channel]; decide)
  have stored : ∀ d, g.channel = channelOf d →
      (if g.channel.isCapture then s.begin.writeBand g else s.begin) = s.begin.writeBand g := fun d channel =>
    if_pos (by rw [channel, isCapture_channelOf])
  have base : ∃ m, (if g.channel.isCapture then s.begin.writeBand g else s.begin) =
      { s.begin with images.memory := m } := by
    split
    · exact ⟨_, rfl⟩
    · exact ⟨s.images.memory, rfl⟩
  generalize (if g.channel.isCapture then s.begin.writeBand g else s.begin) = w at memory stored base ⊢
  have transfer : w.images.transfer ≠ none := by
    obtain ⟨m, rfl⟩ := base
    exact fun free => nomatch granted.symm.trans free
  have worked := worked_channelWork transfer g
  refine ⟨fun reads => ?_, fun c d channel => bandStored_of_memory (s := s) c ?_, ?_⟩
  · rw [memory_given, worked.memory, memory reads]
    rfl
  · rw [memory_given, worked.memory, stored d channel]
    rfl
  · obtain ⟨m, rfl⟩ := base
    have rest := arb_rest (portFreed (State.channelWork g { s.begin with images.memory := m }))
    exact ⟨(congrArg State.pending rest).trans worked.pending, (congrArg State.batch rest).trans worked.batch,
      (congrArg State.lines rest).trans worked.lines, (congrArg State.assembler rest).trans worked.assembler,
      (congrArg State.evaluator rest).trans worked.evaluator,
      portGiven_of (s := s) worked.held.mode worked.held.order rfl⟩

theorem isCapture_reads (reads : g.channel = .audit ∨ g.channel = .exporter) : g.channel.isCapture = false := by
  rcases reads with channel | channel <;> rw [channel] <;> rfl

theorem transferDone_capture {d : Side} {h : CaptureSide} {n : Nat} {b : Band} {rest : List QueueItem}
    (granted : s.images.transfer = some g) (channel : g.channel = channelOf d) (kept : g.orphan = false)
    (side : (s.capture d).side = some h) (residue : h.residue = some n) (head : (s.side d).queue = .band b :: rest) :
    After .bandTransferDone s fun t => CaptureGoesOn s t d g h n b rest := by
  refine after_transferDone granted ?_
  have work : (s.begin.writeBand g).channelWork g = (s.begin.writeBand g).bandWritten d g := by
    rw [State.channelWork, channel, kept]
    cases d <;> rfl
  rw [if_pos (channel ▸ isCapture_channelOf d), work]
  exact captureGoesOn (s := s.begin) side residue head

theorem transferDone_audit {r : AuditRun} {n : Nat} (granted : s.images.transfer = some g)
    (channel : g.channel = .audit) (kept : g.orphan = false) (run : s.images.audit.run = some r)
    (residue : r.residue = some n) (c : Canonical s) :
    After .bandTransferDone s fun t => AuditGoesOn s t g r n := by
  refine after_transferDone granted ?_
  have work : s.begin.channelWork g = s.begin.bandAudited g := by rw [State.channelWork, channel, kept]
  rw [isCapture_reads (.inl channel), if_neg nofun, work]
  exact auditGoesOn (s := s.begin) granted run residue c

theorem transferDone_export {r : ExportRun} {n : Nat} (granted : s.images.transfer = some g)
    (channel : g.channel = .exporter) (kept : g.orphan = false) (run : s.images.exporter.run = some r)
    (item : r.item = .band) (residue : r.residue = some n) (c : Canonical s) :
    After .bandTransferDone s fun t => ExportGoesOn s t g r n := by
  refine after_transferDone granted ?_
  have work : s.begin.channelWork g = s.begin.bandExported g := by rw [State.channelWork, channel, kept]
  rw [isCapture_reads (.inr channel), if_neg nofun, work]
  exact exportGoesOn run item residue c

end Done

/-! ## Transfers no channel waits for (R146, R150) -/

section Orphan

variable {s u : State} {g : Transfer}

theorem arbitrate_quiet (none : ∀ c, ¬ u.eligibleChannel c = true) : u.arbitrate = u := by
  rcases arbitrate_cases u with same | ⟨c, -, -⟩
  · exact same
  · rw [State.arbitrate]
    split
    · rfl
    · rw [List.find?_eq_none.mpr fun c _ => none c]

theorem arbitrate_first {before after : List Channel} {c : Channel} (free : u.images.transfer = none)
    (order : u.images.order = before ++ c :: after) (eligible : u.eligibleChannel c = true)
    (above : ∀ b ∈ before, ¬ u.eligibleChannel b = true) : u.arbitrate = u.grant c := by
  have found : u.images.order.find? u.eligibleChannel = some c := by
    rw [List.find?_eq_some_iff_append]
    exact ⟨eligible, before, after, order, fun b mem => by simpa using above b mem⟩
  rw [State.arbitrate, free]
  dsimp only
  rw [found]

theorem transferOf_orphan (u : State) (c : Channel) : (u.transferOf c).orphan = false := by
  unfold State.transferOf
  cases c <;> dsimp only <;> split <;> rfl

/-- The state behind a discarded read: no channel waits for it, and the port is free. -/
def readDropped (g : Transfer) (s : State) : State :=
  { s with images := { s.images with
      transfer := none
      audit.state := if g.channel = .audit then .idle else s.images.audit.state
      exporter.state := if g.channel = .exporter then .idle else s.images.exporter.state } }

theorem eligible_readDropped (reads : g.channel = .audit ∨ g.channel = .exporter) (c : Channel) :
    (readDropped g s).eligibleChannel c = true ↔ c ≠ g.channel ∧ Grantable s c := by
  rw [← grantable_iff]
  rcases reads with channel | channel <;> cases c <;> simp [Grantable, State.asks, readDropped, channel]

theorem after_readDropped (granted : s.images.transfer = some g) (dropped : g.orphan = true)
    (reads : g.channel = .audit ∨ g.channel = .exporter) {holds : State → Prop}
    (after : holds (readDropped g s.begin).arbitrate) : After .bandTransferDone s holds := by
  refine after_transferDone granted ?_
  rw [isCapture_reads reads, if_neg nofun]
  have work : portFreed (s.begin.channelWork g) = readDropped g s.begin := by
    rw [State.channelWork, dropped, readDropped]
    rcases reads with channel | channel <;> rw [channel] <;> rfl
  rwa [work]

theorem unchanged_readDropped (g : Transfer) (s : State) : Unchanged [.images] s (readDropped g s.begin) := by
  simp [Unchanged, readDropped]

theorem transferDone_dropped (granted : s.images.transfer = some g) (dropped : g.orphan = true)
    (reads : g.channel = .audit ∨ g.channel = .exporter) :
    let idle : Images := { s.images with
      transfer := none
      audit.state := if g.channel = .audit then .idle else s.images.audit.state
      exporter.state := if g.channel = .exporter then .idle else s.images.exporter.state }
    let next (c : Channel) : Prop := c ≠ g.channel ∧ Grantable s c
    ((∀ c, ¬ next c) → After .bandTransferDone s fun t =>
      t.images = idle ∧ Unchanged [.images] s t) ∧
    (∀ before c after, s.images.order = before ++ c :: after → next c → (∀ b ∈ before, ¬ next b) →
      After .bandTransferDone s fun t =>
        (∃ k, t.images.transfer = some k ∧ k.channel = c ∧ k.orphan = false) ∧
        t.images.order = orderGranted s c ∧ Unchanged [.images] s t) := by
  have eligible := eligible_readDropped (s := s.begin) reads
  refine ⟨fun quiet => after_readDropped granted dropped reads ?_,
    fun before c after order next above => after_readDropped granted dropped reads ?_⟩
  · rw [arbitrate_quiet fun c chosen => quiet c ((eligible c).mp chosen)]
    exact ⟨rfl, unchanged_readDropped g s⟩
  · have given := arbitrate_first (u := readDropped g s.begin) rfl order ((eligible c).mpr next)
      fun b mem chosen => above b mem ((eligible b).mp chosen)
    have same := unchanged_arbitrate (by simp) (unchanged_readDropped g s)
    rw [given] at same ⊢
    exact ⟨⟨_, rfl, transferOf_channel _ _, transferOf_orphan _ _⟩, orderAfter_eq (readDropped g s.begin) c, same⟩

theorem transferDone_cleared {d : Side} (granted : s.images.transfer = some g) (dropped : g.orphan = true)
    (channel : g.channel = channelOf d) (quiet : ∀ c, s.asks c = false) : After .bandTransferDone s fun t =>
      t.images = { s.images with transfer := none, memory := t.images.memory } ∧ Unchanged [.images] s t := by
  refine after_transferDone granted ?_
  have work : (s.begin.writeBand g).channelWork g = s.begin.writeBand g := by
    rw [State.channelWork, channel, dropped]
    cases d <;> rfl
  have none (c : Channel) : ¬ (portFreed (s.begin.writeBand g)).eligibleChannel c = true := by
    have asks : (portFreed (s.begin.writeBand g)).asks c = s.asks c := by cases c <;> rfl
    rw [State.eligibleChannel, asks, quiet c]
    nofun
  rw [if_pos (channel ▸ isCapture_channelOf d), work, arbitrate_quiet none]
  exact ⟨rfl, by simp [Unchanged, portFreed, State.writeBand]⟩

end Orphan

/-- Settles O46. -/
theorem bandTransferCompletes : Obligations.BandTransferCompletes := by
  unfold Obligations.BandTransferCompletes
  intro s
  refine ⟨fun free => ?_, fun g granted => transferDone_keeps granted,
    fun g d h n b rest granted channel kept side residue head =>
      transferDone_capture granted channel kept side residue head,
    fun g r n granted channel kept run residue c => transferDone_audit granted channel kept run residue c,
    fun g r n granted channel kept run item residue c =>
      transferDone_export granted channel kept run item residue c,
    fun g granted dropped reads => transferDone_dropped granted dropped reads,
    fun g d granted dropped channel quiet => transferDone_cleared granted dropped channel quiet⟩
  apply after_of_complete (exec_bandTransferDone s)
  rw [transferDone_of_free (s := s.begin) free]
  exact unchanged_begin [] s

end Sys2Proof.Proofs

/-! PROOFS. The batch's requests but START BATCH (R165 to R168, R171, R174, R176). -/

namespace Sys2Proof.Proofs

open Sys2Proof.Machine Sys2Proof.Safety Sys2Proof.Claims Sys2Proof.Laws Sys2Proof.Laws.Batches
  Sys2Proof.Laws.Decisions

/-! ## READ BATCH (R168, R176) -/

theorem exec_readBatch (tag : Tag) (s : State) :
    exec (.readBatch tag) s = request (largestReply 0x65) tag ownerReadBatch s := rfl

theorem pack_causes (c : HoldCauses) (fields : List (Nat × Nat)) : pack ((7, c.code) :: fields) =
    pack ((1, bit c.paused) :: (1, bit c.feederEmpty) :: (1, bit c.jamRecovered) :: (1, bit c.trayLimit) ::
      (1, bit c.noTray) :: (1, bit c.tableFull) :: (1, bit c.rejectFull) :: fields) := by
  have isBit : ∀ b, bit b % 2 = bit b := by decide
  have isCode : c.code % 128 = c.code := by
    obtain ⟨a, b, c, d, e, f, g⟩ := c
    revert a b c d e f g
    decide
  refine congrArg word ?_
  simp only [packBelow_cons, Nat.reducePow, isBit, isCode, Nat.reduceSub]
  rw [HoldCauses.code]
  ring

theorem plateReserve_eq (s : State) : s.plateReserve = 108 * ((s.tracker.train.countP fun u =>
    u.stage = .entered || u.stage = .gauged || u.stage = .scanning) + 1) := by
  have capturing : Ticket.capturing = fun u =>
      decide (u.stage = .entered) || decide (u.stage = .gauged) || decide (u.stage = .scanning) := by
    funext u
    cases h : u.stage <;> simp [Ticket.capturing, h]
  rw [State.plateReserve, capturing]
  rfl

/-- A sheet covers the entry sensor, or too little belt has passed since the last one left it (R124). -/
def pitchWaits (s : State) : Bool :=
  match s.tracker.lastEntryTrailing with
  | none => false
  | some c => s.tracker.train.any (fun u => u.length.isNone) ||
      decide ((s.tracker.travel - c).toNat < s.tracker.profile[14])

theorem not_pitchPassed (s : State) : (!s.pitchPassed) = pitchWaits s := by
  rw [State.pitchPassed, pitchWaits]
  rcases s.tracker.lastEntryTrailing with - | c
  · rfl
  · rw [State.entryCovered, State.minimumPitch, Bool.not_and, Bool.not_not, ← decide_not, decide_eq_decide.mpr Nat.not_le]

theorem shownWaits_eq (s : State) :
    let shown := decide (s.batch.state = .running ∧ s.batch.feeder = .atRest)
    s.shownWaits = ⟨shown && 6 ≤ s.tracker.train.length, shown && pitchWaits s,
      shown && s.images.free.length < s.plateReserve,
      shown && 16 - s.port.notices.length < s.tracker.train.length + 2⟩ := by
  intro shown
  rw [State.shownWaits]
  split
  · next h => rw [show shown = true from decide_eq_true h, State.waits, not_pitchPassed]; rfl
  · next h => rw [show shown = false from decide_eq_false h]; rfl

theorem feeding_eq (s : State) :
    bit s.feeding = match s.batch.feeder with | .atRest => 0 | .feeding _ => 1 := by
  rw [State.feeding]
  cases s.batch.feeder <;> rfl

/-- Settles O50. -/
theorem readBatchAnswers : Obligations.ReadBatchAnswers := by
  unfold Obligations.ReadBatchAnswers
  intro s tag takes shown least pitch capturing
  have words : ownerReadBatch s.begin = (s.begin, okWith
      ([pack [(3, s.batch.state.code), (2, haltField s.batch.haltCause), (1, bit s.batch.stopTaken),
          (1, bit s.feeding), (1, bit s.batch.duplex), (4, s.batch.cls.toNat)],
        pack [(7, s.batch.causes.code), (1, bit s.shownWaits.trainFull), (1, bit s.shownWaits.pitch),
          (1, bit s.shownWaits.plates), (1, bit s.shownWaits.notices)]] ++
      twoWords s.batch.matter ++ [word s.batch.fed, word s.batch.rejected, word s.batch.opened])) := rfl
  rw [shownWaits_eq, pack_causes, feeding_eq, plateReserve_eq] at words
  have reads := (reads_of_owner (exec_readBatch tag s) takes words :)
  exact reads

/-! ## The level of a pin (R180) -/

section Pin

variable {s : State} {l : LineIx}

theorem pinLevel_of_latch (out : s.lines.settings[l].output = true)
    (latched : (outputFunction l && s.lines.settings[l].enabled) = false) :
    s.pinLevel l = s.lines.settings[l].latch :=
  (if_pos out).trans (if_neg (ne_true_of_eq_false latched))

theorem pinLevel_of_board (inward : s.lines.settings[l].output = false) : s.pinLevel l =
    match s.lines.board[l] with
    | .low => false
    | .high => true
    | .released => if s.lines.settings[l].pull then !s.lines.settings[l].activeHigh
        else Config.floatingPin l.val s.draws :=
  if_neg (ne_true_of_eq_false inward)

theorem pinLevel_of_high (inward : s.lines.settings[l].output = false) (high : s.lines.board[l] = .high) :
    s.pinLevel l = true := by
  rw [pinLevel_of_board inward, high]

theorem pinLevel_of_low (inward : s.lines.settings[l].output = false) (low : s.lines.board[l] = .low) :
    s.pinLevel l = false := by
  rw [pinLevel_of_board inward, low]

theorem pinLevel_of_pull (inward : s.lines.settings[l].output = false) (released : s.lines.board[l] = .released)
    (pull : s.lines.settings[l].pull = true) : s.pinLevel l = !s.lines.settings[l].activeHigh := by
  rw [pinLevel_of_board inward, released]
  exact if_pos pull

end Pin

/-! ## PAUSE FEED and RESUME FEED (R165 to R167) -/

theorem exec_pauseFeed (tag : Tag) (s : State) :
    exec (.pauseFeed tag) s = request (largestReply 0x61) tag ownerPauseFeed s := rfl

theorem exec_resumeFeed (tag : Tag) (s : State) :
    exec (.resumeFeed tag) s = request (largestReply 0x62) tag ownerResumeFeed s := rfl

section Raise

variable {s : State} {causes : HoldCauses} (some : causes.isEmpty = false)

include some

theorem raise_of_running (running : s.batch.state = .running) :
    s.raise causes = s.enterFeedHold (s.batch.causes.or causes) := by
  rw [State.raise, if_neg (ne_true_of_eq_false some), running]

theorem raise_of_feedHold (hold : s.batch.state = .feedHold) :
    s.raise causes = { s with batch.causes := s.batch.causes.or causes } := by
  rw [State.raise, if_neg (ne_true_of_eq_false some), hold]

end Raise

theorem or_paused (c : HoldCauses) : c.or { paused := true } = { c with paused := true } := by
  simp [HoldCauses.or]

/-- The entry to FEED HOLD: the batch holds with its causes, its notice is posted or kept, and nothing else has
changed. -/
theorem enterFeedHold_spec (causes : HoldCauses) (s : State) :
    (s.enterFeedHold causes).batch = { s.batch with
      state := .feedHold, causes := causes, kept := (s.enterFeedHold causes).batch.kept } ∧
    BatchNotice s (s.enterFeedHold causes)
      (.feedHold causes s.batch.fed s.batch.rejected s.batch.opened) ∧
    (s.enterFeedHold causes).port.replies = s.port.replies ∧
    Unchanged [.port, .batch] s (s.enterFeedHold causes) := by
  have notice := batchNotice_post s { s with batch.state := .feedHold, batch.causes := causes }
    (.feedHold causes s.batch.fed s.batch.rejected s.batch.opened) rfl rfl
  have frame := postBatch_frame { s with batch.state := .feedHold, batch.causes := causes }
    (.feedHold causes s.batch.fed s.batch.rejected s.batch.opened)
  rw [State.enterFeedHold]
  refine ⟨(congrArg State.batch frame :), notice, (congrArg (fun t : State => t.port.replies) frame :), ?_⟩
  rw [frame]
  simp [Unchanged]

theorem batchNotice_answer {s t : State} {n : Notice} (h : BatchNotice s t n) (tag : Tag) (r : Reply) :
    BatchNotice s (t.answer tag r) n :=
  ⟨fun none room => ⟨congrArg (fun p : Port => { p with replies := t.port.replies ++ r.words tag })
      (h.1 none room).1, (h.1 none room).2⟩,
    fun full => ⟨congrArg (fun p : Port => { p with replies := t.port.replies ++ r.words tag }) (h.2 full).1,
      (h.2 full).2⟩⟩

theorem replies_answer {s t : State} (h : t.port.replies = s.port.replies) (tag : Tag) (r : Reply) :
    (t.answer tag r).port.replies = s.port.replies ++ replyWords r.code.number tag r.results := by
  rw [← words_eq_replyWords, ← h]
  rfl

theorem ownerPauseFeed_of_feedHold {s : State} (hold : s.batch.state = .feedHold) :
    ownerPauseFeed s = ({ s with batch.causes := { s.batch.causes with paused := true } },
      okWith [pack [(7, { s.batch.causes with paused := true : HoldCauses }.code)]]) := by
  rw [ownerPauseFeed, hold]
  dsimp only
  rw [raise_of_feedHold rfl hold, or_paused]
  rfl

theorem ownerPauseFeed_of_running {s : State} (running : s.batch.state = .running) :
    ownerPauseFeed s = (s.enterFeedHold { s.batch.causes with paused := true },
      okWith [pack [(7, { s.batch.causes with paused := true : HoldCauses }.code)]]) := by
  obtain ⟨batch, -⟩ := enterFeedHold_spec { s.batch.causes with paused := true } s
  rw [ownerPauseFeed, running]
  dsimp only
  rw [raise_of_running rfl running, or_paused, batch]
  rfl

theorem ownerPauseFeed_of_other {s : State} (notRunning : s.batch.state ≠ .running)
    (notHold : s.batch.state ≠ .feedHold) : ownerPauseFeed s = refused .state s := by
  rw [ownerPauseFeed]
  cases h : s.batch.state
  · rfl
  · exact absurd h notRunning
  · exact absurd h notHold
  · rfl
  · rfl

theorem pauseFeed_pauses (s : State) (tag : Tag) (takes : Takes 2 s) :
    (s.batch.state ≠ .running → s.batch.state ≠ .feedHold → Reads (.pauseFeed tag) s 8 tag []) ∧
    (s.batch.state = .feedHold → After (.pauseFeed tag) s fun t =>
      t.batch = { s.batch with causes := { s.batch.causes with paused := true } } ∧
      (∃ ws, Answers s t 0 tag [ws] ∧
        ws = pack [(7, { s.batch.causes with paused := true : HoldCauses }.code)]) ∧
      Unchanged [.port, .batch] s t) ∧
    (s.batch.state = .running → After (.pauseFeed tag) s fun t =>
      t.batch = { s.batch with
        state := .feedHold, causes := { s.batch.causes with paused := true },
        kept := t.batch.kept } ∧
      BatchNotice s t (.feedHold { s.batch.causes with paused := true } s.batch.fed
        s.batch.rejected s.batch.opened) ∧
      t.port.replies = s.port.replies ++ replyWords 0 tag
        [pack [(7, { s.batch.causes with paused := true : HoldCauses }.code)]] ∧
      Unchanged [.port, .batch] s t) := by
  have run := exec_pauseFeed tag s
  refine ⟨fun notRunning notHold => reads_of_refused .state run takes
      (ownerPauseFeed_of_other (s := s.begin) notRunning notHold),
    fun hold => after_of_owner run takes (ownerPauseFeed_of_feedHold (s := s.begin) hold)
      ⟨rfl, ⟨_, answers_of_port rfl tag _, rfl⟩, by simp [Unchanged]⟩,
    fun running => after_of_owner run takes (ownerPauseFeed_of_running (s := s.begin) running) ?_⟩
  obtain ⟨batch, notice, replies, unchanged⟩ :=
    enterFeedHold_spec { s.batch.causes with paused := true } s.begin
  exact ⟨batch, batchNotice_answer (s := s) notice tag _, replies_answer (s := s) replies tag _,
    unchanged_answer (s := s) (by decide) unchanged tag _⟩

theorem trayLimitStands_iff (s : State) : s.trayLimitStands = true ↔
    ∃ d, s.assembler.openDocument = some d ∧ s.assembler.trays[d.tray].hard ≤
      s.assembler.trays[d.tray].fill + s.assembler.trays[d.tray].committed +
        s.tracker.train.countP fun u => u.stage ≠ .decided := by
  rw [State.trayLimitStands]
  rcases s.assembler.openDocument with - | d
  · simp
  · simp only [Option.some.injEq, exists_eq_left', decide_eq_true_eq]
    rfl

theorem eligible_iff (t : Tray) : t.eligible = true ↔ t.mounted = true ∧ t.fill + t.committed < t.soft := by
  rw [Tray.eligible, Bool.and_eq_true, decide_eq_true_eq, Tray.sum]

theorem someTrayEligible_iff (s : State) : s.someTrayEligible = true ↔ ∃ k : TrayIx,
    s.assembler.trays[k].mounted = true ∧
      s.assembler.trays[k].fill + s.assembler.trays[k].committed < s.assembler.trays[k].soft := by
  rw [State.someTrayEligible]
  simp only [Bool.or_eq_true, eligible_iff, Fin.exists_fin_succ, IsEmpty.exists_iff, or_false, or_assoc]
  rfl

section Left

variable (s : State)

theorem causesLeft_trayLimit : s.causesLeft.trayLimit = true ↔ s.batch.causes.trayLimit = true ∧
    ∃ d, s.assembler.openDocument = some d ∧ s.assembler.trays[d.tray].hard ≤
      s.assembler.trays[d.tray].fill + s.assembler.trays[d.tray].committed +
        s.tracker.train.countP fun u => u.stage ≠ .decided :=
  Bool.and_eq_true_iff.trans (and_congr_right' (trayLimitStands_iff s))

theorem causesLeft_noTray : s.causesLeft.noTray = true ↔ s.batch.causes.noTray = true ∧ ∀ k : TrayIx,
    ¬ (s.assembler.trays[k].mounted = true ∧
      s.assembler.trays[k].fill + s.assembler.trays[k].committed < s.assembler.trays[k].soft) := by
  rw [State.causesLeft, Bool.and_eq_true_iff, Bool.not_eq_true', ← Bool.not_eq_true, someTrayEligible_iff,
    not_exists]

theorem causesLeft_tableFull : s.causesLeft.tableFull = true ↔
    s.batch.causes.tableFull = true ∧ s.folio.freeSlots = 0 :=
  Bool.and_eq_true_iff.trans (and_congr_right' decide_eq_true_iff)

theorem causesLeft_rejectFull {level : Bool} (is : s.pinLevel 11 = level) : s.causesLeft.rejectFull = true ↔
    s.batch.causes.rejectFull = true ∧ s.lines.settings[(11 : LineIx)].enabled = true ∧
      level = s.lines.settings[(11 : LineIx)].activeHigh := by
  rw [← is]
  exact Bool.and_eq_true_iff.trans (and_congr_right'
    (Bool.and_eq_true_iff.trans (and_congr_right' decide_eq_true_iff)))

end Left

/-- Settles O48. -/
theorem pauseAndResume : Obligations.PauseAndResume := by
  unfold Obligations.PauseAndResume
  refine ⟨pauseFeed_pauses, fun s tag takes => ?_⟩
  have run := exec_resumeFeed tag s
  refine ⟨fun other => reads_of_refused .state run takes (if_pos other),
    fun hold kept => reads_of_refused .busy run takes ((if_neg (not_not.mpr hold)).trans (if_pos kept)),
    fun hold kept => after_of_owner run takes
      ((if_neg (not_not.mpr hold)).trans (if_neg (not_not.mpr kept))) ?_⟩
  set l := s.lines.settings[(11 : LineIx)]
  refine ⟨⟨rfl, rfl, rfl⟩, causesLeft_trayLimit s.begin, causesLeft_noTray s.begin, causesLeft_tableFull s.begin,
    ⟨causesLeft_rejectFull s.begin rfl,
      fun out => causesLeft_rejectFull s.begin (pinLevel_of_latch (s := s.begin) out rfl),
      fun inward high => causesLeft_rejectFull s.begin (pinLevel_of_high (s := s.begin) inward high),
      fun inward low => causesLeft_rejectFull s.begin (pinLevel_of_low (s := s.begin) inward low),
      fun inward released pull => causesLeft_rejectFull s.begin (pinLevel_of_pull (s := s.begin) inward released pull)⟩,
    ?_, answers_of_port rfl tag _, rfl, by simp [Unchanged]⟩
  by_cases none : s.begin.causesLeft = {}
  · exact (if_pos (decide_eq_true none)).trans (if_pos none).symm
  · exact (if_neg (ne_true_of_eq_false (decide_eq_false none))).trans (if_neg none).symm

/-! ## The batch's end: the open document closed and IDLE entered (R65, R66, R172) -/

theorem closeRecord_frame (n : Nat) (s : State) : ∃ record journal notices kept, s.closeRecord n =
    { s with record := record, journal := journal, port.notices := notices, folio.kept := kept } :=
  ⟨_, _, _, _, (close_spec s n).rest⟩

theorem closeDocument_frame (m : Option Bool) (s : State) : ∃ record journal notices kept assembler,
    s.closeDocument m = { s with record := record, journal := journal, port.notices := notices,
                                 folio.kept := kept, assembler := assembler } := by
  cases h : s.assembler.openDocument with
  | none => exact ⟨_, _, _, _, _, closeDoc_none s m h⟩
  | some d =>
    obtain ⟨record, journal, notices, kept, frame⟩ := closeRecord_frame (d.folio.toNat / 16) s
    rw [closeDoc_eq s m d h, frame]
    exact ⟨record, journal, notices, kept, _, rfl⟩

theorem openDocument_closeDocument (m : Option Bool) (s : State) :
    (s.closeDocument m).assembler.openDocument = none := by
  cases h : s.assembler.openDocument with
  | none => rw [closeDoc_none s m h, h]
  | some d => rw [closeDoc_eq s m d h]

/-- A state in which nothing but the close of another's open document has been done. -/
def closedFrom (s u : State) : State :=
  { s with port := (u.closeDocument none).port, folio := (u.closeDocument none).folio,
           record := (u.closeDocument none).record, assembler := (u.closeDocument none).assembler }

theorem openClosed_closedFrom {s u : State} (c : Canonical u) (port : u.port = s.port)
    (folio : u.folio = s.folio) (record : u.record = s.record) (assembler : u.assembler = s.assembler) :
    OpenClosed s (closedFrom s u) :=
  openClosed_congr (openClosed_close u u c (Unchanged.rfl (s := u))) port.symm folio.symm record.symm assembler.symm
    rfl rfl rfl rfl (by simp [Unchanged, closedFrom])

theorem unchanged_closedFrom {s u : State} (evaluator : u.evaluator = s.evaluator) (tracker : u.tracker = s.tracker)
    (engine : u.engine = s.engine) (images : u.images = s.images) (lines : u.lines = s.lines)
    (pending : u.pending = s.pending) : Unchanged [.port, .batch] (closedFrom s u) (u.closeDocument none) := by
  obtain ⟨_, _, _, _, _, closed⟩ := closeDocument_frame none u
  refine unchanged_of (.inl (by decide)) (.inr rfl) (.inr rfl) (.inr rfl) (.inr ?_) (.inr ?_) (.inr ?_) (.inr ?_)
    (.inl (by decide)) (.inr ?_) ?_ <;> rw [closed] <;> assumption

theorem enterIdle_frame (kind : EndKind) (u : State) : ∃ record journal index notices kept,
    u.enterIdle kind = { u with
      record := record
      journal := journal
      folio.index := index
      port.notices := notices
      batch := { u.batch with state := .idle, haltCause := none, causes := {}, stopTaken := false,
                              feeder := .atRest, kept := kept }
      tracker.stallTimer := none } := by
  rw [State.enterIdle]
  obtain ⟨record, journal, index, unpinned⟩ := unpin_frame { u with
    batch.state := .idle, batch.haltCause := none, batch.causes := {}, batch.stopTaken := false
    batch.feeder := .atRest, tracker.stallTimer := none }
  rw [postBatch_frame, unpinned]
  exact ⟨record, journal, index, _, _, rfl⟩

theorem batchOver_answer {s t : State} {kind : EndKind} (h : BatchOver s t kind) (tag : Tag) (r : Reply) :
    BatchOver s (t.answer tag r) kind := by
  obtain ⟨⟨batch, notice, timer⟩, unpinned⟩ := h
  exact ⟨⟨batch, batchNotice_answer notice tag r, timer⟩, matterUnpinned_congr unpinned rfl rfl rfl rfl rfl⟩

/-! ## STOP BATCH (R65, R171, R172) -/

theorem exec_stopBatch (tag : Tag) (s : State) :
    exec (.stopBatch tag) s = request (largestReply 0x63) tag ownerStopBatch s := rfl

theorem ownerStopBatch_of_other {s : State} (notRunning : s.batch.state ≠ .running)
    (notHold : s.batch.state ≠ .feedHold) : ownerStopBatch s = refused .state s := by
  rw [ownerStopBatch]
  cases h : s.batch.state
  · rfl
  · exact absurd h notRunning
  · exact absurd h notHold
  · rfl
  · rfl

/-- The batch drains, its stop taken. -/
def draining (s : State) : State := { s with batch.state := .draining, batch.stopTaken := true }

theorem ownerStopBatch_of_fed {s : State} (fed : s.batch.state = .running ∨ s.batch.state = .feedHold) :
    ownerStopBatch s = ((draining s).drainClose.endDrain, okWith [packOne 3 s.tracker.train.length]) := by
  rw [ownerStopBatch]
  rcases fed with h | h <;> rw [h] <;> rfl

theorem drainClose_of_unruled {s : State} (some : s.tracker.train.any s.unruled = true) : s.drainClose = s :=
  if_neg fun h => h.2 some

theorem drainClose_of_draining {s : State} (drains : s.batch.state = .draining)
    (ruled : ¬ s.tracker.train.any s.unruled = true) : s.drainClose = s.closeDocument none :=
  if_pos ⟨drains, ruled⟩

theorem unruled_iff (s : State) (v : Ticket) : s.unruled v = true ↔ Unruled s v := by
  rw [State.unruled, Unruled, Bool.and_eq_true_iff, Bool.not_eq_true', State.outcomeStands, List.any_eq_false]
  simp [Ticket.undecided]

theorem endDrain_of_not {s : State} (busy : ¬ (s.tracker.train = [] ∧ s.batch.feeder = .atRest)) :
    s.endDrain = s :=
  if_neg fun h => busy h.2

theorem endDrain_of_empty {s : State} (drains : s.batch.state = .draining) (empty : s.tracker.train = [])
    (rests : s.batch.feeder = .atRest) : s.endDrain = s.enterIdle .drained :=
  if_pos ⟨drains, empty, rests⟩

/-- An IDLE entered right behind the close of the open document. -/
theorem enterIdle_closed (kind : EndKind) (u : State) :
    let t := (u.closeDocument none).enterIdle kind
    t.batch.state = .idle ∧ t.batch.haltCause = none ∧ t.batch.causes = {} ∧ t.batch.stopTaken = false ∧
      t.assembler = (u.closeDocument none).assembler ∧ t.assembler.openDocument = none ∧
      t.tracker = { u.tracker with stallTimer := none } ∧ t.port.replies = u.port.replies ∧
      t.images = u.images ∧ t.engine = u.engine ∧ t.evaluator = u.evaluator ∧ t.lines = u.lines := by
  have shut := openDocument_closeDocument none u
  obtain ⟨_, _, _, _, assembler, closed⟩ := closeDocument_frame none u
  obtain ⟨_, _, _, _, _, idle⟩ := enterIdle_frame kind (u.closeDocument none)
  intro t
  have frame : t = _ := idle
  rw [closed] at frame shut
  rw [frame, closed]
  exact ⟨rfl, rfl, rfl, rfl, rfl, shut, rfl, rfl, rfl, rfl, rfl, rfl⟩

/-- The batch is over in such a state, counted from the close alone. -/
theorem batchOver_closed {s u : State} (c : Canonical u) (kind : EndKind)
    (batch : u.batch = { s.batch with
      state := u.batch.state, haltCause := u.batch.haltCause, causes := u.batch.causes
      stopTaken := u.batch.stopTaken, feeder := u.batch.feeder }) :
    BatchOver (closedFrom s u) ((u.closeDocument none).enterIdle kind) kind := by
  have canonical := (quiet_closeDocument none u).canonical c
  refine batchOver_spec (closedFrom s u) (u.closeDocument none) kind rfl rfl rfl ?_ canonical
  obtain ⟨_, _, _, _, _, closed⟩ := closeDocument_frame none u
  rw [closed]
  exact batch

theorem stopBatch_of_fed (s : State) (tag : Tag) (takes : Takes 2 s)
    (fed : s.batch.state = .running ∨ s.batch.state = .feedHold) {t : State}
    (next : (draining s.begin).drainClose.endDrain = t) {holds : State → Prop}
    (after : holds (t.answer tag (okWith [pack [(3, s.tracker.train.length)]]))) :
    After (.stopBatch tag) s holds := by
  subst next
  exact after_of_owner (exec_stopBatch tag s) takes (ownerStopBatch_of_fed (s := s.begin) fed) after

theorem stopBatch_stops (s : State) (tag : Tag) (takes : Takes 2 s) :
    (s.batch.state ≠ .running → s.batch.state ≠ .feedHold → Reads (.stopBatch tag) s 8 tag []) ∧
    (s.batch.state = .running ∨ s.batch.state = .feedHold →
      s.tracker.train.any s.unruled = true →
      After (.stopBatch tag) s fun t =>
        Answers s t 0 tag [pack [(3, s.tracker.train.length)]] ∧
        t.batch = { s.batch with state := .draining, stopTaken := true } ∧
        Unchanged [.port, .batch] s t) ∧
    (s.batch.state = .running ∨ s.batch.state = .feedHold → s.tracker.train = [] →
      s.batch.feeder = .atRest → After (.stopBatch tag) s fun t =>
        t.batch.state = .idle ∧ t.batch.causes = {} ∧ t.batch.stopTaken = false ∧
        t.assembler.openDocument = none ∧ t.tracker.stallTimer = none ∧
        t.port.replies = s.port.replies ++ replyWords 0 tag [0] ∧
        t.images = s.images ∧ t.engine = s.engine ∧ t.evaluator = s.evaluator ∧
        t.lines = s.lines ∧
        (Canonical s → ∃ c, OpenClosed s c ∧ BatchOver c t .drained ∧
          t.assembler = c.assembler ∧ t.tracker = { s.tracker with stallTimer := none })) ∧
    (s.batch.state = .running ∨ s.batch.state = .feedHold → Canonical s →
      (∀ v ∈ s.tracker.train, ¬ Unruled s v) →
      ¬ (s.tracker.train = [] ∧ s.batch.feeder = .atRest) → After (.stopBatch tag) s fun t =>
        ∃ c, OpenClosed s c ∧
          t.port = { c.port with
            replies := s.port.replies ++
              replyWords 0 tag [pack [(3, s.tracker.train.length)]] } ∧
          t.batch = { s.batch with state := .draining, stopTaken := true } ∧
          Unchanged [.port, .batch] c t) := by
  set u := draining s.begin with drains
  refine ⟨fun notRunning notHold => reads_of_refused .state (exec_stopBatch tag s) takes
      (ownerStopBatch_of_other (s := s.begin) notRunning notHold),
    fun fed some => ?_, fun fed empty rests => ?_, fun fed c ruled busy => ?_⟩
  · have waits : ¬ (s.tracker.train = [] ∧ s.batch.feeder = .atRest) := fun ⟨empty, _⟩ => by
      rw [empty] at some
      exact Bool.false_ne_true some
    have next : u.drainClose.endDrain = u := by
      rw [drainClose_of_unruled (s := u) some, endDrain_of_not (s := u) waits]
    exact stopBatch_of_fed s tag takes fed next ⟨answers_of_port rfl tag _, rfl, by simp [Unchanged, draining, drains]⟩
  · have ruled : ¬ u.tracker.train.any u.unruled = true := by
      rw [show u.tracker.train = [] from empty]
      exact Bool.false_ne_true
    obtain ⟨_, _, _, _, _, closed⟩ := closeDocument_frame none u
    have next : u.drainClose.endDrain = (u.closeDocument none).enterIdle .drained := by
      rw [drainClose_of_draining rfl ruled]
      refine endDrain_of_empty ?_ ?_ ?_ <;> rw [closed]
      · rfl
      · exact empty
      · exact rests
    obtain ⟨state, -, causes, stop, assembler, shut, tracker, replies, images, engine, evaluator, lines⟩ :=
      enterIdle_closed .drained u
    refine stopBatch_of_fed s tag takes fed next ⟨state, causes, stop, shut, (congrArg Tracker.stallTimer tracker :),
      ?_, images, engine, evaluator, lines, fun c => ⟨closedFrom s u,
        openClosed_closedFrom (u := u) c rfl rfl rfl rfl, batchOver_answer (batchOver_closed (s := s) (u := u) c .drained rfl) tag _,
        assembler, tracker⟩⟩
    have word : pack [(3, s.tracker.train.length)] = 0 := by
      rw [empty]
      rfl
    rw [word]
    exact replies_answer (s := s) replies tag _
  · have quiet : ¬ u.tracker.train.any u.unruled = true := fun some => by
      obtain ⟨v, on, is⟩ := List.any_eq_true.mp some
      exact ruled v on ((unruled_iff s v).mp is)
    obtain ⟨_, _, notices, _, _, closed⟩ := closeDocument_frame none u
    have next : u.drainClose.endDrain = u.closeDocument none := by
      rw [drainClose_of_draining rfl quiet]
      refine endDrain_of_not ?_
      rw [closed]
      exact busy
    refine stopBatch_of_fed s tag takes fed next ⟨closedFrom s u,
      openClosed_closedFrom (u := u) c rfl rfl rfl rfl, ?_, ?_, ?_⟩
    · have replies : (u.closeDocument none).port.replies = s.port.replies := by
        rw [closed]
        rfl
      exact congrArg (fun w => { (closedFrom s u).port with replies := w }) (replies_answer (s := s) replies tag _)
    · rw [closed]
      rfl
    · exact unchanged_answer (by decide) (unchanged_closedFrom (s := s) (u := u) rfl rfl rfl rfl rfl rfl) tag _

/-! ## ABORT BATCH (R120, R146, R174) -/

theorem exec_abortBatch (tag : Tag) (s : State) :
    exec (.abortBatch tag) s = request (largestReply 0x64) tag ownerAbortBatch s := rfl

theorem ownerAbortBatch_of_ended {s : State}
    (ended : s.batch.state = .idle ∨ (s.batch.state = .halted ∧ s.batch.haltCause ≠ some .jam)) :
    ownerAbortBatch s = refused .state s := by
  rw [ownerAbortBatch]
  rcases ended with idle | ⟨halted, cause⟩
  · rw [idle]
  · rw [halted]
    rcases h : s.batch.haltCause with - | - | -
    · rfl
    · exact absurd h cause
    · rfl

theorem ownerAbortBatch_of_jam {s : State} (halted : s.batch.state = .halted) (jam : s.batch.haltCause = some .jam) :
    ownerAbortBatch s = ({ s with batch.haltCause := some .abort }, okWith [pack [(3, 4)]]) := by
  rw [ownerAbortBatch, halted, jam]
  rfl

theorem ownerAbortBatch_of_motorOn {s : State} (on : s.motorOn = true) :
    ownerAbortBatch s = (s.halt .abort, okWith [pack [(3, s.batch.state.code)]]) := by
  rw [State.motorOn] at on
  rw [ownerAbortBatch]
  cases h : s.batch.state <;> rw [h] at on
  · exact absurd on Bool.false_ne_true
  · rfl
  · rfl
  · rfl
  · exact absurd on Bool.false_ne_true

/-- Settles O49. -/
theorem stopAndAbort : Obligations.StopAndAbort := by
  unfold Obligations.StopAndAbort
  refine ⟨stopBatch_stops, fun s tag takes => ?_⟩
  have run := exec_abortBatch tag s
  refine ⟨fun ended => reads_of_refused .state run takes (ownerAbortBatch_of_ended (s := s.begin) ended),
    fun halted jam => after_of_owner run takes (ownerAbortBatch_of_jam (s := s.begin) halted jam)
      ⟨answers_of_port rfl tag _, rfl, by simp [Unchanged]⟩,
    fun on => after_of_owner run takes (ownerAbortBatch_of_motorOn (s := s.begin) on) ?_⟩
  exact ⟨answers_of_port (t := s.begin.halt .abort) rfl tag _, rfl, rfl, rfl, by simp [Unchanged, State.halt]⟩

end Sys2Proof.Proofs

/-! PROOFS. CLEAR TRAIN (R66, R112, R118, R123, R137, R146, R172, R175). -/

namespace Sys2Proof.Proofs

open Sys2Proof.Machine Sys2Proof.Safety Sys2Proof.Claims Sys2Proof.Laws Sys2Proof.Laws.Batches
  Sys2Proof.Laws.Decisions

/-! ## What the settling of the train keeps -/

/-- The outcomes taken and the tickets disposed of leave the batch, the path but for its tickets, the engine, the
lines, the waiting replies, and of the images all but the free plates. -/
structure TrainSettled (s t : State) : Prop where
  batch : t.batch = s.batch
  tracker : t.tracker = { s.tracker with train := t.tracker.train }
  engine : t.engine = s.engine
  evaluator : t.evaluator = s.evaluator
  lines : t.lines = s.lines
  images : t.images = { s.images with free := t.images.free }
  replies : t.port.replies = s.port.replies

theorem TrainSettled.refl (s : State) : TrainSettled s s := ⟨rfl, rfl, rfl, rfl, rfl, rfl, rfl⟩

theorem TrainSettled.trans {s t u : State} (h : TrainSettled s t) (k : TrainSettled t u) : TrainSettled s u where
  batch := k.batch.trans h.batch
  tracker := by rw [k.tracker, h.tracker]
  engine := k.engine.trans h.engine
  evaluator := k.evaluator.trans h.evaluator
  lines := k.lines.trans h.lines
  images := by rw [k.images, h.images]
  replies := k.replies.trans h.replies

theorem trainSettled_notShelved (g : PageOf) (k : Option TrayIx) (detail : Nat) (s : State) :
    TrainSettled s (s.notShelved g k detail) := by
  obtain ⟨_, _, _, _, _, frame⟩ := notShelved_frame s g k detail
  rw [frame]
  exact ⟨rfl, rfl, rfl, rfl, rfl, rfl, rfl⟩

theorem endDrain_of_not_draining {s : State} (h : s.batch.state ≠ .draining) : s.endDrain = s :=
  if_neg fun drains => h drains.1

theorem trainSettled_dismiss {s : State} (h : s.batch.state ≠ .draining) (ordinal : Word) :
    TrainSettled s (s.dismiss ordinal) := by
  rw [State.dismiss, endDrain_of_not_draining (s := s.removeTicket ordinal) h]
  exact ⟨rfl, rfl, rfl, rfl, rfl, rfl, rfl⟩

theorem trainSettled_settle {s : State} (h : s.batch.state ≠ .draining) (o : Outcome) :
    TrainSettled s (State.settle o s) := by
  rw [State.settle]
  split
  · exact .refl s
  · split
    · dsimp only
      split
      · next page _ =>
        have told := trainSettled_notShelved page o.decision.route Astray.late.detail s
        exact told.trans (trainSettled_dismiss (by rwa [told.batch]) _)
      · exact trainSettled_dismiss h _
    · exact ⟨rfl, rfl, rfl, rfl, rfl, rfl, rfl⟩

theorem trainSettled_takeOutcome {s : State} (h : s.batch.state ≠ .draining) : TrainSettled s s.takeOutcome := by
  rw [State.takeOutcome]
  split
  · exact .refl s
  · next o rest _ =>
    obtain ⟨batch, tracker, engine, evaluator, lines, images, replies⟩ :=
      trainSettled_settle (s := { s with assembler.outcomes := rest }) h o
    exact ⟨batch, tracker, engine, evaluator, lines, images, replies⟩

theorem trainSettled_takeOutcomes (outcomes : List Outcome) {s : State} (h : s.batch.state ≠ .draining) :
    TrainSettled s (s.takeOutcomes outcomes) := by
  induction outcomes generalizing s with
  | nil => exact .refl s
  | cons o rest ih =>
    have taken := trainSettled_takeOutcome h
    exact taken.trans (ih (by rwa [taken.batch]))

theorem trainSettled_returnChains (chains : List PlateChain) (s : State) :
    TrainSettled s (s.returnChains chains) := by
  rw [State.returnChains]
  split
  · exact .refl s
  · next c rest _ =>
    have joined : Links s (match s.images.free.tail with | some t => s.putNext t c.head | none => s) := by
      split
      · exact links_putNext _ _ _
      · exact .rfl
    have links := joined.trans (links_linkChains (c :: rest) _)
    dsimp only
    generalize State.linkChains (c :: rest) _ = linked at links ⊢
    rw [links.rest]
    exact ⟨rfl, rfl, rfl, rfl, rfl, rfl, rfl⟩

theorem trainSettled_disposeAll (detail : Nat) (tickets : List Ticket) (s : State) :
    TrainSettled s (s.disposeAll detail tickets) := by
  induction tickets generalizing s with
  | nil => exact .refl s
  | cons u rest ih =>
    refine TrainSettled.trans ?_ (ih (s.dispose detail u))
    rw [State.dispose]
    split
    · exact trainSettled_returnChains _ s
    · split
      · exact trainSettled_notShelved _ _ detail s
      · exact .refl s

/-! ## The outcomes and the tickets, one after the other -/

theorem outcomeTaken_takeOutcome {s : State} (h : s.batch.state ≠ .draining) (c : Canonical s) {o : Outcome}
    {rest : List Outcome} (first : s.assembler.outcomes = o :: rest) : OutcomeTaken s s.takeOutcome o rest := by
  obtain ⟨m, taken, frame, -, decided, exited, -⟩ := outcome_spec s o rest first fun _ _ _ => .inr c
  have still : m.endDrain = m := endDrain_of_not_draining (by rwa [frame])
  suffices next : s.takeOutcome = m by rwa [next]
  by_cases late : ∃ u, s.ticket o.ordinal = some u ∧ u.flags.exitedUndecided = true
  · obtain ⟨u, is, out⟩ := late
    exact (exited u is out).trans still
  · exact decided fun u is => Bool.eq_false_iff.mpr fun out => late ⟨u, is, out⟩

theorem outcomes_takeOutcome {s : State} (h : s.batch.state ≠ .draining) (c : Canonical s) {o : Outcome}
    {rest : List Outcome} (first : s.assembler.outcomes = o :: rest) : s.takeOutcome.assembler.outcomes = rest :=
  (outcomeTaken_takeOutcome h c first).1

theorem outcomesTaken_takeOutcomes {outcomes : List Outcome} {s : State} (is : s.assembler.outcomes = outcomes)
    (h : s.batch.state ≠ .draining) (c : Canonical s) : OutcomesTaken outcomes s (s.takeOutcomes outcomes) := by
  induction outcomes generalizing s with
  | nil => exact Unchanged.rfl (s := s)
  | cons o rest ih =>
    refine ⟨s.takeOutcome, outcomeTaken_takeOutcome h c is, ih (outcomes_takeOutcome h c is) ?_
      ((quiet_takeOutcome h).canonical c)⟩
    rwa [(trainSettled_takeOutcome h).batch]

theorem outcomesTaken_begin {outcomes : List Outcome} {s t : State} (h : OutcomesTaken outcomes s.begin t) :
    OutcomesTaken outcomes s t := by
  cases outcomes with
  | nil => exact h
  | cons o rest => exact h

theorem allDisposed_disposeAll (detail : Nat) {tickets : List Ticket} {s : State} (c : Canonical s) :
    AllDisposed detail tickets s (s.disposeAll detail tickets) := by
  induction tickets generalizing s with
  | nil => exact Unchanged.rfl (s := s)
  | cons u rest ih =>
    exact ⟨s.dispose detail u, disposed_spec s c u detail, ih ((quiet_dispose detail u s).canonical c)⟩

/-! ## The exit from HALTED -/

theorem gateOn_of_empty {s : State} (empty : s.tracker.train = []) (k : TrayIx) : s.gateOn k = false := by
  rw [State.gateOn, State.gateHolders, empty]
  rfl

theorem clear_idle (c : CaptureChannel) : c.clear.state = .idle ∧ c.clear.side = none := by
  rw [CaptureChannel.clear]
  split
  · exact ⟨rfl, rfl⟩
  · next h => exact ⟨rfl, h⟩

/-- What the exit from HALTED leaves as it was. -/
structure HaltLeft (s t : State) : Prop where
  tracker : t.tracker = { s.tracker with stallTimer := t.tracker.stallTimer }
  engine : t.engine = s.engine
  images : t.images = s.images
  evaluator : t.evaluator = s.evaluator
  lines : t.lines = s.lines
  replies : t.port.replies = s.port.replies
  cause : t.batch.haltCause = none

/-- The state in which a batch enters FEED HOLD after a jam. -/
def jamRecovered (s : State) : State :=
  { s with batch.haltCause := none, tracker.stallTimer := some Config.stallMilliseconds }

theorem leaveHalt_of_jam {s : State} (goes : s.batch.stopTaken = false) : s.leaveHalt .jam =
    State.enterFeedHold { s.batch.causes with jamRecovered := true } (jamRecovered s) :=
  if_pos ⟨rfl, ne_true_of_eq_false goes⟩

/-- How a batch ends that does not go on after CLEAR TRAIN. -/
def endOf : HaltCause → EndKind
  | .jam => .stoppedAfterJam
  | .abort => .aborted

theorem leaveHalt_of_ended {s : State} {cause : HaltCause} (ends : cause = .abort ∨ s.batch.stopTaken = true) :
    s.leaveHalt cause = (s.closeDocument none).enterIdle (endOf cause) := by
  have stays : ¬ (cause = .jam ∧ ¬ s.batch.stopTaken = true) := by
    rintro ⟨rfl, goes⟩
    rcases ends with ends | ends
    · cases ends
    · exact goes ends
  rw [State.leaveHalt, if_neg stays]
  cases cause <;> rfl

theorem goes_or_ends (s : State) (cause : HaltCause) :
    (cause = .jam ∧ s.batch.stopTaken = false) ∨ (cause = .abort ∨ s.batch.stopTaken = true) := by
  cases h : s.batch.stopTaken
  · cases cause
    · exact .inl ⟨rfl, rfl⟩
    · exact .inr (.inl rfl)
  · exact .inr (.inr rfl)

theorem haltLeft_leaveHalt (cause : HaltCause) (s : State) : HaltLeft s (s.leaveHalt cause) := by
  rcases goes_or_ends s cause with ⟨rfl, goes⟩ | ends
  · rw [leaveHalt_of_jam goes]
    obtain ⟨batch, -, replies, -, -, -, -, evaluator, tracker, engine, images, -, lines, -⟩ :=
      enterFeedHold_spec { s.batch.causes with jamRecovered := true } (jamRecovered s)
    have timer := tracker (by decide)
    exact ⟨by rw [timer]; rfl, engine (by decide), images (by decide), evaluator (by decide), lines (by decide),
      replies, by rw [batch]; rfl⟩
  · rw [leaveHalt_of_ended ends]
    obtain ⟨-, cause, -, -, -, -, tracker, replies, images, engine, evaluator, lines⟩ :=
      enterIdle_closed (endOf cause) s
    exact ⟨by rw [tracker], engine, images, evaluator, lines, replies, cause⟩

/-! ## The request -/

theorem exec_clearTrain (tag : Tag) (s : State) :
    exec (.clearTrain tag) s = request (largestReply 0x44) tag ownerClearTrain s := rfl

/-- The state with every outcome taken, and then with every ticket disposed of. -/
def outcomesIn (s : State) : State := s.takeOutcomes s.assembler.outcomes
def trainDisposed (cause : HaltCause) (s : State) : State :=
  (outcomesIn s).disposeAll cause.detail (outcomesIn s).tracker.train

theorem ownerClearTrain_of_halted {s : State} {cause : HaltCause} (halted : s.batch.state = .halted)
    (none : s.batch.kept = []) (because : s.batch.haltCause = some cause) : ownerClearTrain s =
      ((trainDisposed cause s).clearPath.leaveHalt cause,
        okWith [pack [(3, (outcomesIn s).tracker.train.countP fun u => u.stage ≠ .decided)],
          pack [(3, (outcomesIn s).tracker.train.length -
            (outcomesIn s).tracker.train.countP fun u => u.stage ≠ .decided)]]) := by
  rw [ownerClearTrain, if_neg (not_not.mpr halted), if_neg (not_not.mpr none)]
  dsimp only
  rw [State.clearTrain, because]
  rfl

theorem outcomesIn_of_none {s : State} (none : s.assembler.outcomes = []) : outcomesIn s = s := by
  rw [outcomesIn, none]
  rfl

/-- A batch that goes on holds its feed with JAM RECOVERED, its notice posted or kept. -/
theorem leaveHalt_goes_on {u v : State} (batch : v.batch = u.batch) (goes : u.batch.stopTaken = false)
    (tag : Tag) (r : Reply) :
    let t := (v.clearPath.leaveHalt .jam).answer tag r
    (t.batch.state = .feedHold ∧ t.batch.haltCause = none ∧
      t.batch.causes = { u.batch.causes with jamRecovered := true }) ∧
    BatchNotice v t (.feedHold { u.batch.causes with jamRecovered := true } u.batch.fed
      u.batch.rejected u.batch.opened) ∧
    t.tracker.stallTimer = some 50 ∧ t.assembler = v.assembler ∧ t.folio = v.folio ∧ t.record = v.record := by
  intro t
  obtain ⟨entered, notice, -, -, folio, record, assembler, -, tracker, -⟩ :=
    enterFeedHold_spec { v.clearPath.batch.causes with jamRecovered := true } (jamRecovered v.clearPath)
  rw [← leaveHalt_of_jam (s := v.clearPath) (show v.batch.stopTaken = false by rw [batch, goes])] at *
  have posted : BatchNotice v t (.feedHold { v.batch.causes with jamRecovered := true } v.batch.fed
      v.batch.rejected v.batch.opened) := batchNotice_answer (s := v) notice tag r
  rw [← batch]
  exact ⟨⟨(congrArg Batch.state entered :), (congrArg Batch.haltCause entered :), (congrArg Batch.causes entered :)⟩,
    posted, (congrArg Tracker.stallTimer (tracker (by decide)) :), assembler (by decide), folio (by decide),
    record (by decide)⟩

/-- A batch that does not go on is over, from the close of its document. -/
theorem leaveHalt_ends {u v : State} {cause : HaltCause} (batch : v.batch = u.batch)
    (ends : cause = .abort ∨ u.batch.stopTaken = true) (tag : Tag) (r : Reply) :
    let t := (v.clearPath.leaveHalt cause).answer tag r
    (t.batch.state = .idle ∧ t.batch.haltCause = none ∧ t.batch.causes = {} ∧ t.batch.stopTaken = false ∧
      t.assembler.openDocument = none) ∧
    (Canonical v → ∃ c, OpenClosed v c ∧ t.assembler = c.assembler ∧ BatchOver c t (endOf cause)) := by
  intro t
  have is := leaveHalt_of_ended (s := v.clearPath) (cause := cause) (by rwa [show v.clearPath.batch = u.batch from batch])
  obtain ⟨state, halt, causes, stop, assembler, shut, -⟩ := enterIdle_closed (endOf cause) v.clearPath
  have overIn (c : Canonical v) := batchOver_closed (s := v) (u := v.clearPath) c (endOf cause) rfl
  rw [← is] at state halt causes stop assembler shut overIn
  exact ⟨⟨state, halt, causes, stop, shut⟩, fun c => ⟨closedFrom v v.clearPath,
    openClosed_closedFrom (u := v.clearPath) c rfl rfl rfl rfl, assembler, batchOver_answer (overIn c) tag r⟩⟩

/-- Settles O40. -/
theorem clearTrainEmpties : Obligations.ClearTrainEmpties := by
  unfold Obligations.ClearTrainEmpties
  intro s tag cause takes
  have run := exec_clearTrain tag s
  refine ⟨fun other => reads_of_refused .state run takes (if_pos other),
    fun halted kept => reads_of_refused .busy run takes ((if_neg (not_not.mpr halted)).trans (if_pos kept)),
    fun halted empty because => after_of_owner run takes (ownerClearTrain_of_halted (s := s.begin) halted empty because) ?_⟩
  have notDraining : s.begin.batch.state ≠ .draining := fun drains => by
    rw [show s.begin.batch.state = .halted from halted] at drains
    cases drains
  set w := outcomesIn s.begin with wIs
  set v := trainDisposed cause s.begin with vIs
  have settled : TrainSettled s.begin v :=
    (trainSettled_takeOutcomes _ notDraining).trans (trainSettled_disposeAll _ _ _)
  obtain ⟨batch, tracker, engine, evaluator, lines, images, replies⟩ := settled
  have left := haltLeft_leaveHalt cause v.clearPath
  have front := clear_idle v.images.front
  have back := clear_idle v.images.back
  have replied : (v.clearPath.leaveHalt cause).port.replies = s.port.replies := left.replies.trans replies
  refine ⟨(congrArg Tracker.train left.tracker :), (congrArg Tracker.stopped left.tracker :),
    (congrArg Tracker.travel left.tracker :).trans (congrArg Tracker.travel tracker :),
    (congrArg Tracker.nextOrdinal left.tracker :).trans (congrArg Tracker.nextOrdinal tracker :),
    gateOn_of_empty (congrArg Tracker.train left.tracker :),
    (congrArg Engine.measurements left.engine :), (congrArg (fun e : Engine => e.front.state) left.engine :),
    (congrArg (fun e : Engine => e.back.state) left.engine :),
    (congrArg Engine.skewLimit left.engine :).trans (congrArg Engine.skewLimit engine :),
    (congrArg Engine.blankThreshold left.engine :).trans (congrArg Engine.blankThreshold engine :),
    (congrArg (fun i : Images => i.front.state) left.images).trans front.1,
    (congrArg (fun i : Images => i.front.side) left.images).trans front.2,
    (congrArg (fun i : Images => i.back.state) left.images).trans back.1,
    (congrArg (fun i : Images => i.back.side) left.images).trans back.2,
    (congrArg Images.memory left.images :).trans (congrArg Images.memory images :),
    left.evaluator.trans evaluator, left.lines.trans lines, fun jam goes => ?_, fun ends => ?_, fun none => ?_,
    fun c => ⟨w, v, ?_, ?_, replies_answer (s := s) replied tag _, (congrArg Images.free left.images :),
      fun jam goes => ?_, fun ends => ?_⟩⟩
  · subst jam
    exact (leaveHalt_goes_on batch goes tag _).1
  · exact (leaveHalt_ends batch ends tag _).1
  · have words := replies_answer (s := s) replied tag (okWith
      [pack [(3, w.tracker.train.countP fun u => u.stage ≠ .decided)],
        pack [(3, w.tracker.train.length - w.tracker.train.countP fun u => u.stage ≠ .decided)]])
    rw [wIs, outcomesIn_of_none (s := s.begin) none] at words
    rw [wIs, outcomesIn_of_none (s := s.begin) none]
    exact words
  · exact outcomesTaken_begin (outcomesTaken_takeOutcomes rfl notDraining c)
  · have canonical : Canonical w := (quiet_takeOutcomes _ _ notDraining).canonical c
    have disposed := allDisposed_disposeAll cause.detail (tickets := w.tracker.train) canonical
    cases cause <;> exact disposed
  · subst jam
    exact (leaveHalt_goes_on batch goes tag _).2
  · have canonical : Canonical v :=
      (quiet_disposeAll _ _ _).canonical ((quiet_takeOutcomes _ _ notDraining).canonical c)
    obtain ⟨closed, isClosed, assembler, done⟩ := (leaveHalt_ends batch ends tag _).2 canonical
    refine ⟨closed, isClosed, assembler, ?_⟩
    cases cause <;> exact done

end Sys2Proof.Proofs

/-! PROOFS. The feeder, jams and the gates (R106, R108, R113, R114, R119, R120, R165, R168, R169, R172, R173). -/

namespace Sys2Proof.Proofs

open Sys2Proof.Machine Sys2Proof.Safety Sys2Proof.Claims Sys2Proof.Laws Sys2Proof.Laws.Batches
  Sys2Proof.Laws.Decisions

section Commands

variable {i : Instr} {f : State → State} {s : State}

theorem idles_of_complete (run : exec i s = complete f s) (same : f s.begin = s.begin) : Idles i s :=
  after_of_complete run (by rw [same]; exact unchanged_begin [] s)

end Commands

/-! ## Jams (R119, R120, R173) -/

theorem jams_jam {s : State} (acts : s.acts = true) (cause : JamCause) (line : Option LineIx)
    (ticket : Option Word) :
    Jams s (s.jam cause line ticket) cause line ticket ∧ (s.jam cause line ticket).lines = s.lines := by
  have notice := batchNotice_post s (s.halt .jam) (.jam cause line ticket s.tracker.train.length) rfl rfl
  have frame := postBatch_frame (s.halt .jam) (.jam cause line ticket s.tracker.train.length)
  rw [State.jam, if_neg (by rw [acts]; decide)]
  generalize (s.halt .jam).postBatch _ = t at notice frame
  refine ⟨⟨(congrArg State.batch frame :), (congrArg State.tracker frame :), (congrArg State.images frame :), notice,
    (congrArg (fun t : State => t.port.replies) frame :), ?_⟩, (congrArg State.lines frame :)⟩
  rw [frame]
  simp [Unchanged, State.halt]

theorem jam_of_not_acts {s : State} (still : s.acts = false) (cause : JamCause) (line : Option LineIx)
    (ticket : Option Word) : s.jam cause line ticket = s :=
  if_pos (by rw [still]; rfl)

/-! ## Windows and the stall timer (R107, R108, R120) -/

theorem exec_windowPasses (ordinal : Word) (a : Arrival) (s : State) :
    exec (.windowPasses ordinal a) s = complete (State.passWindow ordinal a) s := rfl

theorem exec_stall (s : State) : exec .stall s = complete State.stallExpires s := rfl

theorem exitAt_eq (s : State) (path : Option TrayIx) : exitAt s path = (s.exitPosition path, exitLine path) := by
  rcases path with - | k
  · rfl
  · fin_cases k <;> rfl

theorem trailing_eq (s : State) (u : Ticket) : u.trailing s.tracker.travel = u.length.map (trailingOf s u) := rfl

/-- A window with an upper end has passed a position, if there is one. -/
def beyond (position : Option Nat) (upper : Nat) : Bool :=
  match position with
  | some p => upper < p
  | none => false

theorem beyond_trailing (s : State) (u : Ticket) (upper : Nat) :
    beyond (u.trailing s.tracker.travel) upper = true ↔ ∃ n, u.length = some n ∧ upper < trailingOf s u n := by
  rw [trailing_eq]
  rcases u.length with - | n
  · simp [beyond]
  · simp [beyond]

theorem window_of {armed past : Bool} {passed : Prop} {jam : JamCause × LineIx}
    (is : armed = true ∧ past = true ↔ passed) :
    (passed → (if armed && past then some jam else none) = some jam) ∧
    (¬ passed → (if armed && past then some jam else none) = none) := by
  rw [← is, ← Bool.and_eq_true]
  exact ⟨fun h => if_pos h, fun h => if_neg h⟩

theorem windowPassed_spec (s : State) (u : Ticket) (a : Arrival) :
    (Passed s u a → s.windowPassed u a = some (missed s u a)) ∧
    (¬ Passed s u a → s.windowPassed u a = none) := by
  cases a with
  | entryTrailing => exact window_of (and_congr_right' decide_eq_true_iff)
  | firstEdge => exact window_of (and_congr_right' decide_eq_true_iff)
  | secondEdge =>
    rw [Passed, missed, State.windowPassed]
    rcases u.armed.secondEdge with - | e
    · simp
    · refine ⟨?_, ?_⟩
      · rintro ⟨e, ⟨⟩, past⟩
        refine (if_pos past).trans ?_
        obtain ⟨sensor, first⟩ := e
        cases sensor <;> rfl
      · exact fun not => if_neg fun past => not ⟨e, rfl, past⟩
  | scanLeading => exact window_of (and_congr_right' decide_eq_true_iff)
  | scanTrailing => exact window_of (and_congr_right' (beyond_trailing s u _))
  | exitLeading =>
    rw [Passed, missed, exitAt_eq]
    exact window_of (and_congr_right' decide_eq_true_iff)
  | exitTrailing =>
    rw [Passed, missed, exitAt_eq]
    exact window_of (and_congr_right' (beyond_trailing s u _))

theorem passWindow_of_none {s : State} {ordinal : Word} (gone : s.ticket ordinal = none) (a : Arrival) :
    s.passWindow ordinal a = s := by
  rw [State.passWindow, gone]

theorem passWindow_of_passed {s : State} {ordinal : Word} {u : Ticket} (is : s.ticket ordinal = some u)
    {a : Arrival} (passed : Passed s u a) :
    s.passWindow ordinal a = s.jam (missed s u a).1 (some (missed s u a).2) (some ordinal) := by
  rw [State.passWindow, is]
  dsimp only
  rw [(windowPassed_spec s u a).1 passed]

theorem passWindow_of_not {s : State} {ordinal : Word} {u : Ticket} (is : s.ticket ordinal = some u)
    {a : Arrival} (stays : s.acts = false ∨ ¬ Passed s u a) : s.passWindow ordinal a = s := by
  by_cases passed : Passed s u a
  · rw [passWindow_of_passed is passed]
    exact jam_of_not_acts (stays.resolve_right (not_not.mpr passed)) _ _ _
  · rw [State.passWindow, is]
    dsimp only
    rw [(windowPassed_spec s u a).2 passed]

/-- Settles O53. -/
theorem windowsAndStallJam : Obligations.WindowsAndStallJam := by
  unfold Obligations.WindowsAndStallJam
  refine ⟨fun s ordinal u a is => ⟨fun acts passed => ?_, fun stays => ?_⟩, fun s ordinal a gone => ?_,
    fun s => ⟨fun acts running => ?_, fun stays => ?_⟩⟩
  · refine after_of_complete (exec_windowPasses ordinal a s) ?_
    rw [passWindow_of_passed (s := s.begin) is passed]
    exact jams_jam (s := s.begin) acts _ _ _
  · exact idles_of_complete (exec_windowPasses ordinal a s) (passWindow_of_not (s := s.begin) is stays)
  · exact idles_of_complete (exec_windowPasses ordinal a s) (passWindow_of_none (s := s.begin) gone a)
  · obtain ⟨n, is⟩ := Option.isSome_iff_exists.mp running
    refine after_of_complete (exec_stall s) ?_
    rw [State.stallExpires, show s.begin.tracker.stallTimer = some n from is]
    exact jams_jam (s := s.begin) acts _ _ _
  · refine idles_of_complete (exec_stall s) ?_
    rw [State.stallExpires]
    rcases h : s.begin.tracker.stallTimer with - | n
    · rfl
    · have stopped : s.tracker.stallTimer ≠ none := by rw [show s.tracker.stallTimer = some n from h]; simp
      exact jam_of_not_acts (s := s.begin) (stays.resolve_right stopped) _ _ _

/-! ## The gates (R113, R114) -/

theorem exec_gateClaim (ordinal : Word) (k : TrayIx) (s : State) :
    exec (.gateClaim ordinal k) s = complete (State.claimGate ordinal k) s := rfl

theorem exec_gateRelease (ordinal : Word) (k : TrayIx) (s : State) :
    exec (.gateRelease ordinal k) s = complete (State.releaseGate ordinal k) s := rfl

theorem gateAt_eq (s : State) (k : TrayIx) : gateAt s k = s.gatePosition k := by
  fin_cases k <;> rfl

theorem held_iff (h : Holding) : h.held = true ↔ h = .heldOn ∨ h = .heldOff := by
  cases h <;> simp [Holding.held]

theorem not_held_iff (h : Holding) : h.held = false ↔ h ≠ .heldOn ∧ h ≠ .heldOff := by
  cases h <;> simp [Holding.held]

/-- A list filtered around an element that stays, with nothing kept before it, or nothing behind it. -/
theorem filter_head {α : Type} {keeps : α → Bool} {before after : List α} {h : α} (stays : keeps h = true)
    (none : ∀ v ∈ before, keeps v = false) : ((before ++ h :: after).filter keeps).head? = some h := by
  rw [List.filter_append, List.filter_eq_nil_iff.mpr fun v on => ne_true_of_eq_false (none v on),
    List.filter_cons_of_pos stays]
  rfl

theorem filter_last {α : Type} {keeps : α → Bool} {before after : List α} {h : α} (stays : keeps h = true)
    (none : ∀ v ∈ after, keeps v = false) : ((before ++ h :: after).filter keeps).getLast? = some h := by
  rw [List.filter_append, List.filter_cons_of_pos stays,
    List.filter_eq_nil_iff.mpr fun v on => ne_true_of_eq_false (none v on), List.getLast?_append]
  rfl

theorem releaseDue_iff {s : State} {k : TrayIx} {u : Ticket} (held : u.gates[k] = .heldOn ∨ u.gates[k] = .heldOff) :
    s.releaseDue k u = true ↔ ∃ n, u.length = some n ∧ gateAt s k + s.tracker.profile[16] ≤ trailingOf s u n := by
  rw [State.releaseDue, (held_iff _).mpr held, Bool.true_and, trailing_eq, gateAt_eq]
  rcases u.length with - | n
  · simp
  · simp only [Option.map_some, Option.some.injEq, exists_eq_left']
    exact decide_eq_true_iff

theorem newestHolder_of_none {s : State} {k : TrayIx}
    (free : ∀ v ∈ s.tracker.train, v.gates[k] ≠ .heldOn ∧ v.gates[k] ≠ .heldOff) : s.newestHolder k = none := by
  rw [State.newestHolder, State.gateHolders,
    List.filter_eq_nil_iff.mpr fun v on => ne_true_of_eq_false ((not_held_iff _).mpr (free v on))]
  rfl

theorem newestHolder_of_last {s : State} {k : TrayIx} {before after : List Ticket} {h : Ticket}
    (train : s.tracker.train = before ++ h :: after) (held : h.gates[k] = .heldOn ∨ h.gates[k] = .heldOff)
    (free : ∀ v ∈ after, v.gates[k] ≠ .heldOn ∧ v.gates[k] ≠ .heldOff)
    (stays : ∀ length, h.length = some length → trailingOf s h length < gateAt s k + s.tracker.profile[16]) :
    s.newestHolder k = some h := by
  have due : ¬ s.releaseDue k h = true := fun due => by
    obtain ⟨n, is, past⟩ := (releaseDue_iff held).mp due
    exact absurd past (Nat.not_le.mpr (stays n is))
  rw [State.newestHolder, State.gateHolders, List.filter_filter, train]
  refine filter_last ?_ fun v on => ?_
  · rw [(held_iff _).mpr held, Bool.and_true, Bool.not_eq_true', Bool.eq_false_iff.mpr due]
  · rw [(not_held_iff _).mpr (free v on), Bool.and_false]

theorem claimDue_of {s : State} {k : TrayIx} {u : Ticket} (fresh : u.gates[k] = .notReached)
    (reaches : ∀ n, u.path = some n → k.val ≤ n.val)
    (near : gateAt s k ≤ leadingOf s u + s.tracker.profile[15]) : s.claimDue k u = true := by
  have leads : u.reaches k = true := by
    rw [Ticket.reaches]
    rcases h : u.path with - | n
    · rfl
    · exact decide_eq_true (reaches n h)
  rw [gateAt_eq] at near
  rw [State.claimDue, fresh, leads]
  exact decide_eq_true near

section Claim

variable {s : State} {ordinal : Word} {k : TrayIx} {u : Ticket} (is : s.ticket ordinal = some u)
  (acts : s.acts = true) (due : s.claimDue k u = true)

include is acts due

theorem claimGate_of_free (free : s.newestHolder k = none) :
    s.claimGate ordinal k = s.editTicket ordinal (Ticket.hold k (u.need k)) := by
  rw [State.claimGate, is]
  dsimp only
  rw [if_neg (by rw [acts, due]; decide), free]

theorem claimGate_of_same {h : Ticket} (holder : s.newestHolder k = some h) (same : h.gates[k] = u.need k) :
    s.claimGate ordinal k = s.editTicket ordinal (Ticket.hold k (u.need k)) := by
  rw [State.claimGate, is]
  dsimp only
  rw [if_neg (by rw [acts, due]; decide), holder]
  exact if_pos same

theorem claimGate_of_busy {h : Ticket} (holder : s.newestHolder k = some h) (other : h.gates[k] ≠ u.need k) :
    s.claimGate ordinal k = s.editTicket ordinal fun v => v.sendAstray.hold k .heldOff := by
  rw [State.claimGate, is]
  dsimp only
  rw [if_neg (by rw [acts, due]; decide), holder]
  exact if_neg other

end Claim

theorem sendAstray_hold (u : Ticket) (k : TrayIx) : u.sendAstray.hold k .heldOff = { u with
    path := none
    decision := (match u.path with
      | none => u.decision
      | some _ => u.decision.map fun d => { d with astray := some .gateBusy })
    gates := u.gates.set k.val .heldOff k.isLt } := by
  rw [Ticket.sendAstray]
  rcases h : u.path with - | n
  · exact congrArg (fun path => { u with path := path, gates := u.gates.set k.val .heldOff k.isLt }) h
  · rfl

theorem gateOn_of_oldest {s : State} {k : TrayIx} {before after : List Ticket} {h : Ticket}
    (train : s.tracker.train = before ++ h :: after) (held : h.gates[k] = .heldOn ∨ h.gates[k] = .heldOff)
    (free : ∀ v ∈ before, v.gates[k] ≠ .heldOn ∧ v.gates[k] ≠ .heldOff) :
    s.gateOn k = decide (h.gates[k] = .heldOn) := by
  rw [State.gateOn, State.gateHolders, train,
    filter_head (keeps := fun t : Ticket => t.gates[k].held) ((held_iff _).mpr held)
      fun v on => (not_held_iff _).mpr (free v on)]

/-- A step whose command does no more than change the tickets of one ordinal. -/
theorem after_of_editTicket {i : Instr} {run : State → State} {s : State} {ordinal : Word} {f g : Ticket → Ticket}
    (is : exec i s = complete run s) (edits : run s.begin = s.begin.editTicket ordinal f)
    (same : ∀ v ∈ s.tracker.train, v.ordinal = ordinal → f v = g v) : After i s fun t =>
      t.tracker = { s.tracker with train := changed s ordinal g } ∧ Unchanged [.tracker] s t := by
  refine after_of_complete is ?_
  rw [edits]
  refine ⟨congrArg (fun train => { s.tracker with train := train }) (List.map_congr_left fun v on => ?_),
    by simp [Unchanged, State.editTicket]⟩
  by_cases h : v.ordinal = ordinal
  · rw [if_pos h, if_pos h, same v on h]
  · rw [if_neg h, if_neg h]

/-- Settles O54. -/
theorem gateClaimsAndReleases : Obligations.GateClaimsAndReleases := by
  unfold Obligations.GateClaimsAndReleases
  refine ⟨fun s ordinal k u is acts fresh reaches near => ?_, fun s ordinal k u length is acts held known => ?_,
    fun s k before h after train held free => gateOn_of_oldest train held free⟩
  · have run := exec_gateClaim ordinal k s
    have due := claimDue_of (s := s.begin) fresh reaches near
    refine ⟨fun free => ?_, fun before h after train held free stays => ⟨fun same => ?_, fun other unique => ?_⟩⟩
    · exact after_of_editTicket run (claimGate_of_free (s := s.begin) is acts due (newestHolder_of_none free))
        fun _ _ _ => rfl
    all_goals have holder := newestHolder_of_last (s := s.begin) train held free stays
    · exact after_of_editTicket run (claimGate_of_same (s := s.begin) is acts due holder same) fun _ _ _ => rfl
    · refine after_of_editTicket run (claimGate_of_busy (s := s.begin) is acts due holder other) fun v on named => ?_
      obtain rfl := unique v on named
      exact sendAstray_hold v k
  · have run := exec_gateRelease ordinal k s
    have due := releaseDue_iff (s := s.begin) held
    refine ⟨fun past => ?_, fun stays => ?_⟩
    · have edits : s.begin.releaseGate ordinal k = s.begin.editTicket ordinal (Ticket.hold k .released) := by
        rw [State.releaseGate, show s.begin.ticket ordinal = some u from is]
        exact if_pos (Bool.and_eq_true_iff.mpr ⟨acts, due.mpr ⟨length, known, past⟩⟩)
      exact after_of_editTicket run edits fun _ _ _ => rfl
    · refine idles_of_complete run ?_
      rw [State.releaseGate, show s.begin.ticket ordinal = some u from is]
      refine if_neg fun both => ?_
      obtain ⟨n, same, past⟩ := due.mp (Bool.and_eq_true_iff.mp both).2
      obtain rfl : length = n := Option.some.inj (known.symm.trans same)
      exact absurd past (Nat.not_le.mpr stays)

/-! ## The end of a drain (R171, R172) -/

theorem idleEntered_enterIdle (s u : State) (kind : EndKind) (port : u.port = s.port)
    (batch : u.batch = { s.batch with
      state := u.batch.state, haltCause := u.batch.haltCause, causes := u.batch.causes
      stopTaken := u.batch.stopTaken, feeder := u.batch.feeder }) :
    IdleEntered s (u.enterIdle kind) kind := by
  rw [State.enterIdle]
  obtain ⟨record, journal, index, unpinned⟩ := unpin_frame { u with
    batch.state := .idle, batch.haltCause := none, batch.causes := {}, batch.stopTaken := false
    batch.feeder := .atRest, tracker.stallTimer := none }
  rw [unpinned]
  have notice := batchNotice_post s { u with
    record := record, journal := journal, folio.index := index
    batch.state := .idle, batch.haltCause := none, batch.causes := {}, batch.stopTaken := false
    batch.feeder := .atRest, tracker.stallTimer := none }
    (.batchEnded kind s.batch.fed s.batch.rejected s.batch.opened) port (by rw [batch])
  have frame := postBatch_frame { u with
    record := record, journal := journal, folio.index := index
    batch.state := .idle, batch.haltCause := none, batch.causes := {}, batch.stopTaken := false
    batch.feeder := .atRest, tracker.stallTimer := none }
    (.batchEnded kind s.batch.fed s.batch.rejected s.batch.opened)
  have counts : Notice.batchEnded kind u.batch.fed u.batch.rejected u.batch.opened =
      .batchEnded kind s.batch.fed s.batch.rejected s.batch.opened := by rw [batch]
  rw [counts]
  refine ⟨?_, notice, (congrArg (fun t : State => t.tracker.stallTimer) frame :)⟩
  refine (congrArg State.batch frame).trans ?_
  rw [batch]

/-- The place of the batch's matter is not pinned once the matter is unpinned, the entry there or gone. -/
theorem pinned_unpin {u : State} {place : Nat} (known : InDirectory u u.batch.matter place) :
    u.unpin.pinned place = false := by
  obtain ⟨pinned, found⟩ := known
  rw [State.unpin, found]
  dsimp only
  rw [State.testRemoval, State.pinned]
  have none : (u.folio.index.map fun f => if f.place = place then { f with pinned := false } else f).any
      (fun e => decide (e.place = place) && e.pinned) = false := by
    rw [List.any_eq_false]
    intro e on
    obtain ⟨f, -, rfl⟩ := List.mem_map.mp on
    by_cases here : f.place = place <;> simp [here]
  split
  · rw [List.any_eq_false] at none ⊢
    exact fun e on => none e (List.mem_of_mem_filter on)
  · exact none

theorem pinned_enterIdle {u : State} {place : Nat} (known : InDirectory u u.batch.matter place) (kind : EndKind) :
    (u.enterIdle kind).pinned place = false := by
  rw [State.enterIdle, postBatch_frame]
  exact pinned_unpin (u := { u with
    batch.state := .idle, batch.haltCause := none, batch.causes := {}, batch.stopTaken := false
    batch.feeder := .atRest, tracker.stallTimer := none }) known

/-- The end of a drain, from a state with the train empty and the feeder at rest. -/
theorem drainOver_enterIdle (s u : State) (port : u.port = s.port) (folio : u.folio = s.folio)
    (tracker : u.tracker = { s.tracker with train := [] })
    (batch : u.batch = { s.batch with feeder := u.batch.feeder })
    (rest : Unchanged [.port, .folio, .tracker, .batch] s u) :
    DrainOver s (u.enterIdle .drained) ∧ (Canonical s → DrainEnded s (u.enterIdle .drained)) ∧
      (u.enterIdle .drained).port.replies = s.port.replies ∧
      Unchanged [.port, .folio, .record, .tracker, .batch] s (u.enterIdle .drained) := by
  have wide : u.batch = { s.batch with
      state := u.batch.state, haltCause := u.batch.haltCause, causes := u.batch.causes
      stopTaken := u.batch.stopTaken, feeder := u.batch.feeder } := by rw [batch]
  obtain ⟨_, _, record, assembler, evaluator, -, engine, images, -, lines, pending⟩ := rest
  have drained : DrainOver s (u.enterIdle .drained) := by
    refine ⟨idleEntered_enterIdle s u .drained port wide, ?_, fun place known => pinned_enterIdle ?_ _⟩
    · obtain ⟨_, _, _, _, _, frame⟩ := enterIdle_frame .drained u
      rw [frame, tracker]
    · unfold InDirectory State.findMatter at known ⊢
      rwa [folio, show u.batch.matter = s.batch.matter by rw [batch]]
  refine ⟨drained, fun c => ⟨drained, ?_⟩, ?_, ?_⟩
  · have canonical : Canonical u := by
      unfold Canonical at c ⊢
      rwa [record (by decide), images (by decide)]
    exact (batchOver_spec s u .drained port folio (record (by decide)) wide canonical).2
  all_goals
    obtain ⟨_, _, _, _, _, frame⟩ := enterIdle_frame .drained u
    rw [frame]
  · rw [port]
  · exact unchanged_of (.inl (by decide)) (.inl (by decide)) (.inl (by decide)) (.inr (assembler (by decide)))
      (.inr (evaluator (by decide))) (.inl (by decide)) (.inr (engine (by decide))) (.inr (images (by decide)))
      (.inl (by decide)) (.inr (lines (by decide))) pending

/-! ## The feeder (R165, R168, R169) -/

theorem exec_feedTest (s : State) : exec .feedTest s = complete State.feedTest s := rfl

theorem exec_feedWindowPasses (s : State) : exec .feedWindowPasses s = complete State.passFeedWindow s := rfl

theorem feedTest_of_other {s : State} (other : s.batch.state ≠ .running ∨ s.batch.feeder ≠ .atRest) :
    s.feedTest = s :=
  if_pos other

theorem feedHolds_of_none {s : State} (none : (s.rejectFull || s.trayLimitStands) = false) : s.feedHolds.isEmpty = true := by
  obtain ⟨reject, limit⟩ := Bool.or_eq_false_iff.mp none
  rw [State.feedHolds, reject, limit]
  rfl

section FeedTest

variable {s : State} (running : s.batch.state = .running) (rests : s.batch.feeder = .atRest)

include running rests

theorem feedTest_of_held (held : (s.rejectFull || s.trayLimitStands) = true) :
    s.feedTest = s.enterFeedHold { s.batch.causes with
      trayLimit := s.batch.causes.trayLimit || s.trayLimitStands
      rejectFull := s.batch.causes.rejectFull || s.rejectFull } := by
  have some : s.feedHolds.isEmpty = false := by
    refine decide_eq_false fun none => ?_
    rw [show s.rejectFull = false from congrArg HoldCauses.rejectFull none,
      show s.trayLimitStands = false from congrArg HoldCauses.trayLimit none] at held
    exact Bool.false_ne_true held
  rw [State.feedTest, if_neg (by rw [running, rests]; simp), if_pos (by rw [some]; rfl), raise_of_running some running]
  refine congrArg (fun causes => s.enterFeedHold causes) ?_
  simp [HoldCauses.or, State.feedHolds]

theorem feedTest_of_wait (none : (s.rejectFull || s.trayLimitStands) = false) (waits : s.waits.any = true) :
    s.feedTest = s := by
  rw [State.feedTest, if_neg (by rw [running, rests]; simp),
    if_neg (by rw [feedHolds_of_none none]; decide), if_pos waits]

theorem feedTest_of_ready (none : (s.rejectFull || s.trayLimitStands) = false) (ready : s.waits.any = false) :
    s.feedTest = { s with batch.feeder := .feeding s.tracker.travel } := by
  rw [State.feedTest, if_neg (by rw [running, rests]; simp),
    if_neg (by rw [feedHolds_of_none none]; decide), if_neg (ne_true_of_eq_false ready)]

end FeedTest

theorem passFeedWindow_of_rest {s : State} (rests : s.batch.feeder = .atRest) : s.passFeedWindow = s :=
  if_pos (by rw [State.feedWindowPassed, rests]; rfl)

theorem passFeedWindow_of_open {s : State} {c : Long} (feeding : s.batch.feeder = .feeding c)
    (early : ¬ 2000 < (s.tracker.travel - c).toNat) : s.passFeedWindow = s := by
  refine if_pos ?_
  rw [State.feedWindowPassed, feeding]
  exact (Bool.not_eq_true' _).mpr (decide_eq_false early)

theorem passFeedWindow_of_passed {s : State} {c : Long} (feeding : s.batch.feeder = .feeding c)
    (past : 2000 < (s.tracker.travel - c).toNat) : s.passFeedWindow =
      if s.batch.state = .draining then State.endDrain { s with batch.feeder := .atRest }
      else State.raise { feederEmpty := true } { s with batch.feeder := .atRest } := by
  refine if_neg ?_
  rw [State.feedWindowPassed, feeding, Bool.not_eq_true', Bool.not_eq_false]
  exact decide_eq_true past

theorem or_feederEmpty (c : HoldCauses) : c.or { feederEmpty := true } = { c with feederEmpty := true } := by
  simp [HoldCauses.or]

/-- Settles O55. -/
theorem feederActs : Obligations.FeederActs := by
  unfold Obligations.FeederActs
  intro s feeding passed rejectFull trayLimit held
  refine ⟨fun other => idles_of_complete (exec_feedTest s) (feedTest_of_other (s := s.begin) other),
    fun running rests => ⟨fun some => ?_,
      fun none waits => idles_of_complete (exec_feedTest s) (feedTest_of_wait (s := s.begin) running rests none waits),
      fun none ready => ?_⟩,
    fun rests => idles_of_complete (exec_feedWindowPasses s) (passFeedWindow_of_rest (s := s.begin) rests),
    fun c fed early => idles_of_complete (exec_feedWindowPasses s) (passFeedWindow_of_open (s := s.begin) fed early),
    fun c fed past => ?_⟩
  · refine after_of_complete (exec_feedTest s) ?_
    rw [feedTest_of_held (s := s.begin) running rests some]
    exact enterFeedHold_spec held s.begin
  · refine after_of_complete (exec_feedTest s) ?_
    rw [feedTest_of_ready (s := s.begin) running rests none ready]
    exact ⟨rfl, by simp [Unchanged]⟩
  · have passes := passFeedWindow_of_passed (s := s.begin) fed past
    refine ⟨fun running => ?_, fun hold => ?_, fun drains busy => ?_, fun drains empty => ?_⟩
    all_goals
      refine after_of_complete (exec_feedWindowPasses s) ?_
      rw [passes]
    · rw [if_neg (by rw [show s.begin.batch.state = .running from running]; decide),
        raise_of_running (s := { s.begin with batch.feeder := .atRest }) rfl running, or_feederEmpty]
      obtain ⟨batch, notice, replies, unchanged⟩ := enterFeedHold_spec
        { s.batch.causes with feederEmpty := true } { s.begin with batch.feeder := .atRest }
      exact ⟨batch, notice, replies,
        unchanged_trans (t := { s.begin with batch.feeder := .atRest }) (by simp [Unchanged]) unchanged⟩
    · rw [if_neg (by rw [show s.begin.batch.state = .feedHold from hold]; decide),
        raise_of_feedHold (s := { s.begin with batch.feeder := .atRest }) rfl hold, or_feederEmpty]
      exact ⟨rfl, by simp [Unchanged]⟩
    · rw [if_pos (show s.begin.batch.state = .draining from drains),
        endDrain_of_not (s := { s.begin with batch.feeder := .atRest }) fun h => busy h.1]
      exact ⟨rfl, by simp [Unchanged]⟩
    · rw [if_pos (show s.begin.batch.state = .draining from drains),
        endDrain_of_empty (s := { s.begin with batch.feeder := .atRest }) drains empty rfl]
      exact drainOver_enterIdle s { s.begin with batch.feeder := .atRest } rfl rfl (by rw [← empty]; rfl) rfl
        (by simp [Unchanged])

end Sys2Proof.Proofs

/-! PROOFS. Edges at the entry and at the exits (R106 to R108, R115 to R118). -/

namespace Sys2Proof.Proofs

open Sys2Proof.Machine Sys2Proof.Safety Sys2Proof.Claims Sys2Proof.Laws Sys2Proof.Laws.Batches
  Sys2Proof.Laws.Decisions

/-! ## The pin moves, and the edge reaches the tracker (R106, R179) -/

theorem pinMoved_movePin (s : State) (l : LineIx) (asserted : Bool) :
    PinMoved s (s.begin.movePin l asserted) l (levelFor s l asserted) :=
  ⟨rfl, Vector.getElem_set_self l.isLt, fun k other =>
    Vector.getElem_set_ne l.isLt k.isLt fun same => other (Fin.ext same.symm)⟩

theorem pinMoved_of_lines {s t : State} {l : LineIx} {asserted : Bool}
    (lines : t.lines = (s.begin.movePin l asserted).lines) : PinMoved s t l (levelFor s l asserted) := by
  obtain ⟨settings, here, elsewhere⟩ := pinMoved_movePin s l asserted
  rw [← lines] at settings here elsewhere
  exact ⟨settings, here, elsewhere⟩

theorem unchanged_movePin (s : State) (l : LineIx) (asserted : Bool) :
    Unchanged [.lines] s (s.begin.movePin l asserted) := by
  simp [Unchanged, State.movePin, State.drive]

section Still

variable {s : State} (still : s.acts = false)

include still

theorem exitLeading_of_not_acts (path : Option TrayIx) : s.exitLeading path = s := if_pos (by rw [still]; rfl)

theorem exitTrailing_of_not_acts (path : Option TrayIx) : s.exitTrailing path = s := if_pos (by rw [still]; rfl)

theorem edge_of_not_acts (l : LineIx) (asserted : Bool) : s.edge l asserted = s := by
  have waits : (!s.acts) = true := by rw [still]; rfl
  unfold State.edge
  split
  · exact if_pos waits
  · exact if_pos waits
  · exact if_pos waits
  · exact if_pos waits
  · exact if_pos waits
  · exact if_pos waits
  · exact exitLeading_of_not_acts still _
  · exact exitTrailing_of_not_acts still _
  · exact exitLeading_of_not_acts still _
  · exact exitTrailing_of_not_acts still _
  · exact exitLeading_of_not_acts still _
  · exact exitTrailing_of_not_acts still _
  · exact exitLeading_of_not_acts still _
  · exact exitTrailing_of_not_acts still _
  · exact exitLeading_of_not_acts still _
  · exact exitTrailing_of_not_acts still _
  · rfl

end Still

theorem boardSeen_iff (s : State) (l : LineIx) : s.boardSeen l = true ↔ Wired s l := by
  rw [State.boardSeen, Bool.and_eq_true_iff, Bool.not_eq_true']
  rfl

theorem boardEdge_of_wired {s : State} {l : LineIx} (wired : Wired s l) (asserted : Bool) :
    s.begin.boardEdge l asserted = (s.begin.movePin l asserted).edge l asserted :=
  if_pos ((boardSeen_iff s l).mpr wired)

theorem boardEdge_of_unseen {s : State} {l : LineIx} (unseen : ¬ Wired s l ∨ s.acts = false) (asserted : Bool) :
    s.begin.boardEdge l asserted = s.begin.movePin l asserted := by
  by_cases wired : Wired s l
  · rw [boardEdge_of_wired wired]
    exact edge_of_not_acts (s := s.begin.movePin l asserted) (unseen.resolve_left (not_not.mpr wired)) l asserted
  · exact if_neg fun seen => wired ((boardSeen_iff s l).mp seen)

section Edge

variable {i : Instr} {s : State} {l : LineIx} {asserted : Bool} (run : exec i s = complete (State.boardEdge l asserted) s)

include run

theorem after_of_unseen (unseen : ¬ Wired s l ∨ s.acts = false) :
    After i s fun t => PinMoved s t l (levelFor s l asserted) ∧ Unchanged [.lines] s t := by
  refine after_of_complete run ?_
  rw [boardEdge_of_unseen unseen]
  exact ⟨pinMoved_movePin s l asserted, unchanged_movePin s l asserted⟩

theorem after_of_wired (wired : Wired s l) {holds : State → Prop}
    (after : holds ((s.begin.movePin l asserted).edge l asserted)) : After i s holds := by
  refine after_of_complete run ?_
  rw [boardEdge_of_wired wired]
  exact after

theorem after_of_jam (wired : Wired s l) (acts : s.acts = true) {cause : JamCause} {line : Option LineIx}
    {ticket : Option Word} (jams : (s.begin.movePin l asserted).edge l asserted =
      (s.begin.movePin l asserted).jam cause line ticket) :
    After i s fun t => PinMoved s t l (levelFor s l asserted) ∧ Jams s t cause line ticket := by
  refine after_of_wired run wired ?_
  rw [jams]
  obtain ⟨⟨batch, tracker, images, notice, replies, unchanged⟩, lines⟩ :=
    jams_jam (s := s.begin.movePin l asserted) acts cause line ticket
  exact ⟨pinMoved_of_lines lines, batch, tracker, images, notice, replies,
    unchanged_trans (unchanged_mono (by decide) (unchanged_movePin s l asserted)) unchanged⟩

end Edge

/-! ## The entry sensor (R100, R102, R107, R176) -/

theorem exec_entryLeadingEdge (s : State) : exec .entryLeadingEdge s = complete (State.boardEdge 0 true) s := rfl

theorem exec_entryTrailingEdge (s : State) : exec .entryTrailingEdge s = complete (State.boardEdge 0 false) s := rfl

section Entry

variable {s : State} (acts : s.acts = true)

include acts

theorem entryLeading_of_room (room : s.tracker.train.length < 6) : s.entryLeading = State.sheetEntered
    { s with
      tracker.train := s.tracker.train ++ [.enter s.tracker.nextOrdinal s.tracker.travel]
      tracker.nextOrdinal := ordinalAfter s.tracker.nextOrdinal } :=
  (if_neg (by rw [acts]; decide)).trans (if_neg (Nat.not_le.mpr room))

theorem entryLeading_of_full (full : 6 ≤ s.tracker.train.length) :
    s.entryLeading = s.jam .trainOverrun (some 0) none :=
  (if_neg (by rw [acts]; decide)).trans (if_pos full)

theorem entryTrailing_of_empty (empty : s.tracker.train = []) : s.entryTrailing = s.jam .straySheet (some 0) none := by
  rw [State.entryTrailing, if_neg (by rw [acts]; decide), empty]
  rfl

theorem entryTrailing_of_known {before : List Ticket} {u : Ticket} (train : s.tracker.train = before ++ [u])
    (known : u.length.isSome ∨ 7200 < leadingOf s u) : s.entryTrailing = s.jam .straySheet (some 0) none := by
  rw [State.entryTrailing, if_neg (by rw [acts]; decide), train, List.getLast?_concat]
  exact if_pos known

theorem entryTrailing_of_new {before : List Ticket} {u : Ticket} (train : s.tracker.train = before ++ [u])
    (new : u.length = none) (short : leadingOf s u ≤ 7200) : s.entryTrailing =
      State.editTicket u.ordinal (Ticket.measure (leadingOf s u) s.shortThreshold s.longThreshold)
        { s with tracker.lastEntryTrailing := some s.tracker.travel } := by
  rw [State.entryTrailing, if_neg (by rw [acts]; decide), train, List.getLast?_concat]
  refine if_neg fun known => ?_
  rcases known with known | known
  · rw [new] at known
    cases known
  · exact absurd known (Nat.not_lt.mpr short)

end Entry

/-- Settles O56. -/
theorem entryEdges : Obligations.EntryEdges := by
  unfold Obligations.EntryEdges
  intro s
  refine ⟨fun unseen => ⟨after_of_unseen (exec_entryLeadingEdge s) unseen,
    after_of_unseen (exec_entryTrailingEdge s) unseen⟩, fun wired acts => ⟨fun room => ?_, fun full => ?_,
    fun before u train new short => ?_, fun stray => ?_⟩⟩
  · refine after_of_wired (exec_entryLeadingEdge s) wired ?_
    rw [show State.edge 0 true _ = _ from entryLeading_of_room (s := s.begin.movePin 0 true) acts room]
    exact ⟨pinMoved_of_lines rfl, rfl, rfl, by simp [Unchanged, State.movePin, State.drive, State.sheetEntered]⟩
  · exact after_of_jam (exec_entryLeadingEdge s) wired acts
      (entryLeading_of_full (s := s.begin.movePin 0 true) acts full)
  · refine after_of_wired (exec_entryTrailingEdge s) wired ?_
    rw [show State.edge 0 false _ = _ from
      entryTrailing_of_new (s := s.begin.movePin 0 false) acts train new short]
    exact ⟨pinMoved_of_lines rfl, rfl, by simp [Unchanged, State.movePin, State.drive, State.editTicket]⟩
  · refine after_of_jam (exec_entryTrailingEdge s) wired acts ?_
    rcases stray with empty | ⟨before, u, train, known⟩
    · exact entryTrailing_of_empty (s := s.begin.movePin 0 false) acts empty
    · exact entryTrailing_of_known (s := s.begin.movePin 0 false) acts train known

/-! ## The oldest ticket of a kind -/

theorem oldest_of {s w : State} {p : Ticket → Bool} {test : Ticket → Prop} {u : Ticket}
    (is : ∀ v, p v = true ↔ test v) (oldest : Oldest s test u) (train : w.tracker.train = s.tracker.train) :
    w.oldest p = some u := by
  obtain ⟨before, after, order, holds, older⟩ := oldest
  rw [State.oldest, train, order]
  exact List.find?_eq_some_iff_append.mpr ⟨(is u).mpr holds, before, after, rfl, fun b on =>
    (Bool.not_eq_true' _).mpr (Bool.eq_false_iff.mpr fun h => older b on ((is b).mp h))⟩

theorem oldest_of_none {s w : State} {p : Ticket → Bool} {test : Ticket → Prop}
    (is : ∀ v, p v = true ↔ test v) (never : ∀ u ∈ s.tracker.train, ¬ test u)
    (train : w.tracker.train = s.tracker.train) : w.oldest p = none := by
  rw [State.oldest, train]
  exact List.find?_eq_none.mpr fun u on h => never u on ((is u).mp h)

theorem within_iff (position target reach : Nat) : within position target reach = true ↔ Near position target reach := by
  rw [within, Near, Bool.and_eq_true_iff, decide_eq_true_iff, decide_eq_true_iff]

theorem trailingWithin_iff (s : State) (position : Nat) (u : Ticket) : s.trailingWithin position u = true ↔
    ∃ n, u.length = some n ∧ Near (trailingOf s u n) position s.tracker.profile[13] := by
  rw [State.trailingWithin, trailing_eq]
  rcases u.length with - | n
  · simp
  · simp only [Option.map_some, Option.some.injEq, exists_eq_left']
    exact within_iff _ _ _

/-! ## The exits (R15, R16, R71, R115 to R118) -/

theorem exec_exitLeadingEdge (x : Exit) (s : State) :
    exec (.exitLeadingEdge x) s = complete (State.boardEdge (exitLine (exitPath x)) true) s := rfl

theorem exec_exitTrailingEdge (x : Exit) (s : State) :
    exec (.exitTrailingEdge x) s = complete (State.boardEdge (exitLine (exitPath x)) false) s := rfl

theorem edge_exit_leading (path : Option TrayIx) (s : State) : s.edge (exitLine path) true = s.exitLeading path := by
  rcases path with - | k
  · rfl
  · fin_cases k <;> rfl

theorem edge_exit_trailing (path : Option TrayIx) (s : State) :
    s.edge (exitLine path) false = s.exitTrailing path := by
  rcases path with - | k
  · rfl
  · fin_cases k <;> rfl

theorem expectsExit_iff (s : State) (path : Option TrayIx) (u : Ticket) :
    (decide (u.path = path) && u.armed.exitLeading &&
      within (u.leading s.tracker.travel) (s.exitPosition path) s.tolerance) = true ↔ ExpectsExit s path u := by
  rw [Bool.and_eq_true_iff, Bool.and_eq_true_iff, decide_eq_true_iff, within_iff, and_assoc, ExpectsExit, exitAt_eq]
  rfl

theorem expectsExitEnd_iff (s : State) (path : Option TrayIx) (u : Ticket) :
    (decide (u.path = path) && u.armed.exitTrailing && s.trailingWithin (s.exitPosition path) u) = true ↔
      ExpectsExitEnd s path u := by
  rw [Bool.and_eq_true_iff, Bool.and_eq_true_iff, decide_eq_true_iff, trailingWithin_iff, and_assoc, ExpectsExitEnd,
    exitAt_eq]

/-- What a delivery tells the record and the tray, before the ticket leaves the train. -/
def told (path : Option TrayIx) (d : Decision) (s : State) : State :=
  match path with
  | some k =>
    match d.page with
    | some g => (s.editTray k Tray.deliver).deliverPage (slotOf g.folio) (s.assembler.trays[k].fill + 1)
    | none => s.editTray k Tray.deliver
  | none =>
    match d.page, d.astray with
    | some g, some a => s.notShelved g d.route a.detail
    | _, _ => s

/-- The delivery of a decided ticket. -/
def delivered (path : Option TrayIx) (u : Ticket) (d : Decision) (s : State) : State :=
  (told path d s).removeTicket u.ordinal

section Exit

variable {s : State} (acts : s.acts = true) {path : Option TrayIx}

include acts

theorem exitTrailing_of_decided {u : Ticket} {d : Decision} (oldest : Oldest s (ExpectsExitEnd s path) u)
    (decided : u.decision = some d) : s.exitTrailing path = (delivered path u d s).endDrain := by
  rw [State.exitTrailing, if_neg (by rw [acts]; decide), oldest_of (expectsExitEnd_iff s path) oldest rfl]
  rcases path with - | k
  · dsimp only
    rw [State.deliverReject, decided, delivered, told]
    dsimp only
    rcases d.page with - | g
    · rfl
    · rcases d.astray with - | a <;> rfl
  · dsimp only
    rw [State.deliverTray, decided, delivered, told, Option.bind_some]
    rcases d.page with - | g <;> rfl

theorem exitTrailing_of_undecided {u : Ticket} (oldest : Oldest s (ExpectsExitEnd s none) u)
    (undecided : u.decision = none) : s.exitTrailing none =
      s.editTicket u.ordinal fun v => { v with flags.exitedUndecided := true, armed := {} } := by
  rw [State.exitTrailing, if_neg (by rw [acts]; decide), oldest_of (expectsExitEnd_iff s none) oldest rfl]
  dsimp only
  rw [State.deliverReject, undecided]

theorem exitTrailing_of_stray (never : ∀ u ∈ s.tracker.train, ¬ ExpectsExitEnd s path u) :
    s.exitTrailing path = s.jam .misdelivery (some (exitLine path)) none := by
  rw [State.exitTrailing, if_neg (by rw [acts]; decide), oldest_of_none (expectsExitEnd_iff s path) never rfl]

theorem exitLeading_of_expected {u : Ticket} (oldest : Oldest s (ExpectsExit s path) u) :
    s.exitLeading path =
      s.editTicket u.ordinal fun v => { v with armed.exitLeading := false, armed.exitTrailing := true } := by
  rw [State.exitLeading, if_neg (by rw [acts]; decide), oldest_of (expectsExit_iff s path) oldest rfl]

theorem exitLeading_of_stray (never : ∀ u ∈ s.tracker.train, ¬ ExpectsExit s path u) :
    s.exitLeading path = s.jam .misdelivery (some (exitLine path)) none := by
  rw [State.exitLeading, if_neg (by rw [acts]; decide), oldest_of_none (expectsExit_iff s path) never rfl]

end Exit

/-- A delivery tells the record, the notices and the trays, and nothing else. -/
theorem told_frame (path : Option TrayIx) (d : Decision) (s : State) : ∃ record journal notices kept trays,
    told path d s = { s with record := record, journal := journal, port.notices := notices, folio.kept := kept
                             assembler.trays := trays } := by
  unfold told
  rcases path with - | k
  · dsimp only
    rcases d.page with - | g
    · exact ⟨_, _, _, _, _, rfl⟩
    · rcases d.astray with - | a
      · exact ⟨_, _, _, _, _, rfl⟩
      · exact notShelved_frame s g d.route a.detail
  · dsimp only
    rcases d.page with - | g
    · exact ⟨_, _, _, _, _, rfl⟩
    · obtain ⟨_, _, _, _, frame⟩ := settle_frame (s.editTray k Tray.deliver) (slotOf g.folio) _
      dsimp only
      rw [State.deliverPage, frame]
      exact ⟨_, _, _, _, _, rfl⟩

/-- What a delivery leaves, with a page or not. -/
theorem unchanged_delivered (path : Option TrayIx) (u : Ticket) (d : Decision) (s : State) :
    (delivered path u d s).tracker = { s.tracker with train := without s u } ∧
    Unchanged [.port, .folio, .record, .assembler, .tracker] s (delivered path u d s) := by
  obtain ⟨_, _, _, _, _, frame⟩ := told_frame path d s
  rw [delivered, frame]
  exact ⟨rfl, by simp [Unchanged, State.removeTicket]⟩

theorem delivered_of_no_page {path : Option TrayIx} {d : Decision} (u : Ticket) (s : State) (none : d.page = none) :
    (delivered path u d s).port = s.port ∧ (delivered path u d s).folio = s.folio ∧
      (delivered path u d s).record = s.record := by
  rw [delivered]
  unfold told
  rcases path with - | k <;> dsimp only <;> rw [none] <;> exact ⟨rfl, rfl, rfl⟩

theorem pageDelivered_deliverPage {s : State} (c : Canonical s) (g : PageOf) (k : TrayIx) : PageDelivered s
    ((s.editTray k Tray.deliver).deliverPage (slotOf g.folio) (s.assembler.trays[k].fill + 1)) g k := by
  have settled := settled_settle s (s.editTray k Tray.deliver) c (slotOf g.folio)
    { s.slot (g.folio.toNat / 16) with
      firstPosition := (if (s.slot (g.folio.toNat / 16)).shelved = 0 then some (s.assembler.trays[k].fill + 1)
        else (s.slot (g.folio.toNat / 16)).firstPosition)
      lastPosition := some (s.assembler.trays[k].fill + 1)
      shelved := (s.slot (g.folio.toNat / 16)).shelved + 1
      outstanding := (s.slot (g.folio.toNat / 16)).outstanding - 1 } rfl rfl rfl
  obtain ⟨_, _, _, _, frame⟩ := settle_frame (s.editTray k Tray.deliver) (slotOf g.folio)
    { s.slot (g.folio.toNat / 16) with
      firstPosition := (if (s.slot (g.folio.toNat / 16)).shelved = 0 then some (s.assembler.trays[k].fill + 1)
        else (s.slot (g.folio.toNat / 16)).firstPosition)
      lastPosition := some (s.assembler.trays[k].fill + 1)
      shelved := (s.slot (g.folio.toNat / 16)).shelved + 1
      outstanding := (s.slot (g.folio.toNat / 16)).outstanding - 1 }
  have trays : ((s.editTray k Tray.deliver).deliverPage (slotOf g.folio)
      (s.assembler.trays[k].fill + 1)).assembler = (s.editTray k Tray.deliver).assembler :=
    (congrArg State.assembler frame :)
  refine ⟨?_, fun j other => ?_, settled⟩
  · rw [trays]
    exact trays_editTray_self k Tray.deliver s
  · rw [trays]
    exact trays_editTray_ne other Tray.deliver s

theorem pageDelivered_delivered {s : State} (c : Canonical s) {k : TrayIx} {d : Decision} {g : PageOf} (u : Ticket)
    (page : d.page = some g) : PageDelivered s (delivered (some k) u d s) g k := by
  have page' := pageDelivered_deliverPage c g k
  rw [delivered, told, page]
  exact page'

theorem notShelved_delivered {s : State} (c : Canonical s) {k : TrayIx} {d : Decision} {g : PageOf} {a : Astray}
    (u : Ticket) (page : d.page = some g) (astray : d.astray = some a) (route : d.route = some k) :
    NotShelved s (delivered none u d s) g k a.detail := by
  have resolved := notShelved_spec s s c rfl rfl rfl rfl g k a.detail
  rw [delivered, told, page, astray, route]
  exact resolved

theorem pathOf_eq (x : Exit) : exitPath x = pathOf x := by
  cases x <;> rfl

theorem endDrain_delivered {s : State} {path : Option TrayIx} {u : Ticket} {d : Decision}
    (stays : ¬ DrainEnds s (without s u)) : (delivered path u d s).endDrain = delivered path u d s := by
  obtain ⟨tracker, -, -, -, -, -, -, -, -, batch, -⟩ := unchanged_delivered path u d s
  refine if_neg fun ends => stays ?_
  rwa [batch (by decide), tracker] at ends

theorem endDrain_delivered_last {s : State} {path : Option TrayIx} {u : Ticket} {d : Decision}
    (ends : DrainEnds s (without s u)) :
    (delivered path u d s).endDrain = (delivered path u d s).enterIdle .drained := by
  obtain ⟨tracker, -, -, -, -, -, -, -, -, batch, -⟩ := unchanged_delivered path u d s
  refine if_pos ?_
  rw [batch (by decide), tracker]
  exact ends

theorem canonical_delivered {s : State} (c : Canonical s) (path : Option TrayIx) (u : Ticket) (d : Decision) :
    Canonical (delivered path u d s) := by
  suffices quiet : Quiet s (told path d s) from quiet.canonical c
  unfold told
  rcases path with - | k
  · rcases d.page with - | g
    · exact .rfl
    · rcases d.astray with - | a
      · exact .rfl
      · exact quiet_notShelved _ _ _ _
  · rcases d.page with - | g
    · exact quiet_editTray _ _ _
    · exact (quiet_editTray _ _ _).trans (quiet_deliverPage _ _ _)

section ExitEdge

variable {s : State} {x : Exit} {l : LineIx} (line : l = (exitAt s (pathOf x)).2)

include line

theorem exitLine_of : l = exitLine (exitPath x) := by
  rw [line, exitAt_eq, pathOf_eq]

theorem run_exitLeading : exec (.exitLeadingEdge x) s = complete (State.boardEdge l true) s := by
  rw [exitLine_of line]
  rfl

theorem run_exitTrailing : exec (.exitTrailingEdge x) s = complete (State.boardEdge l false) s := by
  rw [exitLine_of line]
  rfl

theorem leading_at_exit (w : State) : w.edge l true = w.exitLeading (pathOf x) := by
  rw [exitLine_of line, edge_exit_leading, pathOf_eq]

theorem trailing_at_exit (w : State) : w.edge l false = w.exitTrailing (pathOf x) := by
  rw [exitLine_of line, edge_exit_trailing, pathOf_eq]

theorem misdelivery_line : exitLine (pathOf x) = l := by
  rw [exitLine_of line, pathOf_eq]

end ExitEdge

/-- The pin of a line has moved, and its ticket been delivered. -/
theorem delivered_at_pin (s : State) (l : LineIx) (path : Option TrayIx) (u : Ticket) (d : Decision) :
    let m := delivered path u d (s.begin.movePin l false)
    m.tracker = { s.tracker with train := without s u } ∧ PinMoved s m l (levelFor s l false) ∧
      Unchanged [.port, .folio, .record, .assembler, .tracker, .lines] s m := by
  intro m
  obtain ⟨tracker, unchanged⟩ := unchanged_delivered path u d (s.begin.movePin l false)
  obtain ⟨-, -, -, -, -, -, -, -, -, lines, -⟩ := id unchanged
  exact ⟨tracker, pinMoved_of_lines (lines (by decide)),
    unchanged_trans (unchanged_mono (by decide) (unchanged_movePin s l false)) (unchanged_mono (by decide) unchanged)⟩

/-- Settles O58: the delivery tells the record and the tray before its ticket leaves the train. -/
theorem exitEdges : Obligations.ExitEdges := by
  unfold Obligations.ExitEdges
  intro s x l
  have line : l = (exitAt s (pathOf x)).2 := rfl
  clear_value l
  have leads := run_exitLeading line
  have trails := run_exitTrailing line
  refine ⟨fun unseen => ⟨after_of_unseen leads unseen, after_of_unseen trails unseen⟩, fun wired acts => ?_⟩
  set w := s.begin.movePin l false with wIs
  have still : w.acts = true := acts
  refine ⟨fun u oldest => ?_, fun never => ?_, fun never => ?_, fun u k d g oldest tray decided page stays c => ?_,
    fun u oldest reject undecided => ?_, fun u d oldest reject decided page stays => ?_,
    fun u d g a k oldest reject decided page astray route stays c => ?_, fun u d oldest decided ends c => ?_⟩
  · refine after_of_wired leads wired ?_
    rw [leading_at_exit line, exitLeading_of_expected (s := s.begin.movePin l true) acts oldest]
    exact ⟨rfl, pinMoved_of_lines rfl, by simp [Unchanged, State.movePin, State.drive, State.editTicket]⟩
  · refine after_of_jam leads wired acts ?_
    rw [leading_at_exit line, exitLeading_of_stray (s := s.begin.movePin l true) acts never, misdelivery_line line]
  · refine after_of_jam trails wired acts ?_
    rw [trailing_at_exit line, exitTrailing_of_stray (s := w) still never, misdelivery_line line]
  · subst tray
    refine after_of_wired trails wired ?_
    rw [trailing_at_exit line, exitTrailing_of_decided (s := w) still oldest decided, endDrain_delivered (s := w) stays]
    obtain ⟨tracker, -, unchanged⟩ := delivered_at_pin s l (some k) u d
    exact ⟨pageDelivered_delivered (s := w) c u page, tracker, unchanged⟩
  · subst reject
    refine after_of_wired trails wired ?_
    rw [trailing_at_exit line, show pathOf .reject = none from rfl,
      exitTrailing_of_undecided (s := w) still oldest undecided]
    exact ⟨rfl, pinMoved_of_lines rfl, by simp [Unchanged, wIs, State.movePin, State.drive, State.editTicket]⟩
  · subst reject
    refine after_of_wired trails wired ?_
    rw [trailing_at_exit line, exitTrailing_of_decided (s := w) still oldest decided, endDrain_delivered (s := w) stays]
    have quiet : delivered none u d w = w.removeTicket u.ordinal := by
      rw [delivered, told, page]
    obtain ⟨tracker, moved, -⟩ := delivered_at_pin s l none u d
    refine ⟨tracker, moved, ?_⟩
    rw [show pathOf .reject = none from rfl, quiet]
    simp [Unchanged, wIs, State.movePin, State.drive, State.removeTicket]
  · subst reject
    refine after_of_wired trails wired ?_
    rw [trailing_at_exit line, exitTrailing_of_decided (s := w) still oldest decided, endDrain_delivered (s := w) stays]
    obtain ⟨tracker, -, unchanged⟩ := delivered_at_pin s l none u d
    have resolved := notShelved_delivered (s := w) c u page astray route
    refine ⟨?_, tracker, unchanged⟩
    cases a <;> exact resolved
  · refine after_of_wired trails wired ?_
    rw [trailing_at_exit line, exitTrailing_of_decided (s := w) still oldest decided,
      endDrain_delivered_last (s := w) ends]
    obtain ⟨tracker, moved, unchanged⟩ := delivered_at_pin s l (pathOf x) u d
    set m := delivered (pathOf x) u d w with mIs
    obtain ⟨-, empty, -⟩ := ends
    rw [empty] at tracker
    have emptied : m.tracker = { m.tracker with train := [] } := by rw [tracker]
    obtain ⟨-, ended, replies, rest⟩ := drainOver_enterIdle m m rfl rfl emptied rfl (Unchanged.rfl (s := m))
    refine ⟨m, tracker, fun k g tray page => ?_, fun g a k reject page astray route => ?_,
      fun none => delivered_of_no_page u w none, moved, unchanged,
      ended (canonical_delivered (s := w) c (pathOf x) u d), replies, rest⟩
    · subst tray
      exact pageDelivered_delivered (s := w) c u page
    · subst reject
      have resolved := notShelved_delivered (s := w) c u page astray route
      cases a <;> exact resolved

end Sys2Proof.Proofs

/-! PROOFS. Decisions and their outcomes (R10 to R13, R51, R53 to R65, R112, R118, R171). -/

namespace Sys2Proof.Proofs

open Sys2Proof.Machine Sys2Proof.Safety Sys2Proof.Claims Sys2Proof.Laws Sys2Proof.Laws.Batches
  Sys2Proof.Laws.Decisions

/-! ## The decision claim (R51) -/

theorem exec_decision (x y : Drive) (s : State) :
    exec (.decision x y) s = complete (fun s => ((s.drive 22 x).drive 23 y).decide) s := rfl

theorem claims_iff (s : State) (u : Ticket) : (decide (u.stage = .captured) && !s.outcomeStands u.ordinal) = true ↔
    u.stage = .captured ∧ ∀ o ∈ s.assembler.outcomes, o.ordinal ≠ u.ordinal := by
  rw [Bool.and_eq_true_iff, decide_eq_true_iff, Bool.not_eq_true', State.outcomeStands, List.any_eq_false]
  simp

/-- The state in which the Assembler rules on a sheet: the switches sampled and the terms run. -/
def ruling (s : State) (u : Ticket) : State := { s with evaluator := s.evaluate u }

/-- The ruling on a sheet, with its outcome handed over. -/
def handed (s : State) (u : Ticket) : State :=
  let w := State.rule (s.evaluate u) u (ruling s u)
  { w.1 with assembler.outcomes := w.1.assembler.outcomes ++ [{ ordinal := u.ordinal, decision := w.2 }] }

theorem decide_of_due {s : State} {u : Ticket} (due : Due s u) : s.decide = (handed s u).drainClose := by
  obtain ⟨acts, oldest⟩ := due
  have claimed : s.claimed = some u := oldest_of (claims_iff s) oldest rfl
  rw [State.decide, if_neg (by rw [acts]; decide), claimed]
  rfl

theorem decide_of_none {s : State} (none : s.acts = false ∨ ∀ u ∈ s.tracker.train, u.stage ≠ .captured) :
    s.decide = s := by
  rcases none with still | none
  · exact if_pos (by rw [still]; rfl)
  · have unclaimed : s.claimed = .none := oldest_of_none (claims_iff s) (fun u on claim => none u on claim.1) rfl
    rw [State.decide, unclaimed]
    split <;> rfl

/-! ## The rows of the ruling (R53) -/

theorem rule_of_separator {e : Evaluator} (separates : e.outcome.separator = true) (u : Ticket) (s : State) :
    State.rule e u s = (s.takeSeparator u, .reject .separator e.tags) :=
  if_pos separates

section Rows

variable {e : Evaluator} (stays : e.outcome.separator = false) {u : Ticket}

include stays

theorem rule_of_reject {r : RejectReason} (reason : rejectReason e u = some r) (s : State) :
    State.rule e u s = ((s.takeReject u).tellReject r.detail, .reject r e.tags) := by
  rw [State.rule, if_neg (ne_true_of_eq_false stays), reason]

theorem rule_of_sheet (kept : u.flags.imageLost = false) (filed : e.outcome.reject = none) (s : State) :
    State.rule e u s = s.takeSheet e u := by
  have none : rejectReason e u = .none := by
    rw [rejectReason, kept, filed]
    rfl
  rw [State.rule, if_neg (ne_true_of_eq_false stays), none]

end Rows

theorem detail_of_reason {e : Evaluator} {u : Ticket} {r : RejectReason} (reason : rejectReason e u = some r) :
    r.detail = if u.flags.imageLost then 16 else e.outcome.reject.getD 0 := by
  rw [rejectReason] at reason
  cases lost : u.flags.imageLost <;> rw [lost] at reason
  · obtain ⟨n, is, rfl⟩ := Option.map_eq_some_iff.mp reason
    rw [is]
    rfl
  · cases reason
    rfl

theorem boxFull_iff (s : State) (k : TrayIx) : s.assembler.trays[k].boxFull = true ↔ BoxFull s k := by
  rw [Tray.boxFull, decide_eq_true_iff]
  rfl

theorem eligible_tray (s : State) (k : TrayIx) : s.assembler.trays[k].eligible = true ↔ Eligible s k :=
  eligible_iff _

/-! ## No tray and no record (R57, R58, R60) -/

theorem chooseTray_of_unavailable {s : State} {k : TrayIx} (closed : ¬ Eligible s k) :
    s.chooseTray (.tray k) = none :=
  if_neg fun h => closed ((eligible_tray s k).mp h)

theorem chooseTray_of_all_unavailable {s : State} (closed : ∀ k, ¬ Eligible s k) : s.chooseTray .rotation = none :=
  List.find?_eq_none.mpr fun k _ h => closed k ((eligible_tray s k).mp h)

theorem openClaim_of_noRecord {s : State} (none : NoRecord s) : s.openClaim = .none := by
  rw [State.openClaim]
  split
  · rfl
  · next room =>
    rcases none with full | kept | unknown | ⟨place, ⟨pinned, known⟩, spent⟩
    · exact absurd (.inl full) room
    · exact absurd (.inr kept) room
    · rw [show s.findMatter s.batch.matter = .none from unknown]
    · rw [known]
      cases s.freeSlot with
      | none => rfl
      | some n => exact if_pos spent

theorem takeOpen_of_no_tray {e : Evaluator} {s : State} (none : s.chooseTray e.outcome.route = .none) (u : Ticket) :
    s.takeOpen e u = match e.outcome.route with
      | .none => s.turnAway u .noRoute e.tags {}
      | .tray _ => s.turnAway u .trayUnavailable e.tags {}
      | .rotation => s.turnAway u .trayUnavailable e.tags { noTray := true } := by
  rw [State.takeOpen, none] <;> cases e.outcome.route <;> rfl

theorem takeOpen_of_noRecord {e : Evaluator} {s : State} {k : TrayIx} (tray : s.chooseTray e.outcome.route = some k)
    (none : s.openClaim = .none) (u : Ticket) :
    s.takeOpen e u = s.turnAway u .noRecord e.tags { tableFull := true } := by
  rw [State.takeOpen, tray, none]

/-! ## A document opened behind another (R11, R56, R63) -/

theorem resolve_ok {s : State} {f : Word} {r : Record} (is : s.resolve f = .ok r) : Names s f r := by
  rw [State.resolve] at is
  split at is
  · cases is
  · next used =>
    split at is
    · cases is
    · next same =>
      split at is
      · next live =>
        cases is
        refine ⟨rfl, not_not.mp same, ?_⟩
        generalize (s.slot (slotOf f)).state = state at live
        cases state <;> simp_all [RecordState.live]
      · cases is

theorem livePredecessor_of_names {s : State} {f : Word} {r : Record} (names : Names s f r) :
    s.livePredecessor (some f) = some f := by
  rw [State.livePredecessor, resolve_of_names names]

theorem livePredecessor_of_no_names {s : State} {f : Word} (never : ∀ r, ¬ Names s f r) :
    s.livePredecessor (some f) = none := by
  rw [State.livePredecessor]
  cases h : s.resolve f with
  | error code => rfl
  | ok r => exact absurd (resolve_ok h) (never r)

theorem slot_ne_of_names {s : State} {f : Word} {r : Record} {n : Nat} (names : Names s f r)
    (free : (s.slot n).state = .free) : f.toNat / 16 ≠ n := by
  rintro rfl
  obtain ⟨is, -, live⟩ := names
  rw [is] at free
  rw [free] at live
  simp at live

/-- A state that stands for another where a document is opened: the open one closed, if there was one, and the
claim on slot, place and predecessor made. -/
structure OpeningFrom (s q : State) (n place : Nat) (predecessor : Option Word) : Prop where
  canonical : Canonical q
  slot : q.slot n = s.slot n
  matter : q.matterAt place = s.matterAt place
  link : ∀ p, q.link p = s.link p
  trays : q.assembler.trays = s.assembler.trays
  rotation : q.assembler.rotation = s.assembler.rotation
  outcomes : q.assembler.outcomes = s.assembler.outcomes
  batch : q.batch = s.batch
  tracker : q.tracker = s.tracker
  freeSlots : q.folio.freeSlots = s.folio.freeSlots
  claim : q.openClaim = some (n, place)
  behind : q.livePredecessor (if q.assembler.marker then q.assembler.lastClosed else none) = predecessor
  apart : ∀ f, predecessor = some f → f.toNat / 16 ≠ n
  closed : ∀ d, s.assembler.openDocument = some d → d.folio.toNat / 16 ≠ n ∧
    (q.slot (d.folio.toNat / 16)).state = closedState (s.slot (d.folio.toNat / 16))

theorem openingFrom_self {s : State} {n place : Nat} {predecessor : Option Word} (c : Canonical s)
    (shut : s.assembler.openDocument = none) (opens : Opens s n place)
    (behind : s.livePredecessor (if s.assembler.marker then s.assembler.lastClosed else none) = predecessor)
    (apart : ∀ f, predecessor = some f → f.toNat / 16 ≠ n) : OpeningFrom s s n place predecessor := by
  have claim : s.openClaim = some (n, place) := by
    obtain ⟨-, kept, -, free, lowest, -⟩ := id opens
    exact claim_eq s s n place opens rfl rfl kept rfl rfl free lowest
  exact ⟨c, rfl, rfl, fun _ => rfl, rfl, rfl, rfl, rfl, rfl, rfl, claim, behind, apart, fun d is => by
    rw [shut] at is
    cases is⟩

theorem closedState_live (r : Record) : closedState r = .filing ∨ closedState r = .filed := by
  rw [closedState]
  split
  · exact .inl rfl
  · exact .inr rfl

theorem closedState_ne_free (r : Record) : closedState r ≠ .free := by
  rcases closedState_live r with is | is <;> rw [is] <;> decide

/-- The close that makes room for a document lets its notice out at once, or has none. -/
theorem folio_closeRecord {s : State} {n : Nat} (kept : s.folio.kept = [])
    (room : 0 < (s.slot n).outstanding ∨ s.port.notices.length < 16) : (s.closeRecord n).folio = s.folio := by
  have closed := close_spec s n
  by_cases busy : 0 < (s.slot n).outstanding
  · exact (closed.busy busy).2
  · exact (closed.note (Nat.eq_zero_of_not_pos busy) kept (room.resolve_left busy)).2

theorem openingFrom_close {s : State} {n place : Nat} {d : OpenDocument} {r : Record} (c : Canonical s)
    (bound : s.assembler.openDocument = some d) (names : Names s d.folio r)
    (room : 0 < r.outstanding ∨ s.port.notices.length < 16) (opens : Opens s n place) :
    OpeningFrom s (s.closeDocument (some true)) n place (some d.folio) := by
  obtain ⟨-, kept, -, free, lowest, -⟩ := id opens
  obtain ⟨is, same, -⟩ := id names
  have apart := slot_ne_of_names names free
  have closed := close_spec s (d.folio.toNat / 16)
  have rest := closed.rest
  have folio := folio_closeRecord kept (by rw [is]; exact room)
  rw [closeDoc_eq s (some true) d bound]
  generalize s.closeRecord (d.folio.toNat / 16) = w at closed rest folio ⊢
  have live : Names w d.folio { r with state := closedState r } :=
    ⟨by rw [closed.slot c, is], same, .inr (closedState_live r)⟩
  refine ⟨closed.can c, closed.other n apart.symm, closed.place place, closed.link, rfl, rfl, rfl,
    (congrArg State.batch rest :), (congrArg State.tracker rest :), (congrArg FolioTable.freeSlots folio :), ?_, ?_, ?_, ?_⟩
  · refine claim_eq s _ n place opens (congrArg State.batch rest :) (congrArg FolioTable.freeSlots folio :) ?_
      (congrArg FolioTable.index folio :) (closed.place place) ?_ fun m below => ?_
    · exact (congrArg FolioTable.kept folio).trans kept
    · exact (congrArg Record.state (closed.other n apart.symm)).trans free
    · by_cases here : m = d.folio.toNat / 16
      · subst here
        exact fun isFree => closedState_ne_free _ ((congrArg Record.state (closed.slot c)).symm.trans isFree)
      · exact fun isFree => lowest m below ((congrArg Record.state (closed.other m here)).symm.trans isFree)
  · exact livePredecessor_of_names live
  · rintro f ⟨⟩
    exact apart
  · intro d' bound'
    obtain rfl : d = d' := Option.some.inj (bound.symm.trans bound')
    exact ⟨apart, congrArg Record.state (closed.slot c)⟩

/-- The state a sheet opens its document from. -/
theorem openingFrom_of {s : State} {u : Ticket} {e : Evaluator} {n place : Nat} {predecessor : Option Word}
    (c : Canonical s) (after : OpensAfter s predecessor) (opens : Opens s n place) :
    ∃ q, s.takeSheet e u = q.takeOpen e u ∧ OpeningFrom s q n place predecessor := by
  obtain ⟨-, -, -, free, -⟩ := id opens
  have fresh (shut : s.assembler.openDocument = none) : s.takeSheet e u = s.takeOpen e u := by
    rw [State.takeSheet, shut]
  cases predecessor with
  | none =>
    obtain ⟨shut, none⟩ := after
    refine ⟨s, fresh shut, openingFrom_self c shut opens ?_ fun f is => by cases is⟩
    rcases none with unmarked | none | ⟨f, is, never⟩
    · rw [if_neg (ne_true_of_eq_false unmarked)]
      rfl
    · rw [none, ite_self]
      rfl
    · rw [is]
      split
      · exact livePredecessor_of_no_names never
      · rfl
  | some f =>
    rcases after with ⟨shut, marked, is, r, names⟩ | ⟨d, r, bound, full, rfl, names, room⟩
    · refine ⟨s, fresh shut, openingFrom_self c shut opens ?_ ?_⟩
      · rw [if_pos marked, is]
        exact livePredecessor_of_names names
      · rintro f ⟨⟩
        exact slot_ne_of_names names free
    · refine ⟨s.closeDocument (some true), ?_, openingFrom_close c bound names room opens⟩
      rw [State.takeSheet, bound]
      exact if_pos ((boxFull_iff s d.tray).mpr full)

theorem documentOpened_of {s q t : State} {u : Ticket} {e : Evaluator} {k : TrayIx} {n place : Nat}
    {predecessor : Option Word} {front back : List Nat} (from_ : OpeningFrom s q n place predecessor)
    (chosen : Chosen s e.outcome.route k) (opens : Opens s n place) (plates : TicketPlates s u front back)
    (is : t = State.drainClose { (q.takeOpen e u).1 with assembler.outcomes := (q.takeOpen e u).1.assembler.outcomes ++
      [{ ordinal := u.ordinal, decision := (q.takeOpen e u).2 }] }) :
    DocumentOpened s t u e k n place predecessor front back ∧ ∀ d, s.assembler.openDocument = some d →
      (t.slot (d.folio.toNat / 16)).state = closedState (s.slot (d.folio.toNat / 16)) := by
  obtain ⟨-, -, inside, -, -, -, number, matter, -, tail⟩ := opens
  obtain ⟨opened, others⟩ := opening s q t u e k n place predecessor front back from_.canonical inside from_.slot
    from_.matter from_.link from_.trays from_.rotation from_.outcomes from_.batch from_.tracker from_.freeSlots
    (choose_eq s q e.outcome.route k from_.trays from_.rotation chosen) from_.claim from_.behind from_.apart
    (by rwa [number]) tail plates is
  refine ⟨opened, fun d bound => ?_⟩
  obtain ⟨apart, closed⟩ := from_.closed d bound
  rw [others _ apart, closed]

/-! ## Outcomes (R112, R118) -/

theorem exec_decisionOutcome (s : State) : exec .decisionOutcome s = complete State.takeOutcome s := rfl

theorem exec_rejectFullLineChange (d : Drive) (s : State) :
    exec (.rejectFullLineChange d) s = complete (State.drive 11 d) s := rfl

/-- A taken outcome whose ticket leaves an emptied path may end the drain. -/
theorem takeOutcome_cases {s : State} {o : Outcome} {rest : List Outcome} (first : s.assembler.outcomes = o :: rest)
    (told : ∀ u, s.ticket o.ordinal = some u → u.flags.exitedUndecided = true →
      o.decision.page = none ∨ Canonical s) :
    ∃ m, OutcomeTaken s m o rest ∧ Unchanged [.port, .folio, .record, .assembler, .tracker] s m ∧
      (Canonical s → Canonical m) ∧
      ((∀ u, s.ticket o.ordinal = some u → u.flags.exitedUndecided = true → ¬ DrainEnds s (without s u)) →
        s.takeOutcome = m) ∧
      ∀ u, s.ticket o.ordinal = some u → u.flags.exitedUndecided = true → s.takeOutcome = m.endDrain := by
  obtain ⟨m, taken, frame, -, decided, exited, canonical⟩ := outcome_spec s o rest first told
  have unchanged : Unchanged [.port, .folio, .record, .assembler, .tracker] s m := by
    rw [frame]
    simp [Unchanged]
  refine ⟨m, taken, unchanged, canonical, fun stays => ?_, exited⟩
  by_cases late : ∃ u, s.ticket o.ordinal = some u ∧ u.flags.exitedUndecided = true
  · obtain ⟨u, is, out⟩ := late
    have tracker := ((taken.2.2 u is).2 out).1
    refine (exited u is out).trans (if_neg fun ends => stays u is out ?_)
    obtain ⟨-, -, -, -, -, -, -, -, batch, -⟩ := unchanged
    rwa [batch (by decide), tracker] at ends
  · exact decided fun u is => Bool.eq_false_iff.mpr fun out => late ⟨u, is, out⟩

theorem decisionOutcome_taken (s : State) :
    (s.assembler.outcomes = [] → Idles .decisionOutcome s) ∧
    (∀ o rest, s.assembler.outcomes = o :: rest →
      (∀ u, s.ticket o.ordinal = some u → u.flags.exitedUndecided = true →
        ¬ DrainEnds s (without s u) ∧ (o.decision.page = none ∨ Canonical s)) →
      After .decisionOutcome s fun t => OutcomeTaken s t o rest) ∧
    (∀ o rest u, s.assembler.outcomes = o :: rest → s.ticket o.ordinal = some u →
      u.flags.exitedUndecided = true → DrainEnds s (without s u) → Canonical s →
      After .decisionOutcome s fun t =>
        ∃ m : State, m.tracker = { s.tracker with train := [] } ∧ OutcomeTaken s m o rest ∧
          Unchanged [.port, .folio, .record, .assembler, .tracker] s m ∧
          DrainEnded m t ∧ t.port.replies = m.port.replies ∧
          Unchanged [.port, .folio, .record, .tracker, .batch] m t) := by
  have run := exec_decisionOutcome s
  refine ⟨fun none => idles_of_complete run ?_, fun o rest first stays => after_of_complete run ?_,
    fun o rest u first is out ends c => after_of_complete run ?_⟩
  · rw [State.takeOutcome, show s.begin.assembler.outcomes = [] from none]
  · obtain ⟨m, taken, -, -, next, -⟩ := takeOutcome_cases (s := s.begin) first
      fun u is out => (stays u is out).2
    rw [next fun u is out => (stays u is out).1]
    exact taken
  · obtain ⟨m, taken, unchanged, canonical, -, next⟩ := takeOutcome_cases (s := s.begin) first fun _ _ _ => .inr c
    have tracker : m.tracker = { s.tracker with train := [] } := by
      obtain ⟨-, empty, -⟩ := ends
      rw [← empty]
      exact ((taken.2.2 u is).2 out).1
    obtain ⟨drains, -, rests⟩ := ends
    have batch : m.batch = s.batch := by
      obtain ⟨-, -, -, -, -, -, -, -, batch, -⟩ := unchanged
      exact batch (by decide)
    obtain ⟨-, ended, replies, rest⟩ := drainOver_enterIdle m m rfl rfl (by rw [tracker]) rfl (Unchanged.rfl (s := m))
    rw [next u is out, endDrain_of_empty (by rw [batch, drains]) (by rw [tracker]) (by rw [batch, rests])]
    exact ⟨m, tracker, taken, unchanged, ended (canonical c), replies, rest⟩

/-! ## The decision -/

/-- A state with the two switches where the board has them. -/
def switched (x y : Drive) (s : State) : State := (s.drive 22 x).drive 23 y

section Decision

variable {s : State} {u : Ticket} (x y : Drive) (due : Due s u)

include due

theorem after_decision {holds : State → Prop} (after : holds (handed (switched x y s.begin) u).drainClose) :
    After (.decision x y) s holds := by
  refine after_of_complete (exec_decision x y s) ?_
  rw [show ((s.begin.drive 22 x).drive 23 y).decide = _ from decide_of_due (s := switched x y s.begin) due]
  exact after

theorem after_ruling {w : State × Decision}
    (is : State.rule ((switched x y s.begin).evaluate u) u (ruling (switched x y s.begin) u) = w)
    {holds : State → Prop} (after : ∀ t, t = State.drainClose { w.1 with
      assembler.outcomes := w.1.assembler.outcomes ++ [{ ordinal := u.ordinal, decision := w.2 }] } → holds t) :
    After (.decision x y) s holds := by
  refine after_decision x y due (after _ ?_)
  rw [handed, is]

end Decision

theorem evaluatorKept_handed (p : State) (u : Ticket) :
    EvaluatorKept (ruling p u) (handed p u).drainClose := by
  have ruled := evaluatorKept_rule (p.evaluate u) u (ruling p u)
  exact (EvaluatorKept.trans ruled ⟨rfl, rfl⟩).trans (evaluatorKept_drainClose (handed p u))

section Rulings

variable {s : State} {u : Ticket} (x y : Drive) (due : Due s u) (c : Canonical s)

include due c

theorem decision_separates (separates : ((switched x y s.begin).evaluate u).outcome.separator = true) :
    After (.decision x y) s fun t =>
      HandsOver s t u { route := none, page := none, reason := some .separator,
                        tags := ((switched x y s.begin).evaluate u).tags } ∧
      PlatesReturned s t u ∧ t.assembler.marker = false ∧ t.assembler.openDocument = none ∧
      (∀ d, s.assembler.openDocument = some d → DocumentClosed s t d (s.slot (d.folio.toNat / 16))) ∧
      t.batch = s.batch :=
  after_ruling x y due (rule_of_separator separates u _) fun t is =>
    separated s (ruling (switched x y s.begin) u) t u _ c rfl rfl rfl rfl rfl rfl (fun _ => rfl) (fun _ => rfl) is

variable (stays : ((switched x y s.begin).evaluate u).outcome.separator = false)

include stays

theorem decision_rejects {r : RejectReason} (reason : rejectReason ((switched x y s.begin).evaluate u) u = some r) :
    After (.decision x y) s fun t =>
      HandsOver s t u { route := none, page := none, reason := some r,
                        tags := ((switched x y s.begin).evaluate u).tags } ∧
      PlatesReturned s t u ∧ t.assembler.marker = s.assembler.marker ∧
      t.batch = { s.batch with rejected := min (s.batch.rejected + 1) 65535 } ∧
      (¬ LastRuling s u → t.assembler.openDocument = s.assembler.openDocument) ∧
      ∀ d, s.assembler.openDocument = some d →
        (¬ LastRuling s u → t.slot (d.folio.toNat / 16) = rejectNoted (s.slot (d.folio.toNat / 16)) r.detail) ∧
        (LastRuling s u → DocumentClosed s t d (rejectNoted (s.slot (d.folio.toNat / 16)) r.detail)) :=
  after_ruling x y due (rule_of_reject stays reason _) fun t is =>
    rejected s (ruling (switched x y s.begin) u) t u _ r c rfl rfl rfl rfl rfl rfl (fun _ => rfl) (fun _ => rfl) is

variable (kept : u.flags.imageLost = false) (filed : ((switched x y s.begin).evaluate u).outcome.reject = none)

include kept filed

theorem decision_turns (shut : s.assembler.openDocument = none) {reason : RejectReason} {raised : Bool}
    {causes held : HoldCauses} (raises : raised = !causes.isEmpty)
    (joins : raised = true → s.batch.causes.or causes = held)
    (turn : (ruling (switched x y s.begin) u).takeOpen ((switched x y s.begin).evaluate u) u =
      (ruling (switched x y s.begin) u).turnAway u reason ((switched x y s.begin).evaluate u).tags causes) :
    After (.decision x y) s fun t =>
      TurnedAway s t u ((switched x y s.begin).evaluate u) reason raised held := by
  have takes : (ruling (switched x y s.begin) u).takeSheet ((switched x y s.begin).evaluate u) u =
      (ruling (switched x y s.begin) u).takeOpen ((switched x y s.begin).evaluate u) u := by
    rw [State.takeSheet, show (ruling (switched x y s.begin) u).assembler.openDocument = .none from shut]
  refine after_ruling x y due ((rule_of_sheet stays kept filed _).trans (takes.trans turn)) fun t is => ?_
  have links : ∀ p, (ruling (switched x y s.begin) u).link p = s.link p := fun _ => rfl
  have port : (ruling (switched x y s.begin) u).port = s.port := rfl
  have folio : (ruling (switched x y s.begin) u).folio = s.folio := rfl
  have batch : (ruling (switched x y s.begin) u).batch = s.batch := rfl
  have assembler : (ruling (switched x y s.begin) u).assembler = s.assembler := rfl
  have tracker : (ruling (switched x y s.begin) u).tracker = s.tracker := rfl
  have images : (ruling (switched x y s.begin) u).images = s.images := rfl
  have canonical : Canonical (ruling (switched x y s.begin) u) := c
  generalize ruling (switched x y s.begin) u = q at *
  exact turned s q t u _ reason raised causes held canonical links due.1 port folio batch assembler tracker images
    shut raises joins is

theorem decision_opens {k : TrayIx} {n place : Nat} {predecessor : Option Word} {front back : List Nat}
    (after : OpensAfter s predecessor) (chosen : Chosen s ((switched x y s.begin).evaluate u).outcome.route k)
    (opens : Opens s n place) (plates : TicketPlates s u front back) : After (.decision x y) s fun t =>
      DocumentOpened s t u ((switched x y s.begin).evaluate u) k n place predecessor front back ∧
      ∀ d, s.assembler.openDocument = some d →
        (t.slot (d.folio.toNat / 16)).state = closedState (s.slot (d.folio.toNat / 16)) := by
  obtain ⟨from_, takes, opening⟩ := openingFrom_of (s := ruling (switched x y s.begin) u) (u := u)
    (e := (switched x y s.begin).evaluate u) c after opens
  refine after_ruling x y due ((rule_of_sheet stays kept filed _).trans takes) fun t is => ?_
  have from_s : OpeningFrom s from_ n place predecessor := ⟨opening.canonical, opening.slot, opening.matter,
    opening.link, opening.trays, opening.rotation, opening.outcomes, opening.batch, opening.tracker,
    opening.freeSlots, opening.claim, opening.behind, opening.apart, opening.closed⟩
  exact documentOpened_of from_s chosen opens plates is

theorem decision_appends {d : OpenDocument} {front back : List Nat} (bound : s.assembler.openDocument = some d)
    (room : ¬ BoxFull s d.tray) (plates : TicketPlates s u front back) : After (.decision x y) s fun t =>
      let e := (switched x y s.begin).evaluate u
      let r := s.slot (d.folio.toNat / 16)
      let page := pageAppended s r u e front back
      HandsOver s t u { route := some d.tray, page := some ⟨d.folio, r.pageCount + 1⟩,
                        reason := none, tags := e.tags } ∧
      (r.pageCount = 249 → t.assembler.openDocument = none ∧ t.assembler.marker = true ∧
        t.slot (d.folio.toNat / 16) = { page with state := .filing }) ∧
      (r.pageCount ≠ 249 → LastRuling s u → t.assembler.openDocument = none ∧
        t.assembler.marker = s.assembler.marker ∧
        t.slot (d.folio.toNat / 16) = { page with state := .filing }) ∧
      (r.pageCount ≠ 249 → ¬ LastRuling s u →
        t.assembler.openDocument = s.assembler.openDocument ∧
        t.assembler.marker = s.assembler.marker ∧ t.slot (d.folio.toNat / 16) = page) ∧
      PlatesLinked s t r u front back ∧ ChainsEmptied s t u ∧
      t.assembler.trays[d.tray].committed = s.assembler.trays[d.tray].committed + 1 ∧
      t.batch = s.batch := by
  set q := ruling (switched x y s.begin) u
  have takes : q.takeSheet ((switched x y s.begin).evaluate u) u =
      q.takePage d u ((switched x y s.begin).evaluate u).outcome.intakeHold ((switched x y s.begin).evaluate u).tags := by
    rw [State.takeSheet, show q.assembler.openDocument = some d from bound]
    exact if_neg fun full => room ((boxFull_iff s d.tray).mp full)
  refine after_ruling x y due ((rule_of_sheet stays kept filed q).trans takes) fun t is => ?_
  obtain ⟨out, full, last, more, -, -, linked, train, trays, -, batch, -⟩ :=
    page_taken q c d u _ front back (tp_congr (s := s) (t := q) (fun _ => rfl) plates) bound _ rfl t is
  refine ⟨out, full, last, more, linked, train, ?_, batch⟩
  have committed : t.assembler.trays[d.tray.val] = _ :=
    (congrArg (fun v : Vector Tray 4 => v[d.tray.val]) trays).trans (Vector.getElem_set_self d.tray.isLt)
  exact congrArg Tray.committed committed

theorem decision_turnsAway (shut : s.assembler.openDocument = none) :
    let e := (switched x y s.begin).evaluate u
    (e.outcome.route = .none → After (.decision x y) s fun t =>
      TurnedAway s t u e .noRoute false s.batch.causes) ∧
    (∀ k, e.outcome.route = .tray k → ¬ Eligible s k → After (.decision x y) s fun t =>
      TurnedAway s t u e .trayUnavailable false s.batch.causes) ∧
    (e.outcome.route = .rotation → (∀ k, ¬ Eligible s k) → After (.decision x y) s fun t =>
      TurnedAway s t u e .trayUnavailable true { s.batch.causes with noTray := true }) ∧
    (∀ k, Chosen s e.outcome.route k → NoRecord s → After (.decision x y) s fun t =>
      TurnedAway s t u e .noRecord true { s.batch.causes with tableFull := true }) := by
  intro e
  refine ⟨fun route => ?_, fun k route closed => ?_, fun route closed => ?_, fun k chosen none => ?_⟩
  · refine decision_turns x y due c stays kept filed shut (causes := {}) rfl (fun raised => absurd raised (by decide)) ?_
    rw [takeOpen_of_no_tray (by rw [route]; rfl), route]
  · refine decision_turns x y due c stays kept filed shut (causes := {}) rfl (fun raised => absurd raised (by decide)) ?_
    rw [takeOpen_of_no_tray (by
      rw [route]
      exact chooseTray_of_unavailable (s := ruling (switched x y s.begin) u) closed), route]
  · refine decision_turns x y due c stays kept filed shut (causes := { noTray := true }) rfl (fun _ => or_left _) ?_
    rw [takeOpen_of_no_tray (by
      rw [route]
      exact chooseTray_of_all_unavailable (s := ruling (switched x y s.begin) u) closed), route]
  · refine decision_turns x y due c stays kept filed shut (causes := { tableFull := true }) rfl (fun _ => or_left' _) ?_
    exact takeOpen_of_noRecord (choose_eq s (ruling (switched x y s.begin) u) e.outcome.route k rfl rfl chosen)
      (openClaim_of_noRecord (s := ruling (switched x y s.begin) u) none) u

end Rulings

/-- Settles O59. -/
theorem decisionsAndOutcomes : Obligations.DecisionsAndOutcomes := by
  unfold Obligations.DecisionsAndOutcomes
  refine ⟨fun s x y => ⟨fun none => ?_, fun u due c => ⟨?_, decision_separates x y due c,
    fun reason stays because some => ?_, fun stays kept filed =>
      ⟨fun d front back bound room plates => decision_appends x y due c stays kept filed bound room plates,
        fun k n place predecessor front back after chosen opens plates =>
          decision_opens x y due c stays kept filed after chosen opens plates,
        decision_turnsAway x y due c stays kept filed⟩⟩⟩, decisionOutcome_taken, fun s d => ?_⟩
  · refine after_of_complete (exec_decision x y s) ?_
    rw [show ((s.begin.drive 22 x).drive 23 y).decide = _ from decide_of_none (s := switched x y s.begin) none]
    exact ⟨by simp [Unchanged, switched, State.drive], rfl⟩
  · exact after_decision x y due (evaluatorKept_handed (switched x y s.begin) u)
  · obtain ⟨r, rfl⟩ := Option.ne_none_iff_exists'.mp some
    have because : rejectReason ((switched x y s.begin).evaluate u) u = .some r := because.symm
    have rejects := decision_rejects x y due c stays because
    rw [detail_of_reason because] at rejects
    exact rejects
  · refine after_of_complete (exec_rejectFullLineChange d s) ⟨⟨rfl, ?_, ?_⟩, by simp [Unchanged, State.drive]⟩
    · exact Vector.getElem_set_self (11 : LineIx).isLt
    · exact fun k other => Vector.getElem_set_ne (11 : LineIx).isLt k.isLt fun same => other (Fin.ext same.symm)


end Sys2Proof.Proofs

/-! PROOFS. A band made ready, and its capture channel (R132, R142, R145). -/

namespace Sys2Proof.Proofs

open Sys2Proof.Machine Sys2Proof.Safety Sys2Proof.Claims Sys2Proof.Laws Sys2Proof.Laws.Batches
  Sys2Proof.Laws.Bands

/-! ## The state in which a channel finds the band -/

/-- The engine's work has made a band ready on a side, and has left to the channel all it goes by. -/
structure Readied (s w : State) (d : Side) (b : Band) (after : DeskewSide) : Prop where
  side : w.side d = { after with queue := (s.side d).queue ++ [.band b] }
  record : w.record = s.record
  images : w.images = s.images
  acts : w.acts = s.acts
  chains : w.tracker.train.map (fun v => (v.ordinal, chainOf d v)) =
    s.tracker.train.map fun v => (v.ordinal, chainOf d v)

theorem capture_of_images {s w : State} (images : w.images = s.images) (d : Side) : w.capture d = s.capture d := by
  cases d
  · exact congrArg Images.front images
  · exact congrArg Images.back images

theorem samePort_of_images {s w : State} (images : w.images = s.images) (d : Side) : SamePort d s w :=
  ⟨congrArg Images.transfer images, congrArg Images.order images, congrArg Images.mode images, fun c _ => by
    cases c <;> rw [State.asks, State.asks, images]⟩

theorem plateJoined_of_chains {s w t : State} {d : Side} (chains : w.tracker.train.map (fun v => (v.ordinal, chainOf d v)) =
    s.tracker.train.map fun v => (v.ordinal, chainOf d v)) {ordinal : Word} {p : Nat}
    (joined : PlateJoined w t d ordinal p) : PlateJoined s t d ordinal p := by
  have mapped := congrArg (List.map fun x : Word × PlateChain => (x.1, if x.1 = ordinal then
    (⟨some (x.2.head.getD p), some p, x.2.count + 1⟩ : PlateChain) else x.2)) chains
  rw [List.map_map, List.map_map] at mapped
  exact Eq.trans joined mapped

theorem freeHead_congr {s w : State} (images : w.images = s.images) (record : w.record = s.record) {p : Nat}
    {free : FreeQueue} (head : FreeHead s p free) : FreeHead w p free := by
  unfold FreeHead at head ⊢
  rwa [images, link_congr record]

theorem noPlate_congr {s w : State} (images : w.images = s.images) {h : CaptureSide} {cause : CaptureEnd}
    (none : NoPlate s h cause) : NoPlate w h cause := by
  unfold NoPlate at none ⊢
  rwa [images]

/-- The channel with a side in hand, before it asks or takes a plate. -/
def inHandOf (w : State) (d : Side) (h : CaptureSide) : State := w.editCapture d fun c => { c with side := some h }

theorem inHandOf_rest (w : State) (d : Side) (h : CaptureSide) :
    (inHandOf w d h).capture d = { w.capture d with side := some h } ∧ (inHandOf w d h).side d = w.side d ∧
    (inHandOf w d h).record = w.record ∧ (inHandOf w d h).tracker = w.tracker ∧ (inHandOf w d h).batch = w.batch ∧
    (inHandOf w d h).images.free = w.images.free ∧ (inHandOf w d h).images.memory = w.images.memory := by
  refine ⟨capture_edit d _ w, ?_, ?_, ?_, ?_, ?_, ?_⟩ <;> cases d <;> rfl

section Serve

variable {s w : State} {d : Side} {b : Band} {after : DeskewSide} (readied : Readied s w d b after)

include readied

theorem serve_busy (busy : Busy s d) : w.serveQueue d = w := by
  have same := capture_of_images readied.images d
  refine serveQueue_busy ?_ ?_ <;> rw [same] <;> rcases busy with is | is <;> rw [is] <;> decide

theorem readied_first (empty : (s.side d).queue = []) : w.side d = { after with queue := [.band b] } := by
  rw [readied.side, empty]
  rfl

theorem readied_queue (empty : (s.side d).queue = []) : (w.side d).queue = .band b :: [] := by
  rw [readied_first readied empty]

/-- The channel's work on the band, with room for the ends behind it. -/
theorem serve_first (empty : (s.side d).queue = []) :
    w.serveQueue d = w.actOnQueue d ((w.side d).waiting.length + 3 + 1) := by
  rw [State.serveQueue, readied_queue readied empty]
  refine congrArg (fun n => w.actOnQueue d n) ?_
  simp only [List.length_cons, List.length_nil]
  omega

theorem serve_asks (empty : (s.side d).queue = []) (idle : (s.capture d).state = .idle ∨ (s.capture d).state = .waiting)
    (pending : (s.capture d).pendingEnd = none) {h : CaptureSide} {n : Nat} (hand : inHand (s.capture d) b = h)
    (residue : h.residue = some n) :
    (w.serveQueue d).side d = { after with queue := [.band b] } ∧ Asks s (w.serveQueue d) d h ∧
      ∀ p, h.current = some p → RequestMade s (w.serveQueue d) ⟨channelOf d, p, 7 - n, b.lines, false⟩ := by
  have same := capture_of_images readied.images d
  rw [← same] at idle pending hand
  have acts : w.serveQueue d = (inHandOf w d h).requestCapture d := by
    rw [serve_first readied empty, act_ready idle (readied_queue readied empty) pending (by rw [hand]; exact residue),
      hand]
    rfl
  obtain ⟨capture, side, -⟩ := inHandOf_rest w d h
  rw [acts]
  refine ⟨?_, ?_, fun p current => ?_⟩
  · rw [State.requestCapture, side_arb, ← readied_first readied empty, ← side]
    cases d <;> rfl
  · obtain ⟨st, asks, is⟩ := req_cap d (inHandOf w d h) _ capture
    exact ⟨st, asks, by rw [is, same]⟩
  · refine req_made (v := inHandOf w d h) ((samePort_of_images readied.images d).trans (same_edit d _ w)) (h := h) ?_
      current residue (rest := []) ?_
    · rw [capture]
    · rw [side, readied_queue readied empty]

theorem serve_takes (empty : (s.side d).queue = []) (idle : (s.capture d).state = .idle ∨ (s.capture d).state = .waiting)
    (pending : (s.capture d).pendingEnd = none) {h : CaptureSide} (hand : inHand (s.capture d) b = h)
    (residue : h.residue = none) (more : h.plates < 54) {p : Nat} {free : FreeQueue} (head : FreeHead s p free) :
    (w.serveQueue d).side d = { after with queue := [.band b] } ∧ Asks s (w.serveQueue d) d (h.withPlate p) ∧
      RequestMade s (w.serveQueue d) ⟨channelOf d, p, 0, b.lines, false⟩ ∧ (w.serveQueue d).images.free = free ∧
      PlateJoined s (w.serveQueue d) d h.ordinal p ∧
      ∀ q, h.current = some q → h.closed = false → Canonical s →
        (w.serveQueue d).link q = ⟨some p, h.crc, h.used, h.first, d⟩ ∧ RecordKept s (w.serveQueue d) [] [] [q] := by
  have same := capture_of_images readied.images d
  rw [← same] at idle pending hand
  obtain ⟨capture, side, record, tracker, -, frees, memory⟩ := inHandOf_rest w d h
  have head' : FreeHead (inHandOf w d h) p free := by
    have head := freeHead_congr readied.images readied.record head
    unfold FreeHead at head ⊢
    rwa [frees, link_congr record]
  have took := take_fresh (inHandOf w d h) d h p free (by rw [capture]) more head'
  have made := take_made (s := inHandOf w d h) ((samePort_of_images readied.images d).trans (same_edit d _ w)) more
    head' (b := b) (more := []) (by rw [side, readied_queue readied empty])
  have acts : w.serveQueue d = (inHandOf w d h).takeSidePlate d h := by
    rw [serve_first readied empty, act_fresh idle (readied_queue readied empty) pending (by rw [hand]; exact residue),
      hand]
    obtain ⟨st, asks, is⟩ := took.cap
    refine act_busy ?_ _
    rw [show (w.editCapture d fun c => { c with side := some h }) = inHandOf w d h from rfl, is]
    exact asks
  rw [acts]
  refine ⟨?_, ?_, made, took.free, ?_, fun q current unclosed c => ?_⟩
  · rw [took.side, side, readied_first readied empty]
  · obtain ⟨st, asks, is⟩ := took.cap
    exact ⟨st, asks, by rw [is, capture, same]⟩
  · refine plateJoined_of_chains readied.chains ?_
    have joined := took.join
    unfold PlateJoined at joined ⊢
    rwa [tracker] at joined
  · have canonical : Canonical (inHandOf w d h) := by
      unfold Canonical at c ⊢
      rwa [record, memory, readied.record, readied.images]
    obtain ⟨link, kept⟩ := took.link q current unclosed canonical
    exact ⟨link, RecordKept.trans (RecordKept.of_record (record.trans readied.record) (a := []) (b := []) (c := []))
      kept⟩

theorem serve_loses (empty : (s.side d).queue = []) (idle : (s.capture d).state = .idle ∨ (s.capture d).state = .waiting)
    (pending : (s.capture d).pendingEnd = none) {h : CaptureSide} (hand : inHand (s.capture d) b = h)
    (residue : h.residue = none) (mine : b.ordinal = h.ordinal) {cause : CaptureEnd} (none : NoPlate s h cause)
    (c : Canonical s) : SideLost s (w.serveQueue d) d h cause { after with queue := [.band b] } := by
  have same := capture_of_images readied.images d
  rw [← same] at idle pending hand
  obtain ⟨capture, side, record, tracker, batch, frees, memory⟩ := inHandOf_rest w d h
  have canonical : Canonical (inHandOf w d h) := by
    unfold Canonical at c ⊢
    rwa [record, memory, readied.record, readied.images]
  have none' : NoPlate (inHandOf w d h) h cause := by
    have none := noPlate_congr readied.images none
    unfold NoPlate at none ⊢
    rwa [frees]
  have acts : (inHandOf w d h).acts = s.acts := (acts_of batch tracker).trans readied.acts
  have lost := lost_spec d s (inHandOf w d h) h cause { after with queue := [.band b] } ((w.side d).waiting.length + 1)
    (s.capture d).state (by rw [capture, same]) (by rw [side, readied_first readied empty])
    (record.trans readied.record) acts (by simpa [QueueItem.bandOf] using mine) canonical none'
  rw [serve_first readied empty, act_fresh idle (readied_queue readied empty) pending (by rw [hand]; exact residue), hand]
  exact lost.1

/-- The channel serves a band made ready. -/
theorem bandReady_serveQueue : BandReady s (w.serveQueue d) d b after := by
  refine ⟨fun busy => ?_, fun h n empty waits pending hand residue later => ?_,
    fun p free empty idle none pending head => ?_,
    fun h p q free empty waits pending hand residue later some more current unclosed head c => ?_,
    fun h cause empty waits pending hand residue later mine none c => ?_,
    fun empty idle none pending out c => ?_⟩
  · rw [serve_busy readied busy, readied.side]
  · refine serve_asks readied empty (.inr waits) pending ?_ residue
    rw [inHand, hand]
    exact if_neg later
  · have fresh : inHand (s.capture d) b = { ordinal := b.ordinal } := by rw [inHand, none]
    obtain ⟨side, asks, made, frees, joined, -⟩ :=
      serve_takes readied empty (.inl idle) pending fresh rfl (Nat.zero_lt_succ 53) head
    exact ⟨side, asks, made, frees, joined⟩
  · have held : inHand (s.capture d) b = h := by
      rw [inHand, hand]
      exact if_neg later
    obtain ⟨side, asks, made, frees, joined, links⟩ :=
      serve_takes readied empty (.inr waits) pending held residue more head
    obtain ⟨link, kept⟩ := links q current unclosed c
    refine ⟨side, ?_, made, frees, joined, ?_, kept⟩
    · have plated : h.withPlate p = { h with
          plates := h.plates + 1, current := .some p, residue := .some 7, crc := 0xFFFF, first := false } := by
        rw [CaptureSide.withPlate, unclosed, decide_eq_false (by omega)]
        rfl
      rwa [plated] at asks
    · rw [link, CaptureSide.used, residue]
  · have held : inHand (s.capture d) b = h := by
      rw [inHand, hand]
      exact if_neg later
    exact serve_loses readied empty (.inr waits) pending held residue mine none c
  · have fresh : inHand (s.capture d) b = { ordinal := b.ordinal } := by rw [inHand, none]
    exact serve_loses readied empty (.inl idle) pending fresh rfl rfl (.inr ⟨Nat.zero_lt_succ 53, out, rfl⟩) c

end Serve

end Sys2Proof.Proofs

/-! PROOFS. The shears and the flush of a side (R127 to R132, R134). -/

namespace Sys2Proof.Proofs

open Sys2Proof.Machine Sys2Proof.Safety Sys2Proof.Claims Sys2Proof.Laws Sys2Proof.Laws.Batches
  Sys2Proof.Laws.Bands

/-! ## The shears (R127 to R129) -/

theorem rounds_roundShear (n : Int) : Rounds n (roundShear n) := by
  unfold Rounds roundShear
  split <;> omega

theorem roundShear_neg (n : Int) : roundShear (-n) = -roundShear n := by
  unfold roundShear
  split <;> split <;> omega

theorem span_neg (delta : Int) : span (-delta) = span delta := by
  rw [span, span, rawDelay, rawDelay, mul_neg, roundShear_neg, Int.natAbs_neg]

/-- A number built bit by bit, the first bit the highest. -/
def ofBits (pixel : Nat → Bool) (n : Nat) : Nat := (List.range n).foldl (fun acc x => 2 * acc + bit (pixel x)) 0

theorem testBit_ofBits (pixel : Nat → Bool) (n x : Nat) (inside : x < n) :
    (ofBits pixel n).testBit (n - 1 - x) = pixel x := by
  induction n with
  | zero => exact absurd inside (Nat.not_lt_zero x)
  | succ n ih =>
    have step : ofBits pixel (n + 1) = 2 * ofBits pixel n + bit (pixel n) := by
      rw [ofBits, List.range_succ, List.foldl_append]
      rfl
    have isBit : bit (pixel n) < 2 ∧ (bit (pixel n) % 2 = 1 ↔ pixel n = true) := by
      cases pixel n <;> decide
    rw [step]
    rcases Nat.lt_succ_iff_lt_or_eq.mp inside with below | rfl
    · rw [show n + 1 - 1 - x = (n - 1 - x) + 1 by omega, Nat.testBit_succ, ← ih below]
      congr 1
      omega
    · rw [show x + 1 - 1 - x = 0 by omega, Nat.testBit_zero, Nat.mul_add_mod, Bool.eq_iff_iff, decide_eq_true_iff]
      exact isBit.2

theorem pixel_lineOfPixels (pixel : Nat → Bool) {x : Nat} (inside : x < 4096) :
    (lineOfPixels pixel).pixel x = pixel x := by
  have bits : lineOfPixels pixel = BitVec.ofNat 4096 (ofBits pixel 4096) := rfl
  rw [ScanLine.pixel, BitVec.getMsbD, bits, BitVec.getLsbD_ofNat, testBit_ofBits pixel 4096 x inside,
    decide_eq_true inside, decide_eq_true (by omega : 4096 - 1 - x < 4096)]
  simp

theorem pixel_outputLine {delta : Int} (skewed : delta ≠ 0) (line : Nat) (buffer : List ScanLine) {x : Nat}
    (inside : x < 4096) :
    (outputLine delta line buffer).pixel x = true ↔ 0 ≤ (x : Int) - shift delta line ∧
      (x : Int) - shift delta line ≤ 4095 ∧
      ∃ input, buffer[delay delta ((x : Int) - shift delta line).toNat]? = some input ∧
        input.pixel ((x : Int) - shift delta line).toNat = true := by
  rw [outputLine, if_neg skewed, pixel_lineOfPixels _ inside, sheared]
  split
  · next bounds =>
    rw [columnSheared]
    cases buffer[delay delta ((x : Int) - shift delta line).toNat]? with
    | none => simp
    | some input =>
      simp only [Option.some.injEq, exists_eq_left']
      exact ⟨fun h => ⟨bounds.1, bounds.2, h⟩, fun h => h.2.2⟩
  · next outside => exact ⟨fun h => absurd h Bool.false_ne_true, fun h => absurd ⟨h.1, h.2.1⟩ outside⟩

/-! ## A line formed (R130, R134) -/

theorem countLine_eq (line : ScanLine) (e : DeskewSide) : e.countLine line = { e with
    recent := (blackInside line :: e.recent).take 64
    black := match (blackInside line :: e.recent)[64]? with
      | some n => if 128 ≤ e.outputs then min 65535 (e.black + n) else e.black
      | none => e.black } := by
  rw [DeskewSide.countLine]
  cases h : (blackInside line :: e.recent)[Config.borderLines]? with
  | none =>
    rw [show (blackInside line :: e.recent)[64]? = none from h]
    exact congrArg (fun recent => { e with recent := recent })
      (List.take_of_length_le (i := 64) (List.getElem?_eq_none_iff.mp h)).symm
  | some n =>
    rw [show (blackInside line :: e.recent)[64]? = some n from h]
    rfl

theorem formLine_eq (e : DeskewSide) (input : ScanLine) : e.formLine input = formed e input := by
  rw [DeskewSide.formLine, countLine_eq]
  rfl

/-! ## A side that has ended (R130) -/

theorem afterEnd_next (e : DeskewSide) : AfterEnd e e.next e.queue e.lastCount := by
  refine ⟨fun none => ?_, fun w more waits goes => ?_⟩
  · rw [DeskewSide.next, none]
    rfl
  · rw [DeskewSide.next, waits]
    exact if_neg (ne_true_of_eq_false goes)

/-- A side whose first waiting start has not ended takes it, or none, and hands nothing more over. -/
theorem next_cases {e : DeskewSide} (goes : ∀ w ∈ e.waiting.head?, w.ended = false) :
    e.next.queue = e.queue ∧ e.next.state ≠ .taking ∧ e.next.state ≠ .flushing ∧
      AfterEnd e { e.next with queue := [] } [] e.lastCount := by
  cases waits : e.waiting with
  | nil =>
    have is : e.next = { queue := e.queue, black := e.black, lastCount := e.lastCount } := (afterEnd_next e).1 waits
    rw [is]
    refine ⟨rfl, by simp, by simp, fun _ => rfl, fun w more some => ?_⟩
    rw [waits] at some
    cases some
  | cons w more =>
    have goes : w.ended = false := goes w (by rw [waits]; rfl)
    have is := (afterEnd_next e).2 w more waits goes
    rw [is]
    refine ⟨rfl, by simp, by simp, fun none => ?_, fun w' more' some _ => ?_⟩
    · rw [waits] at none
      cases none
    · rw [waits] at some
      cases some
      rfl

theorem side_closePlate (d : Side) (n : Option Nat) (s : State) : (s.closePlate d n).side d = s.side d :=
  (close_keeps d n s).1

theorem side_editTicket (d : Side) (o : Word) (f : Ticket → Ticket) (s : State) :
    (s.editTicket o f).side d = s.side d := by
  cases d <;> rfl

theorem side_editCapture (d e : Side) (f : CaptureChannel → CaptureChannel) (s : State) :
    (s.editCapture d f).side e = s.side e := by
  cases d <;> cases e <;> rfl

theorem side_requestCapture (d : Side) (s : State) : (s.requestCapture d).side d = s.side d := by
  rw [State.requestCapture, side_arb, side_editCapture]

/-- What a channel does to a side that neither takes nor flushes is to its queue alone. -/
def QueueOnly (s t : State) (d : Side) : Prop := t.side d = { s.side d with queue := (t.side d).queue }

theorem QueueOnly.of_side {s t : State} {d : Side} (same : t.side d = s.side d) : QueueOnly s t d := by
  rw [QueueOnly, same]

theorem QueueOnly.trans {s t u : State} {d : Side} (h : QueueOnly s t d) (k : QueueOnly t u d) : QueueOnly s u d := by
  rw [QueueOnly] at h k ⊢
  rw [k, h]

section Ended

variable {s : State} {d : Side} (over_ : (s.side d).state ≠ .taking ∧ (s.side d).state ≠ .flushing)

include over_

theorem queueOnly_reportLoss (ordinal : Word) : QueueOnly s (s.reportLoss d ordinal) d := by
  obtain ⟨taking, flushing⟩ := over_
  rw [QueueOnly, State.reportLoss, side_edit, side_editTicket]
  dsimp only
  rw [if_neg fun h => taking h.2, if_neg fun h => flushing h.2]
  split <;> rfl

theorem queueOnly_loseCapture (ordinal : Word) (cause : CaptureEnd) : QueueOnly s (s.loseCapture d ordinal cause) d := by
  rw [State.loseCapture]
  have same : ((s.closePlate d none).editCapture d fun c =>
      { c with state := .waiting, pendingEnd := some cause }).side d = s.side d := by
    rw [side_editCapture, side_closePlate]
  exact (QueueOnly.of_side same).trans (queueOnly_reportLoss (by rwa [same]) ordinal)

theorem queueOnly_takeSidePlate (h : CaptureSide) : QueueOnly s (s.takeSidePlate d h) d := by
  rw [State.takeSidePlate]
  split
  · exact queueOnly_loseCapture over_ _ _
  · split
    · exact queueOnly_loseCapture over_ _ _
    · next p taken is =>
      have same : taken.side d = s.side d := by
        obtain ⟨free, rfl⟩ : ∃ free, taken = { s with images.free := free } := by
          rw [State.takePlate] at is
          split at is
          · cases is
            exact ⟨_, rfl⟩
          · cases is
        cases d <;> rfl
      refine QueueOnly.of_side ?_
      rw [side_requestCapture, side_editCapture, side_editTicket, side_closePlate, same]

end Ended

theorem QueueOnly.state {s t : State} {d : Side} (h : QueueOnly s t d)
    (over_ : (s.side d).state ≠ .taking ∧ (s.side d).state ≠ .flushing) :
    (t.side d).state ≠ .taking ∧ (t.side d).state ≠ .flushing := by
  rw [QueueOnly] at h
  rw [h]
  exact over_

theorem queueOnly_actOnQueue {d : Side} (fuel : Nat) {s : State}
    (over_ : (s.side d).state ≠ .taking ∧ (s.side d).state ≠ .flushing) : QueueOnly s (s.actOnQueue d fuel) d := by
  induction fuel generalizing s with
  | zero => exact .of_side rfl
  | succ fuel ih =>
    have onward {t : State} (h : QueueOnly s t d) : QueueOnly s (t.actOnQueue d fuel) d :=
      h.trans (ih (h.state over_))
    unfold State.actOnQueue
    dsimp only
    split
    · exact .of_side rfl
    · split
      · exact .of_side (side_editCapture d d _ s)
      · next ordinal lost rest _ =>
        refine onward ?_
        rw [QueueOnly, (end_spec d ordinal lost _ _ rfl).2.1, side_edit]
      · split
        · exact .of_side rfl
        · split
          · exact .of_side ((side_requestCapture d _).trans (side_editCapture d d _ s))
          · refine onward (QueueOnly.trans (.of_side (side_editCapture d d _ s)) (queueOnly_takeSidePlate ?_ _))
            rwa [side_editCapture]

theorem queueOnly_serveQueue {d : Side} {s : State}
    (over_ : (s.side d).state ≠ .taking ∧ (s.side d).state ≠ .flushing) : QueueOnly s (s.serveQueue d) d :=
  queueOnly_actOnQueue _ over_

/-! ## The flush (R131, R132, R134) -/

theorem exec_flushLine (d : Side) (s : State) : exec (.flushLine d) s =
    complete (fun s => if s.tracker.stopped then s else s.handOver d (State.flushOne d)) s := rfl

theorem canFlush_iff (e : DeskewSide) : e.canFlush = true ↔
    e.state = .flushing ∧ ¬ (e.band.length + 1 = 16 ∧ 4 ≤ bandsQueued e) := by
  rw [DeskewSide.canFlush, Bool.and_eq_true_iff, decide_eq_true_iff, Bool.not_eq_true', ← Bool.not_eq_true,
    Bool.and_eq_true_iff, decide_eq_true_iff, decide_eq_true_iff]
  rfl

section Flush

variable {s : State} {d : Side}

theorem flushOne_of_waits (waits : ¬ (s.side d).canFlush = true) : s.flushOne d = s :=
  if_pos (by rwa [Bool.not_eq_true', ← Bool.not_eq_true])

variable (ready : (s.side d).canFlush = true)

include ready

theorem flushOne_eq : s.flushOne d =
    if ((s.editSide d (formed · 0)).side d).outputs = ((s.editSide d (formed · 0)).side d).outputLength then
      ((s.editSide d (formed · 0)).blankTest d).editSide d fun e => (e.queueBand true).next
    else if ((s.editSide d (formed · 0)).side d).band.length = 16 then
      (s.editSide d (formed · 0)).editSide d (DeskewSide.queueBand false)
    else s.editSide d (formed · 0) := by
  have forms : DeskewSide.formLine .white = (formed · 0) := funext fun e => formLine_eq e 0
  rw [State.flushOne, if_neg (by rw [ready]; decide), forms]
  rfl

theorem flushOne_inside (short : (s.side d).band.length < 15)
    (more : (s.side d).outputs + 1 ≠ (s.side d).outputLength) : s.flushOne d = s.editSide d (formed · 0) := by
  have open_ : ¬ (formed (s.side d) 0).band.length = 16 := by
    rw [formed, List.length_append, List.length_singleton]
    omega
  rw [flushOne_eq ready, side_edit]
  exact (if_neg more).trans (if_neg open_)

theorem flushOne_band (full : (s.side d).band.length = 15)
    (more : (s.side d).outputs + 1 ≠ (s.side d).outputLength) :
    s.flushOne d = (s.editSide d (formed · 0)).editSide d (DeskewSide.queueBand false) := by
  have ready' : (formed (s.side d) 0).band.length = 16 := by
    rw [formed, List.length_append, List.length_singleton, full]
  rw [flushOne_eq ready, side_edit]
  exact (if_neg more).trans (if_pos ready')

theorem flushOne_last (last : (s.side d).outputs + 1 = (s.side d).outputLength) : s.flushOne d =
    ((s.editSide d (formed · 0)).blankTest d).editSide d fun e => (e.queueBand true).next := by
  rw [flushOne_eq ready, side_edit]
  exact if_pos last

end Flush

theorem handOver_ready {s w : State} {d : Side} {work : State → State} {b : Band} {after : DeskewSide}
    (from_ : w.side d = s.side d) (readied : Readied s (work w) d b after) :
    w.handOver d work = (work w).serveQueue d := by
  refine handOver_changed fun same => ?_
  rw [readied.side, from_] at same
  exact absurd (congrArg List.length same) (by simp)

theorem unchanged_editSide (d : Side) (f : DeskewSide → DeskewSide) (s : State) :
    Unchanged [.engine] s (s.editSide d f) := by
  cases d <;> simp [Unchanged, State.editSide]

theorem engine_editSide (d : Side) (f : DeskewSide → DeskewSide) (s : State) :
    (s.editSide d f).engine = match d with
      | .front => { s.engine with front := (s.editSide d f).engine.front }
      | .back => { s.engine with back := (s.editSide d f).engine.back } := by
  cases d <;> rfl

/-- The blank test keeps the count, and says it to the ticket of a side that is blank. -/
theorem blankTest_eq (d : Side) (s : State) : s.blankTest d =
    if (s.side d).black ≤ s.engine.blankThreshold then
      (s.editSide d fun e => { e with lastCount := e.black }).editTicket (s.side d).ordinal (Ticket.blank d)
    else s.editSide d fun e => { e with lastCount := e.black } := rfl

theorem side_blankTest (d : Side) (s : State) :
    (s.blankTest d).side d = { s.side d with lastCount := (s.side d).black } := by
  rw [blankTest_eq]
  split
  · rw [side_editTicket, side_edit]
  · rw [side_edit]

theorem unchanged_blankTest (d : Side) (s : State) : Unchanged [.engine, .tracker] s (s.blankTest d) := by
  rw [blankTest_eq]
  split <;> cases d <;> simp [Unchanged, State.editSide, State.editTicket]

theorem stopped_blankTest (d : Side) (s : State) : (s.blankTest d).tracker.stopped = s.tracker.stopped := by
  rw [blankTest_eq]
  split <;> cases d <;> rfl

theorem chains_editTicket {d : Side} {f : Ticket → Ticket} (o : Word) (s : State)
    (keeps : ∀ v, (f v).ordinal = v.ordinal ∧ chainOf d (f v) = chainOf d v) :
    (s.editTicket o f).tracker.train.map (fun v => (v.ordinal, chainOf d v)) =
      s.tracker.train.map fun v => (v.ordinal, chainOf d v) := by
  refine (List.map_map ..).trans (List.map_congr_left fun v _ => ?_)
  obtain ⟨ordinal, chain⟩ := keeps v
  dsimp only [Function.comp]
  split
  · rw [ordinal, chain]
  · rfl

theorem tracker_editSide (d : Side) (f : DeskewSide → DeskewSide) (s : State) :
    (s.editSide d f).tracker = s.tracker := by
  cases d <;> rfl

theorem chains_blankTest (d : Side) (s : State) :
    (s.blankTest d).tracker.train.map (fun v => (v.ordinal, chainOf d v)) =
      s.tracker.train.map fun v => (v.ordinal, chainOf d v) := by
  rw [blankTest_eq]
  split
  · rw [chains_editTicket _ _ fun v => by cases d <;> exact ⟨rfl, rfl⟩, tracker_editSide]
  · rw [tracker_editSide]

/-- The flag of a side that was blank, in a ticket. -/
def blankFlag (d : Side) (v : Ticket) : Bool :=
  match d with
  | .front => v.flags.blankFront
  | .back => v.flags.blankBack

theorem blanks_blankTest {d : Side} {s : State} (blank : (s.side d).black ≤ s.engine.blankThreshold) {v : Ticket}
    (on : v ∈ (s.blankTest d).tracker.train) (mine : v.ordinal = (s.side d).ordinal) :
    blankFlag d v = true := by
  rw [blankTest_eq, if_pos blank] at on
  obtain ⟨u, -, rfl⟩ := List.mem_map.mp on
  by_cases same : u.ordinal = (s.side d).ordinal
  · rw [if_pos same]
    cases d <;> rfl
  · rw [if_neg same] at mine
    exact absurd mine same

theorem tracker_blankTest {d : Side} {s : State} (dark : s.engine.blankThreshold < (s.side d).black) :
    (s.blankTest d).tracker = s.tracker := by
  rw [blankTest_eq, if_neg (Nat.not_le.mpr dark), tracker_editSide]

/-- A blank flag once set stands through all that the channel does. -/
theorem blanks_of_served {d e : Side} {s t : State} (served : Served e s t) {o : Word}
    (blank : ∀ v ∈ s.tracker.train, v.ordinal = o → blankFlag d v = true) :
    ∀ v ∈ t.tracker.train, v.ordinal = o → blankFlag d v = true := by
  intro v on mine
  obtain ⟨u, was, kept⟩ := served.ticket on
  have mine : u.ordinal = o := (congrArg Ticket.ordinal kept.rest).symm.trans mine
  have before := blank u was mine
  cases d
  · exact kept.blankFront before
  · exact kept.blankBack before

/-- The band a line completes joins the queue. -/
theorem readied_band (d : Side) (e : DeskewSide) (s w : State) (side : w.side d = e)
    (queue : e.queue = (s.side d).queue) (rest : Unchanged [.engine] s w) :
    Readied s (w.editSide d (DeskewSide.queueBand false)) d ⟨e.ordinal, e.outputs / 16 - 1, false, e.band⟩
      { e with band := [] } := by
  obtain ⟨-, -, record, -, -, tracker, -, images, batch, -⟩ :=
    unchanged_trans rest (unchanged_editSide d (DeskewSide.queueBand false) w)
  refine ⟨?_, record (by decide), images (by decide), acts_of (batch (by decide)) (tracker (by decide)),
    by rw [tracker (by decide)]⟩
  rw [side_edit, side, ← queue]
  rfl

section FlushLast

variable (d : Side) (s : State)

/-- The state in which a side has formed its last line and ended. -/
def ended : State := (s.blankTest d).editSide d fun e => (e.queueBand true).next

variable {d s} {f : DeskewSide} (is : s.side d = f) (goes : ∀ w ∈ f.waiting.head?, w.ended = false)

theorem unchanged_ended : Unchanged [.engine, .tracker] s (ended d s) :=
  unchanged_trans (unchanged_blankTest d s) (unchanged_mono (by decide) (unchanged_editSide d _ _))

include is goes

theorem side_ended : ∃ after, AfterEnd f after [] f.black ∧ after.state ≠ .taking ∧ after.state ≠ .flushing ∧
    (ended d s).side d = { after with
      queue := f.queue ++ [.band ⟨f.ordinal, f.outputs / 16 - 1, true, f.band⟩] } := by
  have side : (ended d s).side d = (({ f with lastCount := f.black } : DeskewSide).queueBand true).next := by
    rw [ended, side_edit, side_blankTest, is]
  obtain ⟨queue, taking, flushing, after⟩ :=
    next_cases (e := ({ f with lastCount := f.black } : DeskewSide).queueBand true) goes
  refine ⟨{ (({ f with lastCount := f.black } : DeskewSide).queueBand true).next with queue := [] }, after, taking,
    flushing, ?_⟩
  rw [side]
  exact congrArg (fun queue => { (({ f with lastCount := f.black } : DeskewSide).queueBand true).next with
    queue := queue }) queue

end FlushLast

/-! ## The flushes -/

theorem port_served {d : Side} {s t : State} (h : Served d s t) :
    t.port = s.port ∧ t.batch = s.batch ∧ t.lines = s.lines := by
  rw [h.rest]
  exact ⟨rfl, rfl, rfl⟩

theorem side_begin (d : Side) (s : State) : s.begin.side d = s.side d := by
  cases d <;> rfl

section Flushes

variable {s : State} {d : Side}

theorem idles_flushLine
    (waits : s.tracker.stopped = true ∨ (s.side d).state ≠ .flushing ∨
      ((s.side d).band.length = 15 ∧ 4 ≤ bandsQueued (s.side d))) : Idles (.flushLine d) s := by
  refine idles_of_complete (exec_flushLine d s) ?_
  by_cases stopped : s.tracker.stopped = true
  · exact if_pos stopped
  · have stays : s.begin.flushOne d = s.begin := by
      refine flushOne_of_waits ?_
      rw [side_begin, canFlush_iff]
      rintro ⟨flushing, room⟩
      rcases waits with is | is | ⟨full, bands⟩
      · exact stopped is
      · exact is flushing
      · exact room ⟨by rw [full], bands⟩
    exact (if_neg stopped).trans ((handOver_same (by rw [stays])).trans stays)

theorem after_flushLine {holds : State → Prop} (stopped : s.tracker.stopped = false)
    (after : holds (s.begin.handOver d (State.flushOne d))) : After (.flushLine d) s holds :=
  after_of_complete (exec_flushLine d s)
    (Eq.mpr (congrArg holds (if_neg (ne_true_of_eq_false stopped))) after)

theorem canFlush_of (flushing : (s.side d).state = .flushing)
    (room : (s.side d).band.length < 15 ∨ bandsQueued (s.side d) < 4) : (s.begin.side d).canFlush = true := by
  rw [side_begin, canFlush_iff]
  exact ⟨flushing, fun ⟨full, bands⟩ => by omega⟩

theorem side_formed : (s.begin.editSide d (formed · 0)).side d = formed (s.side d) 0 := by
  rw [side_edit, side_begin]

theorem threshold_formed : (s.begin.editSide d (formed · 0)).engine.blankThreshold = s.engine.blankThreshold := by
  cases d <;> rfl

theorem unchanged_formed : Unchanged [.engine] s (s.begin.editSide d (formed · 0)) :=
  unchanged_trans (unchanged_begin [.engine] s) (unchanged_editSide d _ _)

theorem handOver_inside (flushing : (s.side d).state = .flushing) (short : (s.side d).band.length < 15)
    (more : (s.side d).outputs + 1 ≠ (s.side d).outputLength) :
    s.begin.handOver d (State.flushOne d) = s.begin.editSide d (formed · 0) := by
  have one : s.begin.flushOne d = s.begin.editSide d (formed · 0) :=
    flushOne_inside (canFlush_of flushing (.inl short)) (by rwa [side_begin]) (by rwa [side_begin])
  refine (handOver_same ?_).trans one
  rw [one, side_edit]
  rfl

theorem handOver_band (flushing : (s.side d).state = .flushing) (full : (s.side d).band.length = 15)
    (room : bandsQueued (s.side d) < 4) (more : (s.side d).outputs + 1 ≠ (s.side d).outputLength) :
    BandReady s (s.begin.handOver d (State.flushOne d)) d
      ⟨(s.side d).ordinal, ((s.side d).outputs + 1) / 16 - 1, false, (formed (s.side d) 0).band⟩
      { formed (s.side d) 0 with band := [] } := by
  have one : s.begin.flushOne d = (s.begin.editSide d (formed · 0)).editSide d (DeskewSide.queueBand false) :=
    flushOne_band (canFlush_of flushing (.inr room)) (by rwa [side_begin]) (by rwa [side_begin])
  have readied : Readied s (s.begin.flushOne d) d
      ⟨(s.side d).ordinal, ((s.side d).outputs + 1) / 16 - 1, false, (formed (s.side d) 0).band⟩
      { formed (s.side d) 0 with band := [] } := by
    rw [one]
    exact readied_band d _ s _ side_formed rfl unchanged_formed
  rw [handOver_ready (side_begin d s) readied]
  exact bandReady_serveQueue readied

theorem readied_ended (goes : ∀ w ∈ (s.side d).waiting.head?, w.ended = false) :
    ∃ after, AfterEnd (formed (s.side d) 0) after [] (formed (s.side d) 0).black ∧ after.state ≠ .taking ∧
      after.state ≠ .flushing ∧ Readied s (ended d (s.begin.editSide d (formed · 0))) d
        ⟨(s.side d).ordinal, ((s.side d).outputs + 1) / 16 - 1, true, (formed (s.side d) 0).band⟩ after := by
  obtain ⟨after, isAfter, taking, flushing, side⟩ := side_ended side_formed (f := formed (s.side d) 0) goes
  obtain ⟨-, -, record, -, -, -, -, images, batch, -⟩ :=
    unchanged_trans (unchanged_mono (by decide) unchanged_formed)
      (unchanged_ended (d := d) (s := s.begin.editSide d (formed · 0)))
  have tracker : (s.begin.editSide d (formed · 0)).tracker = s.tracker := tracker_editSide d _ s.begin
  have chains : (ended d (s.begin.editSide d (formed · 0))).tracker.train.map (fun v => (v.ordinal, chainOf d v)) =
      s.tracker.train.map fun v => (v.ordinal, chainOf d v) := by
    rw [ended, tracker_editSide, chains_blankTest, tracker]
  have stopped : (ended d (s.begin.editSide d (formed · 0))).tracker.stopped = s.tracker.stopped := by
    rw [ended, tracker_editSide, stopped_blankTest, tracker]
  refine ⟨after, isAfter, taking, flushing, side, record (by decide), images (by decide), ?_, chains⟩
  rw [State.acts, State.acts, State.motorOn, State.motorOn, batch (by decide), stopped]

theorem handOver_last (flushing : (s.side d).state = .flushing)
    (room : (s.side d).band.length < 15 ∨ bandsQueued (s.side d) < 4)
    (last : (s.side d).outputs + 1 = (s.side d).outputLength) (goes : ∀ w ∈ (s.side d).waiting.head?, w.ended = false) :
    SideFlushed s (s.begin.handOver d (State.flushOne d)) d := by
  have one : s.begin.flushOne d = ended d (s.begin.editSide d (formed · 0)) :=
    flushOne_last (canFlush_of flushing room) (by rwa [side_begin])
  obtain ⟨after, isAfter, taking, flushing, readied⟩ := readied_ended goes
  rw [← one] at readied
  rw [handOver_ready (side_begin d s) readied]
  have over_ : ((s.begin.flushOne d).side d).state ≠ .taking ∧ ((s.begin.flushOne d).side d).state ≠ .flushing := by
    rw [readied.side]
    exact ⟨taking, flushing⟩
  refine ⟨⟨after, isAfter, ?_, bandReady_serveQueue readied⟩, ?_, fun dark busy => ?_⟩
  · have queue := queueOnly_serveQueue over_
    rw [QueueOnly, readied.side] at queue
    exact queue
  · intro v on mine blank
    have flagged : ∀ v ∈ (s.begin.flushOne d).tracker.train, v.ordinal = (s.side d).ordinal → blankFlag d v = true := by
      intro v on mine
      rw [one, ended, tracker_editSide] at on
      refine blanks_blankTest ?_ on (by rwa [side_formed])
      rw [side_formed, threshold_formed]
      exact blank
    exact blanks_of_served (served_serveQueue d _) flagged v on mine
  · rw [serve_busy readied busy, one, ended, tracker_editSide, tracker_blankTest, tracker_editSide]
    · rfl
    · rw [side_formed, threshold_formed]
      exact dark

end Flushes

/-- Settles O60: a flushed line by what it completes, and the ends of a side by its waiting starts. -/
theorem shearsAndFlush : Obligations.ShearsAndFlush := by
  unfold Obligations.ShearsAndFlush
  refine ⟨fun delta => ⟨rawDelay delta, fun x => rounds_roundShear _, fun x => rfl, rfl, span_neg delta,
    fun y => rounds_roundShear _⟩, fun line input buffer => rfl,
    fun delta line buffer x skewed inside => pixel_outputLine skewed line buffer inside, fun s d =>
    ⟨idles_flushLine, fun ⟨stopped, flushing⟩ short more => after_flushLine stopped ?_,
      fun ⟨stopped, flushing⟩ full room more => after_flushLine stopped
        ⟨handOver_band flushing full room more, port_served (s := s.begin) (served_handOver d (served_flushOne d) s.begin)⟩,
      fun ⟨stopped, flushing⟩ room last goes => after_flushLine stopped
        ⟨handOver_last flushing room last goes, port_served (s := s.begin) (served_handOver d (served_flushOne d) s.begin)⟩⟩⟩
  rw [handOver_inside flushing short more]
  refine ⟨side_formed, ?_, unchanged_formed⟩
  cases d <;> rfl

end Sys2Proof.Proofs

/-! PROOFS. The edge sensors and the scan sensor (R108 to R110, R125, R126, R129 to R131). -/

namespace Sys2Proof.Proofs

open Sys2Proof.Machine Sys2Proof.Safety Sys2Proof.Claims Sys2Proof.Laws Sys2Proof.Laws.Batches
  Sys2Proof.Laws.Bands Sys2Proof.Laws.Decisions

/-! ## Which ticket expects an edge (R108) -/

theorem firstEdgeFits_iff (s : State) (u : Ticket) : s.firstEdgeFits u = true ↔ ExpectsFirst s u := by
  rw [State.firstEdgeFits, Bool.and_eq_true_iff, within_iff]
  rfl

theorem secondEdgeFits_iff (s : State) (sensor : Sensor) (u : Ticket) :
    s.secondEdgeFits sensor u = true ↔ ExpectsSecond s sensor u := by
  rw [State.secondEdgeFits, ExpectsSecond]
  rcases u.armed.secondEdge with - | ⟨x, c⟩
  · simp
  · simp only [Bool.and_eq_true_iff, decide_eq_true_iff, Option.some.injEq, AwaitedEdge.mk.injEq]
    exact ⟨fun ⟨same, near⟩ => ⟨c, ⟨same, rfl⟩, near⟩, fun ⟨_, ⟨same, is⟩, near⟩ => ⟨same, is ▸ near⟩⟩

theorem edgeFits_iff (s : State) (sensor : Sensor) (u : Ticket) :
    (s.firstEdgeFits u || s.secondEdgeFits sensor u) = true ↔ ExpectsFirst s u ∨ ExpectsSecond s sensor u := by
  rw [Bool.or_eq_true_iff, firstEdgeFits_iff, secondEdgeFits_iff]

theorem scanLeadingFits_iff (s : State) (u : Ticket) : s.scanLeadingFits u = true ↔ ExpectsScan s u := by
  rw [State.scanLeadingFits, Bool.and_eq_true_iff, within_iff]
  rfl

theorem scanTrailingFits_iff (s : State) (u : Ticket) :
    (u.armed.scanTrailing && s.trailingWithin s.scanPosition u) = true ↔ ExpectsScanEnd s u := by
  rw [Bool.and_eq_true_iff, trailingWithin_iff]
  rfl

theorem mem_of_oldest {s : State} {test : Ticket → Prop} {u : Ticket} (oldest : Oldest s test u) :
    u ∈ s.tracker.train := by
  obtain ⟨before, after, order, -, -⟩ := oldest
  rw [order]
  simp

theorem holds_of_oldest {s : State} {test : Ticket → Prop} {u : Ticket} (oldest : Oldest s test u) : test u := by
  obtain ⟨-, -, -, holds, -⟩ := oldest
  exact holds

/-! ## The edge sensors (R109, R125, R126) -/

/-- Two changes of one ticket are one. -/
theorem editTicket_editTicket (o : Word) {f : Ticket → Ticket} (g : Ticket → Ticket) (s : State)
    (keeps : ∀ v, (f v).ordinal = v.ordinal) :
    (s.editTicket o f).editTicket o g = s.editTicket o fun v => g (f v) := by
  unfold State.editTicket
  dsimp only
  rw [List.map_map]
  congr 2
  refine List.map_congr_left fun v _ => ?_
  dsimp only [Function.comp]
  by_cases mine : v.ordinal = o
  · simp [mine, keeps]
  · simp [mine]

/-- A second edge at a ticket, its measurement not yet closed. -/
def atSecondEdge (v : Ticket) : Ticket := { v with armed.secondEdge := none }

/-- A ticket that is GAUGED with its difference. -/
def gaugedBy (limit : Nat) (delta : Int) (v : Ticket) : Ticket := { v with
  delta := some delta
  stage := .gauged
  flags.skewOver := v.flags.skewOver || decide (limit < delta.natAbs) }

section EdgeSensor

variable {s : State} (acts : s.acts = true) {sensor : Sensor} {u : Ticket}
  (oldest : Oldest s (fun v => ExpectsFirst s v ∨ ExpectsSecond s sensor v) u)

include acts

theorem edgeSensor_of_stray (never : ∀ u ∈ s.tracker.train, ¬ ExpectsFirst s u ∧ ¬ ExpectsSecond s sensor u) :
    s.edgeSensor sensor = s.stray (sensorLine sensor) := by
  rw [State.edgeSensor, if_neg (by rw [acts]; decide),
    oldest_of_none (edgeFits_iff s sensor) (fun u on => not_or.mpr (never u on)) rfl]

include oldest

theorem edgeSensor_of_first (first : ExpectsFirst s u) : s.edgeSensor sensor =
    (s.editTicket u.ordinal fun v => { v with
      armed.firstEdge := false
      armed.secondEdge := some ⟨otherSensor sensor, s.tracker.travel⟩ }).openMeasurement u.ordinal sensor := by
  rw [State.edgeSensor, if_neg (by rw [acts]; decide), oldest_of (edgeFits_iff s sensor) oldest rfl]
  exact if_pos ((firstEdgeFits_iff s u).mpr first)

theorem edgeSensor_of_second (second : ¬ ExpectsFirst s u) : s.edgeSensor sensor =
    (s.editTicket u.ordinal atSecondEdge).closeMeasurement u.ordinal := by
  rw [State.edgeSensor, if_neg (by rw [acts]; decide), oldest_of (edgeFits_iff s sensor) oldest rfl]
  exact if_neg fun fits => second ((firstEdgeFits_iff s u).mp fits)

end EdgeSensor

theorem closeMeasurement_first {s : State} {m : Measurement} {rest : List Measurement}
    (open_ : s.engine.measurements = m :: rest) (only : ∀ n ∈ rest, n.ordinal ≠ m.ordinal) :
    s.closeMeasurement m.ordinal =
      { s.editTicket m.ordinal (gaugedBy s.engine.skewLimit (m.delta s.tracker.travel)) with
        engine.measurements := rest } := by
  have found : s.engine.measurements.find? (fun n => n.ordinal = m.ordinal) = some m := by
    rw [open_, List.find?_cons_of_pos (by simp)]
  have left : s.engine.measurements.filter (fun n => n.ordinal ≠ m.ordinal) = rest := by
    rw [open_, List.filter_cons_of_neg (by simp)]
    exact List.filter_eq_self.mpr fun n on => by simpa using only n on
  rw [State.closeMeasurement, found]
  dsimp only
  rw [left]
  rfl

/-! ## A side starts (R110, R130) -/

/-- A ticket's image is lost, or stands. -/
def loses (lost : Bool) (v : Ticket) : Ticket := { v with flags.imageLost := v.flags.imageLost || lost }

theorem editTicket_id (o : Word) {f : Ticket → Ticket} (s : State) (same : ∀ v, f v = v) : s.editTicket o f = s := by
  have trains : s.tracker.train.map (fun t => if t.ordinal = o then f t else t) = s.tracker.train := by
    refine (List.map_congr_left fun v _ => ?_).trans (List.map_id _)
    rw [same, ite_self]
    rfl
  rw [State.editTicket, trains]

theorem editTicket_loses_false (o : Word) (s : State) : s.editTicket o (loses false) = s :=
  editTicket_id o s fun v => by rw [loses, Bool.or_false]

theorem lose_eq : Ticket.lose = loses true := funext fun v => by
  rw [loses, Bool.or_true]
  rfl

theorem loses_loses (a b : Bool) (v : Ticket) : loses b (loses a v) = loses (a || b) v := by
  rw [loses, loses, loses, ← Bool.or_assoc]

/-- Whether a side that starts now is lost. -/
def lostAtStart (s : State) (d : Side) : Bool := decide ((s.side d).state ≠ .idle)

/-- A side after the start of a ticket's side. -/
def startedSide (u : Ticket) (d : Side) (e : DeskewSide) : DeskewSide :=
  if e.state = .idle then
    { e.idle with
      state := .taking, ordinal := u.ordinal, delta := correction u d, span := span (correction u d), black := 0 }
  else { e with waiting := e.waiting ++ [⟨u.ordinal, correction u d, false⟩] }

theorem startSide_eq {s : State} (d : Side) {u v : Ticket} (found : s.ticket u.ordinal = some v)
    (same : v.usedDelta d = correction u d) : s.startSide d u.ordinal =
      (s.editTicket u.ordinal (loses (lostAtStart s d))).editSide d (startedSide u d) := by
  rw [State.startSide, found]
  dsimp only
  rw [same]
  by_cases idle : (s.side d).state = .idle
  · rw [if_pos idle, lostAtStart, decide_eq_false (not_not.mpr idle), editTicket_loses_false]
    cases d <;> simp only [State.editSide, startedSide] <;> rw [if_pos (by exact idle)]
  · rw [if_neg idle, lostAtStart, decide_eq_true idle, lose_eq]
    cases d <;> simp only [State.editSide, startedSide] <;> rw [if_neg (by exact idle)]

theorem sideStarted_of {s t : State} {d : Side} {u : Ticket} (side : t.side d = startedSide u d (s.side d)) :
    SideStarted s t d u := by
  refine ⟨fun idle => ?_, fun busy => ?_⟩
  · rw [side, startedSide, if_pos idle]
    rfl
  · rw [side, startedSide, if_neg busy]

/-- A scan leading edge at a ticket. -/
def atScan (v : Ticket) : Ticket := { v with
  stage := .scanning
  armed.scanLeading := false
  armed.exitLeading := true
  armed.scanTrailing := v.length.isSome }

section ScanLeading

variable {s : State} (acts : s.acts = true)

include acts

theorem scanLeading_of_stray (never : ∀ u ∈ s.tracker.train, ¬ ExpectsScan s u) : s.scanLeading = s.stray 5 := by
  rw [State.scanLeading, if_neg (by rw [acts]; decide), oldest_of_none (scanLeadingFits_iff s) never rfl]

theorem scanLeading_of_entered {u : Ticket} (oldest : Oldest s (ExpectsScan s) u) (entered : u.stage = .entered) :
    s.scanLeading = s.jam .misfeed (some 5) (some u.ordinal) := by
  rw [State.scanLeading, if_neg (by rw [acts]; decide), oldest_of (scanLeadingFits_iff s) oldest rfl]
  exact if_pos entered

theorem scanLeading_of_gauged {u : Ticket} (oldest : Oldest s (ExpectsScan s) u) (gauged : u.stage ≠ .entered) :
    s.scanLeading = (s.editTicket u.ordinal atScan).startSides u.ordinal := by
  rw [State.scanLeading, if_neg (by rw [acts]; decide), oldest_of (scanLeadingFits_iff s) oldest rfl]
  exact if_neg gauged

end ScanLeading

/-- The one ticket of an ordinal is found as it was changed. -/
theorem ticket_editTicket {s : State} {u : Ticket} (on : u ∈ s.tracker.train)
    (only : ∀ b ∈ s.tracker.train, b.ordinal = u.ordinal → b = u) {f : Ticket → Ticket}
    (keeps : ∀ v, (f v).ordinal = v.ordinal) : (s.editTicket u.ordinal f).ticket u.ordinal = some (f u) := by
  have all : ∀ w ∈ (s.editTicket u.ordinal f).tracker.train, w.ordinal = u.ordinal → w = f u := by
    intro w hw mine
    obtain ⟨v, hv, rfl⟩ := List.mem_map.mp hw
    by_cases same : v.ordinal = u.ordinal
    · rw [if_pos same, only v hv same]
    · rw [if_neg same] at mine
      exact absurd mine same
  have held : f u ∈ (s.editTicket u.ordinal f).tracker.train :=
    List.mem_map.mpr ⟨u, on, if_pos rfl⟩
  rw [State.ticket]
  cases found : (s.editTicket u.ordinal f).tracker.train.find? fun t => t.ordinal = u.ordinal with
  | none => exact absurd (List.find?_eq_none.mp found _ held) (by simp [keeps])
  | some w => rw [all w (List.mem_of_find?_eq_some found) (by simpa using List.find?_some found)]

/-- The sides a batch captures have started for a ticket. -/
theorem startSides_eq {s : State} {u : Ticket} (on : u ∈ s.tracker.train)
    (only : ∀ b ∈ s.tracker.train, b.ordinal = u.ordinal → b = u) :
    (s.editTicket u.ordinal atScan).startSides u.ordinal =
      if s.batch.duplex then
        ((s.editTicket u.ordinal fun v => loses (lostAtStart s .front || lostAtStart s .back) (atScan v)).editSide
          .front (startedSide u .front)).editSide .back (startedSide u .back)
      else (s.editTicket u.ordinal fun v => loses (lostAtStart s .front) (atScan v)).editSide
        .front (startedSide u .front) := by
  have front : (s.editTicket u.ordinal atScan).startSide .front u.ordinal =
      (s.editTicket u.ordinal fun v => loses (lostAtStart s .front) (atScan v)).editSide
        .front (startedSide u .front) := by
    rw [startSide_eq .front (ticket_editTicket (f := atScan) on only fun _ => rfl) rfl,
      editTicket_editTicket (f := atScan) u.ordinal _ s fun _ => rfl]
    rfl
  rw [State.startSides, front]
  by_cases duplex : s.batch.duplex = true
  · rw [if_pos duplex]
    refine (if_pos duplex).trans ?_
    have found := ticket_editTicket (f := fun v => loses (lostAtStart s .front) (atScan v)) on only fun _ => rfl
    rw [startSide_eq (s := (s.editTicket u.ordinal fun v => loses (lostAtStart s .front) (atScan v)).editSide
      .front (startedSide u .front)) .back found rfl]
    have lost : lostAtStart ((s.editTicket u.ordinal fun v => loses (lostAtStart s .front) (atScan v)).editSide
        .front (startedSide u .front)) .back = lostAtStart s .back := rfl
    have twice := editTicket_editTicket u.ordinal (f := fun v => loses (lostAtStart s .front) (atScan v))
      (loses (lostAtStart s .back)) s fun _ => rfl
    simp only [loses_loses] at twice
    rw [lost, ← twice]
    rfl
  · rw [if_neg duplex]
    exact if_neg duplex

/-! ## A side ends (R130, R131, R134) -/

theorem markLast_of_band {o : Word} {earlier : List QueueItem} {b : Band} (mine : b.ordinal = o) :
    markLast o (earlier ++ [.band b]) = earlier ++ [.band { b with last := true }] := by
  rw [markLast, List.reverse_append]
  refine (if_pos mine).trans ?_
  rw [List.reverse_cons]
  exact congrArg (· ++ _) earlier.reverse_reverse

theorem markLast_of_gone {o : Word} {queue : List QueueItem} (gone : ∀ b ∈ queue.getLast?, b.bandOf o = false) :
    markLast o queue = queue ++ [.ended o false] := by
  rcases List.eq_nil_or_concat queue with rfl | ⟨earlier, q, rfl⟩
  · rfl
  · have other : q.bandOf o = false := gone q (by simp)
    rw [List.concat_eq_append, markLast, List.reverse_append]
    rcases q with b | ⟨p, lost⟩
    · exact if_neg (of_decide_eq_false other)
    · rfl

section EndSide

variable {s : State} {d : Side} {o : Word}

theorem endSide_flushes (mine : (s.side d).ordinal = o) (taking : (s.side d).state = .taking)
    (more : (s.side d).outputs < (s.side d).fullLength) : s.endSide d o =
      s.editSide d fun e => { e with state := .flushing, outputLength := e.fullLength } :=
  (if_pos ⟨mine, taking⟩).trans (if_pos more)

theorem endSide_ends (mine : (s.side d).ordinal = o) (taking : (s.side d).state = .taking)
    (done : (s.side d).fullLength ≤ (s.side d).outputs) : s.endSide d o =
      (s.blankTest d).editSide d fun e =>
        DeskewSide.next { e with outputLength := e.fullLength, queue := markLast o e.queue } :=
  (if_pos ⟨mine, taking⟩).trans (if_neg (Nat.not_lt.mpr done))

theorem endSide_discarded (mine : (s.side d).ordinal = o) (discarding : (s.side d).state = .discarding) :
    s.endSide d o = s.editSide d fun e => DeskewSide.next { e with queue := e.queue ++ [QueueItem.ended o true] } :=
  (if_neg fun ⟨_, taking⟩ => by rw [discarding] at taking; cases taking).trans (if_pos ⟨mine, discarding⟩)

/-- Notes at the start of a ticket that its sides have ended. -/
def noteEnd (o : Word) (e : DeskewSide) : DeskewSide :=
  { e with waiting := e.waiting.map fun w => if w.ordinal = o then { w with ended := true } else w }

theorem endSide_waits (other : ¬ ((s.side d).ordinal = o ∧ ((s.side d).state = .taking ∨ (s.side d).state = .discarding))) :
    s.endSide d o = s.editSide d (noteEnd o) :=
  (if_neg fun ⟨mine, taking⟩ => other ⟨mine, .inl taking⟩).trans
    (if_neg fun ⟨mine, discarding⟩ => other ⟨mine, .inr discarding⟩)

theorem unchanged_endSide (d : Side) (o : Word) (s : State) : Unchanged [.engine, .tracker] s (s.endSide d o) := by
  have edits (f : DeskewSide → DeskewSide) (t : State) : Unchanged [.engine, .tracker] t (t.editSide d f) :=
    unchanged_mono (by decide) (unchanged_editSide d f t)
  unfold State.endSide
  dsimp only
  split
  · split
    · exact edits _ s
    · exact unchanged_trans (unchanged_blankTest d s) (edits _ _)
  · split
    · exact edits _ s
    · exact edits _ s

end EndSide

/-- A busy channel leaves the work of the engine as it is. -/
theorem handOver_busy {s : State} {d : Side} {work : State → State} (images : (work s).images = s.images)
    (busy : Busy s d) : s.handOver d work = work s := by
  by_cases same : ((work s).side d).queue = (s.side d).queue
  · exact handOver_same same
  · refine (handOver_changed same).trans (serveQueue_busy ?_ ?_) <;> rw [capture_of_images images] <;>
      rcases busy with is | is <;> rw [is] <;> decide

/-- A channel that waits ends the lost side that is handed to it. -/
theorem ended_served {w : State} {d : Side} {o : Word} {c : CaptureChannel} {e : DeskewSide}
    (waits : (w.capture d).state = .waiting) (queue : (w.side d).queue = [.ended o true]) (is : w.capture d = c)
    (after : AfterEnd e { w.side d with queue := [] } [] e.lastCount) :
    AfterEnd e ((w.serveQueue d).side d) [] e.lastCount ∧
      (w.serveQueue d).capture d = ⟨.idle, none, none, true, c.pendingEnd.getD .bandOverrun⟩ := by
  have served : w.serveQueue d = w.actOnQueue d ((w.side d).waiting.length + 2 + 2) := by
    rw [State.serveQueue, queue]
    refine congrArg (fun n => w.actOnQueue d n) ?_
    simp only [List.length_cons, List.length_nil]
    omega
  obtain ⟨⟨capture, -⟩, side, -⟩ := ended_spec (.inr waits) queue _ _ served
  rw [side, capture, is]
  exact ⟨after, rfl⟩

/-- The end of a ticket's side, by the state in which it finds the channel and the engine. -/
structure EndsAt (s w : State) (d : Side) : Prop where
  side : w.side d = s.side d
  capture : Granted (s.capture d) (w.capture d)
  threshold : w.engine.blankThreshold = s.engine.blankThreshold

section Ends

variable {s w : State} {d : Side} {u : Ticket} (ends : EndsAt s w d)

include ends

theorem busy_endsAt (busy : Busy s d) : Busy w d := by
  rcases ends.capture with same | ⟨-, granted⟩
  · rwa [Busy, same]
  · exact .inr (by rw [granted])

theorem handOver_endSide_busy (busy : Busy s d) :
    w.handOver d (State.endSide d u.ordinal) = w.endSide d u.ordinal := by
  obtain ⟨-, -, -, -, -, -, -, images, -⟩ := unchanged_endSide d u.ordinal w
  exact handOver_busy (images (by decide)) (busy_endsAt ends busy)

theorem handOver_flushes (flush : ToFlush (s.side d) u) : w.handOver d (State.endSide d u.ordinal) =
    w.editSide d fun e => { e with state := .flushing, outputLength := e.fullLength } := by
  obtain ⟨taking, mine, more⟩ := flush
  rw [← ends.side] at taking mine more
  have work := endSide_flushes mine taking more
  refine (handOver_same ?_).trans work
  rw [work, side_edit]

theorem side_ends (mine : (s.side d).ordinal = u.ordinal) (taking : (s.side d).state = .taking)
    (done : (s.side d).fullLength ≤ (s.side d).outputs) : AfterEnd (s.side d) ((w.endSide d u.ordinal).side d)
      (markLast u.ordinal (s.side d).queue) (s.side d).black := by
  rw [← ends.side] at mine taking done ⊢
  rw [endSide_ends mine taking done, side_edit, side_blankTest]
  exact afterEnd_next { w.side d with
    lastCount := (w.side d).black, outputLength := (w.side d).fullLength
    queue := markLast u.ordinal (w.side d).queue }

theorem side_discarded (mine : (s.side d).ordinal = u.ordinal) (discarding : (s.side d).state = .discarding) :
    AfterEnd (s.side d) ((w.endSide d u.ordinal).side d) ((s.side d).queue ++ [.ended u.ordinal true])
      (s.side d).lastCount := by
  rw [← ends.side] at mine discarding ⊢
  rw [endSide_discarded mine discarding, side_edit]
  exact afterEnd_next { w.side d with queue := (w.side d).queue ++ [QueueItem.ended u.ordinal true] }

theorem blanks_ends (mine : (s.side d).ordinal = u.ordinal) (taking : (s.side d).state = .taking)
    (done : (s.side d).fullLength ≤ (s.side d).outputs) (blank : (s.side d).black ≤ s.engine.blankThreshold) :
    ∀ v ∈ (w.endSide d u.ordinal).tracker.train, v.ordinal = u.ordinal → blankFlag d v = true := by
  rw [← ends.side] at mine taking done blank
  rw [← ends.threshold] at blank
  rw [endSide_ends mine taking done, tracker_editSide]
  intro v on its
  exact blanks_blankTest blank on (its.trans mine.symm)

theorem ends_discarded (mine : (s.side d).ordinal = u.ordinal) (discarding : (s.side d).state = .discarding)
    (empty : (s.side d).queue = []) (waits : (s.capture d).state = .waiting)
    (goes : ∀ v ∈ (s.side d).waiting.head?, v.ended = false) :
    AfterEnd (s.side d) ((w.handOver d (State.endSide d u.ordinal)).side d) [] (s.side d).lastCount ∧
    (w.handOver d (State.endSide d u.ordinal)).capture d =
      ⟨.idle, none, none, true, (s.capture d).pendingEnd.getD .bandOverrun⟩ := by
  have capture : w.capture d = s.capture d := by
    rcases ends.capture with same | ⟨asks, -⟩
    · exact same
    · rw [waits] at asks
      cases asks
  obtain ⟨-, -, -, -, -, -, -, images, -⟩ := unchanged_endSide d u.ordinal w
  have worked := (capture_of_images (images (by decide)) d).trans capture
  rw [← ends.side] at mine discarding empty goes ⊢
  obtain ⟨queue, -, -, after⟩ :=
    next_cases (e := { w.side d with queue := (w.side d).queue ++ [QueueItem.ended u.ordinal true] }) goes
  have side : (w.endSide d u.ordinal).side d =
      DeskewSide.next { w.side d with queue := (w.side d).queue ++ [QueueItem.ended u.ordinal true] } := by
    rw [endSide_discarded mine discarding, side_edit]
  rw [← side] at queue after
  have queue : ((w.endSide d u.ordinal).side d).queue = [.ended u.ordinal true] := by
    rw [queue, empty]
    rfl
  have serves : w.handOver d (State.endSide d u.ordinal) = (w.endSide d u.ordinal).serveQueue d :=
    handOver_changed (by rw [queue, empty]; exact List.cons_ne_nil _ _)
  rw [serves]
  exact ended_served (by rw [worked]; exact waits) queue worked after
/-- The end of a ticket's sides at one side, and the channel after it. -/
theorem sideEnded_handOver : SideEnded s (w.handOver d (State.endSide d u.ordinal)) d u := by
  refine ⟨fun mine taking more => ?_, fun mine taking done busy => ⟨fun earlier b order its => ?_, fun gone => ?_,
    ?_⟩, fun mine discarding busy => ?_, fun mine discarding empty waits goes =>
    ends_discarded ends mine discarding empty waits goes, fun other => ?_⟩
  · rw [handOver_flushes ends ⟨taking, mine, more⟩, side_edit, ends.side]
    rfl
  · rw [handOver_endSide_busy ends busy, ← markLast_of_band its, ← order]
    exact side_ends ends mine taking done
  · rw [handOver_endSide_busy ends busy, ← markLast_of_gone gone]
    exact side_ends ends mine taking done
  · intro v on its blank
    rw [handOver_endSide_busy ends busy] at on
    exact blanks_ends ends mine taking done blank v on its
  · rw [handOver_endSide_busy ends busy]
    exact side_discarded ends mine discarding
  · rw [← ends.side] at other
    have work := endSide_waits other
    rw [handOver_same (by rw [work, side_edit]; rfl), work, side_edit, ends.side]
    rfl

end Ends

/-- The end of one side stands through the work on the other. -/
theorem SideEnded.served {s t r : State} {d e : Side} {u : Ticket} (ended : SideEnded s t d u) (other : d ≠ e)
    (served : Served e t r) : SideEnded s r d u := by
  obtain ⟨flush, ends, discarded, lost, waits⟩ := ended
  have side := served.side d other
  refine ⟨?_, fun mine taking done busy => ?_, ?_, fun mine discarding empty waiting goes => ?_, ?_⟩
  · rwa [side]
  · obtain ⟨marked, gone, blank⟩ := ends mine taking done busy
    rw [side]
    exact ⟨marked, gone, fun v on its dark => blanks_of_served served
      (fun v on its => blank v on its dark) v on its⟩
  · rwa [side]
  · obtain ⟨after, capture⟩ := lost mine discarding empty waiting goes
    rw [side]
    refine ⟨after, ?_⟩
    rcases served.capture d other with same | ⟨asks, -⟩
    · rw [same, capture]
    · rw [capture] at asks
      cases asks
  · rwa [side]

section ScanTrailing

variable {s : State} (acts : s.acts = true)

include acts

theorem scanTrailing_of_stray (never : ∀ u ∈ s.tracker.train, ¬ ExpectsScanEnd s u) : s.scanTrailing = s.stray 5 := by
  rw [State.scanTrailing, if_neg (by rw [acts]; decide), oldest_of_none (scanTrailingFits_iff s) never rfl]

theorem scanTrailing_of_expected {u : Ticket} (oldest : Oldest s (ExpectsScanEnd s) u) : s.scanTrailing =
    (s.editTicket u.ordinal fun v => { v with armed.scanTrailing := false }).endSides u.ordinal := by
  rw [State.scanTrailing, if_neg (by rw [acts]; decide), oldest_of (scanTrailingFits_iff s) oldest rfl]

end ScanTrailing

/-- What a scan trailing edge leaves beside the sides. -/
def AtScanEnd (s t : State) (u : Ticket) : Prop :=
  (∀ v ∈ t.tracker.train, v.ordinal = u.ordinal → v.armed.scanTrailing = false) ∧
  PinMoved s t 5 (levelFor s 5 false) ∧ t.port = s.port ∧ t.batch = s.batch ∧
  t.assembler = s.assembler ∧ t.evaluator = s.evaluator

theorem AtScanEnd.served {s t r : State} {d : Side} {u : Ticket} (at_ : AtScanEnd s t u) (served : Served d t r) :
    AtScanEnd s r u := by
  obtain ⟨armed, pin, port, batch, assembler, evaluator⟩ := at_
  obtain ⟨ports, batches, lines⟩ := port_served served
  refine ⟨fun v on its => ?_, ?_, ports.trans port, batches.trans batch, ?_, ?_⟩
  · obtain ⟨v', on', kept⟩ := served.ticket on
    rw [kept.rest]
    exact armed v' on' ((congrArg Ticket.ordinal kept.rest).symm.trans its)
  · rwa [PinMoved, lines]
  · rw [served.rest]
    exact assembler
  · rw [served.rest]
    exact evaluator

section EndSides

variable {s w : State} {u : Ticket}

theorem endsAt_served {d e : Side} {t : State} (ends : EndsAt s w d) (other : d ≠ e) (served : Served e w t) :
    EndsAt s t d := by
  refine ⟨(served.side d other).trans ends.side, ends.capture.trans (served.capture d other), ?_⟩
  rw [served.rest]
  exact ends.threshold

theorem endSides_eq : w.endSides u.ordinal = if w.batch.duplex then
    (w.handOver .front (State.endSide .front u.ordinal)).handOver .back (State.endSide .back u.ordinal)
  else w.handOver .front (State.endSide .front u.ordinal) := rfl

theorem served_end (d : Side) (w : State) : Served d w (w.handOver d (State.endSide d u.ordinal)) :=
  served_handOver d (served_endSide d u.ordinal) w

variable (ends : ∀ d, EndsAt s w d) (at_ : AtScanEnd s w u)

include ends

theorem sideEnded_endSides (duplex : s.batch.duplex = w.batch.duplex) :
    SideEnded s (w.endSides u.ordinal) .front u ∧
    (s.batch.duplex = true → SideEnded s (w.endSides u.ordinal) .back u) ∧
    (s.batch.duplex = false → (w.endSides u.ordinal).engine.back = s.engine.back) := by
  have front : SideEnded s _ .front u := sideEnded_handOver (u := u) (ends .front)
  have served := served_end (u := u) .front w
  rw [endSides_eq, duplex]
  split
  · next both =>
    refine ⟨SideEnded.served front (by decide) (served_end .back _), fun _ => ?_, fun one => ?_⟩
    · exact sideEnded_handOver (endsAt_served (ends .back) (by decide) served)
    · rw [both] at one
      cases one
  · next one =>
    exact ⟨front, fun both => absurd both one, fun _ => (served.side .back (by decide)).trans (ends .back).side⟩

theorem endSides_flushes (duplex : s.batch.duplex = w.batch.duplex) (front : ToFlush s.engine.front u)
    (back : s.batch.duplex = true → ToFlush s.engine.back u) : (w.endSides u.ordinal).tracker = w.tracker ∧
      Unchanged [.engine] w (w.endSides u.ordinal) := by
  rw [endSides_eq, handOver_flushes (ends .front) front]
  split
  · next both =>
    have served := served_editSide .front (fun e => { e with state := .flushing, outputLength := e.fullLength }) w
    have ends' := endsAt_served (ends .back) (by decide) served
    rw [handOver_flushes ends' (back (duplex.trans both)), tracker_editSide, tracker_editSide]
    exact ⟨rfl, unchanged_trans (unchanged_editSide _ _ _) (unchanged_editSide _ _ _)⟩
  · exact ⟨tracker_editSide _ _ _, unchanged_editSide _ _ _⟩

omit ends

include at_

theorem atScanEnd_endSides : AtScanEnd s (w.endSides u.ordinal) u := by
  rw [endSides_eq]
  split
  · exact (at_.served (served_end .front w)).served (served_end .back _)
  · exact at_.served (served_end .front w)

end EndSides

/-! ## The edges at the board -/

theorem exec_edgeSensorLeadingEdge (sensor : Sensor) (s : State) : exec (.edgeSensorLeadingEdge sensor) s =
    complete (State.boardEdge (sensorLine sensor) true) s := rfl

theorem exec_scanLeadingEdge (s : State) : exec .scanLeadingEdge s = complete (State.boardEdge 5 true) s := rfl

theorem exec_scanTrailingEdge (s : State) : exec .scanTrailingEdge s = complete (State.boardEdge 5 false) s := rfl

theorem edge_of_sensor (sensor : Sensor) (s : State) : s.edge (sensorLine sensor) true = s.edgeSensor sensor := by
  cases sensor <;> rfl

section Board

variable {s : State}

section Sensors

variable {sensor : Sensor} {u : Ticket} (wired : Wired s (sensorLine sensor)) (acts : s.acts = true)

include wired acts

theorem edgeSensor_first
    (oldest : Oldest s (fun v => ExpectsFirst s v ∨ ExpectsSecond s sensor v) u) (first : ExpectsFirst s u) :
    After (.edgeSensorLeadingEdge sensor) s fun t =>
      t.tracker = { s.tracker with train := changed s u.ordinal fun v => { v with
        armed.firstEdge := false
        armed.secondEdge := some ⟨otherSensor sensor, s.tracker.travel⟩ } } ∧
      t.engine = { s.engine with
        measurements := s.engine.measurements ++ [⟨u.ordinal, sensor, s.tracker.travel⟩] } ∧
      PinMoved s t (sensorLine sensor) (levelFor s (sensorLine sensor) true) ∧
      Unchanged [.tracker, .engine, .lines] s t := by
  refine after_of_wired (exec_edgeSensorLeadingEdge sensor s) wired ?_
  rw [edge_of_sensor, edgeSensor_of_first (s := s.begin.movePin (sensorLine sensor) true) acts oldest first]
  exact ⟨rfl, rfl, pinMoved_of_lines rfl,
    by simp [Unchanged, State.movePin, State.drive, State.editTicket, State.openMeasurement]⟩

theorem edgeSensor_second {m : Measurement} {rest : List Measurement}
    (oldest : Oldest s (fun v => ExpectsFirst s v ∨ ExpectsSecond s sensor v) u) (second : ¬ ExpectsFirst s u)
    (mine : m.ordinal = u.ordinal) (open_ : s.engine.measurements = m :: rest)
    (only : ∀ n ∈ rest, n.ordinal ≠ u.ordinal) :
    After (.edgeSensorLeadingEdge sensor) s fun t =>
      t.tracker = { s.tracker with train := changed s u.ordinal fun v => { v with
        armed.secondEdge := none
        delta := some (m.delta s.tracker.travel)
        stage := .gauged
        flags.skewOver :=
          v.flags.skewOver || decide (s.engine.skewLimit < (m.delta s.tracker.travel).natAbs) } } ∧
      t.engine = { s.engine with measurements := rest } ∧
      PinMoved s t (sensorLine sensor) (levelFor s (sensorLine sensor) true) ∧
      Unchanged [.tracker, .engine, .lines] s t := by
  refine after_of_wired (exec_edgeSensorLeadingEdge sensor s) wired ?_
  rw [edge_of_sensor, edgeSensor_of_second (s := s.begin.movePin (sensorLine sensor) true) acts oldest second,
    ← mine, closeMeasurement_first (m := m) (rest := rest)
      (s := (s.begin.movePin (sensorLine sensor) true).editTicket m.ordinal atSecondEdge) open_ (by rwa [mine]),
    editTicket_editTicket (f := atSecondEdge) m.ordinal _ _ fun _ => rfl]
  exact ⟨rfl, rfl, pinMoved_of_lines rfl, by simp [Unchanged, State.movePin, State.drive, State.editTicket]⟩

theorem edgeSensor_stray (never : ∀ u ∈ s.tracker.train, ¬ ExpectsFirst s u ∧ ¬ ExpectsSecond s sensor u) :
    After (.edgeSensorLeadingEdge sensor) s fun t =>
      PinMoved s t (sensorLine sensor) (levelFor s (sensorLine sensor) true) ∧
      Jams s t .straySheet (some (sensorLine sensor)) none := by
  refine after_of_jam (exec_edgeSensorLeadingEdge sensor s) wired acts ?_
  rw [edge_of_sensor, edgeSensor_of_stray (s := s.begin.movePin (sensorLine sensor) true) acts never]
  rfl

end Sensors

section Scan

variable {u : Ticket} (wired : Wired s 5) (acts : s.acts = true)

include wired acts

theorem scanLeading_starts (oldest : Oldest s (ExpectsScan s) u) (gauged : u.stage ≠ .entered)
    (only : ∀ b ∈ s.tracker.train, b.ordinal = u.ordinal → b = u) : After .scanLeadingEdge s fun t =>
      t.tracker = { s.tracker with train := changed s u.ordinal fun v => loses (decide
        (s.engine.front.state ≠ .idle ∨ (s.batch.duplex = true ∧ s.engine.back.state ≠ .idle))) (atScan v) } ∧
      SideStarted s t .front u ∧ (s.batch.duplex = true → SideStarted s t .back u) ∧
      (s.batch.duplex = false → t.engine.back = s.engine.back) ∧
      t.engine = { s.engine with front := t.engine.front, back := t.engine.back } ∧
      PinMoved s t 5 (levelFor s 5 true) ∧ Unchanged [.tracker, .engine, .lines] s t := by
  refine after_of_wired (exec_scanLeadingEdge s) wired ?_
  rw [show State.edge 5 true _ = _ from scanLeading_of_gauged (s := s.begin.movePin 5 true) acts oldest gauged,
    startSides_eq (s := s.begin.movePin 5 true) (mem_of_oldest oldest) only]
  by_cases duplex : s.batch.duplex = true
  · rw [show (s.begin.movePin 5 true).batch.duplex = s.batch.duplex from rfl, if_pos duplex]
    refine ⟨?_, sideStarted_of rfl, fun _ => sideStarted_of rfl, fun one => ?_, rfl, pinMoved_of_lines rfl, ?_⟩
    · have lost : decide (s.engine.front.state ≠ .idle ∨ (s.batch.duplex = true ∧ s.engine.back.state ≠ .idle)) =
          (lostAtStart s .front || lostAtStart s .back) := by
        simp only [duplex, true_and, Bool.decide_or]
        rfl
      rw [lost]
      rfl
    · rw [duplex] at one
      cases one
    · simp [Unchanged, State.movePin, State.drive, State.editTicket, State.editSide]
  · rw [show (s.begin.movePin 5 true).batch.duplex = s.batch.duplex from rfl, if_neg duplex]
    refine ⟨?_, sideStarted_of rfl, fun both => absurd both duplex, fun _ => rfl, rfl, pinMoved_of_lines rfl, ?_⟩
    · have lost : decide (s.engine.front.state ≠ .idle ∨ (s.batch.duplex = true ∧ s.engine.back.state ≠ .idle)) =
          lostAtStart s .front := by
        simp only [duplex, Bool.false_eq_true, false_and, or_false]
        rfl
      rw [lost]
      rfl
    · simp [Unchanged, State.movePin, State.drive, State.editTicket, State.editSide]

/-- The state in which the end of a ticket's sides finds the engine. -/
def scanEnded (s : State) (u : Ticket) : State :=
  (s.begin.movePin 5 false).editTicket u.ordinal fun v => { v with armed.scanTrailing := false }

omit wired acts in
theorem endsAt_scanEnded (d : Side) : EndsAt s (scanEnded s u) d := by
  refine ⟨?_, .inl ?_, rfl⟩ <;> cases d <;> rfl

omit wired acts in
theorem atScanEnd_scanEnded : AtScanEnd s (scanEnded s u) u := by
  refine ⟨fun v on mine => ?_, pinMoved_of_lines rfl, rfl, rfl, rfl, rfl⟩
  obtain ⟨w, -, rfl⟩ := List.mem_map.mp on
  by_cases same : w.ordinal = u.ordinal
  · rw [if_pos same]
  · rw [if_neg same] at mine
    exact absurd mine same

theorem scanTrailing_ends (oldest : Oldest s (ExpectsScanEnd s) u) : After .scanTrailingEdge s fun t =>
    SideEnded s t .front u ∧ (s.batch.duplex = true → SideEnded s t .back u) ∧
    (s.batch.duplex = false → t.engine.back = s.engine.back) ∧
    (∀ v ∈ t.tracker.train, v.ordinal = u.ordinal → v.armed.scanTrailing = false) ∧
    PinMoved s t 5 (levelFor s 5 false) ∧ t.port = s.port ∧ t.batch = s.batch ∧
    t.assembler = s.assembler ∧ t.evaluator = s.evaluator ∧
    (ToFlush s.engine.front u → (s.batch.duplex = true → ToFlush s.engine.back u) →
      t.tracker = { s.tracker with
        train := changed s u.ordinal fun v => { v with armed.scanTrailing := false } } ∧
      Unchanged [.tracker, .engine, .lines] s t) := by
  refine after_of_wired (exec_scanTrailingEdge s) wired ?_
  rw [show State.edge 5 false _ = _ from scanTrailing_of_expected (s := s.begin.movePin 5 false) acts oldest]
  have ends : ∀ d, EndsAt s (scanEnded s u) d := endsAt_scanEnded
  obtain ⟨front, back, one⟩ := sideEnded_endSides (u := u) ends rfl
  obtain ⟨armed, pin, port, batch, assembler, evaluator⟩ := atScanEnd_endSides (atScanEnd_scanEnded (s := s) (u := u))
  refine ⟨front, back, one, armed, pin, port, batch, assembler, evaluator, fun flush flushes => ?_⟩
  obtain ⟨tracker, unchanged⟩ := endSides_flushes (u := u) ends rfl flush flushes
  refine ⟨tracker.trans rfl, unchanged_trans (t := scanEnded s u) ?_ (unchanged_mono (by decide) unchanged)⟩
  simp [Unchanged, scanEnded, State.movePin, State.drive, State.editTicket]

end Scan

end Board

/-- Settles O57: an edge at the board is one at the tracker, and the sides of a scan edge start or end one by one. -/
theorem sensorEdges : Obligations.SensorEdges := by
  unfold Obligations.SensorEdges
  refine ⟨fun s sensor => ?_, fun s wired acts => ⟨fun u oldest entered => ?_, fun u oldest gauged only =>
      scanLeading_starts wired acts oldest gauged only, fun never => ?_, fun u oldest =>
      scanTrailing_ends wired acts oldest, fun never => ?_⟩,
    fun s sensor => ?_, fun s unseen => ⟨after_of_unseen (exec_scanLeadingEdge s) unseen,
      after_of_unseen (exec_scanTrailingEdge s) unseen⟩⟩
  · intro l wired acts
    refine ⟨fun u oldest first => ?_, fun u c rest oldest second measured only => ?_, fun never => ?_⟩
    · cases sensor
      · exact edgeSensor_first wired acts oldest first
      · exact edgeSensor_first wired acts oldest first
    · cases sensor
      · exact edgeSensor_second wired acts oldest second rfl measured only
      · exact edgeSensor_second wired acts oldest second rfl measured only
    · cases sensor
      · exact edgeSensor_stray wired acts never
      · exact edgeSensor_stray wired acts never
  · exact after_of_jam (exec_scanLeadingEdge s) wired acts
      (scanLeading_of_entered (s := s.begin.movePin 5 true) acts oldest entered)
  · exact after_of_jam (exec_scanLeadingEdge s) wired acts
      (scanLeading_of_stray (s := s.begin.movePin 5 true) acts never)
  · exact after_of_jam (exec_scanTrailingEdge s) wired acts
      (scanTrailing_of_stray (s := s.begin.movePin 5 false) acts never)
  · intro l unseen
    cases sensor
    · exact after_of_unseen (exec_edgeSensorLeadingEdge .a s) unseen
    · exact after_of_unseen (exec_edgeSensorLeadingEdge .b s) unseen

end Sys2Proof.Proofs

/-! PROOFS. The travel pulse (R102, R106, R109, R111, R120, R127, R130, R132 to R134). -/

namespace Sys2Proof.Proofs

open Sys2Proof.Machine Sys2Proof.Safety Sys2Proof.Claims Sys2Proof.Laws Sys2Proof.Laws.Batches
  Sys2Proof.Laws.Bands Sys2Proof.Laws.Decisions

/-! ## What the board does to L1 to L4 (R109, R111) -/

theorem exec_travelPulse (zones : ZoneLevels) (left : PaperLeft) (front back : ScanLine) (s : State) :
    exec (.travelPulse zones left front back) s = complete (State.travelPulse zones left front back) s := rfl

/-- The state at a travel pulse, its board sampled and its travel counted. -/
def counted (zones : ZoneLevels) (left : PaperLeft) (s : State) : State :=
  { s.sampleBoard zones left with tracker.travel := s.tracker.travel + 1 }

theorem board_drive_self (l : LineIx) (d : Drive) (s : State) : (s.drive l d).lines.board[l] = d :=
  Vector.getElem_set_self l.isLt

theorem board_drive_ne {l k : LineIx} (other : k ≠ l) (d : Drive) (s : State) :
    (s.drive l d).lines.board[k] = s.lines.board[k] :=
  Vector.getElem_set_ne l.isLt k.isLt fun same => other (Fin.ext same.symm)

theorem clearSensor_self (l : LineIx) (left : Bool) (s : State) : (s.clearSensor l left).lines.board[l] =
    if left then levelFor s l false else s.lines.board[l] := by
  cases left
  · rfl
  · exact board_drive_self l _ s

theorem clearSensor_ne {l k : LineIx} (other : k ≠ l) (left : Bool) (s : State) :
    (s.clearSensor l left).lines.board[k] = s.lines.board[k] := by
  cases left
  · rfl
  · exact board_drive_ne other _ s

/-- Sampling the board changes nothing but the levels it drives. -/
theorem sampleBoard_frame (zones : ZoneLevels) (left : PaperLeft) (s : State) : s.sampleBoard zones left =
    { s with lines := { s.lines with board := (s.sampleBoard zones left).lines.board } } := by
  obtain ⟨x, y⟩ := zones
  obtain ⟨a, b⟩ := left
  cases a <;> cases b <;> rfl

theorem counted_frame (zones : ZoneLevels) (left : PaperLeft) (s : State) : counted zones left s =
    { s with
      lines := { s.lines with board := (s.sampleBoard zones left).lines.board }
      tracker := { s.tracker with travel := s.tracker.travel + 1 } } := by
  rw [counted, sampleBoard_frame]

section Pins

variable (x y : Drive) (a b : Bool) (s : State)

theorem sampled_three : (s.sampleBoard ⟨x, y⟩ ⟨a, b⟩).lines.board[(3 : LineIx)] = x :=
  (board_drive_ne (by decide) y _).trans (board_drive_self 3 x _)

theorem sampled_four : (s.sampleBoard ⟨x, y⟩ ⟨a, b⟩).lines.board[(4 : LineIx)] = y := board_drive_self 4 y _

theorem sampled_else {k : LineIx} (three : k ≠ 3) (four : k ≠ 4) :
    (s.sampleBoard ⟨x, y⟩ ⟨a, b⟩).lines.board[k] = ((s.clearSensor 1 a).clearSensor 2 b).lines.board[k] :=
  (board_drive_ne four y _).trans (board_drive_ne three x _)

theorem sampled_one : (s.sampleBoard ⟨x, y⟩ ⟨a, b⟩).lines.board[(1 : LineIx)] =
    if a then levelFor s 1 false else s.lines.board[(1 : LineIx)] := by
  rw [sampled_else x y a b s (by decide) (by decide), clearSensor_ne (by decide), clearSensor_self]

theorem sampled_two : (s.sampleBoard ⟨x, y⟩ ⟨a, b⟩).lines.board[(2 : LineIx)] =
    if b then levelFor s 2 false else s.lines.board[(2 : LineIx)] := by
  rw [sampled_else x y a b s (by decide) (by decide), clearSensor_self, clearSensor_ne (by decide)]
  cases a <;> rfl

theorem sampled_rest {k : LineIx} (rest : k = 0 ∨ 4 < k.val) :
    (s.sampleBoard ⟨x, y⟩ ⟨a, b⟩).lines.board[k] = s.lines.board[k] := by
  have other (j : LineIx) (at_ : j.val ≠ 0 ∧ j.val ≤ 4) : k ≠ j := by
    rintro rfl
    rcases rest with rfl | above
    · exact at_.1 rfl
    · omega
  rw [sampled_else x y a b s (other 3 (by decide)) (other 4 (by decide)), clearSensor_ne (other 2 (by decide)),
    clearSensor_ne (other 1 (by decide))]

end Pins

/-! ## The zones (R111) -/

/-- The level an input pin is seen at, for a level of the board. -/
def levelAt (s : State) (l : LineIx) (board : Drive) : Bool :=
  if s.lines.settings[l].output then s.lines.settings[l].latch
  else match board with
    | .high => true
    | .low => false
    | .released => if s.lines.settings[l].pull then !s.lines.settings[l].activeHigh
        else Config.floatingPin l.val (s.draws + 1)

theorem seenAt_iff (s : State) (l : LineIx) (board : Drive) : SeenAt s l board ↔
    s.lines.settings[l].enabled = true ∧ s.lines.settings[l].activeHigh = levelAt s l board := by
  cases board <;> exact Iff.rfl

theorem pinLevel_eq {s w : State} {l : LineIx} (input : outputFunction l = false)
    (settings : w.lines.settings = s.lines.settings) (draws : w.draws = s.draws + 1) :
    w.pinLevel l = levelAt s l w.lines.board[l] := by
  unfold levelAt
  rw [State.pinLevel, settings, draws, input]
  cases w.lines.board[l] <;> rfl

/-- A line of an input function is seen as the board's level has it. -/
theorem seen_iff {s w : State} {l : LineIx} (input : outputFunction l = false)
    (settings : w.lines.settings = s.lines.settings) (draws : w.draws = s.draws + 1) :
    w.seen l = true ↔ SeenAt s l w.lines.board[l] := by
  rw [seenAt_iff, State.seen, Bool.and_eq_true_iff, decide_eq_true_iff, pinLevel_eq input settings draws, settings,
    eq_comm (a := levelAt _ _ _)]

theorem covers_iff (travel : Long) (zone : Nat) (u : Ticket) :
    Ticket.covers travel zone u = true ↔ CoversZone travel zone u := by
  rw [Ticket.covers, Bool.and_eq_true_iff, decide_eq_true_iff, CoversZone, Ticket.trailing]
  rcases u.length with - | n
  · simp [Ticket.leading]
  · simp [Ticket.leading]

/-- The ordinal of the ticket that a zone line flags. -/
def flagged (s : State) (asserted : Bool) (zone : Nat) : Option Word :=
  if asserted then (s.oldest (Ticket.covers s.tracker.travel zone)).map Ticket.ordinal else none

/-- A flag for the tickets of an ordinal. -/
def markOf (o : Option Word) (mark : Ticket → Ticket) (v : Ticket) : Ticket := if o = some v.ordinal then mark v else v

theorem flagZone_eq (asserted : Bool) (zone : Nat) (mark : Ticket → Ticket) (s : State) :
    s.flagZone asserted zone mark =
      { s with tracker.train := s.tracker.train.map (markOf (flagged s asserted zone) mark) } := by
  have nobody : s = { s with tracker.train := s.tracker.train.map (markOf none mark) } := by
    have same : s.tracker.train.map (markOf none mark) = s.tracker.train :=
      (List.map_congr_left fun v _ => if_neg nofun).trans (List.map_id' _)
    rw [same]
  cases asserted with
  | false => exact nobody
  | true =>
    rw [State.flagZone, if_pos rfl, flagged, if_pos rfl]
    cases s.oldest (Ticket.covers s.tracker.travel zone) with
    | none => exact nobody
    | some u =>
      refine congrArg (fun train => { s with tracker.train := train }) (List.map_congr_left fun v _ => ?_)
      simp only [markOf, Option.map_some, Option.some.injEq, eq_comm]

theorem flagged_map {s : State} {f : Ticket → Ticket} (ordinal : ∀ v, (f v).ordinal = v.ordinal)
    (covers : ∀ travel zone v, Ticket.covers travel zone (f v) = Ticket.covers travel zone v) (asserted : Bool)
    (zone : Nat) : flagged { s with tracker.train := s.tracker.train.map f } asserted zone = flagged s asserted zone := by
  rw [flagged, flagged, State.oldest, State.oldest, List.find?_map, Option.map_map]
  have same : Ticket.covers s.tracker.travel zone ∘ f = Ticket.covers s.tracker.travel zone :=
    funext fun v => covers _ _ v
  have ordinals : Ticket.ordinal ∘ f = Ticket.ordinal := funext ordinal
  rw [same, ordinals]

/-- A ticket with the zone flags of a travel pulse. -/
def zonedBy (doubleFeed mark : Option Word) (v : Ticket) : Ticket := { v with
  flags.doubleFeed := v.flags.doubleFeed || decide (doubleFeed = some v.ordinal)
  flags.separatorMark := v.flags.separatorMark || decide (mark = some v.ordinal) }

/-- The DOUBLE FEED flag of the ticket over the detector. -/
def doubleFed (v : Ticket) : Ticket := { v with flags.doubleFeed := true }

/-- The SEPARATOR MARK flag of the ticket over the detector. -/
def marked (v : Ticket) : Ticket := { v with flags.separatorMark := true }

theorem markOf_markOf (doubleFeed mark : Option Word) (v : Ticket) :
    markOf mark marked (markOf doubleFeed doubleFed v) = zonedBy doubleFeed mark v := by
  by_cases double : doubleFeed = some v.ordinal <;> by_cases mark_ : mark = some v.ordinal <;>
    simp [markOf, zonedBy, doubleFed, marked, double, mark_]

/-- The ordinal that L3 has flagged. -/
def doubleFeedOf (s : State) : Option Word := flagged s (s.seen 3) s.tracker.profile[1]

/-- The ordinal that L4 has flagged. -/
def separatorOf (s : State) : Option Word := flagged s (s.seen 4) s.tracker.profile[2]

theorem flagZones_eq (s : State) : s.flagZones =
    { s with tracker.train := s.tracker.train.map (zonedBy (doubleFeedOf s) (separatorOf s)) } := by
  have keeps (v : Ticket) : (markOf (doubleFeedOf s) doubleFed v).ordinal = v.ordinal := by
    unfold markOf
    split <;> rfl
  have covers (travel : Long) (zone : Nat) (v : Ticket) :
      Ticket.covers travel zone (markOf (doubleFeedOf s) doubleFed v) = Ticket.covers travel zone v := by
    unfold markOf
    split <;> rfl
  have first : s.flagZone (s.seen 3) s.doubleFeedZone doubleFed =
      { s with tracker.train := s.tracker.train.map (markOf (doubleFeedOf s) doubleFed) } := flagZone_eq ..
  have both := flagZone_eq (s.seen 4) s.tracker.profile[2] marked
    { s with tracker.train := s.tracker.train.map (markOf (doubleFeedOf s) doubleFed) }
  rw [flagged_map keeps covers, ← first] at both
  refine both.trans ?_
  rw [first]
  refine congrArg (fun train => { s with tracker.train := train }) ((List.map_map ..).trans ?_)
  exact List.map_congr_left fun v _ => markOf_markOf _ _ v

/-- The state of a travel pulse before the sides take their lines. -/
def pulsed (s : State) : State := { s with
  tracker := { s.tracker with
    stallTimer := some 50
    train := s.tracker.train.map (zonedBy (doubleFeedOf s) (separatorOf s)) } }

theorem travelOn_eq (front back : ScanLine) (s : State) : s.travelOn front back =
    ((pulsed s).handOver .front (State.takeLine .front front)).handOver .back (State.takeLine .back back) := by
  have flags : { s with tracker.stallTimer := some 50 }.flagZones = pulsed s := flagZones_eq _
  rw [← flags]
  rfl

section Pulse

variable {s : State} (zones : ZoneLevels) (left : PaperLeft) (front back : ScanLine)

theorem acts_counted : (counted zones left s).acts = s.acts := by
  rw [counted_frame]
  rfl

theorem travelPulse_eq : s.travelPulse zones left front back = if (counted zones left s).acts then
    (counted zones left s).travelOn front back else counted zones left s := rfl

theorem travelPulse_of_not_acts (still : s.acts = false) :
    s.travelPulse zones left front back = counted zones left s := by
  rw [travelPulse_eq, acts_counted, still]
  exact if_neg (by decide)

theorem travelPulse_of_acts (acts : s.acts = true) : s.travelPulse zones left front back =
    ((pulsed (counted zones left s)).handOver .front (State.takeLine .front front)).handOver
      .back (State.takeLine .back back) := by
  rw [travelPulse_eq, acts_counted, acts, ← travelOn_eq]
  exact if_pos rfl

end Pulse

theorem flagged_of_zoned {s w : State} {l : LineIx} {zone : Nat} {o : Option Word}
    (zoned : Zoned s l w.lines.board[l] zone o) (travel : w.tracker.travel = s.tracker.travel + 1)
    (train : w.tracker.train = s.tracker.train) (seen : w.seen l = true ↔ SeenAt s l w.lines.board[l]) :
    flagged w (w.seen l) zone = o := by
  rw [flagged, travel]
  cases o with
  | none =>
    rcases zoned with unseen | never
    · exact if_neg (unseen ∘ seen.mp)
    · rw [oldest_of_none (covers_iff _ zone) never train, Option.map_none, ite_self]
  | some ordinal =>
    obtain ⟨is, u, oldest, mine⟩ := zoned
    rw [if_pos (seen.mpr is), oldest_of (covers_iff _ zone) oldest train, Option.map_some, mine]

end Sys2Proof.Proofs

/-! PROOFS. The lines the sides take at a travel pulse (R130, R132, R133). -/

namespace Sys2Proof.Proofs

open Sys2Proof.Machine Sys2Proof.Safety Sys2Proof.Claims Sys2Proof.Laws Sys2Proof.Laws.Batches
  Sys2Proof.Laws.Bands Sys2Proof.Laws.Decisions

/-! ## A line taken, by the state of the side -/

/-- A side that has formed an output line from its head's line. -/
def taken (input : ScanLine) (e : DeskewSide) : DeskewSide := { formed e input with inputs := e.inputs + 1 }

/-- A side whose queue has been overrun, its ungranted bands gone. -/
def overrun (granted : Bool) (e : DeskewSide) : DeskewSide :=
  { e.discard with queue := withoutBands e.ordinal granted e.queue }

section TakeLine

variable {s : State} {d : Side} (input : ScanLine)

theorem takeLine_of_still (still : (s.side d).state = .idle ∨ (s.side d).state = .flushing) : s.takeLine d input = s := by
  rw [State.takeLine]
  rcases still with is | is <;> rw [is]

theorem takeLine_of_discarding (discarding : (s.side d).state = .discarding) :
    s.takeLine d input = s.editSide d fun e => { e with inputs := e.inputs + 1 } := by
  rw [State.takeLine, discarding]

/-- A side that is not TAKING takes no line to form. -/
theorem takeLine_of_not_taking (other : (s.side d).state ≠ .taking) :
    ∃ n : Nat → Nat, s.takeLine d input = s.editSide d fun e => { e with inputs := n e.inputs } := by
  cases is : (s.side d).state with
  | taking => exact absurd is other
  | discarding => exact ⟨_, takeLine_of_discarding input is⟩
  | idle => exact ⟨id, (takeLine_of_still input (.inl is)).trans (by cases d <;> rfl)⟩
  | flushing => exact ⟨id, (takeLine_of_still input (.inr is)).trans (by cases d <;> rfl)⟩

theorem handOver_takeLine_of_not_taking (other : (s.side d).state ≠ .taking) :
    ∃ n : Nat → Nat, s.handOver d (State.takeLine d input) = s.editSide d fun e => { e with inputs := n e.inputs } := by
  obtain ⟨n, work⟩ := takeLine_of_not_taking input other
  refine ⟨n, (handOver_same ?_).trans work⟩
  rw [work, side_edit]

variable (taking : (s.side d).state = .taking)

include taking

theorem takeLine_of_taking : s.takeLine d input =
    if (taken input (s.side d)).band.length < 16 then s.editSide d (taken input)
    else if bandsQueued (s.side d) < 4 then (s.editSide d (taken input)).editSide d (DeskewSide.queueBand false)
    else (s.editSide d (taken input)).overrunSide d := by
  have forms : (fun e : DeskewSide => ({ e.formLine input with inputs := e.inputs + 1 } : DeskewSide)) = taken input :=
    funext fun e => by rw [formLine_eq]; rfl
  rw [State.takeLine, taking]
  dsimp only
  rw [State.formTaken, forms, side_edit]
  rfl

theorem takeLine_inside (short : (s.side d).band.length < 15) : s.takeLine d input = s.editSide d (taken input) := by
  refine (takeLine_of_taking input taking).trans (if_pos ?_)
  rw [taken, formed, List.length_append, List.length_singleton]
  omega

theorem takeLine_full (full : 15 ≤ (s.side d).band.length) : s.takeLine d input =
    if bandsQueued (s.side d) < 4 then (s.editSide d (taken input)).editSide d (DeskewSide.queueBand false)
    else (s.editSide d (taken input)).overrunSide d := by
  refine (takeLine_of_taking input taking).trans (if_neg ?_)
  rw [taken, formed, List.length_append, List.length_singleton]
  omega

end TakeLine

/-! ## An overrun (R133) -/

/-- A side lost by an overrun, and its ticket told. -/
def overrunOf (d : Side) (s : State) : State :=
  (s.editTicket (s.side d).ordinal Ticket.lose).editSide d (overrun (decide ((s.capture d).state = .transferring)))

theorem overrunSide_of_transferring {s : State} {d : Side} (transferring : (s.capture d).state = .transferring) :
    s.overrunSide d = overrunOf d s := by
  rw [State.overrunSide]
  refine if_neg ?_
  rw [transferring]
  exact Bool.false_ne_true

theorem overrunSide_of_requesting {s : State} {d : Side} (requesting : (s.capture d).state = .requesting)
    {q : QueueItem} {rest : List QueueItem} (queue : (s.side d).queue = q :: rest)
    (mine : q.bandOf (s.side d).ordinal = true) :
    s.overrunSide d = (overrunOf d s).editCapture d fun c => { c with state := .waiting } := by
  rw [State.overrunSide]
  refine if_pos ?_
  rw [queue, requesting]
  exact mine

theorem side_overrunOf (d : Side) (s : State) : (overrunOf d s).side d =
    overrun (decide ((s.capture d).state = .transferring)) (s.side d) := by
  rw [overrunOf, side_edit, side_editTicket]

theorem images_overrunOf (d : Side) (s : State) : (overrunOf d s).images = s.images := by
  cases d <;> rfl

theorem lost_overrunOf (d : Side) (s : State) {v : Ticket} (on : v ∈ (overrunOf d s).tracker.train)
    (mine : v.ordinal = (s.side d).ordinal) : v.flags.imageLost = true := by
  rw [overrunOf, tracker_editSide] at on
  obtain ⟨u, -, rfl⟩ := List.mem_map.mp on
  by_cases same : u.ordinal = (s.side d).ordinal
  · rw [if_pos same]
    rfl
  · rw [if_neg same] at mine
    exact absurd mine same

/-- A lost image stays lost. -/
theorem losses_of_served {d : Side} {s t : State} (served : Served d s t) {o : Word}
    (lost : ∀ v ∈ s.tracker.train, v.ordinal = o → v.flags.imageLost = true) :
    ∀ v ∈ t.tracker.train, v.ordinal = o → v.flags.imageLost = true := by
  intro v on mine
  obtain ⟨u, was, kept⟩ := served.ticket on
  exact kept.lost (lost u was ((congrArg Ticket.ordinal kept.rest).symm.trans mine))

theorem mine_of_crowded {e : DeskewSide} (mine : ∀ i ∈ e.queue, i.bandOf e.ordinal = true)
    (crowded : 4 ≤ bandsQueued e) : ∃ q rest, e.queue = q :: rest ∧ q.bandOf e.ordinal = true := by
  cases queue : e.queue with
  | nil =>
    rw [bandsQueued, queue] at crowded
    exact absurd crowded (by decide)
  | cons q rest => exact ⟨q, rest, rfl, mine q (by rw [queue]; exact List.mem_cons_self)⟩

theorem withoutBands_of_mine {o : Word} {queue : List QueueItem} (mine : ∀ i ∈ queue, i.bandOf o = true) :
    withoutBands o false queue = [] :=
  List.filter_eq_nil_iff.mpr fun i on => by rw [mine i on]; decide

theorem withoutBands_granted (o : Word) (queue : List QueueItem) :
    withoutBands o true queue = queue.take 1 ++ queue.tail.filter fun i => !i.bandOf o := by
  cases queue <;> rfl

/-! ## The line of one side, and its channel -/

/-- The state in which a travel pulse finds a side. -/
structure PulseAt (s w : State) (d : Side) : Prop where
  side : w.side d = s.side d
  capture : Granted (s.capture d) (w.capture d)

/-- And in which it finds all that its channel goes by. -/
structure ChannelAt (s w : State) : Prop where
  record : w.record = s.record
  images : w.images = s.images
  acts : w.acts = s.acts
  chains (d : Side) : w.tracker.train.map (fun v => (v.ordinal, chainOf d v)) =
    s.tracker.train.map fun v => (v.ordinal, chainOf d v)

section Own

variable {s w : State} {d : Side} {input : ScanLine} (at_ : PulseAt s w d)

include at_

theorem busy_pulseAt (busy : Busy s d) : Busy w d := by
  rcases at_.capture with same | ⟨-, granted⟩
  · rwa [Busy, same]
  · exact .inr (by rw [granted])

theorem transferring_pulseAt (transferring : (s.capture d).state = .transferring) :
    (w.capture d).state = .transferring := by
  rcases at_.capture with same | ⟨asks, -⟩
  · rwa [same]
  · rw [transferring] at asks
    cases asks

theorem handOver_inside_pulse (taking : (s.side d).state = .taking) (short : (s.side d).band.length < 15) :
    w.handOver d (State.takeLine d input) = w.editSide d (taken input) := by
  rw [← at_.side] at taking short
  have work := takeLine_inside input taking short
  refine (handOver_same ?_).trans work
  rw [work, side_edit]
  rfl

theorem work_band (taking : (s.side d).state = .taking) (full : 15 ≤ (s.side d).band.length)
    (room : bandsQueued (s.side d) < 4) : w.takeLine d input =
      (w.editSide d (taken input)).editSide d (DeskewSide.queueBand false) := by
  rw [← at_.side] at taking full room
  exact (takeLine_full input taking full).trans (if_pos room)

theorem side_band_busy (taking : (s.side d).state = .taking) (full : 15 ≤ (s.side d).band.length)
    (room : bandsQueued (s.side d) < 4) (busy : Busy s d) :
    (w.handOver d (State.takeLine d input)).side d = { taken input (s.side d) with
      band := []
      queue := (s.side d).queue ++ [.band ⟨(s.side d).ordinal, ((s.side d).outputs + 1) / 16 - 1, false,
        (formed (s.side d) input).band⟩] } := by
  have work := work_band at_ (input := input) taking full room
  have images : (w.takeLine d input).images = w.images := by
    rw [work]
    cases d <;> rfl
  rw [handOver_busy images (busy_pulseAt at_ busy), work, side_edit, side_edit, at_.side]
  rfl

theorem readied_pulse (channel : ChannelAt s w) (taking : (s.side d).state = .taking)
    (full : 15 ≤ (s.side d).band.length) (room : bandsQueued (s.side d) < 4) :
    Readied s (w.takeLine d input) d
      ⟨(s.side d).ordinal, ((s.side d).outputs + 1) / 16 - 1, false, (formed (s.side d) input).band⟩
      { taken input (s.side d) with band := [] } := by
  obtain ⟨record, images, acts, chains⟩ := channel
  rw [work_band at_ taking full room]
  refine ⟨?_, ?_, ?_, ?_, ?_⟩
  · rw [side_edit, side_edit, at_.side]
    rfl
  · rw [← record]
    cases d <;> rfl
  · rw [← images]
    cases d <;> rfl
  · rw [← acts]
    cases d <;> rfl
  · rw [tracker_editSide, tracker_editSide, chains]

theorem bandReady_pulse (channel : ChannelAt s w) (taking : (s.side d).state = .taking)
    (full : 15 ≤ (s.side d).band.length) (room : bandsQueued (s.side d) < 4) :
    BandReady s (w.handOver d (State.takeLine d input)) d
      ⟨(s.side d).ordinal, ((s.side d).outputs + 1) / 16 - 1, false, (formed (s.side d) input).band⟩
      { taken input (s.side d) with band := [] } := by
  have readied := readied_pulse at_ (input := input) channel taking full room
  rw [handOver_ready at_.side readied]
  exact bandReady_serveQueue readied

theorem work_overrun (taking : (s.side d).state = .taking) (full : 15 ≤ (s.side d).band.length)
    (crowded : 4 ≤ bandsQueued (s.side d)) :
    w.takeLine d input = (w.editSide d (taken input)).overrunSide d := by
  rw [← at_.side] at taking full crowded
  exact (takeLine_full input taking full).trans (if_neg (Nat.not_lt.mpr crowded))

theorem side_taken : (w.editSide d (taken input)).side d = taken input (s.side d) := by
  rw [side_edit, at_.side]

omit at_ in
theorem capture_editSide (d e : Side) (f : DeskewSide → DeskewSide) (w : State) :
    (w.editSide d f).capture e = w.capture e := by
  cases d <;> cases e <;> rfl

theorem handOver_overrun_granted (taking : (s.side d).state = .taking) (full : 15 ≤ (s.side d).band.length)
    (crowded : 4 ≤ bandsQueued (s.side d)) (transferring : (s.capture d).state = .transferring) :
    w.handOver d (State.takeLine d input) = overrunOf d (w.editSide d (taken input)) := by
  have granted : ((w.editSide d (taken input)).capture d).state = .transferring := by
    rw [capture_editSide]
    exact transferring_pulseAt at_ transferring
  have work := (work_overrun at_ (input := input) taking full crowded).trans (overrunSide_of_transferring granted)
  have images : (w.takeLine d input).images = w.images := by
    rw [work, images_overrunOf]
    cases d <;> rfl
  rw [handOver_busy images (busy_pulseAt at_ (.inr transferring)), work]

/-- The overrun of a side whose channel asked for one of its bands, before the channel acts. -/
def withdrawn (d : Side) (input : ScanLine) (w : State) : State :=
  (overrunOf d (w.editSide d (taken input))).editCapture d fun c => { c with state := .waiting }

theorem handOver_overrun_withdrawn (taking : (s.side d).state = .taking) (full : 15 ≤ (s.side d).band.length)
    (crowded : 4 ≤ bandsQueued (s.side d)) (capture : w.capture d = s.capture d)
    (requesting : (s.capture d).state = .requesting)
    (mine : ∀ i ∈ (s.side d).queue, i.bandOf (s.side d).ordinal = true) :
    w.handOver d (State.takeLine d input) =
        (withdrawn d input w).editCapture d (fun c => { c with state := if c.side.isSome then .waiting else .idle }) ∧
      (withdrawn d input w).side d = { taken input (s.side d) with
        queue := [], state := .discarding, band := [], buffer := [] } ∧
      (withdrawn d input w).capture d = { s.capture d with state := .waiting } := by
  obtain ⟨q, rest, queue, its⟩ := mine_of_crowded mine crowded
  have asks : ((w.editSide d (taken input)).capture d).state = .requesting := by
    rw [capture_editSide, capture, requesting]
  have work : w.takeLine d input = withdrawn d input w := by
    refine (work_overrun at_ taking full crowded).trans (overrunSide_of_requesting asks (q := q) (rest := rest) ?_ ?_)
    · rw [side_taken at_]
      exact queue
    · rw [side_taken at_]
      exact its
  have side : (withdrawn d input w).side d = { taken input (s.side d) with
      queue := [], state := .discarding, band := [], buffer := [] } := by
    rw [withdrawn, side_editCapture, side_overrunOf, side_taken at_, asks, overrun]
    exact congrArg (fun queue => { (taken input (s.side d)).discard with queue := queue }) (withoutBands_of_mine mine)
  have waits : (withdrawn d input w).capture d = { s.capture d with state := .waiting } := by
    rw [withdrawn, capture_edit, capture_of_images (images_overrunOf d _), capture_editSide, capture]
  refine ⟨?_, side, waits⟩
  have changed : ((w.takeLine d input).side d).queue ≠ (w.side d).queue := by
    rw [work, side, at_.side, queue]
    exact (List.cons_ne_nil _ _).symm
  rw [handOver_changed changed, work]
  exact act_nil (.inr (by rw [waits])) (by rw [side]) _

/-- What a travel pulse does to a side, with the channel's part where the other side forms no line. -/
theorem lineTaken_handOver {other : Side} (channel : (s.side other).state ≠ .taking → ChannelAt s w) :
    LineTaken s (w.handOver d (State.takeLine d input)) d other input := by
  refine ⟨fun still => ?_, fun discarding => ?_, fun taking short => ⟨?_, fun alone => ?_⟩, fun taking full room =>
    ⟨side_band_busy at_ taking full room, fun alone => bandReady_pulse at_ (channel alone) taking full room⟩,
    fun taking full crowded transferring => ?_, fun taking full crowded requesting held mine alone => ?_⟩
  · rw [← at_.side] at still ⊢
    have work := takeLine_of_still input still
    rw [handOver_same (by rw [work]), work]
  · rw [← at_.side] at discarding ⊢
    have work := takeLine_of_discarding input discarding
    rw [handOver_same (by rw [work, side_edit]), work, side_edit]
  · rw [handOver_inside_pulse at_ taking short, side_taken at_]
    rfl
  · rw [handOver_inside_pulse at_ taking short, capture_editSide, capture_of_images (channel alone).images]
  · rw [handOver_overrun_granted at_ taking full crowded transferring]
    have granted : ((w.editSide d (taken input)).capture d).state = .transferring := by
      rw [capture_editSide]
      exact transferring_pulseAt at_ transferring
    have side : (overrunOf d (w.editSide d (taken input))).side d = overrun true (taken input (s.side d)) := by
      rw [side_overrunOf, side_taken at_, granted]
      rfl
    refine ⟨?_, ?_, ?_, ?_, ?_, fun v on mine => lost_overrunOf d _ on ?_⟩
    · rw [side]
      rfl
    · rw [side]
      rfl
    · rw [side]
      rfl
    · rw [side]
      rfl
    · rw [side]
      refine (withoutBands_granted _ _).trans (congrArg _ (List.filter_congr fun i _ => ?_))
      cases i with
      | band b => exact (decide_not ..).symm
      | ended ordinal lost => rfl
    · rw [side_taken at_]
      exact mine
  · obtain ⟨serves, side, waits⟩ := handOver_overrun_withdrawn at_ (input := input) taking full crowded
      (capture_of_images (channel alone).images d) requesting mine
    rw [serves]
    refine ⟨?_, ?_, fun v on its => ?_⟩
    · rw [side_editCapture, side]
      rfl
    · rw [capture_edit, waits]
      exact congrArg (fun state => { s.capture d with state := state }) (if_pos held)
    · have on : v ∈ (overrunOf d (w.editSide d (taken input))).tracker.train := by
        cases d <;> exact on
      refine lost_overrunOf d _ on ?_
      rw [side_taken at_]
      exact its

end Own

/-! ## The front before the back (log 26) -/

/-- A band of the front stands ready whatever the back counts. -/
theorem bandReady_editSide_back {s t : State} {b : Band} {after : DeskewSide} (f : DeskewSide → DeskewSide)
    (ready : BandReady s t .front b after) : BandReady s (t.editSide .back f) .front b after := ready

/-- The line of the front stands through that of the back. -/
theorem lineTaken_front {s t : State} {front : ScanLine} (back : ScanLine) (line : LineTaken s t .front .back front)
    (side : t.side .back = s.side .back) :
    LineTaken s (t.handOver .back (State.takeLine .back back)) .front .back front := by
  have served : Served .back t (t.handOver .back (State.takeLine .back back)) :=
    served_handOver .back (served_takeLine .back back) t
  have same := served.side .front (by decide)
  have alone (other : (s.side .back).state ≠ .taking) :
      ∃ f, t.handOver .back (State.takeLine .back back) = t.editSide .back f := by
    obtain ⟨n, is⟩ := handOver_takeLine_of_not_taking (s := t) back (by rwa [side])
    exact ⟨_, is⟩
  obtain ⟨still, discarding, inside, band, granted, requested⟩ := line
  refine ⟨?_, ?_, fun taking short => ?_, fun taking full room => ?_, fun taking full crowded transferring => ?_,
    fun taking full crowded requesting held mine other => ?_⟩
  · rwa [same]
  · rwa [same]
  · obtain ⟨is, capture⟩ := inside taking short
    refine ⟨same.trans is, fun other => ?_⟩
    obtain ⟨f, counts⟩ := alone other
    rw [counts, capture_editSide, capture other]
  · obtain ⟨busy, ready⟩ := band taking full room
    refine ⟨fun is => same.trans (busy is), fun other => ?_⟩
    obtain ⟨f, counts⟩ := alone other
    rw [counts]
    exact bandReady_editSide_back f (ready other)
  · obtain ⟨state, empty, buffer, inputs, queue, lost⟩ := granted taking full crowded transferring
    rw [same]
    exact ⟨state, empty, buffer, inputs, queue, losses_of_served served lost⟩
  · obtain ⟨is, capture, lost⟩ := requested taking full crowded requesting held mine other
    obtain ⟨f, counts⟩ := alone other
    refine ⟨same.trans is, ?_, losses_of_served served lost⟩
    rw [counts, capture_editSide, capture]

section Both

variable {s w : State} (side : ∀ d, w.side d = s.side d) (channel : ChannelAt s w)

include side channel

theorem linesTaken (front back : ScanLine) :
    let t := (w.handOver .front (State.takeLine .front front)).handOver .back (State.takeLine .back back)
    LineTaken s t .front .back front ∧ LineTaken s t .back .front back := by
  have served : Served .front w (w.handOver .front (State.takeLine .front front)) :=
    served_handOver .front (served_takeLine .front front) w
  have atFront : PulseAt s w .front := ⟨side .front, .inl (capture_of_images channel.images _)⟩
  have sideBack := (served.side .back (by decide)).trans (side .back)
  have atBack : PulseAt s (w.handOver .front (State.takeLine .front front)) .back := by
    refine ⟨sideBack, ?_⟩
    rw [← capture_of_images channel.images]
    exact served.capture .back (by decide)
  refine ⟨lineTaken_front back (lineTaken_handOver atFront fun _ => channel) sideBack,
    lineTaken_handOver atBack fun other => ?_⟩
  obtain ⟨n, counts⟩ := handOver_takeLine_of_not_taking (s := w) front (by rwa [side])
  rw [counts]
  exact ⟨channel.record, channel.images, channel.acts, channel.chains⟩

end Both

/-! ## The pulse -/

theorem view_zonedBy (a b : Option Word) (v : Ticket) : (zonedBy a b v).ordinal = v.ordinal ∧
    ∀ d, chainOf d (zonedBy a b v) = chainOf d v := ⟨rfl, fun d => by cases d <;> rfl⟩

theorem channelAt_pulsed (zones : ZoneLevels) (left : PaperLeft) (s : State) :
    (∀ d, (pulsed (counted zones left s.begin)).side d = s.side d) ∧ ChannelAt s (pulsed (counted zones left s.begin)) := by
  rw [counted_frame]
  refine ⟨fun d => by cases d <;> rfl, rfl, rfl, rfl, fun d => ?_⟩
  refine (List.map_map ..).trans (List.map_congr_left fun v _ => ?_)
  cases d <;> rfl

/-- What the lines of the sides keep of a pulse. -/
theorem rest_pulse (w : State) (front back : ScanLine) :
    let t := (w.handOver .front (State.takeLine .front front)).handOver .back (State.takeLine .back back)
    t.tracker = { w.tracker with train := t.tracker.train } ∧ t.lines = w.lines ∧ t.batch = w.batch ∧
      ∀ {α : Type} (view : Ticket → α), (∀ v u, TicketServed v u → view u = view v) →
        t.tracker.train.map view = w.tracker.train.map view := by
  have first : Served .front w (w.handOver .front (State.takeLine .front front)) :=
    served_handOver .front (served_takeLine .front front) w
  have second : Served .back (w.handOver .front (State.takeLine .front front)) _ :=
    served_handOver .back (served_takeLine .back back) _
  refine ⟨?_, ?_, ?_, fun view keeps => ?_⟩
  · rw [second.rest, first.rest]
  · rw [second.rest, first.rest]
  · rw [second.rest, first.rest]
  · obtain ⟨f, one, keptOne⟩ := first.train
    obtain ⟨g, two, keptTwo⟩ := second.train
    rw [two, one, List.map_map, List.map_map]
    exact List.map_congr_left fun v _ => (keeps _ _ (keptTwo _)).trans (keeps _ _ (keptOne v))

theorem still_pulse {w : State} (still : ∀ d, (w.side d).state = .idle ∨ (w.side d).state = .flushing)
    (front back : ScanLine) :
    (w.handOver .front (State.takeLine .front front)).handOver .back (State.takeLine .back back) = w := by
  have none (d : Side) (input : ScanLine) : w.handOver d (State.takeLine d input) = w := by
    have work := takeLine_of_still input (still d)
    rw [handOver_same (by rw [work]), work]
  rw [none, none]

theorem pins_of_lines {s t : State} {x y : Drive} {a b : Bool}
    (lines : t.lines = (s.begin.sampleBoard ⟨x, y⟩ ⟨a, b⟩).lines) :
    t.lines = { s.lines with board := t.lines.board } ∧
    t.lines.board[(3 : LineIx)] = x ∧ t.lines.board[(4 : LineIx)] = y ∧
    t.lines.board[(1 : LineIx)] = (if a then levelFor s 1 false else s.lines.board[(1 : LineIx)]) ∧
    t.lines.board[(2 : LineIx)] = (if b then levelFor s 2 false else s.lines.board[(2 : LineIx)]) ∧
    ∀ k : LineIx, k = 0 ∨ 4 < k.val → t.lines.board[k] = s.lines.board[k] := by
  rw [lines]
  exact ⟨congrArg State.lines (sampleBoard_frame ⟨x, y⟩ ⟨a, b⟩ s.begin), sampled_three x y a b s.begin,
    sampled_four x y a b s.begin, sampled_one x y a b s.begin, sampled_two x y a b s.begin,
    fun k rest => sampled_rest x y a b s.begin rest⟩

theorem counted_of_begin (zones : ZoneLevels) (left : PaperLeft) (s : State) :
    (counted zones left s.begin).tracker = { s.tracker with travel := s.tracker.travel + 1 } ∧
    (counted zones left s.begin).batch = s.batch ∧
    (counted zones left s.begin).lines = (s.begin.sampleBoard zones left).lines ∧
    Unchanged [.tracker, .lines] s (counted zones left s.begin) := by
  rw [counted_frame]
  exact ⟨rfl, rfl, by rw [sampleBoard_frame], by simp [Unchanged, State.begin]⟩

section Zones

variable {s : State} {x y : Drive} {left : PaperLeft} {doubleFeed mark : Option Word}
  (double : Zoned s 3 x s.tracker.profile[1] doubleFeed) (separator : Zoned s 4 y s.tracker.profile[2] mark)

include double separator

/-- The flags of a pulse are those of the tickets over the detectors. -/
theorem pulsed_of_zoned : (pulsed (counted ⟨x, y⟩ left s.begin)).tracker = { s.tracker with
    travel := s.tracker.travel + 1
    stallTimer := some 50
    train := s.tracker.train.map (zonedBy doubleFeed mark) } := by
  obtain ⟨tracker, -, lines, -⟩ := counted_of_begin ⟨x, y⟩ left s
  have settings : (counted ⟨x, y⟩ left s.begin).lines.settings = s.lines.settings := by
    rw [lines, sampleBoard_frame]
    rfl
  have draws : (counted ⟨x, y⟩ left s.begin).draws = s.draws + 1 := by
    rw [counted_frame]
    rfl
  have three : (counted ⟨x, y⟩ left s.begin).lines.board[(3 : LineIx)] = x := by
    rw [lines]
    exact sampled_three x y left.a left.b s.begin
  have four : (counted ⟨x, y⟩ left s.begin).lines.board[(4 : LineIx)] = y := by
    rw [lines]
    exact sampled_four x y left.a left.b s.begin
  have travel : (counted ⟨x, y⟩ left s.begin).tracker.travel = s.tracker.travel + 1 := by rw [tracker]
  have train : (counted ⟨x, y⟩ left s.begin).tracker.train = s.tracker.train := by rw [tracker]
  have profile : (counted ⟨x, y⟩ left s.begin).tracker.profile = s.tracker.profile := by rw [tracker]
  rw [← three] at double
  rw [← four] at separator
  have first : doubleFeedOf (counted ⟨x, y⟩ left s.begin) = doubleFeed := by
    rw [doubleFeedOf, profile]
    exact flagged_of_zoned double travel train (seen_iff (by decide) settings draws)
  have second : separatorOf (counted ⟨x, y⟩ left s.begin) = mark := by
    rw [separatorOf, profile]
    exact flagged_of_zoned separator travel train (seen_iff (by decide) settings draws)
  rw [pulsed, first, second, tracker]

end Zones

/-- Settles O52: the pins, the zones, and then the lines of the two sides, the front before the back. -/
theorem travelPulseCounts : Obligations.TravelPulseCounts := by
  unfold Obligations.TravelPulseCounts
  intro s x y leftA leftB front back i
  have run : exec i s = complete (State.travelPulse ⟨x, y⟩ ⟨leftA, leftB⟩ front back) s :=
    exec_travelPulse _ _ _ _ s
  obtain ⟨sides, channel⟩ := channelAt_pulsed ⟨x, y⟩ ⟨leftA, leftB⟩ s
  refine ⟨after_of_complete run ?_, fun acts doubleFeed mark double separator => ?_, fun acts =>
    after_of_complete run ?_⟩
  · obtain ⟨tracker, batch, lines, unchanged⟩ := counted_of_begin ⟨x, y⟩ ⟨leftA, leftB⟩ s
    by_cases acts : s.acts = true
    · rw [travelPulse_of_acts (s := s.begin) _ _ _ _ acts]
      obtain ⟨trackers, liness, batches, -⟩ := rest_pulse (pulsed (counted ⟨x, y⟩ ⟨leftA, leftB⟩ s.begin)) front back
      obtain ⟨same, three, four, one, two, rest⟩ := pins_of_lines (liness.trans lines)
      refine ⟨?_, same, three, four, one, two, rest, fun still => ?_, fun _ => ⟨?_, batches.trans batch⟩⟩
      · rw [trackers]
        exact congrArg Tracker.travel tracker
      · rw [acts] at still
        cases still
      · rw [trackers]
        rfl
    · have still : s.acts = false := (Bool.not_eq_true _).mp acts
      rw [travelPulse_of_not_acts (s := s.begin) _ _ _ _ still]
      obtain ⟨same, three, four, one, two, rest⟩ := pins_of_lines lines
      exact ⟨congrArg Tracker.travel tracker, same, three, four, one, two, rest, fun _ => ⟨tracker, unchanged⟩,
        fun is => absurd is acts⟩
  · intro zoned view
    refine after_of_complete run ?_
    have tracker := pulsed_of_zoned (left := ⟨leftA, leftB⟩) double separator
    obtain ⟨-, -, -, unchanged⟩ := counted_of_begin ⟨x, y⟩ ⟨leftA, leftB⟩ s
    rw [travelPulse_of_acts (s := s.begin) _ _ _ _ acts]
    refine ⟨?_, fun still => ?_⟩
    · obtain ⟨-, -, -, views⟩ := rest_pulse (pulsed (counted ⟨x, y⟩ ⟨leftA, leftB⟩ s.begin)) front back
      rw [views view fun v u kept => by rw [kept.rest], tracker]
      rfl
    · rw [still_pulse (fun d => by rw [sides]; exact still d)]
      refine ⟨tracker, unchanged_trans unchanged ?_⟩
      simp [Unchanged, pulsed]
  · rw [travelPulse_of_acts (s := s.begin) _ _ _ _ acts]
    exact linesTaken sides channel front back

end Sys2Proof.Proofs

/-! PROOFS. The line requests (R178 to R183). -/

namespace Sys2Proof.Proofs

open Sys2Proof.Machine Sys2Proof.Safety Sys2Proof.Claims Sys2Proof.Laws Sys2Proof.Laws.Batches
  Sys2Proof.Laws.Lines

/-! ## Function values, pin levels and parking (R178, R180, R181) -/

theorem gateOn_iff (s : State) (k : TrayIx) : s.gateOn k = true ↔ GateOn s k := by
  constructor
  · intro on
    cases holder : (s.gateHolders k).head? with
    | none =>
      rw [State.gateOn, holder] at on
      cases on
    | some h =>
      rw [State.gateHolders, List.head?_filter] at holder
      obtain ⟨held, before, after, train, free⟩ := List.find?_eq_some_iff_append.mp holder
      have free' : ∀ v ∈ before, v.gates[k] ≠ .heldOn ∧ v.gates[k] ≠ .heldOff := fun v mem =>
        (not_held_iff _).mp (by simpa using free v mem)
      rw [gateOn_of_oldest train ((held_iff _).mp held) free', decide_eq_true_iff] at on
      exact ⟨before, h, after, train, on, free'⟩
  · rintro ⟨before, h, after, train, on, free⟩
    rw [gateOn_of_oldest train (.inl on) free, decide_eq_true on]

theorem motorOn_iff (s : State) : s.motorOn = true ↔
    s.batch.state = .running ∨ s.batch.state = .feedHold ∨ s.batch.state = .draining := by
  rw [State.motorOn]
  cases s.batch.state <;> simp

theorem functionValues (s : State) : FunctionValues s :=
  ⟨decide_eq_true_iff, motorOn_iff s, gateOn_iff s 0, gateOn_iff s 1, gateOn_iff s 2, gateOn_iff s 3, rfl, rfl, rfl,
    rfl⟩

theorem parked_iff (s : State) (l : LineIx) : s.parked l = true ↔ Parked s l := by
  rw [State.parked, Parked, Bool.and_eq_true_iff, Bool.and_eq_true_iff, Bool.and_eq_true_iff, decide_eq_true_iff,
    decide_eq_true_iff, and_assoc, and_assoc]
  refine and_congr_right fun _ => and_congr_right fun _ => and_congr_right fun _ => ?_
  cases s.batch.state <;> simp

theorem outputFunction_iff (l : LineIx) : outputFunction l = true ↔ 12 ≤ l.val ∧ l.val ≤ 21 := by
  rw [outputFunction, Bool.and_eq_true_iff, decide_eq_true_iff, decide_eq_true_iff]

section Given

variable {s : State} {l : LineIx} (out : s.lines.settings[l].output = true) (given : outputFunction l = true)
  (enabled : s.lines.settings[l].enabled = true)

include out given enabled

theorem pinLevel_of_given : s.pinLevel l = if s.parked l then !s.lines.settings[l].activeHigh
    else if s.functionValue l then s.lines.settings[l].activeHigh else !s.lines.settings[l].activeHigh :=
  (if_pos out).trans (if_pos (by rw [given, enabled]; rfl))

end Given

theorem pinLevels (s : State) (l : LineIx) : PinLevels s l := by
  refine ⟨pinLevel_of_high, pinLevel_of_low, pinLevel_of_pull, fun out latched => ?_, fun out given enabled moves => ?_,
    fun out parked => ?_⟩
  · refine pinLevel_of_latch out ?_
    rw [← Bool.not_eq_true, Bool.and_eq_true_iff, outputFunction_iff]
    rintro ⟨given, enabled⟩
    rcases latched with other | disabled
    · exact other given
    · rw [enabled] at disabled
      cases disabled
  · rw [pinLevel_of_given out ((outputFunction_iff l).mpr given) enabled]
    exact if_neg fun is => moves ((parked_iff s l).mp is)
  · obtain ⟨above, below, enabled, -⟩ := id parked
    rw [pinLevel_of_given out ((outputFunction_iff l).mpr ⟨above, by omega⟩) enabled]
    exact if_pos ((parked_iff s l).mpr parked)

/-! ## READ LINES (R183, R193) -/

/-- A number by its bits, the first the lowest. -/
def sumBits (f : Nat → Bool) (n : Nat) : Nat := ((List.range n).map fun i => if f i then 2 ^ i else 0).sum

theorem sumBits_succ (f : Nat → Bool) (n : Nat) : sumBits f (n + 1) = sumBits f n + if f n then 2 ^ n else 0 := by
  rw [sumBits, List.range_succ, List.map_append, List.sum_append]
  simp [sumBits]

theorem sumBits_lt (f : Nat → Bool) (n : Nat) : sumBits f n < 2 ^ n := by
  induction n with
  | zero => exact Nat.one_pos
  | succ n ih =>
    rw [sumBits_succ, pow_succ]
    split <;> omega

theorem testBit_sumBits (f : Nat → Bool) {n i : Nat} (inside : i < n) : (sumBits f n).testBit i = f i := by
  induction n with
  | zero => exact absurd inside (Nat.not_lt_zero i)
  | succ n ih =>
    rw [sumBits_succ, Nat.add_comm]
    rcases Nat.lt_succ_iff_lt_or_eq.mp inside with below | rfl
    · cases f n
      · rw [if_neg Bool.false_ne_true, Nat.zero_add, ih below]
      · rw [if_pos rfl, Nat.testBit_two_pow_add_gt below, ih below]
    · cases h : f i
      · rw [if_neg Bool.false_ne_true, Nat.zero_add, Nat.testBit_lt_two_pow (sumBits_lt f i)]
      · rw [if_pos rfl, Nat.testBit_two_pow_add_eq, Nat.testBit_lt_two_pow (sumBits_lt f i)]
        rfl

/-- The value of a line by its number. -/
def valueAt (value : LineIx → Bool) (n : Nat) : Bool := if h : n < 24 then value ⟨n, h⟩ else false

theorem lineWords_eq (value : LineIx → Bool) : lineWords value =
    [word (sumBits (valueAt value) 16), word (sumBits (fun i => valueAt value (16 + i)) 8)] := rfl

theorem getLsbD_word (n : Nat) {i : Nat} (inside : i < 16) : (word n).getLsbD i = n.testBit i := by
  rw [word, BitVec.getLsbD_ofNat, decide_eq_true inside, Bool.true_and]

theorem valueAt_val (value : LineIx → Bool) (l : LineIx) : valueAt value l.val = value l := dif_pos l.isLt

theorem lineWords_bit (value : LineIx → Bool) (l : LineIx) :
    ((lineWords value)[l.val / 16]?).map (fun w => w.getLsbD (l.val % 16)) = some (value l) := by
  have small : l.val < 24 := l.isLt
  rw [lineWords_eq, ← valueAt_val value l]
  by_cases low : l.val < 16
  · rw [Nat.div_eq_of_lt low, Nat.mod_eq_of_lt low]
    exact congrArg some ((getLsbD_word _ low).trans (testBit_sumBits _ low))
  · have div : l.val / 16 = 1 := by omega
    have mod : l.val % 16 = l.val - 16 := by omega
    rw [div, mod]
    refine congrArg some ((getLsbD_word _ (by omega)).trans ((testBit_sumBits _ (by omega)).trans ?_))
    exact congrArg (valueAt value) (by omega)

theorem lineWords_length (value : LineIx → Bool) : (lineWords value).length = 2 := rfl

/-- The eight sets of READ LINES. -/
def lineSets (s : State) : List (LineIx → Bool) :=
  [s.pinLevel, fun l => s.lines.settings[l].output, fun l => s.lines.settings[l].latch,
    fun l => s.lines.settings[l].pull, fun l => s.lines.settings[l].activeHigh,
    fun l => s.lines.settings[l].enabled, s.functionLevel, s.parked]

theorem exec_readLines (tag : Tag) (s : State) :
    exec (.readLines tag) s = request (largestReply 0x71) tag ownerReadLines s := rfl

theorem ownerReadLines_eq (s : State) : ownerReadLines s = (s, okWith ((lineSets s).flatMap lineWords)) := rfl

theorem flatMap_lineWords_bit (sets : List (LineIx → Bool)) {n : Nat} {value : LineIx → Bool}
    (is : sets[n]? = some value) (l : LineIx) :
    ((sets.flatMap lineWords)[n * 2 + l.val / 16]?).map (fun w => w.getLsbD (l.val % 16)) = some (value l) := by
  have small : l.val / 16 < 2 := by
    have := l.isLt
    omega
  induction sets generalizing n with
  | nil => cases is
  | cons set rest ih =>
    rw [List.flatMap_cons]
    cases n with
    | zero =>
      cases is
      rw [Nat.zero_mul, Nat.zero_add, List.getElem?_append_left (by rwa [lineWords_length]), lineWords_bit]
    | succ n =>
      rw [List.getElem?_append_right (by rw [lineWords_length]; omega), lineWords_length,
        show (n + 1) * 2 + l.val / 16 - 2 = n * 2 + l.val / 16 by omega]
      exact ih is

theorem functionLevel_eq (s : State) (l : LineIx) : s.functionLevel l =
    if 12 ≤ l.val ∧ l.val ≤ 21 then s.functionValue l else s.seen l := by
  rw [State.functionLevel]
  exact if_congr (outputFunction_iff l) rfl rfl

theorem linesRead {s : State} {tag : Tag} (takes : Takes 17 s) : After (.readLines tag) s fun t =>
    Unchanged [.port] s t ∧ ∃ words : List Word, words.length = 16 ∧ Answers s t 0 tag words ∧
      ∀ l : LineIx,
        let shown (set : Nat) : Option Bool := (words[set * 2 + l.val / 16]?).map fun w =>
          w.getLsbD (l.val % 16)
        shown 0 = some (t.pinLevel l) ∧ shown 1 = some s.lines.settings[l].output ∧
        shown 2 = some s.lines.settings[l].latch ∧ shown 3 = some s.lines.settings[l].pull ∧
        shown 4 = some s.lines.settings[l].activeHigh ∧
        shown 5 = some s.lines.settings[l].enabled ∧
        shown 6 = some (if 12 ≤ l.val ∧ l.val ≤ 21 then s.functionValue l else t.seen l) ∧
        shown 7 = some (s.parked l) := by
  refine after_of_owner (exec_readLines tag s) takes (ownerReadLines_eq s.begin) ⟨by simp [Unchanged], _, ?_,
    answers_of_port (begin_port s) tag _, fun l => ?_⟩
  · rfl
  · have bit_ (n : Nat) (value : LineIx → Bool) (is : (lineSets s.begin)[n]? = some value) :=
      flatMap_lineWords_bit (lineSets s.begin) is l
    refine ⟨bit_ 0 _ rfl, bit_ 1 _ rfl, bit_ 2 _ rfl, bit_ 3 _ rfl, bit_ 4 _ rfl, bit_ 5 _ rfl, ?_, bit_ 7 _ rfl⟩
    refine (bit_ 6 _ rfl).trans (congrArg some ?_)
    rw [functionLevel_eq]
    rfl

end Sys2Proof.Proofs

/-! PROOFS. SET LINE, and the edges it makes (R179, R182). -/

namespace Sys2Proof.Proofs

open Sys2Proof.Machine Sys2Proof.Safety Sys2Proof.Claims Sys2Proof.Laws Sys2Proof.Laws.Batches
  Sys2Proof.Laws.Lines

/-! ## The arguments -/

theorem exec_setLine (tag : Tag) (line direction latch pull active enable : Word) (s : State) :
    exec (.setLine tag line direction latch pull active enable) s =
      request (largestReply 0x70) tag (ownerSetLine line direction latch pull active enable) s := rfl

theorem lineOf_of_above {line : Word} (above : 23 < line.toNat) : lineOf line = none := dif_neg (by omega)

theorem lineOf_of_val {line : Word} {l : LineIx} (is : line.toNat = l.val) : lineOf line = some l :=
  (dif_pos (is ▸ l.isLt)).trans (congrArg some (Fin.ext is))

theorem settingOf_of_bits {direction latch pull active enable : Word} (good : direction.toNat ≤ 1 ∧ latch.toNat ≤ 1 ∧
    pull.toNat ≤ 1 ∧ active.toNat ≤ 1 ∧ enable.toNat ≤ 1) : settingOf direction latch pull active enable =
      some ⟨decide (direction = 1), decide (latch = 1), decide (pull = 1), decide (active = 1),
        decide (enable = 1)⟩ := by
  obtain ⟨directed, latched, pulled, activated, enabled⟩ := good
  rw [settingOf, flagOf_of_bit directed, flagOf_of_bit latched, flagOf_of_bit pulled, flagOf_of_bit activated,
    flagOf_of_bit enabled]

theorem flagOf_none_or (n : Word) : flagOf n = none ∨ n.toNat ≤ 1 := by
  by_cases isBit : n.toNat ≤ 1
  · exact .inr isBit
  · exact .inl (flagOf_of_above (Nat.not_le.mp isBit))

theorem settingOf_of_not_bits {direction latch pull active enable : Word} (bad : ¬ (direction.toNat ≤ 1 ∧
    latch.toNat ≤ 1 ∧ pull.toNat ≤ 1 ∧ active.toNat ≤ 1 ∧ enable.toNat ≤ 1)) :
    settingOf direction latch pull active enable = none := by
  cases some_ : settingOf direction latch pull active enable with
  | none => rfl
  | some c =>
    refine absurd ?_ bad
    rw [settingOf] at some_
    split at some_
    · next directed latched pulled activated enabled =>
      have isBit {n : Word} {b : Bool} (flag : flagOf n = some b) : n.toNat ≤ 1 :=
        (flagOf_none_or n).resolve_left (by rw [flag]; exact Option.some_ne_none b)
      exact ⟨isBit directed, isBit latched, isBit pulled, isBit activated, isBit enabled⟩
    · cases some_

theorem changes_iff (c d : LineSetting) : c.changes d = true ↔ d ≠ { c with latch := d.latch } := by
  obtain ⟨o, l, p, a, e⟩ := c
  obtain ⟨o', l', p', a', e'⟩ := d
  simp only [LineSetting.changes, Bool.or_eq_true_iff, decide_eq_true_iff, ne_eq, LineSetting.mk.injEq, true_and]
  rw [eq_comm (a := o), eq_comm (a := p), eq_comm (a := a), eq_comm (a := e)]
  tauto

/-! ## The setting written -/

/-- The state with a line's settings. -/
def lineSet (l : LineIx) (c : LineSetting) (s : State) : State :=
  { s with lines.settings := s.lines.settings.set l.val c l.isLt }

section Write

variable {s : State} {l : LineIx} {c : LineSetting}

theorem writeLine_of_quiet (quiet : outputFunction l = true ∨ (lineSet l c s).seen l = s.seen l) :
    s.writeLine l c = lineSet l c s := by
  refine if_neg ?_
  rcases quiet with given | same
  · rw [given]
    exact Bool.false_ne_true
  · rw [show (State.seen { s with lines.settings := s.lines.settings.set l.val c l.isLt } l) = (lineSet l c s).seen l from rfl,
      same]
    simp

theorem writeLine_of_edge (input : outputFunction l = false) (changes : (lineSet l c s).seen l ≠ s.seen l) :
    s.writeLine l c = (lineSet l c s).edge l ((lineSet l c s).seen l) :=
  if_pos (by rw [input, Bool.not_false, Bool.true_and]; exact decide_eq_true changes)

theorem writeLine_cases (l : LineIx) (c : LineSetting) (s : State) :
    s.writeLine l c = lineSet l c s ∨ ∃ asserted, s.writeLine l c = (lineSet l c s).edge l asserted := by
  by_cases quiet : outputFunction l = true ∨ (lineSet l c s).seen l = s.seen l
  · exact .inl (writeLine_of_quiet quiet)
  · obtain ⟨input, changes⟩ := not_or.mp quiet
    exact .inr ⟨_, writeLine_of_edge ((Bool.not_eq_true _).mp input) changes⟩

theorem writeLine_leaves (l : LineIx) (c : LineSetting) (s : State) :
    (s.writeLine l c).lines = (lineSet l c s).lines ∧ (s.writeLine l c).port.replies = s.port.replies := by
  rcases writeLine_cases l c s with is | ⟨asserted, is⟩
  · rw [is]
    exact ⟨rfl, rfl⟩
  · rw [is]
    exact edge_leaves (lineSet l c s) l asserted

theorem writeLine_of_still (still : s.acts = false ∨ outputFunction l = true) : s.writeLine l c = lineSet l c s := by
  rcases still with stops | given
  · rcases writeLine_cases l c s with is | ⟨asserted, is⟩
    · exact is
    · rw [is]
      exact edge_of_not_acts (s := lineSet l c s) stops l asserted
  · exact writeLine_of_quiet (.inl given)

end Write

section SetLine

variable {direction latch pull active enable : Word} {line : Word} {s : State}

theorem ownerSetLine_of_bad (bad : 23 < line.toNat ∨ ¬ (direction.toNat ≤ 1 ∧ latch.toNat ≤ 1 ∧ pull.toNat ≤ 1 ∧
    active.toNat ≤ 1 ∧ enable.toNat ≤ 1)) :
    ownerSetLine line direction latch pull active enable s = refused .badArgument s := by
  rw [ownerSetLine]
  rcases bad with above | notBits
  · rw [lineOf_of_above above]
  · rw [settingOf_of_not_bits notBits]
    cases lineOf line <;> rfl

variable {l : LineIx} {c : LineSetting} (is : lineOf line = some l)
  (set : settingOf direction latch pull active enable = some c)

include is set

theorem ownerSetLine_of_state (out : s.batch.state ≠ .idle) (below : l.val ≤ 17)
    (changes : c ≠ { s.lines.settings[l] with latch := c.latch }) :
    ownerSetLine line direction latch pull active enable s = refused .state s := by
  rw [ownerSetLine, is, set]
  exact if_pos ⟨out, below, (changes_iff _ _).mpr changes⟩

theorem ownerSetLine_of_good
    (good : s.batch.state = .idle ∨ 17 < l.val ∨ c = { s.lines.settings[l] with latch := c.latch }) :
    ownerSetLine line direction latch pull active enable s = (s.writeLine l c,
      okWith [pack (s.lines.settings[l].fields ++ [(1, bit ((s.writeLine l c).pinLevel l))])]) := by
  rw [ownerSetLine, is, set]
  refine if_neg ?_
  rintro ⟨out, below, changes⟩
  rcases good with idle | above | same
  · exact out idle
  · omega
  · exact (changes_iff _ _).mp changes same

end SetLine

/-- A setting with which an L0 is seen. -/
theorem seen_of_latch {s : State} {l : LineIx} {c : LineSetting} (is : s.lines.settings[l] = c)
    (input : outputFunction l = false) (enabled : c.enabled = true) (out : c.output = true)
    (asserts : c.latch = c.activeHigh) : s.seen l = true := by
  rw [State.seen, pinLevel_of_latch (by rw [is, out]) (by rw [input]; rfl), is, enabled, asserts]
  simp

theorem settings_lineSet_self (l : LineIx) (c : LineSetting) (s : State) :
    (lineSet l c s).lines.settings[l] = c := Vector.getElem_set_self l.isLt

theorem settings_lineSet_ne {l k : LineIx} (other : k ≠ l) (c : LineSetting) (s : State) :
    (lineSet l c s).lines.settings[k] = s.lines.settings[k] :=
  Vector.getElem_set_ne l.isLt k.isLt fun same => other (Fin.ext same.symm)

theorem writeLine_entry {s : State} {c : LineSetting} (acts : s.acts = true) (room : s.tracker.train.length < 6)
    (unseen : s.seen 0 = false) (enabled : c.enabled = true) (out : c.output = true)
    (asserts : c.latch = c.activeHigh) : s.writeLine 0 c = State.sheetEntered
      { lineSet 0 c s with
        tracker.train := s.tracker.train ++ [.enter s.tracker.nextOrdinal s.tracker.travel]
        tracker.nextOrdinal := ordinalAfter s.tracker.nextOrdinal } := by
  have seen : (lineSet 0 c s).seen 0 = true :=
    seen_of_latch (settings_lineSet_self 0 c s) (by decide) enabled out asserts
  rw [writeLine_of_edge (by decide) (by rw [seen, unseen]; decide), seen]
  exact entryLeading_of_room (s := lineSet 0 c s) acts room

/-! ## An edge by a setting, and the same edge at the pin -/

theorem edgeAt_input {l : LineIx} {asserted : Bool} {edge : Instr} (is : edgeAt l asserted = some edge) :
    outputFunction l = false := by
  have inputs : ∀ (l : LineIx) (asserted : Bool), (edgeAt l asserted).isSome → outputFunction l = false := by decide
  exact inputs l asserted (by rw [is]; rfl)

/-- The event of an edge has the board move the pin. -/
theorem exec_edgeAt {l : LineIx} {asserted : Bool} {edge : Instr} (is : edgeAt l asserted = some edge) (s : State) :
    exec edge s = complete (State.boardEdge l asserted) s := by
  fin_cases l <;> cases asserted <;> cases is <;> rfl

theorem wired_sensing (s : State) (l : LineIx) : Wired (sensing s l) l := by
  have set : (sensing s l).lines.settings[l] = { s.lines.settings[l] with output := false, enabled := true } :=
    Vector.getElem_set_self l.isLt
  rw [Wired, set]
  exact ⟨rfl, rfl⟩

/-- The edge that a setting makes, and the same edge at the pin of a line that sees it. -/
theorem edge_same (s : State) (l : LineIx) (c : LineSetting) (asserted : Bool) :
    (lineSet l c s.begin).edge l asserted =
      relined (lineSet l c s.begin).lines s.port.replies (((sensing s l).begin.movePin l asserted).edge l asserted) := by
  have setting := edge_relined (lineSet l c s.begin).lines s.port.replies s.begin l asserted
  have pin := edge_relined ((sensing s l).begin.movePin l asserted).lines s.port.replies s.begin l asserted
  rw [show (sensing s l).begin.movePin l asserted =
    relined ((sensing s l).begin.movePin l asserted).lines s.port.replies s.begin from rfl, pin]
  exact setting

/-- Settles O51: the setting is written first, and the edge it makes neither reads nor writes the lines. -/
theorem lineRequests : Obligations.LineRequests := by
  unfold Obligations.LineRequests
  refine ⟨fun s tag line direction latch pull active enable takes => ?_, fun s tag takes => linesRead takes,
    fun s => ⟨functionValues s, fun l => ⟨pinLevels s l, parked_iff s l⟩⟩,
    fun s tag line direction latch pull active enable l asserted edge takes is directed latched pulled activated
      enabled edges => ?_⟩
  · intro i good
    have run : exec i s = request (largestReply 0x70) tag (ownerSetLine line direction latch pull active enable) s :=
      exec_setLine ..
    refine ⟨fun bad => reads_of_refused .badArgument run takes (ownerSetLine_of_bad bad), fun l is bits => ?_⟩
    intro old new
    have set := settingOf_of_bits bits
    refine ⟨fun out below changes => reads_of_refused .state run takes
      (ownerSetLine_of_state (s := s.begin) (lineOf_of_val is) set out below changes), fun good => ?_⟩
    refine after_of_owner run takes (ownerSetLine_of_good (s := s.begin) (lineOf_of_val is) set good) ?_
    obtain ⟨lines, replies⟩ := writeLine_leaves l new s.begin
    have settings : (s.begin.writeLine l new).lines.settings = (lineSet l new s.begin).lines.settings := by rw [lines]
    refine ⟨?_, fun k other => ?_, ?_, replies_answer (s := s) replies tag _, fun still => ?_, fun zero acts room unseen
      enabled out asserts => ?_⟩
    · refine Eq.trans ?_ (settings_lineSet_self l new s.begin)
      exact congrArg (fun x : Vector LineSetting 24 => x[l]) settings
    · refine Eq.trans ?_ (settings_lineSet_ne other new s.begin)
      exact congrArg (fun x : Vector LineSetting 24 => x[k]) settings
    · exact (congrArg Lines.board lines :)
    · have same : s.begin.writeLine l new = lineSet l new s.begin :=
        writeLine_of_still (s := s.begin) (still.imp id (outputFunction_iff l).mpr)
      rw [same]
      exact ⟨rfl, by simp [Unchanged, lineSet]⟩
    · subst zero
      rw [writeLine_entry (s := s.begin) acts room unseen enabled out asserts]
      exact ⟨rfl, rfl, rfl⟩
  · intro new written good before after
    have input := edgeAt_input edges
    have set := settingOf_of_bits ⟨directed, latched, pulled, activated, enabled⟩
    have good' : s.begin.batch.state = .idle ∨ 17 < l.val ∨
        new = { s.begin.lines.settings[l] with latch := new.latch } := good.imp id .inr
    have run := exec_setLine tag line direction latch pull active enable s
    have seen : (lineSet l new s.begin).seen l = asserted := by
      have is := seen_iff (s := written) (w := lineSet l new s.begin) input rfl rfl
      exact Bool.eq_iff_iff.mpr (is.trans after)
    have unseen : s.begin.seen l = !asserted := by
      have is := seen_iff (s := s) (w := s.begin) input rfl rfl
      rw [Bool.eq_iff_iff, Bool.not_eq_true']
      exact is.trans before
    have wrote : s.begin.writeLine l new = (lineSet l new s.begin).edge l asserted := by
      rw [writeLine_of_edge input (by rw [seen, unseen]; cases asserted <;> decide), seen]
    refine after_of_owner run takes (ownerSetLine_of_good (s := s.begin) (lineOf_of_val is) set good') ?_
    refine after_of_wired (exec_edgeAt edges (sensing s l)) (wired_sensing s l) ?_
    rw [wrote, edge_same]
    exact ⟨rfl, rfl, by simp [Unchanged, relined]⟩

end Sys2Proof.Proofs

/-! PROOFS. Slots rewritten, and a record that leaves its matter (R5, R7). -/

namespace Sys2Proof.Proofs

open Sys2Proof.Machine Sys2Proof.Safety Sys2Proof.Claims Sys2Proof.Laws Sys2Proof.Laws.Rebuild

/-! ## Slots rewritten (R5) -/

/-- A state of which some slots have been rewritten, and nothing else. -/
structure SlotsOnly (s t : State) (slots : List Nat) : Prop where
  frame : t = { s with record := t.record, journal := t.journal }
  places : ∀ p, t.placeEntry p = s.placeEntry p
  links : ∀ q, t.link q = s.link q
  canonical : Canonical s → Canonical t
  kept : RecordKept s t slots [] []

theorem SlotsOnly.rfl {s : State} : SlotsOnly s s [] := ⟨Eq.refl _, fun _ => Eq.refl _, fun _ => Eq.refl _, id, RecordKept.rfl⟩

theorem SlotsOnly.trans {s t u : State} {a b : List Nat} (h : SlotsOnly s t a) (k : SlotsOnly t u b) :
    SlotsOnly s u (a ++ b) := by
  refine ⟨?_, fun p => (k.places p).trans (h.places p), fun q => (k.links q).trans (h.links q),
    k.canonical ∘ h.canonical, RecordKept.trans h.kept k.kept⟩
  rw [k.frame, h.frame]

theorem SlotsOnly.mono {s t : State} {a b : List Nat} (h : SlotsOnly s t a) (sub : a ⊆ b) : SlotsOnly s t b :=
  ⟨h.frame, h.places, h.links, h.canonical, RecordKept.mono h.kept sub (List.Subset.refl _) (List.Subset.refl _)⟩

theorem slotsOnly_putSlot (n : Nat) (r : Record) (s : State) : SlotsOnly s (s.putSlot n r) [n] :=
  ⟨rfl, fun p => placeEntry_putSlot s n p r, fun q => link_putSlot s n q r, (quiet_putSlot n r s).canonical,
    kept_putSlot n r s⟩

theorem slotsOnly_unlinkSlot (prev : Option Nat) (r : Record) (s : State) :
    SlotsOnly s (s.unlinkSlot prev r) prev.toList := by
  cases prev with
  | none => exact .rfl
  | some p => exact slotsOnly_putSlot p _ s

theorem slotsOnly_linkSlot (n : Nat) (m : Matter) (s : State) : SlotsOnly s (s.linkSlot n m) m.tail.toList := by
  rw [State.linkSlot]
  cases m.tail with
  | none => exact .rfl
  | some p => exact slotsOnly_putSlot p _ s

theorem slot_unlinkSlot {s : State} (c : Canonical s) (prev : Option Nat) (r : Record) (q : Nat) :
    (s.unlinkSlot prev r).slot q =
      if prev = some q then { s.slot q with chainNext := r.chainNext } else s.slot q := by
  cases prev with
  | none => rfl
  | some p =>
    rw [State.unlinkSlot, State.editSlot, slot_put c]
    by_cases same : q = p
    · rw [if_pos same, if_pos (congrArg some same.symm), same]
    · rw [if_neg same, if_neg fun is => same (Option.some.inj is).symm]

theorem slot_linkSlot {s : State} (c : Canonical s) (n : Nat) (m : Matter) (q : Nat) :
    (s.linkSlot n m).slot q = if m.tail = some q then { s.slot q with chainNext := some n } else s.slot q := by
  rw [State.linkSlot]
  cases m.tail with
  | none => rfl
  | some p =>
    dsimp only
    rw [State.editSlot, slot_put c]
    by_cases same : q = p
    · rw [if_pos same, if_pos (congrArg some same.symm), same]
    · rw [if_neg same, if_neg fun is => same (Option.some.inj is).symm]

/-! ## The chain before a slot (R5) -/

theorem before_congr {s t : State} (record : t.record = s.record) (n : Nat) :
    ∀ fuel h, t.before n fuel h = s.before n fuel h
  | 0, _ => rfl
  | _ + 1, none => rfl
  | fuel + 1, some c => by
    rw [State.before, State.before, slot_congr record, before_congr record n fuel]

theorem chainBefore_congr {s t : State} (record : t.record = s.record) (n place : Nat) :
    t.chainBefore n place = s.chainBefore n place := by
  rw [State.chainBefore, State.chainBefore, matterAt_congr record, before_congr record]

/-! ## A record leaves its matter (R7) -/

theorem slot_testRemoval (p q : Nat) (s : State) : (s.testRemoval p).slot q = s.slot q := by
  unfold State.testRemoval
  split <;> rfl

theorem link_testRemoval (p q : Nat) (s : State) : (s.testRemoval p).link q = s.link q := by
  unfold State.testRemoval
  split <;> rfl

theorem freeSlots_testRemoval (p : Nat) (s : State) : (s.testRemoval p).folio.freeSlots = s.folio.freeSlots := by
  unfold State.testRemoval
  split <;> rfl

theorem matterAt_testRemoval_ne {p q : Nat} (other : q ≠ p) (s : State) : (s.testRemoval p).matterAt q = s.matterAt q := by
  unfold State.testRemoval
  split
  · exact matterAt_putMatter_ne _ other _
  · rfl

theorem kept_testRemoval (p : Nat) (s : State) : RecordKept s (s.testRemoval p) [] [p] [] := by
  unfold State.testRemoval
  split
  · exact kept_putMatter p {} { s with folio.index := s.folio.index.filter fun e => e.place ≠ p }
  · exact RecordKept.rfl

theorem matterAt_of_entry {s : State} {p : Nat} {m : Matter} (entry : s.placeEntry p = .of m) :
    s.matterAt p = if m.number = 0 then {} else m := by
  rw [State.matterAt, entry, PlaceEntry.of]
  split <;> rfl

/-- The matter that a record leaves. -/
def leftBy (s : State) (n : Nat) (r : Record) : Matter := (s.matterAt r.place).leave n (s.chainBefore n r.place) r

section Leaves

variable {s x : State} {n : Nat} {r : Record}

theorem removable_iff_lastOut (entry : x.placeEntry r.place = .of (leftBy s n r))
    (pins : x.pinned r.place = s.pinned r.place) : x.removable r.place = true ↔ LastOut s r.place := by
  rw [State.removable, LastOut, matterAt_of_entry entry, pins]
  by_cases zero : (s.matterAt r.place).number = 0
  · rw [if_pos (show (leftBy s n r).number = 0 from zero), zero]
    simp
  · rw [if_neg (show ¬ (leftBy s n r).number = 0 from zero)]
    rw [Bool.and_eq_true_iff, Bool.and_eq_true_iff, Bool.and_eq_true_iff, decide_eq_true_iff, decide_eq_true_iff,
      decide_eq_true_iff, Bool.not_eq_true', and_assoc, and_assoc]
    exact and_congr_right fun _ => and_congr_left' Nat.sub_eq_zero_iff_le

/-- R7's test where a record has left its matter. -/
theorem leftMatter_testRemoval {index : List IndexEntry} (c : Canonical x)
    (folio : x.folio = { s.folio with freeSlots := x.folio.freeSlots, index := index })
    (entry : x.placeEntry r.place = .of (leftBy s n r)) (pins : x.pinned r.place = s.pinned r.place) :
    LeftMatter s (x.testRemoval r.place) n r index := by
  have removable := removable_iff_lastOut entry pins
  have at_ : x.folio.index = index := by rw [folio]
  refine ⟨?_, fun last => ?_, fun stays => ?_⟩
  · have rest := (congrArg State.folio (fr_testRemoval r.place x).rest :)
    have slots := freeSlots_testRemoval r.place x
    rw [folio] at rest
    rw [slots]
    exact rest
  · rw [testRemoval_of_removable (removable.mpr last)]
    exact ⟨placeEntry_putMatter (s := { x with folio.index := x.folio.index.filter fun e => e.place ≠ r.place }) c _ _,
      congrArg (List.filter fun e : IndexEntry => e.place ≠ r.place) at_⟩
  · rw [testRemoval_of_not_removable ((Bool.not_eq_true _).mp (stays ∘ removable.mp))]
    refine ⟨at_, fun number => ?_⟩
    rw [matterAt_of_entry entry]
    exact if_neg number

end Leaves

end Sys2Proof.Proofs

/-! PROOFS. REFILE (R5, R6, R25). -/

namespace Sys2Proof.Proofs

open Sys2Proof.Machine Sys2Proof.Safety Sys2Proof.Claims Sys2Proof.Laws Sys2Proof.Laws.Rebuild

/-! ## A record moved to another matter (R5) -/

/-- The record of a slot as its move leaves it. -/
def movedTo (r : Record) (matter : Long) (place : Nat) (m : Matter) : Record :=
  { r.amend with matter := matter, place := place, sequence := m.nextSequence, chainNext := none }

/-- What a move leaves of a slot, the record being linked past in its old chain and joined to its new one. -/
def slotAfter (s : State) (n : Nat) (r moved : Record) (m : Matter) (q : Nat) : Record :=
  let passed := if q = n then moved
    else if s.chainBefore n r.place = some q then { s.slot q with chainNext := r.chainNext } else s.slot q
  if m.tail = some q then { passed with chainNext := some n } else passed

/-- The slots of a move. -/
def relinked (w : State) (n : Nat) (r moved : Record) (m : Matter) : State :=
  ((w.unlinkSlot (w.chainBefore n r.place) r).putSlot n moved).linkSlot n m

/-- The directory of a move, before the test of R7. -/
def rejoined (w : State) (n : Nat) (r moved : Record) (place : Nat) (m : Matter) : State :=
  ((relinked w n r moved m).editMatter r.place (Matter.leave n (w.chainBefore n r.place) r)).putMatter place (m.join n)

theorem moveRecord_eq (n : Nat) (r : Record) (matter : Long) (place : Nat) (m : Matter) (w : State) :
    w.moveRecord n r matter place m = (rejoined w n r (movedTo r matter place m) place m).testRemoval r.place := rfl

/-- A record stands in its new chain and its new matter, its old one not yet tested. -/
structure Rejoined (s w x : State) (n : Nat) (r moved : Record) (place : Nat) (m : Matter) : Prop where
  frame : x = { w with record := x.record, journal := x.journal }
  slots : ∀ q, x.slot q = slotAfter s n r moved m q
  joined : x.matterAt place = m.join n
  entry : x.placeEntry r.place = .of (leftBy s n r)
  canonical : Canonical x
  kept : RecordKept s x (n :: (m.tail.toList ++ (s.chainBefore n r.place).toList)) [place, r.place] []

/-- A record has been moved, `w` being the state with its new matter in the index. -/
structure Moved (s w t : State) (n : Nat) (r moved : Record) (place : Nat) (m : Matter) : Prop where
  frame : t = { w with folio := t.folio, record := t.record, journal := t.journal }
  slots : ∀ q, t.slot q = slotAfter s n r moved m q
  joined : t.matterAt place = m.join n
  left : LeftMatter s t n r w.folio.index
  freeSlots : t.folio.freeSlots = w.folio.freeSlots
  kept : RecordKept s t (n :: (m.tail.toList ++ (s.chainBefore n r.place).toList)) [place, r.place] []

section Move

variable {s w : State} (record : w.record = s.record) (c : Canonical w) (n : Nat) (r moved : Record) (m : Matter)

theorem slotsOnly_relinked :
    SlotsOnly w (relinked w n r moved m) (n :: (m.tail.toList ++ (w.chainBefore n r.place).toList)) := by
  refine SlotsOnly.mono (((slotsOnly_unlinkSlot (w.chainBefore n r.place) r w).trans (slotsOnly_putSlot n moved _)).trans
    (slotsOnly_linkSlot n m _)) ?_
  intro x
  simp only [List.mem_append, List.mem_cons, List.not_mem_nil, or_false]
  tauto

include record c

theorem slot_relinked (q : Nat) : (relinked w n r moved m).slot q = slotAfter s n r moved m q := by
  have passed := (slotsOnly_unlinkSlot (w.chainBefore n r.place) r w).canonical c
  have put := (slotsOnly_putSlot n moved (w.unlinkSlot (w.chainBefore n r.place) r)).canonical passed
  rw [relinked, slot_linkSlot put, slot_put passed, slot_unlinkSlot c, chainBefore_congr record, slot_congr record]
  rfl

omit c in
theorem leftBy_relinked :
    leftBy s n r = ((relinked w n r moved m).matterAt r.place).leave n (w.chainBefore n r.place) r := by
  rw [leftBy, chainBefore_congr record, State.matterAt, State.matterAt,
    (slotsOnly_relinked (w := w) n r moved m).places, placeEntry_congr record]

variable {place : Nat} (other : place ≠ r.place) (number : m.number ≠ 0)

include other number

theorem rejoined_spec : Rejoined s w (rejoined w n r moved place m) n r moved place m := by
  obtain ⟨frame, places, -, canonical, kept⟩ := slotsOnly_relinked (w := w) n r moved m
  have slots := slot_relinked record c n r moved m
  rw [rejoined, State.editMatter, ← leftBy_relinked record n r moved m]
  rw [chainBefore_congr record] at kept
  generalize relinked w n r moved m = x at *
  have put := (quiet_putMatter r.place (leftBy s n r) x).canonical (canonical c)
  refine ⟨?_, slots, matterAt_putMatter put _ number, ?_, (quiet_putMatter place (m.join n) _).canonical put, ?_⟩
  · rw [frame]
    rfl
  · rw [placeEntry_putMatter_ne _ other.symm, placeEntry_putMatter (canonical c)]
  · have before : RecordKept s w [] [] [] := RecordKept.of_record record
    have after := RecordKept.trans (kept_putMatter r.place (leftBy s n r) x)
      (kept_putMatter place (m.join n) (x.putMatter r.place (leftBy s n r)))
    exact RecordKept.mono (RecordKept.trans (RecordKept.trans before kept) after) (by simp) (by simp) (by simp)

theorem moved_spec (pins : w.pinned r.place = s.pinned r.place) (folio : w.folio = { s.folio with index := w.folio.index }) :
    Moved s w ((rejoined w n r moved place m).testRemoval r.place) n r moved place m := by
  obtain ⟨frame, slots, joined, entry, canonical, kept⟩ := rejoined_spec record c n r moved m other number
  generalize rejoined w n r moved place m = x at *
  have folios : x.folio = w.folio := (congrArg State.folio frame :)
  refine ⟨?_, fun q => ?_, ?_, ?_, ?_, ?_⟩
  · rw [(fr_testRemoval r.place x).rest, frame]
  · rw [slot_testRemoval, slots]
  · rw [matterAt_testRemoval_ne other, joined]
  · refine leftMatter_testRemoval canonical ?_ entry ?_
    · have free : w.folio.freeSlots = s.folio.freeSlots := by rw [folio]
      rw [folios, free]
      exact folio
    · rw [State.pinned, folios]
      exact pins
  · rw [freeSlots_testRemoval, folios]
  · exact RecordKept.mono (RecordKept.trans kept (kept_testRemoval r.place x)) (by simp) (by simp) (by simp)

end Move

/-! ## The owner (R25) -/

theorem exec_refile (tag : Tag) (folio : Word) (matter : Long) (s : State) :
    exec (.refile tag folio matter) s = request (largestReply 0x15) tag (ownerRefile folio matter) s := rfl

section Refile

variable {s : State} {folio : Word} {matter : Long} {r : Record} (names : Names s folio r)

include names

theorem ownerRefile_of_zero (zero : matter = 0) : ownerRefile folio matter s.begin = refused .badArgument s.begin := by
  rw [ownerRefile, onFolio_of_names names]
  exact if_pos zero

variable (number : matter ≠ 0)

include number

theorem ownerRefile_of_not_filed (state : r.state ≠ .filed) :
    ownerRefile folio matter s.begin = refused .state s.begin := by
  rw [ownerRefile, onFolio_of_names names]
  exact (if_neg number).trans (if_pos state)

variable (filed : r.state = .filed)

include filed

theorem ownerRefile_of_held (held : Held s r) : ownerRefile folio matter s.begin = refused .held s.begin := by
  rw [ownerRefile, onFolio_of_names names]
  exact (if_neg number).trans ((if_neg (not_not.mpr filed)).trans (ite_of_held (s := s.begin) _ _ held))

variable (free : ¬ Held s r)

include free

theorem ownerRefile_of_same (same : matter = r.matter) :
    ownerRefile folio matter s.begin = refused .badArgument s.begin := by
  rw [ownerRefile, onFolio_of_names names]
  exact (if_neg number).trans ((if_neg (not_not.mpr filed)).trans
    ((ite_of_not_held (s := s.begin) _ _ free).trans (if_pos same)))

variable (other : matter ≠ r.matter)

include other

/-- Past its checks, REFILE goes by the place of the new matter. -/
theorem ownerRefile_of_other : ownerRefile folio matter s.begin =
    match s.begin.findMatter matter with
    | some e =>
      let m := s.begin.matterAt e.place
      if m.nextSequence = 0 then refused .full s.begin
      else (s.begin.moveRecord (slotOf folio) r matter e.place m, okWith [word m.nextSequence])
    | none =>
      match s.begin.freePlace with
      | none => refused .full s.begin
      | some place =>
        ((s.begin.indexMatter matter place).moveRecord (slotOf folio) r matter place (.fresh matter),
          okWith [word 1]) := by
  rw [ownerRefile, onFolio_of_names names]
  exact (if_neg number).trans ((if_neg (not_not.mpr filed)).trans
    ((ite_of_not_held (s := s.begin) _ _ free).trans (if_neg other)))

section Known

variable {place : Nat} (known : InDirectory s matter place)

include known

theorem ownerRefile_of_exhausted (exhausted : (s.matterAt place).nextSequence = 0) :
    ownerRefile folio matter s.begin = refused .full s.begin := by
  obtain ⟨pinned, found⟩ := known
  rw [ownerRefile_of_other names number filed free other,
    show s.begin.findMatter matter = some ⟨matter, place, pinned⟩ from found]
  exact if_pos exhausted

theorem ownerRefile_of_known (sequence : (s.matterAt place).nextSequence ≠ 0) : ownerRefile folio matter s.begin =
    (s.begin.moveRecord (slotOf folio) r matter place (s.matterAt place),
      okWith [word (s.matterAt place).nextSequence]) := by
  obtain ⟨pinned, found⟩ := known
  rw [ownerRefile_of_other names number filed free other,
    show s.begin.findMatter matter = some ⟨matter, place, pinned⟩ from found]
  exact if_neg sequence

end Known

variable (unknown : NotInDirectory s matter)

include unknown

theorem ownerRefile_of_full (full : s.begin.freePlace = none) :
    ownerRefile folio matter s.begin = refused .full s.begin := by
  rw [ownerRefile_of_other names number filed free other, show s.begin.findMatter matter = none from unknown, full]

theorem ownerRefile_of_new {place : Nat} (lowest : s.begin.freePlace = some place) : ownerRefile folio matter s.begin =
    ((s.begin.indexMatter matter place).moveRecord (slotOf folio) r matter place (.fresh matter), okWith [word 1]) := by
  rw [ownerRefile_of_other names number filed free other, show s.begin.findMatter matter = none from unknown, lowest]

end Refile

/-! ## The slots of a move, one by one -/

section SlotAfter

variable {s : State} {n : Nat} {r moved : Record} {m : Matter} {q : Nat}

theorem slotAfter_self (apart : m.tail ≠ some n) : slotAfter s n r moved m n = moved :=
  (if_neg apart).trans (if_pos rfl)

theorem slotAfter_tail (tail : m.tail = some q) : (slotAfter s n r moved m q).chainNext = some n := by
  rw [slotAfter]
  dsimp only
  rw [if_pos tail]

theorem slotAfter_tail_alone (tail : m.tail = some q) (apart : m.tail ≠ some n)
    (before : s.chainBefore n r.place ≠ some q) :
    slotAfter s n r moved m q = { s.slot q with chainNext := some n } := by
  have other : q ≠ n := fun same => apart (same ▸ tail)
  rw [slotAfter]
  dsimp only
  rw [if_pos tail, if_neg other, if_neg before]

theorem slotAfter_before (before : s.chainBefore n r.place = some q) (other : q ≠ n) (tail : m.tail ≠ some q) :
    slotAfter s n r moved m q = { s.slot q with chainNext := r.chainNext } := by
  rw [slotAfter]
  dsimp only
  rw [if_neg tail, if_neg other, if_pos before]

end SlotAfter

theorem join_eq (n : Nat) (m : Matter) : m.join n = { m with
    recordCount := m.recordCount + 1, tail := some n
    head := (match m.head with | some h => some h | none => some n)
    nextSequence := if m.nextSequence = 65535 then 0 else m.nextSequence + 1 } := by
  rw [Matter.join, sequenceAfter]
  cases m.head <;> rfl

section Answer

variable {s w t : State} {n place : Nat} {r moved : Record} {m : Matter} (is : Moved s w t n r moved place m)

include is

theorem unchanged_moved (same : Unchanged [.folio] s w) (tag : Tag) (reply : Reply) :
    Unchanged [.port, .folio, .record] s (t.answer tag reply) := by
  refine unchanged_trans (unchanged_mono (by decide) same) ?_
  rw [is.frame]
  simp [Unchanged]

theorem answers_moved (port : w.port = s.port) (tag : Tag) (reply : Reply) :
    Answers s (t.answer tag reply) reply.code.number tag reply.results := by
  refine answers_of_port ?_ tag reply
  rw [is.frame]
  exact port

end Answer

theorem inDirectory_filter {s t : State} {matter : Long} {place left : Nat} {below above : List IndexEntry}
    (unknown : NotInDirectory s matter) (splits : s.folio.index = below ++ above) (other : place ≠ left)
    (index : t.folio.index = below ++ ⟨matter, place, false⟩ :: above ∨
      t.folio.index = (below ++ ⟨matter, place, false⟩ :: above).filter fun e => e.place ≠ left) :
    InDirectory t matter place := by
  have unique : ∀ x ∈ below ++ (⟨matter, place, false⟩ : IndexEntry) :: above, x.matter = matter →
      x = ⟨matter, place, false⟩ := by
    intro x on mine
    rcases List.mem_append.mp on with low | high
    · exact absurd mine ((find_none s matter).mp unknown x (by rw [splits]; exact List.mem_append_left _ low))
    · rcases List.mem_cons.mp high with same | high
      · exact same
      · exact absurd mine ((find_none s matter).mp unknown x (by rw [splits]; exact List.mem_append_right _ high))
  have held : (⟨matter, place, false⟩ : IndexEntry) ∈ below ++ (⟨matter, place, false⟩ : IndexEntry) :: above := by simp
  refine ⟨false, findMatter_of_unique (e := ⟨matter, place, false⟩) ?_ fun x on => ?_⟩
  · rcases index with is | is
    · rwa [is]
    · rw [is, List.mem_filter]
      exact ⟨held, decide_eq_true other⟩
  · rcases index with is | is
    · rw [is] at on
      exact unique x on
    · rw [is, List.mem_filter] at on
      exact unique x on.1

section Refiled

variable {s : State} {tag : Tag} {folio : Word} {matter : Long} {r : Record} (names : Names s folio r)
  (takes : Takes 2 s) {place : Nat} (c : Canonical s) (number : matter ≠ 0) (filed : r.state = .filed)
  (free : ¬ Held s r) (other : matter ≠ r.matter) (apart : place ≠ r.place)

include names takes c number filed free other apart

theorem after_refile_known (known : InDirectory s matter place) (mine : (s.matterAt place).number = matter)
    (sequence : (s.matterAt place).nextSequence ≠ 0) {holds : State → Prop}
    (after : ∀ t, Moved s s.begin t (folio.toNat / 16) r (movedTo r matter place (s.matterAt place)) place
      (s.matterAt place) → holds (t.answer tag (okWith [word (s.matterAt place).nextSequence]))) :
    After (.refile tag folio matter) s holds := by
  refine after_of_owner (exec_refile tag folio matter s) takes
    (ownerRefile_of_known names number filed free other known sequence) (after _ ?_)
  have record : s.begin.record = s.record := rfl
  have named : (s.matterAt place).number ≠ 0 := by rwa [mine]
  exact moved_spec record c (slotOf folio) r (movedTo r matter place (s.matterAt place)) (s.matterAt place) apart named
    rfl rfl

theorem after_refile_new (unknown : NotInDirectory s matter) (inside : place < 256)
    (empty : (s.matterAt place).number = 0) (lowest : ∀ p, p < place → (s.matterAt p).number ≠ 0)
    {holds : State → Prop} (after : ∀ t, Moved s (s.begin.indexMatter matter place) t (folio.toNat / 16) r
      (movedTo r matter place (.fresh matter)) place (.fresh matter) → holds (t.answer tag (okWith [word 1]))) :
    After (.refile tag folio matter) s holds := by
  refine after_of_owner (exec_refile tag folio matter s) takes
    (ownerRefile_of_new names number filed free other unknown (freePlace_of_lowest (s := s.begin) inside empty lowest))
    (after _ ?_)
  have record : (s.begin.indexMatter matter place).record = s.record := rfl
  exact moved_spec record c (slotOf folio) r (movedTo r matter place (.fresh matter)) (.fresh matter) apart number
    (pinned_indexMatter s.begin matter place r.place) rfl

end Refiled

/-- Settles O27: one move of a record serves a matter that is in the directory and one that enters it. -/
theorem refileMoves : Obligations.RefileMoves := by
  unfold Obligations.RefileMoves
  intro s tag folio matter r names takes n
  have run := exec_refile tag folio matter s
  refine ⟨fun zero => reads_of_refused .badArgument run takes (ownerRefile_of_zero names zero),
    fun number state => reads_of_refused .state run takes (ownerRefile_of_not_filed names number state),
    fun number filed held => reads_of_refused .held run takes (ownerRefile_of_held names number filed held),
    fun number filed free same => reads_of_refused .badArgument run takes
      (ownerRefile_of_same names number filed free same),
    fun number filed free other unknown full => reads_of_refused .full run takes
      (ownerRefile_of_full names number filed free other unknown (freePlace_of_full (s := s.begin) full)),
    fun place number filed free other known exhausted => reads_of_refused .full run takes
      (ownerRefile_of_exhausted names number filed free other known exhausted),
    fun place c number filed free other known mine apart sequence tail =>
      after_refile_known names takes c number filed free other apart known mine sequence fun t is => ?_,
    fun place c number filed free other unknown inside empty lowest apart =>
      after_refile_new names takes c number filed free other apart unknown inside empty lowest fun t is => ?_⟩
  · refine ⟨answers_moved is rfl tag _, unchanged_moved is (unchanged_begin [.folio] s) tag _,
      (is.slots n).trans (slotAfter_self tail), is.joined.trans (join_eq n _), fun q tails => ⟨?_, fun before => ?_⟩,
      fun q before others tails => ?_, is.left, is.freeSlots, is.kept⟩
    · exact (congrArg Record.chainNext (is.slots q)).trans (slotAfter_tail tails)
    · exact (is.slots q).trans (slotAfter_tail_alone tails tail before)
    · exact (is.slots q).trans (slotAfter_before before others tails)
  · obtain ⟨below, above, splits, inserted⟩ := insertIndex_splits ⟨matter, place, false⟩ s.folio.index
    have index : (s.begin.indexMatter matter place).folio.index = below ++ ⟨matter, place, false⟩ :: above :=
      (indexMatter_index matter place s.begin).trans inserted
    have left := is.left
    rw [index] at left
    refine ⟨answers_moved is rfl tag _, unchanged_moved is ?_ tag _, (is.slots n).trans (slotAfter_self nofun),
      is.joined.trans rfl, ?_, fun q before others => ?_, ⟨below, above, splits, left⟩, is.freeSlots, is.kept⟩
    · simp [Unchanged, State.indexMatter]
    · obtain ⟨-, last, stays⟩ := left
      refine inDirectory_filter unknown splits apart ?_
      by_cases out : LastOut s r.place
      · exact .inr (last out).2
      · exact .inl (stays out).1
    · exact (is.slots q).trans (slotAfter_before before others nofun)

end Sys2Proof.Proofs

/-! PROOFS. RETIRE (R2, R5, R7, R30, R140). -/

namespace Sys2Proof.Proofs

open Sys2Proof.Machine Sys2Proof.Safety Sys2Proof.Claims Sys2Proof.Laws Sys2Proof.Laws.Rebuild

/-! ## Partners that name a record back (R30) -/

theorem live_iff (state : RecordState) : state.live = true ↔ state = .assembling ∨ state = .filing ∨ state = .filed := by
  cases state <;> simp [RecordState.live]

theorem names_of_resolve {s : State} {folio : Word} {r : Record} (ok : s.resolve folio = .ok r) : Names s folio r := by
  unfold State.resolve at ok
  dsimp only at ok
  split at ok
  · cases ok
  · split at ok
    · cases ok
    · next same =>
      split at ok
      · next live =>
        obtain rfl : s.slot (slotOf folio) = r := Except.ok.inj ok
        exact ⟨rfl, not_not.mp same, (live_iff _).mp live⟩
      · cases ok

/-- A partner's slot that names back, by what its record reads. -/
theorem namesBack_iff {s : State} {partner : Option Word} {field : Record → Option Word} {folio : Word} {q : Nat} :
    NamesBack s partner field folio q ↔ ∃ f, partner = some f ∧ f.toNat / 16 = q ∧
      (s.slot q).generation = f.extractLsb' 0 4 ∧
      ((s.slot q).state = .assembling ∨ (s.slot q).state = .filing ∨ (s.slot q).state = .filed) ∧
      field (s.slot q) = some folio := by
  constructor
  · rintro ⟨f, is, at_, ⟨-, generation, live⟩, back⟩
    exact ⟨f, is, at_, generation, live, back⟩
  · rintro ⟨f, is, at_, generation, live, back⟩
    exact ⟨f, is, at_, ⟨by rw [at_], generation, live⟩, back⟩

theorem namesBack_congr {s t : State} {partner : Option Word} {field : Record → Option Word} {folio : Word} {q : Nat}
    (generation : (t.slot q).generation = (s.slot q).generation) (state : (t.slot q).state = (s.slot q).state)
    (same : field (t.slot q) = field (s.slot q)) :
    NamesBack t partner field folio q ↔ NamesBack s partner field folio q := by
  rw [namesBack_iff, namesBack_iff, generation, state, same]

/-- A slot that has gone FREE is no partner that names back. -/
theorem not_namesBack_of_free {t : State} {folio : Word} {partner : Option Word} {field : Record → Option Word}
    {q : Nat} (free : (t.slot q).state = .free) : ¬ NamesBack t partner field folio q := by
  rw [namesBack_iff, free]
  rintro ⟨_, _, _, _, live, _⟩
  rcases live with is | is | is <;> cases is

/-- The partners cleared of a record's name. -/
def cleared (partner : Option Word) (field : Record → Option Word) (clear : Record → Record) (folio : Word) (s : State) :
    State := s.clearPartner partner (fun q => field q = some folio) clear

section Cleared

variable (partner : Option Word) (field : Record → Option Word) (clear : Record → Record) (folio : Word) (s : State)

/-- Either a partner names back and is cleared, or nothing is. -/
theorem cleared_cases : (∃ f, partner = some f ∧ Names s f (s.slot (f.toNat / 16)) ∧
      field (s.slot (f.toNat / 16)) = some folio ∧
      cleared partner field clear folio s = s.putSlot (f.toNat / 16) (clear (s.slot (f.toNat / 16)))) ∨
    ((∀ q, ¬ NamesBack s partner field folio q) ∧ cleared partner field clear folio s = s) := by
  cases partner with
  | none => exact .inr ⟨fun q ⟨f, is, _⟩ => (nomatch is), rfl⟩
  | some f =>
    by_cases back : Names s f (s.slot (f.toNat / 16)) ∧ field (s.slot (f.toNat / 16)) = some folio
    · refine .inl ⟨f, rfl, back.1, back.2, ?_⟩
      rw [cleared, State.clearPartner, resolve_of_names back.1]
      exact if_pos (decide_eq_true back.2)
    · refine .inr ⟨?_, ?_⟩
      · rintro q ⟨g, is, rfl, names, named⟩
        cases is
        exact back ⟨names, named⟩
      · rw [cleared, State.clearPartner]
        cases found : s.resolve f with
        | error code => rfl
        | ok r =>
          have names := names_of_resolve found
          obtain ⟨rfl, -⟩ := id names
          exact if_neg fun named => back ⟨names, of_decide_eq_true named⟩

theorem slotsOnly_cleared : SlotsOnly s (cleared partner field clear folio s)
    (partner.map fun f => f.toNat / 16).toList := by
  rcases cleared_cases partner field clear folio s with ⟨f, rfl, -, -, is⟩ | ⟨-, is⟩
  · rw [is]
    exact slotsOnly_putSlot _ _ s
  · rw [is]
    exact SlotsOnly.rfl.mono (List.nil_subset _)

variable {s}

theorem slot_cleared (c : Canonical s) (q : Nat) :
    (NamesBack s partner field folio q → (cleared partner field clear folio s).slot q = clear (s.slot q)) ∧
    (¬ NamesBack s partner field folio q → (cleared partner field clear folio s).slot q = s.slot q) := by
  rcases cleared_cases partner field clear folio s with ⟨f, rfl, names, named, is⟩ | ⟨none, is⟩
  · rw [is, slot_put c]
    refine ⟨?_, fun other => ?_⟩
    · rintro ⟨g, same, rfl, -⟩
      cases same
      exact if_pos rfl
    · refine if_neg ?_
      rintro rfl
      exact other ⟨f, rfl, rfl, names, named⟩
  · rw [is]
    exact ⟨fun back => absurd back (none q), fun _ => rfl⟩

end Cleared

/-! ## A record retired (R30) -/

/-- The plates that a retired record gives back. -/
def platesOff (r : Record) (s : State) : State := if r.image = .resident then s.returnChains [r.plates] else s

/-- What giving back the plates of a retired record leaves. -/
structure PlatesOff (s t : State) (r : Record) : Prop where
  frame : t = { s with record := t.record, journal := t.journal, images.free := t.images.free }
  slots : ∀ n, t.slot n = s.slot n
  places : ∀ n, t.placeEntry n = s.placeEntry n
  canonical : Canonical s → Canonical t
  queue : r.image = .resident → 0 < r.plateCount → t.images.free =
    { head := if s.images.free.length = 0 then r.plateHead else s.images.free.head
      tail := r.plateTail, length := s.images.free.length + r.plateCount }
  still : r.image = .shed ∨ r.plateCount = 0 → t.images.free = s.images.free
  chains : Canonical s → ChainsReturned s t
    (if r.image = .resident then [⟨r.plateHead, r.plateTail, r.plateCount⟩] else [])
  kept : RecordKept s t [] [] (s.images.free.tail.toList ++ r.plateTail.toList)

theorem chainsReturned_nil (s : State) : ChainsReturned s s [] :=
  ⟨fun _ => ⟨rfl, fun _ => rfl⟩, fun _ _ is => (nomatch is), fun before last is => by simp at is,
    fun before c d after is => by simp at is, fun _ _ _ => rfl⟩

theorem platesOff_spec (r : Record) (s : State) : PlatesOff s (platesOff r s) r := by
  rw [platesOff]
  by_cases resident : r.image = .resident
  · rw [if_pos resident]
    obtain ⟨frame, slots, places, canonical, queue, still, chains, kept⟩ := platesBack r.plates s
    refine ⟨frame, fun n => ?_, places, canonical, fun _ => queue, fun none => still ?_, fun c => ?_, kept⟩
    · rw [State.slot, slots]
      rfl
    · refine none.resolve_left fun shed => ?_
      rw [resident] at shed
      cases shed
    · rw [if_pos resident]
      exact chains c
  · rw [if_neg resident]
    exact ⟨rfl, fun _ => rfl, fun _ => rfl, id, fun is => absurd is resident, fun _ => rfl, fun _ => by
      rw [if_neg resident]
      exact chainsReturned_nil s, RecordKept.rfl⟩

theorem chainsReturned_congr {s t u : State} {chains : List PlateChain} (returned : ChainsReturned s t chains)
    (free : u.images.free = t.images.free) (links : ∀ q, u.link q = t.link q) : ChainsReturned s u chains := by
  unfold ChainsReturned at returned ⊢
  simp only [free, links]
  exact returned

/-- A successor cleared. -/
def noSuccessor (q : Record) : Record := { q with successor := none }

/-- A predecessor cleared. -/
def noPredecessor (q : Record) : Record := { q with predecessor := none }

/-- The state with the slot of a retired record vacated. -/
def vacatedSlot (folio : Word) (r : Record) (s : State) : State := s.putSlot (folio.toNat / 16) r.vacated

/-- And the partner before it cleared. -/
def unpaired (folio : Word) (r : Record) (s : State) : State :=
  cleared r.predecessor Record.successor noSuccessor folio (vacatedSlot folio r s)

/-- And the one behind it. -/
def unpairedBoth (folio : Word) (r : Record) (s : State) : State :=
  cleared r.successor Record.predecessor noPredecessor folio (unpaired folio r s)

/-- The slots of a retirement: the record's own goes FREE, its partners name it no more, and the one before it
in its chain is linked past it. -/
def vacatedSlots (folio : Word) (r : Record) (prev : Option Nat) (s : State) : State :=
  (unpairedBoth folio r s).unlinkSlot prev r

/-- The directory of a retirement, before the test of R7. -/
def retired (folio : Word) (r : Record) (prev : Option Nat) (s : State) : State :=
  let left := (vacatedSlots folio r prev s).editMatter r.place (Matter.leave (folio.toNat / 16) prev r)
  { left with folio.freeSlots := left.folio.freeSlots + 1 }

/-- The state `u` with a record less in its matter, and a slot more that is FREE. -/
def freed (n : Nat) (r : Record) (prev : Option Nat) (u : State) : State :=
  { u.putMatter r.place ((u.matterAt r.place).leave n prev r) with folio.freeSlots := u.folio.freeSlots + 1 }

theorem retired_eq (folio : Word) (r : Record) (prev : Option Nat) (s : State) :
    retired folio r prev s = freed (folio.toNat / 16) r prev (vacatedSlots folio r prev s) := rfl

theorem kept_freed (n : Nat) (r : Record) (prev : Option Nat) (u : State) :
    RecordKept u (freed n r prev u) [] [r.place] [] := kept_putMatter r.place _ u

theorem retireRecord_eq (folio : Word) (r : Record) (s : State) : s.retireRecord folio r =
    (retired folio r (s.chainBefore (folio.toNat / 16) r.place) (platesOff r s)).testRemoval r.place := rfl

/-- The slots that name the retired record in its chain and in its partners. -/
def besideSlots (r : Record) (prev : Option Nat) : List Nat :=
  (r.predecessor.map fun f => f.toNat / 16).toList ++ ((r.successor.map fun f => f.toNat / 16).toList ++ prev.toList)

theorem slotsOnly_vacatedSlots (folio : Word) (r : Record) (prev : Option Nat) (s : State) :
    SlotsOnly s (vacatedSlots folio r prev s) (folio.toNat / 16 :: besideSlots r prev) := by
  refine SlotsOnly.mono ((((slotsOnly_putSlot (folio.toNat / 16) r.vacated s).trans (slotsOnly_cleared _ _ _ folio _)).trans
    (slotsOnly_cleared _ _ _ folio _)).trans (slotsOnly_unlinkSlot prev r _)) ?_
  rw [besideSlots, List.append_assoc, List.append_assoc]
  exact List.Subset.refl _

section Vacated

variable {s : State} (c : Canonical s) (folio : Word) (r : Record)

include c

theorem canonical_vacatedSlot : Canonical (vacatedSlot folio r s) := (quiet_putSlot _ _ s).canonical c

theorem canonical_unpaired : Canonical (unpaired folio r s) :=
  (slotsOnly_cleared _ _ _ folio _).canonical (canonical_vacatedSlot c folio r)

theorem canonical_unpairedBoth : Canonical (unpairedBoth folio r s) :=
  (slotsOnly_cleared _ _ _ folio _).canonical (canonical_unpaired c folio r)

theorem slot_vacatedSlot (q : Nat) :
    (vacatedSlot folio r s).slot q = if q = folio.toNat / 16 then r.vacated else s.slot q := slot_put c _ _ q

theorem slot_unpairedBoth_self : (unpairedBoth folio r s).slot (folio.toNat / 16) = r.vacated := by
  have vacated : (vacatedSlot folio r s).slot (folio.toNat / 16) = r.vacated :=
    (slot_vacatedSlot c folio r _).trans (if_pos rfl)
  have first : (unpaired folio r s).slot (folio.toNat / 16) = r.vacated :=
    ((slot_cleared _ _ _ folio (canonical_vacatedSlot c folio r) _).2
      (not_namesBack_of_free (by rw [vacated]; rfl))).trans vacated
  exact ((slot_cleared _ _ _ folio (canonical_unpaired c folio r) _).2
    (not_namesBack_of_free (by rw [first]; rfl))).trans first

/-- What a retirement leaves of a slot that is not its own, its chain apart. -/
theorem slot_unpairedBoth {q : Nat} (other : q ≠ folio.toNat / 16) : ∃ before behind,
    (unpairedBoth folio r s).slot q = { s.slot q with predecessor := before, successor := behind } ∧
    (NamesBack s r.predecessor Record.successor folio q → behind = none) ∧
    (¬ NamesBack s r.predecessor Record.successor folio q → behind = (s.slot q).successor) ∧
    (NamesBack s r.successor Record.predecessor folio q → before = none) ∧
    (¬ NamesBack s r.successor Record.predecessor folio q → before = (s.slot q).predecessor) := by
  have vacated : (vacatedSlot folio r s).slot q = s.slot q := (slot_vacatedSlot c folio r q).trans (if_neg other)
  obtain ⟨behindNames, behindNot⟩ := slot_cleared r.predecessor Record.successor noSuccessor folio
    (canonical_vacatedSlot c folio r) q
  obtain ⟨beforeNames, beforeNot⟩ := slot_cleared r.successor Record.predecessor noPredecessor folio
    (canonical_unpaired c folio r) q
  have backs : NamesBack (vacatedSlot folio r s) r.predecessor Record.successor folio q ↔
      NamesBack s r.predecessor Record.successor folio q :=
    namesBack_congr (by rw [vacated]) (by rw [vacated]) (by rw [vacated])
  rw [backs, vacated] at behindNames behindNot
  have first : ∃ behind, (unpaired folio r s).slot q = { s.slot q with successor := behind } ∧
      (NamesBack s r.predecessor Record.successor folio q → behind = none) ∧
      (¬ NamesBack s r.predecessor Record.successor folio q → behind = (s.slot q).successor) := by
    by_cases back : NamesBack s r.predecessor Record.successor folio q
    · exact ⟨none, behindNames back, fun _ => rfl, fun not => absurd back not⟩
    · exact ⟨(s.slot q).successor, behindNot back, fun is => absurd is back, fun _ => rfl⟩
  obtain ⟨behind, is, names, kept⟩ := first
  have backs : NamesBack (unpaired folio r s) r.successor Record.predecessor folio q ↔
      NamesBack s r.successor Record.predecessor folio q :=
    namesBack_congr (by rw [is]) (by rw [is]) (by rw [is])
  rw [backs, is] at beforeNames beforeNot
  by_cases back : NamesBack s r.successor Record.predecessor folio q
  · exact ⟨none, behind, beforeNames back, names, kept, fun _ => rfl, fun not => absurd back not⟩
  · exact ⟨(s.slot q).predecessor, behind, beforeNot back, names, kept, fun is => absurd is back, fun _ => rfl⟩

end Vacated

/-- What a retirement leaves of another slot. -/
def BesideRetired (s t : State) (folio : Word) (r : Record) (q : Nat) : Prop :=
  t.slot q = { s.slot q with
    chainNext := if s.chainBefore (folio.toNat / 16) r.place = some q then r.chainNext else (s.slot q).chainNext
    predecessor := (t.slot q).predecessor, successor := (t.slot q).successor } ∧
  (NamesBack s r.predecessor Record.successor folio q → (t.slot q).successor = none) ∧
  (¬ NamesBack s r.predecessor Record.successor folio q → (t.slot q).successor = (s.slot q).successor) ∧
  (NamesBack s r.successor Record.predecessor folio q → (t.slot q).predecessor = none) ∧
  (¬ NamesBack s r.successor Record.predecessor folio q → (t.slot q).predecessor = (s.slot q).predecessor)

/-- A record has been retired. -/
structure Retired (s t : State) (folio : Word) (r : Record) : Prop where
  frame : t = { s with folio := t.folio, record := t.record, journal := t.journal, images.free := t.images.free }
  self : t.slot (folio.toNat / 16) = r.vacated
  beside : ∀ q, q ≠ folio.toNat / 16 → BesideRetired s t folio r q
  left : LeftMatter s t (folio.toNat / 16) r s.folio.index
  freeSlots : t.folio.freeSlots = s.folio.freeSlots + 1
  queue : r.image = .resident → 0 < r.plateCount → t.images.free =
    { head := if s.images.free.length = 0 then r.plateHead else s.images.free.head
      tail := r.plateTail, length := s.images.free.length + r.plateCount }
  still : r.image = .shed ∨ r.plateCount = 0 → t.images.free = s.images.free
  chains : ChainsReturned s t (if r.image = .resident then [⟨r.plateHead, r.plateTail, r.plateCount⟩] else [])
  kept : RecordKept s t (folio.toNat / 16 :: besideSlots r (s.chainBefore (folio.toNat / 16) r.place)) [r.place]
    (s.images.free.tail.toList ++ r.plateTail.toList)

section Freed

variable {s t u : State} {n : Nat} {r : Record} {slots : List Nat} (off : PlatesOff s t r) (only : SlotsOnly t u slots)

include off only

theorem folio_slots : u.folio = s.folio :=
  ((congrArg State.folio only.frame :) : u.folio = t.folio).trans (congrArg State.folio off.frame :)

theorem leftMatter_freed (c : Canonical s) :
    LeftMatter s ((freed n r (s.chainBefore n r.place) u).testRemoval r.place) n r s.folio.index := by
  have canonical : Canonical u := only.canonical (off.canonical c)
  have folio := folio_slots off only
  have matter : u.matterAt r.place = s.matterAt r.place := by
    rw [State.matterAt, State.matterAt, only.places, off.places]
  refine leftMatter_testRemoval ((quiet_putMatter _ _ u).canonical canonical) ?_ ?_ ?_
  · rw [freed, ← folio]
    rfl
  · rw [leftBy, ← matter]
    exact placeEntry_putMatter canonical _ _
  · rw [State.pinned, State.pinned, ← folio]
    rfl

theorem frame_freed (prev : Option Nat) : ∃ left, (freed n r prev u).testRemoval r.place = left ∧ left = { s with
    folio := left.folio, record := left.record, journal := left.journal, images.free := left.images.free } ∧
    left.images.free = t.images.free ∧ left.folio.freeSlots = s.folio.freeSlots + 1 ∧
    (∀ q, left.slot q = u.slot q) ∧ (∀ q, left.link q = t.link q) ∧
    RecordKept t left slots [r.place] [] := by
  refine ⟨_, rfl, ?_, ?_, ?_, fun q => ?_, fun q => ?_, ?_⟩
  · rw [(fr_testRemoval r.place _).rest, freed, only.frame, off.frame]
    rfl
  · rw [(fr_testRemoval r.place _).rest]
    exact (congrArg (fun x : State => x.images.free) only.frame :)
  · rw [freeSlots_testRemoval, ← folio_slots off only]
    rfl
  · exact slot_testRemoval r.place q _
  · exact (link_testRemoval r.place q _).trans (only.links q)
  · exact RecordKept.mono (RecordKept.trans (RecordKept.trans only.kept (kept_freed n r prev u))
      (kept_testRemoval r.place _)) (by simp) (by simp) (by simp)

end Freed

section Retire

variable {s : State} (c : Canonical s) (folio : Word) (r : Record)
  (before : s.chainBefore (folio.toNat / 16) r.place ≠ some (folio.toNat / 16))

include c

theorem besideRetired {t x : State} (off : PlatesOff s t r)
    (slots : ∀ q, x.slot q = (vacatedSlots folio r (s.chainBefore (folio.toNat / 16) r.place) t).slot q) {q : Nat}
    (other : q ≠ folio.toNat / 16) : BesideRetired s x folio r q := by
  have canonical := off.canonical c
  obtain ⟨front, behind, is, names, kept, namesFront, keptFront⟩ := slot_unpairedBoth canonical folio r other
  have same : t.slot q = s.slot q := off.slots q
  have backs (partner : Option Word) (field : Record → Option Word) :
      NamesBack t partner field folio q ↔ NamesBack s partner field folio q :=
    namesBack_congr (by rw [same]) (by rw [same]) (by rw [same])
  rw [backs] at names kept namesFront keptFront
  rw [same] at kept keptFront
  have slot : x.slot q = { s.slot q with
      chainNext := if s.chainBefore (folio.toNat / 16) r.place = some q then r.chainNext else (s.slot q).chainNext
      predecessor := front, successor := behind } := by
    rw [slots, vacatedSlots, slot_unlinkSlot (canonical_unpairedBoth canonical folio r), is, same]
    split <;> rfl
  unfold BesideRetired
  rw [slot]
  exact ⟨rfl, names, kept, namesFront, keptFront⟩

include before

theorem retired_spec : Retired s (s.retireRecord folio r) folio r := by
  have off := platesOff_spec r s
  rw [retireRecord_eq]
  generalize platesOff r s = t at off
  have canonical := off.canonical c
  have beside {x : State} := besideRetired (x := x) c folio r off
  have self : (vacatedSlots folio r (s.chainBefore (folio.toNat / 16) r.place) t).slot (folio.toNat / 16) =
      r.vacated := by
    rw [vacatedSlots, slot_unlinkSlot (canonical_unpairedBoth canonical folio r), if_neg before,
      slot_unpairedBoth_self canonical folio r]
  have only := slotsOnly_vacatedSlots folio r (s.chainBefore (folio.toNat / 16) r.place) t
  rw [retired_eq]
  generalize vacatedSlots folio r (s.chainBefore (folio.toNat / 16) r.place) t = u at *
  have leaves := leftMatter_freed (n := folio.toNat / 16) off only c
  obtain ⟨left, is, frame, free, freeSlots, slots, links, kept⟩ :=
    frame_freed (n := folio.toNat / 16) off only (s.chainBefore (folio.toNat / 16) r.place)
  rw [is] at leaves ⊢
  refine ⟨frame, (slots _).trans self, fun q other => beside slots other, leaves, freeSlots, fun resident plates =>
    free.trans (off.queue resident plates), fun none => free.trans (off.still none),
    chainsReturned_congr (off.chains c) free links, ?_⟩
  exact RecordKept.mono (RecordKept.trans off.kept kept) (by simp) (by simp) (by simp)

end Retire

/-! ## The owner (R30) -/

theorem exec_retire (tag : Tag) (folio today : Word) (s : State) :
    exec (.retire tag folio today) s = request (largestReply 0x1A) tag (ownerRetire folio today) s := rfl

/-- The positions and the count that a retirement answers. -/
def retireReply (r : Record) : Reply :=
  okWith (twoWords r.box ++ [packOne 11 (r.firstPosition.getD 0), packOne 11 (r.lastPosition.getD 0),
    packOne 8 r.shelved])

/-- The owner's branches, on a folio that names a live record. -/
theorem ownerRetire_eq {s : State} {folio today : Word} {r : Record} (names : Names s folio r) :
    ownerRetire folio today s.begin =
      if r.state ≠ .filed then refused .state s.begin
      else if s.heldRecord r then refused .held s.begin
      else if today.toNat < r.retention then refused .early s.begin
      else if s.inUse (folio.toNat / 16) then refused .inUse s.begin
      else (s.begin.retireRecord folio r, retireReply r) := by
  rw [ownerRetire, onFolio_of_names names]
  rfl

theorem chainBefore_begin (s : State) (n place : Nat) : s.begin.chainBefore n place = s.chainBefore n place :=
  chainBefore_congr (s := s) (t := s.begin) rfl n place

theorem leftMatter_of_begin {s t : State} {n : Nat} {r : Record} {index : List IndexEntry}
    (left : LeftMatter s.begin t n r index) : LeftMatter s t n r index := by
  unfold LeftMatter at left ⊢
  rw [chainBefore_begin] at left
  exact left

theorem besideRetired_of_begin {s t : State} {folio : Word} {r : Record} {q : Nat}
    (beside : BesideRetired s.begin t folio r q) : BesideRetired s t folio r q := by
  unfold BesideRetired at beside ⊢
  rw [chainBefore_begin] at beside
  exact beside

/-- Settles O28: the plates, the slots and the matter of the record in turn, each leaving the others. -/
theorem retireRemoves : Obligations.RetireRemoves := by
  unfold Obligations.RetireRemoves
  intro s tag folio today r names takes n used
  have run := exec_retire tag folio today s
  have owner := ownerRetire_eq (today := today) names
  refine ⟨fun state => ?_, fun filed held => ?_, fun filed free early => ?_, fun filed free due mark => ?_,
    fun c filed free due noMark before => ?_⟩
  · exact reads_of_refused .state run takes (owner.trans (if_pos state))
  · rw [if_neg (not_not.mpr filed)] at owner
    exact reads_of_refused .held run takes (owner.trans (ite_of_held _ _ held))
  · rw [if_neg (not_not.mpr filed), ite_of_not_held _ _ free] at owner
    exact reads_of_refused .early run takes (owner.trans (if_pos early))
  · rw [if_neg (not_not.mpr filed), ite_of_not_held _ _ free, if_neg (Nat.not_lt.mpr due)] at owner
    exact reads_of_refused .inUse run takes (owner.trans (ite_of_used _ _ mark))
  · rw [if_neg (not_not.mpr filed), ite_of_not_held _ _ free, if_neg (Nat.not_lt.mpr due),
      ite_of_not_used _ _ noMark] at owner
    have is := retired_spec (s := s.begin) c folio r (by rw [chainBefore_begin]; exact before)
    generalize s.begin.retireRecord folio r = t at is owner
    have left := leftMatter_of_begin is.left
    have port : t.port = s.port := (congrArg State.port is.frame :)
    have images : t.images = { s.images with free := t.images.free } := (congrArg State.images is.frame :)
    have folio_ : t.folio = { s.folio with freeSlots := t.folio.freeSlots, index := t.folio.index } := left.1
    have unchanged : Unchanged [.port, .folio, .record, .images] s t := by
      rw [is.frame]
      simp [Unchanged]
    have kept := is.kept
    rw [chainBefore_begin] at kept
    refine after_of_owner run takes owner ⟨answers_of_port port tag _, is.self, is.freeSlots,
      (congrArg FolioTable.kept folio_ :), (congrArg FolioTable.auditMark folio_ :),
      (congrArg FolioTable.exportMark folio_ :), is.queue, is.still, images, is.chains, left, fun q other => besideRetired_of_begin (is.beside q other),
      unchanged_answer (by decide) unchanged tag _, kept⟩

end Sys2Proof.Proofs
